-- ==== Sys2Proof/Word.lean ====
section
/-! DEFINITION. The word types of the LT240 and the small index types of its writers, lines, slots and buffers.

The spec's bit-wide quantities are bit vectors: a frame number is a 28-bit count and a tick stamp a 32-bit count, both of
which wrap (00_scope.md, Conventions, "Frames and ticks"), a counter is 32 bits and wraps (R33), a byte of the page or of
the output slot is 8 bits. Everything the spec measures or bounds but never wraps (settings, holds, lags, local counts) is a
natural number. -/

namespace Sys2Proof

/-- One byte of the shared page, of a writer's text or of an output slot. -/
abbrev Byte := BitVec 8

/-- A frame number: a 28-bit count that wraps (Conventions; R3, R13). -/
abbrev Frame := BitVec 28

/-- A tick stamp: 16 × frame number + the tick within the frame, 32 bits (Conventions; R4). -/
abbrev Stamp := BitVec 32

/-- A 32-bit wrapping counter, sequence number or register word. -/
abbrev Word32 := BitVec 32

/-- Writer w, on line WLw (Conventions, "Names"). -/
abbrev Writer := Fin 4

/-- One of the 64 cue slots of the page (R152). -/
abbrev SlotNo := Fin 64

/-- One of the inserter's four staging buffers. -/
abbrev BufferNo := Fin 4

/-- One of the two cue contexts of DO (R122). -/
abbrev CtxNo := Fin 2

/-- One of the six capture lines in the order VOX0, VOX1, CUE0 to CUE3 (R181). -/
abbrev LineNo := Fin 6

end Sys2Proof
end

