-- ==== Sys2Proof/Config.lean ====
section
/-! DEFINITION. What the part fixes once and for all: the capacities of its queues and lists.

The spec leaves no result of any step undefined, so there is no free value here: where two events fall at the same moment
the spec says that either may be taken first, and the order of the commands in the queue says which (notes/assumptions/1). -/

namespace Sys2Proof.Config

/-- LQ holds 0 to 8 row records (R47). -/
def liveQueueRows : Nat := 8

/-- The air schedule holds at most 24 entries (R100). -/
def scheduleEntries : Nat := 24

/-- The internal journal buffer holds 0 to 32 records (R154, R165). -/
def journalRecords : Nat := 32

/-- The journal ring in the page has 256 records (R152, R166). -/
def ringRecords : Nat := 256

/-- An onset list holds 0 to 16 onsets (R53, R58). -/
def onsetsPerLine : Nat := 16

/-- The row area has 2,048 entries (R152). -/
def rowEntries : Nat := 2048

/-- The shared page is 0x29000 bytes long (R153). -/
def pageBytes : Nat := 0x29000

/-- A page access not completed within 10 ms, which is 270,000 counts of the 27 MHz clock, is failed (R153). -/
def accessCounts : Nat := 270000

end Sys2Proof.Config
end

