-- ==== Sys2Proof/Syntax.lean ====
section
/-! DEFINITION. The commands of the LT240: one constructor of Instr for each row of spec/opcode_table.json.

The LT240 is a block, not a processor. A row of the table is an event that reaches it: a host write to its register window,
an edge or an expiry at its timebase, an event of a writer line, a piece of a frame boundary's work, or the completion or
failure of a page access. Each constructor carries a Moment (how many local counts have passed since the command before it,
and what the six capture lines read at it) and what the event itself brings: the word written, the line's waveform, the
bytes a read returned. -/

namespace Sys2Proof

/-- When a command comes: dt local counts of the 27 MHz clock after the command before it, with the six capture lines at
the given raw levels (true is high), in the order VOX0, VOX1, CUE0 to CUE3. Two commands at the same moment have dt 0
between them, and their order in the queue says which is taken first. -/
structure Moment where
  dt : Nat
  lines : Vector Bool 6
  deriving DecidableEq, Repr

/-- The seven words of the register window (R171). -/
inductive Reg where
  | ident | control | status | attn | attnEnable | pageBaseLo | pageBaseHi
  deriving DecidableEq, Repr

/-- Which page access in flight an event of the card link concerns: the scan, settings read or halting flush, or the row
fetch of a cue context (R153, R163). -/
inductive Access where
  | engine
  | fetch (ctx : CtxNo)
  deriving DecidableEq, Repr

/-- The commands, in the order of the opcode table. -/
inductive Instr where
  /-- HARDWARE_RESET (R176): RESET_N goes low. -/
  | hardwareReset (m : Moment)
  /-- SOFT_RESET (R176): a CONTROL write of word with SOFT_RESET as 1. -/
  | softReset (m : Moment) (word : Word32)
  /-- RUN_SET (R174): a CONTROL write of word with RUN as 1 and SOFT_RESET as 0. -/
  | runSet (m : Moment) (word : Word32)
  /-- RUN_CLEAR (R175): a CONTROL write of word with RUN as 0 and SOFT_RESET as 0. -/
  | runClear (m : Moment) (word : Word32)
  /-- FREEZE (R173): a CONTROL write of word with FREEZE as 1 and SOFT_RESET as 0. -/
  | freeze (m : Moment) (word : Word32)
  /-- ATTN_CLEAR (R177): a write of word to ATTN. -/
  | attnClear (m : Moment) (word : Word32)
  /-- PAGE_FAULT_CLEAR (R169): a write of word to ATTN with the PAGE_FAULT bit as 0. -/
  | pageFaultClear (m : Moment) (word : Word32)
  /-- ATTN_ENABLE_WRITE (R178): a write of word to ATTN_ENABLE. -/
  | attnEnableWrite (m : Moment) (word : Word32)
  /-- PAGE_BASE_WRITE (R172): a write of word to PAGE_BASE_HI (high) or PAGE_BASE_LO. -/
  | pageBaseWrite (m : Moment) (high : Bool) (word : Word32)
  /-- REGISTER_WRITE_DISCARDED (R172): a write of word to reg that the part discards. -/
  | registerWriteDiscarded (m : Moment) (reg : Reg) (word : Word32)
  /-- REFERENCE_PULSE (R6): a rising edge on REF_IN. -/
  | referencePulse (m : Moment)
  /-- LOSS_EXPIRY (R7): the loss interval runs out. -/
  | lossExpiry (m : Moment)
  /-- FREEWHEEL_EXPIRY (R8): the freewheel interval runs out. -/
  | freewheelExpiry (m : Moment)
  /-- TICK_STEP (R54): a frame boundary, or the sub-frame tick rising. -/
  | tickStep (m : Moment)
  /-- CHARACTER_ACCEPTED (R25): the third sample of a stop bit on line w. edges lists the local counts, from the
  character's start edge, at which the line changed level again. -/
  | characterAccepted (m : Moment) (w : Writer) (edges : List Nat)
  /-- BREAK_SEEN (R20): line w has been at space without a break for space local counts. -/
  | breakSeen (m : Moment) (w : Writer) (space : Nat)
  /-- RESYNC_BREAK (R24): line w, in RESYNC, has been at space without a break for space local counts. -/
  | resyncBreak (m : Moment) (w : Writer) (space : Nat)
  /-- SPAN_TOO_LONG (R21): the span of the alignment character on line w is past its limit. -/
  | spanTooLong (m : Moment) (w : Writer)
  /-- ALIGNMENT_CHARACTER (R22): the last bit of the alignment character on line w that has to be judged is judged. edges
  lists the local counts, from the character's start edge, at which the line changed level after the edge at d6. -/
  | alignmentCharacter (m : Moment) (w : Writer) (edges : List Nat)
  /-- RESYNC_END (R28): line w, in RESYNC, has been at mark without a break for mark local counts. -/
  | resyncEnd (m : Moment) (w : Writer) (mark : Nat)
  /-- PAUSE_EVENT (R30): the pause test of writer w at the present boundary. -/
  | pauseEvent (m : Moment) (w : Writer)
  /-- SILENT_LEAD (R92): the lead has been found silent. -/
  | silentLead (m : Moment)
  /-- HANDOFF_TIMEOUT (R88): the timeout test of the handoff at the present boundary. -/
  | handoffTimeout (m : Moment)
  /-- ONSET_AGED (R59): onsets past the matching window at the present boundary. -/
  | onsetAged (m : Moment)
  /-- LAST_ONSET_LAPSE (R59): last onsets too old at the present boundary. -/
  | lastOnsetLapse (m : Moment)
  /-- BUFFER_FREE_LAPSE (R103): buffer free frames reached at the present boundary. -/
  | bufferFreeLapse (m : Moment)
  /-- MIRROR_PAST (R147): mirror rows shown 4,096 frames before the present boundary. -/
  | mirrorPast (m : Moment)
  /-- AT_FRAME_DUE (R127): AT_FRAME cues whose start frame the present boundary reaches. -/
  | atFrameDue (m : Moment)
  /-- CUE_WAIT_EXPIRED (R129): due cues whose wait limit the present boundary reaches. -/
  | cueWaitExpired (m : Moment)
  /-- SHOW (R142): the present boundary's slot, with the head entry's SHOW or SHOW_FRESH. -/
  | showRow (m : Moment)
  /-- PENDING_CLEAR (R116): the present boundary's slot, with the pending CLEAR. -/
  | pendingClear (m : Moment)
  /-- HEADER_READ_COMPLETE (R156): the read of the header's three host words, in a scan or halting flush, returns header. -/
  | headerReadComplete (m : Moment) (header : List Byte)
  /-- SETTINGS_APPLICATION (R157): the settings block read of a scan returns block. -/
  | settingsApplication (m : Moment) (block : List Byte)
  /-- SETTINGS_READ_COMPLETE (R160): the settings read of STARTING returns header, the three host words, and block. -/
  | settingsReadComplete (m : Moment) (header : List Byte) (block : List Byte)
  /-- CUE_TABLE_READ_COMPLETE (R161): the cue table read of a scan returns table. -/
  | cueTableReadComplete (m : Moment) (table : List Byte)
  /-- SLOT_WRITE_COMPLETE (R162): the write-back of a cue slot is done. -/
  | slotWriteComplete (m : Moment)
  /-- STATUS_WRITE_COMPLETE (R164): the header and status block writes are done. -/
  | statusWriteComplete (m : Moment)
  /-- JOURNAL_WRITE_COMPLETE (R166): the write of a journal record is done. -/
  | journalWriteComplete (m : Moment)
  /-- FETCH_COMPLETE (R133): the row fetch of cue context ctx returns entry. -/
  | fetchComplete (m : Moment) (ctx : CtxNo) (entry : List Byte)
  /-- PAGE_FAULT (R168): the card link reports the access at page offset offset unsuccessful. -/
  | pageFault (m : Moment) (access : Access) (offset : Nat)
  /-- ACCESS_TIMEOUT (R153): 10 ms have passed since the request of the access at page offset offset. -/
  | accessTimeout (m : Moment) (access : Access) (offset : Nat)
  /-- RESET_N_RISE (R176): RESET_N goes high. -/
  | resetNRise (m : Moment)
  /-- ALIGNMENT_START_EDGE (R20): line w falls for the first time after the break has ended. -/
  | alignmentStartEdge (m : Moment) (w : Writer)
  /-- SPAN_MEASURED (R21): line w falls at data bit d6, having risen rise local counts after the start edge. -/
  | spanMeasured (m : Moment) (w : Writer) (rise : Nat)
  deriving DecidableEq, Repr

/-- The moment of a command. -/
def Instr.moment : Instr → Moment
  | .hardwareReset m => m
  | .softReset m _ => m
  | .runSet m _ => m
  | .runClear m _ => m
  | .freeze m _ => m
  | .attnClear m _ => m
  | .pageFaultClear m _ => m
  | .attnEnableWrite m _ => m
  | .pageBaseWrite m _ _ => m
  | .registerWriteDiscarded m _ _ => m
  | .referencePulse m => m
  | .lossExpiry m => m
  | .freewheelExpiry m => m
  | .tickStep m => m
  | .characterAccepted m _ _ => m
  | .breakSeen m _ _ => m
  | .resyncBreak m _ _ => m
  | .spanTooLong m _ => m
  | .alignmentCharacter m _ _ => m
  | .resyncEnd m _ _ => m
  | .pauseEvent m _ => m
  | .silentLead m => m
  | .handoffTimeout m => m
  | .onsetAged m => m
  | .lastOnsetLapse m => m
  | .bufferFreeLapse m => m
  | .mirrorPast m => m
  | .atFrameDue m => m
  | .cueWaitExpired m => m
  | .showRow m => m
  | .pendingClear m => m
  | .headerReadComplete m _ => m
  | .settingsApplication m _ => m
  | .settingsReadComplete m _ _ => m
  | .cueTableReadComplete m _ => m
  | .slotWriteComplete m => m
  | .statusWriteComplete m => m
  | .journalWriteComplete m => m
  | .fetchComplete m _ _ => m
  | .pageFault m _ _ => m
  | .accessTimeout m _ _ => m
  | .resetNRise m => m
  | .alignmentStartEdge m _ => m
  | .spanMeasured m _ _ => m

end Sys2Proof
end

