-- ==== Sys2Proof/Decode.lean ====
section
/-! DEFINITION. The decoder over the rows of spec/opcode_table.json that give bits.

No row of the table gives bits (its rows have no fixed bits and no fields: the commands are events, not words), so no word
spells a command and the decoder answers none for every word. -/

namespace Sys2Proof

/-- The command that a word of nbits bits spells by the table's bits: none, since no row gives bits. -/
def decodeTableWord (_nbits _w : Nat) : Option Instr := none

end Sys2Proof
end

