-- ==== Sys2Proof/Machine/State.lean ====
section
/-! DEFINITION. The state of the LT240 as plain data: one record for each block of the part, the applied settings, the
bytes the part has written to the shared page, and the queue of commands that are waiting.

Fields that are the model's own and not the spec's say so in their docstrings (INVENTORY.md lists them apart). -/

namespace Sys2Proof.Machine

/-! ### Control (CT) -/

/-- The run states of the part, in STATUS order (R171). -/
inductive RunState where
  | halted | starting | running | halting
  deriving DecidableEq, Repr

/-- CT: the RUN bit, the freeze state, the run state, the attention flags and their enables (R171 to R178). -/
structure Control where
  run : Bool
  freeze : Bool
  runState : RunState
  attn : BitVec 8
  enable : BitVec 8
  deriving DecidableEq, Repr

/-! ### Settings (R158) -/

/-- The edge setting of a capture line, in code order (R53, R158). -/
inductive EdgeSel where
  | none | rising | falling | both
  deriving DecidableEq, Repr

/-- The three settings of a capture line: edge, sample period p and filter count F (R53). -/
structure LineSettings where
  edge : EdgeSel
  period : Nat
  filter : Nat
  deriving DecidableEq, Repr

/-- Parity of a writer line, in code order (R14, R158). -/
inductive Parity where
  | none | even | odd
  deriving DecidableEq, Repr

/-- Which voice lines a writer's onsets come from, in code order (R70). -/
inductive VoiceMap where
  | vox0 | vox1 | both
  deriving DecidableEq, Repr

/-- The group B settings of one writer (R158); auto is the automatic rate mode. -/
structure WriterSettings where
  enable : Bool
  auto : Bool
  divisor : Nat
  parity : Parity
  voice : VoiceMap
  partner : Option Writer
  deriving DecidableEq, Repr

/-- Every group A, B and C value in force (R154, R158). The frame-number load is not kept here: TB holds it as a pending
load once it is taken (R11). -/
structure Settings where
  -- group A, structure
  rateCode : Nat
  divider : Nat
  slotUnits : Nat
  rowWidth : Nat
  displayRows : Nat
  leadAtStart : Option Writer
  -- group B, on-air
  delay : Nat
  liveLevel : Nat
  writers : Vector WriterSettings 4
  lines : Vector LineSettings 6
  -- group C, tuning
  lmin : Nat
  lmax : Nat
  lseed : Nat
  smooth : Nat
  gate : Nat
  pauseFrames : Nat
  silenceFrames : Nat
  handoffFrames : Nat
  holdBase : Nat
  holdChar : Nat
  lateAbove : Nat
  catchAbove : Nat
  dropAbove : Nat
  linger : Nat
  feedWindow : Nat
  forcedLead : Option Writer
  deriving DecidableEq, Repr

/-- The defaults of R158 for a writer. -/
def WriterSettings.default : WriterSettings :=
  { enable := false, auto := false, divisor := 2813, parity := .none, voice := .both, partner := none }

/-- The defaults of R158 for a capture line. -/
def LineSettings.default : LineSettings := { edge := .none, period := 1, filter := 3 }

/-- The defaults of R158. -/
def Settings.default : Settings :=
  { rateCode := 0, divider := 1, slotUnits := 8, rowWidth := 32, displayRows := 2, leadAtStart := some 0
    delay := 0, liveLevel := 2
    writers := Vector.replicate 4 WriterSettings.default
    lines := Vector.replicate 6 LineSettings.default
    lmin := 20, lmax := 250, lseed := 75, smooth := 3, gate := 640
    pauseFrames := 12, silenceFrames := 250, handoffFrames := 125
    holdBase := 8, holdChar := 10, lateAbove := 25, catchAbove := 50, dropAbove := 0, linger := 200
    feedWindow := 100, forcedLead := none }

/-! ### Timebase (TB) -/

/-- The timebase states, in STATUS order (R12, R171). -/
inductive TbMode where
  | unlocked | locked | freewheel
  deriving DecidableEq, Repr

/-- TB's record (R2). The frame origin and the last accepted pulse are local counts. stepped is the model's own: the tick
of the last tick step of the present frame, so that a tick step is each rise of the sub-frame tick once (R54). -/
structure Timebase where
  mode : TbMode
  frame : Frame
  origin : Option Nat
  lastPulse : Option Nat
  phase : Bool
  heldTick : Nat
  load : Option Frame
  glitches : Word32
  stepped : Option Nat
  deriving DecidableEq, Repr

/-! ### Writer lines (WL) -/

/-- Port states, in status block order (R182). -/
inductive PortMode where
  | off | acquire | run | resync
  deriving DecidableEq, Repr

/-- Acquisition phases of a port in ACQUIRE (R20 to R22). -/
inductive AcqPhase where
  | seekBreak | breakSeen | measure | check
  deriving DecidableEq, Repr

/-- A port record (R16). startEdge, edges and measured are the character in reception of an acquisition: the recorded start
edge, the recorded edges as counts from it (R20), and the divisor of R21. since and lookFrom are the model's own: the local
count from which a stretch of space or mark may be timed (R20, R23, R28), and the one from which a start edge is looked for
(R14, R18), which is how a character in reception is abandoned. -/
structure Port where
  mode : PortMode
  phase : Option AcqPhase
  divisor : Option Nat
  startEdge : Option Nat
  edges : List Nat
  measured : Option Nat
  framing : Nat
  pauseCount : Nat
  pauseArmed : Bool
  pauseFlag : Bool
  silence : Nat
  since : Nat
  lookFrom : Nat
  deriving DecidableEq, Repr

/-- The thirteen counters of a writer, in the order of R33. -/
structure Counters where
  characters : Word32
  noise : Word32
  parityErrors : Word32
  framingErrors : Word32
  alignmentErrors : Word32
  ignoredCodes : Word32
  rowsClosed : Word32
  refused : Word32
  rowsShown : Word32
  rowsDropped : Word32
  accepted : Word32
  rejected : Word32
  unmatched : Word32
  deriving DecidableEq, Repr

/-! ### Row builders (RB) and rows -/

/-- A character of an assembly buffer, with the tick stamp at which it was placed (R34). -/
structure TextChar where
  ch : Byte
  stamp : Stamp
  deriving DecidableEq, Repr

/-- A row builder's record (R34). -/
structure Builder where
  chars : List TextChar
  arrival : Option Stamp
  heldId : Option Word32
  markHeld : Bool
  markPending : Bool
  deriving DecidableEq, Repr

/-- Close reasons, in code order (R38, R186). -/
inductive CloseReason where
  | rowCode | wrap | pause | speaker | handoff
  deriving DecidableEq, Repr

/-- Where a row comes from, with the fields of R97 that only such a row has. offset is the clamped offset, hold the hold
override as taken from the row entry, clamped whether the fetch set CLAMPED (R134, R183). -/
inductive Source where
  | live (w : Writer) (arrival : Stamp) (reason : CloseReason) (mark : Bool)
  | cue (slot : SlotNo) (pos : Nat) (start : Frame) (offset : Nat) (hold : Option Nat) (fresh : Bool) (clamped : Bool)
  deriving DecidableEq, Repr

/-- A row record: id, text and source (R38, R97, R134). -/
structure Row where
  id : Word32
  text : List Byte
  source : Source
  deriving DecidableEq, Repr

/-! ### Event capture (EC) -/

/-- The filter record of a capture line (R53); its applied settings are in Settings.lines. -/
structure Capture where
  filtered : Bool
  steps : Nat
  candidates : Nat
  candStamp : Option Stamp
  captures : Word32
  deriving DecidableEq, Repr

/-- A speech onset: its tick stamp and one consumed mark a writer (R58). Its line is the list that holds it. -/
structure Onset where
  stamp : Stamp
  marks : Vector Bool 4
  deriving DecidableEq, Repr

/-! ### Latency estimator (LE) -/

/-- LE's record of a writer: the estimate in ticks, or unset, and the consecutive-reject count (R67). -/
structure Estimator where
  estimate : Option Nat
  rejects : Nat
  deriving DecidableEq, Repr

/-! ### Lead arbiter (LA) -/

/-- A writer's role, in status block order (R82, R182). -/
inductive Role where
  | standby | taking | lead
  deriving DecidableEq, Repr

/-- A handoff context: the taker and the frames it has waited (R82). -/
structure Handoff where
  taker : Writer
  waited : Nat
  deriving DecidableEq, Repr

/-- LA's record (R82); its applied settings are in Settings. -/
structure Arbiter where
  lead : Option Writer
  roles : Vector Role 4
  handoff : Option Handoff
  silenceReported : Bool
  deriving DecidableEq, Repr

/-! ### Air scheduler (AS) -/

/-- The flags of a schedule entry (R97). -/
structure RowFlags where
  late : Bool
  catchup : Bool
  clamped : Bool
  deriving DecidableEq, Repr

/-- A schedule entry: the row record and the fields AS adds at entry (R97). -/
structure Entry where
  row : Row
  latency : Option Nat
  ideal : Frame
  showAt : Frame
  hold : Nat
  buffer : BufferNo
  stageStart : Frame
  stagedBy : Frame
  sent : Nat
  flags : RowFlags
  deriving DecidableEq, Repr

/-- AS's record (R99). -/
structure AirSchedule where
  entries : List Entry
  horizon : Option Frame
  bufFree : Vector (Option Frame) 4
  catchup : Bool
  clear : Option Frame
  lastLag : Nat
  deriving DecidableEq, Repr

/-! ### Display ownership and cue player (DO) -/

/-- An entry of the owner stack: the live entry or a cue context (R121). -/
inductive Owner where
  | live
  | ctx (k : CtxNo)
  deriving DecidableEq, Repr

/-- Where the live stream stands, in status block order (R123, R182). -/
inductive LivePlace where
  | absent | waiting | inStack
  deriving DecidableEq, Repr

/-- The states of a cue slot, in code order (R183). -/
inductive CueState where
  | free | posted | armed | due | running | suspended | done | aborted | refused | expired
  deriving DecidableEq, Repr

/-- Refusal and ending reasons of a cue, in code order (R184). -/
inductive CueReason where
  | none | level | rows | line | kind | withdrawn | halt | reset | wait
  deriving DecidableEq, Repr

/-- Start kinds, in code order (R125); invalid stands for a code above 2, which is refused (R126). -/
inductive StartKind where
  | immediate | atFrame | onTrigger | invalid
  deriving DecidableEq, Repr

/-- A cue record (R125). -/
structure Cue where
  state : CueState
  level : Nat
  kind : StartKind
  startFrame : Frame
  line : Nat
  firstRow : Nat
  rowCount : Nat
  waitLimit : Nat
  clearOnStart : Bool
  dueFrame : Option Frame
  start : Option Frame
  shown : Nat
  dropped : Nat
  reason : CueReason
  deriving DecidableEq, Repr

/-- Fetch states of a cue context, in status block order (R132, R182). -/
inductive FetchState where
  | none | inFlight | void
  deriving DecidableEq, Repr

/-- An occupied cue context (R132). fetchEntry and fetchSince belong to the fetch in flight: the row-area entry it reads and
the local count of its request (R153, R163). refetch is the position whose fetch a page fault abandoned, until the scan that
follows the fault is complete (R133, R169). -/
structure Context where
  slot : SlotNo
  next : Nat
  offsets : List Nat
  fetch : FetchState
  fetchEntry : Nat
  fetchSince : Nat
  refetch : Option Nat
  deriving DecidableEq, Repr

/-- DO's record (R122): the owner stack from bottom to top, the live place, the pending live level, the cue table, the
AT_FRAME watch, the due list and the two cue contexts, with the trigger wait lists of EC beside them (R53, R62). -/
structure Display where
  stack : List Owner
  place : LivePlace
  pendingLevel : Option Nat
  cues : Vector (Option Cue) 64
  watch : List SlotNo
  due : List SlotNo
  waits : Vector (List SlotNo) 4
  ctx : Vector (Option Context) 2
  deriving DecidableEq, Repr

/-! ### Output encoder (OE) -/

/-- A mirror row: what its schedule entry had, and the past mark (R140, R147). -/
structure MirrorRow where
  row : Row
  showAt : Frame
  hold : Nat
  buffer : BufferNo
  flags : RowFlags
  past : Bool
  deriving DecidableEq, Repr

/-- The owed command (R140). -/
inductive Owed where
  | none | startClear | haltClear
  deriving DecidableEq, Repr

/-- OE's record (R140), and the bytes of the slot last sent on the caption output line (R187). -/
structure Output where
  mirror : List MirrorRow
  cursor : Option Word32
  completion : Vector (Option Frame) 4
  owed : Owed
  lastUnits : Nat
  slot : List Byte
  deriving DecidableEq, Repr

/-! ### Journal records (R186) -/

/-- Why a TB state changed, in code order (R12). -/
inductive RefCause where
  | firstPulse | loss | snap | realign | runStart | rateChange
  deriving DecidableEq, Repr

/-- Why a port state changed, in code order (R32, R92). -/
inductive PortCause where
  | enable | disable | settings | framing | framingLimit | resyncEnd | brk | aligned | silent
  deriving DecidableEq, Repr

/-- Why the lead changed, in code order (R89). -/
inductive LeadReason where
  | start | take | give | timeout | failover | forced | disabled
  deriving DecidableEq, Repr

/-- Why a correction was refused (R44); NOT_LEAD is counted and not journaled. -/
inductive RefuseReason where
  | otherWriter | onAirPath | notLive | none
  deriving DecidableEq, Repr

/-- Why a row was dropped, in code order (R186). -/
inductive DropReason where
  | stale | overflow | withdrawn | skipped
  deriving DecidableEq, Repr

/-- The operation whose access failed (R168, R182). -/
inductive FaultOp where
  | scan (step : Nat) | settingsRead | flush | fetch
  deriving DecidableEq, Repr

/-- A fault context (R168). -/
structure FaultContext where
  offset : Nat
  write : Bool
  op : FaultOp
  frame : Frame
  deriving DecidableEq, Repr

/-- The records of the journal, each with the fields its kind carries (R186). -/
inductive Record where
  /-- The entry as shown, whether fresh, and the completion frame of its buffer (R148). -/
  | rowShown (e : Entry) (fresh : Bool) (staged : Option Frame)
  /-- The row, the reason, the ideal and show frames where they were computed, and the lag (R47, R108, R115, R134). -/
  | rowDropped (row : Row) (reason : DropReason) (ideal showAt : Option Frame) (lag : Nat)
  | correctionRefused (w : Writer) (word : Bool) (reason : RefuseReason)
  | leadChange (outgoing incoming : Option Writer) (reason : LeadReason) (waited : Nat)
  | handoffRefused (refused taker lead : Writer)
  | giveIgnored (w : Writer)
  | writerState (w : Writer) (left entered : PortMode) (cause : PortCause) (divisor : Option Nat)
  | latencyReseed (w : Writer) (before after : Nat) (onset resumption : Stamp)
  | cueState (slot : SlotNo) (left entered : CueState) (reason : CueReason) (shown dropped : Nat) (start : Option Frame)
  | triggerUnused (line : Fin 4) (stamp : Stamp) (captured : Frame)
  | referenceState (left entered : TbMode) (cause : RefCause)
  | settings (generation : Word32) (clamped ignored : Nat) (firstClamped firstIgnored : Option Nat)
  | pageRecovered (context : FaultContext)
  deriving DecidableEq, Repr

/-- A record in the internal journal buffer, with the frame at which it was made (R165, R183). -/
structure JournalEntry where
  frame : Frame
  record : Record
  deriving DecidableEq, Repr

/-! ### Page engine (PE) -/

/-- The steps of the frame scan and the halting flush whose accesses are in flight (R155, R167). A step that writes holds
what it writes, taken when the write was issued: bytes at a page offset. dirty says that the cue player changed the slot
after the write was issued (R162); terminal that a terminal state is being written. -/
inductive PassStep where
  | header
  | settings
  | cueTable
  | slot (n : SlotNo) (data : List (Nat × List Byte)) (terminal dirty : Bool)
  | status (data : List (Nat × List Byte))
  | journal (data : List (Nat × List Byte))
  deriving DecidableEq, Repr

/-- A page engine operation in flight: a scan or flush with its step and the change words its step 1 read, or the settings
read of STARTING. since is the local count at which the accesses in flight were requested (R153). -/
inductive PageOp where
  | settingsRead (since : Nat)
  | pass (flush : Bool) (step : PassStep) (generation cueChange : Word32) (since : Nat)
  deriving DecidableEq, Repr

/-- PE's record (R154); the applied settings are in State.settings. -/
structure PageEngine where
  base : BitVec 64
  lastGeneration : Word32
  lastCueChange : Word32
  readMark : Word32
  writeCount : Word32
  buffer : List JournalEntry
  lost : Word32
  scans : Word32
  skipped : Word32
  clampCount : Word32
  ignoreCount : Word32
  marks : Vector Bool 64
  op : Option PageOp
  runStart : Bool
  recovery : Bool
  fault : Option FaultContext
  lastFault : Option FaultContext
  deriving DecidableEq, Repr

/-! ### The model's own record of a boundary's work -/

/-- The pieces of the present boundary's work that are rows of the opcode table and have not been taken yet (the model's
own; notes/assumptions/2). Each is taken by its command, and all that are left are taken before any later event. -/
structure Work where
  pause : Vector Bool 4
  timeout : Bool
  silence : Bool
  onsets : Bool
  lastOnsets : Bool
  buffers : Bool
  mirror : Bool
  atFrame : Bool
  expiry : Bool
  slot : Bool
  deriving DecidableEq, Repr

/-! ### The whole state -/

/-- The state of the part, block by block, and the queue of waiting commands. clock is the present local count, lines the
raw levels of the six capture lines, resetLow whether RESET_N is held low, mem the bytes of host memory that the part has
written, by host address. -/
structure State where
  clock : Nat
  lines : Vector Bool 6
  resetLow : Bool
  control : Control
  settings : Settings
  tb : Timebase
  ports : Vector Port 4
  counters : Vector Counters 4
  builders : Vector Builder 4
  queue : List Row
  nextRowId : Word32
  capture : Vector Capture 6
  onsets : Vector (List Onset) 2
  lastOnset : Vector (Option Stamp) 2
  est : Vector Estimator 4
  la : Arbiter
  air : AirSchedule
  disp : Display
  out : Output
  pe : PageEngine
  mem : List Host.Cell
  work : Work
  pending : List Instr
  deriving DecidableEq, Repr

/-- The reasons a step can stop with a fault: none. Every event of this block has an effect that the spec gives, so no
command ends in a fault; a page fault is part of the state (R168), not a stop. The empty type is safe. -/
inductive Fault where
  deriving DecidableEq, Repr

/-- The reasons a step can be refused. -/
inductive Refusal where
  /-- Raised by an arm of exec for a command that has no meaning yet. Safe: the model stops where the part goes on. No
  arm of this model raises it. -/
  | notModelled (mnemonic : String)
  deriving DecidableEq, Repr

/-! ### Reset values -/

/-- TB after either reset (R2): UNLOCKED, frame 0, a load of 0 pending. -/
def Timebase.reset : Timebase :=
  { mode := .unlocked, frame := 0, origin := none, lastPulse := none, phase := false, heldTick := 0, load := some 0
    glitches := 0, stepped := none }

/-- A port after either reset (R16). -/
def Port.reset : Port :=
  { mode := .off, phase := none, divisor := none, startEdge := none, edges := [], measured := none, framing := 0
    pauseCount := 0, pauseArmed := false, pauseFlag := false, silence := 0, since := 0, lookFrom := 0 }

/-- A writer's counters after either reset (R33). -/
def Counters.reset : Counters :=
  { characters := 0, noise := 0, parityErrors := 0, framingErrors := 0, alignmentErrors := 0, ignoredCodes := 0
    rowsClosed := 0, refused := 0, rowsShown := 0, rowsDropped := 0, accepted := 0, rejected := 0, unmatched := 0 }

/-- A row builder after either reset and after a halt (R34). -/
def Builder.reset : Builder :=
  { chars := [], arrival := none, heldId := none, markHeld := false, markPending := false }

/-- A capture line after either reset, its raw level at that moment being level (R53). -/
def Capture.reset (level : Bool) : Capture :=
  { filtered := level, steps := 0, candidates := 0, candStamp := none, captures := 0 }

/-- LE's record of a writer after either reset (R67). -/
def Estimator.reset : Estimator := { estimate := none, rejects := 0 }

/-- LA after either reset and after a halt (R82). -/
def Arbiter.reset : Arbiter :=
  { lead := none, roles := Vector.replicate 4 .standby, handoff := none, silenceReported := false }

/-- AS after either reset (R99). -/
def AirSchedule.reset : AirSchedule :=
  { entries := [], horizon := none, bufFree := Vector.replicate 4 none, catchup := false, clear := none, lastLag := 0 }

/-- DO and the trigger wait lists after either reset (R122, R53). -/
def Display.reset : Display :=
  { stack := [], place := .absent, pendingLevel := none, cues := Vector.replicate 64 none, watch := [], due := []
    waits := Vector.replicate 4 [], ctx := Vector.replicate 2 none }

/-- OE after either reset (R140); the line has sent no slot. -/
def Output.reset : Output :=
  { mirror := [], cursor := none, completion := Vector.replicate 4 none, owed := .none, lastUnits := 0, slot := [] }

/-- PE after hardware reset (R154). -/
def PageEngine.reset : PageEngine :=
  { base := 0, lastGeneration := 0, lastCueChange := 0, readMark := 0, writeCount := 0, buffer := [], lost := 0
    scans := 0, skipped := 0, clampCount := 0, ignoreCount := 0, marks := Vector.replicate 64 false, op := none
    runStart := false, recovery := false, fault := none, lastFault := none }

/-- CT after either reset (R172, R176). -/
def Control.reset : Control :=
  { run := false, freeze := false, runState := .halted, attn := 0, enable := 0 }

/-- No work outstanding. -/
def Work.none : Work :=
  { pause := Vector.replicate 4 false, timeout := false, silence := false, onsets := false, lastOnsets := false
    buffers := false, mirror := false, atFrame := false, expiry := false, slot := false }

/-- The part right after hardware reset, RESET_N high again (R176): HALTED, every block at its hardware reset values, no
byte of host memory written, no command waiting. The capture lines are taken as low then (DESIGN CHOICE,
notes/assumptions/5). -/
def State.reset : State :=
  { clock := 0
    lines := Vector.replicate 6 false
    resetLow := false
    control := Control.reset
    settings := Settings.default
    tb := Timebase.reset
    ports := Vector.replicate 4 Port.reset
    counters := Vector.replicate 4 Counters.reset
    builders := Vector.replicate 4 Builder.reset
    queue := []
    nextRowId := 0
    capture := Vector.replicate 6 (Capture.reset false)
    onsets := Vector.replicate 2 []
    lastOnset := Vector.replicate 2 none
    est := Vector.replicate 4 Estimator.reset
    la := Arbiter.reset
    air := AirSchedule.reset
    disp := Display.reset
    out := Output.reset
    pe := PageEngine.reset
    mem := []
    work := Work.none
    pending := [] }

end Sys2Proof.Machine
end

