-- ==== Sys2Proof/Machine/Flags.lean ====
section
/-! DEFINITION. The attention flags, the interrupt line and what the register window reads (R171, R172, R177, R178). -/

namespace Sys2Proof.Machine

/-- The attention flags, in the order of the ATTN bits (R171). -/
inductive AttnFlag where
  | journal | journalLost | pageFault | reference | lead | writer | settings | cue
  deriving DecidableEq, Repr

/-- The ATTN bit of a flag (R171). -/
def AttnFlag.bit : AttnFlag → Nat
  | .journal => 0
  | .journalLost => 1
  | .pageFault => 2
  | .reference => 3
  | .lead => 4
  | .writer => 5
  | .settings => 6
  | .cue => 7

/-- The byte with the flag's bit alone. -/
def AttnFlag.mask (f : AttnFlag) : BitVec 8 := BitVec.twoPow 8 f.bit

/-- Set an attention flag; a flag that is set stays set (R177). -/
def raise (f : AttnFlag) (s : State) : State :=
  { s with control := { s.control with attn := s.control.attn ||| f.mask } }

/-- Clear an attention flag. -/
def lower (f : AttnFlag) (s : State) : State :=
  { s with control := { s.control with attn := s.control.attn &&& ~~~f.mask } }

/-- Whether an attention flag is set. -/
def flagSet (f : AttnFlag) (s : State) : Bool := s.control.attn.getLsbD f.bit

/-- IRQ_N is driven low while at least one flag is set whose bit in ATTN_ENABLE is 1 (R178). -/
def irqLow (s : State) : Bool := (s.control.attn &&& s.control.enable) != 0

/-- The run state code of STATUS bits 1–0 (R171). -/
def RunState.code : RunState → Nat
  | .halted => 0
  | .starting => 1
  | .running => 2
  | .halting => 3

/-- The timebase code of STATUS bits 3–2 (R12, R171). -/
def TbMode.code : TbMode → Nat
  | .unlocked => 0
  | .locked => 1
  | .freewheel => 2

/-- Whether a frame scan is in flight (R155). -/
def scanActive (s : State) : Bool :=
  match s.pe.op with
  | some (.pass false _ _ _ _) => true
  | _ => false

/-- One bit of a register word. -/
def bitIf (b : Bool) (i : Nat) : Nat := if b then 2 ^ i else 0

/-- The offset of each word in the register window (R171). -/
def registerOffset : Reg → Nat
  | .ident => 0x00
  | .control => 0x04
  | .status => 0x08
  | .attn => 0x0C
  | .attnEnable => 0x10
  | .pageBaseLo => 0x14
  | .pageBaseHi => 0x18

/-- The seven words of the window, in order. -/
def allRegisters : List Reg := [.ident, .control, .status, .attn, .attnEnable, .pageBaseLo, .pageBaseHi]

/-- The word at an offset of the register window, where there is one (R171). -/
def registerAt (offset : Nat) : Option Reg := allRegisters.find? (fun r => registerOffset r == offset)

/-- What each word of the register window reads (R171, R172). -/
def readRegister (r : Reg) (s : State) : Word32 :=
  match r with
  | .ident => 0x02400001
  | .control => BitVec.ofNat 32 (bitIf s.control.run 0 + bitIf s.control.freeze 1)
  | .status =>
    BitVec.ofNat 32
      (s.control.runState.code + 4 * s.tb.mode.code + bitIf s.pe.fault.isSome 4 + bitIf s.control.freeze 5
        + bitIf (scanActive s) 6)
  | .attn => s.control.attn.setWidth 32
  | .attnEnable => s.control.enable.setWidth 32
  | .pageBaseLo => s.pe.base.setWidth 32
  | .pageBaseHi => (s.pe.base >>> 32).setWidth 32

/-- A read of the register window at an offset (R171). -/
def readWindow (offset : Nat) (s : State) : Option Word32 := (registerAt offset).map (fun r => readRegister r s)

end Sys2Proof.Machine
end

