-- ==== Sys2Proof/Machine/Ops.lean ====
section
/-! DEFINITION. The operations every block uses: tables of like things, arithmetic on time (R13), the thresholds of the
timebase (R1), ticks (R4), the internal journal buffer (R165), the bytes of host memory, and the counters. -/

namespace Sys2Proof.Machine

/-! ### Tables of like things -/

/-- The entry of a table at an index. -/
def get {α : Type} {n : Nat} (v : Vector α n) (i : Fin n) : α := v[i.val]

/-- A table with one entry replaced. -/
def put {α : Type} {n : Nat} (v : Vector α n) (i : Fin n) (x : α) : Vector α n := v.set i.val x i.isLt

/-- A table with one entry changed. -/
def change {α : Type} {n : Nat} (v : Vector α n) (i : Fin n) (f : α → α) : Vector α n := put v i (f (get v i))

/-! ### Arithmetic on time (R13) -/

/-- Frame a is later than frame b: (a − b) mod 2^28 lies in 1 to 2^27 − 1 (R13). -/
def later (a b : Frame) : Bool := decide (1 ≤ (a - b).toNat) && decide ((a - b).toNat ≤ 2 ^ 27 - 1)

/-- Frame a is at or after frame b: (a − b) mod 2^28 lies in 0 to 2^27 − 1 (R13). -/
def atOrAfter (a b : Frame) : Bool := decide ((a - b).toNat ≤ 2 ^ 27 - 1)

/-- Frame a is before frame b: it is not at or after b. Of two frames half the range apart each is before the other (R13). -/
def before (a b : Frame) : Bool := !atOrAfter a b

/-- Frame a is at or before frame b: it is not later than b (R13). -/
def atOrBefore (a b : Frame) : Bool := !later a b

/-- The latest of a written list: the first item, replaced by each following item that is later than the item kept (R13).
The lists of the spec always hold an item; the value for no item is never used. -/
def latestOf : List Frame → Frame
  | [] => 0
  | a :: rest => rest.foldl (fun kept f => if later f kept then f else kept) a

/-- The difference of two tick stamps, a − b, read as a signed number (R13). -/
def tickDiff (a b : Stamp) : Int := (a - b).toInt

/-- A tick stamp rounded to a frame, halves upward: ((t + 8) mod 2^32) div 16, mod 2^28 (R13). -/
def frameOf (t : Stamp) : Frame := BitVec.ofNat 28 ((t + 8).toNat / 16)

/-- The tick stamp of a tick within a frame: 16 × F + tick, mod 2^32 (R4). -/
def stampOf (f : Frame) (tick : Nat) : Stamp := BitVec.ofNat 32 (16 * f.toNat + tick)

/-- A frame a number of frames on, mod 2^28 (R13). -/
def addFrames (f : Frame) (n : Nat) : Frame := f + BitVec.ofNat 28 n

/-- The frames from b to a, mod 2^28 (R13, "Age tests"). -/
def framesSince (a b : Frame) : Nat := (a - b).toNat

/-- a ÷ b, rounded up. -/
def ceilDiv (a b : Nat) : Nat := (a + b - 1) / b

/-- A value clamped to a range (Conventions, "Clamped to"). -/
def clampTo (lo hi x : Nat) : Nat := if x < lo then lo else if hi < x then hi else x

/-! ### Thresholds of the timebase (R1) -/

/-- The nominal frame period P of a rate code, in local counts (R1). -/
def periodOf (rateCode : Nat) : Nat :=
  match rateCode with
  | 0 => 1080000
  | 1 => 900900
  | 2 => 540000
  | _ => 450450

/-- The frame period in force (R1). -/
def framePeriod (s : State) : Nat := periodOf s.settings.rateCode

/-- The pulse period in force: P divided by the field divider (R1). -/
def pulsePeriod (s : State) : Nat := framePeriod s / s.settings.divider

/-- The glitch threshold (3 × Q) div 4 (R1, R6). -/
def glitchLimit (s : State) : Nat := 3 * pulsePeriod s / 4

/-- (3 × P) div 4, the boundary test of divider 2 (R1, R6). -/
def fieldLimit (s : State) : Nat := 3 * framePeriod s / 4

/-- P + P div 2, the loss interval (R1, R7). -/
def lossCounts (s : State) : Nat := framePeriod s + framePeriod s / 2

/-! ### Ticks (R4) -/

/-- The sub-frame tick at the present local count: the larger of the held tick and the sixteenths of P since the frame
origin, at most 15; the held tick alone where there is no origin (R4). -/
def subTick (s : State) : Nat :=
  match s.tb.origin with
  | none => s.tb.heldTick
  | some o => max s.tb.heldTick (min 15 (16 * (s.clock - o) / framePeriod s))

/-- The tick stamp at the present local count (R4). -/
def stampNow (s : State) : Stamp := stampOf s.tb.frame (subTick s)

/-- A tick is handed out: the held tick is raised to it (R4). -/
def holdTick (s : State) : State := { s with tb := { s.tb with heldTick := subTick s } }

/-! ### The journal buffer (R165) -/

/-- A record is made: it joins the tail of the internal buffer, or is lost and counted where the buffer is full (R165). -/
def journal (r : Record) (s : State) : State :=
  if s.pe.buffer.length < Config.journalRecords then
    { s with pe := { s.pe with buffer := s.pe.buffer ++ [{ frame := s.tb.frame, record := r }] } }
  else raise .journalLost { s with pe := { s.pe with lost := s.pe.lost + 1 } }

/-! ### Counters (R33) -/

/-- Change a writer's counters. -/
def count (w : Writer) (f : Counters → Counters) (s : State) : State :=
  { s with counters := change s.counters w f }

/-! ### Host memory

The bytes the part has written, by host address, strictly rising; an address that is not listed has not been written by
the part, and reads as no value (notes/assumptions/3). -/

/-- What the part has written at an address, or none. -/
def readMem : List Host.Cell → Nat → Option Byte
  | [], _ => none
  | (a, b) :: rest, x => if x = a then some b else readMem rest x

/-- One byte written. -/
def writeMem : List Host.Cell → Nat → Byte → List Host.Cell
  | [], x, v => [(x, v)]
  | (a, b) :: rest, x, v =>
    if x < a then (x, v) :: (a, b) :: rest
    else if x = a then (x, v) :: rest
    else (a, b) :: writeMem rest x v

/-- Bytes written one after another from an address. -/
def writeBytes : List Host.Cell → Nat → List Byte → List Host.Cell
  | m, _, [] => m
  | m, x, v :: rest => writeBytes (writeMem m x v) (x + 1) rest

/-- The canonical form: addresses strictly rising. -/
def memWf : List Host.Cell → Bool
  | [] => true
  | [_] => true
  | (a, _) :: (b, v) :: rest => decide (a < b) && memWf ((b, v) :: rest)

/-- The page access of a write that completes: each piece of data at its offset from the page base (R153). -/
def writePage (data : List (Nat × List Byte)) (s : State) : State :=
  { s with mem := data.foldl (fun m d => writeBytes m (s.pe.base.toNat + d.1) d.2) s.mem }

/-! ### Short reads of the state -/

/-- Whether the part is RUNNING. -/
def isRunning (s : State) : Bool := decide (s.control.runState = .running)

/-- The port of a writer. -/
def portOf (s : State) (w : Writer) : Port := get s.ports w

/-- The group B settings of a writer. -/
def writerOf (s : State) (w : Writer) : WriterSettings := get s.settings.writers w

/-- The row builder of a writer. -/
def builderOf (s : State) (w : Writer) : Builder := get s.builders w

/-- The role of a writer. -/
def roleOf (s : State) (w : Writer) : Role := get s.la.roles w

/-- The cue record of a slot, where the slot is held. -/
def cueOf (s : State) (n : SlotNo) : Option Cue := get s.disp.cues n

/-- A cue context, where it is occupied. -/
def ctxOf (s : State) (k : CtxNo) : Option Context := get s.disp.ctx k

/-- Change a writer's port. -/
def onPort (w : Writer) (f : Port → Port) (s : State) : State := { s with ports := change s.ports w f }

/-- Change a writer's row builder. -/
def onBuilder (w : Writer) (f : Builder → Builder) (s : State) : State :=
  { s with builders := change s.builders w f }

/-- All writers, in order. -/
def allWriters : List Writer := [0, 1, 2, 3]

/-- All capture lines, in order. -/
def allLines : List LineNo := [0, 1, 2, 3, 4, 5]

/-- All cue slots, in order. -/
def allSlots : List SlotNo := List.finRange 64

end Sys2Proof.Machine
end

