-- ==== Sys2Proof/Machine/Operands.lean ====
section
/-! DEFINITION. Reading what a command brings: the waveform of a character (R14, R15, R22), the header's host words (R156,
R180), the settings block (R158, R159, R181, R183), a cue slot (R183, R184) and a row-area entry (R134, R183, R185). -/

namespace Sys2Proof.Machine

/-! ### Bytes of a read -/

/-- The byte at an offset; a byte that the read did not return reads as 0 (notes/assumptions/4). -/
def byteAt (data : List Byte) (off : Nat) : Nat := (data.getD off 0).toNat

/-- Two bytes, little-endian (R179). -/
def le16 (data : List Byte) (off : Nat) : Nat := byteAt data off + 256 * byteAt data (off + 1)

/-- Four bytes, little-endian (R179). -/
def le32 (data : List Byte) (off : Nat) : Nat := le16 data off + 65536 * le16 data (off + 2)

/-! ### Characters on a writer line (R14, R15) -/

/-- The level of the line t counts after the start edge (true is mark): the line falls to space at the start edge, and
changes level at each of the edges. -/
def levelAt (edges : List Nat) (t : Nat) : Bool := (edges.filter (fun e => decide (e ≤ t))).length % 2 == 1

/-- The centre of bit position i, in counts from the start edge (R15). -/
def bitCentre (divisor i : Nat) : Nat := i * divisor + divisor / 2

/-- The three samples of bit position i (R15). -/
def bitSamples (edges : List Nat) (divisor i : Nat) : Bool × Bool × Bool :=
  (levelAt edges (bitCentre divisor i - divisor / 8), levelAt edges (bitCentre divisor i),
    levelAt edges (bitCentre divisor i + divisor / 8))

/-- The majority of three levels (R15). -/
def majority (v : Bool × Bool × Bool) : Bool := (v.1 && v.2.1) || (v.1 && v.2.2) || (v.2.1 && v.2.2)

/-- The value of bit position i (R15). -/
def bitValue (edges : List Nat) (divisor i : Nat) : Bool := majority (bitSamples edges divisor i)

/-- Whether the three samples of bit position i disagree (R15). -/
def bitNoisy (edges : List Nat) (divisor i : Nat) : Bool :=
  let v := bitSamples edges divisor i
  !(v.1 == v.2.1 && v.2.1 == v.2.2)

/-- The position of the stop bit (R14). -/
def stopPosition (p : Parity) : Nat := if p = .none then 9 else 10

/-- The counts from the start edge to the third sample of bit position i (R15). -/
def thirdSample (divisor i : Nat) : Nat := bitCentre divisor i + divisor / 8

/-- The data byte: d0 to d7 at positions 1 to 8, least significant first (R14). -/
def charByte (edges : List Nat) (divisor : Nat) : Byte :=
  BitVec.ofNat 8 (((List.range 8).map (fun i => bitIf (bitValue edges divisor (i + 1)) i)).sum)

/-- The number of one bits of a byte. -/
def onesOf (b : Byte) : Nat := ((List.range 8).map (fun i => bitIf (b.getLsbD i) 0)).sum

/-- Whether a parity bit agrees with the parity setting for a byte (R14). -/
def parityAgrees (p : Parity) (b : Byte) (bit : Bool) : Bool :=
  match p with
  | .none => true
  | .even => (onesOf b + bitIf bit 0) % 2 == 0
  | .odd => (onesOf b + bitIf bit 0) % 2 == 1

/-- Whether any bit of a character is noisy (R15). -/
def charNoisy (edges : List Nat) (divisor : Nat) (p : Parity) : Bool :=
  (List.range (stopPosition p + 1)).any (bitNoisy edges divisor)

/-! ### Line codes (R29) -/

/-- What a delivered byte is (R29). -/
inductive ByteClass where
  | text | row | rub | rubWord | speaker | take | give | ignored
  deriving DecidableEq, Repr

/-- The class of a delivered byte (R29). -/
def classify (b : Byte) : ByteClass :=
  if b = 0x0D then .row
  else if b = 0x08 then .rub
  else if b = 0x17 then .rubWord
  else if b = 0x1E then .speaker
  else if b = 0x11 then .take
  else if b = 0x12 then .give
  else if b.toNat < 0x20 ∨ b = 0x7F then .ignored
  else .text

/-! ### The host words of the header (R156, R180) -/

/-- The three host words of the page header (R180). -/
structure HeaderWords where
  cueChange : Word32
  generation : Word32
  readMark : Word32
  deriving DecidableEq, Repr

/-- The host words in the header's first 12 bytes (R179, R180). -/
def parseHeader (header : List Byte) : HeaderWords :=
  { cueChange := BitVec.ofNat 32 (le32 header 0x00)
    generation := BitVec.ofNat 32 (le32 header 0x04)
    readMark := BitVec.ofNat 32 (le32 header 0x08) }

/-! ### The settings block (R158, R159, R181) -/

/-- A numeric field of the settings block: its offset, its size in bytes, and the range it is clamped to (R158, R181). -/
structure NumField where
  off : Nat
  size : Nat
  lo : Nat
  hi : Nat
  deriving DecidableEq, Repr

/-- The value written in a field (R179). -/
def NumField.raw (f : NumField) (block : List Byte) : Nat :=
  match f.size with
  | 1 => byteAt block f.off
  | 2 => le16 block f.off
  | _ => le32 block f.off

/-- The value a field is taken as: the nearest limit of its range (R159). -/
def NumField.value (f : NumField) (block : List Byte) : Nat := clampTo f.lo f.hi (f.raw block)

/-- Whether a field is written outside its range (R159). -/
def NumField.outside (f : NumField) (block : List Byte) : Bool := f.value block != f.raw block

def fieldRate : NumField := ⟨0x00, 1, 0, 3⟩
def fieldDivider : NumField := ⟨0x01, 1, 1, 2⟩
def fieldUnits : NumField := ⟨0x02, 1, 4, 32⟩
def fieldWidth : NumField := ⟨0x03, 1, 20, 42⟩
def fieldRows : NumField := ⟨0x04, 1, 1, 4⟩
def fieldLoad : NumField := ⟨0x08, 4, 0, 268435455⟩
def fieldDelay : NumField := ⟨0x0C, 2, 0, 1023⟩
def fieldLevel : NumField := ⟨0x0E, 1, 1, 7⟩
def fieldMode (w : Nat) : NumField := ⟨0x11 + 8 * w, 1, 0, 1⟩
def fieldDivisor (w : Nat) : NumField := ⟨0x12 + 8 * w, 2, 234, 22500⟩
def fieldParity (w : Nat) : NumField := ⟨0x14 + 8 * w, 1, 0, 2⟩
def fieldVoice (w : Nat) : NumField := ⟨0x15 + 8 * w, 1, 0, 2⟩
def fieldEdge (i : Nat) : NumField := ⟨0x30 + 4 * i, 1, 0, 3⟩
def fieldFilter (i : Nat) : NumField := ⟨0x32 + 4 * i, 1, 1, 15⟩
def fieldLmin : NumField := ⟨0x48, 2, 0, 1023⟩
def fieldLmax : NumField := ⟨0x4A, 2, 0, 1023⟩
def fieldLseed : NumField := ⟨0x4C, 2, 0, 1023⟩
def fieldSmooth : NumField := ⟨0x4E, 1, 1, 6⟩
def fieldGate : NumField := ⟨0x50, 2, 0, 16383⟩
def fieldPause : NumField := ⟨0x52, 1, 1, 255⟩
def fieldSilence : NumField := ⟨0x54, 2, 0, 4095⟩
def fieldHandoff : NumField := ⟨0x56, 2, 0, 4095⟩
def fieldHoldBase : NumField := ⟨0x58, 1, 0, 255⟩
def fieldHoldChar : NumField := ⟨0x59, 1, 0, 255⟩
def fieldLate : NumField := ⟨0x5A, 1, 0, 255⟩
def fieldCatch : NumField := ⟨0x5C, 2, 0, 1023⟩
def fieldDrop : NumField := ⟨0x5E, 2, 0, 4095⟩
def fieldLinger : NumField := ⟨0x60, 2, 0, 4095⟩
def fieldWindow : NumField := ⟨0x62, 2, 1, 1023⟩

/-- The offset of the frame-number load request (R181). -/
def loadRequestOffset : Nat := 0x06

/-- The offset of the forced lead (R181). -/
def forcedLeadOffset : Nat := 0x64

/-- Whether the block carries a frame-number load request (R179: non-zero reads as set). -/
def loadRequested (block : List Byte) : Bool := byteAt block loadRequestOffset != 0

/-- A writer number field: 0 to 3, anything else read as none (R159). -/
def writerField (n : Nat) : Option Writer := if h : n < 4 then some ⟨n, h⟩ else none

/-- A relay partner: a number from 0 to 3 that does not name the writer itself (R83, R159). -/
def partnerField (w : Writer) (n : Nat) : Option Writer :=
  match writerField n with
  | some p => if p = w then none else some p
  | none => none

/-- The parity of a code in range (R158). -/
def parityOfCode : Nat → Parity
  | 0 => .none
  | 1 => .even
  | _ => .odd

/-- The voice map of a code in range (R70). -/
def voiceOfCode : Nat → VoiceMap
  | 0 => .vox0
  | 1 => .vox1
  | _ => .both

/-- The edge setting of a code in range (R57). -/
def edgeOfCode : Nat → EdgeSel
  | 0 => .none
  | 1 => .rising
  | 2 => .falling
  | _ => .both

/-- A sample period: 0 is taken as 1, 3 and anything above 4 as 4 (R57). -/
def periodField (n : Nat) : Nat := if n = 0 then 1 else if n ≤ 2 then n else 4

/-- The offset of line i's sample period (R181). -/
def periodOffset (i : Nat) : Nat := 0x31 + 4 * i

/-- The settings of writer w in a block (R158, R159, R181). -/
def parseWriter (block : List Byte) (w : Writer) : WriterSettings :=
  { enable := byteAt block (0x10 + 8 * w.val) != 0
    auto := (fieldMode w.val).value block == 1
    divisor := (fieldDivisor w.val).value block
    parity := parityOfCode ((fieldParity w.val).value block)
    voice := voiceOfCode ((fieldVoice w.val).value block)
    partner := partnerField w (byteAt block (0x16 + 8 * w.val)) }

/-- The settings of capture line i in a block (R57, R158, R181). -/
def parseLine (block : List Byte) (i : LineNo) : LineSettings :=
  { edge := edgeOfCode ((fieldEdge i.val).value block)
    period := periodField (byteAt block (periodOffset i.val))
    filter := (fieldFilter i.val).value block }

/-- Every value of a block as it would be applied, after the clamps of R159. -/
def parseSettings (block : List Byte) : Settings :=
  { rateCode := fieldRate.value block
    divider := fieldDivider.value block
    slotUnits := fieldUnits.value block
    rowWidth := fieldWidth.value block
    displayRows := fieldRows.value block
    leadAtStart := writerField (byteAt block 0x05)
    delay := fieldDelay.value block
    liveLevel := fieldLevel.value block
    writers := Vector.ofFn (parseWriter block)
    lines := Vector.ofFn (parseLine block)
    lmin := fieldLmin.value block
    lmax := fieldLmax.value block
    lseed := fieldLseed.value block
    smooth := fieldSmooth.value block
    gate := fieldGate.value block
    pauseFrames := fieldPause.value block
    silenceFrames := fieldSilence.value block
    handoffFrames := fieldHandoff.value block
    holdBase := fieldHoldBase.value block
    holdChar := fieldHoldChar.value block
    lateAbove := fieldLate.value block
    catchAbove := fieldCatch.value block
    dropAbove := fieldDrop.value block
    linger := fieldLinger.value block
    feedWindow := fieldWindow.value block
    forcedLead := writerField (byteAt block forcedLeadOffset) }

/-- The frame-number load a block requests, clamped (R11). -/
def parseLoad (block : List Byte) : Option Frame :=
  if loadRequested block then some (BitVec.ofNat 28 (fieldLoad.value block)) else none

/-- The offset of a field, where the field is written outside its range. -/
def outsideAt (block : List Byte) (f : NumField) : List Nat := if f.outside block then [f.off] else []

/-- The offsets of a writer's fields written outside their ranges. -/
def outsideWriter (block : List Byte) (w : Writer) : List Nat :=
  outsideAt block (fieldMode w.val) ++ outsideAt block (fieldDivisor w.val) ++ outsideAt block (fieldParity w.val)
    ++ outsideAt block (fieldVoice w.val)

/-- The offsets of a capture line's fields written outside their ranges (R57). -/
def outsideLine (block : List Byte) (i : LineNo) : List Nat :=
  let p := byteAt block (periodOffset i.val)
  outsideAt block (fieldEdge i.val) ++ (if periodField p != p then [periodOffset i.val] else [])
    ++ outsideAt block (fieldFilter i.val)

/-- The offsets of all fields of a block that are clamped, in the order of the block (R159). The load value is a field to be
applied only where the request is present (notes/assumptions/14). -/
def clampedFields (block : List Byte) : List Nat :=
  ([fieldRate, fieldDivider, fieldUnits, fieldWidth, fieldRows].flatMap (outsideAt block))
    ++ (if loadRequested block then outsideAt block fieldLoad else [])
    ++ outsideAt block fieldDelay ++ outsideAt block fieldLevel
    ++ allWriters.flatMap (outsideWriter block)
    ++ allLines.flatMap (outsideLine block)
    ++ ([fieldLmin, fieldLmax, fieldLseed, fieldSmooth, fieldGate, fieldPause, fieldSilence, fieldHandoff, fieldHoldBase,
        fieldHoldChar, fieldLate, fieldCatch, fieldDrop, fieldLinger, fieldWindow].flatMap (outsideAt block))

/-- The offset of a compared field, where it differs. -/
def differsAt (off : Nat) (same : Bool) : List Nat := if same then [] else [off]

/-- The group A fields that an application in RUNNING ignores (R158). The frame-number load is one field by R158, and R181
gives it a request at 0x06 and a value at 0x08: an ignored load is named by the offset of its request (DESIGN CHOICE,
notes/assumptions/49). -/
def ignoredA (applied new : Settings) (block : List Byte) : List Nat :=
  differsAt 0x00 (applied.rateCode == new.rateCode) ++ differsAt 0x01 (applied.divider == new.divider)
    ++ differsAt 0x02 (applied.slotUnits == new.slotUnits) ++ differsAt 0x03 (applied.rowWidth == new.rowWidth)
    ++ differsAt 0x04 (applied.displayRows == new.displayRows)
    ++ differsAt 0x05 (applied.leadAtStart == new.leadAtStart)
    ++ differsAt loadRequestOffset (!loadRequested block)

/-- The group B fields of a writer that an application with FREEZE set ignores (R158). -/
def ignoredWriter (w : Nat) (applied new : WriterSettings) : List Nat :=
  differsAt (0x10 + 8 * w) (applied.enable == new.enable) ++ differsAt (0x11 + 8 * w) (applied.auto == new.auto)
    ++ differsAt (0x12 + 8 * w) (applied.divisor == new.divisor)
    ++ differsAt (0x14 + 8 * w) (applied.parity == new.parity)
    ++ differsAt (0x15 + 8 * w) (applied.voice == new.voice)
    ++ differsAt (0x16 + 8 * w) (applied.partner == new.partner)

/-- The group B fields of a capture line that an application with FREEZE set ignores (R57, R158). -/
def ignoredLine (i : Nat) (applied new : LineSettings) : List Nat :=
  differsAt (0x30 + 4 * i) (applied.edge == new.edge) ++ differsAt (0x31 + 4 * i) (applied.period == new.period)
    ++ differsAt (0x32 + 4 * i) (applied.filter == new.filter)

/-- The group B fields that an application with FREEZE set ignores (R158). -/
def ignoredB (applied new : Settings) : List Nat :=
  differsAt 0x0C (applied.delay == new.delay) ++ differsAt 0x0E (applied.liveLevel == new.liveLevel)
    ++ allWriters.flatMap (fun w => ignoredWriter w.val (get applied.writers w) (get new.writers w))
    ++ allLines.flatMap (fun i => ignoredLine i.val (get applied.lines i) (get new.lines i))

/-! ### Cue slots (R183, R184) -/

/-- The state of a slot's state byte; any value that is no code is treated as FREE (R183). -/
def cueStateOfCode : Nat → CueState
  | 1 => .posted
  | 2 => .armed
  | 3 => .due
  | 4 => .running
  | 5 => .suspended
  | 6 => .done
  | 7 => .aborted
  | 8 => .refused
  | 9 => .expired
  | _ => .free

/-- The start kind of a code (R125). -/
def startKindOfCode : Nat → StartKind
  | 0 => .immediate
  | 1 => .atFrame
  | 2 => .onTrigger
  | _ => .invalid

/-- The bytes of one slot of the cue table (R184). -/
def slotBytes (table : List Byte) (n : SlotNo) : List Byte := (table.drop (32 * n.val)).take 32

/-- The withdraw flag of a slot (R184). -/
def withdrawFlag (slot : List Byte) : Bool := byteAt slot 0x01 != 0

/-- The state byte of a slot (R183). -/
def slotState (slot : List Byte) : CueState := cueStateOfCode (byteAt slot 0x00)

/-- The cue record taken from a slot, in a given state (R125, R184). A start frame above the largest frame number is taken
as that number (R179; notes/assumptions/15). -/
def parseCue (slot : List Byte) (st : CueState) : Cue :=
  { state := st
    level := byteAt slot 0x02
    kind := startKindOfCode (byteAt slot 0x03)
    startFrame := BitVec.ofNat 28 (clampTo 0 268435455 (le32 slot 0x04))
    line := byteAt slot 0x08
    firstRow := le16 slot 0x0A
    rowCount := byteAt slot 0x0C
    waitLimit := clampTo 0 4095 (le16 slot 0x0E)
    clearOnStart := byteAt slot 0x09 != 0
    dueFrame := none
    start := none
    shown := 0
    dropped := 0
    reason := .none }

/-! ### Row-area entries (R134, R183, R185) -/

/-- The length a row-area entry gives (R185). -/
def entryLength (entry : List Byte) : Nat := byteAt entry 0x00

/-- The offset a row-area entry gives, in frames (R185). -/
def entryOffset (entry : List Byte) : Nat := le16 entry 0x02

/-- The hold override of a row-area entry, where it is present, at most 4,095 (R183, R185). -/
def entryHold (entry : List Byte) : Option Nat :=
  if byteAt entry 0x01 = 0 then none else some (clampTo 0 4095 (le16 entry 0x04))

/-- Whether a hold override is present and above 4,095 (R183). -/
def entryHoldOver (entry : List Byte) : Bool := byteAt entry 0x01 != 0 && decide (4095 < le16 entry 0x04)

/-- The text bytes of a row-area entry that are read: from 0x10, for the length given or W bytes, whichever is fewer (R183). -/
def entryRawText (entry : List Byte) (width : Nat) : List Byte :=
  (List.range (min (entryLength entry) width)).map (fun i => BitVec.ofNat 8 (byteAt entry (0x10 + i)))

/-- A text byte below 0x20 is taken as a space (R134). -/
def spaceIfLow (b : Byte) : Byte := if b.toNat < 0x20 then 0x20 else b

/-- The text of a fetched row (R134). -/
def entryText (entry : List Byte) (width : Nat) : List Byte := (entryRawText entry width).map spaceIfLow

/-- Whether the text of a fetched row was truncated or changed (R134). -/
def entryTextClamped (entry : List Byte) (width : Nat) : Bool :=
  decide (width < entryLength entry) || (entryRawText entry width).any (fun b => decide (b.toNat < 0x20))

end Sys2Proof.Machine
end

