-- ==== Sys2Proof/Machine/Schedule.lean ====
section
/-! DEFINITION. The live queue (R47 to R49) and the air schedule (R97 to R118): placing a row, entering or dropping it, the
feed attempt, tail removals, and the pending clear. -/

namespace Sys2Proof.Machine

/-! ### The live queue -/

/-- A row of a writer is dropped: its writer's rows-dropped counter rises (R33). -/
def countDropped (r : Row) (s : State) : State :=
  match r.source with
  | .live w _ _ _ => count w (fun c => { c with rowsDropped := c.rowsDropped + 1 }) s
  | .cue _ _ _ _ _ _ _ => s

/-- An overflow drop: counted and journaled with the row's id, writer and text (R47). -/
def overflowDrop (r : Row) (s : State) : State :=
  journal (.rowDropped r .overflow none none 0) (countDropped r s)

/-- A lead close joins LQ at the tail; if LQ already held 8 rows, the head is removed first (R47). -/
def joinTail (r : Row) (s : State) : State :=
  match s.queue with
  | head :: rest =>
    if Config.liveQueueRows ≤ s.queue.length then overflowDrop head { s with queue := rest ++ [r] }
    else { s with queue := s.queue ++ [r] }
  | [] => { s with queue := [r] }

/-- Rows are removed from the head, one at a time, until 8 remain; n bounds the removals (R49). -/
def trimQueue : Nat → State → State
  | 0, s => s
  | n + 1, s =>
    match s.queue with
    | head :: rest =>
      if Config.liveQueueRows < s.queue.length then trimQueue n (overflowDrop head { s with queue := rest }) else s
    | [] => s

/-- Withdrawn rows join LQ at the head, in their order (R49). -/
def joinHead (rows : List Row) (s : State) : State :=
  trimQueue (rows.length + s.queue.length) { s with queue := rows ++ s.queue }

/-! ### Placing a row -/

/-- What stages 1 to 5 of an entry give (R101). -/
structure Placement where
  latency : Option Nat
  ideal : Frame
  buffer : BufferNo
  stageStart : Frame
  stagedBy : Frame
  showAt : Frame
  lag : Nat
  deriving DecidableEq, Repr

/-- The latency used and the ideal show frame of a row (R102). A writer's estimate is set whenever the part is RUNNING
(R68), which is whenever a row enters. -/
def idealFrame (r : Row) (s : State) : Option Nat × Frame :=
  match r.source with
  | .live w arrival _ _ =>
    let latency := ((get s.est w).estimate).getD 0
    (some latency, frameOf (arrival - BitVec.ofNat 32 latency + BitVec.ofNat 32 (16 * s.settings.delay)))
  | .cue _ _ start offset _ _ _ => (none, addFrames start (offset + s.settings.delay))

/-- The effective free frame of a buffer: its free frame where that is present and later than now, else now (R103). -/
def effectiveFree (s : State) (b : BufferNo) : Frame :=
  match get s.air.bufFree b with
  | some f => if later f s.tb.frame then f else s.tb.frame
  | none => s.tb.frame

/-- The buffer with the earliest effective free frame, the lowest number among those that tie (R103). -/
def chooseBuffer (s : State) : BufferNo :=
  [1, 2, 3].foldl (fun kept b => if later (effectiveFree s kept) (effectiveFree s b) then b else kept) 0

/-- The whole frames of staging of a row of n characters: ceil((n + 2) ÷ (C − 1)) (R103). -/
def stagingFrames (n : Nat) (s : State) : Nat := ceilDiv (n + 2) (s.settings.slotUnits - 1)

/-- The hold floor, from the row that will stand before a new row on screen (R106). -/
def holdFloor (s : State) : Option Frame :=
  match s.air.entries.getLast? with
  | some e => some (addFrames e.showAt e.hold)
  | none =>
    match s.out.mirror.getLast? with
    | some r =>
      if !r.past && decide (framesSince s.tb.frame r.showAt ≤ r.hold) then some (addFrames r.showAt r.hold) else none
    | none => none

/-- Stages 1 to 5: the ideal frame, the buffer and staging, the hold floor, the show frame and the lag (R102 to R107). -/
def placeRow (r : Row) (s : State) : Placement :=
  let ideal := idealFrame r s
  let buffer := chooseBuffer s
  let frames := stagingFrames r.text.length s
  let next := addFrames s.tb.frame 1
  let start := latestOf (s.air.horizon.toList ++ [next, effectiveFree s buffer])
  let showAt := latestOf ([ideal.2, addFrames start frames] ++ (holdFloor s).toList ++ [next])
  { latency := ideal.1
    ideal := ideal.2
    buffer := buffer
    stageStart := start
    stagedBy := addFrames start (frames - 1)
    showAt := showAt
    lag := framesSince showAt ideal.2 }

/-- A lag as records and the status block carry it: saturated at 65,535 (R107). -/
def shownLag (lag : Nat) : Nat := min lag 65535

/-- The live catch-up state after the entry of a live row of the given lag (R110). -/
def catchupAfter (s : State) (lag : Nat) : Bool :=
  if s.settings.catchAbove = 0 then false
  else if s.air.catchup then decide (s.settings.catchAbove / 2 < lag)
  else decide (s.settings.catchAbove < lag)

/-- The computed hold of a row of n characters: Hbase + ceil(n × Hchar ÷ 16), at least 1 (R105). -/
def computedHold (n base char : Nat) : Nat := max 1 (base + ceilDiv (n * char) 16)

/-- The hold of a row, with the live catch-up state already updated by it (R105). -/
def rowHold (r : Row) (catchup : Bool) (s : State) : Nat :=
  match r.source with
  | .live _ _ _ _ =>
    if catchup then computedHold r.text.length (s.settings.holdBase / 2) (s.settings.holdChar / 2)
    else computedHold r.text.length s.settings.holdBase s.settings.holdChar
  | .cue _ _ _ _ (some hold) _ _ => max 1 hold
  | .cue _ _ _ _ none _ _ => computedHold r.text.length s.settings.holdBase s.settings.holdChar

/-- Whether a row is from the live stream. -/
def isLiveRow (r : Row) : Bool :=
  match r.source with
  | .live _ _ _ _ => true
  | .cue _ _ _ _ _ _ _ => false

/-- Whether the CLAMPED flag of a row is set: at its fetch (R134), or by an override of 0 (R105). -/
def rowClamped (r : Row) : Bool :=
  match r.source with
  | .live _ _ _ _ => false
  | .cue _ _ _ _ hold _ clamped => clamped || hold == some 0

/-- The live catch-up state after the entry of a row: a cue row leaves it as it is (R110). -/
def catchupWith (r : Row) (lag : Nat) (s : State) : Bool :=
  if isLiveRow r then catchupAfter s lag else s.air.catchup

/-- The schedule entry of a row that enters (R97, R109). -/
def entryOf (r : Row) (p : Placement) (s : State) : Entry :=
  let catchup := catchupWith r p.lag s
  { row := r
    latency := p.latency
    ideal := p.ideal
    showAt := p.showAt
    hold := rowHold r catchup s
    buffer := p.buffer
    stageStart := p.stageStart
    stagedBy := p.stagedBy
    sent := 0
    flags :=
      { late := decide (s.settings.lateAbove < p.lag)
        catchup := isLiveRow r && catchup
        clamped := rowClamped r } }

/-- A row enters at the tail, and AS's record is written (R109). -/
def enterRow (r : Row) (p : Placement) (s : State) : State :=
  { s with air :=
      { entries := s.air.entries ++ [entryOf r p s]
        horizon := some (addFrames p.stagedBy 1)
        bufFree := put s.air.bufFree p.buffer (some (addFrames p.showAt 1))
        catchup := catchupWith r p.lag s
        clear := none
        lastLag := shownLag p.lag } }

/-- Whether a row of a given lag is dropped as stale (R108). -/
def isStale (lag : Nat) (s : State) : Bool :=
  decide (s.settings.dropAbove ≠ 0) && decide (s.settings.dropAbove < lag)

/-- A row is offered to AS: it enters, or is dropped as stale with its record and its writer's count (R101, R108, R109). The
answer says whether it was dropped. -/
def offerRow (r : Row) (s : State) : State × Bool :=
  let p := placeRow r s
  if isStale p.lag s then
    (journal (.rowDropped r .stale (some p.ideal) (some p.showAt) p.lag) (countDropped r s), true)
  else (enterRow r p s, false)

/-! ### Feed attempts (R48) -/

/-- The owner of the display: the top of the owner stack (R121). -/
def topOwner (s : State) : Option Owner := s.disp.stack.getLast?

/-- The three conditions of a feed attempt (R48). -/
def canFeed (s : State) : Bool :=
  isRunning s && topOwner s == some .live && decide (s.air.entries.length < Config.scheduleEntries)

/-- Rows move from the head of LQ while the conditions hold; n bounds the rows moved (R48). -/
def feedRows : Nat → State → State
  | 0, s => s
  | n + 1, s =>
    match s.queue with
    | r :: rest => if canFeed s then feedRows n (offerRow r { s with queue := rest }).1 else s
    | [] => s

/-- A feed attempt (R48). -/
def feedAttempt (s : State) : State := feedRows s.queue.length s

/-! ### Leaving the schedule (R111 to R117) -/

/-- The pending clear as a removal that leaves the schedule empty sets it (R116). -/
def pendingClearFrame (s : State) : Option Frame :=
  match s.out.mirror.getLast? with
  | some r =>
    if s.settings.linger = 0 then none
    else if r.past then some s.tb.frame
    else some (addFrames r.showAt (max s.settings.linger r.hold))
  | none => none

/-- The pending clear after a removal: set where the schedule is now empty (R116). -/
def clearAfterRemoval (s : State) : Option Frame :=
  if s.air.entries.isEmpty then pendingClearFrame s else s.air.clear

/-- The free frame of a buffer after a tail removal (R112). -/
def bufferAfterRemoval (entries : List Entry) (mirror : List MirrorRow) (b : BufferNo) : Option Frame :=
  match entries.reverse.find? (fun e => e.buffer == b) with
  | some e => some (addFrames e.showAt 1)
  | none =>
    match mirror.reverse.find? (fun r => r.buffer == b && !r.past) with
    | some r => some (addFrames r.showAt 1)
    | none => none

/-- The schedule after a tail removal that leaves the given entries, with AS's record recomputed (R112). -/
def keepEntries (kept : List Entry) (s : State) : State :=
  let s' := { s with air :=
    { s.air with
      entries := kept
      horizon := kept.getLast?.map (fun (e : Entry) => addFrames e.stagedBy 1)
      bufFree := Vector.ofFn (bufferAfterRemoval kept s.out.mirror) } }
  { s' with air := { s'.air with clear := clearAfterRemoval s' } }

/-- Whether an entry is WAITING (R98). -/
def isWaiting (e : Entry) : Bool := e.sent == 0

/-- Whether an entry is STAGED (R98). -/
def isStaged (e : Entry) : Bool := decide (e.row.text.length + 2 ≤ e.sent)

/-- The WAITING entries that satisfy a test: by R98 and R112 a tail of the schedule. -/
def waitingOf (p : Entry → Bool) (s : State) : List Entry := s.air.entries.filter (fun e => isWaiting e && p e)

/-- Remove the WAITING entries that satisfy a test (R112). With none of them nothing is removed, and nothing is computed anew
(DESIGN CHOICE, notes/assumptions/48). -/
def removeWaiting (p : Entry → Bool) (s : State) : State :=
  if (waitingOf p s).isEmpty then s
  else keepEntries (s.air.entries.filter (fun e => !(isWaiting e && p e))) s

/-- Whether an entry is a row of the live stream. -/
def isLiveEntry (e : Entry) : Bool := isLiveRow e.row

/-- Whether an entry is a row of the cue in a slot. -/
def isCueEntry (n : SlotNo) (e : Entry) : Bool :=
  match e.row.source with
  | .cue m _ _ _ _ _ _ => m == n
  | .live _ _ _ _ => false

/-- The position of a cue row in its cue. -/
def rowPosition (r : Row) : Nat :=
  match r.source with
  | .cue _ pos _ _ _ _ _ => pos
  | .live _ _ _ _ => 0

/-- The live stream leaves the top: every WAITING live entry goes back to the head of LQ (R113). The feed attempt that R113
makes moves nothing, since the live stream is no longer on top. -/
def withdrawLive (s : State) : State :=
  removeWaiting isLiveEntry (joinHead ((waitingOf isLiveEntry s).map Entry.row) s)

/-- The WAITING entries of a withdrawn cue are journaled one by one, in schedule order (R115). -/
def journalWithdrawn (s : State) (e : Entry) : State :=
  journal (.rowDropped e.row .withdrawn (some e.ideal) (some e.showAt) (framesSince e.showAt e.ideal)) s

/-- AS discards the WAITING entries of the withdrawn cue in a slot (R115). -/
def discardCue (n : SlotNo) (s : State) : State :=
  removeWaiting (isCueEntry n) ((waitingOf (isCueEntry n) s).foldl journalWithdrawn s)

end Sys2Proof.Machine
end

