-- ==== Sys2Proof/Machine/Display.lean ====
section
/-! DEFINITION. Display ownership and the cue player (R121 to R138): the owner stack, the due list, acceptance, suspension,
pops, the live entry, feeding a cue's rows, and withdrawal. -/

namespace Sys2Proof.Machine

/-! ### Cue records and their write-back marks -/

/-- Whether a cue state is terminal (R125). -/
def isTerminal : CueState → Bool
  | .done | .aborted | .refused | .expired => true
  | .free | .posted | .armed | .due | .running | .suspended => false

/-- The write in flight carries a slot that has changed since: it will be written again (R162). -/
def dirtyOp (n : SlotNo) : Option PageOp → Option PageOp
  | some (.pass flush (.slot m data terminal dirty) gen cue since) =>
    some (.pass flush (.slot m data terminal (dirty || m == n)) gen cue since)
  | op => op

/-- Set a slot's write-back mark (R162). -/
def markSlot (n : SlotNo) (s : State) : State :=
  { s with pe := { s.pe with marks := put s.pe.marks n true, op := dirtyOp n s.pe.op } }

/-- Store a slot's cue record. -/
def storeCue (n : SlotNo) (c : Option Cue) (s : State) : State :=
  { s with disp := { s.disp with cues := put s.disp.cues n c } }

/-- Store a held cue whose part-written fields have changed (R162). -/
def updateCue (n : SlotNo) (c : Cue) (s : State) : State := markSlot n (storeCue n (some c) s)

/-- A cue changes state from left to c.state: one CUE_STATE record, and attention CUE at a terminal state (R138). -/
def cueTurns (n : SlotNo) (left : CueState) (c : Cue) (s : State) : State :=
  let s' := journal (.cueState n left c.state c.reason c.shown c.dropped c.start) (updateCue n c s)
  if isTerminal c.state then raise .cue s' else s'

/-- Change a cue context. -/
def storeCtx (k : CtxNo) (x : Option Context) (s : State) : State :=
  { s with disp := { s.disp with ctx := put s.disp.ctx k x } }

/-- Replace the owner stack. -/
def withStack (stack : List Owner) (s : State) : State := { s with disp := { s.disp with stack := stack } }

/-- The cue held by a context. -/
def cueOfCtx (s : State) (k : CtxNo) : Option Cue := (ctxOf s k).bind (fun x => cueOf s x.slot)

/-! ### Levels (R121) -/

/-- The level of an owner: the applied live level, or the cue's level (R121). -/
def levelOf (s : State) : Owner → Nat
  | .live => s.settings.liveLevel
  | .ctx k => ((cueOfCtx s k).map Cue.level).getD 0

/-- The owner level: the top entry's level, or 0 when the stack is empty (R121). -/
def ownerLevel (s : State) : Nat := ((topOwner s).map (levelOf s)).getD 0

/-- The free cue context with the lower number (R130). -/
def freeCtx (s : State) : Option CtxNo := ([0, 1] : List CtxNo).find? (fun k => (ctxOf s k).isNone)

/-- The context in the owner stack that holds the cue of a slot. -/
def stackedCtx (n : SlotNo) (s : State) : Option CtxNo :=
  ([0, 1] : List CtxNo).find? (fun k => s.disp.stack.contains (.ctx k) && (ctxOf s k).any (fun x => x.slot == n))

/-! ### The feed test (R132) -/

/-- The offset floor: the last fetched offset, or 0 (R132). -/
def offsetFloor (x : Context) : Nat := x.offsets.getLast?.getD 0

/-- Whether a context's next row may be fetched now (R132). A position whose fetch a page fault abandoned waits for the scan
that follows the fault (R169; DEDUCED, notes/assumptions/29). -/
def mayFetch (x : Context) (c : Cue) (s : State) : Bool :=
  isRunning s && s.pe.fault.isNone && x.fetch == .none && decide (x.next < c.rowCount)
    && decide (s.air.entries.length < Config.scheduleEntries)
    && atOrBefore (addFrames (c.start.getD 0) (offsetFloor x + s.settings.delay))
      (addFrames s.tb.frame s.settings.feedWindow)
    && x.refetch != some x.next

/-- The feed test of the top of the stack, when that is a cue context: its next row's fetch is requested (R132, R163). -/
def feedTest (s : State) : State :=
  match topOwner s with
  | some (.ctx k) =>
    match ctxOf s k with
    | some x =>
      match cueOf s x.slot with
      | some c =>
        if mayFetch x c s then
          storeCtx k (some { x with fetch := .inFlight, fetchEntry := c.firstRow + x.next, fetchSince := s.clock }) s
        else s
      | none => s
    | none => s
  | _ => s

/-! ### The due list (R127, R128) -/

/-- Whether the due cue in slot n stands before the one in slot m: by level, highest first, then by due frame, earliest
first, then by slot number (R128). Of two due frames half the range apart each is before the other (R13), and neither cue
stands before the other by this test: the one already in the list stays ahead (DESIGN CHOICE, notes/assumptions/40). -/
def dueBefore (s : State) (n m : SlotNo) : Bool :=
  match cueOf s n, cueOf s m with
  | some a, some b =>
    let fa := a.dueFrame.getD 0
    let fb := b.dueFrame.getD 0
    decide (b.level < a.level) || (a.level == b.level && (later fb fa || (fa == fb && decide (n < m))))
  | _, _ => false

/-- A slot number put at its place in the due list (R128). -/
def insertDue (s : State) (n : SlotNo) : List SlotNo → List SlotNo
  | [] => [n]
  | m :: rest => if dueBefore s n m then n :: m :: rest else m :: insertDue s n rest

/-- An ARMED cue becomes DUE with start frame c, its due frame the present frame, and joins the due list (R127). -/
def becomeDue (n : SlotNo) (start : Frame) (s : State) : State :=
  match cueOf s n with
  | some c =>
    let s' := cueTurns n c.state { c with state := .due, dueFrame := some s.tb.frame, start := some start } s
    { s' with disp := { s'.disp with due := insertDue s' n s'.disp.due } }
  | none => s

/-! ### Taking the display (R130) -/

/-- A fetch in flight becomes void (R133). -/
def voidFetch (f : FetchState) : FetchState :=
  match f with
  | .inFlight => .void
  | .void => .void
  | .none => .none

/-- The RUNNING cue of context k is suspended: its WAITING entries leave the schedule, its next-row index and offsets go
back to the first of them, and a fetch in flight becomes void (R114, R130). No feed test is made for it at that removal
(DESIGN CHOICE, notes/assumptions/36). -/
def suspendCue (k : CtxNo) (s : State) : State :=
  match ctxOf s k with
  | some x =>
    match cueOf s x.slot with
    | some c =>
      if c.state = .running then
        let next := (((waitingOf (isCueEntry x.slot) s).head?).map (fun e => rowPosition e.row)).getD x.next
        let x' := { x with next := next, offsets := x.offsets.take next, fetch := voidFetch x.fetch }
        cueTurns x.slot .running { c with state := .suspended }
          (storeCtx k (some x') (removeWaiting (isCueEntry x.slot) s))
      else s
    | none => s
  | none => s

/-- What an acceptance does to the old top (R130 step 2). -/
def preemptTop (s : State) : State :=
  match topOwner s with
  | some .live => withdrawLive s
  | some (.ctx k) => suspendCue k s
  | none => s

/-- The first due cue, in slot n, is accepted into context k: it leaves the due list, preempts the top, is pushed, becomes
RUNNING, and its feed test is made (R130). -/
def acceptCue (n : SlotNo) (c : Cue) (k : CtxNo) (s : State) : State :=
  let s1 := preemptTop { s with disp := { s.disp with due := s.disp.due.erase n } }
  let x : Context := { slot := n, next := 0, offsets := [], fetch := .none, fetchEntry := 0, fetchSince := 0, refetch := none }
  let s2 := withStack (s1.disp.stack ++ [.ctx k]) (storeCtx k (some x) s1)
  feedTest (cueTurns n c.state { c with state := .running } s2)

/-- The test of the due list; the answer says whether a cue was accepted (R128). -/
def dueTest (s : State) : State × Bool :=
  match s.disp.due with
  | [] => (s, false)
  | n :: _ =>
    match cueOf s n, freeCtx s with
    | some c, some k => if ownerLevel s < c.level then (acceptCue n c k s, true) else (s, false)
    | _, _ => (s, false)

/-! ### The live entry (R123, R124) -/

/-- Whether the live level is below the level of every cue in the stack (R123). -/
def liveFits (s : State) : Bool :=
  s.disp.stack.all (fun o =>
    match o with
    | .live => false
    | .ctx _ => decide (s.settings.liveLevel < levelOf s o))

/-- The insertion test; the answer says whether the due-list test of an insertion into an empty stack accepted a cue (R123). -/
def insertionTest (s : State) : State × Bool :=
  if s.disp.place = .waiting ∧ liveFits s = true then
    let s' := { s with disp := { s.disp with stack := .live :: s.disp.stack, place := .inStack } }
    if s.disp.stack.isEmpty then dueTest (feedAttempt s') else (s', false)
  else (s, false)

/-- A pending live level is applied where the stack holds at most one entry (R124). -/
def applyPendingLevel (s : State) : State :=
  match s.disp.pendingLevel with
  | some v =>
    if s.disp.stack.length ≤ 1 then
      { s with settings := { s.settings with liveLevel := v }, disp := { s.disp with pendingLevel := none } }
    else s
  | none => s

/-- The lead arbiter tells DO that a lead has appeared (R123). -/
def leadAppeared (s : State) : State :=
  (insertionTest { s with disp := { s.disp with place := .waiting } }).1

/-- The lead arbiter tells DO that no lead exists: the live entry leaves the stack, its WAITING rows going back to LQ where
it was the top, and the due list is tested (R113, R123, R128). -/
def leadGone (s : State) : State :=
  let s1 := { s with disp := { s.disp with place := .absent } }
  if s.disp.stack.contains .live then
    let s2 := if topOwner s == some .live then withdrawLive s1 else s1
    (dueTest (applyPendingLevel (withStack (s.disp.stack.erase .live) s2))).1
  else s1

/-- A settings application takes a live level (R124). -/
def applyLiveLevel (v : Nat) (s : State) : State :=
  if v = s.settings.liveLevel then s
  else if s.disp.stack.length ≤ 1 then
    (dueTest (insertionTest
      { s with settings := { s.settings with liveLevel := v }, disp := { s.disp with pendingLevel := none } }).1).1
  else { s with disp := { s.disp with pendingLevel := some v } }

/-! ### Leaving the stack (R131) -/

/-- The top that remains after a pop takes up the display (R131 step 5). -/
def takeUpDisplay (s : State) : State :=
  match topOwner s with
  | some .live => feedAttempt s
  | some (.ctx k) =>
    match ctxOf s k with
    | some x =>
      match cueOf s x.slot with
      | some c =>
        if c.state = .suspended then feedTest (cueTurns x.slot .suspended { c with state := .running } s)
        else feedTest s
      | none => s
    | none => s
  | none => s

/-- A context whose cue leaves the stack becomes free, unless a void fetch is still in flight (R131, R133). -/
def releaseCtx (k : CtxNo) (s : State) : State :=
  match ctxOf s k with
  | some x => if x.fetch = .none then storeCtx k none s else storeCtx k (some { x with fetch := .void }) s
  | none => s

/-- The cue of context k leaves the stack (R131). -/
def leaveStack (k : CtxNo) (s : State) : State :=
  let wasTop := topOwner s == some (.ctx k)
  let s1 := applyPendingLevel (withStack (s.disp.stack.erase (.ctx k)) (releaseCtx k s))
  let s2 := insertionTest s1
  let s3 := dueTest s2.1
  if wasTop && !s2.2 && !s3.2 then takeUpDisplay s3.1 else s3.1

/-- A cue in the stack ends in a terminal state and leaves the stack (R131, R135, R136). -/
def endCue (n : SlotNo) (k : CtxNo) (c : Cue) (s : State) (entered : CueState) (reason : CueReason) : State :=
  leaveStack k (cueTurns n c.state { c with state := entered, reason := reason } s)

/-- Whether a cue in context x is complete: every position fetched, no fetch in flight, no entry left (R135). -/
def cueComplete (n : SlotNo) (x : Context) (c : Cue) (s : State) : Bool :=
  decide (x.next = c.rowCount) && x.fetch == .none && !(s.air.entries.any (isCueEntry n))

/-- The completion test of the cue in slot n, whose context k is in the stack: a complete cue becomes DONE and leaves the stack
(R135). -/
def completeCtx (k : CtxNo) (n : SlotNo) (s : State) : State :=
  match ctxOf s k, cueOf s n with
  | some x, some c => if cueComplete n x c s then endCue n k c s .done c.reason else s
  | _, _ => s

/-- The completion test of a slot's cue, where it is in the stack (R135). -/
def completionTest (n : SlotNo) (s : State) : State :=
  match stackedCtx n s with
  | some k => completeCtx k n s
  | none => s

/-- DO is told that a row of a slot's cue was shown (R135, R148). -/
def cueRowShown (n : SlotNo) (s : State) : State :=
  match cueOf s n with
  | some c => completionTest n (updateCue n { c with shown := c.shown + 1 } s)
  | none => s

/-- DO counts rows of a slot's cue as dropped (R115, R134). A row that is lost again at a refetch is counted again, and the
count has no bound (DESIGN CHOICE, notes/assumptions/43: R125 gives it 0 to 32). -/
def cueRowsDropped (n : SlotNo) (count : Nat) (s : State) : State :=
  match cueOf s n with
  | some c => if count = 0 then s else updateCue n { c with dropped := c.dropped + count } s
  | none => s

/-! ### Taking posted slots (R126, R127) -/

/-- The refusal of a posted cue, or none where every test passes (R126). -/
def refusal (c : Cue) : Option CueReason :=
  if c.level < 1 ∨ 7 < c.level then some .level
  else if c.rowCount < 1 ∨ 32 < c.rowCount ∨ Config.rowEntries ≤ c.firstRow + c.rowCount - 1 then some .rows
  else if c.kind = .onTrigger ∧ 3 < c.line then some .line
  else if c.kind = .invalid then some .kind
  else none

/-- The trigger line of a cue, of the four CUE lines. -/
def triggerLine (n : Nat) : Fin 4 := if h : n < 4 then ⟨n, h⟩ else 3

/-- A slot number put into a list kept in slot-number order. -/
def insertSlot (n : SlotNo) : List SlotNo → List SlotNo
  | [] => [n]
  | m :: rest => if n < m then n :: m :: rest else if n = m then m :: rest else m :: insertSlot n rest

/-- An ARMED cue is placed by its start kind; a due arrival is a test of the due list (R62, R127, R128). -/
def placeArmed (n : SlotNo) (c : Cue) (s : State) : State :=
  match c.kind with
  | .atFrame =>
    if atOrBefore c.startFrame s.tb.frame then (dueTest (becomeDue n c.startFrame s)).1
    else { s with disp := { s.disp with watch := insertSlot n s.disp.watch } }
  | .onTrigger => { s with disp := { s.disp with waits := change s.disp.waits (triggerLine c.line) (· ++ [n]) } }
  | .immediate => (dueTest (becomeDue n s.tb.frame s)).1
  | .invalid => s

/-- A cue arms, with a record where its state changes by it (R126, R138). A held cue that stays ARMED has no part-written
field changed, and so calls for no write-back (R162); a slot that reads ARMED and was not held is taken without a record and
calls for a write-back (DESIGN CHOICE, notes/assumptions/19). -/
def armCue (n : SlotNo) (left : CueState) (c : Cue) (s : State) : State :=
  if left = .armed then
    placeArmed n c (if (cueOf s n).isSome then storeCue n (some c) s else updateCue n c s)
  else placeArmed n c (cueTurns n left c s)

/-- DO takes a slot as posted: aborted where its withdraw flag is set, else refused or armed (R126). -/
def takePosted (n : SlotNo) (slot : List Byte) (left : CueState) (s : State) : State :=
  let c := parseCue slot .armed
  if withdrawFlag slot then cueTurns n left { c with state := .aborted, reason := .withdrawn } s
  else
    match refusal c with
    | some reason => cueTurns n left { c with state := .refused, reason := reason } s
    | none => armCue n left c s

/-- A slot found DUE, RUNNING or SUSPENDED in the run-start scan without being held is aborted (R126). Its record and its
write-back carry no due frame and no start frame c, and no row shown or dropped (DESIGN CHOICE, notes/assumptions/35). -/
def takeStray (n : SlotNo) (slot : List Byte) (left : CueState) (s : State) : State :=
  cueTurns n left { parseCue slot .aborted with reason := .reset } s

/-! ### Withdrawal (R136) -/

/-- Abort a held cue that is not in the stack. -/
def abortCue (n : SlotNo) (c : Cue) (reason : CueReason) (s : State) : State :=
  cueTurns n c.state { c with state := .aborted, reason := reason } s

/-- A withdraw flag is taken for a held cue (R64, R115, R136). The removal of a RUNNING cue's WAITING rows makes no feed test
for the cue itself, which leaves the stack at that moment (DESIGN CHOICE, notes/assumptions/36). -/
def withdrawCue (n : SlotNo) (c : Cue) (s : State) : State :=
  match c.state with
  | .armed =>
    abortCue n c .withdrawn
      { s with disp := { s.disp with
        watch := s.disp.watch.erase n
        waits := Vector.ofFn (fun i => (get s.disp.waits i).erase n) } }
  | .due => abortCue n c .withdrawn { s with disp := { s.disp with due := s.disp.due.erase n } }
  | .running =>
    let dropped := (waitingOf (isCueEntry n) s).length
    let s1 := cueRowsDropped n dropped (discardCue n s)
    match stackedCtx n s1 with
    | some k => endCue n k { c with dropped := c.dropped + dropped } s1 .aborted .withdrawn
    | none => abortCue n { c with dropped := c.dropped + dropped } .withdrawn s1
  | .suspended =>
    match stackedCtx n s with
    | some k => endCue n k c s .aborted .withdrawn
    | none => abortCue n c .withdrawn s
  | .free | .posted | .done | .aborted | .refused | .expired => s

/-! ### Boundary work of DO (R127, R129) -/

/-- A watched cue whose start frame is reached leaves the watch and becomes DUE (R127). -/
def watchDue (s : State) (n : SlotNo) : State :=
  match cueOf s n with
  | some c =>
    if atOrBefore c.startFrame s.tb.frame then
      becomeDue n c.startFrame { s with disp := { s.disp with watch := s.disp.watch.erase n } }
    else s
  | none => s

/-- The AT_FRAME watch at a boundary: every cue that is due joins the due list, and the list is tested (R127). -/
def watchBoundary (s : State) : State := (dueTest (s.disp.watch.foldl watchDue s)).1

/-- Whether a due cue's wait limit has run out (R129). -/
def waitOver (s : State) (n : SlotNo) : Bool :=
  match cueOf s n with
  | some c =>
    decide (c.waitLimit ≠ 0) && atOrAfter s.tb.frame (addFrames (c.dueFrame.getD 0) c.waitLimit)
  | none => false

/-- A due cue whose wait limit has run out becomes EXPIRED (R129). -/
def expireCue (s : State) (n : SlotNo) : State :=
  match cueOf s n with
  | some c =>
    if waitOver s n then
      cueTurns n c.state { c with state := .expired, reason := .wait }
        { s with disp := { s.disp with due := s.disp.due.erase n } }
    else s
  | none => s

/-- The expiries of a boundary (R129), taken in the order of the due list (DESIGN CHOICE, notes/assumptions/2: the rule gives
no order). -/
def expireBoundary (s : State) : State := s.disp.due.foldl expireCue s

/-! ### Fetches (R133, R134) -/

/-- The row record of a fetched row-area entry (R134). -/
def fetchedRow (x : Context) (c : Cue) (entry : List Byte) (s : State) : Row :=
  let offset := max (offsetFloor x) (entryOffset entry)
  { id := s.nextRowId
    text := entryText entry s.settings.rowWidth
    source := .cue x.slot x.next (c.start.getD 0) offset (entryHold entry) (c.clearOnStart && x.next == 0)
      (decide (entryOffset entry < offsetFloor x) || entryTextClamped entry s.settings.rowWidth
        || entryHoldOver entry) }

/-- A row fetched for context k is skipped where its length is 0, and else offered to AS; a skip or stale drop is counted and
tested for completion (R134, R135). -/
def takeRow (k : CtxNo) (n : SlotNo) (r : Row) (entry : List Byte) (s : State) : State :=
  if entryLength entry = 0 then
    completeCtx k n (cueRowsDropped n 1 (journal (.rowDropped r .skipped none none 0) s))
  else
    let o := offerRow r s
    if o.2 then completeCtx k n (cueRowsDropped n 1 o.1) else o.1

/-- The completion of a fetch in flight of the top context: the index and the offsets move on, and the row is taken. With a
full schedule the row is not entered, and both stay (R100, R133). -/
def takeFetch (k : CtxNo) (x : Context) (c : Cue) (entry : List Byte) (s : State) : State :=
  if s.air.entries.length < Config.scheduleEntries then
    let r := fetchedRow x c entry s
    let offset := max (offsetFloor x) (entryOffset entry)
    let x' := { x with next := x.next + 1, offsets := x.offsets ++ [offset], fetch := .none }
    takeRow k x.slot r entry (storeCtx k (some x') { s with nextRowId := s.nextRowId + 1 })
  else storeCtx k (some { x with fetch := .none }) s

/-- The completion of a void fetch: the row is discarded, and a context whose cue has left the stack becomes free, with its
test of the due list (R133). -/
def endVoidFetch (k : CtxNo) (x : Context) (s : State) : State :=
  if s.disp.stack.contains (.ctx k) then storeCtx k (some { x with fetch := .none }) s
  else (dueTest (storeCtx k none s)).1

/-- The row of a completed fetch is discarded, and a feed test follows where the context is the top (R132, R133). -/
def discardFetch (k : CtxNo) (x : Context) (s : State) : State :=
  if topOwner s == some (.ctx k) then feedTest (endVoidFetch k x s) else endVoidFetch k x s

/-- The completion of a fetch of context k, with the entry it read (R133). -/
def completeFetch (k : CtxNo) (entry : List Byte) (s : State) : State :=
  match ctxOf s k with
  | some x =>
    match x.fetch with
    | .none => s
    | .void => discardFetch k x s
    | .inFlight =>
      match cueOf s x.slot with
      | some c =>
        if isRunning s && topOwner s == some (.ctx k) then feedTest (takeFetch k x c entry s) else discardFetch k x s
      | none => discardFetch k x s
  | none => s

/-- PE abandons the fetch of a context at a page fault; a void fetch ends by it (R133, R163). -/
def abandonFetch (s : State) (k : CtxNo) : State :=
  match ctxOf s k with
  | some x =>
    match x.fetch with
    | .none => s
    | .inFlight => storeCtx k (some { x with fetch := .none, refetch := some x.next }) s
    | .void => endVoidFetch k x s
  | none => s

/-- The scan that follows a page fault is complete: abandoned positions may be requested again (R169). -/
def allowRefetch (s : State) : State :=
  { s with disp := { s.disp with ctx := s.disp.ctx.map (fun x => x.map (fun x => { x with refetch := none })) } }

/-! ### Leaving RUNNING (R122) -/

/-- A held cue in DUE, RUNNING or SUSPENDED is aborted by the halt (R122). -/
def haltCue (s : State) (n : SlotNo) : State :=
  match cueOf s n with
  | some c =>
    if c.state = .due ∨ c.state = .running ∨ c.state = .suspended then abortCue n c .halt s else s
  | none => s

/-- A context at the halt: free, or kept with a void fetch (R122). -/
def haltCtx (x : Option Context) : Option Context :=
  match x with
  | some x => if x.fetch = .none then none else some { x with fetch := .void }
  | none => none

/-- DO and the trigger wait lists when the part leaves RUNNING (R65, R122). -/
def haltDisplay (s : State) : State :=
  let s1 := allSlots.foldl haltCue s
  { s1 with disp := { s1.disp with
    stack := [], watch := [], due := [], place := .absent
    waits := Vector.replicate 4 []
    ctx := s1.disp.ctx.map haltCtx } }

end Sys2Proof.Machine
end

