-- ==== Sys2Proof/Machine/Capture.lean ====
section
/-! DEFINITION. Event capture (R53 to R66), the latency estimator (R67 to R80), and the test of a silent lead (R91). -/

namespace Sys2Proof.Machine

/-! ### Kinds of capture line -/

/-- The voice line of a capture line, where it is VOX0 or VOX1. -/
def voiceIndex (i : LineNo) : Option (Fin 2) := if h : i.val < 2 then some ⟨i.val, h⟩ else none

/-- The trigger line of a capture line, where it is one of CUE0 to CUE3. -/
def cueIndex (i : LineNo) : Option (Fin 4) :=
  if 2 ≤ i.val then some ⟨(i.val - 2) % 4, Nat.mod_lt _ (by decide)⟩ else none

/-- The capture line of a voice line. -/
def voiceLine (v : Fin 2) : LineNo := ⟨v.val, by omega⟩

/-- The voice lines a voice map reads (R70). -/
def mappedLines : VoiceMap → List (Fin 2)
  | .vox0 => [0]
  | .vox1 => [1]
  | .both => [0, 1]

/-- Whether a capture line is active: its edge is not none and its filtered level is high (R61). -/
def lineActive (s : State) (i : LineNo) : Bool :=
  (get s.settings.lines i).edge != .none && (get s.capture i).filtered

/-! ### The test of a silent lead (R91)

A test that finds the lead silent leaves what R92 does to the SILENT_LEAD step: it is taken by that command, or before any
later event (notes/assumptions/2). -/

/-- Whether a voice line has a recent onset: its last onset lies 0 to 16 × S ticks back (R91). -/
def recentOnset (s : State) (v : Fin 2) : Bool :=
  match get s.lastOnset v with
  | some o =>
    decide (0 ≤ tickDiff (stampNow s) o) && decide (tickDiff (stampNow s) o ≤ 16 * s.settings.silenceFrames)
  | none => false

/-- Whether speech is present on a writer's mapped voice lines (R91). -/
def speechPresent (s : State) (w : Writer) : Bool :=
  (mappedLines (writerOf s w).voice).any (fun v => recentOnset s v || lineActive s (voiceLine v))

/-- Whether the lead is silent (R91). -/
def leadSilent (s : State) : Bool :=
  match s.la.lead with
  | some w =>
    decide (s.settings.silenceFrames ≠ 0) && decide (s.settings.silenceFrames ≤ (portOf s w).silence)
      && speechPresent s w
  | none => false

/-- A silence test: a silent lead leaves the SILENT_LEAD step to be taken (R91, R92). -/
def silenceTest (s : State) : State :=
  if leadSilent s then { s with work := { s.work with silence := true } } else s

/-! ### Filters (R54 to R57) -/

/-- A capture line's filter restarts from the present raw level, without a capture (R57). -/
def restartLine (s : State) (i : LineNo) : State :=
  { s with capture := change s.capture i (fun c =>
    { c with filtered := get s.lines i, steps := 0, candidates := 0, candStamp := none }) }

/-- A capture line takes its settings; its filter restarts where a value differs (R57). -/
def applyLine (new : Settings) (s : State) (i : LineNo) : State :=
  if get new.lines i = get s.settings.lines i then s
  else restartLine { s with settings := { s.settings with lines := put s.settings.lines i (get new.lines i) } } i

/-- Whether an edge setting selects a change to the given level (R56). -/
def edgeSelects (e : EdgeSel) (high : Bool) : Bool :=
  match e with
  | .none => false
  | .rising => high
  | .falling => !high
  | .both => true

/-- A sample is judged against the filtered level (R55). The answer is the capture stamp of a change it completes. -/
def judgeSample (filter : Nat) (level : Bool) (stamp : Stamp) (c : Capture) : Capture × Option Stamp :=
  if level = c.filtered then ({ c with candidates := 0, candStamp := none }, none)
  else
    let first := if c.candidates = 0 then stamp else c.candStamp.getD stamp
    if filter ≤ c.candidates + 1 then
      ({ c with filtered := level, candidates := 0, candStamp := none }, some first)
    else ({ c with candidates := c.candidates + 1, candStamp := some first }, none)

/-- A capture on a voice line becomes an onset; with 16 in the list the oldest is removed first (R58). -/
def addOnset (v : Fin 2) (stamp : Stamp) (s : State) : State :=
  let list := get s.onsets v
  let kept := if Config.onsetsPerLine ≤ list.length then list.drop 1 else list
  { s with
    onsets := put s.onsets v (kept ++ [{ stamp := stamp, marks := Vector.replicate 4 false }])
    lastOnset := put s.lastOnset v (some stamp) }

/-- A capture on a CUE line fires its trigger wait list, or journals TRIGGER_UNUSED where the list is empty (R63). -/
def fireTrigger (i : Fin 4) (stamp : Stamp) (s : State) : State :=
  match get s.disp.waits i with
  | n :: rest =>
    (dueTest (becomeDue n (frameOf stamp) { s with disp := { s.disp with waits := put s.disp.waits i rest } })).1
  | [] => journal (.triggerUnused i stamp (frameOf stamp)) s

/-- Whether the lead's voice map reads a voice line (R91). -/
def leadMaps (s : State) (v : Fin 2) : Bool :=
  match s.la.lead with
  | some w => (mappedLines (writerOf s w).voice).contains v
  | none => false

/-- A capture made in RUNNING is counted and handed on (R56). -/
def takeCapture (i : LineNo) (stamp : Stamp) (s : State) : State :=
  let s1 := { s with capture := change s.capture i (fun c => { c with captures := c.captures + 1 }) }
  match voiceIndex i with
  | some v =>
    let s2 := addOnset v stamp s1
    if leadMaps s2 v then silenceTest s2 else s2
  | none =>
    match cueIndex i with
    | some j => fireTrigger j stamp s1
    | none => s1

/-- A line is sampled at its raw level; an accepted change in the selected direction made in RUNNING is a capture (R54 to
R56). -/
def sampleLine (i : LineNo) (stamp : Stamp) (s : State) : State :=
  let level := get s.lines i
  let set := get s.settings.lines i
  let judged := judgeSample set.filter level stamp (get s.capture i)
  let s1 := { s with capture := put s.capture i judged.1 }
  match judged.2 with
  | some first => if isRunning s && edgeSelects set.edge level then takeCapture i first s1 else s1
  | none => s1

/-- A tick step of one line: its step count rises, and at the sample period the line is sampled (R54). -/
def stepLine (stamp : Stamp) (s : State) (i : LineNo) : State :=
  let n := (get s.capture i).steps + 1
  if (get s.settings.lines i).period ≤ n then
    sampleLine i stamp { s with capture := change s.capture i (fun c => { c with steps := 0 }) }
  else { s with capture := change s.capture i (fun c => { c with steps := n }) }

/-- Whether the sub-frame tick has risen since the last tick step of the frame, or the frame has had none (R54). The tick step
that a boundary is comes only after the boundary's own work, so a capture of it is taken after the cue player's boundary test
(DESIGN CHOICE, notes/assumptions/47: R63 lets either be first). -/
def tickDue (s : State) : Bool :=
  s.tb.mode != .unlocked && (match s.tb.stepped with
    | none => true
    | some t => decide (t < subTick s))

/-- A tick step: the tick is handed out, and every line's step count rises (R54). The lines are taken in the order VOX0, VOX1,
CUE0 to CUE3, which decides between captures that reach one stack (DESIGN CHOICE, notes/assumptions/32: R137 lets either be
first). -/
def tickStepNow (s : State) : State :=
  let tick := subTick s
  let s1 := { s with tb := { s.tb with heldTick := tick, stepped := some tick } }
  allLines.foldl (stepLine (stampOf s.tb.frame tick)) s1

/-! ### Onsets at a boundary (R58, R59) -/

/-- The upper bound Lmax': Lmax, or Lmin when Lmax is below Lmin (R69). -/
def lmaxBound (s : State) : Nat := max s.settings.lmin s.settings.lmax

/-- Whether an onset is older than the matching window at the boundary of the present frame (R59). -/
def onsetOld (s : State) (o : Onset) : Bool :=
  decide (((16 * lmaxBound s + 16 : Nat) : Int) < tickDiff (stampOf s.tb.frame 0) o.stamp)

/-- Onsets older than the matching window are removed (R59). -/
def ageOnsets (s : State) : State :=
  { s with onsets := s.onsets.map (fun l => l.filter (fun o => !onsetOld s o)) }

/-- Whether a last onset is more than 16 × 4,095 ticks old at the boundary of the present frame (R59). -/
def lastOld (s : State) (o : Stamp) : Bool := decide (16 * 4095 < tickDiff (stampOf s.tb.frame 0) o)

/-- Last onsets too old become absent (R59). -/
def lapseLastOnsets (s : State) : State :=
  { s with lastOnset := s.lastOnset.map (fun l => l.filter (fun o => !lastOld s o)) }

/-- A boundary that takes a frame-number load makes each last onset absent and restarts every filter (R58). -/
def loadTaken (s : State) : State :=
  allLines.foldl restartLine { s with lastOnset := Vector.replicate 2 none }

/-! ### The latency estimator (R67 to R77) -/

/-- A value clamped to the bounds of an estimate (R69). -/
def clampEstimate (s : State) (x : Nat) : Nat := clampTo (16 * s.settings.lmin) (16 * lmaxBound s) x

/-- Change LE's record of a writer. -/
def onEst (w : Writer) (f : Estimator → Estimator) (s : State) : State := { s with est := change s.est w f }

/-- Writer w's estimate is seeded (R68). -/
def seedWriter (s : State) (w : Writer) : State :=
  onEst w (fun _ => { estimate := some (clampEstimate s (16 * s.settings.lseed)), rejects := 0 }) s

/-- Every set estimate is clamped to the bounds in force (R69). -/
def clampEstimates (s : State) : State :=
  { s with est := s.est.map (fun e => { e with estimate := e.estimate.map (clampEstimate s) }) }

/-- The onsets in the lists that writer w's voice map reads (R70). -/
def mappedOnsets (w : Writer) (s : State) : List Onset :=
  (mappedLines (writerOf s w).voice).flatMap (fun v => get s.onsets v)

/-- Whether an onset is a candidate for writer w's resumption at a (R71). -/
def isCandidate (w : Writer) (a : Stamp) (s : State) (o : Onset) : Bool :=
  !(get o.marks w) && decide (((16 * s.settings.lmin : Nat) : Int) ≤ tickDiff a o.stamp)
    && decide (tickDiff a o.stamp ≤ ((16 * lmaxBound s : Nat) : Int))

/-- Whether candidate stamp o is to be chosen before p: nearer to the estimate, or as near and later (R72). -/
def nearer (a : Stamp) (estimate : Nat) (o p : Stamp) : Bool :=
  let dx := (tickDiff a o - (estimate : Int)).natAbs
  let dy := (tickDiff a p - (estimate : Int)).natAbs
  decide (dx < dy) || (dx == dy && decide (tickDiff a o < tickDiff a p))

/-- The stamp chosen among candidates, or none where there is no candidate (R72). -/
def chooseOnset (a : Stamp) (estimate : Nat) : List Stamp → Option Stamp
  | [] => none
  | o :: rest =>
    match chooseOnset a estimate rest with
    | none => some o
    | some p => if nearer a estimate p o then some p else some o

/-- Set writer w's consumed mark on an onset with the chosen stamp (R60, R73). -/
def markOnset (w : Writer) (chosen : Stamp) (o : Onset) : Onset :=
  if o.stamp = chosen then { o with marks := put o.marks w true } else o

/-- Writer w's mark is set on the chosen onset, and on both members of a BOTH pair (R73). -/
def consumeOnset (w : Writer) (chosen : Stamp) (s : State) : State :=
  let mark := fun lists v => change lists v (fun l => l.map (markOnset w chosen))
  { s with onsets := (mappedLines (writerOf s w).voice).foldl mark s.onsets }

/-- The smoothing step of an accepted sample: |d| divided by 2^k, halves upward (R77). -/
def smoothingStep (distance k : Nat) : Nat := (distance + 2 ^ (k - 1)) / 2 ^ k

/-- The estimate an accepted sample moves towards itself, before the clamp (R77). -/
def movedEstimate (estimate sample k : Nat) : Nat :=
  if estimate ≤ sample then estimate + smoothingStep (sample - estimate) k
  else estimate - smoothingStep (estimate - sample) k

/-- The distance between a sample and an estimate. -/
def sampleDistance (estimate sample : Nat) : Nat := if estimate ≤ sample then sample - estimate else estimate - sample

/-- A sample of writer w is gated: accepted, rejected, or taken as a reseed at the third reject in a row (R75 to R77). -/
def takeSample (w : Writer) (estimate sample : Nat) (onset resumption : Stamp) (s : State) : State :=
  if s.settings.gate = 0 ∨ sampleDistance estimate sample ≤ s.settings.gate then
    count w (fun c => { c with accepted := c.accepted + 1 })
      (onEst w (fun _ =>
        { estimate := some (clampEstimate s (movedEstimate estimate sample s.settings.smooth)), rejects := 0 }) s)
  else if (get s.est w).rejects + 1 < 3 then
    count w (fun c => { c with rejected := c.rejected + 1 })
      (onEst w (fun e => { e with rejects := e.rejects + 1 }) s)
  else
    let after := clampEstimate s sample
    let s1 := count w (fun c => { c with accepted := c.accepted + 1 })
      (onEst w (fun _ => { estimate := some after, rejects := 0 }) s)
    if roleOf s w = .standby then s1 else journal (.latencyReseed w estimate after onset resumption) s1

/-- Writer w's resumption at a: a candidate is chosen and marked and its sample gated, or the resumption is counted as
unmatched (R70 to R77). -/
def takeResumption (w : Writer) (a : Stamp) (s : State) : State :=
  let estimate := ((get s.est w).estimate).getD 0
  match chooseOnset a estimate (((mappedOnsets w s).filter (isCandidate w a s)).map Onset.stamp) with
  | some o => takeSample w estimate (tickDiff a o).toNat o a (consumeOnset w o s)
  | none => count w (fun c => { c with unmatched := c.unmatched + 1 }) s

end Sys2Proof.Machine
end

