-- ==== Sys2Proof/Machine/Rows.lean ====
section
/-! DEFINITION. The row builders (R34 to R46): placing text, wraps and hard breaks, closing a row, corrections and reopening.

An operation that may close a row answers, beside the state, whether it reported a lead close to the lead arbiter (R38
step 6): a pending handoff completes when the row builder has finished the event (R87). -/

namespace Sys2Proof.Machine

/-- The space character. -/
def space : Byte := 0x20

/-! ### Closing a row (R38) -/

/-- The characters of a row with the trailing spaces removed (R38 step 1). -/
def trimRow (chars : List TextChar) : List TextChar :=
  (chars.reverse.dropWhile (fun c => c.ch == space)).reverse

/-- The row record a close forms (R38 step 2). -/
def closedRow (w : Writer) (b : Builder) (reason : CloseReason) (id : Word32) : Row :=
  let text := trimRow b.chars
  { id := id
    text := text.map TextChar.ch
    source := .live w (b.arrival.getD 0) reason (b.markHeld && decide (3 ≤ text.length)) }

/-- An emptied buffer: speaker mark pending is left as it is (R38 step 5). -/
def emptied (b : Builder) : Builder :=
  { b with chars := [], arrival := none, heldId := none, markHeld := false }

/-- Writer w's buffer is closed for a reason, where it holds any character (R38). The answer says whether a lead close was
reported. -/
def closeRow (w : Writer) (reason : CloseReason) (s : State) : State × Bool :=
  let b := builderOf s w
  if b.chars.isEmpty then (s, false)
  else
    let s1 := onBuilder w emptied (count w (fun c => { c with rowsClosed := c.rowsClosed + 1 }) s)
    if roleOf s w = .lead then
      match b.heldId with
      | some id => (feedAttempt (joinTail (closedRow w b reason id) s1), true)
      | none =>
        (feedAttempt (joinTail (closedRow w b reason s.nextRowId) { s1 with nextRowId := s.nextRowId + 1 }), true)
    else (count w (fun c => { c with rowsDropped := c.rowsDropped + 1 }) s1, false)

/-! ### Placing text (R35 to R37) -/

/-- A text character in a buffer holding fewer than W characters (R35). -/
def placeChar (ch : Byte) (stamp : Stamp) (b : Builder) : Builder :=
  if b.chars.isEmpty then
    if ch = space then b
    else if b.markPending then
      { b with
        chars := [⟨0x3E, stamp⟩, ⟨0x3E, stamp⟩, ⟨space, stamp⟩, ⟨ch, stamp⟩]
        arrival := some stamp
        markHeld := true
        markPending := false }
    else { b with chars := [⟨ch, stamp⟩], arrival := some stamp }
  else { b with chars := b.chars ++ [⟨ch, stamp⟩] }

/-- The character that caused a hard break, in the emptied buffer: taken as with no mark pending, so that a mark that is
pending stays pending (R37). -/
def placeAfterBreak (ch : Byte) (stamp : Stamp) (b : Builder) : Builder :=
  if ch = space then b else { b with chars := [⟨ch, stamp⟩], arrival := some stamp }

/-- The index of the last usable space of a buffer: any space but the third character of a held speaker mark (R36). -/
def lastUsableSpace (b : Builder) : Option Nat :=
  ((List.range b.chars.length).filter (fun i =>
    (b.chars[i]?.map TextChar.ch) == some space && !(b.markHeld && i == 2))).getLast?

/-- The buffer of a wrap refilled with the carried characters (R36 step 3). -/
def refill (carried : List TextChar) (b : Builder) : Builder :=
  { b with chars := carried, arrival := carried.head?.map TextChar.stamp }

/-- A text character reaches writer w's buffer: placed, or first a wrap at the last usable space or a hard break (R35 to
R37). -/
def takeText (w : Writer) (ch : Byte) (stamp : Stamp) (s : State) : State × Bool :=
  let b := builderOf s w
  if b.chars.length < s.settings.rowWidth then (onBuilder w (placeChar ch stamp) s, false)
  else
    match lastUsableSpace b with
    | some i =>
      if ch = space then
        let r := closeRow w .wrap s
        (onBuilder w (placeAfterBreak ch stamp) r.1, r.2)
      else
        let r := closeRow w .wrap (onBuilder w (fun b => { b with chars := b.chars.take i }) s)
        (onBuilder w (fun b' => placeChar ch stamp (refill (b.chars.drop (i + 1)) b')) r.1, r.2)
    | none =>
      let r := closeRow w .wrap s
      (onBuilder w (placeAfterBreak ch stamp) r.1, r.2)

/-- The SPEAKER code: the buffer is closed, and speaker mark pending set (R40). -/
def takeSpeaker (w : Writer) (s : State) : State × Bool :=
  let r := closeRow w .speaker s
  (onBuilder w (fun b => { b with markPending := true }) r.1, r.2)

/-! ### Corrections (R41 to R44) -/

/-- A buffer whose characters a correction has cut to the given ones (R41): a held mark that has lost a character is no mark
any more, and an empty buffer has no arrival tick and holds no row id. -/
def cutTo (chars : List TextChar) (b : Builder) : Builder :=
  if chars.isEmpty then emptied b
  else { b with chars := chars, markHeld := b.markHeld && decide (3 ≤ chars.length) }

/-- RUB removes the last character (R41). -/
def rubChars (chars : List TextChar) : List TextChar := chars.dropLast

/-- RUBWORD removes the spaces at the end, then characters back to the nearest remaining space (R42). -/
def rubWordChars (chars : List TextChar) : List TextChar :=
  ((chars.reverse.dropWhile (fun c => c.ch == space)).dropWhile (fun c => c.ch != space)).reverse

/-- A correction applied to a buffer: RUBWORD (word) or RUB (R41, R42). -/
def correct (word : Bool) (b : Builder) : Builder :=
  cutTo (if word then rubWordChars b.chars else rubChars b.chars) b

/-- Whether a row was closed by writer w. -/
def closedBy (w : Writer) (r : Row) : Bool :=
  match r.source with
  | .live v _ _ _ => v == w
  | .cue _ _ _ _ _ _ _ => false

/-- The buffer of a reopened row (R43, R51). -/
def reopened (r : Row) (b : Builder) : Builder :=
  match r.source with
  | .live _ arrival _ mark =>
    { b with
      chars := r.text.map (fun c => ⟨c, arrival⟩)
      arrival := some arrival
      heldId := some r.id
      markHeld := mark }
  | .cue _ _ _ _ _ _ _ => b

/-- The row a correction of writer w may reopen: the tail of LQ, or with LQ empty and the live stream on top the last entry
of the schedule while it is WAITING (R43). -/
def eligible (w : Writer) (s : State) : Option Row :=
  if roleOf s w = .lead then
    match s.queue.getLast? with
    | some r => if closedBy w r then some r else none
    | none =>
      match s.air.entries.getLast? with
      | some e =>
        if topOwner s == some .live && closedBy w e.row && isWaiting e then some e.row else none
      | none => none
  else none

/-- The row leaves where it stands: the tail of LQ, or the tail of the schedule (R43, R112, R117). -/
def takeBack (s : State) : State :=
  if s.queue.isEmpty then keepEntries s.air.entries.dropLast s else { s with queue := s.queue.dropLast }

/-- Why a correction of the lead is refused: the first reason that can be read (R44). -/
def refuseReason (w : Writer) (s : State) : RefuseReason :=
  match s.queue.getLast? with
  | some _ => .otherWriter
  | none =>
    match s.air.entries.getLast? with
    | some e =>
      if isLiveRow e.row && !closedBy w e.row then .otherWriter
      else if closedBy w e.row && !isWaiting e then .onAirPath
      else .notLive
    | none => if topOwner s == some .live then .none else .notLive

/-- A correction that finds the buffer empty and no eligible row is refused and counted; the lead's is journaled (R44). -/
def refuse (w : Writer) (word : Bool) (s : State) : State :=
  let s1 := count w (fun c => { c with refused := c.refused + 1 }) s
  if roleOf s w = .lead then journal (.correctionRefused w word (refuseReason w s)) s1 else s1

/-- A RUB or RUBWORD code from writer w (R41 to R44). Where a correction has emptied a reopened row, the next one finds the
buffer empty, and R43's conditions alone say whether the row before it may be reopened (DESIGN CHOICE, notes/assumptions/41:
R52 says that corrections reach back at most one row). -/
def takeCorrection (w : Writer) (word : Bool) (s : State) : State :=
  if (builderOf s w).chars.isEmpty then
    match eligible w s with
    | some r => onBuilder w (fun b => correct word (reopened r b)) (takeBack s)
    | none => refuse w word s
  else onBuilder w (correct word) s

end Sys2Proof.Machine
end

