-- ==== Sys2Proof/Machine/Lead.lean ====
section
/-! DEFINITION. The lead arbiter (R82 to R95): giving, switching and losing the lead, TAKE and GIVE, handoffs, silence and
failover, and the forced lead. -/

namespace Sys2Proof.Machine

/-! ### Changes of lead (R89) -/

/-- The lead is given from none: steps 5 to 7 of R89, and the silence test of a change of lead (R84, R85, R91, R93). -/
def giveLead (w : Writer) (reason : LeadReason) (s : State) : State :=
  let s1 := { s with la := { s.la with lead := some w, roles := put s.la.roles w .lead } }
  silenceTest (feedAttempt (leadAppeared (raise .lead (journal (.leadChange none (some w) reason 0) s1))))

/-- The frames the pending handoff has waited, or 0 where there is none (R89). -/
def framesWaited (s : State) : Nat := (s.la.handoff.map Handoff.waited).getD 0

/-- The switch to an incoming writer: the outgoing lead's buffer is closed, the roles change, the handoff context goes, the
change is journaled, and a feed attempt is made (R89). -/
def switchLead (incoming : Writer) (reason : LeadReason) (s : State) : State :=
  match s.la.lead with
  | none => giveLead incoming reason s
  | some outgoing =>
    let s1 := (closeRow outgoing .handoff s).1
    let s2 := { s1 with la :=
      { lead := some incoming
        roles := put (put s1.la.roles incoming .lead) outgoing .standby
        handoff := none
        silenceReported := false } }
    silenceTest (feedAttempt
      (raise .lead (journal (.leadChange (some outgoing) (some incoming) reason (framesWaited s)) s2)))

/-- The lead is lost to none: steps 1, 3, 4, 5 and 6 of R89 (R94). -/
def loseLead (outgoing : Writer) (reason : LeadReason) (s : State) : State :=
  let s1 := (closeRow outgoing .handoff s).1
  let s2 := { s1 with la :=
    { lead := none
      roles := put s1.la.roles outgoing .standby
      handoff := none
      silenceReported := false } }
  leadGone (raise .lead (journal (.leadChange (some outgoing) none reason (framesWaited s)) s2))

/-- The handoff is cancelled: the taker becomes STANDBY (R90, R93). -/
def cancelHandoff (s : State) : State :=
  match s.la.handoff with
  | some h => { s with la := { s.la with roles := put s.la.roles h.taker .standby, handoff := none } }
  | none => s

/-- A reported lead close completes a pending handoff (R87). -/
def completeHandoff (reported : Bool) (s : State) : State :=
  match s.la.handoff with
  | some h => if reported then switchLead h.taker .take s else s
  | none => s

/-! ### TAKE and GIVE (R85, R86) -/

/-- A TAKE code from writer w (R85). -/
def takeTake (w : Writer) (s : State) : State :=
  match s.la.lead with
  | none => giveLead w .take s
  | some lead =>
    if lead = w then s
    else
      match s.la.handoff with
      | some h => if h.taker = w then s else journal (.handoffRefused w h.taker lead) s
      | none =>
        { s with la := { s.la with roles := put s.la.roles w .taking, handoff := some { taker := w, waited := 0 } } }

/-- A GIVE code from writer w (R86). -/
def takeGive (w : Writer) (s : State) : State :=
  if s.la.lead = some w then
    match s.la.handoff with
    | some h => switchLead h.taker .give s
    | none => journal (.giveIgnored w) s
  else s

/-! ### Handoff timeout (R88) -/

/-- The handoff's frames-waited count rises at a boundary (R88). -/
def handoffCount (s : State) : State :=
  { s with la := { s.la with handoff := s.la.handoff.map (fun h => { h with waited := min 4095 (h.waited + 1) }) } }

/-- Whether the handoff times out at a boundary (R88). -/
def handoffOver (s : State) : Bool :=
  match s.la.handoff with
  | some h => decide (s.settings.handoffFrames ≠ 0) && decide (s.settings.handoffFrames ≤ h.waited)
  | none => false

/-- The timeout test: the switch to the taker (R88). -/
def handoffTimeoutNow (s : State) : State :=
  match s.la.handoff with
  | some h => if handoffOver s then switchLead h.taker .timeout s else s
  | none => s

/-! ### Silence and failover (R92) -/

/-- The relay partner of a writer, where the partner's port is in RUN (R92, R94). -/
def readyPartner (w : Writer) (s : State) : Option Writer :=
  match (writerOf s w).partner with
  | some p => if (portOf s p).mode = .run then some p else none
  | none => none

/-- A silent lead without a taker or ready partner is reported, once an episode (R92). -/
def reportSilence (w : Writer) (s : State) : State :=
  if s.la.silenceReported then s
  else
    let p := portOf s w
    journal (.writerState w p.mode p.mode .silent p.divisor)
      (raise .writer { s with la := { s.la with silenceReported := true } })

/-- What a silence test that finds the lead silent does (R92). -/
def failover (s : State) : State :=
  match s.la.lead with
  | some w =>
    match s.la.handoff with
    | some h => switchLead h.taker .failover s
    | none =>
      match readyPartner w s with
      | some p => switchLead p .failover s
      | none => reportSilence w s
  | none => s

/-- The SILENT_LEAD step, where a test left one to be taken: the lead that is silent is failed over or reported (R91, R92). -/
def silentLeadNow (s : State) : State :=
  if s.work.silence then
    let s1 := { s with work := { s.work with silence := false } }
    if leadSilent s1 then failover s1 else s1
  else s

/-- The SILENT_LEAD steps that a test has left to be taken at this moment: a failover may leave the new lead to be tested, and
each of the four writers is tested at most once (DESIGN CHOICE, notes/assumptions/24). -/
def silentLeads (s : State) : State := silentLeadNow (silentLeadNow (silentLeadNow (silentLeadNow s)))

/-! ### Forced lead (R93) -/

/-- A settings application whose forced lead names writer f. The answer says whether it was taken or found already so; a
forced lead that names a writer whose port is OFF is not (R93). -/
def forceLead (f : Writer) (s : State) : State × Bool :=
  if (portOf s f).mode = .off then (s, false)
  else if s.la.lead = some f then (cancelHandoff s, true)
  else
    match s.la.handoff with
    | some h => if h.taker = f then (switchLead f .forced s, true) else (switchLead f .forced (cancelHandoff s), true)
    | none => (switchLead f .forced s, true)

/-! ### Port changes (R90, R94) -/

/-- The taker's port leaves RUN: the handoff is cancelled (R90). -/
def takerLeftRun (w : Writer) (s : State) : State :=
  match s.la.handoff with
  | some h => if h.taker = w then cancelHandoff s else s
  | none => s

/-- The port of writer w has been disabled: where w is the lead, the lead passes on or is lost (R94). -/
def leadDisabled (w : Writer) (s : State) : State :=
  if s.la.lead = some w then
    match s.la.handoff with
    | some h => switchLead h.taker .disabled s
    | none =>
      match readyPartner w s with
      | some p => switchLead p .disabled s
      | none => loseLead w .disabled s
  else s

/-! ### Entry into RUNNING (R84) -/

/-- The lead at entry into RUNNING: the forced lead, or the lead at start, where its writer is enabled (R84). -/
def startLead (s : State) : State :=
  let enabled := fun (w : Option Writer) => w.filter (fun w => (writerOf s w).enable)
  match enabled s.settings.forcedLead, enabled s.settings.leadAtStart with
  | some w, _ => giveLead w .forced s
  | none, some w => giveLead w .start s
  | none, none => s

end Sys2Proof.Machine
end

