-- ==== Sys2Proof/Machine/Lines.lean ====
section
/-! DEFINITION. The writer lines (R14 to R33): port states, automatic rate acquisition, receiving and delivering characters,
pauses and silence. -/

namespace Sys2Proof.Machine

/-! ### Changes of port state (R17, R18, R32) -/

/-- A change of port state is journaled, and one that leaves RUN sets attention WRITER (R32). -/
def reportPort (w : Writer) (left : PortMode) (cause : PortCause) (s : State) : State :=
  let p := portOf s w
  let s1 := journal (.writerState w left p.mode cause p.divisor) s
  if left = .run ∧ p.mode ≠ .run then raise .writer s1 else s1

/-- Writer w's port becomes p, with the report, and the handoff of a taker whose port leaves RUN is cancelled (R32, R90). -/
def portBecomes (w : Writer) (p : Port) (cause : PortCause) (s : State) : State :=
  let left := (portOf s w).mode
  let s1 := reportPort w left cause (onPort w (fun _ => p) s)
  if left = .run ∧ p.mode ≠ .run then takerLeftRun w s1 else s1

/-- A port as it leaves OFF: RUN with the fixed divisor, or ACQUIRE seeking a break; the pause flag is set (R17). -/
def startedPort (set : WriterSettings) (clock : Nat) : Port :=
  if set.auto then { Port.reset with mode := .acquire, phase := some .seekBreak, pauseFlag := true, since := clock }
  else { Port.reset with mode := .run, divisor := some set.divisor, pauseFlag := true, lookFrom := clock }

/-- A port as it enters OFF (R17): the values of R16 but for the counters and settings, which are kept elsewhere. -/
def stoppedPort : Port := Port.reset

/-- An enable is applied in RUNNING: the port leaves OFF, and its writer is seeded (R17, R68). -/
def enablePort (w : Writer) (s : State) : State :=
  portBecomes w (startedPort (writerOf s w) s.clock) .enable (seedWriter s w)

/-- A disable is applied in RUNNING: the port enters OFF, the row builder closes the buffer and drops a pending mark, and
then the lead arbiter acts (R17, R45, R90, R94). The records of the close come first, then WRITER_STATE, then those of the
lead arbiter (DESIGN CHOICE, notes/assumptions/31). -/
def disablePort (w : Writer) (s : State) : State :=
  let left := (portOf s w).mode
  let r := closeRow w .handoff (onPort w (fun _ => stoppedPort) s)
  let s1 := reportPort w left .disable (onBuilder w (fun b => { b with markPending := false }) r.1)
  let s2 := completeHandoff r.2 s1
  leadDisabled w (if left = .run then takerLeftRun w s2 else s2)

/-- A port that goes to ACQUIRE seeking a break (R18, R27). -/
def seekingPort (p : Port) (clock : Nat) : Port :=
  { p with
    mode := .acquire, phase := some .seekBreak, divisor := none, startEdge := none, edges := [], measured := none
    framing := 0, since := clock }

/-- A port that goes to RUN with a divisor (R18, R22, R28). -/
def runningPort (p : Port) (divisor : Nat) (clock : Nat) : Port :=
  { p with
    mode := .run, phase := none, divisor := some divisor, startEdge := none, edges := [], measured := none
    lookFrom := clock }

/-- A port whose character in reception is abandoned without count (R18): in RUN the next start edge is looked for, and an
acquisition whose alignment character has begun seeks a break again (DESIGN CHOICE, notes/assumptions/20). -/
def abandonedPort (p : Port) (clock : Nat) : Port :=
  if p.phase = some .measure ∨ p.phase = some .check then
    { p with
      phase := some .seekBreak, startEdge := none, edges := [], measured := none, since := clock, lookFrom := clock }
  else { p with lookFrom := clock }

/-- The port of an enabled writer under changed rate mode, divisor or parity (R18). A character in reception is abandoned. -/
def retunedPort (old new : WriterSettings) (p : Port) (clock : Nat) : Port :=
  let p0 := abandonedPort p clock
  if new.auto && !old.auto then seekingPort p0 clock
  else if !new.auto && old.auto then { runningPort p0 new.divisor clock with framing := 0 }
  else if !new.auto && old.divisor != new.divisor then
    match p.mode with
    | .run => { p0 with divisor := some new.divisor }
    | .resync => { p0 with divisor := some new.divisor, since := clock }
    | .off | .acquire => p0
  else p0

/-- A change of rate mode, fixed divisor or parity reaches a port that stays enabled; a changed state or divisor in use is
journaled (R18, R32). A change of mode that changes neither makes no record (DESIGN CHOICE, notes/assumptions/33). -/
def retunePort (w : Writer) (old new : WriterSettings) (s : State) : State :=
  let p := portOf s w
  let p' := retunedPort old new p s.clock
  if p'.mode = p.mode ∧ p'.divisor = p.divisor then onPort w (fun _ => p') s
  else portBecomes w p' .settings s

/-- The port settings of a writer. -/
def samePortSettings (a b : WriterSettings) : Bool :=
  a.auto == b.auto && a.divisor == b.divisor && a.parity == b.parity

/-- The port settings of writer w take their new values, and in RUNNING the port moves (R17, R18, R157 step 3). -/
def applyPort (new : Settings) (s : State) (w : Writer) : State :=
  let old := writerOf s w
  let n := get new.writers w
  let set := { old with enable := n.enable, auto := n.auto, divisor := n.divisor, parity := n.parity }
  let s1 := { s with settings := { s.settings with writers := put s.settings.writers w set } }
  if !isRunning s then s1
  else if (portOf s w).mode = .off then (if n.enable then enablePort w s1 else s1)
  else if !n.enable then disablePort w s1
  else if samePortSettings old n then s1
  else retunePort w old n s1

/-- At the entry into RUNNING a port whose enable is set leaves OFF (R17). -/
def startPort (s : State) (w : Writer) : State :=
  if (writerOf s w).enable then onPort w (fun _ => startedPort (writerOf s w) s.clock) s else s

/-! ### Acquisition (R20 to R24) -/

/-- The counts of continuous space that make a break: 20 ms (R20). -/
def breakCounts : Nat := 540000

/-- How long a stretch has lasted that may begin no earlier than the port began to time it (R20, R23, R28). -/
def stretch (p : Port) (clock counts : Nat) : Nat := min counts (clock - p.since)

/-- Whether a port is in ACQUIRE in a given phase. -/
def inPhase (p : Port) (a : AcqPhase) : Bool := decide (p.mode = .acquire) && p.phase == some a

/-- A break is seen in SEEK_BREAK (R20). -/
def breakSeenNow (w : Writer) (counts : Nat) (s : State) : State :=
  if inPhase (portOf s w) .seekBreak && decide (breakCounts ≤ stretch (portOf s w) s.clock counts) then
    onPort w (fun p => { p with phase := some .breakSeen }) s
  else s

/-- The start edge of the alignment character (R20). -/
def startEdgeNow (w : Writer) (s : State) : State :=
  if inPhase (portOf s w) .breakSeen then
    onPort w (fun p => { p with phase := some .measure, startEdge := some s.clock, edges := [] }) s
  else s

/-- An alignment error: counted, and back to SEEK_BREAK (R23). -/
def alignmentError (w : Writer) (s : State) : State :=
  count w (fun c => { c with alignmentErrors := c.alignmentErrors + 1 })
    (onPort w (fun p =>
      { p with phase := some .seekBreak, startEdge := none, edges := [], measured := none, since := s.clock }) s)

/-- The longest and shortest spans in range (R21). -/
def spanShort : Nat := 1634
def spanLong : Nat := 157504

/-- The counts since the recorded start edge. -/
def sinceStart (p : Port) (clock : Nat) : Nat := clock - p.startEdge.getD clock

/-- The span runs past its limit in MEASURE (R21). -/
def spanTooLongNow (w : Writer) (s : State) : State :=
  if inPhase (portOf s w) .measure && decide (spanLong ≤ sinceStart (portOf s w) s.clock) then alignmentError w s
  else s

/-- The divisor of a span: the span divided by 7, halves upward (R21). -/
def spanDivisor (span : Nat) : Nat := (2 * span + 7) / 14

/-- The value bit position i of the alignment character must have (R14, R22). -/
def alignmentBit (p : Parity) (i : Nat) : Bool :=
  if i = 0 then false
  else if i ≤ 8 then (0x3C : Byte).getLsbD (i - 1)
  else if i = stopPosition p then true
  else decide (p = .odd)

/-- Whether bit positions lo to hi − 1 of an alignment character read as they must (R22). -/
def alignmentReads (p : Parity) (edges : List Nat) (divisor lo hi : Nat) : Bool :=
  (List.range hi).all (fun i => decide (i < lo) || bitValue edges divisor i == alignmentBit p i)

/-- The falling edge at d6: a span in range moves the port to CHECK, where the start bit and d0 to d5 lie in the past and are
judged at once (R21, R22). -/
def spanMeasuredNow (w : Writer) (rise : Nat) (s : State) : State :=
  let p := portOf s w
  if inPhase p .measure then
    let span := sinceStart p s.clock
    let divisor := spanDivisor span
    if span ≤ spanShort ∨ spanLong ≤ span then alignmentError w s
    else if alignmentReads (writerOf s w).parity [rise, span] divisor 0 7 then
      onPort w (fun p => { p with phase := some .check, measured := some divisor, edges := [rise, span] }) s
    else alignmentError w s
  else s

/-- The bit positions of a character whose third sample has been taken, of those up to the stop bit. -/
def judgedBits (p : Parity) (divisor elapsed : Nat) : Nat :=
  ((List.range (stopPosition p + 1)).filter (fun i => decide (thirdSample divisor i ≤ elapsed))).length

/-- The bits of the alignment character judged so far: a failing bit is an alignment error, and with every bit judged the
character is accepted and the port enters RUN (R22, R23). -/
def alignmentNow (w : Writer) (later : List Nat) (s : State) : State :=
  let p := portOf s w
  let parity := (writerOf s w).parity
  if inPhase p .check then
    let divisor := p.measured.getD 0
    let judged := judgedBits parity divisor (sinceStart p s.clock)
    if !alignmentReads parity (p.edges ++ later) divisor 7 judged then alignmentError w s
    else if judged = stopPosition parity + 1 then
      portBecomes w { runningPort p divisor s.clock with framing := 0 } .aligned s
    else s
  else s

/-- A break seen in RESYNC in automatic mode (R24). -/
def resyncBreakNow (w : Writer) (counts : Nat) (s : State) : State :=
  let p := portOf s w
  if decide (p.mode = .resync) && (writerOf s w).auto && decide (breakCounts ≤ stretch p s.clock counts) then
    portBecomes w { seekingPort p s.clock with phase := some .breakSeen } .brk s
  else s

/-- Ten bit times of mark in RESYNC (R28). -/
def resyncEndNow (w : Writer) (counts : Nat) (s : State) : State :=
  let p := portOf s w
  if decide (p.mode = .resync) && decide (10 * p.divisor.getD 0 ≤ stretch p s.clock counts) then
    portBecomes w (runningPort p (p.divisor.getD 0) s.clock) .resyncEnd s
  else s

/-! ### Receiving (R25 to R31) -/

/-- A framing error (R27). -/
def framingError (w : Writer) (s : State) : State :=
  let p := portOf s w
  let n := min 4 (p.framing + 1)
  let s1 := count w (fun c => { c with framingErrors := c.framingErrors + 1 }) s
  if (writerOf s w).auto && n == 4 then portBecomes w (seekingPort p s.clock) .framingLimit s1
  else portBecomes w { p with mode := .resync, framing := n, since := s.clock } .framing s1

/-- A parity error (R26). -/
def parityError (w : Writer) (s : State) : State :=
  count w (fun c => { c with parityErrors := c.parityErrors + 1 }) s

/-- The delivery of a text character or line code: the pause and silence counters return to 0, pause armed is set, and the
lead's silence episode ends (R30, R31, R92). -/
def touchPort (w : Writer) (s : State) : State :=
  let s1 := onPort w (fun p => { p with pauseCount := 0, pauseArmed := true, silence := 0 }) s
  if s.la.lead = some w then { s1 with la := { s1.la with silenceReported := false } } else s1

/-- A text character other than a space while the pause flag is set is a resumption (R30). -/
def resumeAt (w : Writer) (ch : Byte) (stamp : Stamp) (s : State) : State :=
  if ch ≠ space ∧ (portOf s w).pauseFlag = true then
    takeResumption w stamp (onPort w (fun p => { p with pauseFlag := false }) s)
  else s

/-- What the row builder and the lead arbiter do with a delivered byte of a class (R29, R35 to R46, R85 to R87). -/
def handOn (w : Writer) (cls : ByteClass) (ch : Byte) (stamp : Stamp) (s : State) : State :=
  match cls with
  | .text =>
    let r := takeText w ch stamp s
    completeHandoff r.2 r.1
  | .row =>
    let r := closeRow w .rowCode s
    completeHandoff r.2 r.1
  | .speaker =>
    let r := takeSpeaker w s
    completeHandoff r.2 r.1
  | .rub => takeCorrection w false s
  | .rubWord => takeCorrection w true s
  | .take => takeTake w s
  | .give => takeGive w s
  | .ignored => s

/-- A byte that passed the parity and stop-bit tests is delivered (R25, R29 to R31). The row builder and the lead arbiter act
first, with any silence test of theirs, then the pause and silence counters return to 0, and the latency estimator has the
resumption last (DESIGN CHOICE, notes/assumptions/30: R25 lists these at one event time and orders none). -/
def deliver (w : Writer) (ch : Byte) (noisy : Bool) (s : State) : State :=
  let s1 := count w (fun c => { c with
    characters := c.characters + 1
    noise := if noisy then c.noise + 1 else c.noise }) (onPort w (fun p => { p with framing := 0 }) s)
  let cls := classify ch
  if cls = .ignored then count w (fun c => { c with ignoredCodes := c.ignoredCodes + 1 }) s1
  else
    let stamp := stampNow s1
    let s2 := touchPort w (handOn w cls ch stamp (holdTick s1))
    if cls = .text then resumeAt w ch stamp s2 else s2

/-- The third sample of a stop bit on line w: a port in RUN whose character began no earlier than it looked for a start edge
judges the character (R15, R25 to R27). -/
def characterNow (w : Writer) (edges : List Nat) (s : State) : State :=
  let p := portOf s w
  let parity := (writerOf s w).parity
  match p.mode, p.divisor with
  | .run, some divisor =>
    let stop := stopPosition parity
    if s.clock < p.lookFrom + thirdSample divisor stop ∨ bitValue edges divisor 0 = true then s
    else
      let s1 := onPort w (fun p => { p with lookFrom := s.clock }) s
      if bitValue edges divisor stop = false then framingError w s1
      else if !parityAgrees parity (charByte edges divisor) (bitValue edges divisor 9) then parityError w s1
      else deliver w (charByte edges divisor) (charNoisy edges divisor parity) s1
  | _, _ => s

/-! ### Boundary work (R30, R31) -/

/-- At a boundary the pause and silence counters of a port that is not OFF rise (R30, R31). -/
def countPort (p : Port) : Port :=
  if p.mode = .off then p
  else { p with pauseCount := min 255 (p.pauseCount + 1), silence := min 4095 (p.silence + 1) }

/-- The counters of all ports at a boundary. -/
def countPorts (s : State) : State := { s with ports := s.ports.map countPort }

/-- Whether the pause test of a port finds a pause (R30). -/
def pauseDue (s : State) (w : Writer) : Bool :=
  let p := portOf s w
  decide (p.mode ≠ .off) && p.pauseArmed && decide (s.settings.pauseFrames ≤ p.pauseCount)

/-- A pause event: pause armed is cleared, the pause flag set, and the buffer closed with reason PAUSE (R30, R39, R87). -/
def pauseNow (w : Writer) (s : State) : State :=
  if pauseDue s w then
    let r := closeRow w .pause (onPort w (fun p => { p with pauseArmed := false, pauseFlag := true }) s)
    completeHandoff r.2 r.1
  else s

end Sys2Proof.Machine
end

