-- ==== Sys2Proof/Machine/Encoder.lean ====
section
/-! DEFINITION. The output encoder (R140 to R148, R187): the command unit of a slot, staging, the mirror, and the slot's
bytes. -/

namespace Sys2Proof.Machine

/-! ### Unit values (R187) -/

def slotMark : Byte := 0xC5
def unitShow (b : BufferNo) : Byte := BitVec.ofNat 8 (0x10 + b.val)
def unitShowFresh (b : BufferNo) : Byte := BitVec.ofNat 8 (0x14 + b.val)
def unitClear : Byte := 0x18
def unitStage (b : BufferNo) : Byte := BitVec.ofNat 8 (0x1C + b.val)
def unitLength (n : Nat) : Byte := BitVec.ofNat 8 n

/-- A slot is sent: the slot mark, the unit count and the units (R141, R187). -/
def sendSlot (units : List Byte) (s : State) : State :=
  { s with out := { s.out with slot := slotMark :: unitLength units.length :: units, lastUnits := units.length } }

/-! ### The levels of the output line (R151)

A bit time is one period of CAP_CLK, four local counts, and bit times are counted here from the beginning of the slot last
sent; how many of them have passed is not kept (notes/assumptions/28). -/

/-- CAP_DATA in bit time i: the bytes in slot order, each least significant bit first, and low after them (R151). -/
def capData (s : State) (i : Nat) : Bool := (s.out.slot.getD (i / 8) 0).getLsbD (i % 8)

/-- CAP_SYNC in bit time i: high for the 8 bit times of the slot mark, and low after them (R151). With no slot on the line, as
at a hardware reset, both lines are low. -/
def capSync (s : State) (i : Nat) : Bool := decide (i < 8) && !s.out.slot.isEmpty

/-- The counts of the local clock in a bit time of the output line (R151). -/
def capClock : Nat := 4

/-! ### The command unit (R142, R147, R148) -/

/-- Whether a row is fresh (R97, R134). -/
def isFresh (r : Row) : Bool :=
  match r.source with
  | .cue _ _ _ _ _ fresh _ => fresh
  | .live _ _ _ _ => false

/-- The mirror row of a shown entry (R111, R147). -/
def mirrorRow (e : Entry) : MirrorRow :=
  { row := e.row, showAt := e.showAt, hold := e.hold, buffer := e.buffer, flags := e.flags, past := false }

/-- The mirror after a SHOW or SHOW_FRESH: at most R rows, or the shown row alone (R147). -/
def mirrorAfter (rows : Nat) (e : Entry) (mirror : List MirrorRow) : List MirrorRow :=
  if isFresh e.row then [mirrorRow e]
  else if rows < mirror.length + 1 then (mirror ++ [mirrorRow e]).drop 1
  else mirror ++ [mirrorRow e]

/-- The head entry leaves the schedule for the mirror (R111, R147). -/
def headLeaves (e : Entry) (rest : List Entry) (s : State) : State :=
  let s1 := { s with
    out := { s.out with mirror := mirrorAfter s.settings.displayRows e s.out.mirror }
    air := { s.air with entries := rest, horizon := if rest.isEmpty then none else s.air.horizon } }
  { s1 with air := { s1.air with clear := clearAfterRemoval s1 } }

/-- The shown row is handed on: its writer's count or its cue, then the journal (R148). -/
def handOnShown (e : Entry) (s : State) : State :=
  let staged := get s.out.completion e.buffer
  let s1 := match e.row.source with
    | .live w _ _ _ => count w (fun c => { c with rowsShown := c.rowsShown + 1 }) s
    | .cue n _ _ _ _ _ _ => cueRowShown n s
  journal (.rowShown e (isFresh e.row) staged) s1

/-- The head entry is shown: it leaves the schedule for the mirror, is handed on, and a feed attempt and a feed test are made
(R111, R142, R148). -/
def showHead (e : Entry) (rest : List Entry) (s : State) : State :=
  feedTest (feedAttempt (handOnShown e (headLeaves e rest s)))

/-- The head entry, where its planned show frame is the present frame (R142 case 2). -/
def showDue (s : State) : Bool :=
  match s.air.entries with
  | e :: _ => e.showAt == s.tb.frame
  | [] => false

/-- Whether the pending clear frame is reached (R142 case 3). -/
def clearDue (s : State) : Bool :=
  match s.air.clear with
  | some f => atOrAfter s.tb.frame f
  | none => false

/-- The display is cleared: the mirror is emptied (R147). -/
def emptyMirror (s : State) : State := { s with out := { s.out with mirror := [] } }

/-- The command unit of a slot in RUNNING: the first of the cases of R142 that applies. -/
def commandUnit (s : State) : List Byte × State :=
  if s.out.owed = .startClear then ([unitClear], emptyMirror { s with out := { s.out with owed := .none } })
  else
    match s.air.entries with
    | e :: rest =>
      if e.showAt = s.tb.frame then
        ([if isFresh e.row then unitShowFresh e.buffer else unitShow e.buffer], showHead e rest s)
      else if clearDue s then ([unitClear], emptyMirror { s with air := { s.air with clear := none } })
      else ([], s)
    | [] =>
      if clearDue s then ([unitClear], emptyMirror { s with air := { s.air with clear := none } })
      else ([], s)

/-! ### Staging (R143, R144) -/

/-- Raise the units sent of the entry of a row id (R97, R98). -/
def sendUnits (id : Word32) (n : Nat) (s : State) : State :=
  let entries := s.air.entries.map (fun e => if e.row.id = id then { e with sent := e.sent + n } else e)
  { s with air := { s.air with entries := entries } }

/-- The staging cursor (R140). -/
def setCursor (id : Option Word32) (s : State) : State := { s with out := { s.out with cursor := id } }

/-- The row staged into a buffer is complete: its completion frame is the present frame, and no row is in staging (R143). -/
def stagingDone (b : BufferNo) (s : State) : State :=
  { s with out :=
      { s.out with completion := put s.out.completion b (some s.tb.frame), cursor := none } }

/-- Whether the buffer of e, the first WAITING entry, is free at the present boundary (R144). -/
def bufferReady (e : Entry) (s : State) : Bool :=
  !((s.air.entries.takeWhile (fun x => !isWaiting x)).any (fun x => x.buffer == e.buffer))
    && (match s.out.mirror.reverse.find? (fun r => r.buffer == e.buffer) with
      | some r => r.past || before r.showAt s.tb.frame
      | none => true)

/-- The staging units of a slot with a budget: the row in staging goes on, and the first WAITING entry begins where its
buffer is free and the STAGE unit and its length fit together. The first argument bounds the rounds (R143). -/
def stageUnits : Nat → Nat → State → List Byte × State
  | 0, _, s => ([], s)
  | fuel + 1, budget, s =>
    match s.out.cursor with
    | some id =>
      match s.air.entries.find? (fun e => e.row.id == id) with
      | some e =>
        let n := min budget (e.row.text.length + 2 - e.sent)
        let s1 := sendUnits id n s
        let s2 := if e.row.text.length + 2 ≤ e.sent + n then stagingDone e.buffer s1 else s1
        let more := stageUnits fuel (budget - n) s2
        (((e.row.text.drop (e.sent - 2)).take n) ++ more.1, more.2)
      | none => ([], s)
    | none =>
      match s.air.entries.find? isWaiting with
      | some e =>
        if bufferReady e s && decide (2 ≤ budget) then
          let more := stageUnits fuel (budget - 2) (setCursor (some e.row.id) (sendUnits e.row.id 2 s))
          (unitStage e.buffer :: unitLength e.row.text.length :: more.1, more.2)
        else ([], s)
      | none => ([], s)

/-! ### One slot per boundary (R141) -/

/-- The slot of a boundary in RUNNING: the command unit, then staging with a budget of C − 1 units (R141 to R143). -/
def runningSlot (s : State) : State :=
  let command := commandUnit s
  let staging := stageUnits s.settings.slotUnits (s.settings.slotUnits - 1) command.2
  sendSlot (command.1 ++ staging.1) staging.2

/-- The slot of a boundary in HALTING: CLEAR alone where it is owed, and filler otherwise (R141). -/
def haltingSlot (s : State) : State :=
  if s.out.owed = .haltClear then
    sendSlot [unitClear]
      { s with out := { s.out with owed := .none, mirror := [], completion := Vector.replicate 4 none } }
  else sendSlot [] s

/-- The slot of a boundary by the run state (R141). -/
def boundarySlot (s : State) : State :=
  match s.control.runState with
  | .running => runningSlot s
  | .halting => haltingSlot s
  | .halted | .starting => sendSlot [] s

/-- A mirror row shown 4,096 frames before the present frame is marked past (R147). -/
def pastRow (now : Frame) (r : MirrorRow) : MirrorRow :=
  if framesSince now r.showAt = 4096 then { r with past := true } else r

/-- The past marks at a boundary (R147). -/
def markPast (s : State) : State :=
  { s with out := { s.out with mirror := s.out.mirror.map (pastRow s.tb.frame) } }

/-- A buffer free frame at or before the present frame becomes absent (R103). -/
def lapsedFree (now : Frame) (f : Option Frame) : Option Frame := f.filter (fun f => !atOrBefore f now)

/-- The buffer free frames at a boundary (R103). -/
def lapseBuffers (s : State) : State :=
  { s with air := { s.air with bufFree := s.air.bufFree.map (lapsedFree s.tb.frame) } }

end Sys2Proof.Machine
end

