-- ==== Sys2Proof/Machine/Layout.lean ====
section
/-! DEFINITION. The bytes that the part writes into the shared page: the part words of the header (R164, R180), the status
block (R182), the part-written bytes of a cue slot (R183, R184) and a journal record (R183, R186). -/

namespace Sys2Proof.Machine

/-! ### Encoding (R179) -/

/-- One byte of a number. -/
def b1 (n : Nat) : List Byte := [BitVec.ofNat 8 n]

/-- A number in n bytes, little-endian (R179). -/
def leBytes : Nat → Nat → List Byte
  | 0, _ => []
  | n + 1, v => BitVec.ofNat 8 v :: leBytes n (v / 256)

/-- A two-byte field. -/
def b2 (n : Nat) : List Byte := leBytes 2 n

/-- A four-byte field. -/
def b4 (n : Nat) : List Byte := leBytes 4 n

/-- A field of n bytes that begins with the given ones; the unused bytes are 0 (R179). -/
def padTo (n : Nat) (bytes : List Byte) : List Byte := (bytes ++ List.replicate (n - bytes.length) 0).take n

/-- A flag byte. -/
def bFlag (b : Bool) : List Byte := b1 (bitIf b 0)

/-- A frame, or 0xFFFFFFFF where it is absent (R179). -/
def bFrame (f : Option Frame) : List Byte :=
  match f with
  | some f => b4 f.toNat
  | none => b4 0xFFFFFFFF

/-- A writer number, or 0xFF for none (R179). -/
def bWriter (w : Option Writer) : List Byte :=
  match w with
  | some w => b1 w.val
  | none => b1 0xFF

/-- The head of a slot list, or 0xFF where it is empty (R179). -/
def bHead (l : List SlotNo) : List Byte :=
  match l with
  | n :: _ => b1 n.val
  | [] => b1 0xFF

/-- The offset of a settings field in a SETTINGS record, or 0xFF for none (R159). -/
def bOffset (off : Option Nat) : List Byte := b1 (off.getD 0xFF)

/-! ### Codes (R182, R183, R184, R186) -/

def PortMode.code : PortMode → Nat
  | .off => 0
  | .acquire => 1
  | .run => 2
  | .resync => 3

def Role.code : Role → Nat
  | .standby => 0
  | .taking => 1
  | .lead => 2

def LivePlace.code : LivePlace → Nat
  | .absent => 0
  | .waiting => 1
  | .inStack => 2

def CueState.code : CueState → Nat
  | .free => 0
  | .posted => 1
  | .armed => 2
  | .due => 3
  | .running => 4
  | .suspended => 5
  | .done => 6
  | .aborted => 7
  | .refused => 8
  | .expired => 9

def CueReason.code : CueReason → Nat
  | .none => 0
  | .level => 1
  | .rows => 2
  | .line => 3
  | .kind => 4
  | .withdrawn => 5
  | .halt => 6
  | .reset => 7
  | .wait => 8

def FetchState.code : FetchState → Nat
  | .none => 0
  | .inFlight => 1
  | .void => 2

def Owed.code : Owed → Nat
  | .none => 0
  | .startClear => 1
  | .haltClear => 2

def CloseReason.code : CloseReason → Nat
  | .rowCode => 0
  | .wrap => 1
  | .pause => 2
  | .speaker => 3
  | .handoff => 4

def DropReason.code : DropReason → Nat
  | .stale => 0
  | .overflow => 1
  | .withdrawn => 2
  | .skipped => 3

def RefuseReason.code : RefuseReason → Nat
  | .otherWriter => 1
  | .onAirPath => 2
  | .notLive => 3
  | .none => 4

def LeadReason.code : LeadReason → Nat
  | .start => 0
  | .take => 1
  | .give => 2
  | .timeout => 3
  | .failover => 4
  | .forced => 5
  | .disabled => 6

def PortCause.code : PortCause → Nat
  | .enable => 0
  | .disable => 1
  | .settings => 2
  | .framing => 3
  | .framingLimit => 4
  | .resyncEnd => 5
  | .brk => 6
  | .aligned => 7
  | .silent => 8

def RefCause.code : RefCause → Nat
  | .firstPulse => 0
  | .loss => 1
  | .snap => 2
  | .realign => 3
  | .runStart => 4
  | .rateChange => 5

/-- The operation code of a fault context (R182). -/
def FaultOp.code : FaultOp → Nat
  | .scan _ => 0
  | .settingsRead => 1
  | .flush => 2
  | .fetch => 3

/-- The scan step of a fault context; an operation that is no scan has none (R168, R182). -/
def FaultOp.scanStep : FaultOp → Nat
  | .scan n => n
  | .settingsRead => 0
  | .flush => 0
  | .fetch => 0

/-! ### The header (R164, R180) -/

/-- The offset of the part words in the header (R180). -/
def headerPartOffset : Nat := 0x10

/-- The seven part words of the header (R164, R180). -/
def headerBytes (s : State) : List Byte :=
  b4 s.tb.frame.toNat ++ b4 s.pe.scans.toNat ++ b4 s.pe.writeCount.toNat ++ b4 s.pe.lost.toNat
    ++ b4 s.pe.skipped.toNat ++ b4 s.pe.lastGeneration.toNat ++ b4 s.pe.lastCueChange.toNat

/-! ### The status block (R182) -/

/-- The offset of the status block (R152). -/
def statusOffset : Nat := 0x200

/-- The twelve bytes of a fault context, or of none, whose frame field is 0 as all of it is (R182, R186; DESIGN CHOICE,
notes/assumptions/39). -/
def contextBytes (c : Option FaultContext) : List Byte :=
  match c with
  | some c => b1 1 ++ bFlag c.write ++ b1 c.op.code ++ b1 c.op.scanStep ++ b4 c.offset ++ b4 c.frame.toNat
  | none => padTo 12 []

/-- Offset 0x000 (R164, R182). -/
def engineStatus (s : State) : List Byte :=
  b1 s.control.runState.code ++ b1 s.tb.mode.code ++ bFlag s.control.freeze ++ b1 s.pe.buffer.length
    ++ b4 s.pe.clampCount.toNat ++ b4 s.pe.ignoreCount.toNat ++ b4 s.pe.readMark.toNat ++ b4 s.tb.glitches.toNat

/-- The thirteen counters of a writer, in order (R33, R182). -/
def counterBytes (c : Counters) : List Byte :=
  b4 c.characters.toNat ++ b4 c.noise.toNat ++ b4 c.parityErrors.toNat ++ b4 c.framingErrors.toNat
    ++ b4 c.alignmentErrors.toNat ++ b4 c.ignoredCodes.toNat ++ b4 c.rowsClosed.toNat ++ b4 c.refused.toNat
    ++ b4 c.rowsShown.toNat ++ b4 c.rowsDropped.toNat ++ b4 c.accepted.toNat ++ b4 c.rejected.toNat
    ++ b4 c.unmatched.toNat

/-- The 72 bytes of writer w (R32, R50, R81, R96, R182). -/
def writerStatus (s : State) (w : Writer) : List Byte :=
  let p := portOf s w
  let b := builderOf s w
  let e := get s.est w
  padTo 72
    (padTo 16
      (b1 p.mode.code ++ b1 (roleOf s w).code ++ bWriter (writerOf s w).partner ++ bFlag e.estimate.isSome
        ++ b2 (p.divisor.getD 0) ++ b1 b.chars.length ++ bFlag b.markPending ++ b4 (e.estimate.getD 0) ++ b1 e.rejects)
      ++ counterBytes (get s.counters w))

/-- Offset 0x140 (R96, R182). -/
def leadStatus (s : State) : List Byte :=
  padTo 8
    (bWriter s.la.lead ++ bFlag s.la.handoff.isSome ++ bWriter (s.la.handoff.map Handoff.taker)
      ++ bFlag s.la.silenceReported ++ b2 (framesWaited s))

/-- Offset 0x148 (R50, R182). -/
def queueStatus (s : State) : List Byte :=
  padTo 4 (b1 s.queue.length) ++ b4 ((s.queue.head?.map (fun (r : Row) => r.id.toNat)).getD 0)

/-- The list count and head slot of a capture line: the onsets of a voice line, whose head slot does not apply, or the
trigger wait list of a CUE line (R66, R182). -/
def lineListStatus (s : State) (i : LineNo) : List Byte :=
  match voiceIndex i, cueIndex i with
  | some v, _ => b1 (get s.onsets v).length ++ b1 0
  | none, some j => b1 (get s.disp.waits j).length ++ bHead (get s.disp.waits j)
  | none, none => b2 0

/-- The 8 bytes of capture line i; a CUE line has no active mark (R61, R66, R182). -/
def lineStatus (s : State) (i : LineNo) : List Byte :=
  let c := get s.capture i
  bFlag c.filtered ++ bFlag ((voiceIndex i).isSome && lineActive s i) ++ lineListStatus s i ++ b4 c.captures.toNat

/-- Offset 0x180 (R66, R182). -/
def lastOnsetStatus (s : State) : List Byte :=
  ([0, 1] : List (Fin 2)).flatMap (fun v => b4 (((get s.lastOnset v).map BitVec.toNat).getD 0))

/-- All buffers, in order. -/
def allBuffers : List BufferNo := [0, 1, 2, 3]

/-- Whether an entry is STAGING (R98). -/
def isStaging (e : Entry) : Bool := !isWaiting e && !isStaged e

/-- Offset 0x188 (R120, R182). -/
def scheduleStatus (s : State) : List Byte :=
  let a := s.air
  padTo 6
      (b1 a.entries.length ++ b1 (a.entries.filter isWaiting).length ++ b1 (a.entries.filter isStaging).length
        ++ b1 (a.entries.filter isStaged).length ++ bFlag a.catchup)
    ++ b2 a.lastLag ++ b4 ((a.entries.head?.map (fun (e : Entry) => e.row.id.toNat)).getD 0)
    ++ bFrame (a.entries.head?.map Entry.showAt) ++ bFrame a.horizon
    ++ allBuffers.flatMap (fun b => bFrame (get a.bufFree b)) ++ bFrame a.clear

/-- One entry of the owner stack: its kind, its slot and its level (R139, R182). -/
def ownerStatus (s : State) (o : Owner) : List Byte :=
  match o with
  | .live => b1 0 ++ b1 0 ++ b1 s.settings.liveLevel ++ b1 0
  | .ctx k => b1 (1 + k.val) ++ b1 (((ctxOf s k).map (fun x => x.slot.val)).getD 0) ++ b1 (levelOf s (.ctx k)) ++ b1 0

/-- One cue context (R139, R182). -/
def ctxStatus (x : Option Context) : List Byte :=
  match x with
  | some x => b1 1 ++ b1 x.slot.val ++ b1 x.next ++ b1 x.fetch.code
  | none => b4 0

/-- Offset 0x1B0 (R139, R182). -/
def displayStatus (s : State) : List Byte :=
  let d := s.disp
  b1 d.stack.length ++ b1 (ownerLevel s) ++ b1 d.place.code ++ b1 s.settings.liveLevel ++ b1 (d.pendingLevel.getD 0)
    ++ b1 d.due.length ++ bHead d.due ++ b1 d.watch.length ++ padTo 12 (d.stack.flatMap (ownerStatus s))
    ++ ctxStatus (ctxOf s 0) ++ ctxStatus (ctxOf s 1)

/-- One mirror row (R150, R182). -/
def mirrorStatus (r : MirrorRow) : List Byte :=
  b4 r.row.id.toNat ++ b4 r.showAt.toNat ++ b2 r.hold ++ b1 r.buffer.val ++ b1 0

/-- The units sent of the entry the staging cursor names (R150). -/
def cursorSent (s : State) : Nat :=
  match s.out.cursor with
  | some id => ((s.air.entries.find? (fun e => e.row.id == id)).map Entry.sent).getD 0
  | none => 0

/-- Offset 0x1D0 (R150, R182). -/
def outputStatus (s : State) : List Byte :=
  let o := s.out
  padTo 8 (b1 o.owed.code ++ b1 o.lastUnits ++ b1 o.mirror.length ++ bFlag o.cursor.isSome ++ b1 (cursorSent s))
    ++ b4 ((o.cursor.map BitVec.toNat).getD 0) ++ allBuffers.flatMap (fun b => bFrame (get o.completion b))
    ++ padTo 48 (o.mirror.flatMap mirrorStatus)

/-- The whole status block (R182). -/
def statusBytes (s : State) : List Byte :=
  padTo 0x400
    (padTo 0x20 (engineStatus s ++ contextBytes s.pe.lastFault)
      ++ allWriters.flatMap (writerStatus s) ++ leadStatus s ++ queueStatus s ++ allLines.flatMap (lineStatus s)
      ++ lastOnsetStatus s ++ padTo 0x28 (scheduleStatus s) ++ padTo 0x20 (displayStatus s) ++ outputStatus s)

/-! ### Cue slots (R183, R184) -/

/-- The page offset of a cue slot (R184). -/
def slotOffset (n : SlotNo) : Nat := 0x800 + 32 * n.val

/-- Bytes 0x10 to 0x1F of a held slot (R184). -/
def cuePartBytes (c : Cue) : List Byte :=
  padTo 4 (b1 c.reason.code ++ b1 c.shown ++ b1 c.dropped) ++ padTo 12 (bFrame c.dueFrame ++ bFrame c.start)

/-- What step 4 writes of a held slot: the state byte, and bytes 0x10 to 0x1F (R183). -/
def slotWrite (n : SlotNo) (c : Cue) : List (Nat × List Byte) :=
  [(slotOffset n, b1 c.state.code), (slotOffset n + 0x10, cuePartBytes c)]

/-! ### Journal records (R183, R186) -/

/-- The fields of the row block that do not come from the row record (R186). -/
structure RowBlock where
  flags : RowFlags
  ideal : Option Frame
  showAt : Option Frame
  lag : Nat
  hold : Nat
  buffer : Nat
  command : Nat
  arrival : Bool
  latency : Nat
  staged : Option Frame

/-- The flags byte of a row block (R183). -/
def flagsByte (f : RowFlags) (override : Bool) : Nat :=
  bitIf f.late 0 + bitIf f.catchup 1 + bitIf f.clamped 2 + bitIf override 3

/-- The row block (R186). A field that does not apply to the row's source is 0 (R179). full says that the record carries the
fields of a shown row (R148), and not only those of a dropped one. -/
def rowBlock (r : Row) (full : Bool) (k : RowBlock) : List Byte :=
  match r.source with
  | .live w arrival reason _ =>
    b4 r.id.toNat ++ b1 0 ++ b1 w.val ++ b1 0 ++ b1 (flagsByte k.flags false) ++ bFrame k.ideal ++ bFrame k.showAt
      ++ b2 k.lag ++ b2 k.hold ++ b1 k.buffer ++ b1 k.command ++ b1 (if k.arrival then reason.code else 0) ++ b1 0
      ++ b4 (if full then arrival.toNat else 0) ++ b4 k.latency ++ bFrame k.staged ++ b4 0 ++ b2 0 ++ b2 0
  | .cue n pos start offset hold _ _ =>
    b4 r.id.toNat ++ b1 1 ++ b1 n.val ++ b1 pos ++ b1 (flagsByte k.flags (full && hold.isSome)) ++ bFrame k.ideal
      ++ bFrame k.showAt ++ b2 k.lag ++ b2 k.hold ++ b1 k.buffer ++ b1 k.command ++ b1 0 ++ b1 0
      ++ b4 0 ++ b4 0 ++ bFrame k.staged ++ b4 (if full then start.toNat else 0) ++ b2 (if full then offset else 0)
      ++ b2 (if full then hold.getD 0 else 0)

/-- The row block of a ROW_SHOWN record (R148). -/
def shownBlock (e : Entry) (fresh : Bool) (staged : Option Frame) : List Byte :=
  rowBlock e.row true
    { flags := e.flags, ideal := some e.ideal, showAt := some e.showAt, lag := shownLag (framesSince e.showAt e.ideal)
      hold := e.hold, buffer := e.buffer.val, command := bitIf fresh 0, arrival := true
      latency := e.latency.getD 0, staged := staged }

/-- The row block of a ROW_DROPPED record: the fields its reason carries (R47, R108, R115, R134), with the frames that were
never computed as 0xFFFFFFFF and the other fields 0 (R179, R186). The close reason is carried by a stale drop (R108). -/
def droppedBlock (r : Row) (reason : DropReason) (ideal showAt : Option Frame) (lag : Nat) : List Byte :=
  rowBlock r false
    { flags := { late := false, catchup := false, clamped := false }, ideal := ideal, showAt := showAt
      lag := shownLag lag, hold := 0, buffer := 0, command := reason.code
      arrival := reason == .stale, latency := 0, staged := none }

/-- The kind code of a record (R186). -/
def Record.kind : Record → Nat
  | .rowShown _ _ _ => 1
  | .rowDropped _ _ _ _ _ => 2
  | .correctionRefused _ _ _ => 3
  | .leadChange _ _ _ _ => 4
  | .handoffRefused _ _ _ => 5
  | .giveIgnored _ => 6
  | .writerState _ _ _ _ _ => 7
  | .latencyReseed _ _ _ _ _ => 8
  | .cueState _ _ _ _ _ _ _ => 9
  | .triggerUnused _ _ _ => 10
  | .referenceState _ _ _ => 11
  | .settings _ _ _ _ _ => 12
  | .pageRecovered _ => 13

/-- The text of a record (R186): a row's, but for a skipped one. -/
def Record.text : Record → List Byte
  | .rowShown e _ _ => e.row.text
  | .rowDropped r reason _ _ _ => if reason = .skipped then [] else r.text
  | .correctionRefused _ _ _ | .leadChange _ _ _ _ | .handoffRefused _ _ _ | .giveIgnored _ | .writerState _ _ _ _ _
  | .latencyReseed _ _ _ _ _ | .cueState _ _ _ _ _ _ _ | .triggerUnused _ _ _ | .referenceState _ _ _
  | .settings _ _ _ _ _ | .pageRecovered _ => []

/-- The fields of a record's kind, from 0x10 (R186). -/
def Record.fields : Record → List Byte
  | .rowShown e fresh staged => shownBlock e fresh staged
  | .rowDropped r reason ideal showAt lag => droppedBlock r reason ideal showAt lag
  | .correctionRefused w word reason => b1 w.val ++ bFlag word ++ b1 reason.code
  | .leadChange outgoing incoming reason waited => bWriter outgoing ++ bWriter incoming ++ b1 reason.code ++ b1 0 ++ b2 waited
  | .handoffRefused refused taker lead => b1 refused.val ++ b1 taker.val ++ b1 lead.val
  | .giveIgnored w => b1 w.val
  | .writerState w left entered cause divisor =>
    b1 w.val ++ b1 left.code ++ b1 entered.code ++ b1 cause.code ++ b2 (divisor.getD 0)
  | .latencyReseed w before after onset resumption =>
    padTo 4 (b1 w.val) ++ b4 before ++ b4 after ++ b4 onset.toNat ++ b4 resumption.toNat
  | .cueState n left entered reason shown dropped start =>
    padTo 8 (b1 n.val ++ b1 left.code ++ b1 entered.code ++ b1 reason.code ++ b1 shown ++ b1 dropped) ++ bFrame start
  | .triggerUnused line stamp captured => padTo 4 (b1 line.val) ++ b4 stamp.toNat ++ b4 captured.toNat
  | .referenceState left entered cause => b1 left.code ++ b1 entered.code ++ b1 cause.code
  | .settings generation clamped ignored firstClamped firstIgnored =>
    b4 generation.toNat ++ b1 (bitIf (clamped != 0) 0 + bitIf (ignored != 0) 1) ++ b1 clamped ++ b1 ignored
      ++ bOffset firstClamped ++ bOffset firstIgnored
  | .pageRecovered context => contextBytes (some context)

/-- The 128 bytes of a journal record with its sequence number (R183, R186). -/
def recordBytes (sequence : Word32) (j : JournalEntry) : List Byte :=
  padTo 0x10
      (padTo 8 (b4 sequence.toNat ++ b1 j.record.kind) ++ b4 j.frame.toNat ++ b1 j.record.text.length)
    ++ padTo 0x40 j.record.fields ++ padTo 0x30 j.record.text

/-- The page offset of the ring entry of a sequence number (R166, R186). -/
def ringOffset (sequence : Word32) : Nat := 0x1000 + 128 * (sequence.toNat % Config.ringRecords)

/-- The page offset of a row-area entry (R183). -/
def rowOffset (entry : Nat) : Nat := 0x9000 + 64 * entry

end Sys2Proof.Machine
end

