-- ==== Sys2Proof/Machine/Page.lean ====
section
/-! DEFINITION. The page engine's operations (R155 to R169): the steps of the frame scan and of the halting flush, the cue
table, page faults and their end, and reaching HALTED. -/

namespace Sys2Proof.Machine

/-! ### Reaching HALTED (R174, R175) -/

/-- The engine's operation in flight. -/
def withOp (op : Option PageOp) (s : State) : State := { s with pe := { s.pe with op := op } }

/-- The part enters STARTING, and the settings read begins; with the fault state set it is taken as failed at once (R160,
R174). -/
def enterStarting (s : State) : State :=
  if s.pe.fault.isSome then { s with control := { s.control with runState := .halted, run := false } }
  else withOp (some (.settingsRead s.clock)) { s with control := { s.control with runState := .starting } }

/-- The part enters HALTED, and STARTING at once where RUN is 1 (R175). -/
def enterHalted (s : State) : State :=
  let s1 := { s with control := { s.control with runState := .halted } }
  if s.control.run then enterStarting s1 else s1

/-- Whether a halting flush is in flight. -/
def flushActive (s : State) : Bool :=
  match s.pe.op with
  | some (.pass true _ _ _ _) => true
  | _ => false

/-- HALTED is reached when the halting CLEAR slot has been sent and the halting flush has completed (R175). -/
def haltCheck (s : State) : State :=
  if s.control.runState = .halting ∧ s.out.owed ≠ .haltClear ∧ flushActive s = false then enterHalted s else s

/-! ### The steps of a pass (R155, R167) -/

/-- The accesses of a step are requested. -/
def issue (flush : Bool) (step : PassStep) (generation cueChange : Word32) (s : State) : State :=
  withOp (some (.pass flush step generation cueChange s.clock)) s

/-- The pass is complete (R155, R167). A scan that is complete with no recovery pending is one that a fault's end called for,
or a later one: what waited for it waits no more (R169). -/
def endPass (s : State) : State := haltCheck (allowRefetch (withOp none s))

/-- Records written to the page and not yet passed by the accepted read mark (R166). -/
def outstanding (s : State) : Nat := (s.pe.writeCount - s.pe.readMark).toNat

/-- Step 6: the head record of the buffer is written while the ring has room, and else the pass is complete (R166). -/
def startJournal (flush : Bool) (generation cueChange : Word32) (s : State) : State :=
  match s.pe.buffer with
  | j :: _ =>
    if outstanding s < Config.ringRecords then
      issue flush (.journal [(ringOffset s.pe.writeCount, recordBytes s.pe.writeCount j)]) generation cueChange s
    else endPass s
  | [] => endPass s

/-- Step 5: the header and status block are written with their values at this moment (R164). -/
def startStatus (flush : Bool) (generation cueChange : Word32) (s : State) : State :=
  issue flush (.status [(headerPartOffset, headerBytes s), (statusOffset, statusBytes s)]) generation cueChange s

/-- Whether step 4 writes a slot: its mark is set, it is held, and no entry of a terminal cue remains (R162). -/
def slotReady (s : State) (n : SlotNo) : Bool :=
  get s.pe.marks n && (match cueOf s n with
    | some c => !(isTerminal c.state && s.air.entries.any (isCueEntry n))
    | none => false)

/-- Step 4: the next slot in slot-number order, from slot number first on, that is to be written; with none of them, step 5
(R155, R162). Each slot is judged when the one before it has been written, so a higher slot that is marked meanwhile is
written in the same pass (DESIGN CHOICE, notes/assumptions/45). -/
def startSlots (first : Nat) (flush : Bool) (generation cueChange : Word32) (s : State) : State :=
  match allSlots.find? (fun n => decide (first ≤ n.val) && slotReady s n) with
  | some n =>
    match cueOf s n with
    | some c => issue flush (.slot n (slotWrite n c) (isTerminal c.state) false) generation cueChange s
    | none => startStatus flush generation cueChange s
  | none => startStatus flush generation cueChange s

/-- Step 3, where it is called for (R155). -/
def startCueTable (generation cueChange : Word32) (s : State) : State :=
  if cueChange ≠ s.pe.lastCueChange ∨ s.pe.runStart = true ∨ s.pe.recovery = true then
    issue false .cueTable generation cueChange s
  else startSlots 0 false generation cueChange s

/-- Step 2, where it is called for (R155). -/
def startSettings (generation cueChange : Word32) (s : State) : State :=
  if generation ≠ s.pe.lastGeneration ∨ s.pe.recovery = true then issue false .settings generation cueChange s
  else startCueTable generation cueChange s

/-- The read mark read is tested, and attention JOURNAL cleared where the accepted one equals the write count (R156). -/
def acceptMark (mark : Word32) (s : State) : State :=
  let s1 := if (s.pe.writeCount - mark).toNat ≤ Config.ringRecords then { s with pe := { s.pe with readMark := mark } }
    else s
  if s1.pe.readMark = s1.pe.writeCount then lower .journal s1 else s1

/-- The completion of step 1 (R156, R167). -/
def headerRead (words : HeaderWords) (s : State) : State :=
  match s.pe.op with
  | some (.pass flush .header _ _ _) =>
    let s1 := acceptMark words.readMark s
    if flush then startSlots 0 true words.generation words.cueChange s1
    else startSettings words.generation words.cueChange s1
  | _ => s

/-- A frame boundary in RUNNING reaches the page engine: nothing under a fault, a skipped scan, or a new scan (R155). -/
def scanBoundary (s : State) : State :=
  if !isRunning s || s.pe.fault.isSome then s
  else if scanActive s then { s with pe := { s.pe with skipped := s.pe.skipped + 1 } }
  else issue false .header 0 0 { s with pe := { s.pe with scans := s.pe.scans + 1 } }

/-- The halting flush begins; with the fault state set it completes at once (R167). -/
def startFlush (s : State) : State :=
  if s.pe.fault.isSome then withOp none s else issue true .header 0 0 s

/-! ### Step 3: the cue table (R161) -/

/-- The slot's state byte is held against the held cue's state, and the write-back mark set where they differ (R161). -/
def checkSlot (n : SlotNo) (read : CueState) (s : State) : State :=
  match cueOf s n with
  | some c => if c.state = read then s else markSlot n s
  | none => s

/-- One slot of the cue table is handed to the cue player (R126, R136, R161). runStart says that this is the run-start
scan. -/
def handSlot (runStart : Bool) (table : List Byte) (s : State) (n : SlotNo) : State :=
  let slot := slotBytes table n
  let read := slotState slot
  match cueOf s n with
  | some c =>
    if runStart = true ∧ c.state = .armed then checkSlot n read (takePosted n slot .armed s)
    else checkSlot n read (if withdrawFlag slot then withdrawCue n c s else s)
  | none =>
    match read with
    | .posted => takePosted n slot .posted s
    | .armed => if runStart then takePosted n slot .armed s else s
    | .due | .running | .suspended => if runStart then takeStray n slot read s else s
    | .free | .done | .aborted | .refused | .expired => s

/-- The count read in step 1 is taken as seen (R161). -/
def seeCueChange (cueChange : Word32) (s : State) : State := { s with pe := { s.pe with lastCueChange := cueChange } }

/-- The marks that call for step 3 are cleared (R155). A recovery scan that fails in a later step finds its mark cleared
(DESIGN CHOICE, notes/assumptions/44: R169 says that the mark stays set where an access of the scan fails). -/
def clearScanMarks (s : State) : State := { s with pe := { s.pe with runStart := false, recovery := false } }

/-- Every slot of the table is handed to the cue player, in slot-number order (R161). -/
def handTable (table : List Byte) (s : State) : State := allSlots.foldl (handSlot s.pe.runStart table) s

/-- The completion of step 3: the count read is taken as seen, every slot is handed, and the marks that called for the step
are cleared (R155, R161). -/
def cueTableRead (table : List Byte) (s : State) : State :=
  match s.pe.op with
  | some (.pass false .cueTable generation cueChange _) =>
    startSlots 0 false generation cueChange (clearScanMarks (handTable table (seeCueChange cueChange s)))
  | _ => s

/-! ### Steps 4 to 6: completions of writes (R162, R164, R166) -/

/-- The cue player releases a slot whose terminal state is written (R125, R162). A context that still waits for the cue's void
fetch keeps the slot's number until that fetch ends (DESIGN CHOICE, notes/assumptions/42: by R125 a slot that is not held is
in no cue context). -/
def releaseSlot (n : SlotNo) (s : State) : State := storeCue n none s

/-- The completion of a slot's write: the mark is cleared unless the slot has changed since (R162). -/
def slotWritten (s : State) : State :=
  match s.pe.op with
  | some (.pass flush (.slot n data terminal dirty) generation cueChange _) =>
    let s1 := writePage data s
    let s2 := { s1 with pe := { s1.pe with marks := put s1.pe.marks n dirty } }
    startSlots (n.val + 1) flush generation cueChange (if terminal then releaseSlot n s2 else s2)
  | _ => s

/-- The completion of the header and status writes (R164). -/
def statusWritten (s : State) : State :=
  match s.pe.op with
  | some (.pass flush (.status data) generation cueChange _) =>
    startJournal flush generation cueChange (writePage data s)
  | _ => s

/-- The completion of a record's write: the record leaves the buffer, the write count rises, and attention JOURNAL is set
(R166). -/
def journalWritten (s : State) : State :=
  match s.pe.op with
  | some (.pass flush (.journal data) generation cueChange _) =>
    let s1 := writePage data s
    let s2 := { s1 with pe := { s1.pe with buffer := s1.pe.buffer.drop 1, writeCount := s1.pe.writeCount + 1 } }
    startJournal flush generation cueChange (raise .journal s2)
  | _ => s

/-! ### Page faults (R153, R168, R169) -/

/-- Whether an offset lies in a region of the page. -/
def within (offset first length : Nat) : Bool := decide (first ≤ offset) && decide (offset < first + length)

/-- Whether an offset lies in the data of a write in flight. -/
def withinData (offset : Nat) (data : List (Nat × List Byte)) : Bool :=
  data.any (fun d => within offset d.1 d.2.length)

/-- The number of a scan step (R155). -/
def PassStep.number : PassStep → Nat
  | .header => 1
  | .settings => 2
  | .cueTable => 3
  | .slot _ _ _ _ => 4
  | .status _ => 5
  | .journal _ => 6

/-- Whether the accesses of a step write. -/
def PassStep.writes : PassStep → Bool
  | .header | .settings | .cueTable => false
  | .slot _ _ _ _ | .status _ | .journal _ => true

/-- Whether an offset lies where a step's accesses in flight reach (R152, R156, R161). -/
def PassStep.reaches (offset : Nat) : PassStep → Bool
  | .header => within offset 0 12
  | .settings => within offset 0x100 256
  | .cueTable => within offset 0x800 2048
  | .slot _ data _ _ => withinData offset data
  | .status data => withinData offset data
  | .journal data => withinData offset data

/-- An access in flight: whether it writes, its operation, and the local count of its request. -/
structure Site where
  write : Bool
  op : FaultOp
  since : Nat
  deriving DecidableEq, Repr

/-- The access in flight at a page offset, where there is one (R168). The settings read of STARTING has one request time for
the header words and the block (DESIGN CHOICE, notes/assumptions/34). -/
def accessAt (a : Access) (offset : Nat) (s : State) : Option Site :=
  match a with
  | .engine =>
    match s.pe.op with
    | some (.settingsRead since) =>
      if within offset 0 12 || within offset 0x100 256 then some ⟨false, .settingsRead, since⟩ else none
    | some (.pass flush step _ _ since) =>
      if step.reaches offset then some ⟨step.writes, if flush then .flush else .scan step.number, since⟩ else none
    | none => none
  | .fetch k =>
    match ctxOf s k with
    | some x =>
      if x.fetch ≠ .none ∧ within offset (rowOffset x.fetchEntry) 64 = true then some ⟨false, .fetch, x.fetchSince⟩
      else none
    | none => none

/-- What the end of the engine's operation does to the run state: an abandoned settings read returns the part to HALTED with
RUN cleared, and an abandoned flush completes (R167, R168, R174). -/
def afterAbandoned (op : Option PageOp) (s : State) : State :=
  match op with
  | some (.settingsRead _) => { s with control := { s.control with runState := .halted, run := false } }
  | some (.pass true _ _ _ _) => haltCheck s
  | some (.pass false _ _ _ _) => s
  | none => s

/-- A page access has failed: the fault state and context are set, attention PAGE_FAULT is set, and every page operation in
flight is abandoned (R163, R168), the fetch of context 0 before that of context 1 (DESIGN CHOICE, notes/assumptions/37). -/
def takeFault (offset : Nat) (site : Site) (s : State) : State :=
  let context : FaultContext := { offset := offset, write := site.write, op := site.op, frame := s.tb.frame }
  let s1 := raise .pageFault
    { s with pe := { s.pe with fault := some context, lastFault := some context, op := none } }
  afterAbandoned s.pe.op (([0, 1] : List CtxNo).foldl abandonFetch s1)

/-- The card link reports an access as unsuccessful (R153, R168). -/
def accessFailed (a : Access) (offset : Nat) (s : State) : State :=
  match accessAt a offset s with
  | some site => takeFault offset site s
  | none => s

/-- An access has not completed within 10 ms of its request (R153). -/
def accessLate (a : Access) (offset : Nat) (s : State) : State :=
  match accessAt a offset s with
  | some site => if site.since + Config.accessCounts ≤ s.clock then takeFault offset site s else s
  | none => s

/-- The host ends a fault: PAGE_RECOVERED is journaled, and in RUNNING the recovery scan is pending (R169). -/
def endFault (s : State) : State :=
  match s.pe.fault with
  | some context =>
    let s1 := journal (.pageRecovered context) { s with pe := { s.pe with fault := none } }
    if isRunning s then { s1 with pe := { s1.pe with recovery := true } } else s1
  | none => s

end Sys2Proof.Machine
end

