-- ==== Sys2Proof/Machine/Boundary.lean ====
section
/-! DEFINITION. Frame boundaries (R3): what a boundary does to the timebase, the work each block does at it, and the pieces of
that work which are rows of the opcode table.

A boundary does at once what no row of the table names: the counters of ports and handoff, the page scan, the feed attempt,
the due-list test and the feed test, and the slot where it shows and clears nothing. The other pieces are marked in
State.work. Each is taken by its own command, or by settle before any later event (notes/assumptions/2). -/

namespace Sys2Proof.Machine

/-! ### The boundary itself (R3) -/

/-- A frame boundary with a given origin: F takes the pending load or the next number, the held tick becomes 0, and a load
that is taken restarts the capture filters (R3, R58). -/
def newFrame (origin : Nat) (s : State) : State :=
  let s1 := { s with tb := { s.tb with
    frame := s.tb.load.getD (s.tb.frame + 1)
    load := none
    origin := some origin
    heldTick := 0
    stepped := none } }
  if s.tb.load.isSome then loadTaken s1 else s1

/-! ### Whether a piece of work is called for -/

/-- An onset is past the matching window, at a boundary in RUNNING (R59). -/
def onsetsDue (s : State) : Bool := isRunning s && s.onsets.any (fun l => l.any (onsetOld s))

/-- A last onset is too old (R59). -/
def lastOnsetsDue (s : State) : Bool := s.lastOnset.any (fun l => l.any (lastOld s))

/-- A buffer free frame is reached (R103). -/
def buffersDue (s : State) : Bool := s.air.bufFree.any (fun f => f.any (fun f => atOrBefore f s.tb.frame))

/-- A mirror row was shown 4,096 frames before (R147). -/
def mirrorDue (s : State) : Bool :=
  s.out.mirror.any (fun r => !r.past && framesSince s.tb.frame r.showAt == 4096)

/-- A watched cue's start frame is reached, at a boundary in RUNNING (R127). -/
def atFrameReached (s : State) : Bool :=
  isRunning s && s.disp.watch.any (fun n =>
    match cueOf s n with
    | some c => atOrBefore c.startFrame s.tb.frame
    | none => false)

/-- A due cue's wait limit is reached, at a boundary in RUNNING (R129). -/
def expiryDue (s : State) : Bool := isRunning s && s.disp.due.any (waitOver s)

/-- The slot of the present boundary shows the head entry or clears the screen: it is the SHOW or the PENDING_CLEAR step
(R142). -/
def slotDeferred (s : State) : Bool :=
  isRunning s && decide (s.out.owed = .none) && (showDue s || clearDue s)

/-! ### The work of a boundary -/

/-- The slot of a boundary is sent; in HALTING it may complete the halt (R141, R175). -/
def slotNow (s : State) : State := haltCheck (boundarySlot s)

/-- The counters of a boundary: the ports' pause and silence, and the handoff's frames waited (R30, R31, R88). -/
def frameCounts (s : State) : State := handoffCount (countPorts s)

/-- The slot of a boundary, where it shows and clears nothing (R141). -/
def frameSlot (s : State) : State := if slotDeferred s then s else slotNow s

/-- The page engine and the live queue at a boundary (R48, R155). -/
def frameFeed (s : State) : State := feedAttempt (scanBoundary s)

/-- The due-list test and the feed test of a boundary in RUNNING; where watched cues become DUE at it, the due-list test
follows that (R127, R128, R132). -/
def frameCues (s : State) : State :=
  if isRunning s && !atFrameReached s then feedTest (dueTest s).1 else feedTest s

/-- The pieces that are left to commands are marked. -/
def frameMarks (slot : Bool) (s : State) : State :=
  { s with work :=
    { pause := Vector.ofFn (pauseDue s)
      timeout := handoffOver s
      silence := leadSilent s
      onsets := onsetsDue s
      lastOnsets := lastOnsetsDue s
      buffers := buffersDue s
      mirror := mirrorDue s
      atFrame := atFrameReached s
      expiry := expiryDue s
      slot := slot } }

/-- What each block does at the boundary of the present frame (R3). -/
def frameWork (s : State) : State :=
  frameMarks (slotDeferred (frameCounts s)) (frameCues (frameFeed (frameSlot (frameCounts s))))

/-! ### The pieces, one by one

A piece acts only where it is marked, and clears its mark. -/

/-- The pause test of writer w (R30). -/
def pauseWork (w : Writer) (s : State) : State :=
  if get s.work.pause w then pauseNow w { s with work := { s.work with pause := put s.work.pause w false } } else s

/-- The timeout test of the handoff (R88). -/
def timeoutWork (s : State) : State :=
  if s.work.timeout then handoffTimeoutNow { s with work := { s.work with timeout := false } } else s

/-- The onsets past the matching window go (R59). -/
def onsetsWork (s : State) : State :=
  if s.work.onsets then ageOnsets { s with work := { s.work with onsets := false } } else s

/-- The last onsets too old become absent (R59). -/
def lastOnsetsWork (s : State) : State :=
  if s.work.lastOnsets then lapseLastOnsets { s with work := { s.work with lastOnsets := false } } else s

/-- The buffer free frames reached become absent (R103). -/
def buffersWork (s : State) : State :=
  if s.work.buffers then lapseBuffers { s with work := { s.work with buffers := false } } else s

/-- The mirror rows shown 4,096 frames before are marked past (R147). -/
def mirrorWork (s : State) : State :=
  if s.work.mirror then markPast { s with work := { s.work with mirror := false } } else s

/-- The watched cues whose start frame is reached become DUE, and the due list is tested (R127, R128). -/
def atFrameWork (s : State) : State :=
  if s.work.atFrame then watchBoundary { s with work := { s.work with atFrame := false } } else s

/-- The due cues whose wait limit is reached expire; the boundary's test of the due list comes first (R129). -/
def expiryWork (s : State) : State :=
  let s1 := atFrameWork s
  if s1.work.expiry then expireBoundary { s1 with work := { s1.work with expiry := false } } else s1

/-- The slot that shows or clears is sent (R141, R142). -/
def slotWork (s : State) : State :=
  if s.work.slot then slotNow { s with work := { s.work with slot := false } } else s

/-- The SHOW step: the marked slot, where the head entry's planned show frame is the present frame (R142). -/
def showWork (s : State) : State := if showDue s then slotWork s else s

/-- The PENDING_CLEAR step: the marked slot, where it shows nothing and the pending clear is reached (R116, R142). -/
def clearWork (s : State) : State := if !showDue s && clearDue s then slotWork s else s

/-- Every piece that is left is taken, in one order of those the spec allows (DESIGN CHOICE, notes/assumptions/2). -/
def settle (s : State) : State :=
  let s1 := slotWork (lastOnsetsWork (onsetsWork (mirrorWork (buffersWork s))))
  let s2 := timeoutWork (pauseWork 3 (pauseWork 2 (pauseWork 1 (pauseWork 0 s1))))
  expiryWork (silentLeads s2)

/-! ### When a command comes -/

/-- Time passes to the moment of a command. -/
def advance (m : Moment) (s : State) : State := { s with clock := s.clock + m.dt, lines := m.lines }

/-- The state in which an event finds the part: what is left of the boundary before it is taken first, and then time passes
to its moment. -/
def arrive (m : Moment) (s : State) : State := advance m (settle s)

/-- An event at a moment; while RESET_N is held low nothing acts (R172, R176). -/
def event (m : Moment) (f : State → State) (s : State) : State :=
  if (arrive m s).resetLow then arrive m s else f (arrive m s)

/-- A piece of the present boundary's work, taken by its own command; the other pieces stay as they are. -/
def piece (m : Moment) (f : State → State) (s : State) : State :=
  if (advance m s).resetLow then advance m s else f (advance m s)

/-! ### The timebase (R5 to R12) -/

/-- TB changes state: attention REFERENCE and one REFERENCE_STATE record (R12). At a boundary the record is made before
those that the other blocks make at it (DESIGN CHOICE, notes/assumptions/2: no rule orders them). -/
def tbTurns (left entered : TbMode) (cause : RefCause) (s : State) : State :=
  raise .reference (journal (.referenceState left entered cause) { s with tb := { s.tb with mode := entered } })

/-- The phase after a pulse that begins a frame, or snaps or realigns one: 1 with divider 2 (R5, R6, R9). -/
def phaseAfter (s : State) : Bool := if s.settings.divider = 2 then true else s.tb.phase

/-- A pulse is accepted, with the divider phase it leaves. -/
def acceptPulse (phase : Bool) (s : State) : State :=
  { s with tb := { s.tb with lastPulse := some s.clock, phase := phase } }

/-- The counts since the last accepted pulse. -/
def sincePulse (s : State) : Nat := s.clock - s.tb.lastPulse.getD 0

/-- The counts since the frame origin. -/
def sinceOrigin (s : State) : Nat := s.clock - s.tb.origin.getD 0

/-- A pulse in UNLOCKED (R5). -/
def firstPulse (s : State) : State :=
  frameWork (tbTurns .unlocked .locked .firstPulse (newFrame s.clock (acceptPulse (phaseAfter s) s)))

/-- A pulse in LOCKED: a glitch, a between-field pulse, or a boundary (R6). -/
def lockedPulse (s : State) : State :=
  if sincePulse s < glitchLimit s then { s with tb := { s.tb with glitches := s.tb.glitches + 1 } }
  else if s.settings.divider = 2 ∧ s.tb.phase = true ∧ sinceOrigin s < fieldLimit s then acceptPulse false s
  else frameWork (newFrame s.clock (acceptPulse (phaseAfter s) s))

/-- A pulse in FREEWHEEL: a phase snap, or a realignment, at which the held tick keeps the tick reached (R9). -/
def freewheelPulse (s : State) : State :=
  let s1 := acceptPulse (phaseAfter s) s
  if framePeriod s / 2 ≤ sinceOrigin s then frameWork (tbTurns .freewheel .locked .snap (newFrame s.clock s1))
  else
    tbTurns .freewheel .locked .realign
      { s1 with tb := { s1.tb with heldTick := subTick s, origin := some s.clock } }

/-- A reference pulse (R5, R6, R9). -/
def pulse (s : State) : State :=
  match s.tb.mode with
  | .unlocked => firstPulse s
  | .locked => lockedPulse s
  | .freewheel => freewheelPulse s

/-- The loss interval runs out: a boundary whose origin is placed at the old origin + P, and FREEWHEEL (R7). The
REFERENCE_STATE record comes before the records of the boundary's work (DESIGN CHOICE, notes/assumptions/2). -/
def lossNow (s : State) : State :=
  match s.tb.mode, s.tb.origin with
  | .locked, some o =>
    if o + lossCounts s ≤ s.clock then
      frameWork (tbTurns .locked .freewheel .loss (newFrame (o + framePeriod s) s))
    else s
  | _, _ => s

/-- The freewheel interval runs out: a boundary whose origin is the previous origin + P (R8). -/
def freewheelNow (s : State) : State :=
  match s.tb.mode, s.tb.origin with
  | .freewheel, some o => if o + framePeriod s ≤ s.clock then frameWork (newFrame (o + framePeriod s) s) else s
  | _, _ => s

/-- The timebase at the entry into RUNNING (R10). -/
def tbEnters (s : State) : State :=
  match s.tb.mode with
  | .unlocked => frameWork (tbTurns .unlocked .freewheel .runStart (newFrame s.clock s))
  | .locked | .freewheel => if s.tb.load.isSome then frameWork (newFrame s.clock s) else s

/-- The rate code and divider of a settings read take effect: a change puts TB to UNLOCKED (R11). -/
def tbRates (rateCode divider : Nat) (s : State) : State :=
  let left := s.tb.mode
  let same := decide (rateCode = s.settings.rateCode) && decide (divider = s.settings.divider)
  let s1 := { s with settings := { s.settings with rateCode := rateCode, divider := divider } }
  if same then s1
  else
    let s2 := { s1 with tb := { s1.tb with
      mode := .unlocked, origin := none, lastPulse := none, phase := false, heldTick := 0, stepped := none } }
    if left = .unlocked then s2 else tbTurns left .unlocked .rateChange s2

/-- The frame-number load request of a settings read is accepted (R11). -/
def tbLoad (load : Option Frame) (s : State) : State :=
  match load with
  | some v => { s with tb := { s.tb with load := some v, phase := false } }
  | none => s

end Sys2Proof.Machine
end

