-- ==== Sys2Proof/Machine/Run.lean ====
section
/-! DEFINITION. Control (R171 to R178): settings applications (R157 to R160), entering and leaving RUNNING, the resets, and
the host's writes to the register window. -/

namespace Sys2Proof.Machine

/-! ### Settings applications (R157 to R159) -/

/-- The group C values but for forced lead take their new values, and every set estimate is clamped (R69, R157 step 1). -/
def applyTuning (new : Settings) (s : State) : State :=
  clampEstimates { s with settings := { s.settings with
    lmin := new.lmin, lmax := new.lmax, lseed := new.lseed, smooth := new.smooth, gate := new.gate
    pauseFrames := new.pauseFrames, silenceFrames := new.silenceFrames, handoffFrames := new.handoffFrames
    holdBase := new.holdBase, holdChar := new.holdChar, lateAbove := new.lateAbove, catchAbove := new.catchAbove
    dropAbove := new.dropAbove, linger := new.linger, feedWindow := new.feedWindow } }

/-- Writer w's settings with the voice map and relay partner of new ones. -/
def withVoices (old new : WriterSettings) : WriterSettings := { old with voice := new.voice, partner := new.partner }

/-- The delay, the voice maps, the relay partners and the capture lines take their new values (R157 step 2). -/
def applyVoices (new : Settings) (s : State) : State :=
  allLines.foldl (applyLine new) { s with settings := { s.settings with
    delay := new.delay
    writers := Vector.ofFn (fun w => withVoices (get s.settings.writers w) (get new.writers w)) } }

/-- The port settings of one writer in an application: a switch of the lead at it has its silence test finished before the
next writer's port is taken (R91, R92, R157 step 3). -/
def applyWriter (new : Settings) (s : State) (w : Writer) : State := silentLeads (applyPort new s w)

/-- The group B values take their new values, in the order of R157: the voices, the ports, the live level. -/
def applyOnAir (new : Settings) (s : State) : State :=
  applyLiveLevel new.liveLevel (allWriters.foldl (applyWriter new) (applyVoices new s))

/-- The applied forced lead. -/
def setForced (f : Option Writer) (s : State) : State := { s with settings := { s.settings with forcedLead := f } }

/-- The forced lead of an application in RUNNING, with the fields it leaves ignored; the silence test of a switch it makes is
finished with it (R91 to R93, R157 step 5, R158). -/
def applyForced (f : Option Writer) (s : State) : State × List Nat :=
  match f with
  | none => (setForced none s, [])
  | some w =>
    let r := forceLead w s
    if r.2 then (setForced (some w) (silentLeads r.1), []) else (s, [forcedLeadOffset])

/-- The end of an application: the generation, the counts, attention SETTINGS where a field is ignored, and one SETTINGS
record where a field is clamped or ignored (R157 to R159). -/
def reportSettings (generation : Word32) (clamped ignored : List Nat) (s : State) : State :=
  let s1 := { s with pe := { s.pe with
    lastGeneration := generation
    clampCount := s.pe.clampCount + BitVec.ofNat 32 clamped.length
    ignoreCount := s.pe.ignoreCount + BitVec.ofNat 32 ignored.length } }
  let s2 := if ignored.isEmpty then s1 else raise .settings s1
  if clamped.isEmpty && ignored.isEmpty then s2
  else journal (.settings generation clamped.length ignored.length clamped.head? ignored.head?) s2

/-- The silence test of an application, where a lead exists, with what it does (R91, R92, R157 step 6). -/
def silenceOfApplication (s : State) : State := if s.la.lead.isSome then silentLeads (silenceTest s) else s

/-- A settings application in RUNNING (R157 to R159): group A is compared, group B applied or with FREEZE set compared,
group C applied. -/
def applyRunning (generation : Word32) (block : List Byte) (s : State) : State :=
  let new := parseSettings block
  let s1 := applyTuning new s
  let s2 := if s.control.freeze then s1 else applyOnAir new s1
  let forced := applyForced new.forcedLead s2
  let ignored := ignoredA s.settings new block ++ (if s.control.freeze then ignoredB s.settings new else []) ++ forced.2
  reportSettings generation (clampedFields block) ignored (silenceOfApplication forced.1)

/-- The group A values of a settings read in STARTING: TB takes the rates and the load (R11), the others are applied. -/
def applyStructure (new : Settings) (load : Option Frame) (s : State) : State :=
  let s1 := tbLoad load (tbRates new.rateCode new.divider s)
  { s1 with settings := { s1.settings with
    slotUnits := new.slotUnits, rowWidth := new.rowWidth, displayRows := new.displayRows
    leadAtStart := new.leadAtStart } }

/-- The settings application of STARTING: every group is applied, and FREEZE has no effect (R158, R160). -/
def applyStarting (generation : Word32) (block : List Byte) (s : State) : State :=
  let new := parseSettings block
  let s1 := applyOnAir new (applyTuning new (applyStructure new (parseLoad block) s))
  reportSettings generation (clampedFields block) [] (silenceOfApplication (setForced new.forcedLead s1))

/-- The completion of the settings block read of a scan (R155 step 2, R157). -/
def settingsRead (block : List Byte) (s : State) : State :=
  match s.pe.op with
  | some (.pass false .settings generation cueChange _) =>
    startCueTable generation cueChange (applyRunning generation block s)
  | _ => s

/-! ### Entering RUNNING (R175) -/

/-- Entry into RUNNING is one event, and reaches each block (R175). The timebase comes last, so that a boundary it makes is
the first one in RUNNING (R10). -/
def enterRunning (s : State) : State :=
  let s1 := { s with control := { s.control with runState := .running } }
  let s2 := allWriters.foldl seedWriter (allWriters.foldl startPort s1)
  let s3 := { s2 with out := { s2.out with owed := .startClear } }
  tbEnters (insertionTest (startLead s3)).1

/-- The run-start scan is pending (R155, R160). -/
def pendRunStart (s : State) : State := { s with pe := { s.pe with runStart := true } }

/-- What the settings read of STARTING does where the part goes on into RUNNING, before it enters: the application, the test
of the read mark, and the run-start scan (R160). -/
def startingApplied (words : HeaderWords) (block : List Byte) (s : State) : State :=
  pendRunStart (acceptMark words.readMark (applyStarting words.generation block s))

/-- The part returns to HALTED from STARTING (R160). -/
def backToHalted (s : State) : State := { s with control := { s.control with runState := .halted } }

/-- The completion of the settings read of STARTING: RUN is judged, and the part goes on into RUNNING or returns to HALTED
(R160, R174). -/
def startingRead (words : HeaderWords) (block : List Byte) (s : State) : State :=
  match s.pe.op with
  | some (.settingsRead _) =>
    if s.control.run then enterRunning (startingApplied words block (withOp none s)) else backToHalted (withOp none s)
  | _ => s

/-! ### Leaving RUNNING (R175) -/

/-- AS empties the schedule when the part leaves RUNNING; the last lag is kept (R99). -/
def haltSchedule (s : State) : State := { s with air := { AirSchedule.reset with lastLag := s.air.lastLag } }

/-- Leaving RUNNING is one event, and reaches every block; a flush that a set fault completes at once leaves the halting
CLEAR slot to be sent (R175). -/
def leaveRunning (s : State) : State :=
  let s1 := haltSchedule (haltDisplay s)
  startFlush { s1 with
    control := { s1.control with runState := .halting }
    ports := Vector.replicate 4 stoppedPort
    builders := Vector.replicate 4 Builder.reset
    queue := []
    onsets := Vector.replicate 2 []
    la := Arbiter.reset
    out := { s1.out with owed := .haltClear, cursor := none } }

/-! ### Resets (R176) -/

/-- Every block at its reset values. The local count, the raw capture lines, host memory and the waiting commands are not
the part's to reset. -/
def resetBlocks (s : State) : State :=
  { State.reset with
    clock := s.clock
    lines := s.lines
    resetLow := s.resetLow
    capture := s.lines.map Capture.reset
    mem := s.mem
    pending := s.pending }

/-- A soft reset: the page base is kept, and the slot last sent is finished (R151, R154, R176). -/
def softResetNow (s : State) : State :=
  let s1 := resetBlocks s
  { s1 with pe := { s1.pe with base := s.pe.base }, out := { s1.out with slot := s.out.slot } }

/-- RESET_N goes low: every block is held at its hardware reset values, and the output line stops (R151, R172, R176). The
filtered levels are the raw levels of this moment, and do not follow the lines while RESET_N is low (DESIGN CHOICE,
notes/assumptions/46). -/
def hardwareResetNow (s : State) : State := { resetBlocks s with resetLow := true }

/-- RESET_N goes high: the part is HALTED with every block at its hardware reset values (R176). The filtered levels are taken
anew, as the raw levels of this moment (DESIGN CHOICE, notes/assumptions/46: R53 says "the moment of the reset" alone). -/
def resetRises (s : State) : State := if s.resetLow then { resetBlocks s with resetLow := false } else s

/-! ### Writes to the register window (R171 to R178) -/

/-- Bit i of a written word. -/
def wordBit (word : Word32) (i : Nat) : Bool := word.getLsbD i

/-- The RUN bit takes a written value (R173). -/
def writeRun (run : Bool) (s : State) : State :=
  let s1 := { s with control := { s.control with run := run } }
  match s.control.runState, run with
  | .halted, true => enterStarting s1
  | .halted, false => s1
  | .running, false => leaveRunning s1
  | .running, true => s1
  | .starting, _ => s1
  | .halting, _ => s1

/-- A FREEZE bit of 1 sets the freeze state; 0 leaves it (R173). -/
def writeFreeze (freeze : Bool) (s : State) : State :=
  if freeze then { s with control := { s.control with freeze := true } } else s

/-- A write to CONTROL (R171, R173). -/
def writeControl (word : Word32) (s : State) : State :=
  if wordBit word 2 then softResetNow s else writeFreeze (wordBit word 1) (writeRun (wordBit word 0) s)

/-- A write to ATTN clears each flag whose bit is 0; with PAGE_FAULT's bit 0 it ends a fault (R169, R177). The flags are
cleared first, and what the end of the fault sets stays set (DESIGN CHOICE, notes/assumptions/38: R177 allows either). -/
def writeAttn (word : Word32) (s : State) : State :=
  let s1 := { s with control := { s.control with attn := s.control.attn &&& word.setWidth 8 } }
  if wordBit word AttnFlag.pageFault.bit then s1 else endFault s1

/-- A write to ATTN_ENABLE (R178). -/
def writeEnable (word : Word32) (s : State) : State :=
  { s with control := { s.control with enable := word.setWidth 8 } }

/-- The page base with its high or low word replaced, bits 11 to 0 of the low word taken as 0 (R172). -/
def replaceBase (high : Bool) (word : Word32) (base : BitVec 64) : BitVec 64 :=
  if high then word ++ base.setWidth 32 else (base >>> 32).setWidth 32 ++ (word &&& 0xFFFFF000)

/-- A write to PAGE_BASE_HI or PAGE_BASE_LO: taken in HALTED, else discarded (R172). -/
def writeBase (high : Bool) (word : Word32) (s : State) : State :=
  if s.control.runState = .halted then { s with pe := { s.pe with base := replaceBase high word s.pe.base } } else s

/-- A write of a word to a register of the window; a write to IDENT or STATUS is discarded (R171, R172). Which word an offset
of the window names, registerAt says. -/
def writeRegister (reg : Reg) (word : Word32) (s : State) : State :=
  match reg with
  | .ident => s
  | .control => writeControl word s
  | .status => s
  | .attn => writeAttn word s
  | .attnEnable => writeEnable word s
  | .pageBaseLo => writeBase false word s
  | .pageBaseHi => writeBase true word s

end Sys2Proof.Machine
end

