-- ==== Sys2Proof/Machine/ControlCommands.lean ====
section
/-! DEFINITION. The meanings of the commands of the control block: writes to the register window, and RESET_N. -/

namespace Sys2Proof.Machine

/-- The outcome of a command: the state after it. No command of this block faults or is refused. -/
abbrev Result := Host.Outcome State Fault Refusal

/-- HARDWARE_RESET (R176): RESET_N goes low. -/
def execHardwareReset (m : Moment) (s : State) : Result :=
  .next (hardwareResetNow (arrive m s))

/-- SOFT_RESET (R173, R176): a CONTROL write with SOFT_RESET as 1. -/
def execSoftReset (m : Moment) (word : Word32) (s : State) : Result :=
  .next (event m (writeControl word) s)

/-- RUN_SET (R173, R174): a CONTROL write with RUN as 1. -/
def execRunSet (m : Moment) (word : Word32) (s : State) : Result :=
  .next (event m (writeControl word) s)

/-- RUN_CLEAR (R173, R175): a CONTROL write with RUN as 0. -/
def execRunClear (m : Moment) (word : Word32) (s : State) : Result :=
  .next (event m (writeControl word) s)

/-- FREEZE (R173): a CONTROL write with FREEZE as 1. -/
def execFreeze (m : Moment) (word : Word32) (s : State) : Result :=
  .next (event m (writeControl word) s)

/-- ATTN_CLEAR (R177): a write to ATTN. -/
def execAttnClear (m : Moment) (word : Word32) (s : State) : Result :=
  .next (event m (writeAttn word) s)

/-- PAGE_FAULT_CLEAR (R169): a write to ATTN with PAGE_FAULT as 0. -/
def execPageFaultClear (m : Moment) (word : Word32) (s : State) : Result :=
  .next (event m (writeAttn word) s)

/-- ATTN_ENABLE_WRITE (R178): a write to ATTN_ENABLE. -/
def execAttnEnableWrite (m : Moment) (word : Word32) (s : State) : Result :=
  .next (event m (writeEnable word) s)

/-- PAGE_BASE_WRITE (R172): a write to PAGE_BASE_HI (high) or PAGE_BASE_LO. -/
def execPageBaseWrite (m : Moment) (high : Bool) (word : Word32) (s : State) : Result :=
  .next (event m (writeBase high word) s)

/-- REGISTER_WRITE_DISCARDED (R172): a write to IDENT or STATUS, or of any word while RESET_N is low, which event discards. -/
def execRegisterWriteDiscarded (m : Moment) (reg : Reg) (word : Word32) (s : State) : Result :=
  .next (event m (writeRegister reg word) s)

/-- RESET_N_RISE (R176): RESET_N goes high. -/
def execResetNRise (m : Moment) (s : State) : Result :=
  .next (resetRises (arrive m s))

end Sys2Proof.Machine
end

