-- ==== Sys2Proof/Machine/BoundaryCommands.lean ====
section
/-! DEFINITION. The meanings of the commands that are pieces of the present boundary's work. -/

namespace Sys2Proof.Machine

/-- PAUSE_EVENT (R30): the pause test of writer w. -/
def execPauseEvent (m : Moment) (w : Writer) (s : State) : Result :=
  .next (piece m (pauseWork w) s)

/-- SILENT_LEAD (R92): a silence test has found the lead silent. -/
def execSilentLead (m : Moment) (s : State) : Result :=
  .next (piece m silentLeadNow s)

/-- HANDOFF_TIMEOUT (R88): the timeout test of the handoff. -/
def execHandoffTimeout (m : Moment) (s : State) : Result :=
  .next (piece m timeoutWork s)

/-- ONSET_AGED (R59): onsets past the matching window. -/
def execOnsetAged (m : Moment) (s : State) : Result :=
  .next (piece m onsetsWork s)

/-- LAST_ONSET_LAPSE (R59): last onsets too old. -/
def execLastOnsetLapse (m : Moment) (s : State) : Result :=
  .next (piece m lastOnsetsWork s)

/-- BUFFER_FREE_LAPSE (R103): buffer free frames reached. -/
def execBufferFreeLapse (m : Moment) (s : State) : Result :=
  .next (piece m buffersWork s)

/-- MIRROR_PAST (R147): mirror rows shown 4,096 frames before. -/
def execMirrorPast (m : Moment) (s : State) : Result :=
  .next (piece m mirrorWork s)

/-- AT_FRAME_DUE (R127): the AT_FRAME watch. -/
def execAtFrameDue (m : Moment) (s : State) : Result :=
  .next (piece m atFrameWork s)

/-- CUE_WAIT_EXPIRED (R129): due cues whose wait limit is reached. -/
def execCueWaitExpired (m : Moment) (s : State) : Result :=
  .next (piece m expiryWork s)

/-- SHOW (R142): the slot with the head entry's SHOW or SHOW_FRESH. -/
def execShowRow (m : Moment) (s : State) : Result :=
  .next (piece m showWork s)

/-- PENDING_CLEAR (R116, R142): the slot with the pending CLEAR. -/
def execPendingClear (m : Moment) (s : State) : Result :=
  .next (piece m clearWork s)

end Sys2Proof.Machine
end

