-- ==== Sys2Proof/Machine/LineCommands.lean ====
section
/-! DEFINITION. The meanings of the commands of the writer lines. -/

namespace Sys2Proof.Machine

/-- CHARACTER_ACCEPTED (R25): the third sample of a stop bit. -/
def execCharacterAccepted (m : Moment) (w : Writer) (edges : List Nat) (s : State) : Result :=
  .next (event m (characterNow w edges) s)

/-- BREAK_SEEN (R20): a break in SEEK_BREAK. -/
def execBreakSeen (m : Moment) (w : Writer) (space : Nat) (s : State) : Result :=
  .next (event m (breakSeenNow w space) s)

/-- RESYNC_BREAK (R24): a break in RESYNC. -/
def execResyncBreak (m : Moment) (w : Writer) (space : Nat) (s : State) : Result :=
  .next (event m (resyncBreakNow w space) s)

/-- SPAN_TOO_LONG (R21): the span runs past its limit. -/
def execSpanTooLong (m : Moment) (w : Writer) (s : State) : Result :=
  .next (event m (spanTooLongNow w) s)

/-- ALIGNMENT_CHARACTER (R22): the bits of the alignment character are judged. -/
def execAlignmentCharacter (m : Moment) (w : Writer) (edges : List Nat) (s : State) : Result :=
  .next (event m (alignmentNow w edges) s)

/-- RESYNC_END (R28): ten bit times of mark in RESYNC. -/
def execResyncEnd (m : Moment) (w : Writer) (mark : Nat) (s : State) : Result :=
  .next (event m (resyncEndNow w mark) s)

/-- ALIGNMENT_START_EDGE (R20): the start edge of the alignment character. -/
def execAlignmentStartEdge (m : Moment) (w : Writer) (s : State) : Result :=
  .next (event m (startEdgeNow w) s)

/-- SPAN_MEASURED (R21): the falling edge at d6. -/
def execSpanMeasured (m : Moment) (w : Writer) (rise : Nat) (s : State) : Result :=
  .next (event m (spanMeasuredNow w rise) s)

end Sys2Proof.Machine
end

