-- ==== Sys2Proof/Machine/PageCommands.lean ====
section
/-! DEFINITION. The meanings of the commands of the page engine. -/

namespace Sys2Proof.Machine

/-- HEADER_READ_COMPLETE (R156): step 1 of a scan or flush completes. -/
def execHeaderReadComplete (m : Moment) (header : List Byte) (s : State) : Result :=
  .next (event m (headerRead (parseHeader header)) s)

/-- SETTINGS_APPLICATION (R157): step 2 of a scan completes. -/
def execSettingsApplication (m : Moment) (block : List Byte) (s : State) : Result :=
  .next (event m (settingsRead block) s)

/-- SETTINGS_READ_COMPLETE (R160): the settings read of STARTING completes. -/
def execSettingsReadComplete (m : Moment) (header block : List Byte) (s : State) : Result :=
  .next (event m (startingRead (parseHeader header) block) s)

/-- CUE_TABLE_READ_COMPLETE (R161): step 3 of a scan completes. -/
def execCueTableReadComplete (m : Moment) (table : List Byte) (s : State) : Result :=
  .next (event m (cueTableRead table) s)

/-- SLOT_WRITE_COMPLETE (R162): the write of a cue slot completes. -/
def execSlotWriteComplete (m : Moment) (s : State) : Result :=
  .next (event m slotWritten s)

/-- STATUS_WRITE_COMPLETE (R164): the header and status writes complete. -/
def execStatusWriteComplete (m : Moment) (s : State) : Result :=
  .next (event m statusWritten s)

/-- JOURNAL_WRITE_COMPLETE (R166): the write of a journal record completes. -/
def execJournalWriteComplete (m : Moment) (s : State) : Result :=
  .next (event m journalWritten s)

/-- FETCH_COMPLETE (R133): a row fetch completes. -/
def execFetchComplete (m : Moment) (ctx : CtxNo) (entry : List Byte) (s : State) : Result :=
  .next (event m (completeFetch ctx entry) s)

/-- PAGE_FAULT (R168): the card link reports an access unsuccessful. -/
def execPageFault (m : Moment) (access : Access) (offset : Nat) (s : State) : Result :=
  .next (event m (accessFailed access offset) s)

/-- ACCESS_TIMEOUT (R153): an access has not completed within 10 ms. -/
def execAccessTimeout (m : Moment) (access : Access) (offset : Nat) (s : State) : Result :=
  .next (event m (accessLate access offset) s)

end Sys2Proof.Machine
end

