-- ==== Sys2Proof/Machine/TimeCommands.lean ====
section
/-! DEFINITION. The meanings of the commands of the timebase and event capture. -/

namespace Sys2Proof.Machine

/-- A tick step, where one is due (R54). -/
def tickStepEvent (s : State) : State := if tickDue s then tickStepNow s else s

/-- REFERENCE_PULSE (R5, R6, R9): a rising edge on REF_IN. -/
def execReferencePulse (m : Moment) (s : State) : Result :=
  .next (event m pulse s)

/-- LOSS_EXPIRY (R7): the loss interval runs out. -/
def execLossExpiry (m : Moment) (s : State) : Result :=
  .next (event m lossNow s)

/-- FREEWHEEL_EXPIRY (R8): the freewheel interval runs out. -/
def execFreewheelExpiry (m : Moment) (s : State) : Result :=
  .next (event m freewheelNow s)

/-- TICK_STEP (R54): a frame boundary, or the sub-frame tick rising. -/
def execTickStep (m : Moment) (s : State) : Result :=
  .next (event m tickStepEvent s)

end Sys2Proof.Machine
end

