-- ==== Sys2Proof/Machine/Dispatch.lean ====
section
/-! DEFINITION. The meaning of every command: one arm per constructor of Instr. -/

namespace Sys2Proof.Machine

def exec (i : Instr) (s : State) : Host.Outcome State Fault Refusal :=
  match i with
  | .hardwareReset m => Sys2Proof.Machine.execHardwareReset m s
  | .softReset m word => Sys2Proof.Machine.execSoftReset m word s
  | .runSet m word => Sys2Proof.Machine.execRunSet m word s
  | .runClear m word => Sys2Proof.Machine.execRunClear m word s
  | .freeze m word => Sys2Proof.Machine.execFreeze m word s
  | .attnClear m word => Sys2Proof.Machine.execAttnClear m word s
  | .pageFaultClear m word => Sys2Proof.Machine.execPageFaultClear m word s
  | .attnEnableWrite m word => Sys2Proof.Machine.execAttnEnableWrite m word s
  | .pageBaseWrite m high word => Sys2Proof.Machine.execPageBaseWrite m high word s
  | .registerWriteDiscarded m reg word => Sys2Proof.Machine.execRegisterWriteDiscarded m reg word s
  | .referencePulse m => Sys2Proof.Machine.execReferencePulse m s
  | .lossExpiry m => Sys2Proof.Machine.execLossExpiry m s
  | .freewheelExpiry m => Sys2Proof.Machine.execFreewheelExpiry m s
  | .tickStep m => Sys2Proof.Machine.execTickStep m s
  | .characterAccepted m w edges => Sys2Proof.Machine.execCharacterAccepted m w edges s
  | .breakSeen m w space => Sys2Proof.Machine.execBreakSeen m w space s
  | .resyncBreak m w space => Sys2Proof.Machine.execResyncBreak m w space s
  | .spanTooLong m w => Sys2Proof.Machine.execSpanTooLong m w s
  | .alignmentCharacter m w edges => Sys2Proof.Machine.execAlignmentCharacter m w edges s
  | .resyncEnd m w mark => Sys2Proof.Machine.execResyncEnd m w mark s
  | .pauseEvent m w => Sys2Proof.Machine.execPauseEvent m w s
  | .silentLead m => Sys2Proof.Machine.execSilentLead m s
  | .handoffTimeout m => Sys2Proof.Machine.execHandoffTimeout m s
  | .onsetAged m => Sys2Proof.Machine.execOnsetAged m s
  | .lastOnsetLapse m => Sys2Proof.Machine.execLastOnsetLapse m s
  | .bufferFreeLapse m => Sys2Proof.Machine.execBufferFreeLapse m s
  | .mirrorPast m => Sys2Proof.Machine.execMirrorPast m s
  | .atFrameDue m => Sys2Proof.Machine.execAtFrameDue m s
  | .cueWaitExpired m => Sys2Proof.Machine.execCueWaitExpired m s
  | .showRow m => Sys2Proof.Machine.execShowRow m s
  | .pendingClear m => Sys2Proof.Machine.execPendingClear m s
  | .headerReadComplete m header => Sys2Proof.Machine.execHeaderReadComplete m header s
  | .settingsApplication m block => Sys2Proof.Machine.execSettingsApplication m block s
  | .settingsReadComplete m header block => Sys2Proof.Machine.execSettingsReadComplete m header block s
  | .cueTableReadComplete m table => Sys2Proof.Machine.execCueTableReadComplete m table s
  | .slotWriteComplete m => Sys2Proof.Machine.execSlotWriteComplete m s
  | .statusWriteComplete m => Sys2Proof.Machine.execStatusWriteComplete m s
  | .journalWriteComplete m => Sys2Proof.Machine.execJournalWriteComplete m s
  | .fetchComplete m ctx entry => Sys2Proof.Machine.execFetchComplete m ctx entry s
  | .pageFault m access offset => Sys2Proof.Machine.execPageFault m access offset s
  | .accessTimeout m access offset => Sys2Proof.Machine.execAccessTimeout m access offset s
  | .resetNRise m => Sys2Proof.Machine.execResetNRise m s
  | .alignmentStartEdge m w => Sys2Proof.Machine.execAlignmentStartEdge m w s
  | .spanMeasured m w rise => Sys2Proof.Machine.execSpanMeasured m w rise s

end Sys2Proof.Machine
end

