-- ==== Sys2Proof/Safety.lean ====
section
/-! DEFINITION. What a safe state of the block is: the bounds and shapes that the spec gives its queues, lists, page base
and written memory, the quiet of the page engine under a fault, and the bonds of the lead arbiter's record. Beside it, in
the spec's own terms and not by the model's operations, what the statements speak of: the journal records made, what a
block's work leaves alone, what a boundary does, tests and marks, what a line receives, silence, latency candidates,
staging, a row closed, corrected, placed or fetched, a slot handed, a cue due, accepted or done, the writes of a pass, the
bytes of the page and its records, and the settings that a block is taken as. -/

namespace Sys2Proof.Machine

/-! ### Bounds and shapes -/

/-- The low 12 bits of the page base are 0 (R153). -/
def baseAligned (s : State) : Bool := (s.pe.base &&& 0xFFF) == 0

/-- The bounds of the journal buffer (R154), the live queue (R47), the air schedule (R100) and the onset lists (R53), with
the page base aligned (R153) and the written bytes of host memory in canonical form (notes/assumptions/3). -/
structure WithinBounds (s : State) : Prop where
  memory : memWf s.mem = true
  base : baseAligned s = true
  buffer : s.pe.buffer.length ≤ Config.journalRecords
  queue : s.queue.length ≤ Config.liveQueueRows
  entries : s.air.entries.length ≤ Config.scheduleEntries
  onsets : ∀ v, (get s.onsets v).length ≤ Config.onsetsPerLine

/-! ### The page engine under a fault -/

/-- While the fault state is set no page operation is in flight, and no fetch (R168). -/
def QuietUnderFault (s : State) : Prop :=
  s.pe.fault.isSome = true → s.pe.op = none ∧ ∀ k x, ctxOf s k = some x → x.fetch = .none

/-! ### The lead arbiter's record -/

/-- The bonds of LA's record (R82): the lead is none exactly when no writer is LEAD, and then the lead alone is LEAD; a
handoff is present exactly when one writer is TAKING, its taker; and with a handoff a lead exists. -/
structure LeadBonds (la : Arbiter) : Prop where
  lead : ∀ w, get la.roles w = .lead ↔ la.lead = some w
  taker : ∀ w, get la.roles w = .taking ↔ ∃ h, la.handoff = some h ∧ h.taker = w
  given : la.handoff.isSome = true → la.lead.isSome = true

/-- The record is bound (R82), no writer is its own relay partner (R83), outside RUNNING there is no lead and every port is
OFF (R16, R17, R82), and the settings read is in flight in STARTING alone (R160, R174). -/
structure LeadSound (s : State) : Prop where
  bonds : LeadBonds s.la
  partners : ∀ w, (writerOf s w).partner ≠ some w
  stopped : isRunning s = false → s.la.lead = none ∧ ∀ w, (portOf s w).mode = .off
  reading : ∀ since, s.pe.op = some (.settingsRead since) → s.control.runState = .starting

/-! ### Records -/

/-- The journal buffer of t is that of s with the record r, made at frame f, joined at its tail, and any records made after
it; where the buffer of s is full the record is lost and counted (R165). -/
def Journaled (s t : State) (f : Frame) (r : Record) : Prop :=
  (s.pe.buffer.length < Config.journalRecords →
    ∃ rest, t.pe.buffer = s.pe.buffer ++ { frame := f, record := r } :: rest) ∧
  (Config.journalRecords ≤ s.pe.buffer.length → t.pe.buffer = s.pe.buffer ∧ flagSet .journalLost t = true)

/-- The record r has been made on the way to t, or was lost with the buffer full (R165). -/
def Recorded (t : State) (r : Record) : Prop :=
  (∃ j ∈ t.pe.buffer, j.record = r) ∨ (32 ≤ t.pe.buffer.length ∧ flagSet .journalLost t = true)

/-! ### How a command finds the part -/

/-- A command comes at m with RESET_N high, and a is the state in which it finds the part: what was left of the boundary
before it has been taken, and time has passed to its moment. -/
def Finds (m : Moment) (s a : State) : Prop := s.resetLow = false ∧ arrive m s = a

/-- A piece of the present boundary's work comes at m with RESET_N high, and a is the state in which it finds the part. -/
def FindsPiece (m : Moment) (s a : State) : Prop := s.resetLow = false ∧ advance m s = a

/-! ### What the work of a block leaves as it was -/

/-- No record of s has left the journal buffer of t, and no flag that s has set is clear in t. -/
structure RecordsKept (s t : State) : Prop where
  buffer : ∃ rest, t.pe.buffer = s.pe.buffer ++ rest
  full : Config.journalRecords ≤ s.pe.buffer.length → t.pe.buffer = s.pe.buffer
  flags : ∀ f, flagSet f s = true → flagSet f t = true

/-- t has of s all that the work of a frame boundary never changes: all but TB, the capture lines and last onsets (of which
FrameBegins speaks), the ports' two counters, the handoff's count, the counters of the writers, the live queue, the
schedule, the display, the output, the work outstanding, and of PE the buffer, the lost, scan and skipped counts, the marks
and the operation in flight. The live level may take its pending value, and a halt may complete. -/
structure BoundaryFrame (s t : State) : Prop where
  builders : t.builders = s.builders
  nextRowId : t.nextRowId = s.nextRowId
  onsets : t.onsets = s.onsets
  est : t.est = s.est
  lead : t.la.lead = s.la.lead
  roles : t.la.roles = s.la.roles
  reported : t.la.silenceReported = s.la.silenceReported
  mem : t.mem = s.mem
  pending : t.pending = s.pending
  clock : t.clock = s.clock
  lines : t.lines = s.lines
  resetLow : t.resetLow = s.resetLow
  freeze : t.control.freeze = s.control.freeze
  enable : t.control.enable = s.control.enable
  settings : t.settings = { s.settings with liveLevel := t.settings.liveLevel }
  engine : t.pe = { s.pe with
    buffer := t.pe.buffer, lost := t.pe.lost, scans := t.pe.scans, skipped := t.pe.skipped, marks := t.pe.marks
    op := t.pe.op }
  records : RecordsKept s t

/-- t has of s all that a slot, the display, the cue player, the schedule and the live queue never change. -/
structure SlotFrame (s t : State) : Prop where
  tb : t.tb = s.tb
  ports : t.ports = s.ports
  builders : t.builders = s.builders
  capture : t.capture = s.capture
  onsets : t.onsets = s.onsets
  lastOnset : t.lastOnset = s.lastOnset
  est : t.est = s.est
  la : t.la = s.la
  mem : t.mem = s.mem
  pending : t.pending = s.pending
  clock : t.clock = s.clock
  lines : t.lines = s.lines
  resetLow : t.resetLow = s.resetLow
  work : t.work = s.work
  control : t.control = { s.control with attn := t.control.attn }
  settings : t.settings = { s.settings with liveLevel := t.settings.liveLevel }
  engine : t.pe = { s.pe with buffer := t.pe.buffer, lost := t.pe.lost, marks := t.pe.marks, op := t.pe.op }
  records : RecordsKept s t

/-- t has of s all that the display, the cue player, the schedule and the live queue never change: the output encoder's
record too. -/
structure DisplayFrame (s t : State) : Prop extends SlotFrame s t where
  out : t.out = s.out

/-! ### Staging (R143, R144) -/

/-- What staging works on: the schedule, the staging cursor and the completion frames. -/
structure Staging where
  entries : List Entry
  cursor : Option Word32
  completion : Vector (Option Frame) 4

/-- The schedule with the units sent of a row's entry raised. -/
def raised (id : Word32) (n : Nat) (l : List Entry) : List Entry :=
  l.map (fun e => if e.row.id = id then { e with sent := e.sent + n } else e)

/-- The entries of which a unit has been sent. -/
def begun (l : List Entry) : List Entry := l.filter (fun e => decide (0 < e.sent))

/-- The buffer of an entry that stands behind front in the schedule is free at the boundary of frame (R144). -/
structure BufferFree (frame : Frame) (mirror : List MirrorRow) (front : List Entry) (e : Entry) : Prop where
  ahead : ∀ x ∈ front, x.buffer ≠ e.buffer
  shown : ∀ older r newer, mirror = older ++ r :: newer → r.buffer = e.buffer → (∀ x ∈ newer, x.buffer ≠ e.buffer) →
    r.past = true ∨ before r.showAt frame = true

/-- Staging with a budget, from p to q with the units sent (R143): the row in staging goes on; with none in staging the first
WAITING entry begins, where its buffer is free and two units are left; and it stops where the budget is spent or neither can
be done. -/
inductive Stages (frame : Frame) (mirror : List MirrorRow) : Nat → Staging → List Byte → Staging → Prop
  | spent (p : Staging) : Stages frame mirror 0 p [] p
  | unnamed (budget : Nat) (p : Staging) (id : Word32) : p.cursor = some id → (∀ e ∈ p.entries, e.row.id ≠ id) →
      Stages frame mirror budget p [] p
  | noneWaits (budget : Nat) (p : Staging) : p.cursor = none → (∀ e ∈ p.entries, e.sent ≠ 0) →
      Stages frame mirror budget p [] p
  | heldBack (budget : Nat) (p : Staging) (front : List Entry) (e : Entry) (back : List Entry) : p.cursor = none →
      p.entries = front ++ e :: back → (∀ x ∈ front, x.sent ≠ 0) → e.sent = 0 →
      ¬BufferFree frame mirror front e ∨ budget < 2 → Stages frame mirror budget p [] p
  | goesOn (budget : Nat) (p q : Staging) (id : Word32) (front : List Entry) (e : Entry) (back : List Entry) (n : Nat)
      (units : List Byte) : p.cursor = some id → p.entries = front ++ e :: back → (∀ x ∈ front, x.row.id ≠ id) →
      e.row.id = id → n = min budget (e.row.text.length + 2 - e.sent) →
      Stages frame mirror (budget - n)
        (if e.row.text.length + 2 ≤ e.sent + n then
          { entries := raised id n p.entries, cursor := none, completion := put p.completion e.buffer (some frame) }
         else { p with entries := raised id n p.entries }) units q →
      Stages frame mirror budget p ((e.row.text.drop (e.sent - 2)).take n ++ units) q
  | begins (budget : Nat) (p q : Staging) (front : List Entry) (e : Entry) (back : List Entry) (units : List Byte) :
      p.cursor = none → p.entries = front ++ e :: back → (∀ x ∈ front, x.sent ≠ 0) → e.sent = 0 →
      BufferFree frame mirror front e → 2 ≤ budget →
      Stages frame mirror (budget - 2) { p with entries := raised e.row.id 2 p.entries, cursor := some e.row.id } units q →
      Stages frame mirror budget p (BitVec.ofNat 8 (0x1C + e.buffer.val) :: BitVec.ofNat 8 e.row.text.length :: units) q

/-- A slot with the command units, then staging from p to q at the boundary of frame, in a slot of the given size, has been
sent: its bytes, the unit count, the staging cursor and the completion frames (R140, R141, R143, R187). -/
def SlotSent (frame : Frame) (size : Nat) (command : List Byte) (p q : Staging) (out : Output) : Prop :=
  ∃ staging, Stages frame out.mirror (size - 1) p staging q ∧
    out.slot = 0xC5 :: BitVec.ofNat 8 (command.length + staging.length) :: (command ++ staging) ∧
    out.lastUnits = command.length + staging.length ∧ out.cursor = q.cursor ∧ out.completion = q.completion

/-- What staging finds in a state. -/
def stagingOf (s : State) : Staging :=
  { entries := s.air.entries, cursor := s.out.cursor, completion := s.out.completion }

/-! ### Placing a row (R102 to R109) -/

/-- The effective free frame of a buffer: its free frame where that is present and later than now, and else now (R103). -/
def freeFrame (s : State) (b : BufferNo) : Frame :=
  ((get s.air.bufFree b).filter (fun f => later f s.tb.frame)).getD s.tb.frame

/-- f is the hold floor (R106). -/
structure HoldFloor (s : State) (f : Option Frame) : Prop where
  behind : ∀ front e, s.air.entries = front ++ [e] → f = some (e.showAt + BitVec.ofNat 28 e.hold)
  shown : s.air.entries = [] → ∀ older r, s.out.mirror = older ++ [r] →
    (r.past = false → (s.tb.frame - r.showAt).toNat ≤ r.hold → f = some (r.showAt + BitVec.ofNat 28 r.hold)) ∧
    (r.past = true ∨ r.hold < (s.tb.frame - r.showAt).toNat → f = none)
  nothing : s.air.entries = [] → s.out.mirror = [] → f = none

/-- A place in the schedule: buffer, planned stage start, staged-by and show frame, and the lag. -/
structure Place where
  buffer : BufferNo
  start : Frame
  stagedBy : Frame
  showAt : Frame
  lag : Nat

/-- p is the place that AS gives a row of n characters with an ideal show frame (R103, R104, R106, R107). -/
structure PlacedAt (s : State) (n : Nat) (ideal : Frame) (p : Place) : Prop where
  earliest : ∀ b, later (freeFrame s p.buffer) (freeFrame s b) = false
  lowest : ∀ b, b < p.buffer → freeFrame s b ≠ freeFrame s p.buffer
  start : p.start = latestOf (s.air.horizon.toList ++ [s.tb.frame + 1, freeFrame s p.buffer])
  frames :
    let k := (n + 2 + (s.settings.slotUnits - 1) - 1) / (s.settings.slotUnits - 1)
    p.stagedBy = p.start + BitVec.ofNat 28 (k - 1) ∧ ∃ floor, HoldFloor s floor ∧
      p.showAt = latestOf ([ideal, p.start + BitVec.ofNat 28 k] ++ floor.toList ++ [s.tb.frame + 1])
  lag : p.lag = (p.showAt - ideal).toNat

/-- The row r has entered the schedule at its place, as the entry e (R97, R107, R109). -/
structure Entered (s t : State) (r : Row) (ideal : Frame) (p : Place) (e : Entry) : Prop where
  row : e.row = r ∧ e.ideal = ideal ∧ e.sent = 0
  place : e.buffer = p.buffer ∧ e.stageStart = p.start ∧ e.stagedBy = p.stagedBy ∧ e.showAt = p.showAt
  late : e.flags.late = decide (s.settings.lateAbove < p.lag)
  schedule : t.air =
    { entries := s.air.entries ++ [e]
      horizon := some (p.stagedBy + 1)
      bufFree := put s.air.bufFree p.buffer (some (p.showAt + 1))
      catchup := t.air.catchup
      clear := none
      lastLag := min p.lag 65535 }

/-- A row of that lag is not stale, and a row of that lag is (R108). -/
def InTime (s : State) (lag : Nat) : Prop := s.settings.dropAbove = 0 ∨ lag ≤ s.settings.dropAbove

@[inherit_doc InTime] def Stale (s : State) (lag : Nat) : Prop := s.settings.dropAbove ≠ 0 ∧ s.settings.dropAbove < lag

/-- The live row r has entered the schedule at its place as the entry e, timed with the estimate: its latency used, flags and
hold, with the live catch-up state already updated by it (R105, R107, R109, R110). -/
structure LiveEntered (s t : State) (r : Row) (ideal : Frame) (p : Place) (e : Entry) (estimate : Nat) : Prop extends
    Entered s t r ideal p e where
  latency : e.latency = some estimate
  unclamped : e.flags.clamped = false
  flagged : e.flags.catchup = t.air.catchup
  catchup :
    let above := s.settings.catchAbove
    (above = 0 → t.air.catchup = false) ∧
    (above ≠ 0 → s.air.catchup = false → t.air.catchup = decide (above < p.lag)) ∧
    (above ≠ 0 → s.air.catchup = true → t.air.catchup = decide (above / 2 < p.lag))
  hold :
    let base := if t.air.catchup then s.settings.holdBase / 2 else s.settings.holdBase
    let char := if t.air.catchup then s.settings.holdChar / 2 else s.settings.holdChar
    e.hold = max 1 (base + (r.text.length * char + 15) / 16)

/-- The ideal show frame of a live row with an arrival tick, timed with an estimate (R102). -/
def liveIdeal (s : State) (arrival : Stamp) (estimate : Nat) : Frame :=
  frameOf (arrival - BitVec.ofNat 32 estimate + BitVec.ofNat 32 (16 * s.settings.delay))

/-- The live row r of writer w has been offered to the schedule on the way from s to t: it has entered at its place, or was
dropped as stale, counted and journaled (R101 to R110). -/
def LiveOffered (s t : State) (r : Row) (w : Writer) (arrival : Stamp) (estimate : Nat) : Prop :=
  let ideal := liveIdeal s arrival estimate
  ∃ p, PlacedAt s r.text.length ideal p ∧
    (InTime s p.lag → ∃ e, LiveEntered s t r ideal p e estimate) ∧
    (Stale s p.lag → t.air = s.air ∧ (get t.counters w).rowsDropped = (get s.counters w).rowsDropped + 1 ∧
      Recorded t (.rowDropped r .stale (some ideal) (some p.showAt) p.lag))

/-! ### Due cues and acceptance -/

/-- The record of a cue that becomes DUE at frame now with start frame start (R127). -/
def dueCue (c : Cue) (now start : Frame) : Cue := { c with state := .due, dueFrame := some now, start := some start }

/-- The feed test of the cue c in context k, which is on top and stands as x: its next row is fetched exactly where R132
allows it, and a position whose fetch a fault abandoned waits for the scan after the fault (notes/assumptions/29). -/
structure FetchTested (s t : State) (k : CtxNo) (x : Context) (c : Cue) : Prop where
  asked : s.pe.fault = none → x.fetch = .none → x.next < c.rowCount → s.air.entries.length < 24 →
    later (c.start.getD 0 + BitVec.ofNat 28 (x.offsets.getLast?.getD 0 + s.settings.delay))
      (s.tb.frame + BitVec.ofNat 28 s.settings.feedWindow) = false → x.refetch ≠ some x.next →
    ctxOf t k = some { x with fetch := .inFlight, fetchEntry := c.firstRow + x.next, fetchSince := s.clock }
  held : s.pe.fault.isSome = true ∨ x.fetch ≠ .none ∨ c.rowCount ≤ x.next ∨ 24 ≤ s.air.entries.length ∨
      later (c.start.getD 0 + BitVec.ofNat 28 (x.offsets.getLast?.getD 0 + s.settings.delay))
        (s.tb.frame + BitVec.ofNat 28 s.settings.feedWindow) = true ∨ x.refetch = some x.next →
    ctxOf t k = some x
  others : ∀ j, j ≠ k → ctxOf t j = ctxOf s j

/-- The first due cue, c of slot n, has been accepted into context k (R130): it has left the due list, is on top and RUNNING,
in a fresh context, and its first row is fetched where R132 allows it. -/
structure Accepted (s t : State) (n : SlotNo) (rest : List SlotNo) (c : Cue) (k : CtxNo) : Prop where
  due : t.disp.due = rest
  stack : t.disp.stack = s.disp.stack ++ [.ctx k]
  running : cueOf t n = some { c with state := .running }
  record : Recorded t (.cueState n c.state .running c.reason c.shown c.dropped c.start)
  context : ∃ x, ctxOf t k = some x ∧ x.slot = n ∧ x.next = 0 ∧ x.offsets = [] ∧
    (isRunning s = true → s.pe.fault = none → 0 < c.rowCount → t.air.entries.length < 24 →
      later (c.start.getD 0 + BitVec.ofNat 28 s.settings.delay) (s.tb.frame + BitVec.ofNat 28 s.settings.feedWindow) = false →
      x.fetch = .inFlight ∧ x.fetchEntry = c.firstRow ∧ x.fetchSince = s.clock)

/-- An entry of the live stream of which no unit has been sent. -/
def waitsLive (e : Entry) : Bool := decide (e.sent = 0) && isLiveEntry e

/-- An entry of slot n's cue of which no unit has been sent. -/
def waitsOfCue (n : SlotNo) (e : Entry) : Bool := decide (e.sent = 0) && isCueEntry n e

/-- The due list, with the cue c of slot n first and the given rest behind it, has been tested (R128): with no free context, or
a level no higher than the owner's, nothing happens; else the cue is accepted over what is on top (R113, R114, R130). -/
structure DueTested (s t : State) (n : SlotNo) (rest : List SlotNo) (c : Cue) : Prop where
  stays : ((∀ k, (ctxOf s k).isSome = true) ∨ (topOwner s = some .live ∧ c.level ≤ s.settings.liveLevel) ∨
      ∃ k x below, topOwner s = some (.ctx k) ∧ ctxOf s k = some x ∧ cueOf s x.slot = some below ∧ c.level ≤ below.level) →
    t.disp.due = n :: rest ∧ t.disp.stack = s.disp.stack ∧ cueOf t n = some c ∧ t.air = s.air
  overNothing : ∀ k, ctxOf s k = none → (k = 1 → (ctxOf s 0).isSome = true) → s.disp.stack = [] → 0 < c.level →
    Accepted s t n rest c k ∧ t.air = s.air ∧ t.queue = s.queue
  overLive : ∀ k, ctxOf s k = none → (k = 1 → (ctxOf s 0).isSome = true) → topOwner s = some .live →
    s.settings.liveLevel < c.level →
    Accepted s t n rest c k ∧ t.air.entries = s.air.entries.filter (fun e => !waitsLive e) ∧
    t.queue = (((s.air.entries.filter waitsLive).map Entry.row) ++ s.queue).drop
      ((s.air.entries.filter waitsLive).length + s.queue.length - 8)
  overCue : ∀ k j x below, ctxOf s k = none → (k = 1 → (ctxOf s 0).isSome = true) → topOwner s = some (.ctx j) →
    ctxOf s j = some x → cueOf s x.slot = some below → below.state = .running → below.level < c.level →
    Accepted s t n rest c k ∧ t.air.entries = s.air.entries.filter (fun e => !waitsOfCue x.slot e) ∧ t.queue = s.queue ∧
    cueOf t x.slot = some { below with state := .suspended } ∧ get t.pe.marks x.slot = true ∧
    ∃ next, ctxOf t j = some { x with
        next := next, offsets := x.offsets.take next, fetch := if x.fetch = .none then .none else .void } ∧
      (s.air.entries.filter (waitsOfCue x.slot) = [] → next = x.next) ∧
      ∀ e more slot pos first offset hold fresh clamped, s.air.entries.filter (waitsOfCue x.slot) = e :: more →
        e.row.source = .cue slot pos first offset hold fresh clamped → next = pos

/-- t is s after the cue c of slot n has become DUE with start frame start, where no cue was due before: its record, and the
test of the due list (R127, R128). -/
structure BecomesDue (s t : State) (n : SlotNo) (c : Cue) (start : Frame) : Prop where
  marked : get t.pe.marks n = true
  record : Journaled s t s.tb.frame (.cueState n c.state .due c.reason c.shown c.dropped (some start))
  tested : DueTested s t n [] (dueCue c s.tb.frame start)
  records : ∀ k, ctxOf s k = none → s.disp.stack = [] → 0 < c.level → s.pe.buffer.length + 2 ≤ 32 →
    t.pe.buffer = s.pe.buffer ++
      [{ frame := s.tb.frame, record := .cueState n c.state .due c.reason c.shown c.dropped (some start) },
       { frame := s.tb.frame, record := .cueState n .due .running c.reason c.shown c.dropped (some start) }]

/-- The cue c of slot n in context k, which is complete where the schedule and the display stand as in s, has become DONE and
left the stack, with no cue due and no live entry waiting (R131, R135): what stands below takes up the display, the live queue
with a row in it or a suspended cue. -/
structure CueDone (s t : State) (k : CtxNo) (n : SlotNo) (c : Cue) : Prop where
  done : cueOf t n = some { c with state := .done }
  flag : flagSet .cue t = true
  record : Recorded t (.cueState n c.state .done c.reason c.shown c.dropped c.start)
  stack : t.disp.stack = s.disp.stack.erase (.ctx k)
  context : .ctx k ∉ t.disp.stack → ctxOf t k = none
  live : ∀ q, s.disp.stack = [.live, .ctx k] → s.queue = [q] → s.air.entries.length < 24 → s.settings.dropAbove = 0 →
    t.queue = [] ∧ ∃ e, t.air.entries = s.air.entries ++ [e] ∧ e.row = q
  below : ∀ front j y resumed, s.disp.stack = front ++ [.ctx j, .ctx k] → .ctx k ∉ front → j ≠ k → ctxOf s j = some y →
    y.slot ≠ n → cueOf s y.slot = some resumed → resumed.state = .suspended →
    t.air = s.air ∧ cueOf t y.slot = some { resumed with state := .running } ∧
    Recorded t (.cueState y.slot .suspended .running resumed.reason resumed.shown resumed.dropped resumed.start)

/-! ### Silence (R70, R91, R92) -/

/-- A voice map names voice line v (R70). -/
def MapsLine (m : VoiceMap) (v : Fin 2) : Prop :=
  match m with
  | .vox0 => v = 0
  | .vox1 => v = 1
  | .both => True

/-- The lead is silent (R91): the silence limit is not 0, the lead's silence counter has reached it, and speech is present on a
voice line that the lead's voice map names, by a last onset no more than 16 × S ticks old or by its level while active (R61).
-/
def Silent (s : State) : Prop :=
  ∃ w, s.la.lead = some w ∧ s.settings.silenceFrames ≠ 0 ∧ s.settings.silenceFrames ≤ (portOf s w).silence ∧
    ∃ (v : Fin 2) (i : LineNo), i.val = v.val ∧ MapsLine (writerOf s w).voice v ∧
      ((∃ o, get s.lastOnset v = some o ∧ 0 ≤ tickDiff (stampNow s) o ∧
          tickDiff (stampNow s) o ≤ 16 * (s.settings.silenceFrames : Int)) ∨
        ((get s.settings.lines i).edge ≠ .none ∧ (get s.capture i).filtered = true))

/-- A silence test has been made on the way from s to t, which found the lead as it is in t: SILENT_LEAD is left to be taken
where the lead is silent, or was left before (R91). -/
def SilenceTested (s t : State) : Prop := t.work.silence = true ↔ s.work.silence = true ∨ Silent t

/-- LA's record after a switch of the lead from outgoing to incoming (R89). -/
def switched (la : Arbiter) (outgoing incoming : Writer) : Arbiter :=
  { lead := some incoming
    roles := put (put la.roles incoming .lead) outgoing .standby
    handoff := none
    silenceReported := false }

/-- A silence test of the state v, and what it does, have been taken on the way to t (R91, R92): a lead that is not silent
stays; a silent one passes the lead to the taker or to the relay partner in RUN, where that writer has not been silent as
long, or else is reported once an episode. -/
structure SilenceJudged (v t : State) : Prop where
  heard : ¬Silent v → t.la = v.la
  toTaker : ∀ w h, Silent v → v.la.lead = some w → v.la.handoff = some h →
    (portOf v h.taker).silence < v.settings.silenceFrames →
    t.la = switched v.la w h.taker ∧ flagSet .lead t = true ∧
    Recorded t (.leadChange (some w) (some h.taker) .failover h.waited)
  toPartner : ∀ w p, Silent v → v.la.lead = some w → v.la.handoff = none → (writerOf v w).partner = some p →
    (portOf v p).mode = .run → (portOf v p).silence < v.settings.silenceFrames →
    t.la = switched v.la w p ∧ flagSet .lead t = true ∧ Recorded t (.leadChange (some w) (some p) .failover 0)
  reported : ∀ w, Silent v → v.la.lead = some w → v.la.handoff = none →
    (∀ p, (writerOf v w).partner = some p → (portOf v p).mode ≠ .run) →
    t.la = { v.la with silenceReported := true } ∧
    (v.la.silenceReported = false → flagSet .writer t = true ∧
      Recorded t (.writerState w (portOf v w).mode (portOf v w).mode .silent (portOf v w).divisor))

/-! ### Latency samples (R70 to R73) -/

/-- The onsets of stamp o make a candidate for writer w's resumption at the given stamp (R70, R71). -/
structure Candidate (a : State) (w : Writer) (stamp o : Stamp) : Prop where
  listed : ∃ v, MapsLine (writerOf a w).voice v ∧ ∃ x ∈ get a.onsets v, x.stamp = o ∧ get x.marks w = false
  above : 16 * (a.settings.lmin : Int) ≤ tickDiff stamp o
  below : tickDiff stamp o ≤ 16 * (max a.settings.lmin a.settings.lmax : Nat)

/-- The candidate of stamp o is the one chosen: the nearest to the estimate, and of two as near the later (R72). -/
structure Chosen (a : State) (w : Writer) (stamp : Stamp) (estimate : Nat) (o : Stamp) : Prop extends
    Candidate a w stamp o where
  nearest : ∀ p, Candidate a w stamp p →
    (tickDiff stamp o - estimate).natAbs < (tickDiff stamp p - estimate).natAbs ∨
    ((tickDiff stamp o - estimate).natAbs = (tickDiff stamp p - estimate).natAbs ∧ tickDiff stamp o ≤ tickDiff stamp p)

/-! ### What a frame boundary does -/

/-- The filter of a line restarted at its raw level (R57). -/
def restarted (level : Bool) (c : Capture) : Capture :=
  { c with filtered := level, steps := 0, candidates := 0, candStamp := none }

/-- The counters of a port after a boundary (R30, R31). -/
def portCounted (p : Port) : Port :=
  if p.mode = .off then p
  else { p with pauseCount := min 255 (p.pauseCount + 1), silence := min 4095 (p.silence + 1) }

/-- s with the timebase and the output line of t and with the given schedule entries: what the slot of a boundary from s to t
leaves to the tests that follow it. -/
def slotLeft (s t : State) (entries : List Entry) : State :=
  { s with tb := t.tb, out := t.out, air := { s.air with entries := entries } }

/-- No row moves at a feed attempt (R48): the live queue is empty, the live stream is not on top, or the schedule is full. -/
def NothingFeeds (s : State) : Prop := s.queue = [] ∨ topOwner s ≠ some .live ∨ 24 ≤ s.air.entries.length

/-- Some watched cue's start frame is reached (R127). -/
def WatchReached (s : State) : Prop :=
  ∃ n ∈ s.disp.watch, ∃ c, cueOf s n = some c ∧ later c.startFrame s.tb.frame = false

/-- t is u after the feed attempt, the due-list test and the feed test of a boundary in RUNNING (R48, R128, R132). Where a
watched cue's start frame is reached, the due-list test waits until the watched cues are DUE (R127, R128). -/
structure BoundaryTests (u t : State) : Prop where
  begun : begun t.air.entries = begun u.air.entries
  unfed : NothingFeeds u → u.disp.due = [] ∨ WatchReached u → t.air = u.air ∧ t.queue = u.queue
  fed : ∀ r w arrival reason mark estimate, ¬NothingFeeds u → u.queue = [r] → r.source = .live w arrival reason mark →
    (get u.est w).estimate = some estimate → u.disp.due = [] ∨ WatchReached u →
    t.queue = [] ∧ LiveOffered u t r w arrival estimate
  untested : u.disp.due = [] ∨ WatchReached u →
    t.disp = { u.disp with ctx := t.disp.ctx } ∧ ((∀ k, topOwner u ≠ some (.ctx k)) → t.disp = u.disp)
  tested : ∀ n rest c, NothingFeeds u → ¬WatchReached u → u.disp.due = n :: rest → cueOf u n = some c →
    DueTested u t n rest c
  fetches : u.disp.due = [] ∨ WatchReached u → ∀ k x c, topOwner u = some (.ctx k) → ctxOf u k = some x →
    cueOf u x.slot = some c → FetchTested u t k x c

/-- The work that the boundary to t leaves to its own commands is marked exactly where its condition holds: the pause test of
each writer (R30), the timeout of the handoff (R88), the silence test (R91), onsets and last onsets past their ages (R59),
buffer free frames reached (R103), mirror rows shown 4,096 frames before (R147), watched cues whose start frame is reached
(R127), and due cues whose wait limit is reached (R129). -/
structure WorkMarked (t : State) : Prop where
  pause : ∀ w, get t.work.pause w = true ↔ (portOf t w).mode ≠ .off ∧ (portOf t w).pauseArmed = true ∧
    t.settings.pauseFrames ≤ (portOf t w).pauseCount
  timeout : t.work.timeout = true ↔
    ∃ h, t.la.handoff = some h ∧ t.settings.handoffFrames ≠ 0 ∧ t.settings.handoffFrames ≤ h.waited
  silence : t.work.silence = true ↔ Silent t
  onsets : t.work.onsets = true ↔ isRunning t = true ∧ ∃ v, ∃ o ∈ get t.onsets v,
    16 * (max t.settings.lmin t.settings.lmax : Nat) + 16 < tickDiff (stampOf t.tb.frame 0) o.stamp
  lastOnsets : t.work.lastOnsets = true ↔
    ∃ v o, get t.lastOnset v = some o ∧ 65520 < tickDiff (stampOf t.tb.frame 0) o
  buffers : t.work.buffers = true ↔ ∃ b f, get t.air.bufFree b = some f ∧ later f t.tb.frame = false
  mirror : t.work.mirror = true ↔ ∃ r ∈ t.out.mirror, r.past = false ∧ (t.tb.frame - r.showAt).toNat = 4096
  atFrame : t.work.atFrame = true ↔ isRunning t = true ∧ WatchReached t
  expiry : t.work.expiry = true ↔ isRunning t = true ∧ ∃ n ∈ t.disp.due, ∃ c, cueOf t n = some c ∧ c.waitLimit ≠ 0 ∧
    atOrAfter t.tb.frame (c.dueFrame.getD 0 + BitVec.ofNat 28 c.waitLimit) = true

/-- t is s after a frame boundary whose origin is origin: the frame number, a pending load, the origin, the held tick (R3);
the restart of the filters and last onsets by a load (R58); the counters of the ports and of the handoff (R30, R31, R88); the
scan that begins or is skipped in RUNNING (R155); the slot (R141 to R143, R187): filler in HALTED, STARTING and, with nothing
owed, HALTING; in RUNNING START_CLEAR with staging, staging alone, or with a row to be shown or a clear to be made the slot
left to SHOW or PENDING_CLEAR, each with the tests that follow it (R48, R128, R132); the halting CLEAR, with which HALTED is
reached where no flush is in flight (R174, R175); and the work left to its own commands. -/
structure FrameBegins (s t : State) (origin : Nat) : Prop where
  frame : t.tb.frame = match s.tb.load with
    | some f => f
    | none => s.tb.frame + 1
  load : t.tb.load = none
  began : t.tb.origin = some origin
  heldTick : t.tb.heldTick = 0
  stepped : t.tb.stepped = none
  noLoad : s.tb.load = none → t.capture = s.capture ∧ t.lastOnset = s.lastOnset
  loadTaken : s.tb.load.isSome = true →
    (∀ i, get t.capture i = restarted (get s.lines i) (get s.capture i)) ∧ ∀ v, get t.lastOnset v = none
  ports : ∀ w, portOf t w = portCounted (portOf s w)
  handoff : t.la.handoff = s.la.handoff.map (fun h => { h with waited := min 4095 (h.waited + 1) })
  scan : isRunning s = true → s.pe.fault = none → scanActive s = false →
    t.pe.op = some (.pass false .header 0 0 s.clock) ∧ t.pe.scans = s.pe.scans + 1 ∧ t.pe.skipped = s.pe.skipped
  skip : isRunning s = true → s.pe.fault = none → scanActive s = true →
    scanActive t = true ∧ t.pe.scans = s.pe.scans ∧ t.pe.skipped = s.pe.skipped + 1
  noScan : isRunning s = false ∨ s.pe.fault.isSome = true → t.pe.scans = s.pe.scans ∧ t.pe.skipped = s.pe.skipped
  filler : s.control.runState = .halted ∨ s.control.runState = .starting →
    t.out.slot = [0xC5, 0x00] ∧ t.control.runState = s.control.runState
  startClear : s.control.runState = .running → s.out.owed = .startClear →
    (∃ n rest, t.out.slot = 0xC5 :: n :: 0x18 :: rest) ∧ t.out.owed = .none ∧ t.out.mirror = [] ∧
    t.work.slot = false ∧
    ∃ q, SlotSent t.tb.frame s.settings.slotUnits [0x18] (stagingOf s) q t.out ∧ BoundaryTests (slotLeft s t q.entries) t
  stages : s.control.runState = .running → s.out.owed = .none →
    (∀ e rest, s.air.entries = e :: rest → e.showAt ≠ t.tb.frame) →
    (∀ f, s.air.clear = some f → atOrAfter t.tb.frame f = false) →
    t.out.owed = .none ∧ t.out.mirror = s.out.mirror ∧ t.work.slot = false ∧
    ∃ q, SlotSent t.tb.frame s.settings.slotUnits [] (stagingOf s) q t.out ∧ BoundaryTests (slotLeft s t q.entries) t
  deferred : s.control.runState = .running → s.out.owed = .none →
    ((∃ e rest, s.air.entries = e :: rest ∧ e.showAt = t.tb.frame) ∨
      ∃ f, s.air.clear = some f ∧ atOrAfter t.tb.frame f = true) →
    t.work.slot = true ∧ t.out = s.out ∧ BoundaryTests (slotLeft s t s.air.entries) t
  haltFiller : s.control.runState = .halting → s.out.owed ≠ .haltClear → t.out.slot = [0xC5, 0x00]
  haltClear : s.control.runState = .halting → s.out.owed = .haltClear →
    t.out.slot = [0xC5, 0x01, 0x18] ∧ t.out.owed = .none ∧ t.out.mirror = [] ∧ ∀ b, get t.out.completion b = none
  flushing : s.control.runState = .halting → s.out.owed = .haltClear →
    (∃ step g c since, s.pe.op = some (.pass true step g c since)) →
    t.control.runState = .halting ∧ t.control.run = s.control.run ∧ t.pe.op = s.pe.op
  halted : s.control.runState = .halting → s.out.owed = .haltClear →
    (∀ step g c since, s.pe.op ≠ some (.pass true step g c since)) →
    (s.control.run = false → t.control.runState = .halted ∧ t.control.run = false ∧ t.pe.op = s.pe.op) ∧
    (s.control.run = true → s.pe.fault = none →
      t.control.runState = .starting ∧ t.control.run = true ∧ t.pe.op = some (.settingsRead s.clock)) ∧
    (s.control.run = true → s.pe.fault.isSome = true →
      t.control.runState = .halted ∧ t.control.run = false ∧ t.pe.op = s.pe.op)
  stopped : isRunning s = false →
    t.work.slot = false ∧ t.queue = s.queue ∧ t.disp = s.disp ∧ t.air = s.air ∧ t.counters = s.counters
  marked : WorkMarked t

/-! ### What a writer line receives -/

/-- The third sample of the stop bit of a character on line w comes in a, in RUN with a divisor: the character began no
earlier than the port looked for a start edge, and its start bit reads space (R14, R15). -/
structure Receives (a : State) (w : Writer) (edges : List Nat) (divisor : Nat) : Prop where
  mode : (portOf a w).mode = .run
  inUse : (portOf a w).divisor = some divisor
  sampled : (portOf a w).lookFrom + thirdSample divisor (stopPosition (writerOf a w).parity) ≤ a.clock
  start : bitValue edges divisor 0 = false

/-- The character passes the stop-bit and parity tests, and carries the byte ch (R14, R25). -/
structure ReceivesByte (a : State) (w : Writer) (edges : List Nat) (divisor : Nat) (ch : Byte) : Prop extends
    Receives a w edges divisor where
  stop : bitValue edges divisor (stopPosition (writerOf a w).parity) = true
  parity : parityAgrees (writerOf a w).parity (charByte edges divisor) (bitValue edges divisor 9) = true
  byte : charByte edges divisor = ch

/-- a after a text character or line code of line w has been delivered, before the row builder has it: the port's and the
writer's counts, the pause and silence state, the tick handed out, and the end of the lead's silence episode (R4, R25, R30,
R31, R92). -/
def delivered (w : Writer) (noisy : Bool) (a : State) : State :=
  { a with
    tb := { a.tb with heldTick := subTick a }
    ports := put a.ports w { portOf a w with
      lookFrom := a.clock, framing := 0, pauseCount := 0, pauseArmed := true, silence := 0 }
    counters := change a.counters w (fun c => { c with
      characters := c.characters + 1
      noise := if noisy then c.noise + 1 else c.noise })
    la := { a.la with silenceReported := if a.la.lead = some w then false else a.la.silenceReported } }

/-! ### Records and changes of lead -/

/-- u with the record r, made at its present frame, joined to the journal buffer, or lost and counted where the buffer is
full (R165), and with the flags raised. -/
def noted (r : Record) (flags : List AttnFlag) (u : State) : State :=
  let attn := flags.foldl (fun b f => b ||| f.mask) u.control.attn
  if u.pe.buffer.length < Config.journalRecords then
    { u with
      control := { u.control with attn := attn }
      pe := { u.pe with buffer := u.pe.buffer ++ [{ frame := u.tb.frame, record := r }] } }
  else
    { u with
      control := { u.control with attn := attn ||| AttnFlag.journalLost.mask }
      pe := { u.pe with lost := u.pe.lost + 1 } }

/-- LA's record without the handoff of which w is the taker (R90). -/
def withoutTaker (w : Writer) (la : Arbiter) : Arbiter :=
  match la.handoff with
  | some h => if h.taker = w then { la with roles := put la.roles w .standby, handoff := none } else la
  | none => la

/-- t is s after a switch of the lead from outgoing to incoming (R89): the roles, the end of the handoff and of the silence
episode, the outgoing writer's buffer closed, attention LEAD, and the record, which is the first one made where that buffer
was empty. The feed attempt acts on the live queue and the schedule, and the silence test of a change of lead has been made
(R91). -/
structure LeadSwitched (s t : State) (outgoing incoming : Writer) (reason : LeadReason) (waited : Nat) : Prop where
  la : t.la = switched s.la outgoing incoming
  closed : (builderOf t outgoing).chars = []
  others : ∀ w, w ≠ outgoing → builderOf t w = builderOf s w
  flag : flagSet .lead t = true
  record : (builderOf s outgoing).chars = [] →
    Journaled s t s.tb.frame (.leadChange (some outgoing) (some incoming) reason waited)
  tested : SilenceTested s t
  frame : DisplayFrame { s with
    la := t.la, builders := t.builders, work := { s.work with silence := t.work.silence } } t

/-! ### Closing a row -/

/-- r is the row that a close of writer w's buffer makes (R38): its characters without the spaces at its end, its arrival
tick, the reason, and the speaker mark where all three of its characters are left. -/
structure ClosedAs (r : Row) (w : Writer) (b : Builder) (reason : CloseReason) (id : Word32) : Prop where
  text : ∃ n, b.chars.map TextChar.ch = r.text ++ List.replicate n 0x20
  trimmed : r.text.getLast? ≠ some 0x20
  id : r.id = id
  source : r.source = .live w (b.arrival.getD 0) reason (b.markHeld && decide (3 ≤ r.text.length))

/-- t is u after the close of a buffer of writer w that held b, and which u has emptied already (R38, R47): the row of a
writer who is not LEAD is discarded and counted; the lead's, while the live stream is not on top, joins the live queue with
the held or the next row id, and the head of a full queue is dropped, counted and journaled. -/
structure RowClosed (w : Writer) (b : Builder) (reason : CloseReason) (u t : State) : Prop where
  discarded : roleOf u w ≠ .lead →
    t = { u with counters := change u.counters w (fun c => { c with
      rowsClosed := c.rowsClosed + 1, rowsDropped := c.rowsDropped + 1 }) }
  waits : roleOf u w = .lead → topOwner u ≠ some .live → u.queue.length < 8 →
    ∃ r, ClosedAs r w b reason (b.heldId.getD u.nextRowId) ∧
      t = { u with
        counters := change u.counters w (fun c => { c with rowsClosed := c.rowsClosed + 1 })
        queue := u.queue ++ [r]
        nextRowId := if b.heldId.isSome then u.nextRowId else u.nextRowId + 1 }
  overflows : roleOf u w = .lead → topOwner u ≠ some .live → ∀ head rest v arrival cause mark,
    u.queue = head :: rest → u.queue.length = 8 → head.source = .live v arrival cause mark →
    ∃ r, ClosedAs r w b reason (b.heldId.getD u.nextRowId) ∧
      t = noted (.rowDropped head .overflow none none 0) []
        { u with
          counters := change (change u.counters w (fun c => { c with rowsClosed := c.rowsClosed + 1 })) v
            (fun c => { c with rowsDropped := c.rowsDropped + 1 })
          queue := rest ++ [r]
          nextRowId := if b.heldId.isSome then u.nextRowId else u.nextRowId + 1 }

/-- A row that writer w closes enters the schedule, or is dropped as stale, at once: w is LEAD, the part is RUNNING with the
live stream on top, no row waits before it, and the schedule has room (R38, R47, R48, R100). -/
structure LiveTakes (s : State) (w : Writer) : Prop where
  lead : roleOf s w = .lead
  running : isRunning s = true
  live : topOwner s = some .live
  nothingWaits : s.queue = []
  room : s.air.entries.length < Config.scheduleEntries

/-- t is u after the close of a buffer of writer w that held b, and which u has emptied already, where the schedule takes the
row at once (R38, R48, R101): timed with the estimate the row has entered at its place, or it is dropped as stale, counted and
journaled, and the schedule is as it was (R102 to R110). -/
def RowEnters (w : Writer) (b : Builder) (reason : CloseReason) (estimate : Nat) (u t : State) : Prop :=
  let ideal := liveIdeal u (b.arrival.getD 0) estimate
  let closed := { u with
    counters := change u.counters w (fun c => { c with rowsClosed := c.rowsClosed + 1 })
    nextRowId := if b.heldId.isSome then u.nextRowId else u.nextRowId + 1 }
  ∃ r p, ClosedAs r w b reason (b.heldId.getD u.nextRowId) ∧ PlacedAt u r.text.length ideal p ∧
    (Stale u p.lag → t = noted (.rowDropped r .stale (some ideal) (some p.showAt) p.lag) [] { closed with
      counters := change closed.counters w (fun c => { c with rowsDropped := c.rowsDropped + 1 }) }) ∧
    (InTime u p.lag → ∃ e, t = { closed with air := t.air } ∧ LiveEntered u t r ideal p e estimate)

/-- A correction of a text leaves the given one: RUB takes its last character, and RUBWORD the spaces at its end and then the
characters back to the nearest space that is left, or all of them (R41, R42). -/
structure CorrectionLeaves (word : Bool) (text left : List Byte) : Prop where
  rub : word = false → ∃ last, text = left ++ [last]
  rubWord : word = true → ∃ cut spaces, text = left ++ cut ++ spaces ∧ (∀ c ∈ spaces, c = 0x20) ∧ (∀ c ∈ cut, c ≠ 0x20) ∧
    (∀ c, left.getLast? = some c → c = 0x20) ∧ (cut = [] → left = [])

/-! ### Slots handed to the cue player (R125, R126, R161, R184) -/

/-- x has the fields of a slot, with the values that a cue has when it is taken (R125, R184). A start frame above the largest
is taken as that, which is the model's reading (notes/assumptions/15). -/
structure CueTaken (slot : List Byte) (x : Cue) : Prop where
  level : x.level = byteAt slot 0x02
  kind : x.kind = match byteAt slot 0x03 with
    | 0 => .immediate
    | 1 => .atFrame
    | 2 => .onTrigger
    | _ => .invalid
  startFrame : x.startFrame = BitVec.ofNat 28 (min 268435455 (le32 slot 0x04))
  line : x.line = byteAt slot 0x08
  clearOnStart : x.clearOnStart = decide (byteAt slot 0x09 ≠ 0)
  firstRow : x.firstRow = le16 slot 0x0A
  rowCount : x.rowCount = byteAt slot 0x0C
  waitLimit : x.waitLimit = min 4095 (le16 slot 0x0E)
  counts : x.shown = 0 ∧ x.dropped = 0

/-- Slot n is handed as posted and leaves the given state: it is not held and reads POSTED; or in the run-start scan it is not
held and reads ARMED, or its cue is held as ARMED (R126, R161). -/
def HandedAsPosted (s : State) (table : List Byte) (n : SlotNo) (left : CueState) : Prop :=
  let reads := byteAt (slotBytes table n) 0x00
  (left = .posted ∧ cueOf s n = none ∧ reads = 1) ∨
  (left = .armed ∧ s.pe.runStart = true ∧ ((cueOf s n = none ∧ reads = 2) ∨ ∃ c, cueOf s n = some c ∧ c.state = .armed))

/-- Slot n calls for nothing in a scan that takes the cue table: its withdraw flag is clear, and it is not posted; and in the
run-start scan it is not held as ARMED, and where it is not held it reads FREE or a terminal state (R126, R161). -/
structure CallsForNothing (s : State) (table : List Byte) (n : SlotNo) : Prop where
  flag : byteAt (slotBytes table n) 0x01 = 0
  unposted : byteAt (slotBytes table n) 0x00 ≠ 1
  unarmed : s.pe.runStart = true → ∀ c, cueOf s n = some c → c.state ≠ .armed
  settled : s.pe.runStart = true → cueOf s n = none →
    byteAt (slotBytes table n) 0x00 = 0 ∨ 6 ≤ byteAt (slotBytes table n) 0x00

/-! ### Fetched rows (R134, R183, R185) -/

/-- r is the row with an id that a row-area entry gives at the next position of context x of cue c, for rows of W characters
(R134): its text of at most W bytes, those below 0x20 as spaces; the offset, no lower than the floor; the hold override, at
most 4,095; the fresh mark; and whether any of these was clamped. -/
structure RowTaken (entry : List Byte) (width : Nat) (x : Context) (c : Cue) (id : Word32) (r : Row) : Prop where
  id : r.id = id
  length : r.text.length = min (byteAt entry 0x00) width
  text : ∀ i, i < min (byteAt entry 0x00) width →
    (byteAt entry (0x10 + i) < 0x20 → r.text[i]? = some 0x20) ∧
    (0x20 ≤ byteAt entry (0x10 + i) → (r.text[i]?).map BitVec.toNat = some (byteAt entry (0x10 + i)))
  source :
    let floor := x.offsets.getLast?.getD 0
    ∃ hold clamped, r.source = .cue x.slot x.next (c.start.getD 0) (max floor (le16 entry 0x02)) hold
        (c.clearOnStart && decide (x.next = 0)) clamped ∧
      (byteAt entry 0x01 = 0 → hold = none) ∧ (byteAt entry 0x01 ≠ 0 → hold = some (min 4095 (le16 entry 0x04))) ∧
      (clamped = true ↔ le16 entry 0x02 < floor ∨ width < byteAt entry 0x00 ∨
        (∃ i, i < min (byteAt entry 0x00) width ∧ byteAt entry (0x10 + i) < 0x20) ∨
        (byteAt entry 0x01 ≠ 0 ∧ 4095 < le16 entry 0x04))

/-! ### Codes of the page -/

/-- A flag byte, a writer number or none, a frame or none, and the head of a slot list, as the page carries them (R179). -/
def flagCode (b : Bool) : Nat := if b then 1 else 0

@[inherit_doc flagCode] def writerCode (w : Option Writer) : Nat := (w.map Fin.val).getD 0xFF

@[inherit_doc flagCode] def frameCode (f : Option Frame) : Nat := (f.map BitVec.toNat).getD 0xFFFFFFFF

@[inherit_doc flagCode] def headCode (l : List SlotNo) : Nat := (l.head?.map Fin.val).getD 0xFF

/-- The codes of R171, R182, R183, R184 and R186. -/
structure PageCodes : Prop where
  runStates : [RunState.halted, .starting, .running, .halting].map RunState.code = [0, 1, 2, 3]
  timebase : [TbMode.unlocked, .locked, .freewheel].map TbMode.code = [0, 1, 2]
  ports : [PortMode.off, .acquire, .run, .resync].map PortMode.code = [0, 1, 2, 3]
  roles : [Role.standby, .taking, .lead].map Role.code = [0, 1, 2]
  places : [LivePlace.absent, .waiting, .inStack].map LivePlace.code = [0, 1, 2]
  fetches : [FetchState.none, .inFlight, .void].map FetchState.code = [0, 1, 2]
  owed : [Owed.none, .startClear, .haltClear].map Owed.code = [0, 1, 2]
  cueStates : [CueState.free, .posted, .armed, .due, .running, .suspended, .done, .aborted, .refused, .expired].map
    CueState.code = [0, 1, 2, 3, 4, 5, 6, 7, 8, 9]
  cueReasons : [CueReason.none, .level, .rows, .line, .kind, .withdrawn, .halt, .reset, .wait].map CueReason.code =
    [0, 1, 2, 3, 4, 5, 6, 7, 8]
  refusals : [RefuseReason.otherWriter, .onAirPath, .notLive, .none].map RefuseReason.code = [1, 2, 3, 4]
  leads : [LeadReason.start, .take, .give, .timeout, .failover, .forced, .disabled].map LeadReason.code =
    [0, 1, 2, 3, 4, 5, 6]
  portCauses : [PortCause.enable, .disable, .settings, .framing, .framingLimit, .resyncEnd, .brk, .aligned, .silent].map
    PortCause.code = [0, 1, 2, 3, 4, 5, 6, 7, 8]
  references : [RefCause.firstPulse, .loss, .snap, .realign, .runStart, .rateChange].map RefCause.code = [0, 1, 2, 3, 4, 5]
  drops : [DropReason.stale, .overflow, .withdrawn, .skipped].map DropReason.code = [0, 1, 2, 3]
  closes : [CloseReason.rowCode, .wrap, .pause, .speaker, .handoff].map CloseReason.code = [0, 1, 2, 3, 4]

/-- The bytes of b from one offset up to another are 0. -/
def ZeroBytes (b : List Byte) (first last : Nat) : Prop := ∀ i, first ≤ i → i < last → b[i]? = some 0

/-! ### The header and the status block (R180, R182) -/

/-- b is what the part writes into the header from its offset 0x10 on (R180). -/
structure HeaderLaid (s : State) (b : List Byte) : Prop where
  length : b.length = 28
  frame : le32 b 0x00 = s.tb.frame.toNat
  scans : le32 b 0x04 = s.pe.scans.toNat
  written : le32 b 0x08 = s.pe.writeCount.toNat
  lost : le32 b 0x0C = s.pe.lost.toNat
  skipped : le32 b 0x10 = s.pe.skipped.toNat
  generation : le32 b 0x14 = s.pe.lastGeneration.toNat
  cueChange : le32 b 0x18 = s.pe.lastCueChange.toNat

/-- The twelve bytes of a fault context, or of none, from an offset on (R182). -/
structure ContextLaid (c : Option FaultContext) (b : List Byte) (off : Nat) : Prop where
  absent : c = none → ZeroBytes b off (off + 12)
  given : ∀ x, c = some x → byteAt b off = 1 ∧ byteAt b (off + 1) = flagCode x.write ∧
    le32 b (off + 4) = x.offset % 2 ^ 32 ∧ le32 b (off + 8) = x.frame.toNat ∧
    (∀ n, x.op = .scan n → byteAt b (off + 2) = 0 ∧ byteAt b (off + 3) = n % 256) ∧
    (x.op = .settingsRead → byteAt b (off + 2) = 1) ∧ (x.op = .flush → byteAt b (off + 2) = 2) ∧
    (x.op = .fetch → byteAt b (off + 2) = 3)

/-- The 72 bytes of writer w, from an offset on (R33, R182). -/
structure WriterLaid (s : State) (w : Writer) (b : List Byte) (off : Nat) : Prop where
  port : byteAt b off = (portOf s w).mode.code
  role : byteAt b (off + 1) = (roleOf s w).code
  partner : byteAt b (off + 2) = writerCode (writerOf s w).partner
  set : byteAt b (off + 3) = flagCode (get s.est w).estimate.isSome
  divisor : le16 b (off + 4) = (portOf s w).divisor.getD 0 % 65536
  count : byteAt b (off + 6) = (builderOf s w).chars.length % 256
  pending : byteAt b (off + 7) = flagCode (builderOf s w).markPending
  estimate : le32 b (off + 8) = (get s.est w).estimate.getD 0 % 2 ^ 32
  rejects : byteAt b (off + 12) = (get s.est w).rejects % 256
  counters :
    let c := get s.counters w
    [16, 20, 24, 28, 32, 36, 40, 44, 48, 52, 56, 60, 64].map (fun i => le32 b (off + i)) =
      [c.characters, c.noise, c.parityErrors, c.framingErrors, c.alignmentErrors, c.ignoredCodes, c.rowsClosed, c.refused,
       c.rowsShown, c.rowsDropped, c.accepted, c.rejected, c.unmatched].map BitVec.toNat
  unused : ZeroBytes b (off + 13) (off + 16) ∧ ZeroBytes b (off + 68) (off + 72)

/-- The 8 bytes of capture line i, from an offset on (R61, R66, R182). -/
structure LineLaid (s : State) (i : LineNo) (b : List Byte) (off : Nat) : Prop where
  level : byteAt b off = flagCode (get s.capture i).filtered
  captures : le32 b (off + 4) = (get s.capture i).captures.toNat
  voice : ∀ v, voiceIndex i = some v →
    byteAt b (off + 1) = flagCode ((get s.settings.lines i).edge != .none && (get s.capture i).filtered) ∧
    byteAt b (off + 2) = (get s.onsets v).length % 256 ∧ byteAt b (off + 3) = 0
  trigger : ∀ j, voiceIndex i = none → cueIndex i = some j → byteAt b (off + 1) = 0 ∧
    byteAt b (off + 2) = (get s.disp.waits j).length % 256 ∧ byteAt b (off + 3) = headCode (get s.disp.waits j)

/-- The 40 bytes of the schedule (R98, R182). -/
structure ScheduleLaid (a : AirSchedule) (b : List Byte) (off : Nat) : Prop where
  count : byteAt b off = a.entries.length % 256
  waiting : byteAt b (off + 1) = (a.entries.filter (fun e => decide (e.sent = 0))).length % 256
  staging : byteAt b (off + 2) =
    (a.entries.filter (fun e => decide (0 < e.sent) && decide (e.sent < e.row.text.length + 2))).length % 256
  staged : byteAt b (off + 3) = (a.entries.filter (fun e => decide (e.row.text.length + 2 ≤ e.sent))).length % 256
  catchup : byteAt b (off + 4) = flagCode a.catchup ∧ byteAt b (off + 5) = 0
  lag : le16 b (off + 6) = a.lastLag % 65536
  head : le32 b (off + 8) = (a.entries.head?.map (fun (e : Entry) => e.row.id.toNat)).getD 0
  shows : le32 b (off + 12) = frameCode (a.entries.head?.map Entry.showAt)
  horizon : le32 b (off + 16) = frameCode a.horizon
  free : ∀ i : BufferNo, le32 b (off + 20 + 4 * i.val) = frameCode (get a.bufFree i)
  clear : le32 b (off + 36) = frameCode a.clear

/-- The 28 bytes of the owner stack and the cue contexts (R121, R182). -/
structure DisplayLaid (s : State) (b : List Byte) (off : Nat) : Prop where
  depth : byteAt b off = s.disp.stack.length % 256
  level : (s.disp.stack = [] → byteAt b (off + 1) = 0) ∧
    (topOwner s = some .live → byteAt b (off + 1) = s.settings.liveLevel % 256) ∧
    ∀ k x c, topOwner s = some (.ctx k) → ctxOf s k = some x → cueOf s x.slot = some c → byteAt b (off + 1) = c.level % 256
  place : byteAt b (off + 2) = s.disp.place.code
  live : byteAt b (off + 3) = s.settings.liveLevel % 256
  pending : byteAt b (off + 4) = s.disp.pendingLevel.getD 0 % 256
  due : byteAt b (off + 5) = s.disp.due.length % 256 ∧ byteAt b (off + 6) = headCode s.disp.due
  watch : byteAt b (off + 7) = s.disp.watch.length % 256
  entries : ∀ i, i < 3 →
    (s.disp.stack[i]? = none → ZeroBytes b (off + 8 + 4 * i) (off + 12 + 4 * i)) ∧
    (s.disp.stack[i]? = some .live → byteAt b (off + 8 + 4 * i) = 0 ∧ byteAt b (off + 9 + 4 * i) = 0 ∧
      byteAt b (off + 10 + 4 * i) = s.settings.liveLevel % 256 ∧ byteAt b (off + 11 + 4 * i) = 0) ∧
    ∀ k x c, s.disp.stack[i]? = some (.ctx k) → ctxOf s k = some x → cueOf s x.slot = some c →
      byteAt b (off + 8 + 4 * i) = 1 + k.val ∧ byteAt b (off + 9 + 4 * i) = x.slot.val ∧
      byteAt b (off + 10 + 4 * i) = c.level % 256 ∧ byteAt b (off + 11 + 4 * i) = 0
  contexts : ∀ k : CtxNo,
    (ctxOf s k = none → ZeroBytes b (off + 20 + 4 * k.val) (off + 24 + 4 * k.val)) ∧
    ∀ x, ctxOf s k = some x → byteAt b (off + 20 + 4 * k.val) = 1 ∧ byteAt b (off + 21 + 4 * k.val) = x.slot.val ∧
      byteAt b (off + 22 + 4 * k.val) = x.next % 256 ∧ byteAt b (off + 23 + 4 * k.val) = x.fetch.code

/-- The 76 bytes of the output encoder (R182). -/
structure OutputLaid (s : State) (b : List Byte) (off : Nat) : Prop where
  owed : byteAt b off = s.out.owed.code
  units : byteAt b (off + 1) = s.out.lastUnits % 256
  rows : byteAt b (off + 2) = s.out.mirror.length % 256
  cursor : byteAt b (off + 3) = flagCode s.out.cursor.isSome ∧ le32 b (off + 8) = (s.out.cursor.map BitVec.toNat).getD 0
  sent : (s.out.cursor = none → byteAt b (off + 4) = 0) ∧
    ∀ id front e back, s.out.cursor = some id → s.air.entries = front ++ e :: back → e.row.id = id →
      (∀ x ∈ front, x.row.id ≠ id) → byteAt b (off + 4) = e.sent % 256
  unused : ZeroBytes b (off + 5) (off + 8)
  completion : ∀ i : BufferNo, le32 b (off + 12 + 4 * i.val) = frameCode (get s.out.completion i)
  mirror : ∀ i, i < 4 →
    (s.out.mirror[i]? = none → ZeroBytes b (off + 28 + 12 * i) (off + 40 + 12 * i)) ∧
    ∀ r, s.out.mirror[i]? = some r → le32 b (off + 28 + 12 * i) = r.row.id.toNat ∧
      le32 b (off + 32 + 12 * i) = r.showAt.toNat ∧ le16 b (off + 36 + 12 * i) = r.hold % 65536 ∧
      byteAt b (off + 38 + 12 * i) = r.buffer.val ∧ byteAt b (off + 39 + 12 * i) = 0

/-- b is the status block (R182). -/
structure StatusLaid (s : State) (b : List Byte) : Prop where
  length : b.length = 1024
  states : byteAt b 0x000 = s.control.runState.code ∧ byteAt b 0x001 = s.tb.mode.code ∧
    byteAt b 0x002 = flagCode s.control.freeze ∧ byteAt b 0x003 = s.pe.buffer.length % 256
  counts : le32 b 0x004 = s.pe.clampCount.toNat ∧ le32 b 0x008 = s.pe.ignoreCount.toNat ∧
    le32 b 0x00C = s.pe.readMark.toNat ∧ le32 b 0x010 = s.tb.glitches.toNat
  fault : ContextLaid s.pe.lastFault b 0x014
  writers : ∀ w : Writer, WriterLaid s w b (0x020 + 72 * w.val)
  lead : byteAt b 0x140 = writerCode s.la.lead ∧ byteAt b 0x141 = flagCode s.la.handoff.isSome ∧
    byteAt b 0x142 = writerCode (s.la.handoff.map Handoff.taker) ∧ byteAt b 0x143 = flagCode s.la.silenceReported ∧
    le16 b 0x144 = (s.la.handoff.map Handoff.waited).getD 0 % 65536 ∧ le16 b 0x146 = 0
  queue : byteAt b 0x148 = s.queue.length % 256 ∧ ZeroBytes b 0x149 0x14C ∧
    le32 b 0x14C = (s.queue.head?.map (fun (r : Row) => r.id.toNat)).getD 0
  lines : ∀ i : LineNo, LineLaid s i b (0x150 + 8 * i.val)
  onsets : ∀ v : Fin 2, le32 b (0x180 + 4 * v.val) = ((get s.lastOnset v).map BitVec.toNat).getD 0
  schedule : ScheduleLaid s.air b 0x188
  display : DisplayLaid s b 0x1B0
  output : OutputLaid s b 0x1D0
  unused : ZeroBytes b 0x1CC 0x1D0 ∧ ZeroBytes b 0x21C 0x400

/-! ### Cue slots (R184) -/

/-- b is what the part writes into a cue slot from its offset 0x10 on (R184). -/
structure SlotLaid (c : Cue) (b : List Byte) : Prop where
  length : b.length = 16
  reason : byteAt b 0x0 = c.reason.code
  rows : byteAt b 0x1 = c.shown % 256 ∧ byteAt b 0x2 = c.dropped % 256
  due : le32 b 0x4 = frameCode c.dueFrame
  start : le32 b 0x8 = frameCode c.start
  unused : ZeroBytes b 0x3 0x4 ∧ ZeroBytes b 0xC 0x10

/-! ### The writes of a pass (R155, R162, R164) -/

/-- Step 4 writes a slot: its mark is set, its cue is held, and no entry of a terminal cue is left in the schedule (R162). -/
structure SlotReady (s : State) (n : SlotNo) (c : Cue) : Prop where
  marked : get s.pe.marks n = true
  held : cueOf s n = some c
  shown : c.state = .done ∨ c.state = .aborted ∨ c.state = .refused ∨ c.state = .expired →
    ∀ e ∈ s.air.entries, isCueEntry n e = false

/-- The write that follows in a scan or flush whose steps 1 to 3 are taken, with the slots below a number done, has been issued
with the values of s (R155, R162, R164): that of the first slot to be written, else that of the header and the status block. -/
structure WriteIssued (first : Nat) (flush : Bool) (g c : Word32) (s : State) : Prop where
  slot : ∀ n cue, first ≤ n.val → SlotReady s n cue → (∀ j x, first ≤ j.val → j < n → ¬SlotReady s j x) →
    ∃ terminal, s.pe.op = some (.pass flush (.slot n (slotWrite n cue) terminal false) g c s.clock) ∧
      (terminal = true ↔ cue.state = .done ∨ cue.state = .aborted ∨ cue.state = .refused ∨ cue.state = .expired)
  status : (∀ n cue, first ≤ n.val → ¬SlotReady s n cue) →
    s.pe.op = some (.pass flush (.status [(0x10, headerBytes s), (0x200, statusBytes s)]) g c s.clock)

/-! ### Journal records (R183, R186) -/

/-- The row block of a ROW_SHOWN record (R148, R183, R186). -/
structure ShownLaid (e : Entry) (fresh : Bool) (staged : Option Frame) (b : List Byte) : Prop where
  id : le32 b 0x10 = e.row.id.toNat
  flags : byteAt b 0x17 % 8 = flagCode e.flags.late + 2 * flagCode e.flags.catchup + 4 * flagCode e.flags.clamped
  frames : le32 b 0x18 = e.ideal.toNat ∧ le32 b 0x1C = e.showAt.toNat ∧ le32 b 0x30 = frameCode staged
  lag : le16 b 0x20 = min 65535 ((e.showAt - e.ideal).toNat)
  hold : le16 b 0x22 = e.hold % 65536
  place : byteAt b 0x24 = e.buffer.val ∧ byteAt b 0x25 = flagCode fresh ∧ byteAt b 0x27 = 0
  live : ∀ w arrival reason mark, e.row.source = .live w arrival reason mark →
    byteAt b 0x14 = 0 ∧ byteAt b 0x15 = w.val ∧ byteAt b 0x16 = 0 ∧ byteAt b 0x17 < 8 ∧ byteAt b 0x26 = reason.code ∧
    le32 b 0x28 = arrival.toNat ∧ le32 b 0x2C = e.latency.getD 0 % 2 ^ 32 ∧ ZeroBytes b 0x34 0x3C
  cue : ∀ n pos start offset hold first clamped, e.row.source = .cue n pos start offset hold first clamped →
    byteAt b 0x14 = 1 ∧ byteAt b 0x15 = n.val ∧ byteAt b 0x16 = pos % 256 ∧ byteAt b 0x17 / 8 = flagCode hold.isSome ∧
    byteAt b 0x26 = 0 ∧ ZeroBytes b 0x28 0x30 ∧ le32 b 0x34 = start.toNat ∧ le16 b 0x38 = offset % 65536 ∧
    le16 b 0x3A = hold.getD 0 % 65536

/-- The row block of a ROW_DROPPED record (R183, R186). -/
structure DroppedLaid (r : Row) (reason : DropReason) (ideal showAt : Option Frame) (lag : Nat) (b : List Byte) : Prop where
  id : le32 b 0x10 = r.id.toNat
  frames : le32 b 0x18 = frameCode ideal ∧ le32 b 0x1C = frameCode showAt ∧ le32 b 0x30 = 0xFFFFFFFF
  late : le16 b 0x20 = min 65535 lag
  why : byteAt b 0x25 = reason.code
  live : ∀ w arrival cause mark, r.source = .live w arrival cause mark → byteAt b 0x14 = 0 ∧ byteAt b 0x15 = w.val ∧
    (reason = .stale → byteAt b 0x26 = cause.code)
  cue : ∀ n pos start offset hold first clamped, r.source = .cue n pos start offset hold first clamped →
    byteAt b 0x14 = 1 ∧ byteAt b 0x15 = n.val ∧ byteAt b 0x16 = pos % 256

/-- The kind code, the fields from 0x10 on, and the end of the fields of a record (R186). -/
def FieldsLaid (r : Record) (b : List Byte) : Prop :=
  match r with
  | .rowShown e fresh staged => byteAt b 0x04 = 1 ∧ ShownLaid e fresh staged b ∧ ZeroBytes b 0x3C 0x50
  | .rowDropped row reason ideal showAt lag =>
    byteAt b 0x04 = 2 ∧ DroppedLaid row reason ideal showAt lag b ∧ ZeroBytes b 0x3C 0x50
  | .correctionRefused w word reason =>
    byteAt b 0x04 = 3 ∧ byteAt b 0x10 = w.val ∧ byteAt b 0x11 = flagCode word ∧ byteAt b 0x12 = reason.code ∧
      ZeroBytes b 0x13 0x50
  | .leadChange outgoing incoming reason waited =>
    byteAt b 0x04 = 4 ∧ byteAt b 0x10 = writerCode outgoing ∧ byteAt b 0x11 = writerCode incoming ∧
      byteAt b 0x12 = reason.code ∧ byteAt b 0x13 = 0 ∧ le16 b 0x14 = waited % 65536 ∧ ZeroBytes b 0x16 0x50
  | .handoffRefused refused taker lead =>
    byteAt b 0x04 = 5 ∧ byteAt b 0x10 = refused.val ∧ byteAt b 0x11 = taker.val ∧ byteAt b 0x12 = lead.val ∧
      ZeroBytes b 0x13 0x50
  | .giveIgnored w => byteAt b 0x04 = 6 ∧ byteAt b 0x10 = w.val ∧ ZeroBytes b 0x11 0x50
  | .writerState w left entered cause divisor =>
    byteAt b 0x04 = 7 ∧ byteAt b 0x10 = w.val ∧ byteAt b 0x11 = left.code ∧ byteAt b 0x12 = entered.code ∧
      byteAt b 0x13 = cause.code ∧ le16 b 0x14 = divisor.getD 0 % 65536 ∧ ZeroBytes b 0x16 0x50
  | .latencyReseed w before after onset resumption =>
    byteAt b 0x04 = 8 ∧ byteAt b 0x10 = w.val ∧ ZeroBytes b 0x11 0x14 ∧ le32 b 0x14 = before % 2 ^ 32 ∧
      le32 b 0x18 = after % 2 ^ 32 ∧ le32 b 0x1C = onset.toNat ∧ le32 b 0x20 = resumption.toNat ∧ ZeroBytes b 0x24 0x50
  | .cueState n left entered reason shown dropped start =>
    byteAt b 0x04 = 9 ∧ byteAt b 0x10 = n.val ∧ byteAt b 0x11 = left.code ∧ byteAt b 0x12 = entered.code ∧
      byteAt b 0x13 = reason.code ∧ byteAt b 0x14 = shown % 256 ∧ byteAt b 0x15 = dropped % 256 ∧ le16 b 0x16 = 0 ∧
      le32 b 0x18 = frameCode start ∧ ZeroBytes b 0x1C 0x50
  | .triggerUnused line stamp captured =>
    byteAt b 0x04 = 10 ∧ byteAt b 0x10 = line.val ∧ ZeroBytes b 0x11 0x14 ∧ le32 b 0x14 = stamp.toNat ∧
      le32 b 0x18 = captured.toNat ∧ ZeroBytes b 0x1C 0x50
  | .referenceState left entered cause =>
    byteAt b 0x04 = 11 ∧ byteAt b 0x10 = left.code ∧ byteAt b 0x11 = entered.code ∧ byteAt b 0x12 = cause.code ∧
      ZeroBytes b 0x13 0x50
  | .settings generation clamped ignored firstClamped firstIgnored =>
    byteAt b 0x04 = 12 ∧ le32 b 0x10 = generation.toNat ∧
      byteAt b 0x14 = flagCode (clamped != 0) + 2 * flagCode (ignored != 0) ∧ byteAt b 0x15 = clamped % 256 ∧
      byteAt b 0x16 = ignored % 256 ∧ byteAt b 0x17 = firstClamped.getD 0xFF % 256 ∧
      byteAt b 0x18 = firstIgnored.getD 0xFF % 256 ∧ ZeroBytes b 0x19 0x50
  | .pageRecovered context => byteAt b 0x04 = 13 ∧ ContextLaid (some context) b 0x10 ∧ ZeroBytes b 0x1C 0x50

/-- The text that a record carries (R186): a row's, but for a skipped one. -/
def textCarried (r : Record) : List Byte :=
  match r with
  | .rowShown e _ _ => e.row.text
  | .rowDropped row reason _ _ _ => if reason = .skipped then [] else row.text
  | .correctionRefused _ _ _ | .leadChange _ _ _ _ | .handoffRefused _ _ _ | .giveIgnored _ | .writerState _ _ _ _ _
  | .latencyReseed _ _ _ _ _ | .cueState _ _ _ _ _ _ _ | .triggerUnused _ _ _ | .referenceState _ _ _
  | .settings _ _ _ _ _ | .pageRecovered _ => []

/-- b is the ring entry of a record with its sequence number (R183, R186). -/
structure RecordLaid (sequence : Word32) (j : JournalEntry) (b : List Byte) : Prop where
  length : b.length = 128
  sequence : le32 b 0x00 = sequence.toNat
  frame : le32 b 0x08 = j.frame.toNat
  textLength : byteAt b 0x0C = (textCarried j.record).length % 256
  unused : ZeroBytes b 0x05 0x08 ∧ ZeroBytes b 0x0D 0x10
  fields : FieldsLaid j.record b
  text : ∀ i, i < 48 → b[0x50 + i]? = some ((textCarried j.record).getD i 0)

/-! ### The settings block (R158, R159, R181) -/

/-- The numeric fields of the settings block that are clamped to a range: offset, size, lowest and highest value (R158,
R181). The frame-number load value and the sample periods are kept apart. -/
def settingsRanges : List (Nat × Nat × Nat × Nat) :=
  [(0x00, 1, 0, 3), (0x01, 1, 1, 2), (0x02, 1, 4, 32), (0x03, 1, 20, 42), (0x04, 1, 1, 4), (0x0C, 2, 0, 1023),
   (0x0E, 1, 1, 7)]
  ++ [0x10, 0x18, 0x20, 0x28].flatMap (fun o =>
    [(o + 1, 1, 0, 1), (o + 2, 2, 234, 22500), (o + 4, 1, 0, 2), (o + 5, 1, 0, 2)])
  ++ [0x30, 0x34, 0x38, 0x3C, 0x40, 0x44].flatMap (fun o => [(o, 1, 0, 3), (o + 2, 1, 1, 15)])
  ++ [(0x48, 2, 0, 1023), (0x4A, 2, 0, 1023), (0x4C, 2, 0, 1023), (0x4E, 1, 1, 6), (0x50, 2, 0, 16383), (0x52, 1, 1, 255),
      (0x54, 2, 0, 4095), (0x56, 2, 0, 4095), (0x58, 1, 0, 255), (0x59, 1, 0, 255), (0x5A, 1, 0, 255), (0x5C, 2, 0, 1023),
      (0x5E, 2, 0, 4095), (0x60, 2, 0, 4095), (0x62, 2, 1, 1023)]

/-- The number written in a field of one or two bytes (R179). -/
def written (block : List Byte) (off size : Nat) : Nat := if size = 1 then byteAt block off else le16 block off

/-- The field at an offset is written outside its range (R57, R159). The load value counts only with its request, which is
the model's reading (notes/assumptions/14). -/
def OutsideRange (block : List Byte) (off : Nat) : Prop :=
  (∃ size low high, (off, size, low, high) ∈ settingsRanges ∧
    (written block off size < low ∨ high < written block off size)) ∨
  (off = 0x08 ∧ byteAt block 0x06 ≠ 0 ∧ 268435455 < le32 block 0x08) ∨
  ∃ i : LineNo, off = 0x31 + 4 * i.val ∧ byteAt block off ≠ 1 ∧ byteAt block off ≠ 2 ∧ byteAt block off ≠ 4

/-- A writer number field: 0 to 3, or none (R159). -/
def namedWriter (n : Nat) : Option Writer := if h : n < 4 then some ⟨n, h⟩ else none

/-- x is what writer w's fields of the block are taken as (R14, R70, R158, R159, R181). -/
structure WriterTaken (block : List Byte) (w : Writer) (x : WriterSettings) : Prop where
  enable : x.enable = decide (byteAt block (0x10 + 8 * w.val) ≠ 0)
  auto : x.auto = decide (1 ≤ byteAt block (0x11 + 8 * w.val))
  divisor : x.divisor = min 22500 (max 234 (le16 block (0x12 + 8 * w.val)))
  parity : x.parity = match byteAt block (0x14 + 8 * w.val) with
    | 0 => .none
    | 1 => .even
    | _ => .odd
  voice : x.voice = match byteAt block (0x15 + 8 * w.val) with
    | 0 => .vox0
    | 1 => .vox1
    | _ => .both
  partner : x.partner = (namedWriter (byteAt block (0x16 + 8 * w.val))).filter (fun p => p != w)

/-- x is what capture line i's fields of the block are taken as (R57, R158, R181). -/
structure LineTaken (block : List Byte) (i : LineNo) (x : LineSettings) : Prop where
  edge : x.edge = match byteAt block (0x30 + 4 * i.val) with
    | 0 => .none
    | 1 => .rising
    | 2 => .falling
    | _ => .both
  period : x.period = match byteAt block (0x31 + 4 * i.val) with
    | 0 => 1
    | 1 => 1
    | 2 => 2
    | _ => 4
  filter : x.filter = min 15 (max 1 (byteAt block (0x32 + 4 * i.val)))

/-- v is what the fields of the block are taken as (R158, R159, R181). -/
structure SettingsTaken (block : List Byte) (v : Settings) : Prop where
  rateCode : v.rateCode = min 3 (byteAt block 0x00)
  divider : v.divider = min 2 (max 1 (byteAt block 0x01))
  slotUnits : v.slotUnits = min 32 (max 4 (byteAt block 0x02))
  rowWidth : v.rowWidth = min 42 (max 20 (byteAt block 0x03))
  displayRows : v.displayRows = min 4 (max 1 (byteAt block 0x04))
  leadAtStart : v.leadAtStart = namedWriter (byteAt block 0x05)
  delay : v.delay = min 1023 (le16 block 0x0C)
  liveLevel : v.liveLevel = min 7 (max 1 (byteAt block 0x0E))
  writers : ∀ w, WriterTaken block w (get v.writers w)
  lines : ∀ i, LineTaken block i (get v.lines i)
  bounds : v.lmin = min 1023 (le16 block 0x48) ∧ v.lmax = min 1023 (le16 block 0x4A) ∧ v.lseed = min 1023 (le16 block 0x4C)
  smooth : v.smooth = min 6 (max 1 (byteAt block 0x4E))
  gate : v.gate = min 16383 (le16 block 0x50)
  pauseFrames : v.pauseFrames = max 1 (byteAt block 0x52)
  silenceFrames : v.silenceFrames = min 4095 (le16 block 0x54)
  handoffFrames : v.handoffFrames = min 4095 (le16 block 0x56)
  holds : v.holdBase = byteAt block 0x58 ∧ v.holdChar = byteAt block 0x59
  lateAbove : v.lateAbove = byteAt block 0x5A
  catchAbove : v.catchAbove = min 1023 (le16 block 0x5C)
  dropAbove : v.dropAbove = min 4095 (le16 block 0x5E)
  linger : v.linger = min 4095 (le16 block 0x60)
  feedWindow : v.feedWindow = min 1023 (max 1 (le16 block 0x62))
  forcedLead : v.forcedLead = namedWriter (byteAt block 0x64)

/-- Writer w's group B field at an offset differs between the applied values x and the values y of a block (R158, R181). -/
def WriterDiffers (w : Writer) (x y : WriterSettings) (off : Nat) : Prop :=
  (off = 0x10 + 8 * w.val ∧ x.enable ≠ y.enable) ∨ (off = 0x11 + 8 * w.val ∧ x.auto ≠ y.auto) ∨
  (off = 0x12 + 8 * w.val ∧ x.divisor ≠ y.divisor) ∨ (off = 0x14 + 8 * w.val ∧ x.parity ≠ y.parity) ∨
  (off = 0x15 + 8 * w.val ∧ x.voice ≠ y.voice) ∨ (off = 0x16 + 8 * w.val ∧ x.partner ≠ y.partner)

/-- Capture line i's field at an offset differs (R158, R181). -/
def LineDiffers (i : LineNo) (x y : LineSettings) (off : Nat) : Prop :=
  (off = 0x30 + 4 * i.val ∧ x.edge ≠ y.edge) ∨ (off = 0x31 + 4 * i.val ∧ x.period ≠ y.period) ∨
  (off = 0x32 + 4 * i.val ∧ x.filter ≠ y.filter)

/-- The field at an offset is ignored in RUNNING: group A where it differs, a load request, and with FREEZE set group B where
it differs (R158). That a load is named by the offset of its request is the model's choice (notes/assumptions/49). -/
def FieldIgnored (frozen : Bool) (x y : Settings) (block : List Byte) (off : Nat) : Prop :=
  (off = 0x00 ∧ x.rateCode ≠ y.rateCode) ∨ (off = 0x01 ∧ x.divider ≠ y.divider) ∨
  (off = 0x02 ∧ x.slotUnits ≠ y.slotUnits) ∨ (off = 0x03 ∧ x.rowWidth ≠ y.rowWidth) ∨
  (off = 0x04 ∧ x.displayRows ≠ y.displayRows) ∨ (off = 0x05 ∧ x.leadAtStart ≠ y.leadAtStart) ∨
  (off = 0x06 ∧ byteAt block 0x06 ≠ 0) ∨
  (frozen = true ∧ ((off = 0x0C ∧ x.delay ≠ y.delay) ∨ (off = 0x0E ∧ x.liveLevel ≠ y.liveLevel) ∨
    (∃ w : Writer, WriterDiffers w (get x.writers w) (get y.writers w) off) ∨
    ∃ i : LineNo, LineDiffers i (get x.lines i) (get y.lines i) off))

/-- What an application in RUNNING reports (R158, R159): the clamp and ignore counts, attention SETTINGS, and one SETTINGS
record with the number and the first offset of the fields clamped and of those ignored. -/
structure SettingsReported (s t : State) (generation : Word32) (clamped ignored : List Nat) : Prop where
  clampCount : t.pe.clampCount = s.pe.clampCount + BitVec.ofNat 32 clamped.length
  ignoreCount : t.pe.ignoreCount = s.pe.ignoreCount + BitVec.ofNat 32 ignored.length
  attention : flagSet .settings t = (flagSet .settings s || decide (ignored ≠ []))
  record : clamped ≠ [] ∨ ignored ≠ [] →
    (t.pe.buffer.getLast? = some { frame := s.tb.frame
                                   record := .settings generation clamped.length ignored.length clamped.head? ignored.head? }
      ∨ (32 ≤ t.pe.buffer.length ∧ flagSet .journalLost t = true))

/-- The port p of a writer whose applied settings were old has become q at an application in RUNNING that takes new (R17,
R18), at the local count clock. -/
structure PortApplied (old new : WriterSettings) (clock : Nat) (p q : Port) : Prop where
  staysOff : p.mode = .off → new.enable = false → q = p
  disabled : p.mode ≠ .off → new.enable = false → q = Port.reset
  enabled : p.mode = .off → new.enable = true →
    q.framing = 0 ∧ q.pauseCount = 0 ∧ q.pauseArmed = false ∧ q.pauseFlag = true ∧ q.silence = 0 ∧
    (new.auto = false → q.mode = .run ∧ q.phase = none ∧ q.divisor = some new.divisor ∧ q.lookFrom = clock) ∧
    (new.auto = true → q.mode = .acquire ∧ q.phase = some .seekBreak ∧ q.divisor = none ∧ q.since = clock)
  kept : p.mode ≠ .off → new.enable = true → q.pauseCount = p.pauseCount ∧ q.pauseArmed = p.pauseArmed ∧
    q.pauseFlag = p.pauseFlag ∧ q.silence = p.silence
  unchanged : p.mode ≠ .off → new.enable = true → old.auto = new.auto → old.divisor = new.divisor →
    old.parity = new.parity → q = p
  toAutomatic : p.mode ≠ .off → new.enable = true → old.auto = false → new.auto = true →
    q.mode = .acquire ∧ q.phase = some .seekBreak ∧ q.divisor = none ∧ q.framing = 0 ∧ q.since = clock
  toFixed : p.mode ≠ .off → new.enable = true → old.auto = true → new.auto = false →
    q.mode = .run ∧ q.phase = none ∧ q.divisor = some new.divisor ∧ q.framing = 0 ∧ q.lookFrom = clock
  newDivisor : p.mode = .run ∨ p.mode = .resync → new.enable = true → old.auto = false → new.auto = false →
    old.divisor ≠ new.divisor →
    q.mode = p.mode ∧ q.divisor = some new.divisor ∧ q.framing = p.framing ∧ q.lookFrom = clock ∧
    (p.mode = .resync → q.since = clock)
  stays : p.mode ≠ .off → new.enable = true → old.auto = new.auto → (new.auto = true ∨ old.divisor = new.divisor) →
    (old.divisor ≠ new.divisor ∨ old.parity ≠ new.parity) →
    q.mode = p.mode ∧ q.divisor = p.divisor ∧ q.framing = p.framing ∧ q.lookFrom = clock

/-- The records of the changes of a port at an application (R17, R18, R32): one where its state or divisor changes, with
cause ENABLE, DISABLE or SETTINGS. -/
structure PortRecorded (w : Writer) (new : WriterSettings) (p q : Port) (t : State) : Prop where
  enabled : p.mode = .off → new.enable = true → Recorded t (.writerState w .off q.mode .enable q.divisor)
  disabled : p.mode ≠ .off → new.enable = false → Recorded t (.writerState w p.mode .off .disable none)
  retuned : p.mode ≠ .off → new.enable = true → (q.mode ≠ p.mode ∨ q.divisor ≠ p.divisor) →
    Recorded t (.writerState w p.mode q.mode .settings q.divisor)
  attention : p.mode = .run → q.mode ≠ .run → flagSet .writer t = true

/-- The lead after an application in RUNNING that takes new values with no silence limit (R90, R93, R94): a forced lead whose
port is not OFF has the lead, and no handoff is left; else a lead that is disabled passes it to its taker or to the relay
partner named by the application, whose port is in RUN throughout, or the lead becomes none. -/
structure LeadApplied (s t : State) (new : Settings) : Prop where
  forced : ∀ f, new.forcedLead = some f → (portOf t f).mode ≠ .off →
    t.la.lead = some f ∧ t.la.handoff = none ∧ t.settings.forcedLead = some f ∧
    (s.la.lead ≠ some f → flagSet .lead t = true)
  refused : ∀ f, new.forcedLead = some f → (portOf t f).mode = .off → t.settings.forcedLead = s.settings.forcedLead
  toTaker : ∀ w h, new.forcedLead = none → s.la.lead = some w → (portOf s w).mode ≠ .off →
    (get new.writers w).enable = false → s.la.handoff = some h → h.taker ≠ w → (portOf s h.taker).mode = .run →
    (portOf t h.taker).mode = .run → t.la.lead = some h.taker ∧ flagSet .lead t = true
  toPartner : ∀ w p, new.forcedLead = none → s.la.lead = some w → (portOf s w).mode ≠ .off →
    (get new.writers w).enable = false → s.la.handoff = none → (get new.writers w).partner = some p →
    (portOf s p).mode = .run → (portOf t p).mode = .run → t.la.lead = some p ∧ flagSet .lead t = true
  toNone : ∀ w, new.forcedLead = none → s.la.lead = some w → (portOf s w).mode ≠ .off →
    (get new.writers w).enable = false → s.la.handoff = none →
    (∀ p, (get new.writers w).partner = some p → (portOf s p).mode ≠ .run ∧ (portOf t p).mode ≠ .run) →
    t.la.lead = none ∧ flagSet .lead t = true

/-- The live level of an application that moves no port and names no forced lead (R123, R124, R128): with at most one owner it
is applied at once, with the insertion test and the due-list test, and else it is pending. -/
structure LevelTaken (s t : State) (level : Nat) : Prop where
  same : level = s.settings.liveLevel → t.settings.liveLevel = level ∧ t.disp = s.disp
  pends : level ≠ s.settings.liveLevel → 2 ≤ s.disp.stack.length →
    t.settings.liveLevel = s.settings.liveLevel ∧ t.disp = { s.disp with pendingLevel := some level }
  taken : level ≠ s.settings.liveLevel → s.disp.stack.length ≤ 1 →
    t.settings.liveLevel = level ∧ t.disp.pendingLevel = none
  settled : level ≠ s.settings.liveLevel → s.disp.stack.length ≤ 1 → s.disp.place ≠ .waiting → s.disp.due = [] →
    t.disp = { s.disp with pendingLevel := none }
  tested : level ≠ s.settings.liveLevel → s.disp.stack.length ≤ 1 → s.disp.place ≠ .waiting →
    t.settings.silenceFrames = 0 → ∀ n rest c, s.disp.due = n :: rest → cueOf s n = some c →
    DueTested { s with settings := t.settings } t n rest c
  inserted : level ≠ s.settings.liveLevel → s.disp.place = .waiting → s.disp.due = [] →
    (s.disp.stack = [] → t.disp = { s.disp with stack := [.live], place := .inStack, pendingLevel := none }) ∧
    ∀ k x c, s.disp.stack = [.ctx k] → ctxOf s k = some x → cueOf s x.slot = some c →
      (level < c.level → t.disp = { s.disp with stack := [.live, .ctx k], place := .inStack, pendingLevel := none }) ∧
      (c.level ≤ level → t.disp = { s.disp with pendingLevel := none })

/-- An application that takes new moves no port (R17, R18) and names no forced lead (R93). -/
structure MovesNoPort (s : State) (new : Settings) : Prop where
  enabled : ∀ w, (get new.writers w).enable = true ↔ (portOf s w).mode ≠ .off
  same : ∀ w, (get new.writers w).auto = (writerOf s w).auto ∧ (get new.writers w).divisor = (writerOf s w).divisor ∧
    (get new.writers w).parity = (writerOf s w).parity
  unforced : new.forcedLead = none

/-! ### Safe runs -/

/-- A state is safe when its bounds and shapes hold, the page engine is quiet under a fault, and the lead is sound. -/
structure Safe (s : State) : Prop where
  bounds : WithinBounds s
  quiet : QuietUnderFault s
  lead : LeadSound s

/-- A run of a number of steps stays safe: each step answers a next state, and each state is safe. -/
def SafeRun : Nat → State → Prop
  | 0, s => Safe s
  | n + 1, s => Safe s ∧ ∃ t, step s = .next t ∧ SafeRun n t

end Sys2Proof.Machine
end

