-- ==== Sys2Proof/WellFormed.lean ====
section
/-! DEFINITION. Which commands are well formed: a CONTROL or ATTN write carries the bits its row names (R173, R177), a piece
of a boundary's work comes at the boundary's moment, the edges of a waveform come one after another, the bytes a read returns
are as many as the region read has (R152), and a reported offset lies in the page (R153).

The machine is total on ill-formed commands too: a byte that is not there reads as 0, and a write acts as the word written
says (notes/assumptions/4). -/

namespace Sys2Proof

/-- The edges of a waveform rise strictly: each change of level is later than the one before it. -/
def risingEdges : List Nat → Bool
  | [] => true
  | [_] => true
  | a :: b :: rest => decide (a < b) && risingEdges (b :: rest)

/-- A CONTROL write's bits RUN, FREEZE and SOFT_RESET (R171). -/
def runBit (word : Word32) : Bool := word.getLsbD 0
def freezeBit (word : Word32) : Bool := word.getLsbD 1
def softResetBit (word : Word32) : Bool := word.getLsbD 2

/-- The PAGE_FAULT bit of an ATTN write (R171). -/
def faultBit (word : Word32) : Bool := word.getLsbD 2

/-- A piece of a boundary's work comes with no count between it and the command before it. -/
def Moment.atOnce (m : Moment) : Bool := m.dt == 0

/-- The check of one command. -/
def Instr.wellFormed : Instr → Bool
  | .hardwareReset _ => true
  | .softReset _ word => softResetBit word
  | .runSet _ word => runBit word && !softResetBit word
  | .runClear _ word => !runBit word && !softResetBit word
  | .freeze _ word => freezeBit word && !softResetBit word
  | .attnClear _ _ => true
  | .pageFaultClear _ word => !faultBit word
  | .attnEnableWrite _ _ => true
  | .pageBaseWrite _ _ _ => true
  | .registerWriteDiscarded _ _ _ => true
  | .referencePulse _ => true
  | .lossExpiry _ => true
  | .freewheelExpiry _ => true
  | .tickStep _ => true
  | .characterAccepted _ _ edges => risingEdges edges
  | .breakSeen _ _ _ => true
  | .resyncBreak _ _ _ => true
  | .spanTooLong _ _ => true
  | .alignmentCharacter _ _ edges => risingEdges edges
  | .resyncEnd _ _ _ => true
  | .pauseEvent m _ => m.atOnce
  | .silentLead m => m.atOnce
  | .handoffTimeout m => m.atOnce
  | .onsetAged m => m.atOnce
  | .lastOnsetLapse m => m.atOnce
  | .bufferFreeLapse m => m.atOnce
  | .mirrorPast m => m.atOnce
  | .atFrameDue m => m.atOnce
  | .cueWaitExpired m => m.atOnce
  | .showRow m => m.atOnce
  | .pendingClear m => m.atOnce
  | .headerReadComplete _ header => header.length == 12
  | .settingsApplication _ block => block.length == 256
  | .settingsReadComplete _ header block => header.length == 12 && block.length == 256
  | .cueTableReadComplete _ table => table.length == 2048
  | .slotWriteComplete _ => true
  | .statusWriteComplete _ => true
  | .journalWriteComplete _ => true
  | .fetchComplete _ _ entry => entry.length == 64
  | .pageFault _ _ offset => decide (offset < Config.pageBytes)
  | .accessTimeout _ _ offset => decide (offset < Config.pageBytes)
  | .resetNRise _ => true
  | .alignmentStartEdge _ _ => true
  | .spanMeasured _ _ rise => decide (0 < rise)

end Sys2Proof
end

