-- ==== Sys2Proof/Certificates/Slice0/Obligations.lean ====
section
/-! DEFINITION. The statements for the provers. In each, m is the command's moment, s the state before it, and a the state in
which it finds the part (Finds, FindsPiece). A statement that gives the next state as a record update gives its frame with
it; the others name a frame of Safety.lean, or the fields that stay. -/

open Sys2Proof Sys2Proof.Machine

/-! ### Steps, resets and the register window -/

/-- A step takes the command at the front of the queue and runs it on the state with the queue's rest, and an empty queue
leaves the block as it is. The queue is the model's and not the spec's, so both clauses are the model's own choice
(notes/assumptions/1 for the order of the waiting commands, notes/assumptions/16 for the empty queue). -/
def Obligations.StepTakesTheFrontCommand : Prop :=
  (∀ (c : Instr) (rest : List Instr) (s : State), s.pending = c :: rest → step s = exec c (s.withPending rest)) ∧
  ∀ s : State, s.pending = [] → step s = .next s

/-- The reset values that the spec states (R2, R16, R33, R34, R47, R53, R67, R82, R99, R122, R140, R154, R158, R172). -/
def Obligations.ResetStateHoldsTheSpecValues : Prop :=
  let s := State.reset
  (s.control.runState = .halted ∧ s.control.run = false ∧ s.control.freeze = false ∧ s.control.attn = 0
    ∧ s.control.enable = 0) ∧
  s.tb = { mode := .unlocked, frame := 0, origin := none, lastPulse := none, phase := false, heldTick := 0, load := some 0
           glitches := 0, stepped := none } ∧
  (∀ w, (portOf s w).mode = .off ∧ (portOf s w).divisor = none ∧ (portOf s w).framing = 0
    ∧ (portOf s w).pauseCount = 0 ∧ (portOf s w).pauseArmed = false ∧ (portOf s w).pauseFlag = false
    ∧ (portOf s w).silence = 0) ∧
  (∀ w, get s.counters w =
    { characters := 0, noise := 0, parityErrors := 0, framingErrors := 0, alignmentErrors := 0, ignoredCodes := 0
      rowsClosed := 0, refused := 0, rowsShown := 0, rowsDropped := 0, accepted := 0, rejected := 0, unmatched := 0 }) ∧
  (∀ w, (builderOf s w).chars = [] ∧ (builderOf s w).arrival = none ∧ (builderOf s w).heldId = none
    ∧ (builderOf s w).markHeld = false ∧ (builderOf s w).markPending = false) ∧
  (s.queue = [] ∧ s.nextRowId = 0) ∧
  (∀ i, (get s.capture i).steps = 0 ∧ (get s.capture i).candidates = 0 ∧ (get s.capture i).candStamp = none
    ∧ (get s.capture i).captures = 0) ∧
  (∀ v, get s.onsets v = [] ∧ get s.lastOnset v = none) ∧
  (∀ w, (get s.est w).estimate = none ∧ (get s.est w).rejects = 0) ∧
  (s.la.lead = none ∧ (∀ w, roleOf s w = .standby) ∧ s.la.handoff = none ∧ s.la.silenceReported = false) ∧
  (s.air.entries = [] ∧ s.air.horizon = none ∧ (∀ b, get s.air.bufFree b = none) ∧ s.air.catchup = false
    ∧ s.air.clear = none ∧ s.air.lastLag = 0) ∧
  (s.disp.stack = [] ∧ s.disp.place = .absent ∧ s.disp.pendingLevel = none ∧ (∀ n, cueOf s n = none)
    ∧ s.disp.watch = [] ∧ s.disp.due = [] ∧ (∀ i, get s.disp.waits i = []) ∧ ∀ k, ctxOf s k = none) ∧
  (s.out.mirror = [] ∧ s.out.cursor = none ∧ (∀ b, get s.out.completion b = none) ∧ s.out.owed = .none
    ∧ s.out.lastUnits = 0) ∧
  (s.pe.base = 0 ∧ s.pe.lastGeneration = 0 ∧ s.pe.lastCueChange = 0 ∧ s.pe.readMark = 0 ∧ s.pe.writeCount = 0
    ∧ s.pe.buffer = [] ∧ s.pe.lost = 0 ∧ s.pe.scans = 0 ∧ s.pe.skipped = 0 ∧ s.pe.clampCount = 0
    ∧ s.pe.ignoreCount = 0 ∧ (∀ n, get s.pe.marks n = false) ∧ s.pe.op = none ∧ s.pe.runStart = false
    ∧ s.pe.recovery = false ∧ s.pe.fault = none ∧ s.pe.lastFault = none) ∧
  (s.settings.rateCode = 0 ∧ s.settings.divider = 1 ∧ s.settings.slotUnits = 8 ∧ s.settings.rowWidth = 32
    ∧ s.settings.displayRows = 2 ∧ s.settings.leadAtStart = some 0 ∧ s.settings.delay = 0 ∧ s.settings.liveLevel = 2) ∧
  (∀ w, writerOf s w = { enable := false, auto := false, divisor := 2813, parity := .none, voice := .both, partner := none }) ∧
  (∀ i, get s.settings.lines i = { edge := .none, period := 1, filter := 3 }) ∧
  (s.settings.lmin = 20 ∧ s.settings.lmax = 250 ∧ s.settings.lseed = 75 ∧ s.settings.smooth = 3 ∧ s.settings.gate = 640
    ∧ s.settings.pauseFrames = 12 ∧ s.settings.silenceFrames = 250 ∧ s.settings.handoffFrames = 125) ∧
  (s.settings.holdBase = 8 ∧ s.settings.holdChar = 10 ∧ s.settings.lateAbove = 25 ∧ s.settings.catchAbove = 50
    ∧ s.settings.dropAbove = 0 ∧ s.settings.linger = 200 ∧ s.settings.feedWindow = 100 ∧ s.settings.forcedLead = none)

/-- RESET_N going low puts every block into its hardware reset values and holds it there, with both signals of the caption
output line low at once (R151); RESET_N rising ends that, and does nothing where it was high (R176, R172). Each filtered
level is the raw level (R53). That this level is taken at the fall and anew at the rise is the model's choice
(notes/assumptions/46). That the local count, the raw capture lines, host memory and the waiting commands outlast the
reset is the model's reading (notes/assumptions/26). -/
def Obligations.HardwareResetHoldsEveryBlockUntilItRises : Prop :=
  ∀ (m : Moment) (s : State),
    let held : State := { State.reset with
      clock := s.clock + m.dt, lines := m.lines, resetLow := true, capture := m.lines.map Capture.reset, mem := s.mem
      pending := s.pending }
    exec (.hardwareReset m) s = .next held ∧
    (∀ i, capData held i = false ∧ capSync held i = false) ∧
    (s.resetLow = true → exec (.resetNRise m) s = .next { held with resetLow := false }) ∧
    (s.resetLow = false → exec (.resetNRise m) s = .next (arrive m s))

/-- SOFT_RESET written 1 puts every block into its reset values, but for the page base (R173, R176, R154), and for the slot
last sent, which is finished (R151, as notes/assumptions/28 has it). That the local count, the raw lines, host memory and the
waiting commands outlast the reset is the model's reading (notes/assumptions/26). -/
def Obligations.SoftResetKeepsThePageBaseAndTheSlot : Prop :=
  ∀ (m : Moment) (word : Word32) (s a : State), Finds m s a → softResetBit word = true →
    exec (.softReset m word) s = .next { State.reset with
      clock := s.clock + m.dt, lines := m.lines, capture := m.lines.map Capture.reset, mem := s.mem
      pending := s.pending, pe := { PageEngine.reset with base := s.pe.base }, out := { Output.reset with slot := a.out.slot } }

/-- While RESET_N is held low no command does anything but let time pass, unless it is RESET_N rising or falling anew: writes
to the window are discarded, and every block is held (R172, R176). That every other command then only lets time pass is the
model's reading (notes/assumptions/26), and that the filtered levels then stay is its choice (notes/assumptions/46). -/
def Obligations.ResetLowDiscardsEveryOtherCommand : Prop :=
  ∀ (c : Instr) (s : State), s.resetLow = true → s.work = Work.none →
    (∀ m, c ≠ .hardwareReset m) → (∀ m, c ≠ .resetNRise m) → exec c s = .next (advance c.moment s)

/-- IRQ_N is low exactly while a flag is set whose enable is 1, and a write to ATTN_ENABLE writes the enables alone (R178).
-/
def Obligations.InterruptLineFollowsFlagsAndEnables : Prop :=
  (∀ s : State, irqLow s = true ↔ ∃ f : AttnFlag, flagSet f s = true ∧ s.control.enable.getLsbD f.bit = true) ∧
  ∀ (m : Moment) (word : Word32) (s a : State), Finds m s a →
    exec (.attnEnableWrite m word) s = .next { a with control := { a.control with enable := word.setWidth 8 } }

/-- A write to ATTN clears the flags whose bits are 0 (R177). With PAGE_FAULT's bit 0 and the fault state set it ends the
fault too: PAGE_RECOVERED is made with the fault's context, and in RUNNING the recovery scan is pending (R169). That the
flags are cleared before the end of the fault, whose record may be lost, is the model's choice (notes/assumptions/38). -/
def Obligations.AttnWriteClearsFlagsAndEndsAFault : Prop :=
  ∀ (m : Moment) (word : Word32) (s a : State), Finds m s a →
    let cleared := { a with control := { a.control with attn := a.control.attn &&& word.setWidth 8 } }
    (faultBit word = true → exec (.attnClear m word) s = .next cleared) ∧
    (faultBit word = false → ∀ c, c = .attnClear m word ∨ c = .pageFaultClear m word →
      (a.pe.fault = none → exec c s = .next cleared) ∧
      ∀ context, a.pe.fault = some context →
        exec c s = .next (noted (.pageRecovered context) []
          { cleared with pe := { a.pe with fault := none, recovery := a.pe.recovery || isRunning a } }))

/-- The seven words lie at offsets 0x00 to 0x18 of the register window, and each reads as R171 says. In HALTED a write to
PAGE_BASE_HI or PAGE_BASE_LO replaces that word of the page base, bits 11 to 0 of the low word taken as 0, and nothing else;
in any other run state it is discarded, as is a write to IDENT or STATUS at any time (R172). -/
def Obligations.WindowWritesAreTakenOrDiscarded : Prop :=
  (∀ s : State,
    readWindow 0x00 s = some 0x02400001 ∧
    (∃ control, readWindow 0x04 s = some control ∧ control.getLsbD 0 = s.control.run ∧
      control.getLsbD 1 = s.control.freeze ∧ control.toNat < 4) ∧
    (∃ status, readWindow 0x08 s = some status ∧ status.toNat < 128 ∧
      status.toNat % 4 = (match s.control.runState with
        | .halted => 0
        | .starting => 1
        | .running => 2
        | .halting => 3) ∧
      status.toNat / 4 % 4 = (match s.tb.mode with
        | .unlocked => 0
        | .locked => 1
        | .freewheel => 2) ∧
      status.getLsbD 4 = s.pe.fault.isSome ∧ status.getLsbD 5 = s.control.freeze ∧
      (status.getLsbD 6 = true ↔ ∃ step g c since, s.pe.op = some (.pass false step g c since))) ∧
    readWindow 0x0C s = some (s.control.attn.setWidth 32) ∧ readWindow 0x10 s = some (s.control.enable.setWidth 32) ∧
    (∃ low high, readWindow 0x14 s = some low ∧ readWindow 0x18 s = some high ∧ high ++ low = s.pe.base) ∧
    ∀ offset, offset ∉ [0x00, 0x04, 0x08, 0x0C, 0x10, 0x14, 0x18] → readWindow offset s = none) ∧
  [AttnFlag.journal, .journalLost, .pageFault, .reference, .lead, .writer, .settings, .cue].map AttnFlag.bit =
    [0, 1, 2, 3, 4, 5, 6, 7] ∧
  ∀ (m : Moment) (high : Bool) (reg : Reg) (word : Word32) (s a : State), Finds m s a →
    (a.control.runState = .halted →
      ∃ t, exec (.pageBaseWrite m high word) s = .next t ∧ t = { a with pe := { a.pe with base := t.pe.base } } ∧
        (high = true → readRegister .pageBaseHi t = word ∧ readRegister .pageBaseLo t = readRegister .pageBaseLo a) ∧
        (high = false → readRegister .pageBaseLo t = (word >>> 12) <<< 12
          ∧ readRegister .pageBaseHi t = readRegister .pageBaseHi a)) ∧
    (a.control.runState ≠ .halted → exec (.pageBaseWrite m high word) s = .next a) ∧
    (reg = .ident ∨ reg = .status ∨ ((reg = .pageBaseLo ∨ reg = .pageBaseHi) ∧ a.control.runState ≠ .halted) →
      exec (.registerWriteDiscarded m reg word) s = .next a)

/-- RUN written 1 in HALTED begins STARTING and its settings read; with the fault state set the read is taken as failed at
once: the part stays in HALTED with RUN cleared (R173, R174, R160). -/
def Obligations.RunSetInHaltedBeginsTheSettingsRead : Prop :=
  ∀ (m : Moment) (word : Word32) (s a : State), Finds m s a → runBit word = true → softResetBit word = false →
    a.control.runState = .halted →
    (a.pe.fault = none → exec (.runSet m word) s = .next { a with
      control := { a.control with run := true, freeze := a.control.freeze || freezeBit word, runState := .starting }
      pe := { a.pe with op := some (.settingsRead a.clock) } }) ∧
    (a.pe.fault.isSome = true → exec (.runSet m word) s = .next { a with
      control := { a.control with run := false, freeze := a.control.freeze || freezeBit word, runState := .halted } })

/-- Where the new value of RUN begins nothing (in STARTING and HALTING, 1 in RUNNING, 0 in HALTED) it is held alone, and a
FREEZE bit of 1 sets the freeze state while 0 leaves it (R173). -/
def Obligations.ControlWriteHoldsRunAndSetsFreeze : Prop :=
  ∀ (m : Moment) (word : Word32) (s a : State) (c : Instr), Finds m s a → softResetBit word = false →
    (c = .runSet m word ∨ c = .runClear m word ∨ c = .freeze m word) →
    (a.control.runState = .starting ∨ a.control.runState = .halting
      ∨ (a.control.runState = .running ∧ runBit word = true) ∨ (a.control.runState = .halted ∧ runBit word = false)) →
    exec c s = .next { a with control := { a.control with
      run := runBit word, freeze := a.control.freeze || freezeBit word } }

/-- RUN written 0 in RUNNING begins HALTING, which reaches every block at once (R175, R122): ports, builders, live queue,
onsets, triggers, lead, schedule and owner stack are emptied, cues in DUE, RUNNING and SUSPENDED are aborted with reason HALT
and the others kept, HALT_CLEAR is owed, and the halting flush begins, or with the fault state set completes at once. -/
def Obligations.RunClearInRunningBeginsHalting : Prop :=
  ∀ (m : Moment) (word : Word32) (s a : State), Finds m s a → runBit word = false → softResetBit word = false →
    a.control.runState = .running →
    ∃ t, exec (.runClear m word) s = .next t ∧
      (t.control.runState = .halting ∧ t.control.run = false ∧ t.control.freeze = (a.control.freeze || freezeBit word)
        ∧ t.control.enable = a.control.enable) ∧
      ((∀ w, (portOf t w).mode = .off) ∧ (∀ w, builderOf t w = Builder.reset) ∧ t.queue = [] ∧
        (∀ v, get t.onsets v = []) ∧ (∀ i, get t.disp.waits i = [])) ∧
      (t.la.lead = none ∧ (∀ w, roleOf t w = .standby) ∧ t.la.handoff = none ∧ t.la.silenceReported = false) ∧
      t.air = { AirSchedule.reset with lastLag := a.air.lastLag } ∧
      (t.disp.stack = [] ∧ t.disp.watch = [] ∧ t.disp.due = [] ∧ t.disp.place = .absent
        ∧ t.disp.pendingLevel = a.disp.pendingLevel) ∧
      (∀ n c, cueOf a n = some c → c.state = .due ∨ c.state = .running ∨ c.state = .suspended →
        cueOf t n = some { c with state := .aborted, reason := .halt } ∧ get t.pe.marks n = true) ∧
      (∀ n c, cueOf a n = some c → c.state ≠ .due → c.state ≠ .running → c.state ≠ .suspended →
        cueOf t n = some c ∧ get t.pe.marks n = get a.pe.marks n) ∧
      (∀ k x, ctxOf a k = some x → x.fetch = .none → ctxOf t k = none) ∧
      (∀ k x, ctxOf a k = some x → x.fetch ≠ .none → ctxOf t k = some { x with fetch := .void }) ∧
      t.out = { a.out with owed := .haltClear, cursor := none } ∧
      (a.pe.fault = none → t.pe.op = some (.pass true .header 0 0 a.clock)) ∧
      (a.pe.fault.isSome = true → t.pe.op = none) ∧
      (t.tb = a.tb ∧ t.settings = a.settings ∧ t.counters = a.counters ∧ t.nextRowId = a.nextRowId
        ∧ t.capture = a.capture ∧ t.lastOnset = a.lastOnset ∧ t.est = a.est ∧ t.mem = a.mem ∧ t.pending = a.pending) ∧
      t.pe = { a.pe with buffer := t.pe.buffer, lost := t.pe.lost, marks := t.pe.marks, op := t.pe.op } ∧
      RecordsKept a t

/-! ### The timebase -/

/-- The thresholds of R1's table, by rate code and divider: the glitch threshold, (3 × P) div 4 and P + P div 2. The
sub-frame tick never falls as time passes within a frame, and lies at or below 15 (R4). -/
def Obligations.ThresholdsAndTicks : Prop :=
  (∀ s : State,
    (s.settings.rateCode = 0 → framePeriod s = 1080000 ∧ fieldLimit s = 810000 ∧ lossCounts s = 1620000
      ∧ (s.settings.divider = 1 → glitchLimit s = 810000) ∧ (s.settings.divider = 2 → glitchLimit s = 405000)) ∧
    (s.settings.rateCode = 1 → framePeriod s = 900900 ∧ fieldLimit s = 675675 ∧ lossCounts s = 1351350
      ∧ (s.settings.divider = 1 → glitchLimit s = 675675) ∧ (s.settings.divider = 2 → glitchLimit s = 337837)) ∧
    (s.settings.rateCode = 2 → framePeriod s = 540000 ∧ fieldLimit s = 405000 ∧ lossCounts s = 810000
      ∧ (s.settings.divider = 1 → glitchLimit s = 405000) ∧ (s.settings.divider = 2 → glitchLimit s = 202500)) ∧
    (s.settings.rateCode = 3 → framePeriod s = 450450 ∧ fieldLimit s = 337837 ∧ lossCounts s = 675675
      ∧ (s.settings.divider = 1 → glitchLimit s = 337837) ∧ (s.settings.divider = 2 → glitchLimit s = 168918))) ∧
  (∀ (s : State) (d : Nat), subTick s ≤ subTick { s with clock := s.clock + d }) ∧
  (∀ s : State, s.tb.heldTick ≤ 15 → subTick s ≤ 15) ∧
  ∀ s : State, s.tb.heldTick ≤ subTick s ∧ subTick { s with tb := { s.tb with heldTick := subTick s } } = subTick s

/-- A reference pulse in UNLOCKED, in any run state and with no glitch test, makes a frame boundary with its own count as
origin and locks TB (R5, R12). What of the boundary's work is done with the pulse itself, and that the rest waits for
commands of its own, is the model's choice, and so is the place of the REFERENCE_STATE record (notes/assumptions/2). Of the
boundary's tests, that a cue which is suspended has no feed test made for it at that moment is the model's choice
(notes/assumptions/36), and that a position whose fetch a fault abandoned waits for the scan after the fault its reading of
R169 (notes/assumptions/29). -/
def Obligations.FirstPulseLocksTheTimebase : Prop :=
  ∀ (m : Moment) (s a : State), Finds m s a → a.tb.mode = .unlocked →
    ∃ t, exec (.referencePulse m) s = .next t ∧ FrameBegins a t a.clock ∧ BoundaryFrame a t ∧
      t.tb.mode = .locked ∧ t.tb.lastPulse = some a.clock ∧ t.tb.glitches = a.tb.glitches ∧
      (a.settings.divider = 2 → t.tb.phase = true) ∧ (a.settings.divider ≠ 2 → t.tb.phase = a.tb.phase) ∧
      flagSet .reference t = true ∧ Journaled a t t.tb.frame (.referenceState .unlocked .locked .firstPulse)

/-- A reference pulse in LOCKED is a glitch, the field pulse between boundaries, or a frame boundary (R6). What of the
boundary's work is done with the pulse itself is the model's choice (notes/assumptions/2). Of the boundary's tests, that a cue
which is suspended has no feed test made for it at that moment is the model's choice (notes/assumptions/36), and that a
position whose fetch a fault abandoned waits for the scan after the fault its reading of R169 (notes/assumptions/29). -/
def Obligations.LockedPulseIsGlitchFieldOrBoundary : Prop :=
  ∀ (m : Moment) (s a : State) (p o : Nat), Finds m s a → a.tb.mode = .locked → a.tb.lastPulse = some p →
    a.tb.origin = some o →
    (a.clock - p < glitchLimit a →
      exec (.referencePulse m) s = .next { a with tb := { a.tb with glitches := a.tb.glitches + 1 } }) ∧
    (glitchLimit a ≤ a.clock - p → a.settings.divider = 2 → a.tb.phase = true → a.clock - o < fieldLimit a →
      exec (.referencePulse m) s = .next { a with tb := { a.tb with lastPulse := some a.clock, phase := false } }) ∧
    (glitchLimit a ≤ a.clock - p →
      a.settings.divider ≠ 2 ∨ a.tb.phase = false ∨ fieldLimit a ≤ a.clock - o →
      ∃ t, exec (.referencePulse m) s = .next t ∧ FrameBegins a t a.clock ∧ BoundaryFrame a t ∧
        t.tb.mode = .locked ∧ t.tb.lastPulse = some a.clock ∧ t.tb.glitches = a.tb.glitches ∧
        (a.settings.divider = 2 → t.tb.phase = true) ∧ (a.settings.divider ≠ 2 → t.tb.phase = a.tb.phase))

/-- A reference pulse in FREEWHEEL locks TB: at half a period or later it snaps the phase with a frame boundary, and earlier
it realigns the frame (R9, R12). What of the boundary's work is done with the pulse is the model's choice
(notes/assumptions/2), and that the held tick of a realigned frame keeps the tick reached is its reading of R4 and R9
(notes/assumptions/23). Of the boundary's tests, that a cue which is suspended has no feed test made for it at that moment is
the model's choice (notes/assumptions/36), and that a position whose fetch a fault abandoned waits for the scan after the
fault its reading of R169 (notes/assumptions/29). -/
def Obligations.FreewheelPulseSnapsOrRealigns : Prop :=
  ∀ (m : Moment) (s a : State) (o : Nat), Finds m s a → a.tb.mode = .freewheel → a.tb.origin = some o →
    (framePeriod a / 2 ≤ a.clock - o →
      ∃ t, exec (.referencePulse m) s = .next t ∧ FrameBegins a t a.clock ∧ BoundaryFrame a t ∧
        t.tb.mode = .locked ∧ t.tb.lastPulse = some a.clock ∧ t.tb.glitches = a.tb.glitches ∧
        (a.settings.divider = 2 → t.tb.phase = true) ∧ (a.settings.divider ≠ 2 → t.tb.phase = a.tb.phase) ∧
        flagSet .reference t = true ∧ Journaled a t t.tb.frame (.referenceState .freewheel .locked .snap)) ∧
    (a.clock - o < framePeriod a / 2 →
      exec (.referencePulse m) s = .next (noted (.referenceState .freewheel .locked .realign) [.reference]
        { a with tb := { a.tb with
          mode := .locked, origin := some a.clock, lastPulse := some a.clock, heldTick := subTick a
          phase := if a.settings.divider = 2 then true else a.tb.phase } }))

/-- At the expiry of the loss interval TB makes a frame boundary whose origin is the old origin + P, and freewheels; at that
very count the first tick of the frame is 8 (R7, R12). What of the boundary's work is done with the expiry, and the place of
the REFERENCE_STATE record, is the model's choice (notes/assumptions/2), and so is an expiry that is taken after the
interval's end (notes/assumptions/8). Of the boundary's tests, that a cue which is suspended has no feed test made for it at
that moment is the model's choice (notes/assumptions/36), and that a position whose fetch a fault abandoned waits for the scan
after the fault its reading of R169 (notes/assumptions/29). -/
def Obligations.LossExpiryFreewheels : Prop :=
  ∀ (m : Moment) (s a : State) (o : Nat), Finds m s a → a.tb.mode = .locked → a.tb.origin = some o →
    o + lossCounts a ≤ a.clock →
    ∃ t, exec (.lossExpiry m) s = .next t ∧ FrameBegins a t (o + framePeriod a) ∧ BoundaryFrame a t ∧
      t.tb.mode = .freewheel ∧ t.tb.lastPulse = a.tb.lastPulse ∧ t.tb.phase = a.tb.phase ∧
      t.tb.glitches = a.tb.glitches ∧ flagSet .reference t = true ∧
      Journaled a t t.tb.frame (.referenceState .locked .freewheel .loss) ∧
      (a.clock = o + lossCounts a → subTick t = 8)

/-- Each expiry of the freewheel interval makes a frame boundary whose origin is the previous origin + P, and leaves the
mode, the last accepted pulse, the phase and the glitch count as they were (R8). What of the boundary's work is done with the
expiry is the model's choice (notes/assumptions/2), and so is an expiry that is taken after the interval's end
(notes/assumptions/8). Of the boundary's tests, that a cue which is suspended has no feed test made for it at that moment is
the model's choice (notes/assumptions/36), and that a position whose fetch a fault abandoned waits for the scan after the
fault its reading of R169 (notes/assumptions/29). -/
def Obligations.FreewheelExpiryKeepsExactSpacing : Prop :=
  ∀ (m : Moment) (s a : State) (o : Nat), Finds m s a → a.tb.mode = .freewheel → a.tb.origin = some o →
    o + framePeriod a ≤ a.clock →
    ∃ t, exec (.freewheelExpiry m) s = .next t ∧ FrameBegins a t (o + framePeriod a) ∧ BoundaryFrame a t ∧
      t.tb.mode = .freewheel ∧ t.tb.lastPulse = a.tb.lastPulse ∧ t.tb.phase = a.tb.phase ∧
      t.tb.glitches = a.tb.glitches

/-- A tick step hands out the tick, raises every line's step count, and at the sample period samples the line: the filter's
candidates, the accepted change and the capture count are those of R54, R55 and R56. That the tick step of a boundary is taken
after the boundary's own work is the model's choice (notes/assumptions/47). Of the writers' counters only rows
dropped may rise, by the overflow of live rows that an accepted cue sends back to the queue (R47, R49). -/
def Obligations.TickStepSamplesEveryLine : Prop :=
  ∀ (m : Moment) (s a : State), Finds m s a → a.tb.mode ≠ .unlocked →
    (a.tb.stepped = none ∨ ∃ n, a.tb.stepped = some n ∧ n < subTick a) →
    ∃ t, exec (.tickStep m) s = .next t ∧
      t.tb = { a.tb with heldTick := subTick a, stepped := some (subTick a) } ∧
      (t.ports = a.ports ∧ t.builders = a.builders ∧ t.est = a.est ∧ t.la = a.la ∧ t.out = a.out ∧ t.mem = a.mem
        ∧ t.settings = a.settings ∧ t.pending = a.pending) ∧
      (∀ w, { get t.counters w with rowsDropped := (get a.counters w).rowsDropped } = get a.counters w) ∧
      ∀ i : LineNo,
        let c := get a.capture i
        let set := get a.settings.lines i
        let level := get a.lines i
        (c.steps + 1 < set.period → get t.capture i = { c with steps := c.steps + 1 }) ∧
        (set.period ≤ c.steps + 1 → level = c.filtered →
          get t.capture i = { c with steps := 0, candidates := 0, candStamp := none }) ∧
        (set.period ≤ c.steps + 1 → level ≠ c.filtered → c.candidates + 1 < set.filter → c.candidates = 0 →
          get t.capture i = { c with steps := 0, candidates := 1, candStamp := some (stampNow a) }) ∧
        (set.period ≤ c.steps + 1 → level ≠ c.filtered → c.candidates + 1 < set.filter → 0 < c.candidates →
          c.candStamp.isSome = true →
          get t.capture i = { c with steps := 0, candidates := c.candidates + 1 }) ∧
        (set.period ≤ c.steps + 1 → level ≠ c.filtered → set.filter ≤ c.candidates + 1 →
          get t.capture i = { c with
            steps := 0, filtered := level, candidates := 0, candStamp := none
            captures := if isRunning a && edgeSelects set.edge level then c.captures + 1 else c.captures })

/-- A change accepted on a voice line in RUNNING, in the direction its edge selects, joins that line's onset list at the tail
with the stamp of its first sample and four clear marks; a full list loses its oldest first (R56, R58). A selected change on
a trigger line takes the cue at the head of its wait list, which becomes DUE with the captured frame as its start frame, and
the due list is tested: the cue waits, or is accepted onto an empty stack, over the live stream, whose waiting rows go back
to the queue, or over a running cue, which is suspended (R63, R113, R114, R127, R128, R130). With the list empty
TRIGGER_UNUSED is made (R63). A capture on a voice line that the lead's voice map names makes a silence test (R70, R91). For
these, no other line's change is judged in the same tick step. That a cue which is suspended has no feed test made for it at
that moment is the model's choice (notes/assumptions/36), and so is that the tick step of a boundary is taken after the
boundary's own work (notes/assumptions/47). -/
def Obligations.CapturesBecomeOnsetsAndTriggers : Prop :=
  ∀ (m : Moment) (s a : State) (i : LineNo), Finds m s a → a.tb.mode ≠ .unlocked →
    (a.tb.stepped = none ∨ ∃ n, a.tb.stepped = some n ∧ n < subTick a) → isRunning a = true →
    let c := get a.capture i
    let set := get a.settings.lines i
    let level := get a.lines i
    set.period ≤ c.steps + 1 → level ≠ c.filtered → set.filter ≤ c.candidates + 1 → edgeSelects set.edge level = true →
    ∀ first, (if c.candidates = 0 then stampNow a else c.candStamp.getD (stampNow a)) = first →
    ∃ t, exec (.tickStep m) s = .next t ∧
      (∀ v, voiceIndex i = some v →
        get t.lastOnset v = some first ∧
        get t.onsets v = (if 16 ≤ (get a.onsets v).length then (get a.onsets v).drop 1 else get a.onsets v)
          ++ [{ stamp := first, marks := Vector.replicate 4 false }]) ∧
      (∀ v, voiceIndex i = some v → (∀ x, x ≠ i → get a.lines x = (get a.capture x).filtered) →
        t.work = { a.work with silence := t.work.silence } ∧
        (t.work.silence = true ↔ a.work.silence = true ∨
          (Silent t ∧ ∃ w, a.la.lead = some w ∧ MapsLine (writerOf a w).voice v))) ∧
      (∀ j, voiceIndex i = none → cueIndex i = some j → get t.disp.waits j = (get a.disp.waits j).drop 1) ∧
      ∀ j, cueIndex i = some j → (∀ x, x ≠ i → get a.lines x = (get a.capture x).filtered) →
        (get a.disp.waits j = [] → Journaled a t a.tb.frame (.triggerUnused j first (frameOf first)) ∧ t.disp = a.disp) ∧
        ∀ n rest cue, get a.disp.waits j = n :: rest → cueOf a n = some cue → a.disp.due = [] →
          BecomesDue a t n cue (frameOf first)

/-- Frames are compared, the latest of a list is taken, tick stamps are subtracted and rounded to frames, and sums and ages
are formed, as R13 says, mod 2^28 and 2^32; a frame half the range away is on neither side at or after the other. -/
def Obligations.FramesCompareAcrossTheWrap : Prop :=
  let frames := fun (a b : Frame) => (2 ^ 28 - b.toNat + a.toNat) % 2 ^ 28
  let ticks := fun (a b : Stamp) => (2 ^ 32 - b.toNat + a.toNat) % 2 ^ 32
  (∀ a b : Frame, atOrAfter a b = true ↔ frames a b ≤ 2 ^ 27 - 1) ∧
  (∀ a b : Frame, later a b = true ↔ 1 ≤ frames a b ∧ frames a b ≤ 2 ^ 27 - 1) ∧
  (∀ a b : Frame, atOrBefore a b = true ↔ frames a b = 0 ∨ 2 ^ 27 ≤ frames a b) ∧
  (∀ a b : Frame, before a b = true ↔ 2 ^ 27 ≤ frames a b) ∧
  (∀ a b : Frame, frames a b = 2 ^ 27 → atOrAfter a b = false ∧ atOrAfter b a = false) ∧
  (∀ a : Frame, latestOf [a] = a) ∧
  (∀ (a : Frame) (rest : List Frame) (b : Frame),
    latestOf (a :: (rest ++ [b])) = if later b (latestOf (a :: rest)) then b else latestOf (a :: rest)) ∧
  (∀ a b : Stamp, (ticks a b < 2 ^ 31 → tickDiff a b = Int.ofNat (ticks a b)) ∧
    (2 ^ 31 ≤ ticks a b → tickDiff a b = Int.ofNat (ticks a b) - 4294967296)) ∧
  (∀ t : Stamp, (frameOf t).toNat = ((t.toNat + 8) % 2 ^ 32) / 16 % 2 ^ 28) ∧
  frameOf 4294967288 = 0 ∧ frameOf 4294967287 = 268435455 ∧
  (∀ (f : Frame) (n : Nat), (addFrames f n).toNat = (f.toNat + n) % 2 ^ 28) ∧
  (∀ (f : Frame) (tick : Nat), (stampOf f tick).toNat = (16 * f.toNat + tick) % 2 ^ 32) ∧
  ∀ a b : Frame, framesSince a b = frames a b

/-! ### The writer lines -/

/-- A character whose parity bit disagrees is dropped and counted, and nothing else changes but where the port looks for its
next start edge; one that fails the stop-bit test as well is counted as a framing error and not as a parity error (R26). -/
def Obligations.ParityErrorDropsTheCharacter : Prop :=
  ∀ (m : Moment) (w : Writer) (edges : List Nat) (s a : State) (d : Nat), Finds m s a → Receives a w edges d →
    parityAgrees (writerOf a w).parity (charByte edges d) (bitValue edges d 9) = false →
    (bitValue edges d (stopPosition (writerOf a w).parity) = true →
      exec (.characterAccepted m w edges) s = .next { a with
        ports := put a.ports w { portOf a w with lookFrom := a.clock }
        counters := change a.counters w (fun c => { c with parityErrors := c.parityErrors + 1 }) }) ∧
    (bitValue edges d (stopPosition (writerOf a w).parity) = false →
      ∃ t, exec (.characterAccepted m w edges) s = .next t ∧
        t.counters = change a.counters w (fun c => { c with framingErrors := c.framingErrors + 1 }))

/-- A character whose stop bit reads space is a framing error: counted, and the port leaves RUN for RESYNC, or in automatic
mode at the fourth for ACQUIRE seeking a break, with the record, attention WRITER, and the end of the writer's own handoff
(R27, R32, R90). That the count of consecutive framing errors stays at 4 in fixed mode is the model's reading
(notes/assumptions/21). -/
def Obligations.FramingErrorLeavesRun : Prop :=
  ∀ (m : Moment) (w : Writer) (edges : List Nat) (s a : State) (d : Nat), Finds m s a → Receives a w edges d →
    bitValue edges d (stopPosition (writerOf a w).parity) = false →
    let p := portOf a w
    let counted := change a.counters w (fun c => { c with framingErrors := c.framingErrors + 1 })
    ((writerOf a w).auto = false ∨ p.framing + 1 < 4 →
      exec (.characterAccepted m w edges) s = .next (noted (.writerState w .run .resync .framing (some d)) [.writer]
        { a with
          ports := put a.ports w { p with
            mode := .resync, framing := min 4 (p.framing + 1), since := a.clock, lookFrom := a.clock }
          counters := counted, la := withoutTaker w a.la })) ∧
    ((writerOf a w).auto = true → 4 ≤ p.framing + 1 →
      exec (.characterAccepted m w edges) s = .next (noted (.writerState w .run .acquire .framingLimit none) [.writer]
        { a with
          ports := put a.ports w { p with
            mode := .acquire, phase := some .seekBreak, divisor := none, startEdge := none, edges := [], measured := none
            framing := 0, since := a.clock, lookFrom := a.clock }
          counters := counted, la := withoutTaker w a.la }))

/-- A delivered byte is classified by its value; an ignored one is counted, and nothing of pause or silence changes (R29). -/
def Obligations.BytesAreClassifiedAndIgnoredOnesCounted : Prop :=
  (∀ b : Byte, classify b = .text ↔ (0x20 ≤ b.toNat ∧ b.toNat ≤ 0x7E) ∨ 0x80 ≤ b.toNat) ∧
  (classify 0x0D = .row ∧ classify 0x08 = .rub ∧ classify 0x17 = .rubWord ∧ classify 0x1E = .speaker
    ∧ classify 0x11 = .take ∧ classify 0x12 = .give) ∧
  (∀ b : Byte, classify b = .ignored ↔
    (b.toNat ≤ 0x1F ∧ b ≠ 0x0D ∧ b ≠ 0x08 ∧ b ≠ 0x17 ∧ b ≠ 0x1E ∧ b ≠ 0x11 ∧ b ≠ 0x12) ∨ b = 0x7F) ∧
  ∀ (m : Moment) (w : Writer) (edges : List Nat) (s a : State) (d : Nat) (ch : Byte), Finds m s a →
    ReceivesByte a w edges d ch → classify ch = .ignored →
    exec (.characterAccepted m w edges) s = .next { a with
      ports := put a.ports w { portOf a w with lookFrom := a.clock, framing := 0 }
      counters := change a.counters w (fun c => { c with
        characters := c.characters + 1
        noise := if charNoisy edges d (writerOf a w).parity then c.noise + 1 else c.noise
        ignoredCodes := c.ignoredCodes + 1 }) }

/-- A text character in a buffer of fewer than W characters is placed (R35); where it is no resumption, that and its delivery
(R25, R30, R31) are all that it does. -/
def Obligations.TextIsPlacedInTheBuffer : Prop :=
  ∀ (m : Moment) (w : Writer) (edges : List Nat) (s a : State) (d : Nat) (ch : Byte), Finds m s a →
    ReceivesByte a w edges d ch → classify ch = .text → (builderOf a w).chars.length < a.settings.rowWidth →
    ∃ t, exec (.characterAccepted m w edges) s = .next t ∧
      (let b := builderOf a w
       let stamp := stampNow a
       (b.chars = [] → ch = 0x20 → builderOf t w = b) ∧
       (b.chars = [] → ch ≠ 0x20 → b.markPending = false →
         builderOf t w = { b with chars := [⟨ch, stamp⟩], arrival := some stamp }) ∧
       (b.chars = [] → ch ≠ 0x20 → b.markPending = true →
         builderOf t w = { b with
           chars := [⟨0x3E, stamp⟩, ⟨0x3E, stamp⟩, ⟨0x20, stamp⟩, ⟨ch, stamp⟩], arrival := some stamp
           markHeld := true, markPending := false }) ∧
       (b.chars ≠ [] → builderOf t w = { b with chars := b.chars ++ [⟨ch, stamp⟩] })) ∧
      ((ch = 0x20 ∨ (portOf a w).pauseFlag = false) →
        t = { delivered w (charNoisy edges d (writerOf a w).parity) a with
          builders := put a.builders w (builderOf t w) })

/-- A text character that finds a full buffer. Where it is no space and the buffer holds a usable space, the row wraps at
the last one: the characters before it are closed with reason WRAP, and those after it are carried with their own stamps,
the character behind them or, with none carried, placed as the first of the new row (R36). With no usable space the whole
buffer is closed, and the character begins the new row; a space is dropped (R37). The closed row of the lead goes to the
live queue, or, with the live stream on top and nothing before it, into the schedule (R38, R47, R48). With a handoff pending
the lead's close passes the lead to the taker, with the silence test of a change of lead, and what was carried is closed too
(R87, R89, R91). -/
def Obligations.WrapCarriesTheLastWord : Prop :=
  ∀ (m : Moment) (w : Writer) (edges : List Nat) (s a : State) (d : Nat) (ch : Byte), Finds m s a →
    ReceivesByte a w edges d ch → classify ch = .text → a.settings.rowWidth ≤ (builderOf a w).chars.length →
    (builderOf a w).chars ≠ [] →
    let b := builderOf a w
    let u := delivered w (charNoisy edges d (writerOf a w).parity) a
    let mine : TextChar := ⟨ch, stampNow a⟩
    let emptied : Builder := { b with chars := [], arrival := none, heldId := none, markHeld := false }
    let closes := fun (closed next : Builder) =>
      ∃ t, exec (.characterAccepted m w edges) s = .next t ∧
        (t.mem = a.mem ∧ t.out = a.out ∧ t.pending = a.pending ∧ t.settings.delay = a.settings.delay) ∧
        (a.la.handoff = none →
          t.builders = put a.builders w next ∧
          (get t.counters w).rowsClosed = (get a.counters w).rowsClosed + 1 ∧
          (roleOf a w = .lead → b.heldId = none → t.nextRowId = a.nextRowId + 1) ∧
          (ch = 0x20 ∨ (portOf a w).pauseFlag = false →
            RowClosed w closed .wrap { u with builders := put a.builders w next } t ∧
            ∀ estimate, LiveTakes a w → (get a.est w).estimate = some estimate →
              RowEnters w closed .wrap estimate { u with builders := put a.builders w next } t)) ∧
        ∀ h, roleOf a w = .lead → a.la.lead = some w → a.la.handoff = some h → h.taker ≠ w →
          t.la = switched a.la w h.taker ∧ SilenceTested a t ∧ t.work = { a.work with silence := t.work.silence } ∧
          (builderOf t w).chars = [] ∧ (∀ v, v ≠ w → builderOf t v = builderOf a v) ∧ flagSet .lead t = true
    (∀ before sp after, ch ≠ 0x20 → b.chars = before ++ sp :: after → before ≠ [] → sp.ch = 0x20 →
      ¬(b.markHeld = true ∧ before.length = 2) →
      (∀ i c, before.length < i → b.chars[i]? = some c → c.ch = 0x20 → b.markHeld = true ∧ i = 2) →
      (∀ first more, after = first :: more →
        closes { b with chars := before } { emptied with chars := after ++ [mine], arrival := some first.stamp }) ∧
      (after = [] → b.markPending = false →
        closes { b with chars := before } { emptied with chars := [mine], arrival := some mine.stamp }) ∧
      (after = [] → b.markPending = true →
        closes { b with chars := before } { emptied with
          chars := [⟨0x3E, mine.stamp⟩, ⟨0x3E, mine.stamp⟩, ⟨0x20, mine.stamp⟩, mine], arrival := some mine.stamp
          markHeld := true, markPending := false })) ∧
    (ch ≠ 0x20 → (∀ (i : Nat) (c : TextChar), b.chars[i]? = some c → c.ch = 0x20 → b.markHeld = true ∧ i = 2) →
      closes b { emptied with chars := [mine], arrival := some mine.stamp }) ∧
    (ch = 0x20 → closes b emptied)

/-- The ROW code closes the buffer with reason ROW_CODE, and the SPEAKER code with reason SPEAKER, setting speaker mark
pending (R38, R39, R40): the lead's row, without its trailing spaces, takes the held or the next row id and waits in the live
queue while the live stream is not on top, and the head of a full queue is dropped, counted and journaled (R47); another
writer's row is discarded and counted. On an empty buffer nothing is closed. -/
def Obligations.RowCodeClosesTheBuffer : Prop :=
  ∀ (m : Moment) (w : Writer) (edges : List Nat) (s a : State) (d : Nat), Finds m s a →
    let b := builderOf a w
    let u := delivered w (charNoisy edges d (writerOf a w).parity) a
    let emptied : Builder := { b with chars := [], arrival := none, heldId := none, markHeld := false }
    (ReceivesByte a w edges d 0x0D →
      (b.chars = [] → exec (.characterAccepted m w edges) s = .next u) ∧
      (b.chars ≠ [] → a.la.handoff = none → ∃ t, exec (.characterAccepted m w edges) s = .next t ∧
        builderOf t w = emptied ∧ RowClosed w b .rowCode { u with builders := put a.builders w emptied } t)) ∧
    (ReceivesByte a w edges d 0x1E →
      (b.chars = [] → exec (.characterAccepted m w edges) s = .next { u with
        builders := put a.builders w { b with markPending := true } }) ∧
      (b.chars ≠ [] → a.la.handoff = none → ∃ t, exec (.characterAccepted m w edges) s = .next t ∧
        builderOf t w = { emptied with markPending := true } ∧
        RowClosed w b .speaker { u with builders := put a.builders w { emptied with markPending := true } } t))

/-- On a buffer that holds characters RUB removes the last one (R41), and RUBWORD the spaces at the end and then the
characters back to the nearest space that is left, or all (R42). A mark that has lost a character is held no more, and an
emptied buffer has no arrival tick and holds no row id. -/
def Obligations.RubRemovesTheLastCharacter : Prop :=
  ∀ (m : Moment) (w : Writer) (edges : List Nat) (s a : State) (d : Nat) (front : List TextChar), Finds m s a →
    let b := builderOf a w
    let u := delivered w (charNoisy edges d (writerOf a w).parity) a
    let leaves :=
      (front = [] → exec (.characterAccepted m w edges) s = .next { u with
        builders := put a.builders w { b with chars := [], arrival := none, heldId := none, markHeld := false } }) ∧
      (front ≠ [] → exec (.characterAccepted m w edges) s = .next { u with
        builders := put a.builders w { b with chars := front, markHeld := b.markHeld && decide (3 ≤ front.length) } })
    (∀ last, ReceivesByte a w edges d 0x08 → b.chars = front ++ [last] → leaves) ∧
    ∀ word spaces, ReceivesByte a w edges d 0x17 → b.chars = front ++ word ++ spaces → b.chars ≠ [] →
      (∀ c ∈ spaces, c.ch = 0x20) → (∀ c ∈ word, c.ch ≠ 0x20) → (∀ c, front.getLast? = some c → c.ch = 0x20) →
      (word = [] → front = []) → leaves

/-- RUB or RUBWORD on an empty buffer. Where writer w is LEAD, the row at the tail of the live queue that w closed, or with the
queue empty and the live stream on top the last entry of the schedule, of which no unit has been sent and whose row w closed,
is taken back: its text returns with its arrival tick, and the correction is made there, by RUB of its last character and by
RUBWORD of its last word; a row that it empties is gone, and its id with it. The schedule's record is that of the entries left
(R41, R42, R43, R112, R116). Otherwise the correction is refused and counted, and for the lead journaled with the code and the
reason (R44). That R43's conditions hold in the same way after a correction has emptied a reopened row is the model's choice
(notes/assumptions/41). -/
def Obligations.RubReopensOrIsRefused : Prop :=
  ∀ (m : Moment) (w : Writer) (edges : List Nat) (s a : State) (d : Nat) (code : Byte) (word : Bool), Finds m s a →
    (code = 0x08 ∧ word = false) ∨ (code = 0x17 ∧ word = true) → ReceivesByte a w edges d code → (builderOf a w).chars = [] →
    let u := delivered w (charNoisy edges d (writerOf a w).parity) a
    let refused := { u with
      counters := change u.counters w (fun c => { c with refused := c.refused + 1 }) }
    let refusedFor := fun (reason : RefuseReason) =>
      exec (.characterAccepted m w edges) s = .next (noted (.correctionRefused w word reason) [] refused)
    let reopened := fun (r : Row) (left : List Byte) (arrival : Stamp) (mark : Bool) =>
      put a.builders w (if left = [] then { builderOf a w with chars := [], arrival := none, heldId := none, markHeld := false }
        else { builderOf a w with
          chars := left.map (fun c => ⟨c, arrival⟩), arrival := some arrival, heldId := some r.id
          markHeld := mark && decide (3 ≤ left.length) })
    (roleOf a w ≠ .lead → exec (.characterAccepted m w edges) s = .next refused) ∧
    (roleOf a w = .lead → ∀ front r, a.queue = front ++ [r] →
      (∀ arrival reason mark left, r.source = .live w arrival reason mark → CorrectionLeaves word r.text left →
        exec (.characterAccepted m w edges) s = .next { u with
          queue := front, builders := reopened r left arrival mark }) ∧
      (∀ v arrival reason mark, r.source = .live v arrival reason mark → v ≠ w → refusedFor .otherWriter)) ∧
    (roleOf a w = .lead → a.queue = [] → ∀ kept e, a.air.entries = kept ++ [e] →
      (∀ n pos start offset hold fresh clamped, e.row.source = .cue n pos start offset hold fresh clamped →
        refusedFor .notLive) ∧
      ∀ v arrival reason mark, e.row.source = .live v arrival reason mark →
      (v ≠ w → refusedFor .otherWriter) ∧
      (v = w → 0 < e.sent → refusedFor .onAirPath) ∧
      (v = w → e.sent = 0 → topOwner a ≠ some .live → refusedFor .notLive) ∧
      (∀ left, v = w → e.sent = 0 → topOwner a = some .live → CorrectionLeaves word e.row.text left →
        ∃ t, exec (.characterAccepted m w edges) s = .next t ∧
          t = { u with builders := reopened e.row left arrival mark, air := t.air } ∧
          t.air = { a.air with
            entries := kept, horizon := t.air.horizon, bufFree := t.air.bufFree, clear := t.air.clear } ∧
          (kept = [] → t.air.horizon = none) ∧
          (∀ x, kept.getLast? = some x → t.air.horizon = some (x.stagedBy + 1)) ∧
          (∀ b : BufferNo, get t.air.bufFree b = match kept.reverse.find? (fun x => x.buffer == b) with
            | some x => some (x.showAt + 1)
            | none => (a.out.mirror.reverse.find? (fun r => r.buffer == b && !r.past)).map (fun r => r.showAt + 1)) ∧
          (kept ≠ [] → t.air.clear = a.air.clear) ∧
          (kept = [] → t.air.clear = match a.out.mirror.getLast? with
            | none => none
            | some r =>
              if a.settings.linger = 0 then none
              else if r.past then some a.tb.frame
              else some (r.showAt + BitVec.ofNat 28 (max a.settings.linger r.hold))))) ∧
    (roleOf a w = .lead → a.queue = [] → a.air.entries = [] →
      refusedFor (if topOwner a = some .live then .none else .notLive))
/-- TAKE and GIVE (R85, R86): a TAKE without a lead gives its writer the lead with reason TAKE, with the live stream on an
empty stack at once (R123); a TAKE with a lead makes its writer the taker, is refused while another is the taker, and does
nothing from the taker or the lead itself; a GIVE from a lead without a taker is journaled, and one from another writer does
nothing. The change of lead makes a silence test (R91); that the silence counter has then not yet returned to 0 is the model's
choice (notes/assumptions/30). -/
def Obligations.TakeAndGiveWithoutASwitch : Prop :=
  ∀ (m : Moment) (w : Writer) (edges : List Nat) (s a : State) (d : Nat), Finds m s a →
    let u := delivered w (charNoisy edges d (writerOf a w).parity) a
    (ReceivesByte a w edges d 0x11 → a.la.lead = none →
      ∃ t, exec (.characterAccepted m w edges) s = .next t ∧
        t.la = { a.la with lead := some w, roles := put a.la.roles w .lead, silenceReported := false } ∧
        flagSet .lead t = true ∧ Journaled a t a.tb.frame (.leadChange none (some w) .take 0) ∧
        DisplayFrame { u with la := t.la, work := { a.work with silence := t.work.silence } } t ∧
        SilenceTested a { t with ports := a.ports } ∧
        (a.disp.stack = [] → a.disp.due = [] → t.disp = { a.disp with stack := [.live], place := .inStack })) ∧
    ∀ lead, a.la.lead = some lead →
    (ReceivesByte a w edges d 0x11 → lead ≠ w → a.la.handoff = none →
      exec (.characterAccepted m w edges) s = .next { u with la := { a.la with
        roles := put a.la.roles w .taking, handoff := some { taker := w, waited := 0 } } }) ∧
    (ReceivesByte a w edges d 0x11 → lead ≠ w → ∀ h, a.la.handoff = some h → h.taker ≠ w →
      exec (.characterAccepted m w edges) s = .next (noted (.handoffRefused w h.taker lead) [] u)) ∧
    (ReceivesByte a w edges d 0x11 → (lead = w ∨ ∃ h, a.la.handoff = some h ∧ h.taker = w) →
      exec (.characterAccepted m w edges) s = .next u) ∧
    (ReceivesByte a w edges d 0x12 → lead = w → a.la.handoff = none →
      exec (.characterAccepted m w edges) s = .next (noted (.giveIgnored w) [] u)) ∧
    (ReceivesByte a w edges d 0x12 → lead ≠ w → exec (.characterAccepted m w edges) s = .next u)

/-- With a handoff pending, GIVE from the lead switches the lead to the taker with reason GIVE (R86, R89), and the ROW code
of the lead, whose buffer holds a row, closes the row and passes the lead on with reason TAKE (R38, R87, R89); while the live
stream is not on top the row waits in the queue, and the change of lead is the first record made. Each change of lead makes a
silence test (R91). -/
def Obligations.GiveAndRowCodeCompleteAHandoff : Prop :=
  ∀ (m : Moment) (w : Writer) (edges : List Nat) (s a : State) (d : Nat) (h : Handoff), Finds m s a →
    a.la.lead = some w → a.la.handoff = some h → h.taker ≠ w →
    let b := builderOf a w
    let u := delivered w (charNoisy edges d (writerOf a w).parity) a
    let emptied : Builder := { b with chars := [], arrival := none, heldId := none, markHeld := false }
    (ReceivesByte a w edges d 0x12 →
      ∃ t, exec (.characterAccepted m w edges) s = .next t ∧ LeadSwitched u t w h.taker .give h.waited) ∧
    (ReceivesByte a w edges d 0x0D → roleOf a w = .lead → b.chars ≠ [] →
      ∃ t, exec (.characterAccepted m w edges) s = .next t ∧
        t.la = switched a.la w h.taker ∧ SilenceTested a t ∧
        t.builders = put a.builders w emptied ∧ flagSet .lead t = true ∧
        DisplayFrame { u with
          la := t.la, builders := t.builders, work := { a.work with silence := t.work.silence } } t ∧
        (topOwner a ≠ some .live → a.queue.length < 8 →
          Journaled u t a.tb.frame (.leadChange (some w) (some h.taker) .take h.waited) ∧
          ∃ r, ClosedAs r w b .rowCode (b.heldId.getD a.nextRowId) ∧ t.queue = a.queue ++ [r] ∧
            t.nextRowId = (if b.heldId.isSome then a.nextRowId else a.nextRowId + 1)))

/-- The first printing character after a pause gives a latency sample (R70 to R77). With no candidate among the onsets that
the writer's voice map names it is unmatched. Of several candidates the nearest to the estimate is chosen, and of two as near
the later; it is consumed for the writer, both members of a pair of one stamp with it, and its sample is accepted, rejected,
or at the third reject reseeds, which is journaled for a writer who is LEAD or TAKING. Beside that the character does what a
text character does. -/
def Obligations.ResumptionGivesALatencySample : Prop :=
  ∀ (m : Moment) (w : Writer) (edges : List Nat) (s a : State) (d : Nat) (ch : Byte) (estimate : Nat), Finds m s a →
    ReceivesByte a w edges d ch → classify ch = .text → ch ≠ 0x20 → (portOf a w).pauseFlag = true →
    (get a.est w).estimate = some estimate →
    let room := (builderOf a w).chars.length < a.settings.rowWidth
    ∃ t, exec (.characterAccepted m w edges) s = .next t ∧ (portOf t w).pauseFlag = false ∧
      (∀ v, v ≠ w → get t.est v = get a.est v) ∧
      (room → t = { delivered w (charNoisy edges d (writerOf a w).parity) a with
        ports := t.ports, builders := put a.builders w (builderOf t w), counters := put a.counters w (get t.counters w)
        est := t.est, onsets := t.onsets, pe := t.pe, control := { a.control with attn := t.control.attn } }) ∧
      ((∀ o, ¬Candidate a w (stampNow a) o) →
        t.est = a.est ∧ t.onsets = a.onsets ∧ (get t.counters w).unmatched = (get a.counters w).unmatched + 1 ∧
        (room → t.pe = a.pe)) ∧
      ∀ (o : Stamp) (x : Nat), Chosen a w (stampNow a) estimate o → tickDiff (stampNow a) o = x →
        let k := a.settings.smooth
        let high := 16 * max a.settings.lmin a.settings.lmax
        let apart := (estimate - x) + (x - estimate)
        (∀ v, (¬MapsLine (writerOf a w).voice v → get t.onsets v = get a.onsets v) ∧
          (MapsLine (writerOf a w).voice v → get t.onsets v = (get a.onsets v).map (fun y =>
            if y.stamp = o then { y with marks := put y.marks w true } else y))) ∧
        (get t.counters w).unmatched = (get a.counters w).unmatched ∧
        (a.settings.gate = 0 ∨ apart ≤ a.settings.gate →
          get t.est w = { rejects := 0, estimate := some (clampTo (16 * a.settings.lmin) high
            (if estimate ≤ x then estimate + (x - estimate + 2 ^ (k - 1)) / 2 ^ k
             else estimate - (estimate - x + 2 ^ (k - 1)) / 2 ^ k)) } ∧
          (get t.counters w).accepted = (get a.counters w).accepted + 1 ∧ (room → t.pe = a.pe)) ∧
        (a.settings.gate ≠ 0 → a.settings.gate < apart → (get a.est w).rejects + 1 < 3 →
          get t.est w = { estimate := some estimate, rejects := (get a.est w).rejects + 1 } ∧
          (get t.counters w).rejected = (get a.counters w).rejected + 1 ∧ (room → t.pe = a.pe)) ∧
        (a.settings.gate ≠ 0 → a.settings.gate < apart → 3 ≤ (get a.est w).rejects + 1 →
          get t.est w = { estimate := some x, rejects := 0 } ∧
          (get t.counters w).accepted = (get a.counters w).accepted + 1 ∧
          (get t.counters w).rejected = (get a.counters w).rejected ∧
          (roleOf t w ≠ .standby → Recorded t (.latencyReseed w estimate x o (stampNow a)) ∧
            (room → Journaled a t a.tb.frame (.latencyReseed w estimate x o (stampNow a)))) ∧
          (roleOf t w = .standby → room → t.pe = a.pe))

/-- 540,000 counts of space in SEEK_BREAK are a break, and the falling edge after it is the start edge of the alignment
character (R20). -/
def Obligations.BreakThenStartEdgeBeginTheMeasurement : Prop :=
  ∀ (m : Moment) (w : Writer) (s a : State), Finds m s a → (portOf a w).mode = .acquire →
    (∀ space, (portOf a w).phase = some .seekBreak → 540000 ≤ space → 540000 ≤ a.clock - (portOf a w).since →
      exec (.breakSeen m w space) s = .next { a with
        ports := put a.ports w { portOf a w with phase := some .breakSeen } }) ∧
    ((portOf a w).phase = some .breakSeen →
      exec (.alignmentStartEdge m w) s = .next { a with
        ports := put a.ports w { portOf a w with phase := some .measure, startEdge := some a.clock, edges := [] } })

/-- The span of the alignment character gives the divisor (2 × span + 7) div 14 and moves the port to CHECK, where the bits
already past are judged at once against the alignment character 0x3C; a span out of range, or a bit that reads wrong, is an
alignment error (R21, R22, R23). -/
def Obligations.SpanGivesTheDivisorOrAnAlignmentError : Prop :=
  (∀ p : Parity, (List.range 9).map (alignmentBit p) = [false, false, false, true, true, true, true, false, false]) ∧
  (alignmentBit .none 9 = true ∧ alignmentBit .even 9 = false ∧ alignmentBit .odd 9 = true ∧
    alignmentBit .even 10 = true ∧ alignmentBit .odd 10 = true) ∧
  (∀ span : Nat, 1635 ≤ span → span ≤ 157503 → 234 ≤ (2 * span + 7) / 14 ∧ (2 * span + 7) / 14 ≤ 22500) ∧
  ∀ (m : Moment) (w : Writer) (s a : State) (e : Nat), Finds m s a → (portOf a w).mode = .acquire →
    (portOf a w).phase = some .measure → (portOf a w).startEdge = some e →
    let span := a.clock - e
    let d := (2 * span + 7) / 14
    let p := portOf a w
    let failed := { a with
      ports := put a.ports w { p with
        phase := some .seekBreak, startEdge := none, edges := [], measured := none, since := a.clock }
      counters := change a.counters w (fun c => { c with alignmentErrors := c.alignmentErrors + 1 }) }
    (157504 ≤ span → exec (.spanTooLong m w) s = .next failed) ∧
    ∀ rise,
      (span ≤ 1634 ∨ 157504 ≤ span → exec (.spanMeasured m w rise) s = .next failed) ∧
      (1635 ≤ span → span ≤ 157503 →
        (∀ i, i < 7 → bitValue [rise, span] d i = alignmentBit (writerOf a w).parity i) →
        exec (.spanMeasured m w rise) s = .next { a with
          ports := put a.ports w { p with phase := some .check, measured := some d, edges := [rise, span] } }) ∧
      (1635 ≤ span → span ≤ 157503 →
        (∃ i, i < 7 ∧ bitValue [rise, span] d i ≠ alignmentBit (writerOf a w).parity i) →
        exec (.spanMeasured m w rise) s = .next failed)

/-- At the third sample of the stop bit of an alignment character that reads 0x3C with its parity the port enters RUN with
the measured divisor, journaled without attention; a bit judged wrong before is an alignment error (R22, R23, R32). -/
def Obligations.AlignmentCharacterIsAcceptedOrFails : Prop :=
  (∀ p : Parity, (List.range 9).map (alignmentBit p) = [false, false, false, true, true, true, true, false, false]) ∧
  (alignmentBit .none 9 = true ∧ alignmentBit .even 9 = false ∧ alignmentBit .odd 9 = true ∧
    alignmentBit .even 10 = true ∧ alignmentBit .odd 10 = true) ∧
  ∀ (m : Moment) (w : Writer) (later : List Nat) (s a : State) (e d : Nat), Finds m s a →
    (portOf a w).mode = .acquire → (portOf a w).phase = some .check → (portOf a w).startEdge = some e →
    (portOf a w).measured = some d →
    let p := portOf a w
    let parity := (writerOf a w).parity
    let stop := stopPosition parity
    (thirdSample d stop ≤ a.clock - e →
      (∀ i, 7 ≤ i → i ≤ stop → bitValue (p.edges ++ later) d i = alignmentBit parity i) →
      exec (.alignmentCharacter m w later) s = .next (noted (.writerState w .acquire .run .aligned (some d)) []
        { a with ports := put a.ports w { p with
          mode := .run, phase := none, divisor := some d, startEdge := none, edges := [], measured := none
          framing := 0, lookFrom := a.clock } })) ∧
    ((∃ i, 7 ≤ i ∧ i ≤ stop ∧ thirdSample d i ≤ a.clock - e ∧ bitValue (p.edges ++ later) d i ≠ alignmentBit parity i) →
      exec (.alignmentCharacter m w later) s = .next { a with
        ports := put a.ports w { p with
          phase := some .seekBreak, startEdge := none, edges := [], measured := none, since := a.clock }
        counters := change a.counters w (fun c => { c with alignmentErrors := c.alignmentErrors + 1 }) })

/-- In RESYNC ten bit times of mark return the port to RUN, and in automatic mode 540,000 counts of space send it to ACQUIRE
in phase BREAK_SEEN; both are journaled without attention (R24, R28, R32). -/
def Obligations.ResyncEndsAtMarkOrAtABreak : Prop :=
  ∀ (m : Moment) (w : Writer) (s a : State), Finds m s a → (portOf a w).mode = .resync →
    let p := portOf a w
    (∀ mark d, p.divisor = some d → 10 * d ≤ mark → 10 * d ≤ a.clock - p.since →
      exec (.resyncEnd m w mark) s = .next (noted (.writerState w .resync .run .resyncEnd (some d)) []
        { a with ports := put a.ports w { p with
          mode := .run, phase := none, divisor := some d, startEdge := none, edges := [], measured := none
          lookFrom := a.clock } })) ∧
    ∀ space, (writerOf a w).auto = true → 540000 ≤ space → 540000 ≤ a.clock - p.since →
      exec (.resyncBreak m w space) s = .next (noted (.writerState w .resync .acquire .brk none) []
        { a with ports := put a.ports w { p with
          mode := .acquire, phase := some .breakSeen, divisor := none, startEdge := none, edges := [], measured := none
          framing := 0, since := a.clock } })

/-! ### Pieces of a boundary's work -/

/-- The pause test at a boundary: with pause armed and P_idle reached the flag is set, pause armed cleared, and the buffer
closed with reason PAUSE (R30, R38, R39). -/
def Obligations.PauseEventClosesTheBuffer : Prop :=
  ∀ (m : Moment) (w : Writer) (s a : State), FindsPiece m s a → get a.work.pause w = true → (portOf a w).mode ≠ .off →
    (portOf a w).pauseArmed = true → a.settings.pauseFrames ≤ (portOf a w).pauseCount →
    let b := builderOf a w
    let u := { a with
      work := { a.work with pause := put a.work.pause w false }
      ports := put a.ports w { portOf a w with pauseArmed := false, pauseFlag := true } }
    let emptied : Builder := { b with chars := [], arrival := none, heldId := none, markHeld := false }
    (b.chars = [] → exec (.pauseEvent m w) s = .next u) ∧
    (b.chars ≠ [] → roleOf a w ≠ .lead →
      exec (.pauseEvent m w) s = .next { u with
        builders := put a.builders w emptied
        counters := change a.counters w (fun c => { c with
          rowsClosed := c.rowsClosed + 1, rowsDropped := c.rowsDropped + 1 }) }) ∧
    (b.chars ≠ [] → roleOf a w = .lead → a.la.handoff = none → topOwner a ≠ some .live → a.queue.length < 8 →
      exec (.pauseEvent m w) s = .next { u with
        builders := put a.builders w emptied
        counters := change a.counters w (fun c => { c with rowsClosed := c.rowsClosed + 1 })
        queue := a.queue ++ [closedRow w b .pause (b.heldId.getD a.nextRowId)]
        nextRowId := if b.heldId.isSome then a.nextRowId else a.nextRowId + 1 })

/-- A handoff that has waited H frames at a boundary, H not being 0, ends in a switch to the taker with reason TIMEOUT (R88,
R89). -/
def Obligations.HandoffTimeoutSwitchesTheLead : Prop :=
  ∀ (m : Moment) (s a : State) (lead : Writer) (h : Handoff), FindsPiece m s a → a.work.timeout = true →
    a.la.lead = some lead → a.la.handoff = some h → a.settings.handoffFrames ≠ 0 → a.settings.handoffFrames ≤ h.waited →
    ∃ t, exec (.handoffTimeout m) s = .next t ∧
      LeadSwitched { a with work := { a.work with timeout := false } } t lead h.taker .timeout h.waited

/-- The lead is silent exactly where the silence limit is not 0, its silence counter has reached it, and speech is present on a
voice line that its voice map names: a last onset no more than 16 × S ticks old, or a line that is active (R91). A silent lead
passes the lead to the taker, else to its relay partner in RUN, and else is reported once an episode (R92). -/
def Obligations.SilentLeadFailsOverOrIsReported : Prop :=
  (∀ s : State, leadSilent s = true ↔ Silent s) ∧
  ∀ (m : Moment) (s a : State) (w : Writer), FindsPiece m s a → a.work.silence = true → Silent a →
    a.la.lead = some w →
    let u := { a with work := { a.work with silence := false } }
    (∀ h, a.la.handoff = some h →
      ∃ t, exec (.silentLead m) s = .next t ∧ LeadSwitched u t w h.taker .failover h.waited) ∧
    (∀ p, a.la.handoff = none → (writerOf a w).partner = some p → (portOf a p).mode = .run →
      ∃ t, exec (.silentLead m) s = .next t ∧ LeadSwitched u t w p .failover 0) ∧
    (a.la.handoff = none → (∀ p, (writerOf a w).partner = some p → (portOf a p).mode ≠ .run) →
      (a.la.silenceReported = true → exec (.silentLead m) s = .next u) ∧
      (a.la.silenceReported = false →
        exec (.silentLead m) s = .next (noted
          (.writerState w (portOf a w).mode (portOf a w).mode .silent (portOf a w).divisor) [.writer]
          { u with la := { a.la with silenceReported := true } })))

/-- At a boundary onsets more than 16 × Lmax' + 16 ticks old are removed, and a last onset more than 16 × 4,095 ticks old
becomes absent (R59); a buffer free frame that the present frame has reached becomes absent (R103); and a mirror row shown
4,096 frames before is marked past (R147). -/
def Obligations.OldTimesLapseAtABoundary : Prop :=
  ∀ (m : Moment) (s a : State), FindsPiece m s a →
    let now := stampOf a.tb.frame 0
    (a.work.onsets = true →
      ∃ t, exec (.onsetAged m) s = .next t ∧
        t = { a with onsets := t.onsets, work := { a.work with onsets := false } } ∧
        ∀ v, get t.onsets v = (get a.onsets v).filter (fun o =>
          decide (tickDiff now o.stamp ≤ 16 * max a.settings.lmin a.settings.lmax + 16))) ∧
    (a.work.lastOnsets = true →
      ∃ t, exec (.lastOnsetLapse m) s = .next t ∧
        t = { a with lastOnset := t.lastOnset, work := { a.work with lastOnsets := false } } ∧
        ∀ v, (∀ o, get a.lastOnset v = some o → 65520 < tickDiff now o → get t.lastOnset v = none) ∧
          (∀ o, get a.lastOnset v = some o → tickDiff now o ≤ 65520 → get t.lastOnset v = some o) ∧
          (get a.lastOnset v = none → get t.lastOnset v = none)) ∧
    (a.work.buffers = true →
      ∃ t, exec (.bufferFreeLapse m) s = .next t ∧
        t = { a with air := { a.air with bufFree := t.air.bufFree }, work := { a.work with buffers := false } } ∧
        ∀ b, (∀ f, get a.air.bufFree b = some f → later f a.tb.frame = false → get t.air.bufFree b = none) ∧
          (∀ f, get a.air.bufFree b = some f → later f a.tb.frame = true → get t.air.bufFree b = some f) ∧
          (get a.air.bufFree b = none → get t.air.bufFree b = none)) ∧
    (a.work.mirror = true →
      exec (.mirrorPast m) s = .next { a with
        work := { a.work with mirror := false }
        out := { a.out with mirror := a.out.mirror.map (fun r =>
          { r with past := r.past || decide ((a.tb.frame - r.showAt).toNat = 4096) }) } })

/-- At a boundary every watched cue whose start frame is not later than the present frame leaves the watch and becomes DUE
with that start frame, and the due list is tested; the other watched cues stay (R127, R128). Where one cue becomes DUE and no
other is due, its record and the outcome of that test are those of its due arrival. That a cue which this test suspends has
no feed test made for it at that moment is the model's choice (notes/assumptions/36). -/
def Obligations.AtFrameCuesBecomeDue : Prop :=
  ∀ (m : Moment) (s a : State), FindsPiece m s a → a.work.atFrame = true →
    ∃ t, exec (.atFrameDue m) s = .next t ∧ DisplayFrame { a with work := { a.work with atFrame := false } } t ∧
      (∀ n c, n ∈ a.disp.watch → cueOf a n = some c → later c.startFrame a.tb.frame = false →
        n ∉ t.disp.watch ∧
        ∃ st, (st = .due ∨ st = .running) ∧
          cueOf t n = some { c with state := st, dueFrame := some a.tb.frame, start := some c.startFrame }) ∧
      (∀ n c, n ∈ a.disp.watch → cueOf a n = some c → later c.startFrame a.tb.frame = true → n ∈ t.disp.watch) ∧
      ∀ front n back c, a.disp.watch = front ++ n :: back → a.disp.due = [] → cueOf a n = some c →
        later c.startFrame a.tb.frame = false →
        (∀ i x, i ∈ front ∨ i ∈ back → i ≠ n ∧ (cueOf a i = some x → later x.startFrame a.tb.frame = true)) →
        BecomesDue a t n c c.startFrame

/-- At a boundary every due cue whose wait limit is reached becomes EXPIRED with reason WAIT and leaves the due list; the
others stay as they are (R129). The boundary's test of the due list has been made. -/
def Obligations.DueCuesExpire : Prop :=
  ∀ (m : Moment) (s a : State), FindsPiece m s a → a.work.expiry = true → a.work.atFrame = false →
    ∃ t, exec (.cueWaitExpired m) s = .next t ∧ DisplayFrame { a with work := { a.work with expiry := false } } t ∧
      (∀ n c f, n ∈ a.disp.due → cueOf a n = some c → c.waitLimit ≠ 0 → c.dueFrame = some f →
        atOrAfter a.tb.frame (f + BitVec.ofNat 28 c.waitLimit) = true →
        n ∉ t.disp.due ∧ cueOf t n = some { c with state := .expired, reason := .wait } ∧ flagSet .cue t = true) ∧
      (∀ n c, n ∈ a.disp.due → cueOf a n = some c → c.waitLimit = 0 → n ∈ t.disp.due ∧ cueOf t n = some c) ∧
      ∀ n c f, n ∈ a.disp.due → cueOf a n = some c → c.dueFrame = some f →
        atOrAfter a.tb.frame (f + BitVec.ofNat 28 c.waitLimit) = false → n ∈ t.disp.due ∧ cueOf t n = some c

/-- The slot that shows the head entry: SHOW, or SHOW_FRESH for a fresh row, is its first unit, and the row leaves the schedule
for the mirror, which holds at most R rows or after SHOW_FRESH the row alone (R111, R142, R147, R187). With the schedule then
empty the horizon becomes absent and the pending clear is set (R111, R116). A live row is counted, and so is a cue row in its
cue, which is DONE where it is complete (R135, R148); ROW_SHOWN is made; and a feed attempt follows (R48, R111). The staging
units are those of the schedule as all this leaves it (R143), which is the model's reading (notes/assumptions/13). -/
def Obligations.ShowPutsTheHeadOnScreen : Prop :=
  ∀ (m : Moment) (s a : State) (e : Entry) (rest : List Entry), FindsPiece m s a → a.work.slot = true →
    a.control.runState = .running → a.out.owed = .none → a.air.entries = e :: rest → e.showAt = a.tb.frame →
    let shown : MirrorRow :=
      { row := e.row, showAt := e.showAt, hold := e.hold, buffer := e.buffer, flags := e.flags, past := false }
    let mirror :=
      if isFresh e.row then [shown]
      else if a.out.mirror.length < a.settings.displayRows then a.out.mirror ++ [shown]
      else (a.out.mirror ++ [shown]).drop 1
    let clear :=
      if rest ≠ [] then a.air.clear
      else if a.settings.linger = 0 ∨ mirror = [] then none
      else some (e.showAt + BitVec.ofNat 28 (max a.settings.linger e.hold))
    let u := { a with
      work := { a.work with slot := false }
      out := { a.out with mirror := mirror }
      air := { a.air with entries := rest, horizon := if rest = [] then none else a.air.horizon, clear := clear } }
    let record : Record := .rowShown e (isFresh e.row) (get a.out.completion e.buffer)
    ∃ t v q, exec (.showRow m) s = .next t ∧ SlotFrame { a with work := { a.work with slot := false } } t ∧
      t = { v with out := t.out, air := { v.air with entries := q.entries } } ∧ t.out.mirror = mirror ∧
      begun v.air.entries = begun rest ∧
      SlotSent a.tb.frame a.settings.slotUnits [BitVec.ofNat 8 ((if isFresh e.row then 0x14 else 0x10) + e.buffer.val)]
        { entries := v.air.entries, cursor := a.out.cursor, completion := a.out.completion } q t.out ∧
      Recorded t record ∧
      (∀ w arrival reason mark, e.row.source = .live w arrival reason mark →
        (get t.counters w).rowsShown = (get a.counters w).rowsShown + 1 ∧ Journaled a t a.tb.frame record ∧
        (NothingFeeds u → v.air = u.air ∧ v.queue = a.queue) ∧
        ∀ r x stamp cause held estimate, ¬NothingFeeds u → a.queue = [r] → r.source = .live x stamp cause held →
          (get a.est x).estimate = some estimate → v.queue = [] ∧ LiveOffered u v r x stamp estimate) ∧
      ∀ n pos start offset hold fresh clamped c, e.row.source = .cue n pos start offset hold fresh clamped →
        cueOf a n = some c →
        let counted : Cue := { c with shown := c.shown + 1 }
        get t.pe.marks n = true ∧
        ((∀ k x, .ctx k ∈ a.disp.stack → ctxOf a k = some x → x.slot ≠ n) →
          cueOf t n = some counted ∧ Journaled a t a.tb.frame record ∧ t.disp.stack = a.disp.stack) ∧
        ∀ k x, .ctx k ∈ a.disp.stack → ctxOf a k = some x → x.slot = n →
          (∀ j y, ctxOf a j = some y → y.slot = n → j = k) →
          let complete := x.next = c.rowCount ∧ x.fetch = .none ∧ ∀ y ∈ rest, isCueEntry n y = false
          (¬complete → cueOf t n = some counted ∧ Journaled a t a.tb.frame record ∧ t.disp.stack = a.disp.stack) ∧
          (complete → a.disp.due = [] → a.disp.place ≠ .waiting → CueDone u v k n counted)

/-- The slot of a boundary that the pending clear frame has reached carries CLEAR as its first unit, empties the mirror, and
ends the pending clear (R116, R142, R147, R187). The staging units follow it (R143). -/
def Obligations.PendingClearEmptiesTheScreen : Prop :=
  ∀ (m : Moment) (s a : State) (f : Frame), FindsPiece m s a → a.work.slot = true → a.control.runState = .running →
    a.out.owed = .none → showDue a = false → a.air.clear = some f → atOrAfter a.tb.frame f = true →
    ∃ t, exec (.pendingClear m) s = .next t ∧ SlotFrame { a with work := { a.work with slot := false } } t ∧
      (∃ q, SlotSent a.tb.frame a.settings.slotUnits [0x18] (stagingOf a) q t.out ∧ t.air.entries = q.entries) ∧
      t.out.mirror = [] ∧ t.air.clear = none ∧ t.counters = a.counters ∧ t.disp = a.disp ∧ t.queue = a.queue

/-- A slot is the slot mark, the unit count, at most one command unit, and at most C − 1 staging units: no slot carries more
than C units (R141, R145, R187). Where it carries no command, its staging units go on with the row in staging, or begin the
first waiting row where its buffer is free, with the STAGE unit, the length and the text (R143, R144, R187), and the units
sent, the staging cursor and the completion frames follow them (R143). The bytes leave on CAP_DATA in slot order, each least
significant bit first, and CAP_SYNC is high for the slot mark (R151). -/
def Obligations.SlotCarriesAtMostCUnits : Prop :=
  ∀ s : State, 1 ≤ s.settings.slotUnits → s.settings.slotUnits ≤ 32 →
    ∃ command staging : List Byte, (boundarySlot s).out.slot =
        0xC5 :: BitVec.ofNat 8 (command.length + staging.length) :: (command ++ staging) ∧
      command.length ≤ 1 ∧ staging.length ≤ s.settings.slotUnits - 1 ∧
      (boundarySlot s).out.lastUnits = command.length + staging.length ∧
      (s.control.runState = .halted ∨ s.control.runState = .starting → command = [] ∧ staging = []) ∧
      (s.control.runState = .halting → staging = [] ∧ (command = [0x18] ↔ s.out.owed = .haltClear)) ∧
      (∀ u ∈ command, u = 0x18 ∨ ∃ b : BufferNo, u = BitVec.ofNat 8 (0x10 + b.val) ∨ u = BitVec.ofNat 8 (0x14 + b.val)) ∧
      (let units := s.settings.slotUnits
       s.control.runState = .running → s.out.owed = .none → (∀ e, s.air.entries.head? = some e → e.showAt ≠ s.tb.frame) →
       (∀ f, s.air.clear = some f → atOrAfter s.tb.frame f = false) →
       command = [] ∧
       (∃ q, SlotSent s.tb.frame units [] (stagingOf s) q (boundarySlot s).out ∧ (boundarySlot s).air.entries = q.entries) ∧
       (∀ id front e back, s.out.cursor = some id → s.air.entries = front ++ e :: back → e.row.id = id → 2 ≤ e.sent →
         (∀ x ∈ front, x.row.id ≠ id) →
         ∃ more, staging = (e.row.text.drop (e.sent - 2)).take (units - 1) ++ more ∧
           (units - 1 ≤ e.row.text.length + 2 - e.sent → more = [])) ∧
       (s.out.cursor = none → (∀ x ∈ s.air.entries, x.sent ≠ 0) → staging = []) ∧
       ∀ front e back, s.out.cursor = none → s.air.entries = front ++ e :: back → e.sent = 0 →
         (∀ x ∈ front, x.sent ≠ 0 ∧ x.row.id ≠ e.row.id) →
         (3 ≤ units → (∀ x ∈ front, x.buffer ≠ e.buffer) →
           (∀ r ∈ s.out.mirror, r.buffer = e.buffer → r.past = true ∨ before r.showAt s.tb.frame = true) →
           ∃ more, staging = BitVec.ofNat 8 (0x1C + e.buffer.val) :: BitVec.ofNat 8 e.row.text.length
               :: (e.row.text.take (units - 3) ++ more) ∧
             (units - 3 ≤ e.row.text.length → more = [])) ∧
         ((∃ x ∈ front, x.buffer = e.buffer) → staging = []) ∧
         ∀ older r newer, s.out.mirror = older ++ r :: newer → r.buffer = e.buffer → r.past = false →
           (∀ x ∈ newer, x.buffer ≠ e.buffer) → before r.showAt s.tb.frame = false → staging = []) ∧
      (let sent := boundarySlot s
       (∀ i j, j < 8 → capData sent (8 * i + j) = (sent.out.slot.getD i 0).getLsbD j) ∧
       ∀ i, capSync sent i = decide (i < 8))

/-! ### The page engine -/

/-- Step 1 of a scan or flush, with the header's three host words at offsets 0x00, 0x04 and 0x08 (R180): the read mark is
accepted where at most 256 records lie past it, attention JOURNAL is cleared where the accepted mark equals the write count,
and a scan goes on to the settings read or the cue table where its change words or marks call for them, and else, as a flush,
to the first write (R155, R156, R167). That a slot's state byte and part bytes, and the header's part words and the status
block, are each issued together, with the values of that moment, is the model's choice (notes/assumptions/10). -/
def Obligations.HeaderReadTestsTheReadMark : Prop :=
  ∀ (m : Moment) (header : List Byte) (s a : State) (flush : Bool) (g c : Word32) (since : Nat), Finds m s a →
    a.pe.op = some (.pass flush .header g c since) →
    let cueChange := BitVec.ofNat 32 (le32 header 0x00)
    let generation := BitVec.ofNat 32 (le32 header 0x04)
    let readMark := BitVec.ofNat 32 (le32 header 0x08)
    ∃ t, exec (.headerReadComplete m header) s = .next t ∧
      t = { a with
        control := { a.control with attn := t.control.attn }
        pe := { a.pe with readMark := t.pe.readMark, op := t.pe.op } } ∧
      ((a.pe.writeCount - readMark).toNat ≤ 256 → t.pe.readMark = readMark) ∧
      (256 < (a.pe.writeCount - readMark).toNat → t.pe.readMark = a.pe.readMark) ∧
      (t.pe.readMark = a.pe.writeCount →
        flagSet .journal t = false ∧ ∀ f, f ≠ .journal → flagSet f t = flagSet f a) ∧
      (t.pe.readMark ≠ a.pe.writeCount → t.control.attn = a.control.attn) ∧
      (flush = false → generation ≠ a.pe.lastGeneration ∨ a.pe.recovery = true →
        t.pe.op = some (.pass false .settings generation cueChange a.clock)) ∧
      (flush = false → generation = a.pe.lastGeneration → a.pe.recovery = false →
        cueChange ≠ a.pe.lastCueChange ∨ a.pe.runStart = true →
        t.pe.op = some (.pass false .cueTable generation cueChange a.clock)) ∧
      (flush = true ∨ (generation = a.pe.lastGeneration ∧ a.pe.recovery = false ∧ cueChange = a.pe.lastCueChange ∧
        a.pe.runStart = false) → WriteIssued 0 flush generation cueChange t)

/-- A settings application in RUNNING. Every field of the block is taken from its place, brought into its range (R57, R158,
R159, R181), and counted where it was outside; the load value counts only with its request, each field at most once, and the
load request, which is ignored, is one of the ignored fields (R158; the model's readings, notes/assumptions/14 and 22). Group
A stays, group B is taken unless FREEZE is set (the live level, which may wait, aside), group C is taken, every set estimate
lies within the new bounds, the generation follows (R11, R69, R157); what is clamped and ignored is counted and reported in
one SETTINGS record (R159). In RUNNING without FREEZE each port moves as R17 and R18 say, with its record; a writer that is
enabled has its estimate seeded (R68); and the forced lead, or the disable of the lead, has its effect (R93, R94). The filter
of each line whose values change restarts (R57). Where no port moves and no lead is forced, the live level is taken or held
pending (R124; the model's reading of an equal level, notes/assumptions/18), and the silence test of the application has its
effect (R91, R92, R157). Then the cue table is read where it is called for, or the first write issued (R155). The model's
choices are: that an ignored load is named by the offset of its request, 0x06 (notes/assumptions/49); that a changed fixed
divisor abandons the character in reception in automatic mode too (notes/assumptions/20); that a cue which is suspended has no
feed test made for it at that moment (notes/assumptions/36); and that the data of a slot's writes, and of the header and the
status block, are each issued together with the values of that moment (notes/assumptions/10). -/
def Obligations.SettingsApplicationTakesItsGroups : Prop :=
  (∀ block : List Byte, SettingsTaken block (parseSettings block) ∧ (clampedFields block).Pairwise (· < ·) ∧
    ∀ off, off ∈ clampedFields block ↔ OutsideRange block off) ∧
  ∀ (m : Moment) (block : List Byte) (s a : State) (g c : Word32) (since : Nat), Finds m s a →
    a.pe.op = some (.pass false .settings g c since) →
    ∃ t, exec (.settingsApplication m block) s = .next t ∧
      (let new := parseSettings block
       (t.settings.rateCode = a.settings.rateCode ∧ t.settings.divider = a.settings.divider
         ∧ t.settings.slotUnits = a.settings.slotUnits ∧ t.settings.rowWidth = a.settings.rowWidth
         ∧ t.settings.displayRows = a.settings.displayRows ∧ t.settings.leadAtStart = a.settings.leadAtStart) ∧
       (a.control.freeze = true → t.settings.delay = a.settings.delay ∧ t.settings.liveLevel = a.settings.liveLevel
         ∧ t.settings.writers = a.settings.writers ∧ t.settings.lines = a.settings.lines) ∧
       (a.control.freeze = false → t.settings.delay = new.delay ∧ t.settings.writers = new.writers
         ∧ t.settings.lines = new.lines) ∧
       (t.settings.lmin = new.lmin ∧ t.settings.lmax = new.lmax ∧ t.settings.lseed = new.lseed
         ∧ t.settings.smooth = new.smooth ∧ t.settings.gate = new.gate ∧ t.settings.pauseFrames = new.pauseFrames
         ∧ t.settings.silenceFrames = new.silenceFrames ∧ t.settings.handoffFrames = new.handoffFrames) ∧
       (t.settings.holdBase = new.holdBase ∧ t.settings.holdChar = new.holdChar ∧ t.settings.lateAbove = new.lateAbove
         ∧ t.settings.catchAbove = new.catchAbove ∧ t.settings.dropAbove = new.dropAbove
         ∧ t.settings.linger = new.linger ∧ t.settings.feedWindow = new.feedWindow) ∧
       (∀ w e, (get t.est w).estimate = some e → 16 * new.lmin ≤ e ∧ e ≤ 16 * max new.lmin new.lmax) ∧
       (∃ ignored : List Nat, ignored.Pairwise (· < ·) ∧ SettingsReported a t g (clampedFields block) ignored ∧
         ∀ off, off ∈ ignored ↔ FieldIgnored a.control.freeze a.settings new block off ∨
           ∃ f, off = 0x64 ∧ new.forcedLead = some f ∧ (portOf t f).mode = .off) ∧
       (isRunning a = true → a.control.freeze = false →
         (∀ w, PortApplied (writerOf a w) (get new.writers w) a.clock (portOf a w) (portOf t w) ∧
           PortRecorded w (get new.writers w) (portOf a w) (portOf t w) t ∧
           ((portOf a w).mode = .off → (get new.writers w).enable = true → get t.est w =
             { estimate := some (clampTo (16 * new.lmin) (16 * max new.lmin new.lmax) (16 * new.lseed)), rejects := 0 })) ∧
         (LeadBonds a.la → new.silenceFrames = 0 → LeadApplied a t new)) ∧
       (a.control.freeze = true → t.capture = a.capture ∧ t.disp.pendingLevel = a.disp.pendingLevel) ∧
       (a.control.freeze = false → ∀ i,
         (get new.lines i = get a.settings.lines i → get t.capture i = get a.capture i) ∧
         (get new.lines i ≠ get a.settings.lines i → get t.capture i = restarted (get a.lines i) (get a.capture i))) ∧
       (isRunning a = true → a.control.freeze = false → MovesNoPort a new → LevelTaken a t new.liveLevel) ∧
       (isRunning a = true → new.forcedLead = none → a.control.freeze = true ∨ MovesNoPort a new →
         SilenceJudged { a with settings := t.settings, capture := t.capture } t)) ∧
      (c ≠ a.pe.lastCueChange ∨ a.pe.runStart = true ∨ a.pe.recovery = true →
        t.pe.op = some (.pass false .cueTable g c a.clock)) ∧
      (c = a.pe.lastCueChange → a.pe.runStart = false → a.pe.recovery = false → WriteIssued 0 false g c t) ∧
      t.pe.lastGeneration = g ∧
      t.pe.clampCount = a.pe.clampCount + BitVec.ofNat 32 (clampedFields block).length ∧
      (loadRequested block = true → flagSet .settings t = true) ∧
      (t.tb = a.tb ∧ t.mem = a.mem ∧ t.pe.base = a.pe.base ∧ t.pending = a.pending ∧ t.out = a.out) ∧ RecordsKept a t

/-- The settings read of STARTING completes (R160, R174, R175): with RUN 0 nothing is applied and the part returns to HALTED;
with RUN 1 every group is applied from its place in the block (R158, R159, R181), the header's read mark is tested, and the
part enters RUNNING, where the ports of enabled writers leave OFF (R17), every estimate is seeded (R68), the lead is given
(R84) and TB is locked, kept or set freewheeling (R10, R11). The live level is applied at once, with the stack empty, and a
pending one is then dropped (R122, R124); where the block's level is the one applied already a pending one stays, which is the
model's reading (notes/assumptions/18). -/
def Obligations.SettingsReadEntersRunningOrReturns : Prop :=
  ∀ (m : Moment) (header block : List Byte) (s a : State) (since : Nat), Finds m s a →
    a.control.runState = .starting → a.pe.op = some (.settingsRead since) →
    (a.control.run = false →
      exec (.settingsReadComplete m header block) s = .next { a with
        control := { a.control with runState := .halted }, pe := { a.pe with op := none } }) ∧
    (a.control.run = true → a.la = Arbiter.reset → (∀ w, (portOf a w).mode = .off) → a.disp.stack = [] →
      ∃ t, exec (.settingsReadComplete m header block) s = .next t ∧ t.control.runState = .running ∧
        t.settings = parseSettings block ∧ t.pe.lastGeneration = BitVec.ofNat 32 (le32 header 0x04) ∧ t.pe.runStart = true ∧
        (let mark := BitVec.ofNat 32 (le32 header 0x08)
         t.pe.readMark = if (a.pe.writeCount - mark).toNat ≤ 256 then mark else a.pe.readMark) ∧
        (let new := parseSettings block
         SettingsTaken block new ∧
         t.disp.pendingLevel = (if new.liveLevel = a.settings.liveLevel then a.disp.pendingLevel else none) ∧
         (∀ w, (portOf t w).mode =
           if (get new.writers w).enable then (if (get new.writers w).auto then .acquire else .run) else .off) ∧
         (∀ w, get t.est w = { estimate := some (clampTo (16 * new.lmin) (16 * max new.lmin new.lmax) (16 * new.lseed))
                               rejects := 0 }) ∧
         (∀ f, new.forcedLead = some f → (get new.writers f).enable = true → t.la.lead = some f) ∧
         (∀ w, (∀ f, new.forcedLead = some f → (get new.writers f).enable = false) → new.leadAtStart = some w →
           t.la.lead = if (get new.writers w).enable then some w else none) ∧
         ((new.rateCode = a.settings.rateCode ∧ new.divider = a.settings.divider ∧ a.tb.mode ≠ .unlocked →
           t.tb.mode = a.tb.mode) ∧
          (new.rateCode ≠ a.settings.rateCode ∨ new.divider ≠ a.settings.divider ∨ a.tb.mode = .unlocked →
           t.tb.mode = .freewheel))) ∧
        (t.mem = a.mem ∧ t.pe.base = a.pe.base ∧ t.pending = a.pending) ∧
        (a.queue = [] → a.air.entries = [] → t.counters = a.counters))

/-- Step 3 hands the cue table to the cue player. A slot that is handed as posted, which in the run-start scan one that reads
ARMED or whose cue is held as ARMED is too, is aborted with reason WITHDRAWN where its withdraw flag is set, and else refused
for the first of R126's tests that fails: the state and reason are part of its cue record, the slot is marked for writing, and
attention CUE is set (R126, R138, R161, R162). A valid cue, with the slot's present fields, with a start frame that is still to
come arms and is watched; one whose start frame is not later than the present, or that is to start at once, becomes DUE; and
one for a trigger line joins that line's wait list (R62, R127). A slot that the run-start scan finds DUE, RUNNING or SUSPENDED
and not held is aborted with reason RESET, and one that reads FREE or a terminal state is left alone (R126). A start frame
above 268,435,455 is taken as that, which is the model's reading (notes/assumptions/15). A withdraw flag aborts the held cue
with reason WITHDRAWN from each state it acts in, and does nothing to one that has ended (R64, R115, R131, R133, R136). Then
the first write is issued (R155). The model's choices are: that a cue taken anew as ARMED makes no record, and calls for a
write-back only where it was not held or the state bytes differ (notes/assumptions/19); that a stray slot is aborted with no
due frame, no start frame and no row counted (notes/assumptions/35); that a cue which is suspended or withdrawn has no feed
test made for it at that moment (notes/assumptions/36); that the recovery mark is cleared at this completion whatever becomes
of the later steps (notes/assumptions/44); and that the data of a slot's writes, and of the header and the status block, are
each issued together with the values of that moment (notes/assumptions/10). -/
def Obligations.CueTableRefusesOrArmsPostedSlots : Prop :=
  (∀ (m : Moment) (table : List Byte) (s a : State) (g c : Word32) (since : Nat) (n : SlotNo), Finds m s a →
    a.pe.op = some (.pass false .cueTable g c since) → n ∉ a.disp.due → n ∉ a.disp.watch →
    ∃ t, exec (.cueTableReadComplete m table) s = .next t ∧ t.pe.lastCueChange = c ∧ t.pe.runStart = false ∧
      t.pe.recovery = false ∧ WriteIssued 0 false g c t ∧ t.mem = a.mem ∧ t.tb = a.tb ∧ t.la = a.la ∧
      (let slot := slotBytes table n
       let reads := byteAt slot 0x00
       let withdrawn := byteAt slot 0x01 ≠ 0
       let level := byteAt slot 0x02
       let kind := byteAt slot 0x03
       let first := le16 slot 0x0A
       let rows := byteAt slot 0x0C
       let start : Frame := BitVec.ofNat 28 (min 268435455 (le32 slot 0x04))
       let badRows := rows = 0 ∨ 32 < rows ∨ 2047 < first + rows - 1
       let valid := 1 ≤ level ∧ level ≤ 7 ∧ ¬badRows
       let ended := fun (left entered : CueState) (reason : CueReason) =>
         (∃ cue, cueOf t n = some cue ∧ cue.state = entered ∧ cue.reason = reason ∧ CueTaken slot cue ∧ cue.dueFrame = none
           ∧ cue.start = none) ∧
         get t.pe.marks n = true ∧ flagSet .cue t = true ∧ Recorded t (.cueState n left entered reason 0 0 none)
       (∀ left, HandedAsPosted a table n left →
         let refused := fun reason => ended left .refused reason
         let armed := (∃ cue, cueOf t n = some cue ∧ cue.state = .armed ∧ CueTaken slot cue) ∧
           (left = .posted → get t.pe.marks n = true ∧ Recorded t (.cueState n .posted .armed .none 0 0 none)) ∧
           (left = .armed → get t.pe.marks n = ((cueOf a n).isNone || get a.pe.marks n || decide (reads ≠ 2))) ∧
           (left = .armed → (∀ i, i ≠ n → CallsForNothing a table i) →
             t.pe.buffer = a.pe.buffer ∧ t.pe.lost = a.pe.lost ∧ t.control = a.control ∧ t.disp.due = a.disp.due ∧
             t.disp.stack = a.disp.stack)
         let due := fun (start : Frame) => get t.pe.marks n = true ∧
           (left = .posted → Recorded t (.cueState n .posted .armed .none 0 0 none)) ∧
           Recorded t (.cueState n .armed .due .none 0 0 (some start)) ∧
           ∃ cue, cueOf t n = some cue ∧ CueTaken slot cue ∧ (cue.state = .due ∨ cue.state = .running ∨ cue.state = .suspended) ∧
             cue.dueFrame = some a.tb.frame ∧ cue.start = some start
         (withdrawn → ended left .aborted .withdrawn) ∧
         (¬withdrawn →
           (level = 0 ∨ 7 < level → refused .level) ∧
           (1 ≤ level → level ≤ 7 → badRows → refused .rows) ∧
           (valid → kind = 2 → 3 < byteAt slot 0x08 → refused .line) ∧
           (valid → 2 < kind → refused .kind) ∧
           (valid → kind = 1 → later start a.tb.frame = true → armed ∧ n ∈ t.disp.watch) ∧
           (valid → kind = 1 → later start a.tb.frame = false → due start) ∧
           (valid → kind = 0 → due a.tb.frame) ∧
           ∀ j : Fin 4, valid → kind = 2 → byteAt slot 0x08 = j.val → armed ∧ n ∈ get t.disp.waits j)) ∧
       (∀ left : CueState, cueOf a n = none → a.pe.runStart = true → reads = left.code → 3 ≤ reads → reads ≤ 5 →
         ended left .aborted .reset) ∧
       (cueOf a n = none → reads = 0 ∨ 6 ≤ reads → cueOf t n = none ∧ get t.pe.marks n = get a.pe.marks n))) ∧
  ∀ (m : Moment) (table : List Byte) (s a : State) (g c : Word32) (since : Nat) (n : SlotNo) (cue : Cue), Finds m s a →
    a.pe.op = some (.pass false .cueTable g c since) → cueOf a n = some cue → (cue.state = .armed → a.pe.runStart = false) →
    byteAt (slotBytes table n) 0x01 ≠ 0 →
    (∀ i, i ≠ n → CallsForNothing a table i) →
    ∃ t, exec (.cueTableReadComplete m table) s = .next t ∧ WriteIssued 0 false g c t ∧ t.mem = a.mem ∧ t.tb = a.tb ∧
      t.la = a.la ∧ t.out = a.out ∧
      (let waiting := a.air.entries.filter (waitsOfCue n)
       let ended := fun (dropped : Nat) =>
         cueOf t n = some { cue with state := .aborted, reason := .withdrawn, dropped := cue.dropped + dropped } ∧
         get t.pe.marks n = true ∧ flagSet .cue t = true
       let record : Record := .cueState n cue.state .aborted .withdrawn cue.shown cue.dropped cue.start
       let popped := ∀ k x, ctxOf a k = some x → x.slot = n → .ctx k ∈ a.disp.stack →
         (∀ j y, ctxOf a j = some y → y.slot = n → j = k) → a.disp.due = [] → a.disp.place ≠ .waiting →
         t.disp.stack = a.disp.stack.erase (.ctx k) ∧ (x.fetch = .none → ctxOf t k = none) ∧
         (x.fetch ≠ .none → ctxOf t k = some { x with fetch := .void }) ∧
         (cue.state = .suspended → ended 0 ∧ Journaled a t a.tb.frame record ∧
           (a.queue = [] → t.air.entries = a.air.entries)) ∧
         (cue.state = .running → ended waiting.length ∧
           (a.queue = [] → t.air.entries = a.air.entries.filter (fun e => !waitsOfCue n e)) ∧
           (waiting = [] → Journaled a t a.tb.frame record) ∧
           ∀ e more, waiting = e :: more → Journaled a t a.tb.frame
             (.rowDropped e.row .withdrawn (some e.ideal) (some e.showAt) (e.showAt - e.ideal).toNat))
       (cue.state = .armed → ended 0 ∧ t.disp.watch = a.disp.watch.erase n ∧
         (∀ j, get t.disp.waits j = (get a.disp.waits j).erase n) ∧ t.disp.due = a.disp.due ∧ t.disp.stack = a.disp.stack ∧
         Journaled a t a.tb.frame record) ∧
       (cue.state = .due → ended 0 ∧ t.disp.due = a.disp.due.erase n ∧ t.disp.stack = a.disp.stack ∧
         Journaled a t a.tb.frame record) ∧
       (cue.state = .running ∨ cue.state = .suspended → popped) ∧
       (cue.state = .done ∨ cue.state = .expired ∨ cue.state = .refused ∨ cue.state = .aborted → cueOf t n = some cue))

/-- The write of a cue slot completes: its bytes are in host memory and no others have changed, its mark is cleared unless
the slot has changed since the write was issued, and a slot whose terminal state is written is released (R162). The bytes lie
as R184 has them. Then the next slot to be written has its write issued, or the header and the status block (R155, R162,
R164). That the later slots are judged at this completion is the model's choice (notes/assumptions/45), and so is that a
context which waits for a void fetch keeps a released slot's number (notes/assumptions/42). So is that a slot's state byte and
part bytes complete together with the data of the issue, and that the header and the status block are then issued together,
with the values of that moment (notes/assumptions/10). -/
def Obligations.SlotWriteStoresTheSlot : Prop :=
  PageCodes ∧ (∀ cue : Cue, SlotLaid cue (cuePartBytes cue)) ∧
  ∀ (m : Moment) (s a : State) (flush : Bool) (n : SlotNo) (cue : Cue) (terminal dirty : Bool) (g c : Word32) (since : Nat),
    Finds m s a → a.pe.op = some (.pass flush (.slot n (slotWrite n cue) terminal dirty) g c since) →
    ∃ t, exec (.slotWriteComplete m) s = .next t ∧
      (let slot := a.pe.base.toNat + 0x800 + 32 * n.val
       readMem t.mem slot = some (BitVec.ofNat 8 cue.state.code) ∧
       (∀ i, i < 16 → readMem t.mem (slot + 16 + i) = (cuePartBytes cue)[i]?) ∧
       ∀ x, x ≠ slot → (x < slot + 16 ∨ slot + 32 ≤ x) → readMem t.mem x = readMem a.mem x) ∧
      t = { a with
        mem := t.mem
        disp := { a.disp with cues := if terminal then put a.disp.cues n none else a.disp.cues }
        pe := { a.pe with marks := put a.pe.marks n dirty, op := t.pe.op } } ∧
      WriteIssued (n.val + 1) flush g c t

/-- The header and status writes complete, which were issued in a state u with its values (WriteIssued): the 28 bytes of the
header's part words and the 1,024 bytes of the status block are in host memory as they stood when the writes were issued, and
no other byte has changed; then the head record of the buffer is written while the ring has room, and else the scan or flush
is complete, its records left as they are, and a complete halting flush, with the halting CLEAR sent, lets the part reach
HALTED or STARTING (R164, R166, R167, R175, R180, R182). The bytes lie as R180 and R182 have them. That the two writes are
issued together, with the values of that moment, is the model's choice (notes/assumptions/10), and so is that a complete scan
lets a position be fetched again whose fetch a fault abandoned (R169; notes/assumptions/29). That fields which do not apply
are 0 is the model's reading (notes/assumptions/12), and for the frame of an absent fault context its choice
(notes/assumptions/39). -/
def Obligations.StatusWriteStoresHeaderAndStatus : Prop :=
  PageCodes ∧ (∀ s : State, HeaderLaid s (headerBytes s) ∧ StatusLaid s (statusBytes s)) ∧
  ∀ (m : Moment) (s a u : State) (flush : Bool) (g c : Word32) (since : Nat), Finds m s a →
    a.pe.op = some (.pass flush (.status [(0x10, headerBytes u), (0x200, statusBytes u)]) g c since) →
    ∃ t, exec (.statusWriteComplete m) s = .next t ∧
      (let base := a.pe.base.toNat
       (∀ i, i < 28 → readMem t.mem (base + 0x10 + i) = (headerBytes u)[i]? ∧ ((headerBytes u)[i]?).isSome = true) ∧
       (∀ i, i < 1024 → readMem t.mem (base + 0x200 + i) = (statusBytes u)[i]? ∧ ((statusBytes u)[i]?).isSome = true) ∧
       ∀ x, (x < base + 0x10 ∨ base + 0x2C ≤ x) → (x < base + 0x200 ∨ base + 0x600 ≤ x) →
         readMem t.mem x = readMem a.mem x) ∧
      (∀ j rest, a.pe.buffer = j :: rest → (a.pe.writeCount - a.pe.readMark).toNat < 256 →
        t = { a with mem := t.mem, pe := { a.pe with op := some (.pass flush (.journal
          [(0x1000 + 128 * (a.pe.writeCount.toNat % 256), recordBytes a.pe.writeCount j)]) g c a.clock) } }) ∧
      (let complete := a.pe.buffer = [] ∨ 256 ≤ (a.pe.writeCount - a.pe.readMark).toNat
       (complete → t = { a with
          mem := t.mem
          control := { a.control with runState := t.control.runState, run := t.control.run }
          disp := { a.disp with ctx := t.disp.ctx }
          pe := { a.pe with op := t.pe.op } } ∧
        ∀ k, ctxOf t k = (ctxOf a k).map (fun x => { x with refetch := none })) ∧
       (complete → a.control.runState ≠ .halting ∨ a.out.owed = .haltClear →
         t.pe.op = none ∧ t.control.runState = a.control.runState ∧ t.control.run = a.control.run) ∧
       (complete → a.control.runState = .halting → a.out.owed ≠ .haltClear →
         (a.control.run = false → t.pe.op = none ∧ t.control.runState = .halted ∧ t.control.run = false) ∧
         (a.control.run = true → a.pe.fault = none →
           t.pe.op = some (.settingsRead a.clock) ∧ t.control.runState = .starting ∧ t.control.run = true) ∧
         (a.control.run = true → a.pe.fault.isSome = true →
           t.pe.op = none ∧ t.control.runState = .halted ∧ t.control.run = false)))

/-- The write of a journal record completes: its bytes are in host memory and no others have changed, the record leaves the
buffer, and the write count rises by 1 (R166). While another record waits and the ring has room it is written next; else the
scan or flush is complete, and a complete halting flush, with the halting CLEAR sent, lets the part reach HALTED or STARTING
(R166, R167, R175). A record's bytes lie as R183 and R186 have them. That attention JOURNAL is set at each record is the
model's reading (notes/assumptions/27), and so is that a complete scan lets a position be fetched again whose fetch a fault
abandoned (R169; notes/assumptions/29). What the fields hold that do not apply to a record is the model's reading too
(notes/assumptions/11). -/
def Obligations.JournalWriteStoresTheRecord : Prop :=
  PageCodes ∧ (∀ (sequence : Word32) (j : JournalEntry), RecordLaid sequence j (recordBytes sequence j)) ∧
  ∀ (m : Moment) (s a : State) (flush : Bool) (off : Nat) (data : List Byte) (g c : Word32) (since : Nat), Finds m s a →
    a.pe.op = some (.pass flush (.journal [(off, data)]) g c since) →
    ∃ t, exec (.journalWriteComplete m) s = .next t ∧
      (∀ i, i < data.length → readMem t.mem (a.pe.base.toNat + off + i) = data[i]?) ∧
      (∀ x, (x < a.pe.base.toNat + off ∨ a.pe.base.toNat + off + data.length ≤ x) → readMem t.mem x = readMem a.mem x) ∧
      flagSet .journal t = true ∧
      t = { a with
        mem := t.mem
        control := { a.control with
          attn := a.control.attn ||| 1, runState := t.control.runState, run := t.control.run }
        disp := { a.disp with ctx := t.disp.ctx }
        pe := { a.pe with
          buffer := a.pe.buffer.drop 1, writeCount := a.pe.writeCount + 1, op := t.pe.op } } ∧
      (let room := (a.pe.writeCount + 1 - a.pe.readMark).toNat < 256
       let complete := a.pe.buffer.drop 1 = [] ∨ ¬room
       (∀ j rest, a.pe.buffer.drop 1 = j :: rest → room →
         t.disp = a.disp ∧ t.control.runState = a.control.runState ∧ t.control.run = a.control.run ∧
         t.pe.op = some (.pass flush (.journal [(0x1000 + 128 * ((a.pe.writeCount + 1).toNat % 256),
           recordBytes (a.pe.writeCount + 1) j)]) g c a.clock)) ∧
       (complete → ∀ k, ctxOf t k = (ctxOf a k).map (fun x => { x with refetch := none })) ∧
       (complete → a.control.runState ≠ .halting ∨ a.out.owed = .haltClear →
         t.pe.op = none ∧ t.control.runState = a.control.runState ∧ t.control.run = a.control.run) ∧
       (complete → a.control.runState = .halting → a.out.owed ≠ .haltClear →
         (a.control.run = false → t.pe.op = none ∧ t.control.runState = .halted ∧ t.control.run = false) ∧
         (a.control.run = true → a.pe.fault = none →
           t.pe.op = some (.settingsRead a.clock) ∧ t.control.runState = .starting ∧ t.control.run = true) ∧
         (a.control.run = true → a.pe.fault.isSome = true →
           t.pe.op = none ∧ t.control.runState = .halted ∧ t.control.run = false)))

/-- The fetch of the top cue's next row completes: the row takes the next id, with the text, offset, override and marks that
R134 gives it, and the context moves on. A row of length above 0 enters the schedule at the place that R102 to R107 give it,
with its hold (R105), or is dropped as stale (R108); a row of length 0 is skipped. Either loss is counted in the cue and
journaled (R100, R133, R134). Where the lost row is the cue's last, and no entry of the cue is left in the schedule, the cue
is DONE and leaves the stack, its context becomes free, and what stands below takes up the display: the live queue feeds, or a
suspended cue is RUNNING again (R131, R135). With a full schedule the row is not entered, and the position stays (R133). A void
fetch completes, in any run state, with its row discarded: a context whose cue has left the stack becomes free, and the due
list is tested, which may now accept a cue into it; else the context may ask for its next row again, which the feed test of
the top does at once (R128, R131, R132, R133). The model's choices are: that the count of rows dropped has no bound, and counts
a row again that is lost again after a rewind (notes/assumptions/43); and that a cue which is suspended has no feed test made
for it at that moment (notes/assumptions/36). That a position whose fetch a fault abandoned waits for the scan after the fault
is its reading of R169 (notes/assumptions/29). -/
def Obligations.FetchedRowEntersOrIsSkipped : Prop :=
  ∀ (m : Moment) (k : CtxNo) (entry : List Byte) (s a : State) (x : Context), Finds m s a → ctxOf a k = some x →
    let left := fun (y : Option Context) => { a with disp := { a.disp with ctx := put a.disp.ctx k y } }
    (∀ cue, isRunning a = true → topOwner a = some (.ctx k) → x.fetch = .inFlight → cueOf a x.slot = some cue →
      24 ≤ a.air.entries.length → exec (.fetchComplete m k entry) s = .next (left (some { x with fetch := .none }))) ∧
    (x.fetch = .void → .ctx k ∈ a.disp.stack →
      ∃ t, exec (.fetchComplete m k entry) s = .next t ∧ t = { a with disp := { a.disp with ctx := t.disp.ctx } } ∧
        (topOwner a ≠ some (.ctx k) ∨ isRunning a = false → t = left (some { x with fetch := .none })) ∧
        ∀ cue, topOwner a = some (.ctx k) → isRunning a = true → cueOf a x.slot = some cue →
          FetchTested a t k { x with fetch := .none } cue) ∧
    (x.fetch = .void → .ctx k ∉ a.disp.stack →
      (a.disp.due = [] → exec (.fetchComplete m k entry) s = .next (left none)) ∧
      ∀ n rest c, a.disp.due = n :: rest → cueOf a n = some c →
        ∃ t, exec (.fetchComplete m k entry) s = .next t ∧ DisplayFrame a t ∧ DueTested (left none) t n rest c) ∧
    (∀ cue, isRunning a = true → topOwner a = some (.ctx k) → x.fetch = .inFlight → cueOf a x.slot = some cue →
      a.air.entries.length < 24 →
      ∃ t r, exec (.fetchComplete m k entry) s = .next t ∧ DisplayFrame a t ∧ t.nextRowId = a.nextRowId + 1 ∧
        RowTaken entry a.settings.rowWidth x cue a.nextRowId r ∧
        (let offset := max (x.offsets.getLast?.getD 0) (le16 entry 0x02)
         let counted : Cue := { cue with dropped := cue.dropped + 1 }
         let last := x.next + 1 = cue.rowCount ∧ ∀ e ∈ a.air.entries, isCueEntry x.slot e = false
         let moved := ∃ y, ctxOf t k = some y ∧ y.slot = x.slot ∧ y.next = x.next + 1 ∧ y.offsets = x.offsets ++ [offset]
         let counts := get t.pe.marks x.slot = true ∧
           (¬last → t.air = a.air ∧ cueOf t x.slot = some counted) ∧
           (last → a.disp.due = [] → a.disp.place ≠ .waiting → CueDone a t k x.slot counted)
         (x.next + 1 ≠ cue.rowCount → moved) ∧
         (byteAt entry 0 = 0 → Journaled a t a.tb.frame (.rowDropped r .skipped none none 0) ∧ counts) ∧
         (byteAt entry 0 ≠ 0 →
           let ideal := cue.start.getD 0 + BitVec.ofNat 28 (offset + a.settings.delay)
           ∃ p, PlacedAt a r.text.length ideal p ∧
             (Stale a p.lag → Journaled a t a.tb.frame (.rowDropped r .stale (some ideal) (some p.showAt) p.lag) ∧ counts) ∧
             (InTime a p.lag → moved ∧ t.queue = a.queue ∧ ∃ e, Entered a t r ideal p e ∧ e.latency = none ∧
               e.flags.catchup = false ∧ t.air.catchup = a.air.catchup ∧
               ∀ slot pos start given hold fresh clamped, r.source = .cue slot pos start given hold fresh clamped →
                 e.flags.clamped = (clamped || hold == some 0) ∧
                 (∀ h, hold = some h → e.hold = max 1 h) ∧
                 (hold = none → e.hold = max 1 (a.settings.holdBase + (r.text.length * a.settings.holdChar + 15) / 16))))))
/-- An access in flight that the card link reports unsuccessful, or that is not complete 270,000 counts after its request, is
a page fault: the fault state and context are set, attention PAGE_FAULT is set, every page operation is abandoned, and a
settings read returns the part to HALTED with RUN cleared (R153, R168, R174). An access that is still in its 10 ms is not.
That a write that fails leaves host memory unchanged is the model's choice (notes/assumptions/10), and so is that a timeout
may be taken later than the 10 ms (notes/assumptions/8), and that the 10 ms of the settings read of STARTING run from the
entry into STARTING, also for its second access, the settings block (notes/assumptions/34). -/
def Obligations.FailedAccessIsAPageFault : Prop :=
  ∀ (m : Moment) (access : Access) (offset : Nat) (s a : State) (site : Site), Finds m s a →
    accessAt access offset a = some site →
    (a.clock < site.since + 270000 → exec (.accessTimeout m access offset) s = .next a) ∧
    ∀ c, c = .pageFault m access offset ∨ (c = .accessTimeout m access offset ∧ site.since + 270000 ≤ a.clock) →
      ∃ t, exec c s = .next t ∧
        t.pe.fault = some { offset := offset, write := site.write, op := site.op, frame := a.tb.frame } ∧
        t.pe.lastFault = t.pe.fault ∧ flagSet .pageFault t = true ∧ t.pe.op = none ∧
        (∀ k x, ctxOf t k = some x → x.fetch = .none) ∧
        (∀ since, a.pe.op = some (.settingsRead since) → t.control.runState = .halted ∧ t.control.run = false) ∧
        (a.control.runState = .running → (∀ since, a.pe.op ≠ some (.settingsRead since)) →
          t.control.runState = .running) ∧
        DisplayFrame { a with
          control := t.control
          pe := { a.pe with fault := t.pe.fault, lastFault := t.pe.lastFault, op := none } } t ∧
        RecordsKept a t

/-- A row of the lead that the ROW code, the SPEAKER code or a pause event closes (R30, R38, R39, R40), while the live stream is
on top, the queue is empty and the schedule has room, enters the schedule at the tail, with the values of its placement (R102
to R107), and AS's record is written (R109), the live catch-up state with it (R110); or, where the stale limit is set and its
lag exceeds it, the row is dropped, counted and journaled, and the schedule is as it was (R108). The SPEAKER code sets speaker
mark pending. No handoff is pending. -/
def Obligations.ClosedRowEntersTheSchedule : Prop :=
  ∀ (m : Moment) (w : Writer) (s a : State) (estimate : Nat), LiveTakes a w → (builderOf a w).chars ≠ [] →
    a.la.handoff = none → (get a.est w).estimate = some estimate →
    let b := builderOf a w
    let emptied : Builder := { b with chars := [], arrival := none, heldId := none, markHeld := false }
    (∀ edges d, Finds m s a →
      let u := delivered w (charNoisy edges d (writerOf a w).parity) a
      (ReceivesByte a w edges d 0x0D → ∃ t, exec (.characterAccepted m w edges) s = .next t ∧
        RowEnters w b .rowCode estimate { u with builders := put a.builders w emptied } t) ∧
      (ReceivesByte a w edges d 0x1E → ∃ t, exec (.characterAccepted m w edges) s = .next t ∧
        RowEnters w b .speaker estimate { u with builders := put a.builders w { emptied with markPending := true } } t)) ∧
    (FindsPiece m s a → get a.work.pause w = true → (portOf a w).mode ≠ .off → (portOf a w).pauseArmed = true →
      a.settings.pauseFrames ≤ (portOf a w).pauseCount → ∃ t, exec (.pauseEvent m w) s = .next t ∧
        RowEnters w b .pause estimate { a with
          work := { a.work with pause := put a.work.pause w false }
          ports := put a.ports w { portOf a w with pauseArmed := false, pauseFlag := true }
          builders := put a.builders w emptied } t)
/-! ### What every command keeps -/

/-- Only the completion of a page write changes host memory; the waiting commands are never changed by one; and only a write
to the register window or RESET_N changes the page base (R152, R153, R172). That a failed write leaves host memory unchanged
is the model's choice (notes/assumptions/10), and that a reset leaves host memory and the waiting commands is its reading
(notes/assumptions/26). -/
def Obligations.OnlyWriteCompletionsChangeHostMemory : Prop :=
  ∀ (c : Instr) (s t : State), exec c s = .next t →
    t.pending = s.pending ∧
    ((∀ m, c ≠ .slotWriteComplete m) → (∀ m, c ≠ .statusWriteComplete m) → (∀ m, c ≠ .journalWriteComplete m) →
      t.mem = s.mem) ∧
    ((∀ m h x, c ≠ .pageBaseWrite m h x) → (∀ m r x, c ≠ .registerWriteDiscarded m r x) → (∀ m, c ≠ .hardwareReset m) →
      (∀ m, c ≠ .resetNRise m) → t.pe.base = s.pe.base)

/-- No command removes or changes a record of the journal buffer, or clears an attention flag, but those the spec gives that
effect: the write of the head record, a write to ATTN, a read of the header, and a reset (R154, R156, R165, R166, R177). -/
def Obligations.RecordsAndFlagsStay : Prop :=
  ∀ (c : Instr) (s t : State), c.wellFormed = true → exec c s = .next t →
    (∀ m, c ≠ .journalWriteComplete m) → (∀ m x, c ≠ .attnClear m x) → (∀ m x, c ≠ .pageFaultClear m x) →
    (∀ m r x, c ≠ .registerWriteDiscarded m r x) → (∀ m h, c ≠ .headerReadComplete m h) →
    (∀ m h b, c ≠ .settingsReadComplete m h b) → (∀ m, c ≠ .hardwareReset m) → (∀ m, c ≠ .resetNRise m) →
    (∀ m x, c ≠ .softReset m x) → RecordsKept s t

/-- Every step keeps the bounds and shapes of the queues and lists, the alignment of the page base, and the canonical form of
the written memory (R47, R53, R100, R153, R154). -/
def Obligations.EveryStepKeepsTheBounds : Prop :=
  ∀ s t : State, WithinBounds s → step s = .next t → WithinBounds t

/-- Every step keeps the page engine quiet under a fault: no operation and no fetch is in flight while the fault state is set
(R163, R168). -/
def Obligations.EveryStepKeepsThePageQuietUnderAFault : Prop :=
  ∀ s t : State, QuietUnderFault s → step s = .next t → QuietUnderFault t

/-- Every step keeps LA's record bound: the lead is none exactly when no writer is LEAD, a handoff is pending exactly when
one writer is TAKING, and with a handoff a lead exists; no writer is its own partner, and outside RUNNING there is no lead
and every port is OFF (R16, R82, R83). -/
def Obligations.EveryStepKeepsTheLeadBound : Prop :=
  ∀ s t : State, LeadSound s → step s = .next t → LeadSound t

/-- The state after reset meets the three invariants. -/
def Obligations.ResetIsSafe : Prop :=
  Safe State.reset
end

