-- ==== Sys2Proof/Laws/Memory.lean ====
section
/-! SUPPORT. Laws of the written bytes of host memory: reading back what was written, leaving every other byte alone, and
keeping the canonical form. -/

namespace Sys2Proof.Machine

@[simp] theorem readMem_writeMem_same (m : List Host.Cell) (x : Nat) (v : Byte) :
    readMem (writeMem m x v) x = some v := by
  induction m with
  | nil => simp [writeMem, readMem]
  | cons c rest ih =>
    obtain ⟨a, b⟩ := c
    simp only [writeMem]
    split
    · simp [readMem]
    · split
      · simp [readMem]
      · simp [readMem, *]

theorem readMem_writeMem_other (m : List Host.Cell) {x y : Nat} (v : Byte) (h : y ≠ x) :
    readMem (writeMem m x v) y = readMem m y := by
  induction m with
  | nil => simp [writeMem, readMem, h]
  | cons c rest ih =>
    obtain ⟨a, b⟩ := c
    simp only [writeMem]
    split
    · simp [readMem, h]
    · split
      · subst_vars; simp [readMem, h]
      · simp [readMem, ih]

/-- A byte outside the bytes written reads as before. -/
theorem readMem_writeBytes_outside (m : List Host.Cell) (x : Nat) (bytes : List Byte) {y : Nat}
    (h : y < x ∨ x + bytes.length ≤ y) : readMem (writeBytes m x bytes) y = readMem m y := by
  induction bytes generalizing m x with
  | nil => rfl
  | cons v rest ih =>
    simp only [List.length_cons] at h
    rw [writeBytes, ih _ _ (by omega), readMem_writeMem_other _ _ (by omega)]

/-- A byte of those written reads as it was written. -/
theorem readMem_writeBytes_inside (m : List Host.Cell) (x : Nat) (bytes : List Byte) (i : Nat) (h : i < bytes.length) :
    readMem (writeBytes m x bytes) (x + i) = some bytes[i] := by
  induction bytes generalizing m x i with
  | nil => simp at h
  | cons v rest ih =>
    cases i with
    | zero =>
      rw [writeBytes, Nat.add_zero, readMem_writeBytes_outside _ _ _ (by omega)]
      simp
    | succ i =>
      have := ih (writeMem m x v) (x + 1) i (by simpa using h)
      simpa [writeBytes, Nat.add_assoc, Nat.add_comm 1 i] using this

theorem writeMem_head (m : List Host.Cell) (x : Nat) (v : Byte) :
    ∀ c ∈ (writeMem m x v).head?, c.1 = x ∨ c ∈ m.head? := by
  cases m with
  | nil => simp [writeMem]
  | cons c rest =>
    obtain ⟨a, b⟩ := c
    simp only [writeMem]
    split
    · simp
    · split <;> simp

theorem memWf_cons (a : Nat) (b : Byte) (rest : List Host.Cell) :
    memWf ((a, b) :: rest) = true ↔ (∀ c ∈ rest.head?, a < c.1) ∧ memWf rest = true := by
  cases rest with
  | nil => simp [memWf]
  | cons c rest => obtain ⟨a', b'⟩ := c; simp [memWf]

/-- A byte written keeps the canonical form. -/
theorem memWf_writeMem (m : List Host.Cell) (x : Nat) (v : Byte) (h : memWf m = true) : memWf (writeMem m x v) = true := by
  induction m with
  | nil => rfl
  | cons c rest ih =>
    obtain ⟨a, b⟩ := c
    have h' := (memWf_cons a b rest).1 h
    simp only [writeMem]
    split
    · exact (memWf_cons x v _).2 ⟨by simpa using ‹_›, h⟩
    · split
      · subst_vars; exact (memWf_cons _ v _).2 h'
      · refine (memWf_cons a b _).2 ⟨fun c hc => ?_, ih h'.2⟩
        rcases writeMem_head rest x v c hc with h1 | h1
        · omega
        · exact h'.1 c h1

theorem memWf_writeBytes (m : List Host.Cell) (x : Nat) (bytes : List Byte) (h : memWf m = true) :
    memWf (writeBytes m x bytes) = true := by
  induction bytes generalizing m x with
  | nil => exact h
  | cons v rest ih => exact ih _ _ (memWf_writeMem m x v h)

/-- A page write keeps the canonical form. -/
theorem memWf_writePage (data : List (Nat × List Byte)) (s : State) (h : memWf s.mem = true) :
    memWf (writePage data s).mem = true := by
  simp only [writePage]
  generalize s.mem = m at h ⊢
  induction data generalizing m with
  | nil => exact h
  | cons d rest ih => exact ih _ (memWf_writeBytes m _ _ h)

/-- A byte outside every piece of a page write reads as before. -/
theorem readMem_writePage_outside (data : List (Nat × List Byte)) (s : State) {y : Nat}
    (h : ∀ d ∈ data, y < s.pe.base.toNat + d.1 ∨ s.pe.base.toNat + d.1 + d.2.length ≤ y) :
    readMem (writePage data s).mem y = readMem s.mem y := by
  simp only [writePage]
  generalize s.mem = m
  induction data generalizing m with
  | nil => rfl
  | cons d rest ih =>
    rw [List.foldl_cons, ih (fun d' hd => h d' (List.mem_cons_of_mem _ hd))]
    exact readMem_writeBytes_outside _ _ _ (h d List.mem_cons_self)

end Sys2Proof.Machine
end

