-- ==== Sys2Proof/Laws/State.lean ====
section
/-! SUPPORT. One lemma per field per named update of the state, true by unfolding the update: an update changes its own field
and leaves every other as it was. -/

namespace Sys2Proof.Machine

/-! ### raise -/

@[simp] theorem raise_clock (f : AttnFlag) (s : State) : (raise f s).clock = s.clock := rfl
@[simp] theorem raise_lines (f : AttnFlag) (s : State) : (raise f s).lines = s.lines := rfl
@[simp] theorem raise_resetLow (f : AttnFlag) (s : State) : (raise f s).resetLow = s.resetLow := rfl
@[simp] theorem raise_settings (f : AttnFlag) (s : State) : (raise f s).settings = s.settings := rfl
@[simp] theorem raise_tb (f : AttnFlag) (s : State) : (raise f s).tb = s.tb := rfl
@[simp] theorem raise_ports (f : AttnFlag) (s : State) : (raise f s).ports = s.ports := rfl
@[simp] theorem raise_counters (f : AttnFlag) (s : State) : (raise f s).counters = s.counters := rfl
@[simp] theorem raise_builders (f : AttnFlag) (s : State) : (raise f s).builders = s.builders := rfl
@[simp] theorem raise_queue (f : AttnFlag) (s : State) : (raise f s).queue = s.queue := rfl
@[simp] theorem raise_nextRowId (f : AttnFlag) (s : State) : (raise f s).nextRowId = s.nextRowId := rfl
@[simp] theorem raise_capture (f : AttnFlag) (s : State) : (raise f s).capture = s.capture := rfl
@[simp] theorem raise_onsets (f : AttnFlag) (s : State) : (raise f s).onsets = s.onsets := rfl
@[simp] theorem raise_lastOnset (f : AttnFlag) (s : State) : (raise f s).lastOnset = s.lastOnset := rfl
@[simp] theorem raise_est (f : AttnFlag) (s : State) : (raise f s).est = s.est := rfl
@[simp] theorem raise_la (f : AttnFlag) (s : State) : (raise f s).la = s.la := rfl
@[simp] theorem raise_air (f : AttnFlag) (s : State) : (raise f s).air = s.air := rfl
@[simp] theorem raise_disp (f : AttnFlag) (s : State) : (raise f s).disp = s.disp := rfl
@[simp] theorem raise_out (f : AttnFlag) (s : State) : (raise f s).out = s.out := rfl
@[simp] theorem raise_pe (f : AttnFlag) (s : State) : (raise f s).pe = s.pe := rfl
@[simp] theorem raise_mem (f : AttnFlag) (s : State) : (raise f s).mem = s.mem := rfl
@[simp] theorem raise_work (f : AttnFlag) (s : State) : (raise f s).work = s.work := rfl
@[simp] theorem raise_pending (f : AttnFlag) (s : State) : (raise f s).pending = s.pending := rfl

/-! ### lower -/

@[simp] theorem lower_clock (f : AttnFlag) (s : State) : (lower f s).clock = s.clock := rfl
@[simp] theorem lower_lines (f : AttnFlag) (s : State) : (lower f s).lines = s.lines := rfl
@[simp] theorem lower_resetLow (f : AttnFlag) (s : State) : (lower f s).resetLow = s.resetLow := rfl
@[simp] theorem lower_settings (f : AttnFlag) (s : State) : (lower f s).settings = s.settings := rfl
@[simp] theorem lower_tb (f : AttnFlag) (s : State) : (lower f s).tb = s.tb := rfl
@[simp] theorem lower_ports (f : AttnFlag) (s : State) : (lower f s).ports = s.ports := rfl
@[simp] theorem lower_counters (f : AttnFlag) (s : State) : (lower f s).counters = s.counters := rfl
@[simp] theorem lower_builders (f : AttnFlag) (s : State) : (lower f s).builders = s.builders := rfl
@[simp] theorem lower_queue (f : AttnFlag) (s : State) : (lower f s).queue = s.queue := rfl
@[simp] theorem lower_nextRowId (f : AttnFlag) (s : State) : (lower f s).nextRowId = s.nextRowId := rfl
@[simp] theorem lower_capture (f : AttnFlag) (s : State) : (lower f s).capture = s.capture := rfl
@[simp] theorem lower_onsets (f : AttnFlag) (s : State) : (lower f s).onsets = s.onsets := rfl
@[simp] theorem lower_lastOnset (f : AttnFlag) (s : State) : (lower f s).lastOnset = s.lastOnset := rfl
@[simp] theorem lower_est (f : AttnFlag) (s : State) : (lower f s).est = s.est := rfl
@[simp] theorem lower_la (f : AttnFlag) (s : State) : (lower f s).la = s.la := rfl
@[simp] theorem lower_air (f : AttnFlag) (s : State) : (lower f s).air = s.air := rfl
@[simp] theorem lower_disp (f : AttnFlag) (s : State) : (lower f s).disp = s.disp := rfl
@[simp] theorem lower_out (f : AttnFlag) (s : State) : (lower f s).out = s.out := rfl
@[simp] theorem lower_pe (f : AttnFlag) (s : State) : (lower f s).pe = s.pe := rfl
@[simp] theorem lower_mem (f : AttnFlag) (s : State) : (lower f s).mem = s.mem := rfl
@[simp] theorem lower_work (f : AttnFlag) (s : State) : (lower f s).work = s.work := rfl
@[simp] theorem lower_pending (f : AttnFlag) (s : State) : (lower f s).pending = s.pending := rfl

/-! ### holdTick -/

@[simp] theorem holdTick_clock  (s : State) : (holdTick s).clock = s.clock := rfl
@[simp] theorem holdTick_lines  (s : State) : (holdTick s).lines = s.lines := rfl
@[simp] theorem holdTick_resetLow  (s : State) : (holdTick s).resetLow = s.resetLow := rfl
@[simp] theorem holdTick_control  (s : State) : (holdTick s).control = s.control := rfl
@[simp] theorem holdTick_settings  (s : State) : (holdTick s).settings = s.settings := rfl
@[simp] theorem holdTick_ports  (s : State) : (holdTick s).ports = s.ports := rfl
@[simp] theorem holdTick_counters  (s : State) : (holdTick s).counters = s.counters := rfl
@[simp] theorem holdTick_builders  (s : State) : (holdTick s).builders = s.builders := rfl
@[simp] theorem holdTick_queue  (s : State) : (holdTick s).queue = s.queue := rfl
@[simp] theorem holdTick_nextRowId  (s : State) : (holdTick s).nextRowId = s.nextRowId := rfl
@[simp] theorem holdTick_capture  (s : State) : (holdTick s).capture = s.capture := rfl
@[simp] theorem holdTick_onsets  (s : State) : (holdTick s).onsets = s.onsets := rfl
@[simp] theorem holdTick_lastOnset  (s : State) : (holdTick s).lastOnset = s.lastOnset := rfl
@[simp] theorem holdTick_est  (s : State) : (holdTick s).est = s.est := rfl
@[simp] theorem holdTick_la  (s : State) : (holdTick s).la = s.la := rfl
@[simp] theorem holdTick_air  (s : State) : (holdTick s).air = s.air := rfl
@[simp] theorem holdTick_disp  (s : State) : (holdTick s).disp = s.disp := rfl
@[simp] theorem holdTick_out  (s : State) : (holdTick s).out = s.out := rfl
@[simp] theorem holdTick_pe  (s : State) : (holdTick s).pe = s.pe := rfl
@[simp] theorem holdTick_mem  (s : State) : (holdTick s).mem = s.mem := rfl
@[simp] theorem holdTick_work  (s : State) : (holdTick s).work = s.work := rfl
@[simp] theorem holdTick_pending  (s : State) : (holdTick s).pending = s.pending := rfl

/-! ### count -/

@[simp] theorem count_clock (w : Writer) (f : Counters → Counters) (s : State) : (count w f s).clock = s.clock := rfl
@[simp] theorem count_lines (w : Writer) (f : Counters → Counters) (s : State) : (count w f s).lines = s.lines := rfl
@[simp] theorem count_resetLow (w : Writer) (f : Counters → Counters) (s : State) : (count w f s).resetLow = s.resetLow := rfl
@[simp] theorem count_control (w : Writer) (f : Counters → Counters) (s : State) : (count w f s).control = s.control := rfl
@[simp] theorem count_settings (w : Writer) (f : Counters → Counters) (s : State) : (count w f s).settings = s.settings := rfl
@[simp] theorem count_tb (w : Writer) (f : Counters → Counters) (s : State) : (count w f s).tb = s.tb := rfl
@[simp] theorem count_ports (w : Writer) (f : Counters → Counters) (s : State) : (count w f s).ports = s.ports := rfl
@[simp] theorem count_builders (w : Writer) (f : Counters → Counters) (s : State) : (count w f s).builders = s.builders := rfl
@[simp] theorem count_queue (w : Writer) (f : Counters → Counters) (s : State) : (count w f s).queue = s.queue := rfl
@[simp] theorem count_nextRowId (w : Writer) (f : Counters → Counters) (s : State) : (count w f s).nextRowId = s.nextRowId := rfl
@[simp] theorem count_capture (w : Writer) (f : Counters → Counters) (s : State) : (count w f s).capture = s.capture := rfl
@[simp] theorem count_onsets (w : Writer) (f : Counters → Counters) (s : State) : (count w f s).onsets = s.onsets := rfl
@[simp] theorem count_lastOnset (w : Writer) (f : Counters → Counters) (s : State) : (count w f s).lastOnset = s.lastOnset := rfl
@[simp] theorem count_est (w : Writer) (f : Counters → Counters) (s : State) : (count w f s).est = s.est := rfl
@[simp] theorem count_la (w : Writer) (f : Counters → Counters) (s : State) : (count w f s).la = s.la := rfl
@[simp] theorem count_air (w : Writer) (f : Counters → Counters) (s : State) : (count w f s).air = s.air := rfl
@[simp] theorem count_disp (w : Writer) (f : Counters → Counters) (s : State) : (count w f s).disp = s.disp := rfl
@[simp] theorem count_out (w : Writer) (f : Counters → Counters) (s : State) : (count w f s).out = s.out := rfl
@[simp] theorem count_pe (w : Writer) (f : Counters → Counters) (s : State) : (count w f s).pe = s.pe := rfl
@[simp] theorem count_mem (w : Writer) (f : Counters → Counters) (s : State) : (count w f s).mem = s.mem := rfl
@[simp] theorem count_work (w : Writer) (f : Counters → Counters) (s : State) : (count w f s).work = s.work := rfl
@[simp] theorem count_pending (w : Writer) (f : Counters → Counters) (s : State) : (count w f s).pending = s.pending := rfl

/-! ### onPort -/

@[simp] theorem onPort_clock (w : Writer) (f : Port → Port) (s : State) : (onPort w f s).clock = s.clock := rfl
@[simp] theorem onPort_lines (w : Writer) (f : Port → Port) (s : State) : (onPort w f s).lines = s.lines := rfl
@[simp] theorem onPort_resetLow (w : Writer) (f : Port → Port) (s : State) : (onPort w f s).resetLow = s.resetLow := rfl
@[simp] theorem onPort_control (w : Writer) (f : Port → Port) (s : State) : (onPort w f s).control = s.control := rfl
@[simp] theorem onPort_settings (w : Writer) (f : Port → Port) (s : State) : (onPort w f s).settings = s.settings := rfl
@[simp] theorem onPort_tb (w : Writer) (f : Port → Port) (s : State) : (onPort w f s).tb = s.tb := rfl
@[simp] theorem onPort_counters (w : Writer) (f : Port → Port) (s : State) : (onPort w f s).counters = s.counters := rfl
@[simp] theorem onPort_builders (w : Writer) (f : Port → Port) (s : State) : (onPort w f s).builders = s.builders := rfl
@[simp] theorem onPort_queue (w : Writer) (f : Port → Port) (s : State) : (onPort w f s).queue = s.queue := rfl
@[simp] theorem onPort_nextRowId (w : Writer) (f : Port → Port) (s : State) : (onPort w f s).nextRowId = s.nextRowId := rfl
@[simp] theorem onPort_capture (w : Writer) (f : Port → Port) (s : State) : (onPort w f s).capture = s.capture := rfl
@[simp] theorem onPort_onsets (w : Writer) (f : Port → Port) (s : State) : (onPort w f s).onsets = s.onsets := rfl
@[simp] theorem onPort_lastOnset (w : Writer) (f : Port → Port) (s : State) : (onPort w f s).lastOnset = s.lastOnset := rfl
@[simp] theorem onPort_est (w : Writer) (f : Port → Port) (s : State) : (onPort w f s).est = s.est := rfl
@[simp] theorem onPort_la (w : Writer) (f : Port → Port) (s : State) : (onPort w f s).la = s.la := rfl
@[simp] theorem onPort_air (w : Writer) (f : Port → Port) (s : State) : (onPort w f s).air = s.air := rfl
@[simp] theorem onPort_disp (w : Writer) (f : Port → Port) (s : State) : (onPort w f s).disp = s.disp := rfl
@[simp] theorem onPort_out (w : Writer) (f : Port → Port) (s : State) : (onPort w f s).out = s.out := rfl
@[simp] theorem onPort_pe (w : Writer) (f : Port → Port) (s : State) : (onPort w f s).pe = s.pe := rfl
@[simp] theorem onPort_mem (w : Writer) (f : Port → Port) (s : State) : (onPort w f s).mem = s.mem := rfl
@[simp] theorem onPort_work (w : Writer) (f : Port → Port) (s : State) : (onPort w f s).work = s.work := rfl
@[simp] theorem onPort_pending (w : Writer) (f : Port → Port) (s : State) : (onPort w f s).pending = s.pending := rfl

/-! ### onBuilder -/

@[simp] theorem onBuilder_clock (w : Writer) (f : Builder → Builder) (s : State) : (onBuilder w f s).clock = s.clock := rfl
@[simp] theorem onBuilder_lines (w : Writer) (f : Builder → Builder) (s : State) : (onBuilder w f s).lines = s.lines := rfl
@[simp] theorem onBuilder_resetLow (w : Writer) (f : Builder → Builder) (s : State) : (onBuilder w f s).resetLow = s.resetLow := rfl
@[simp] theorem onBuilder_control (w : Writer) (f : Builder → Builder) (s : State) : (onBuilder w f s).control = s.control := rfl
@[simp] theorem onBuilder_settings (w : Writer) (f : Builder → Builder) (s : State) : (onBuilder w f s).settings = s.settings := rfl
@[simp] theorem onBuilder_tb (w : Writer) (f : Builder → Builder) (s : State) : (onBuilder w f s).tb = s.tb := rfl
@[simp] theorem onBuilder_ports (w : Writer) (f : Builder → Builder) (s : State) : (onBuilder w f s).ports = s.ports := rfl
@[simp] theorem onBuilder_counters (w : Writer) (f : Builder → Builder) (s : State) : (onBuilder w f s).counters = s.counters := rfl
@[simp] theorem onBuilder_queue (w : Writer) (f : Builder → Builder) (s : State) : (onBuilder w f s).queue = s.queue := rfl
@[simp] theorem onBuilder_nextRowId (w : Writer) (f : Builder → Builder) (s : State) : (onBuilder w f s).nextRowId = s.nextRowId := rfl
@[simp] theorem onBuilder_capture (w : Writer) (f : Builder → Builder) (s : State) : (onBuilder w f s).capture = s.capture := rfl
@[simp] theorem onBuilder_onsets (w : Writer) (f : Builder → Builder) (s : State) : (onBuilder w f s).onsets = s.onsets := rfl
@[simp] theorem onBuilder_lastOnset (w : Writer) (f : Builder → Builder) (s : State) : (onBuilder w f s).lastOnset = s.lastOnset := rfl
@[simp] theorem onBuilder_est (w : Writer) (f : Builder → Builder) (s : State) : (onBuilder w f s).est = s.est := rfl
@[simp] theorem onBuilder_la (w : Writer) (f : Builder → Builder) (s : State) : (onBuilder w f s).la = s.la := rfl
@[simp] theorem onBuilder_air (w : Writer) (f : Builder → Builder) (s : State) : (onBuilder w f s).air = s.air := rfl
@[simp] theorem onBuilder_disp (w : Writer) (f : Builder → Builder) (s : State) : (onBuilder w f s).disp = s.disp := rfl
@[simp] theorem onBuilder_out (w : Writer) (f : Builder → Builder) (s : State) : (onBuilder w f s).out = s.out := rfl
@[simp] theorem onBuilder_pe (w : Writer) (f : Builder → Builder) (s : State) : (onBuilder w f s).pe = s.pe := rfl
@[simp] theorem onBuilder_mem (w : Writer) (f : Builder → Builder) (s : State) : (onBuilder w f s).mem = s.mem := rfl
@[simp] theorem onBuilder_work (w : Writer) (f : Builder → Builder) (s : State) : (onBuilder w f s).work = s.work := rfl
@[simp] theorem onBuilder_pending (w : Writer) (f : Builder → Builder) (s : State) : (onBuilder w f s).pending = s.pending := rfl

/-! ### onEst -/

@[simp] theorem onEst_clock (w : Writer) (f : Estimator → Estimator) (s : State) : (onEst w f s).clock = s.clock := rfl
@[simp] theorem onEst_lines (w : Writer) (f : Estimator → Estimator) (s : State) : (onEst w f s).lines = s.lines := rfl
@[simp] theorem onEst_resetLow (w : Writer) (f : Estimator → Estimator) (s : State) : (onEst w f s).resetLow = s.resetLow := rfl
@[simp] theorem onEst_control (w : Writer) (f : Estimator → Estimator) (s : State) : (onEst w f s).control = s.control := rfl
@[simp] theorem onEst_settings (w : Writer) (f : Estimator → Estimator) (s : State) : (onEst w f s).settings = s.settings := rfl
@[simp] theorem onEst_tb (w : Writer) (f : Estimator → Estimator) (s : State) : (onEst w f s).tb = s.tb := rfl
@[simp] theorem onEst_ports (w : Writer) (f : Estimator → Estimator) (s : State) : (onEst w f s).ports = s.ports := rfl
@[simp] theorem onEst_counters (w : Writer) (f : Estimator → Estimator) (s : State) : (onEst w f s).counters = s.counters := rfl
@[simp] theorem onEst_builders (w : Writer) (f : Estimator → Estimator) (s : State) : (onEst w f s).builders = s.builders := rfl
@[simp] theorem onEst_queue (w : Writer) (f : Estimator → Estimator) (s : State) : (onEst w f s).queue = s.queue := rfl
@[simp] theorem onEst_nextRowId (w : Writer) (f : Estimator → Estimator) (s : State) : (onEst w f s).nextRowId = s.nextRowId := rfl
@[simp] theorem onEst_capture (w : Writer) (f : Estimator → Estimator) (s : State) : (onEst w f s).capture = s.capture := rfl
@[simp] theorem onEst_onsets (w : Writer) (f : Estimator → Estimator) (s : State) : (onEst w f s).onsets = s.onsets := rfl
@[simp] theorem onEst_lastOnset (w : Writer) (f : Estimator → Estimator) (s : State) : (onEst w f s).lastOnset = s.lastOnset := rfl
@[simp] theorem onEst_la (w : Writer) (f : Estimator → Estimator) (s : State) : (onEst w f s).la = s.la := rfl
@[simp] theorem onEst_air (w : Writer) (f : Estimator → Estimator) (s : State) : (onEst w f s).air = s.air := rfl
@[simp] theorem onEst_disp (w : Writer) (f : Estimator → Estimator) (s : State) : (onEst w f s).disp = s.disp := rfl
@[simp] theorem onEst_out (w : Writer) (f : Estimator → Estimator) (s : State) : (onEst w f s).out = s.out := rfl
@[simp] theorem onEst_pe (w : Writer) (f : Estimator → Estimator) (s : State) : (onEst w f s).pe = s.pe := rfl
@[simp] theorem onEst_mem (w : Writer) (f : Estimator → Estimator) (s : State) : (onEst w f s).mem = s.mem := rfl
@[simp] theorem onEst_work (w : Writer) (f : Estimator → Estimator) (s : State) : (onEst w f s).work = s.work := rfl
@[simp] theorem onEst_pending (w : Writer) (f : Estimator → Estimator) (s : State) : (onEst w f s).pending = s.pending := rfl

/-! ### writePage -/

@[simp] theorem writePage_clock (data : List (Nat × List Byte)) (s : State) : (writePage data s).clock = s.clock := rfl
@[simp] theorem writePage_lines (data : List (Nat × List Byte)) (s : State) : (writePage data s).lines = s.lines := rfl
@[simp] theorem writePage_resetLow (data : List (Nat × List Byte)) (s : State) : (writePage data s).resetLow = s.resetLow := rfl
@[simp] theorem writePage_control (data : List (Nat × List Byte)) (s : State) : (writePage data s).control = s.control := rfl
@[simp] theorem writePage_settings (data : List (Nat × List Byte)) (s : State) : (writePage data s).settings = s.settings := rfl
@[simp] theorem writePage_tb (data : List (Nat × List Byte)) (s : State) : (writePage data s).tb = s.tb := rfl
@[simp] theorem writePage_ports (data : List (Nat × List Byte)) (s : State) : (writePage data s).ports = s.ports := rfl
@[simp] theorem writePage_counters (data : List (Nat × List Byte)) (s : State) : (writePage data s).counters = s.counters := rfl
@[simp] theorem writePage_builders (data : List (Nat × List Byte)) (s : State) : (writePage data s).builders = s.builders := rfl
@[simp] theorem writePage_queue (data : List (Nat × List Byte)) (s : State) : (writePage data s).queue = s.queue := rfl
@[simp] theorem writePage_nextRowId (data : List (Nat × List Byte)) (s : State) : (writePage data s).nextRowId = s.nextRowId := rfl
@[simp] theorem writePage_capture (data : List (Nat × List Byte)) (s : State) : (writePage data s).capture = s.capture := rfl
@[simp] theorem writePage_onsets (data : List (Nat × List Byte)) (s : State) : (writePage data s).onsets = s.onsets := rfl
@[simp] theorem writePage_lastOnset (data : List (Nat × List Byte)) (s : State) : (writePage data s).lastOnset = s.lastOnset := rfl
@[simp] theorem writePage_est (data : List (Nat × List Byte)) (s : State) : (writePage data s).est = s.est := rfl
@[simp] theorem writePage_la (data : List (Nat × List Byte)) (s : State) : (writePage data s).la = s.la := rfl
@[simp] theorem writePage_air (data : List (Nat × List Byte)) (s : State) : (writePage data s).air = s.air := rfl
@[simp] theorem writePage_disp (data : List (Nat × List Byte)) (s : State) : (writePage data s).disp = s.disp := rfl
@[simp] theorem writePage_out (data : List (Nat × List Byte)) (s : State) : (writePage data s).out = s.out := rfl
@[simp] theorem writePage_pe (data : List (Nat × List Byte)) (s : State) : (writePage data s).pe = s.pe := rfl
@[simp] theorem writePage_work (data : List (Nat × List Byte)) (s : State) : (writePage data s).work = s.work := rfl
@[simp] theorem writePage_pending (data : List (Nat × List Byte)) (s : State) : (writePage data s).pending = s.pending := rfl

/-! ### storeCue -/

@[simp] theorem storeCue_clock (n : SlotNo) (c : Option Cue) (s : State) : (storeCue n c s).clock = s.clock := rfl
@[simp] theorem storeCue_lines (n : SlotNo) (c : Option Cue) (s : State) : (storeCue n c s).lines = s.lines := rfl
@[simp] theorem storeCue_resetLow (n : SlotNo) (c : Option Cue) (s : State) : (storeCue n c s).resetLow = s.resetLow := rfl
@[simp] theorem storeCue_control (n : SlotNo) (c : Option Cue) (s : State) : (storeCue n c s).control = s.control := rfl
@[simp] theorem storeCue_settings (n : SlotNo) (c : Option Cue) (s : State) : (storeCue n c s).settings = s.settings := rfl
@[simp] theorem storeCue_tb (n : SlotNo) (c : Option Cue) (s : State) : (storeCue n c s).tb = s.tb := rfl
@[simp] theorem storeCue_ports (n : SlotNo) (c : Option Cue) (s : State) : (storeCue n c s).ports = s.ports := rfl
@[simp] theorem storeCue_counters (n : SlotNo) (c : Option Cue) (s : State) : (storeCue n c s).counters = s.counters := rfl
@[simp] theorem storeCue_builders (n : SlotNo) (c : Option Cue) (s : State) : (storeCue n c s).builders = s.builders := rfl
@[simp] theorem storeCue_queue (n : SlotNo) (c : Option Cue) (s : State) : (storeCue n c s).queue = s.queue := rfl
@[simp] theorem storeCue_nextRowId (n : SlotNo) (c : Option Cue) (s : State) : (storeCue n c s).nextRowId = s.nextRowId := rfl
@[simp] theorem storeCue_capture (n : SlotNo) (c : Option Cue) (s : State) : (storeCue n c s).capture = s.capture := rfl
@[simp] theorem storeCue_onsets (n : SlotNo) (c : Option Cue) (s : State) : (storeCue n c s).onsets = s.onsets := rfl
@[simp] theorem storeCue_lastOnset (n : SlotNo) (c : Option Cue) (s : State) : (storeCue n c s).lastOnset = s.lastOnset := rfl
@[simp] theorem storeCue_est (n : SlotNo) (c : Option Cue) (s : State) : (storeCue n c s).est = s.est := rfl
@[simp] theorem storeCue_la (n : SlotNo) (c : Option Cue) (s : State) : (storeCue n c s).la = s.la := rfl
@[simp] theorem storeCue_air (n : SlotNo) (c : Option Cue) (s : State) : (storeCue n c s).air = s.air := rfl
@[simp] theorem storeCue_out (n : SlotNo) (c : Option Cue) (s : State) : (storeCue n c s).out = s.out := rfl
@[simp] theorem storeCue_pe (n : SlotNo) (c : Option Cue) (s : State) : (storeCue n c s).pe = s.pe := rfl
@[simp] theorem storeCue_mem (n : SlotNo) (c : Option Cue) (s : State) : (storeCue n c s).mem = s.mem := rfl
@[simp] theorem storeCue_work (n : SlotNo) (c : Option Cue) (s : State) : (storeCue n c s).work = s.work := rfl
@[simp] theorem storeCue_pending (n : SlotNo) (c : Option Cue) (s : State) : (storeCue n c s).pending = s.pending := rfl

/-! ### storeCtx -/

@[simp] theorem storeCtx_clock (k : CtxNo) (x : Option Context) (s : State) : (storeCtx k x s).clock = s.clock := rfl
@[simp] theorem storeCtx_lines (k : CtxNo) (x : Option Context) (s : State) : (storeCtx k x s).lines = s.lines := rfl
@[simp] theorem storeCtx_resetLow (k : CtxNo) (x : Option Context) (s : State) : (storeCtx k x s).resetLow = s.resetLow := rfl
@[simp] theorem storeCtx_control (k : CtxNo) (x : Option Context) (s : State) : (storeCtx k x s).control = s.control := rfl
@[simp] theorem storeCtx_settings (k : CtxNo) (x : Option Context) (s : State) : (storeCtx k x s).settings = s.settings := rfl
@[simp] theorem storeCtx_tb (k : CtxNo) (x : Option Context) (s : State) : (storeCtx k x s).tb = s.tb := rfl
@[simp] theorem storeCtx_ports (k : CtxNo) (x : Option Context) (s : State) : (storeCtx k x s).ports = s.ports := rfl
@[simp] theorem storeCtx_counters (k : CtxNo) (x : Option Context) (s : State) : (storeCtx k x s).counters = s.counters := rfl
@[simp] theorem storeCtx_builders (k : CtxNo) (x : Option Context) (s : State) : (storeCtx k x s).builders = s.builders := rfl
@[simp] theorem storeCtx_queue (k : CtxNo) (x : Option Context) (s : State) : (storeCtx k x s).queue = s.queue := rfl
@[simp] theorem storeCtx_nextRowId (k : CtxNo) (x : Option Context) (s : State) : (storeCtx k x s).nextRowId = s.nextRowId := rfl
@[simp] theorem storeCtx_capture (k : CtxNo) (x : Option Context) (s : State) : (storeCtx k x s).capture = s.capture := rfl
@[simp] theorem storeCtx_onsets (k : CtxNo) (x : Option Context) (s : State) : (storeCtx k x s).onsets = s.onsets := rfl
@[simp] theorem storeCtx_lastOnset (k : CtxNo) (x : Option Context) (s : State) : (storeCtx k x s).lastOnset = s.lastOnset := rfl
@[simp] theorem storeCtx_est (k : CtxNo) (x : Option Context) (s : State) : (storeCtx k x s).est = s.est := rfl
@[simp] theorem storeCtx_la (k : CtxNo) (x : Option Context) (s : State) : (storeCtx k x s).la = s.la := rfl
@[simp] theorem storeCtx_air (k : CtxNo) (x : Option Context) (s : State) : (storeCtx k x s).air = s.air := rfl
@[simp] theorem storeCtx_out (k : CtxNo) (x : Option Context) (s : State) : (storeCtx k x s).out = s.out := rfl
@[simp] theorem storeCtx_pe (k : CtxNo) (x : Option Context) (s : State) : (storeCtx k x s).pe = s.pe := rfl
@[simp] theorem storeCtx_mem (k : CtxNo) (x : Option Context) (s : State) : (storeCtx k x s).mem = s.mem := rfl
@[simp] theorem storeCtx_work (k : CtxNo) (x : Option Context) (s : State) : (storeCtx k x s).work = s.work := rfl
@[simp] theorem storeCtx_pending (k : CtxNo) (x : Option Context) (s : State) : (storeCtx k x s).pending = s.pending := rfl

/-! ### withStack -/

@[simp] theorem withStack_clock (stack : List Owner) (s : State) : (withStack stack s).clock = s.clock := rfl
@[simp] theorem withStack_lines (stack : List Owner) (s : State) : (withStack stack s).lines = s.lines := rfl
@[simp] theorem withStack_resetLow (stack : List Owner) (s : State) : (withStack stack s).resetLow = s.resetLow := rfl
@[simp] theorem withStack_control (stack : List Owner) (s : State) : (withStack stack s).control = s.control := rfl
@[simp] theorem withStack_settings (stack : List Owner) (s : State) : (withStack stack s).settings = s.settings := rfl
@[simp] theorem withStack_tb (stack : List Owner) (s : State) : (withStack stack s).tb = s.tb := rfl
@[simp] theorem withStack_ports (stack : List Owner) (s : State) : (withStack stack s).ports = s.ports := rfl
@[simp] theorem withStack_counters (stack : List Owner) (s : State) : (withStack stack s).counters = s.counters := rfl
@[simp] theorem withStack_builders (stack : List Owner) (s : State) : (withStack stack s).builders = s.builders := rfl
@[simp] theorem withStack_queue (stack : List Owner) (s : State) : (withStack stack s).queue = s.queue := rfl
@[simp] theorem withStack_nextRowId (stack : List Owner) (s : State) : (withStack stack s).nextRowId = s.nextRowId := rfl
@[simp] theorem withStack_capture (stack : List Owner) (s : State) : (withStack stack s).capture = s.capture := rfl
@[simp] theorem withStack_onsets (stack : List Owner) (s : State) : (withStack stack s).onsets = s.onsets := rfl
@[simp] theorem withStack_lastOnset (stack : List Owner) (s : State) : (withStack stack s).lastOnset = s.lastOnset := rfl
@[simp] theorem withStack_est (stack : List Owner) (s : State) : (withStack stack s).est = s.est := rfl
@[simp] theorem withStack_la (stack : List Owner) (s : State) : (withStack stack s).la = s.la := rfl
@[simp] theorem withStack_air (stack : List Owner) (s : State) : (withStack stack s).air = s.air := rfl
@[simp] theorem withStack_out (stack : List Owner) (s : State) : (withStack stack s).out = s.out := rfl
@[simp] theorem withStack_pe (stack : List Owner) (s : State) : (withStack stack s).pe = s.pe := rfl
@[simp] theorem withStack_mem (stack : List Owner) (s : State) : (withStack stack s).mem = s.mem := rfl
@[simp] theorem withStack_work (stack : List Owner) (s : State) : (withStack stack s).work = s.work := rfl
@[simp] theorem withStack_pending (stack : List Owner) (s : State) : (withStack stack s).pending = s.pending := rfl

/-! ### markSlot -/

@[simp] theorem markSlot_clock (n : SlotNo) (s : State) : (markSlot n s).clock = s.clock := rfl
@[simp] theorem markSlot_lines (n : SlotNo) (s : State) : (markSlot n s).lines = s.lines := rfl
@[simp] theorem markSlot_resetLow (n : SlotNo) (s : State) : (markSlot n s).resetLow = s.resetLow := rfl
@[simp] theorem markSlot_control (n : SlotNo) (s : State) : (markSlot n s).control = s.control := rfl
@[simp] theorem markSlot_settings (n : SlotNo) (s : State) : (markSlot n s).settings = s.settings := rfl
@[simp] theorem markSlot_tb (n : SlotNo) (s : State) : (markSlot n s).tb = s.tb := rfl
@[simp] theorem markSlot_ports (n : SlotNo) (s : State) : (markSlot n s).ports = s.ports := rfl
@[simp] theorem markSlot_counters (n : SlotNo) (s : State) : (markSlot n s).counters = s.counters := rfl
@[simp] theorem markSlot_builders (n : SlotNo) (s : State) : (markSlot n s).builders = s.builders := rfl
@[simp] theorem markSlot_queue (n : SlotNo) (s : State) : (markSlot n s).queue = s.queue := rfl
@[simp] theorem markSlot_nextRowId (n : SlotNo) (s : State) : (markSlot n s).nextRowId = s.nextRowId := rfl
@[simp] theorem markSlot_capture (n : SlotNo) (s : State) : (markSlot n s).capture = s.capture := rfl
@[simp] theorem markSlot_onsets (n : SlotNo) (s : State) : (markSlot n s).onsets = s.onsets := rfl
@[simp] theorem markSlot_lastOnset (n : SlotNo) (s : State) : (markSlot n s).lastOnset = s.lastOnset := rfl
@[simp] theorem markSlot_est (n : SlotNo) (s : State) : (markSlot n s).est = s.est := rfl
@[simp] theorem markSlot_la (n : SlotNo) (s : State) : (markSlot n s).la = s.la := rfl
@[simp] theorem markSlot_air (n : SlotNo) (s : State) : (markSlot n s).air = s.air := rfl
@[simp] theorem markSlot_disp (n : SlotNo) (s : State) : (markSlot n s).disp = s.disp := rfl
@[simp] theorem markSlot_out (n : SlotNo) (s : State) : (markSlot n s).out = s.out := rfl
@[simp] theorem markSlot_mem (n : SlotNo) (s : State) : (markSlot n s).mem = s.mem := rfl
@[simp] theorem markSlot_work (n : SlotNo) (s : State) : (markSlot n s).work = s.work := rfl
@[simp] theorem markSlot_pending (n : SlotNo) (s : State) : (markSlot n s).pending = s.pending := rfl

/-! ### withOp -/

@[simp] theorem withOp_clock (op : Option PageOp) (s : State) : (withOp op s).clock = s.clock := rfl
@[simp] theorem withOp_lines (op : Option PageOp) (s : State) : (withOp op s).lines = s.lines := rfl
@[simp] theorem withOp_resetLow (op : Option PageOp) (s : State) : (withOp op s).resetLow = s.resetLow := rfl
@[simp] theorem withOp_control (op : Option PageOp) (s : State) : (withOp op s).control = s.control := rfl
@[simp] theorem withOp_settings (op : Option PageOp) (s : State) : (withOp op s).settings = s.settings := rfl
@[simp] theorem withOp_tb (op : Option PageOp) (s : State) : (withOp op s).tb = s.tb := rfl
@[simp] theorem withOp_ports (op : Option PageOp) (s : State) : (withOp op s).ports = s.ports := rfl
@[simp] theorem withOp_counters (op : Option PageOp) (s : State) : (withOp op s).counters = s.counters := rfl
@[simp] theorem withOp_builders (op : Option PageOp) (s : State) : (withOp op s).builders = s.builders := rfl
@[simp] theorem withOp_queue (op : Option PageOp) (s : State) : (withOp op s).queue = s.queue := rfl
@[simp] theorem withOp_nextRowId (op : Option PageOp) (s : State) : (withOp op s).nextRowId = s.nextRowId := rfl
@[simp] theorem withOp_capture (op : Option PageOp) (s : State) : (withOp op s).capture = s.capture := rfl
@[simp] theorem withOp_onsets (op : Option PageOp) (s : State) : (withOp op s).onsets = s.onsets := rfl
@[simp] theorem withOp_lastOnset (op : Option PageOp) (s : State) : (withOp op s).lastOnset = s.lastOnset := rfl
@[simp] theorem withOp_est (op : Option PageOp) (s : State) : (withOp op s).est = s.est := rfl
@[simp] theorem withOp_la (op : Option PageOp) (s : State) : (withOp op s).la = s.la := rfl
@[simp] theorem withOp_air (op : Option PageOp) (s : State) : (withOp op s).air = s.air := rfl
@[simp] theorem withOp_disp (op : Option PageOp) (s : State) : (withOp op s).disp = s.disp := rfl
@[simp] theorem withOp_out (op : Option PageOp) (s : State) : (withOp op s).out = s.out := rfl
@[simp] theorem withOp_mem (op : Option PageOp) (s : State) : (withOp op s).mem = s.mem := rfl
@[simp] theorem withOp_work (op : Option PageOp) (s : State) : (withOp op s).work = s.work := rfl
@[simp] theorem withOp_pending (op : Option PageOp) (s : State) : (withOp op s).pending = s.pending := rfl

/-! ### setForced -/

@[simp] theorem setForced_clock (f : Option Writer) (s : State) : (setForced f s).clock = s.clock := rfl
@[simp] theorem setForced_lines (f : Option Writer) (s : State) : (setForced f s).lines = s.lines := rfl
@[simp] theorem setForced_resetLow (f : Option Writer) (s : State) : (setForced f s).resetLow = s.resetLow := rfl
@[simp] theorem setForced_control (f : Option Writer) (s : State) : (setForced f s).control = s.control := rfl
@[simp] theorem setForced_tb (f : Option Writer) (s : State) : (setForced f s).tb = s.tb := rfl
@[simp] theorem setForced_ports (f : Option Writer) (s : State) : (setForced f s).ports = s.ports := rfl
@[simp] theorem setForced_counters (f : Option Writer) (s : State) : (setForced f s).counters = s.counters := rfl
@[simp] theorem setForced_builders (f : Option Writer) (s : State) : (setForced f s).builders = s.builders := rfl
@[simp] theorem setForced_queue (f : Option Writer) (s : State) : (setForced f s).queue = s.queue := rfl
@[simp] theorem setForced_nextRowId (f : Option Writer) (s : State) : (setForced f s).nextRowId = s.nextRowId := rfl
@[simp] theorem setForced_capture (f : Option Writer) (s : State) : (setForced f s).capture = s.capture := rfl
@[simp] theorem setForced_onsets (f : Option Writer) (s : State) : (setForced f s).onsets = s.onsets := rfl
@[simp] theorem setForced_lastOnset (f : Option Writer) (s : State) : (setForced f s).lastOnset = s.lastOnset := rfl
@[simp] theorem setForced_est (f : Option Writer) (s : State) : (setForced f s).est = s.est := rfl
@[simp] theorem setForced_la (f : Option Writer) (s : State) : (setForced f s).la = s.la := rfl
@[simp] theorem setForced_air (f : Option Writer) (s : State) : (setForced f s).air = s.air := rfl
@[simp] theorem setForced_disp (f : Option Writer) (s : State) : (setForced f s).disp = s.disp := rfl
@[simp] theorem setForced_out (f : Option Writer) (s : State) : (setForced f s).out = s.out := rfl
@[simp] theorem setForced_pe (f : Option Writer) (s : State) : (setForced f s).pe = s.pe := rfl
@[simp] theorem setForced_mem (f : Option Writer) (s : State) : (setForced f s).mem = s.mem := rfl
@[simp] theorem setForced_work (f : Option Writer) (s : State) : (setForced f s).work = s.work := rfl
@[simp] theorem setForced_pending (f : Option Writer) (s : State) : (setForced f s).pending = s.pending := rfl

/-! ### setCursor -/

@[simp] theorem setCursor_clock (id : Option Word32) (s : State) : (setCursor id s).clock = s.clock := rfl
@[simp] theorem setCursor_lines (id : Option Word32) (s : State) : (setCursor id s).lines = s.lines := rfl
@[simp] theorem setCursor_resetLow (id : Option Word32) (s : State) : (setCursor id s).resetLow = s.resetLow := rfl
@[simp] theorem setCursor_control (id : Option Word32) (s : State) : (setCursor id s).control = s.control := rfl
@[simp] theorem setCursor_settings (id : Option Word32) (s : State) : (setCursor id s).settings = s.settings := rfl
@[simp] theorem setCursor_tb (id : Option Word32) (s : State) : (setCursor id s).tb = s.tb := rfl
@[simp] theorem setCursor_ports (id : Option Word32) (s : State) : (setCursor id s).ports = s.ports := rfl
@[simp] theorem setCursor_counters (id : Option Word32) (s : State) : (setCursor id s).counters = s.counters := rfl
@[simp] theorem setCursor_builders (id : Option Word32) (s : State) : (setCursor id s).builders = s.builders := rfl
@[simp] theorem setCursor_queue (id : Option Word32) (s : State) : (setCursor id s).queue = s.queue := rfl
@[simp] theorem setCursor_nextRowId (id : Option Word32) (s : State) : (setCursor id s).nextRowId = s.nextRowId := rfl
@[simp] theorem setCursor_capture (id : Option Word32) (s : State) : (setCursor id s).capture = s.capture := rfl
@[simp] theorem setCursor_onsets (id : Option Word32) (s : State) : (setCursor id s).onsets = s.onsets := rfl
@[simp] theorem setCursor_lastOnset (id : Option Word32) (s : State) : (setCursor id s).lastOnset = s.lastOnset := rfl
@[simp] theorem setCursor_est (id : Option Word32) (s : State) : (setCursor id s).est = s.est := rfl
@[simp] theorem setCursor_la (id : Option Word32) (s : State) : (setCursor id s).la = s.la := rfl
@[simp] theorem setCursor_air (id : Option Word32) (s : State) : (setCursor id s).air = s.air := rfl
@[simp] theorem setCursor_disp (id : Option Word32) (s : State) : (setCursor id s).disp = s.disp := rfl
@[simp] theorem setCursor_pe (id : Option Word32) (s : State) : (setCursor id s).pe = s.pe := rfl
@[simp] theorem setCursor_mem (id : Option Word32) (s : State) : (setCursor id s).mem = s.mem := rfl
@[simp] theorem setCursor_work (id : Option Word32) (s : State) : (setCursor id s).work = s.work := rfl
@[simp] theorem setCursor_pending (id : Option Word32) (s : State) : (setCursor id s).pending = s.pending := rfl

/-! ### sendSlot -/

@[simp] theorem sendSlot_clock (units : List Byte) (s : State) : (sendSlot units s).clock = s.clock := rfl
@[simp] theorem sendSlot_lines (units : List Byte) (s : State) : (sendSlot units s).lines = s.lines := rfl
@[simp] theorem sendSlot_resetLow (units : List Byte) (s : State) : (sendSlot units s).resetLow = s.resetLow := rfl
@[simp] theorem sendSlot_control (units : List Byte) (s : State) : (sendSlot units s).control = s.control := rfl
@[simp] theorem sendSlot_settings (units : List Byte) (s : State) : (sendSlot units s).settings = s.settings := rfl
@[simp] theorem sendSlot_tb (units : List Byte) (s : State) : (sendSlot units s).tb = s.tb := rfl
@[simp] theorem sendSlot_ports (units : List Byte) (s : State) : (sendSlot units s).ports = s.ports := rfl
@[simp] theorem sendSlot_counters (units : List Byte) (s : State) : (sendSlot units s).counters = s.counters := rfl
@[simp] theorem sendSlot_builders (units : List Byte) (s : State) : (sendSlot units s).builders = s.builders := rfl
@[simp] theorem sendSlot_queue (units : List Byte) (s : State) : (sendSlot units s).queue = s.queue := rfl
@[simp] theorem sendSlot_nextRowId (units : List Byte) (s : State) : (sendSlot units s).nextRowId = s.nextRowId := rfl
@[simp] theorem sendSlot_capture (units : List Byte) (s : State) : (sendSlot units s).capture = s.capture := rfl
@[simp] theorem sendSlot_onsets (units : List Byte) (s : State) : (sendSlot units s).onsets = s.onsets := rfl
@[simp] theorem sendSlot_lastOnset (units : List Byte) (s : State) : (sendSlot units s).lastOnset = s.lastOnset := rfl
@[simp] theorem sendSlot_est (units : List Byte) (s : State) : (sendSlot units s).est = s.est := rfl
@[simp] theorem sendSlot_la (units : List Byte) (s : State) : (sendSlot units s).la = s.la := rfl
@[simp] theorem sendSlot_air (units : List Byte) (s : State) : (sendSlot units s).air = s.air := rfl
@[simp] theorem sendSlot_disp (units : List Byte) (s : State) : (sendSlot units s).disp = s.disp := rfl
@[simp] theorem sendSlot_pe (units : List Byte) (s : State) : (sendSlot units s).pe = s.pe := rfl
@[simp] theorem sendSlot_mem (units : List Byte) (s : State) : (sendSlot units s).mem = s.mem := rfl
@[simp] theorem sendSlot_work (units : List Byte) (s : State) : (sendSlot units s).work = s.work := rfl
@[simp] theorem sendSlot_pending (units : List Byte) (s : State) : (sendSlot units s).pending = s.pending := rfl

/-! ### acceptPulse -/

@[simp] theorem acceptPulse_clock (phase : Bool) (s : State) : (acceptPulse phase s).clock = s.clock := rfl
@[simp] theorem acceptPulse_lines (phase : Bool) (s : State) : (acceptPulse phase s).lines = s.lines := rfl
@[simp] theorem acceptPulse_resetLow (phase : Bool) (s : State) : (acceptPulse phase s).resetLow = s.resetLow := rfl
@[simp] theorem acceptPulse_control (phase : Bool) (s : State) : (acceptPulse phase s).control = s.control := rfl
@[simp] theorem acceptPulse_settings (phase : Bool) (s : State) : (acceptPulse phase s).settings = s.settings := rfl
@[simp] theorem acceptPulse_ports (phase : Bool) (s : State) : (acceptPulse phase s).ports = s.ports := rfl
@[simp] theorem acceptPulse_counters (phase : Bool) (s : State) : (acceptPulse phase s).counters = s.counters := rfl
@[simp] theorem acceptPulse_builders (phase : Bool) (s : State) : (acceptPulse phase s).builders = s.builders := rfl
@[simp] theorem acceptPulse_queue (phase : Bool) (s : State) : (acceptPulse phase s).queue = s.queue := rfl
@[simp] theorem acceptPulse_nextRowId (phase : Bool) (s : State) : (acceptPulse phase s).nextRowId = s.nextRowId := rfl
@[simp] theorem acceptPulse_capture (phase : Bool) (s : State) : (acceptPulse phase s).capture = s.capture := rfl
@[simp] theorem acceptPulse_onsets (phase : Bool) (s : State) : (acceptPulse phase s).onsets = s.onsets := rfl
@[simp] theorem acceptPulse_lastOnset (phase : Bool) (s : State) : (acceptPulse phase s).lastOnset = s.lastOnset := rfl
@[simp] theorem acceptPulse_est (phase : Bool) (s : State) : (acceptPulse phase s).est = s.est := rfl
@[simp] theorem acceptPulse_la (phase : Bool) (s : State) : (acceptPulse phase s).la = s.la := rfl
@[simp] theorem acceptPulse_air (phase : Bool) (s : State) : (acceptPulse phase s).air = s.air := rfl
@[simp] theorem acceptPulse_disp (phase : Bool) (s : State) : (acceptPulse phase s).disp = s.disp := rfl
@[simp] theorem acceptPulse_out (phase : Bool) (s : State) : (acceptPulse phase s).out = s.out := rfl
@[simp] theorem acceptPulse_pe (phase : Bool) (s : State) : (acceptPulse phase s).pe = s.pe := rfl
@[simp] theorem acceptPulse_mem (phase : Bool) (s : State) : (acceptPulse phase s).mem = s.mem := rfl
@[simp] theorem acceptPulse_work (phase : Bool) (s : State) : (acceptPulse phase s).work = s.work := rfl
@[simp] theorem acceptPulse_pending (phase : Bool) (s : State) : (acceptPulse phase s).pending = s.pending := rfl

/-! ### emptyMirror -/

@[simp] theorem emptyMirror_clock  (s : State) : (emptyMirror s).clock = s.clock := rfl
@[simp] theorem emptyMirror_lines  (s : State) : (emptyMirror s).lines = s.lines := rfl
@[simp] theorem emptyMirror_resetLow  (s : State) : (emptyMirror s).resetLow = s.resetLow := rfl
@[simp] theorem emptyMirror_control  (s : State) : (emptyMirror s).control = s.control := rfl
@[simp] theorem emptyMirror_settings  (s : State) : (emptyMirror s).settings = s.settings := rfl
@[simp] theorem emptyMirror_tb  (s : State) : (emptyMirror s).tb = s.tb := rfl
@[simp] theorem emptyMirror_ports  (s : State) : (emptyMirror s).ports = s.ports := rfl
@[simp] theorem emptyMirror_counters  (s : State) : (emptyMirror s).counters = s.counters := rfl
@[simp] theorem emptyMirror_builders  (s : State) : (emptyMirror s).builders = s.builders := rfl
@[simp] theorem emptyMirror_queue  (s : State) : (emptyMirror s).queue = s.queue := rfl
@[simp] theorem emptyMirror_nextRowId  (s : State) : (emptyMirror s).nextRowId = s.nextRowId := rfl
@[simp] theorem emptyMirror_capture  (s : State) : (emptyMirror s).capture = s.capture := rfl
@[simp] theorem emptyMirror_onsets  (s : State) : (emptyMirror s).onsets = s.onsets := rfl
@[simp] theorem emptyMirror_lastOnset  (s : State) : (emptyMirror s).lastOnset = s.lastOnset := rfl
@[simp] theorem emptyMirror_est  (s : State) : (emptyMirror s).est = s.est := rfl
@[simp] theorem emptyMirror_la  (s : State) : (emptyMirror s).la = s.la := rfl
@[simp] theorem emptyMirror_air  (s : State) : (emptyMirror s).air = s.air := rfl
@[simp] theorem emptyMirror_disp  (s : State) : (emptyMirror s).disp = s.disp := rfl
@[simp] theorem emptyMirror_pe  (s : State) : (emptyMirror s).pe = s.pe := rfl
@[simp] theorem emptyMirror_mem  (s : State) : (emptyMirror s).mem = s.mem := rfl
@[simp] theorem emptyMirror_work  (s : State) : (emptyMirror s).work = s.work := rfl
@[simp] theorem emptyMirror_pending  (s : State) : (emptyMirror s).pending = s.pending := rfl

/-! ### advance, withPending -/

@[simp] theorem advance_resetLow (m : Moment) (s : State) : (advance m s).resetLow = s.resetLow := rfl
@[simp] theorem advance_control (m : Moment) (s : State) : (advance m s).control = s.control := rfl
@[simp] theorem advance_settings (m : Moment) (s : State) : (advance m s).settings = s.settings := rfl
@[simp] theorem advance_tb (m : Moment) (s : State) : (advance m s).tb = s.tb := rfl
@[simp] theorem advance_ports (m : Moment) (s : State) : (advance m s).ports = s.ports := rfl
@[simp] theorem advance_counters (m : Moment) (s : State) : (advance m s).counters = s.counters := rfl
@[simp] theorem advance_builders (m : Moment) (s : State) : (advance m s).builders = s.builders := rfl
@[simp] theorem advance_queue (m : Moment) (s : State) : (advance m s).queue = s.queue := rfl
@[simp] theorem advance_nextRowId (m : Moment) (s : State) : (advance m s).nextRowId = s.nextRowId := rfl
@[simp] theorem advance_capture (m : Moment) (s : State) : (advance m s).capture = s.capture := rfl
@[simp] theorem advance_onsets (m : Moment) (s : State) : (advance m s).onsets = s.onsets := rfl
@[simp] theorem advance_lastOnset (m : Moment) (s : State) : (advance m s).lastOnset = s.lastOnset := rfl
@[simp] theorem advance_est (m : Moment) (s : State) : (advance m s).est = s.est := rfl
@[simp] theorem advance_la (m : Moment) (s : State) : (advance m s).la = s.la := rfl
@[simp] theorem advance_air (m : Moment) (s : State) : (advance m s).air = s.air := rfl
@[simp] theorem advance_disp (m : Moment) (s : State) : (advance m s).disp = s.disp := rfl
@[simp] theorem advance_out (m : Moment) (s : State) : (advance m s).out = s.out := rfl
@[simp] theorem advance_pe (m : Moment) (s : State) : (advance m s).pe = s.pe := rfl
@[simp] theorem advance_mem (m : Moment) (s : State) : (advance m s).mem = s.mem := rfl
@[simp] theorem advance_work (m : Moment) (s : State) : (advance m s).work = s.work := rfl
@[simp] theorem advance_pending (m : Moment) (s : State) : (advance m s).pending = s.pending := rfl
@[simp] theorem advance_clock (m : Moment) (s : State) : (advance m s).clock = s.clock + m.dt := rfl
@[simp] theorem advance_lines (m : Moment) (s : State) : (advance m s).lines = m.lines := rfl
@[simp] theorem withPending_clock (q : List Instr) (s : State) : (s.withPending q).clock = s.clock := rfl
@[simp] theorem withPending_lines (q : List Instr) (s : State) : (s.withPending q).lines = s.lines := rfl
@[simp] theorem withPending_resetLow (q : List Instr) (s : State) : (s.withPending q).resetLow = s.resetLow := rfl
@[simp] theorem withPending_control (q : List Instr) (s : State) : (s.withPending q).control = s.control := rfl
@[simp] theorem withPending_settings (q : List Instr) (s : State) : (s.withPending q).settings = s.settings := rfl
@[simp] theorem withPending_tb (q : List Instr) (s : State) : (s.withPending q).tb = s.tb := rfl
@[simp] theorem withPending_ports (q : List Instr) (s : State) : (s.withPending q).ports = s.ports := rfl
@[simp] theorem withPending_counters (q : List Instr) (s : State) : (s.withPending q).counters = s.counters := rfl
@[simp] theorem withPending_builders (q : List Instr) (s : State) : (s.withPending q).builders = s.builders := rfl
@[simp] theorem withPending_queue (q : List Instr) (s : State) : (s.withPending q).queue = s.queue := rfl
@[simp] theorem withPending_nextRowId (q : List Instr) (s : State) : (s.withPending q).nextRowId = s.nextRowId := rfl
@[simp] theorem withPending_capture (q : List Instr) (s : State) : (s.withPending q).capture = s.capture := rfl
@[simp] theorem withPending_onsets (q : List Instr) (s : State) : (s.withPending q).onsets = s.onsets := rfl
@[simp] theorem withPending_lastOnset (q : List Instr) (s : State) : (s.withPending q).lastOnset = s.lastOnset := rfl
@[simp] theorem withPending_est (q : List Instr) (s : State) : (s.withPending q).est = s.est := rfl
@[simp] theorem withPending_la (q : List Instr) (s : State) : (s.withPending q).la = s.la := rfl
@[simp] theorem withPending_air (q : List Instr) (s : State) : (s.withPending q).air = s.air := rfl
@[simp] theorem withPending_disp (q : List Instr) (s : State) : (s.withPending q).disp = s.disp := rfl
@[simp] theorem withPending_out (q : List Instr) (s : State) : (s.withPending q).out = s.out := rfl
@[simp] theorem withPending_pe (q : List Instr) (s : State) : (s.withPending q).pe = s.pe := rfl
@[simp] theorem withPending_mem (q : List Instr) (s : State) : (s.withPending q).mem = s.mem := rfl
@[simp] theorem withPending_work (q : List Instr) (s : State) : (s.withPending q).work = s.work := rfl
@[simp] theorem withPending_pending (q : List Instr) (s : State) : (s.withPending q).pending = q := rfl

/-! ### What an update writes -/

@[simp] theorem raise_attn (f : AttnFlag) (s : State) : (raise f s).control.attn = s.control.attn ||| f.mask := rfl
@[simp] theorem raise_run (f : AttnFlag) (s : State) : (raise f s).control.run = s.control.run := rfl
@[simp] theorem raise_freeze (f : AttnFlag) (s : State) : (raise f s).control.freeze = s.control.freeze := rfl
@[simp] theorem raise_runState (f : AttnFlag) (s : State) : (raise f s).control.runState = s.control.runState := rfl
@[simp] theorem raise_enable (f : AttnFlag) (s : State) : (raise f s).control.enable = s.control.enable := rfl
@[simp] theorem lower_attn (f : AttnFlag) (s : State) : (lower f s).control.attn = s.control.attn &&& ~~~f.mask := rfl
@[simp] theorem lower_run (f : AttnFlag) (s : State) : (lower f s).control.run = s.control.run := rfl
@[simp] theorem lower_freeze (f : AttnFlag) (s : State) : (lower f s).control.freeze = s.control.freeze := rfl
@[simp] theorem lower_runState (f : AttnFlag) (s : State) : (lower f s).control.runState = s.control.runState := rfl
@[simp] theorem lower_enable (f : AttnFlag) (s : State) : (lower f s).control.enable = s.control.enable := rfl
@[simp] theorem withOp_op (op : Option PageOp) (s : State) : (withOp op s).pe.op = op := rfl
@[simp] theorem withStack_stack (l : List Owner) (s : State) : (withStack l s).disp.stack = l := rfl
@[simp] theorem setCursor_cursor (id : Option Word32) (s : State) : (setCursor id s).out.cursor = id := rfl

/-! ### allowRefetch -/

@[simp] theorem allowRefetch_clock (s : State) : (allowRefetch s).clock = s.clock := rfl
@[simp] theorem allowRefetch_lines (s : State) : (allowRefetch s).lines = s.lines := rfl
@[simp] theorem allowRefetch_resetLow (s : State) : (allowRefetch s).resetLow = s.resetLow := rfl
@[simp] theorem allowRefetch_control (s : State) : (allowRefetch s).control = s.control := rfl
@[simp] theorem allowRefetch_settings (s : State) : (allowRefetch s).settings = s.settings := rfl
@[simp] theorem allowRefetch_tb (s : State) : (allowRefetch s).tb = s.tb := rfl
@[simp] theorem allowRefetch_ports (s : State) : (allowRefetch s).ports = s.ports := rfl
@[simp] theorem allowRefetch_counters (s : State) : (allowRefetch s).counters = s.counters := rfl
@[simp] theorem allowRefetch_builders (s : State) : (allowRefetch s).builders = s.builders := rfl
@[simp] theorem allowRefetch_queue (s : State) : (allowRefetch s).queue = s.queue := rfl
@[simp] theorem allowRefetch_nextRowId (s : State) : (allowRefetch s).nextRowId = s.nextRowId := rfl
@[simp] theorem allowRefetch_capture (s : State) : (allowRefetch s).capture = s.capture := rfl
@[simp] theorem allowRefetch_onsets (s : State) : (allowRefetch s).onsets = s.onsets := rfl
@[simp] theorem allowRefetch_lastOnset (s : State) : (allowRefetch s).lastOnset = s.lastOnset := rfl
@[simp] theorem allowRefetch_est (s : State) : (allowRefetch s).est = s.est := rfl
@[simp] theorem allowRefetch_la (s : State) : (allowRefetch s).la = s.la := rfl
@[simp] theorem allowRefetch_air (s : State) : (allowRefetch s).air = s.air := rfl
@[simp] theorem allowRefetch_out (s : State) : (allowRefetch s).out = s.out := rfl
@[simp] theorem allowRefetch_pe (s : State) : (allowRefetch s).pe = s.pe := rfl
@[simp] theorem allowRefetch_mem (s : State) : (allowRefetch s).mem = s.mem := rfl
@[simp] theorem allowRefetch_work (s : State) : (allowRefetch s).work = s.work := rfl
@[simp] theorem allowRefetch_pending (s : State) : (allowRefetch s).pending = s.pending := rfl

/-- No context keeps its abandoned position. -/
@[simp] theorem ctxOf_allowRefetch (s : State) (k : CtxNo) :
    ctxOf (allowRefetch s) k = (ctxOf s k).map (fun x => { x with refetch := none }) := by
  simp [ctxOf, allowRefetch, get]

end Sys2Proof.Machine
end

