-- ==== Sys2Proof/Laws/Tables.lean ====
section
/-! SUPPORT. Laws of tables: reading back an entry that was stored, and every other entry. -/

namespace Sys2Proof.Machine

@[simp] theorem get_put_same {α : Type} {n : Nat} (v : Vector α n) (i : Fin n) (x : α) : get (put v i x) i = x := by
  simp [get, put]

theorem get_put_other {α : Type} {n : Nat} (v : Vector α n) {i j : Fin n} (x : α) (h : i ≠ j) :
    get (put v i x) j = get v j := by
  have : i.val ≠ j.val := fun e => h (Fin.ext e)
  simp [get, put, this]

theorem get_put {α : Type} {n : Nat} (v : Vector α n) (i j : Fin n) (x : α) :
    get (put v i x) j = if i = j then x else get v j := by
  split
  · subst_vars; simp
  · exact get_put_other v x ‹_›

theorem get_change {α : Type} {n : Nat} (v : Vector α n) (i j : Fin n) (f : α → α) :
    get (change v i f) j = if i = j then f (get v i) else get v j := by
  simp [change, get_put]

@[simp] theorem get_map {α β : Type} {n : Nat} (v : Vector α n) (f : α → β) (i : Fin n) :
    get (v.map f) i = f (get v i) := by simp [get]

@[simp] theorem get_replicate {α : Type} {n : Nat} (x : α) (i : Fin n) : get (Vector.replicate n x) i = x := by
  simp [get]

@[simp] theorem get_ofFn {α : Type} {n : Nat} (f : Fin n → α) (i : Fin n) : get (Vector.ofFn f) i = f i := by
  simp [get]

/-- Tables with the same entries are the same. -/
theorem table_ext {α : Type} {n : Nat} {v w : Vector α n} (h : ∀ i, get v i = get w i) : v = w := by
  ext i hi
  exact h ⟨i, hi⟩

end Sys2Proof.Machine
end

