-- ==== Sys2Proof/Laws/Keeps.lean ====
section
/-! SUPPORT. What no operation of the blocks changes, said once for each operation: host memory, the page base, the waiting
commands, the moment and RESET_N stay as they are, and the bounds of the journal buffer, the live queue, the air schedule
and the onset lists hold after it where they held before. -/

namespace Sys2Proof.Machine

-- One theorem after another: with many threads at once the compile of the package as one text runs out of memory.
set_option Elab.async false

/-- t differs from s in no byte of host memory, nor in the page base, the waiting commands, the moment or RESET_N; and it
keeps the bounds R154, R47, R100 and R53 give. -/
structure Keeps (s t : State) : Prop where
  mem : t.mem = s.mem
  base : t.pe.base = s.pe.base
  pending : t.pending = s.pending
  clock : t.clock = s.clock
  lines : t.lines = s.lines
  resetLow : t.resetLow = s.resetLow
  buffer : s.pe.buffer.length ≤ Config.journalRecords → t.pe.buffer.length ≤ Config.journalRecords
  queue : s.queue.length ≤ Config.liveQueueRows → t.queue.length ≤ Config.liveQueueRows
  entries : s.air.entries.length ≤ Config.scheduleEntries → t.air.entries.length ≤ Config.scheduleEntries
  onsets : (∀ v, (get s.onsets v).length ≤ Config.onsetsPerLine) → ∀ v, (get t.onsets v).length ≤ Config.onsetsPerLine

namespace Keeps

theorem refl (s : State) : Keeps s s := ⟨rfl, rfl, rfl, rfl, rfl, rfl, id, id, id, id⟩

theorem trans {s t u : State} (h : Keeps s t) (g : Keeps t u) : Keeps s u :=
  ⟨g.mem.trans h.mem, g.base.trans h.base, g.pending.trans h.pending, g.clock.trans h.clock, g.lines.trans h.lines,
    g.resetLow.trans h.resetLow, g.buffer ∘ h.buffer, g.queue ∘ h.queue, g.entries ∘ h.entries, g.onsets ∘ h.onsets⟩

/-- An update of other fields keeps. -/
theorem same {s t : State} (mem : t.mem = s.mem) (base : t.pe.base = s.pe.base) (pending : t.pending = s.pending)
    (clock : t.clock = s.clock) (lines : t.lines = s.lines) (resetLow : t.resetLow = s.resetLow)
    (buffer : t.pe.buffer = s.pe.buffer) (queue : t.queue = s.queue) (entries : t.air.entries = s.air.entries)
    (onsets : t.onsets = s.onsets) : Keeps s t :=
  ⟨mem, base, pending, clock, lines, resetLow, by rw [buffer]; exact id, by rw [queue]; exact id,
    by rw [entries]; exact id, by rw [onsets]; exact id⟩

theorem foldl {α : Type} {f : State → α → State} (h : ∀ s x, Keeps s (f s x)) (l : List α) (s : State) :
    Keeps s (l.foldl f s) := by
  induction l generalizing s with
  | nil => exact refl s
  | cons x rest ih => exact (h s x).trans (ih _)

end Keeps

/-! ### Flags, journal and tables -/

theorem raise_keeps (f : AttnFlag) (s : State) : Keeps s (raise f s) :=
  .same rfl rfl rfl rfl rfl rfl rfl rfl rfl rfl

theorem lower_keeps (f : AttnFlag) (s : State) : Keeps s (lower f s) :=
  .same rfl rfl rfl rfl rfl rfl rfl rfl rfl rfl

/-- A record that is made joins the buffer's tail where the buffer has room, and else is lost and counted (R165). -/
theorem journal_cases (r : Record) (s : State) :
    (s.pe.buffer.length < Config.journalRecords ∧
      journal r s = { s with pe := { s.pe with buffer := s.pe.buffer ++ [{ frame := s.tb.frame, record := r }] } }) ∨
    (Config.journalRecords ≤ s.pe.buffer.length ∧
      journal r s = raise .journalLost { s with pe := { s.pe with lost := s.pe.lost + 1 } }) := by
  simp only [journal]
  split
  · exact .inl ⟨‹_›, rfl⟩
  · exact .inr ⟨by omega, rfl⟩

theorem journal_keeps (r : Record) (s : State) : Keeps s (journal r s) := by
  rcases journal_cases r s with ⟨h, e⟩ | ⟨_, e⟩ <;> rw [e]
  · exact ⟨rfl, rfl, rfl, rfl, rfl, rfl, fun _ => by simp; omega, id, id, id⟩
  · exact .same rfl rfl rfl rfl rfl rfl rfl rfl rfl rfl

theorem count_keeps (w : Writer) (f : Counters → Counters) (s : State) : Keeps s (count w f s) :=
  .same rfl rfl rfl rfl rfl rfl rfl rfl rfl rfl

theorem onPort_keeps (w : Writer) (f : Port → Port) (s : State) : Keeps s (onPort w f s) :=
  .same rfl rfl rfl rfl rfl rfl rfl rfl rfl rfl

theorem onBuilder_keeps (w : Writer) (f : Builder → Builder) (s : State) : Keeps s (onBuilder w f s) :=
  .same rfl rfl rfl rfl rfl rfl rfl rfl rfl rfl

theorem onEst_keeps (w : Writer) (f : Estimator → Estimator) (s : State) : Keeps s (onEst w f s) :=
  .same rfl rfl rfl rfl rfl rfl rfl rfl rfl rfl

theorem holdTick_keeps (s : State) : Keeps s (holdTick s) :=
  .same rfl rfl rfl rfl rfl rfl rfl rfl rfl rfl

theorem markSlot_keeps (n : SlotNo) (s : State) : Keeps s (markSlot n s) :=
  .same rfl rfl rfl rfl rfl rfl rfl rfl rfl rfl

theorem storeCue_keeps (n : SlotNo) (c : Option Cue) (s : State) : Keeps s (storeCue n c s) :=
  .same rfl rfl rfl rfl rfl rfl rfl rfl rfl rfl

theorem storeCtx_keeps (k : CtxNo) (x : Option Context) (s : State) : Keeps s (storeCtx k x s) :=
  .same rfl rfl rfl rfl rfl rfl rfl rfl rfl rfl

theorem withStack_keeps (l : List Owner) (s : State) : Keeps s (withStack l s) :=
  .same rfl rfl rfl rfl rfl rfl rfl rfl rfl rfl

theorem withOp_keeps (op : Option PageOp) (s : State) : Keeps s (withOp op s) :=
  .same rfl rfl rfl rfl rfl rfl rfl rfl rfl rfl

/-! ### The live queue and the air schedule -/

theorem journal_queue (r : Record) (s : State) : (journal r s).queue = s.queue := by
  simp only [journal]
  split <;> rfl

theorem countDropped_queue (r : Row) (s : State) : (countDropped r s).queue = s.queue := by
  unfold countDropped
  split <;> rfl

theorem countDropped_keeps (r : Row) (s : State) : Keeps s (countDropped r s) := by
  unfold countDropped
  split
  · exact count_keeps ..
  · exact .refl s

theorem overflowDrop_keeps (r : Row) (s : State) : Keeps s (overflowDrop r s) :=
  (countDropped_keeps r s).trans (journal_keeps ..)

/-- The live queue replaced by one within its bound keeps. -/
theorem queue_keeps {s : State} {q : List Row} (h : q.length ≤ Config.liveQueueRows ∨ q.length ≤ s.queue.length) :
    Keeps s { s with queue := q } :=
  ⟨rfl, rfl, rfl, rfl, rfl, rfl, id, fun g => by rcases h with h | h; exact h; exact le_trans h g, id, id⟩

theorem joinTail_keeps (r : Row) (s : State) : Keeps s (joinTail r s) := by
  unfold joinTail
  split
  · rename_i head rest e
    split
    · refine (queue_keeps (.inr ?_)).trans (overflowDrop_keeps ..)
      simp [e]
    · exact queue_keeps (.inl (by simp only [List.length_append, List.length_singleton]; omega))
  · exact queue_keeps (.inl (by simp [Config.liveQueueRows]))

/-- Trimming leaves a queue within its bound, and changes nothing else that Keeps names. -/
theorem trimQueue_keeps (n : Nat) (s : State) (h : s.queue.length ≤ Config.liveQueueRows + n) :
    Keeps { s with queue := [] } { trimQueue n s with queue := [] } ∧ (trimQueue n s).queue.length ≤ Config.liveQueueRows := by
  induction n generalizing s with
  | zero => exact ⟨.refl _, by simpa [trimQueue] using h⟩
  | succ n ih =>
    unfold trimQueue
    split
    · rename_i head rest e
      split
      · have hq : (overflowDrop head { s with queue := rest }).queue = rest := by
          rw [overflowDrop, journal_queue, countDropped_queue]
        have hl : (overflowDrop head { s with queue := rest }).queue.length ≤ Config.liveQueueRows + n := by
          rw [hq]; rw [e] at h; simp only [List.length_cons] at h; omega
        have k := overflowDrop_keeps head { s with queue := rest }
        have i := ih _ hl
        refine ⟨Keeps.trans (t := { overflowDrop head { s with queue := rest } with queue := [] }) ⟨k.mem, k.base, k.pending, k.clock, k.lines, k.resetLow, k.buffer, id, k.entries, k.onsets⟩ i.1, i.2⟩
      · exact ⟨.refl _, by omega⟩
    · rename_i e
      exact ⟨.refl _, by rw [e]; simp⟩

theorem joinHead_keeps (rows : List Row) (s : State) : Keeps s (joinHead rows s) := by
  have h := trimQueue_keeps (rows.length + s.queue.length) { s with queue := rows ++ s.queue }
    (by simp only [List.length_append]; omega)
  have k := h.1
  exact ⟨k.mem, k.base, k.pending, k.clock, k.lines, k.resetLow, k.buffer, fun _ => h.2, k.entries, k.onsets⟩

/-- AS's record replaced by one whose schedule is within its bound keeps. -/
theorem air_keeps {s : State} {a : AirSchedule}
    (h : a.entries.length ≤ Config.scheduleEntries ∨ a.entries.length ≤ s.air.entries.length) :
    Keeps s { s with air := a } :=
  ⟨rfl, rfl, rfl, rfl, rfl, rfl, id, id, fun g => by rcases h with h | h; exact h; exact le_trans h g, id⟩

theorem enterRow_keeps (r : Row) (p : Placement) (s : State) (h : s.air.entries.length < Config.scheduleEntries) :
    Keeps s (enterRow r p s) :=
  air_keeps (.inl (by simp only [List.length_append, List.length_singleton]; omega))

theorem offerRow_keeps (r : Row) (s : State) (h : s.air.entries.length < Config.scheduleEntries) :
    Keeps s (offerRow r s).1 := by
  unfold offerRow
  dsimp only
  split
  · exact (countDropped_keeps ..).trans (journal_keeps ..)
  · exact enterRow_keeps r _ s h

theorem feedRows_keeps (n : Nat) (s : State) : Keeps s (feedRows n s) := by
  induction n generalizing s with
  | zero => exact .refl s
  | succ n ih =>
    unfold feedRows
    split
    · rename_i r rest e
      split
      · rename_i hc
        simp only [canFeed, Bool.and_eq_true, decide_eq_true_eq] at hc
        exact ((queue_keeps (.inr (by simp [e]))).trans (offerRow_keeps r { s with queue := rest } hc.2)).trans (ih _)
      · exact .refl s
    · exact .refl s

theorem feedAttempt_keeps (s : State) : Keeps s (feedAttempt s) := feedRows_keeps _ s

theorem keepEntries_keeps (kept : List Entry) (s : State) (h : kept.length ≤ s.air.entries.length) :
    Keeps s (keepEntries kept s) := by
  unfold keepEntries
  exact air_keeps (.inr h)

theorem removeWaiting_keeps (p : Entry → Bool) (s : State) : Keeps s (removeWaiting p s) := by
  unfold removeWaiting
  split
  · exact .refl s
  · exact keepEntries_keeps _ s (List.length_filter_le ..)

theorem withdrawLive_keeps (s : State) : Keeps s (withdrawLive s) :=
  (joinHead_keeps ..).trans (removeWaiting_keeps ..)

theorem discardCue_keeps (n : SlotNo) (s : State) : Keeps s (discardCue n s) :=
  (Keeps.foldl (fun _ _ => journal_keeps ..) _ s).trans (removeWaiting_keeps ..)

/-! ### Display ownership and the cue player -/

theorem updateCue_keeps (n : SlotNo) (c : Cue) (s : State) : Keeps s (updateCue n c s) :=
  (storeCue_keeps ..).trans (markSlot_keeps ..)

theorem cueTurns_keeps (n : SlotNo) (left : CueState) (c : Cue) (s : State) : Keeps s (cueTurns n left c s) := by
  unfold cueTurns
  have h := (updateCue_keeps n c s).trans
    (journal_keeps (.cueState n left c.state c.reason c.shown c.dropped c.start) (updateCue n c s))
  dsimp only
  split
  · exact h.trans (raise_keeps ..)
  · exact h

/-- An update of DO's record alone keeps. -/
theorem disp_keeps (s : State) (d : Display) : Keeps s { s with disp := d } :=
  .same rfl rfl rfl rfl rfl rfl rfl rfl rfl rfl

theorem feedTest_keeps (s : State) : Keeps s (feedTest s) := by
  unfold feedTest
  repeat' split
  all_goals first | exact .refl s | exact storeCtx_keeps ..

theorem becomeDue_keeps (n : SlotNo) (f : Frame) (s : State) : Keeps s (becomeDue n f s) := by
  unfold becomeDue
  split
  · exact (cueTurns_keeps ..).trans (disp_keeps ..)
  · exact .refl s

theorem suspendCue_keeps (k : CtxNo) (s : State) : Keeps s (suspendCue k s) := by
  unfold suspendCue
  repeat' split
  all_goals first
    | exact .refl s
    | exact ((removeWaiting_keeps ..).trans (storeCtx_keeps ..)).trans (cueTurns_keeps ..)

theorem preemptTop_keeps (s : State) : Keeps s (preemptTop s) := by
  unfold preemptTop
  split
  · exact withdrawLive_keeps s
  · exact suspendCue_keeps _ s
  · exact .refl s

theorem acceptCue_keeps (n : SlotNo) (c : Cue) (k : CtxNo) (s : State) : Keeps s (acceptCue n c k s) := by
  unfold acceptCue
  exact (((((disp_keeps s _).trans (preemptTop_keeps _)).trans (storeCtx_keeps ..)).trans (withStack_keeps ..)).trans
    (cueTurns_keeps ..)).trans (feedTest_keeps _)

theorem dueTest_keeps (s : State) : Keeps s (dueTest s).1 := by
  unfold dueTest
  repeat' split
  all_goals first | exact .refl s | exact acceptCue_keeps ..

theorem insertionTest_keeps (s : State) : Keeps s (insertionTest s).1 := by
  unfold insertionTest
  repeat' split
  all_goals first
    | exact .refl s
    | exact disp_keeps ..
    | exact ((disp_keeps s _).trans (feedAttempt_keeps _)).trans (dueTest_keeps _)

/-- An update of the applied settings and of DO's record keeps. -/
theorem settings_disp_keeps (s : State) (x : Settings) (d : Display) : Keeps s { s with settings := x, disp := d } :=
  .same rfl rfl rfl rfl rfl rfl rfl rfl rfl rfl

theorem applyPendingLevel_keeps (s : State) : Keeps s (applyPendingLevel s) := by
  unfold applyPendingLevel
  repeat' split
  all_goals first | exact .refl s | exact settings_disp_keeps ..

theorem leadAppeared_keeps (s : State) : Keeps s (leadAppeared s) :=
  (disp_keeps s _).trans (insertionTest_keeps _)

theorem leadGone_keeps (s : State) : Keeps s (leadGone s) := by
  unfold leadGone
  dsimp only
  repeat' split
  · exact ((((disp_keeps s _).trans (withdrawLive_keeps _)).trans (withStack_keeps ..)).trans
      (applyPendingLevel_keeps _)).trans (dueTest_keeps _)
  · exact (((disp_keeps s _).trans (withStack_keeps ..)).trans (applyPendingLevel_keeps _)).trans (dueTest_keeps _)
  · exact disp_keeps ..

theorem applyLiveLevel_keeps (v : Nat) (s : State) : Keeps s (applyLiveLevel v s) := by
  unfold applyLiveLevel
  repeat' split
  · exact .refl s
  · exact ((settings_disp_keeps s _ _).trans (insertionTest_keeps _)).trans (dueTest_keeps _)
  · exact disp_keeps ..

theorem takeUpDisplay_keeps (s : State) : Keeps s (takeUpDisplay s) := by
  unfold takeUpDisplay
  repeat' split
  all_goals first
    | exact .refl s
    | exact feedAttempt_keeps s
    | exact feedTest_keeps s
    | exact (cueTurns_keeps ..).trans (feedTest_keeps _)

theorem releaseCtx_keeps (k : CtxNo) (s : State) : Keeps s (releaseCtx k s) := by
  unfold releaseCtx
  repeat' split
  all_goals first | exact .refl s | exact storeCtx_keeps ..

theorem leaveStack_keeps (k : CtxNo) (s : State) : Keeps s (leaveStack k s) := by
  unfold leaveStack
  have h := ((((releaseCtx_keeps k s).trans (withStack_keeps (s.disp.stack.erase (.ctx k)) _)).trans
    (applyPendingLevel_keeps _)).trans (insertionTest_keeps _)).trans (dueTest_keeps _)
  dsimp only
  split
  · exact h.trans (takeUpDisplay_keeps _)
  · exact h

theorem endCue_keeps (n : SlotNo) (k : CtxNo) (c : Cue) (s : State) (e : CueState) (r : CueReason) :
    Keeps s (endCue n k c s e r) :=
  (cueTurns_keeps ..).trans (leaveStack_keeps ..)

theorem completeCtx_keeps (k : CtxNo) (n : SlotNo) (s : State) : Keeps s (completeCtx k n s) := by
  unfold completeCtx
  repeat' split
  all_goals first | exact .refl s | exact endCue_keeps ..

theorem completionTest_keeps (n : SlotNo) (s : State) : Keeps s (completionTest n s) := by
  unfold completionTest
  split
  · exact completeCtx_keeps ..
  · exact .refl s

theorem cueRowShown_keeps (n : SlotNo) (s : State) : Keeps s (cueRowShown n s) := by
  unfold cueRowShown
  split
  · exact (updateCue_keeps ..).trans (completionTest_keeps ..)
  · exact .refl s

theorem cueRowsDropped_keeps (n : SlotNo) (m : Nat) (s : State) : Keeps s (cueRowsDropped n m s) := by
  unfold cueRowsDropped
  repeat' split
  all_goals first | exact .refl s | exact updateCue_keeps ..

theorem placeArmed_keeps (n : SlotNo) (c : Cue) (s : State) : Keeps s (placeArmed n c s) := by
  unfold placeArmed
  repeat' split
  all_goals first
    | exact .refl s
    | exact (becomeDue_keeps ..).trans (dueTest_keeps _)
    | exact disp_keeps ..

theorem armCue_keeps (n : SlotNo) (left : CueState) (c : Cue) (s : State) : Keeps s (armCue n left c s) := by
  unfold armCue
  repeat' split
  · exact (storeCue_keeps ..).trans (placeArmed_keeps ..)
  · exact (updateCue_keeps ..).trans (placeArmed_keeps ..)
  · exact (cueTurns_keeps ..).trans (placeArmed_keeps ..)

theorem takePosted_keeps (n : SlotNo) (b : List Byte) (left : CueState) (s : State) :
    Keeps s (takePosted n b left s) := by
  unfold takePosted
  dsimp only
  repeat' split
  · exact cueTurns_keeps ..
  · exact cueTurns_keeps ..
  · exact armCue_keeps ..

theorem takeStray_keeps (n : SlotNo) (b : List Byte) (left : CueState) (s : State) :
    Keeps s (takeStray n b left s) := cueTurns_keeps ..

theorem abortCue_keeps (n : SlotNo) (c : Cue) (r : CueReason) (s : State) : Keeps s (abortCue n c r s) :=
  cueTurns_keeps ..

theorem withdrawCue_keeps (n : SlotNo) (c : Cue) (s : State) : Keeps s (withdrawCue n c s) := by
  unfold withdrawCue
  split
  · exact Keeps.trans (disp_keeps ..) (abortCue_keeps ..)
  · exact Keeps.trans (disp_keeps ..) (abortCue_keeps ..)
  · dsimp only
    split
    · exact Keeps.trans (Keeps.trans (discardCue_keeps ..) (cueRowsDropped_keeps ..)) (endCue_keeps ..)
    · exact Keeps.trans (Keeps.trans (discardCue_keeps ..) (cueRowsDropped_keeps ..)) (abortCue_keeps ..)
  · split
    · exact endCue_keeps ..
    · exact abortCue_keeps ..
  all_goals exact .refl s

theorem watchDue_keeps (s : State) (n : SlotNo) : Keeps s (watchDue s n) := by
  unfold watchDue
  repeat' split
  all_goals first | exact .refl s | exact (disp_keeps ..).trans (becomeDue_keeps ..)

theorem watchBoundary_keeps (s : State) : Keeps s (watchBoundary s) :=
  (Keeps.foldl watchDue_keeps _ s).trans (dueTest_keeps _)

theorem expireCue_keeps (s : State) (n : SlotNo) : Keeps s (expireCue s n) := by
  unfold expireCue
  repeat' split
  all_goals first | exact .refl s | exact (disp_keeps ..).trans (cueTurns_keeps ..)

theorem expireBoundary_keeps (s : State) : Keeps s (expireBoundary s) := Keeps.foldl expireCue_keeps _ s

theorem takeRow_keeps (k : CtxNo) (n : SlotNo) (r : Row) (e : List Byte) (s : State)
    (h : s.air.entries.length < Config.scheduleEntries) : Keeps s (takeRow k n r e s) := by
  unfold takeRow
  dsimp only
  repeat' split
  · exact ((journal_keeps ..).trans (cueRowsDropped_keeps ..)).trans (completeCtx_keeps ..)
  · exact ((offerRow_keeps r s h).trans (cueRowsDropped_keeps ..)).trans (completeCtx_keeps ..)
  · exact offerRow_keeps r s h

theorem nextRowId_keeps (s : State) (x : Word32) : Keeps s { s with nextRowId := x } :=
  .same rfl rfl rfl rfl rfl rfl rfl rfl rfl rfl

theorem takeFetch_keeps (k : CtxNo) (x : Context) (c : Cue) (e : List Byte) (s : State) :
    Keeps s (takeFetch k x c e s) := by
  unfold takeFetch
  dsimp only
  split
  · exact ((nextRowId_keeps s _).trans (storeCtx_keeps ..)).trans (takeRow_keeps _ _ _ _ _ ‹_›)
  · exact storeCtx_keeps ..

theorem endVoidFetch_keeps (k : CtxNo) (x : Context) (s : State) : Keeps s (endVoidFetch k x s) := by
  unfold endVoidFetch
  split
  · exact storeCtx_keeps ..
  · exact (storeCtx_keeps ..).trans (dueTest_keeps _)

theorem discardFetch_keeps (k : CtxNo) (x : Context) (s : State) : Keeps s (discardFetch k x s) := by
  unfold discardFetch
  split
  · exact (endVoidFetch_keeps ..).trans (feedTest_keeps _)
  · exact endVoidFetch_keeps ..

theorem completeFetch_keeps (k : CtxNo) (e : List Byte) (s : State) : Keeps s (completeFetch k e s) := by
  unfold completeFetch
  repeat' split
  all_goals first
    | exact .refl s
    | exact discardFetch_keeps ..
    | exact (takeFetch_keeps ..).trans (feedTest_keeps _)

theorem abandonFetch_keeps (s : State) (k : CtxNo) : Keeps s (abandonFetch s k) := by
  unfold abandonFetch
  repeat' split
  all_goals first | exact .refl s | exact storeCtx_keeps .. | exact endVoidFetch_keeps ..

theorem haltCue_keeps (s : State) (n : SlotNo) : Keeps s (haltCue s n) := by
  unfold haltCue
  repeat' split
  all_goals first | exact .refl s | exact abortCue_keeps ..

theorem haltDisplay_keeps (s : State) : Keeps s (haltDisplay s) :=
  (Keeps.foldl haltCue_keeps allSlots s).trans (disp_keeps ..)

/-! ### Event capture and the latency estimator -/

theorem silenceTest_keeps (s : State) : Keeps s (silenceTest s) := by
  unfold silenceTest
  split
  · exact .same rfl rfl rfl rfl rfl rfl rfl rfl rfl rfl
  · exact .refl s

theorem restartLine_keeps (s : State) (i : LineNo) : Keeps s (restartLine s i) :=
  .same rfl rfl rfl rfl rfl rfl rfl rfl rfl rfl

theorem applyLine_keeps (x : Settings) (s : State) (i : LineNo) : Keeps s (applyLine x s i) := by
  unfold applyLine
  split
  · exact .refl s
  · exact .same rfl rfl rfl rfl rfl rfl rfl rfl rfl rfl

theorem addOnset_keeps (v : Fin 2) (t : Stamp) (s : State) : Keeps s (addOnset v t s) := by
  refine ⟨rfl, rfl, rfl, rfl, rfl, rfl, id, id, id, fun h u => ?_⟩
  simp only [addOnset, get_put]
  have hv := h v
  simp only [Config.onsetsPerLine] at hv
  split
  · split <;> simp only [List.length_append, List.length_drop, List.length_singleton, Config.onsetsPerLine] at * <;> omega
  · exact h u

theorem fireTrigger_keeps (i : Fin 4) (t : Stamp) (s : State) : Keeps s (fireTrigger i t s) := by
  unfold fireTrigger
  split
  · exact ((disp_keeps s _).trans (becomeDue_keeps ..)).trans (dueTest_keeps _)
  · exact journal_keeps ..

/-- An update of the filter records alone keeps. -/
theorem capture_keeps (s : State) (c : Vector Capture 6) : Keeps s { s with capture := c } :=
  .same rfl rfl rfl rfl rfl rfl rfl rfl rfl rfl

theorem takeCapture_keeps (i : LineNo) (t : Stamp) (s : State) : Keeps s (takeCapture i t s) := by
  unfold takeCapture
  dsimp only
  repeat' split
  · exact ((capture_keeps s _).trans (addOnset_keeps ..)).trans (silenceTest_keeps _)
  · exact (capture_keeps s _).trans (addOnset_keeps ..)
  · exact (capture_keeps s _).trans (fireTrigger_keeps ..)
  · exact capture_keeps ..

theorem sampleLine_keeps (i : LineNo) (t : Stamp) (s : State) : Keeps s (sampleLine i t s) := by
  unfold sampleLine
  dsimp only
  repeat' split
  · exact (capture_keeps s _).trans (takeCapture_keeps ..)
  · exact capture_keeps ..
  · exact capture_keeps ..

theorem stepLine_keeps (t : Stamp) (s : State) (i : LineNo) : Keeps s (stepLine t s i) := by
  unfold stepLine
  dsimp only
  split
  · exact (capture_keeps s _).trans (sampleLine_keeps ..)
  · exact capture_keeps ..

/-- An update of the timebase alone keeps. -/
theorem tb_keeps (s : State) (x : Timebase) : Keeps s { s with tb := x } :=
  .same rfl rfl rfl rfl rfl rfl rfl rfl rfl rfl

theorem tickStepNow_keeps (s : State) : Keeps s (tickStepNow s) :=
  (tb_keeps s _).trans (Keeps.foldl (stepLine_keeps _) _ _)

theorem ageOnsets_keeps (s : State) : Keeps s (ageOnsets s) := by
  refine ⟨rfl, rfl, rfl, rfl, rfl, rfl, id, id, id, fun h v => ?_⟩
  simp only [ageOnsets, get_map]
  exact le_trans (List.length_filter_le ..) (h v)

theorem lapseLastOnsets_keeps (s : State) : Keeps s (lapseLastOnsets s) :=
  .same rfl rfl rfl rfl rfl rfl rfl rfl rfl rfl

theorem loadTaken_keeps (s : State) : Keeps s (loadTaken s) :=
  Keeps.trans (t := { s with lastOnset := Vector.replicate 2 none }) (.same rfl rfl rfl rfl rfl rfl rfl rfl rfl rfl)
    (Keeps.foldl restartLine_keeps _ _)

theorem seedWriter_keeps (s : State) (w : Writer) : Keeps s (seedWriter s w) := onEst_keeps ..

theorem clampEstimates_keeps (s : State) : Keeps s (clampEstimates s) :=
  .same rfl rfl rfl rfl rfl rfl rfl rfl rfl rfl

theorem consumeOnset_keeps (w : Writer) (t : Stamp) (s : State) : Keeps s (consumeOnset w t s) := by
  refine ⟨rfl, rfl, rfl, rfl, rfl, rfl, id, id, id, fun h => ?_⟩
  simp only [consumeOnset]
  generalize s.onsets = o at h
  generalize mappedLines (writerOf s w).voice = l
  induction l generalizing o with
  | nil => exact h
  | cons x rest ih =>
    refine ih _ (fun v => ?_)
    rw [get_change]
    split
    · simpa using h x
    · exact h v

theorem takeSample_keeps (w : Writer) (e x : Nat) (o a : Stamp) (s : State) : Keeps s (takeSample w e x o a s) := by
  unfold takeSample
  dsimp only
  repeat' split
  · exact (onEst_keeps ..).trans (count_keeps ..)
  · exact (onEst_keeps ..).trans (count_keeps ..)
  · exact (onEst_keeps ..).trans (count_keeps ..)
  · exact ((onEst_keeps ..).trans (count_keeps ..)).trans (journal_keeps ..)

theorem takeResumption_keeps (w : Writer) (a : Stamp) (s : State) : Keeps s (takeResumption w a s) := by
  unfold takeResumption
  dsimp only
  split
  · exact (consumeOnset_keeps ..).trans (takeSample_keeps ..)
  · exact count_keeps ..

/-! ### Row builders and the lead arbiter -/

theorem closeRow_keeps (w : Writer) (r : CloseReason) (s : State) : Keeps s (closeRow w r s).1 := by
  have h := (count_keeps w (fun c => { c with rowsClosed := c.rowsClosed + 1 }) s).trans (onBuilder_keeps w emptied _)
  unfold closeRow
  dsimp only
  repeat' split
  · exact .refl s
  · exact (h.trans (joinTail_keeps ..)).trans (feedAttempt_keeps _)
  · exact ((h.trans (nextRowId_keeps ..)).trans (joinTail_keeps ..)).trans (feedAttempt_keeps _)
  · exact h.trans (count_keeps ..)

theorem takeText_keeps (w : Writer) (c : Byte) (t : Stamp) (s : State) : Keeps s (takeText w c t s).1 := by
  unfold takeText
  dsimp only
  repeat' split
  · exact onBuilder_keeps ..
  · exact (closeRow_keeps ..).trans (onBuilder_keeps ..)
  · exact ((onBuilder_keeps ..).trans (closeRow_keeps ..)).trans (onBuilder_keeps ..)
  · exact (closeRow_keeps ..).trans (onBuilder_keeps ..)

theorem takeSpeaker_keeps (w : Writer) (s : State) : Keeps s (takeSpeaker w s).1 :=
  (closeRow_keeps ..).trans (onBuilder_keeps ..)

theorem takeBack_keeps (s : State) : Keeps s (takeBack s) := by
  unfold takeBack
  split
  · exact keepEntries_keeps _ s (by simp)
  · exact queue_keeps (.inr (by simp))

theorem refuse_keeps (w : Writer) (b : Bool) (s : State) : Keeps s (refuse w b s) := by
  unfold refuse
  dsimp only
  split
  · exact (count_keeps ..).trans (journal_keeps ..)
  · exact count_keeps ..

theorem takeCorrection_keeps (w : Writer) (b : Bool) (s : State) : Keeps s (takeCorrection w b s) := by
  unfold takeCorrection
  repeat' split
  · exact (takeBack_keeps _).trans (onBuilder_keeps ..)
  · exact refuse_keeps ..
  · exact onBuilder_keeps ..

/-- An update of LA's record alone keeps. -/
theorem la_keeps (s : State) (x : Arbiter) : Keeps s { s with la := x } :=
  .same rfl rfl rfl rfl rfl rfl rfl rfl rfl rfl

theorem giveLead_keeps (w : Writer) (r : LeadReason) (s : State) : Keeps s (giveLead w r s) :=
  (((((la_keeps s _).trans (journal_keeps ..)).trans (raise_keeps ..)).trans (leadAppeared_keeps _)).trans
    (feedAttempt_keeps _)).trans (silenceTest_keeps _)

theorem switchLead_keeps (w : Writer) (r : LeadReason) (s : State) : Keeps s (switchLead w r s) := by
  unfold switchLead
  split
  · exact giveLead_keeps ..
  · exact (((((closeRow_keeps ..).trans (la_keeps ..)).trans (journal_keeps ..)).trans (raise_keeps ..)).trans
      (feedAttempt_keeps _)).trans (silenceTest_keeps _)

theorem loseLead_keeps (w : Writer) (r : LeadReason) (s : State) : Keeps s (loseLead w r s) :=
  ((((closeRow_keeps w .handoff s).trans (la_keeps ..)).trans (journal_keeps ..)).trans (raise_keeps ..)).trans
    (leadGone_keeps _)

theorem cancelHandoff_keeps (s : State) : Keeps s (cancelHandoff s) := by
  unfold cancelHandoff
  split
  · exact la_keeps ..
  · exact .refl s

theorem completeHandoff_keeps (b : Bool) (s : State) : Keeps s (completeHandoff b s) := by
  unfold completeHandoff
  repeat' split
  all_goals first | exact .refl s | exact switchLead_keeps ..

theorem takeTake_keeps (w : Writer) (s : State) : Keeps s (takeTake w s) := by
  unfold takeTake
  repeat' split
  all_goals first | exact .refl s | exact giveLead_keeps .. | exact journal_keeps .. | exact la_keeps ..

theorem takeGive_keeps (w : Writer) (s : State) : Keeps s (takeGive w s) := by
  unfold takeGive
  repeat' split
  all_goals first | exact .refl s | exact switchLead_keeps .. | exact journal_keeps ..

theorem handoffCount_keeps (s : State) : Keeps s (handoffCount s) := la_keeps ..

theorem handoffTimeoutNow_keeps (s : State) : Keeps s (handoffTimeoutNow s) := by
  unfold handoffTimeoutNow
  repeat' split
  all_goals first | exact .refl s | exact switchLead_keeps ..

theorem reportSilence_keeps (w : Writer) (s : State) : Keeps s (reportSilence w s) := by
  unfold reportSilence
  split
  · exact .refl s
  · exact ((la_keeps s _).trans (raise_keeps ..)).trans (journal_keeps ..)

theorem failover_keeps (s : State) : Keeps s (failover s) := by
  unfold failover
  repeat' split
  all_goals first | exact .refl s | exact switchLead_keeps .. | exact reportSilence_keeps ..

/-- An update of the boundary's outstanding work alone keeps. -/
theorem work_keeps (s : State) (x : Work) : Keeps s { s with work := x } :=
  .same rfl rfl rfl rfl rfl rfl rfl rfl rfl rfl

theorem silentLeadNow_keeps (s : State) : Keeps s (silentLeadNow s) := by
  unfold silentLeadNow
  dsimp only
  repeat' split
  · exact (work_keeps s _).trans (failover_keeps _)
  · exact work_keeps ..
  · exact .refl s

theorem silentLeads_keeps (s : State) : Keeps s (silentLeads s) :=
  (((silentLeadNow_keeps s).trans (silentLeadNow_keeps _)).trans (silentLeadNow_keeps _)).trans (silentLeadNow_keeps _)

theorem forceLead_keeps (w : Writer) (s : State) : Keeps s (forceLead w s).1 := by
  unfold forceLead
  repeat' split
  all_goals first
    | exact .refl s
    | exact cancelHandoff_keeps s
    | exact switchLead_keeps ..
    | exact (cancelHandoff_keeps s).trans (switchLead_keeps ..)

theorem takerLeftRun_keeps (w : Writer) (s : State) : Keeps s (takerLeftRun w s) := by
  unfold takerLeftRun
  repeat' split
  all_goals first | exact .refl s | exact cancelHandoff_keeps s

theorem leadDisabled_keeps (w : Writer) (s : State) : Keeps s (leadDisabled w s) := by
  unfold leadDisabled
  repeat' split
  all_goals first | exact .refl s | exact switchLead_keeps .. | exact loseLead_keeps ..

theorem startLead_keeps (s : State) : Keeps s (startLead s) := by
  unfold startLead
  dsimp only
  repeat' split
  all_goals first | exact .refl s | exact giveLead_keeps ..

/-! ### Writer lines -/

theorem reportPort_keeps (w : Writer) (l : PortMode) (c : PortCause) (s : State) : Keeps s (reportPort w l c s) := by
  unfold reportPort
  dsimp only
  split
  · exact (journal_keeps ..).trans (raise_keeps ..)
  · exact journal_keeps ..

theorem portBecomes_keeps (w : Writer) (p : Port) (c : PortCause) (s : State) : Keeps s (portBecomes w p c s) := by
  unfold portBecomes
  dsimp only
  split
  · exact ((onPort_keeps ..).trans (reportPort_keeps ..)).trans (takerLeftRun_keeps ..)
  · exact (onPort_keeps ..).trans (reportPort_keeps ..)

theorem enablePort_keeps (w : Writer) (s : State) : Keeps s (enablePort w s) :=
  (seedWriter_keeps ..).trans (portBecomes_keeps ..)

theorem disablePort_keeps (w : Writer) (s : State) : Keeps s (disablePort w s) := by
  have h := ((((onPort_keeps w (fun _ => stoppedPort) s).trans (closeRow_keeps w .handoff _)).trans
    (onBuilder_keeps w (fun b => { b with markPending := false }) _)).trans
    (reportPort_keeps w (portOf s w).mode .disable _)).trans
    (completeHandoff_keeps (closeRow w .handoff (onPort w (fun _ => stoppedPort) s)).2 _)
  unfold disablePort
  dsimp only
  split
  · exact (h.trans (takerLeftRun_keeps ..)).trans (leadDisabled_keeps ..)
  · exact h.trans (leadDisabled_keeps ..)

theorem retunePort_keeps (w : Writer) (a b : WriterSettings) (s : State) : Keeps s (retunePort w a b s) := by
  unfold retunePort
  dsimp only
  split
  · exact onPort_keeps ..
  · exact portBecomes_keeps ..

/-- An update of the applied settings alone keeps. -/
theorem settings_keeps (s : State) (x : Settings) : Keeps s { s with settings := x } :=
  .same rfl rfl rfl rfl rfl rfl rfl rfl rfl rfl

theorem applyPort_keeps (x : Settings) (s : State) (w : Writer) : Keeps s (applyPort x s w) := by
  unfold applyPort
  dsimp only
  repeat' split
  all_goals first
    | exact settings_keeps ..
    | exact (settings_keeps s _).trans (enablePort_keeps ..)
    | exact (settings_keeps s _).trans (disablePort_keeps ..)
    | exact (settings_keeps s _).trans (retunePort_keeps ..)

theorem startPort_keeps (s : State) (w : Writer) : Keeps s (startPort s w) := by
  unfold startPort
  split
  · exact onPort_keeps ..
  · exact .refl s

theorem breakSeenNow_keeps (w : Writer) (n : Nat) (s : State) : Keeps s (breakSeenNow w n s) := by
  unfold breakSeenNow
  split
  · exact onPort_keeps ..
  · exact .refl s

theorem startEdgeNow_keeps (w : Writer) (s : State) : Keeps s (startEdgeNow w s) := by
  unfold startEdgeNow
  split
  · exact onPort_keeps ..
  · exact .refl s

theorem alignmentError_keeps (w : Writer) (s : State) : Keeps s (alignmentError w s) :=
  (onPort_keeps ..).trans (count_keeps ..)

theorem spanTooLongNow_keeps (w : Writer) (s : State) : Keeps s (spanTooLongNow w s) := by
  unfold spanTooLongNow
  split
  · exact alignmentError_keeps ..
  · exact .refl s

theorem spanMeasuredNow_keeps (w : Writer) (n : Nat) (s : State) : Keeps s (spanMeasuredNow w n s) := by
  unfold spanMeasuredNow
  dsimp only
  repeat' split
  all_goals first | exact .refl s | exact alignmentError_keeps .. | exact onPort_keeps ..

theorem alignmentNow_keeps (w : Writer) (l : List Nat) (s : State) : Keeps s (alignmentNow w l s) := by
  unfold alignmentNow
  dsimp only
  repeat' split
  all_goals first | exact .refl s | exact alignmentError_keeps .. | exact portBecomes_keeps ..

theorem resyncBreakNow_keeps (w : Writer) (n : Nat) (s : State) : Keeps s (resyncBreakNow w n s) := by
  unfold resyncBreakNow
  dsimp only
  split
  · exact portBecomes_keeps ..
  · exact .refl s

theorem resyncEndNow_keeps (w : Writer) (n : Nat) (s : State) : Keeps s (resyncEndNow w n s) := by
  unfold resyncEndNow
  dsimp only
  split
  · exact portBecomes_keeps ..
  · exact .refl s

theorem framingError_keeps (w : Writer) (s : State) : Keeps s (framingError w s) := by
  unfold framingError
  dsimp only
  split
  · exact (count_keeps ..).trans (portBecomes_keeps ..)
  · exact (count_keeps ..).trans (portBecomes_keeps ..)

theorem touchPort_keeps (w : Writer) (s : State) : Keeps s (touchPort w s) := by
  unfold touchPort
  dsimp only
  split
  · exact (onPort_keeps ..).trans (la_keeps ..)
  · exact onPort_keeps ..

theorem resumeAt_keeps (w : Writer) (c : Byte) (t : Stamp) (s : State) : Keeps s (resumeAt w c t s) := by
  unfold resumeAt
  split
  · exact (onPort_keeps ..).trans (takeResumption_keeps ..)
  · exact .refl s

theorem handOn_keeps (w : Writer) (k : ByteClass) (c : Byte) (t : Stamp) (s : State) : Keeps s (handOn w k c t s) := by
  unfold handOn
  split
  · exact (takeText_keeps ..).trans (completeHandoff_keeps ..)
  · exact (closeRow_keeps ..).trans (completeHandoff_keeps ..)
  · exact (takeSpeaker_keeps ..).trans (completeHandoff_keeps ..)
  · exact takeCorrection_keeps ..
  · exact takeCorrection_keeps ..
  · exact takeTake_keeps ..
  · exact takeGive_keeps ..
  · exact .refl s

/-- The counts of a delivered byte (R25). -/
theorem delivered_keeps (w : Writer) (b : Bool) (s : State) :
    Keeps s (count w (fun c => { c with characters := c.characters + 1, noise := if b then c.noise + 1 else c.noise })
      (onPort w (fun p => { p with framing := 0 }) s)) :=
  (onPort_keeps ..).trans (count_keeps ..)

theorem deliver_keeps (w : Writer) (c : Byte) (b : Bool) (s : State) : Keeps s (deliver w c b s) := by
  unfold deliver
  refine Keeps.trans (delivered_keeps w b s) ?_
  generalize count w _ (onPort w _ s) = u
  dsimp only
  split
  · exact count_keeps ..
  · split
    · exact (((holdTick_keeps u).trans (handOn_keeps ..)).trans (touchPort_keeps ..)).trans (resumeAt_keeps ..)
    · exact ((holdTick_keeps u).trans (handOn_keeps ..)).trans (touchPort_keeps ..)

theorem characterNow_keeps (w : Writer) (l : List Nat) (s : State) : Keeps s (characterNow w l s) := by
  unfold characterNow
  dsimp only
  split
  · split
    · exact .refl s
    · split
      · exact (onPort_keeps ..).trans (framingError_keeps ..)
      · split
        · exact (onPort_keeps ..).trans (count_keeps ..)
        · exact (onPort_keeps ..).trans (deliver_keeps ..)
  · exact .refl s

theorem countPorts_keeps (s : State) : Keeps s (countPorts s) :=
  .same rfl rfl rfl rfl rfl rfl rfl rfl rfl rfl

theorem pauseNow_keeps (w : Writer) (s : State) : Keeps s (pauseNow w s) := by
  unfold pauseNow
  dsimp only
  split
  · exact ((onPort_keeps ..).trans (closeRow_keeps ..)).trans (completeHandoff_keeps ..)
  · exact .refl s

/-! ### The output encoder -/

/-- An update of OE's record alone keeps. -/
theorem out_keeps (s : State) (x : Output) : Keeps s { s with out := x } :=
  .same rfl rfl rfl rfl rfl rfl rfl rfl rfl rfl

theorem sendSlot_keeps (u : List Byte) (s : State) : Keeps s (sendSlot u s) := out_keeps ..

theorem headLeaves_keeps (e : Entry) (rest : List Entry) (s : State) (h : s.air.entries = e :: rest) :
    Keeps s (headLeaves e rest s) := by
  refine ⟨rfl, rfl, rfl, rfl, rfl, rfl, id, id, fun g => ?_, id⟩
  simp only [headLeaves]
  rw [h] at g
  simp only [List.length_cons] at g
  omega

theorem handOnShown_keeps (e : Entry) (s : State) : Keeps s (handOnShown e s) := by
  unfold handOnShown
  dsimp only
  split
  · exact (count_keeps ..).trans (journal_keeps ..)
  · exact (cueRowShown_keeps ..).trans (journal_keeps ..)

theorem showHead_keeps (e : Entry) (rest : List Entry) (s : State) (h : s.air.entries = e :: rest) :
    Keeps s (showHead e rest s) :=
  (((headLeaves_keeps e rest s h).trans (handOnShown_keeps ..)).trans (feedAttempt_keeps _)).trans (feedTest_keeps _)

theorem clearScreen_keeps (s : State) (a : AirSchedule) (h : a.entries = s.air.entries) :
    Keeps s (emptyMirror { s with air := a }) :=
  (air_keeps (.inr (by rw [h]))).trans (out_keeps ..)

theorem commandUnit_keeps (s : State) : Keeps s (commandUnit s).2 := by
  unfold commandUnit
  repeat' split
  all_goals first
    | exact .refl s
    | exact (out_keeps s _).trans (out_keeps ..)
    | exact showHead_keeps _ _ s ‹_›
    | exact clearScreen_keeps s _ rfl

theorem sendUnits_keeps (id : Word32) (n : Nat) (s : State) : Keeps s (sendUnits id n s) :=
  air_keeps (.inr (by simp))

theorem setCursor_keeps (id : Option Word32) (s : State) : Keeps s (setCursor id s) := out_keeps ..

theorem stagingDone_keeps (b : BufferNo) (s : State) : Keeps s (stagingDone b s) := out_keeps ..

theorem stageUnits_keeps (fuel n : Nat) (s : State) : Keeps s (stageUnits fuel n s).2 := by
  induction fuel generalizing n s with
  | zero => exact .refl s
  | succ fuel ih =>
    unfold stageUnits
    dsimp only
    repeat' split
    · exact ((sendUnits_keeps ..).trans (stagingDone_keeps ..)).trans (ih ..)
    · exact (sendUnits_keeps ..).trans (ih ..)
    · exact .refl s
    · exact ((sendUnits_keeps ..).trans (setCursor_keeps ..)).trans (ih ..)
    · exact .refl s
    · exact .refl s

theorem runningSlot_keeps (s : State) : Keeps s (runningSlot s) :=
  ((commandUnit_keeps s).trans (stageUnits_keeps ..)).trans (sendSlot_keeps ..)

theorem haltingSlot_keeps (s : State) : Keeps s (haltingSlot s) := by
  unfold haltingSlot
  split
  · exact (out_keeps s _).trans (sendSlot_keeps ..)
  · exact sendSlot_keeps ..

theorem boundarySlot_keeps (s : State) : Keeps s (boundarySlot s) := by
  unfold boundarySlot
  split
  · exact runningSlot_keeps s
  · exact haltingSlot_keeps s
  · exact sendSlot_keeps ..
  · exact sendSlot_keeps ..

theorem markPast_keeps (s : State) : Keeps s (markPast s) := out_keeps ..

theorem lapseBuffers_keeps (s : State) : Keeps s (lapseBuffers s) := air_keeps (.inr (le_refl _))

/-! ### The page engine -/

/-- An update of the run state alone keeps. -/
theorem control_keeps (s : State) (x : Control) : Keeps s { s with control := x } :=
  .same rfl rfl rfl rfl rfl rfl rfl rfl rfl rfl

theorem enterStarting_keeps (s : State) : Keeps s (enterStarting s) := by
  unfold enterStarting
  split
  · exact control_keeps ..
  · exact (control_keeps s _).trans (withOp_keeps ..)

theorem enterHalted_keeps (s : State) : Keeps s (enterHalted s) := by
  unfold enterHalted
  dsimp only
  split
  · exact (control_keeps s _).trans (enterStarting_keeps _)
  · exact control_keeps ..

theorem haltCheck_keeps (s : State) : Keeps s (haltCheck s) := by
  unfold haltCheck
  split
  · exact enterHalted_keeps s
  · exact .refl s

theorem issue_keeps (f : Bool) (p : PassStep) (g c : Word32) (s : State) : Keeps s (issue f p g c s) := withOp_keeps ..

theorem allowRefetch_keeps (s : State) : Keeps s (allowRefetch s) := disp_keeps s _

theorem endPass_keeps (s : State) : Keeps s (endPass s) :=
  ((withOp_keeps ..).trans (allowRefetch_keeps _)).trans (haltCheck_keeps _)

theorem startJournal_keeps (f : Bool) (g c : Word32) (s : State) : Keeps s (startJournal f g c s) := by
  unfold startJournal
  repeat' split
  all_goals first | exact issue_keeps .. | exact endPass_keeps s

theorem startStatus_keeps (f : Bool) (g c : Word32) (s : State) : Keeps s (startStatus f g c s) := issue_keeps ..

theorem startSlots_keeps (n : Nat) (f : Bool) (g c : Word32) (s : State) : Keeps s (startSlots n f g c s) := by
  unfold startSlots
  repeat' split
  all_goals exact issue_keeps ..

theorem startCueTable_keeps (g c : Word32) (s : State) : Keeps s (startCueTable g c s) := by
  unfold startCueTable
  split
  · exact issue_keeps ..
  · exact startSlots_keeps ..

theorem startSettings_keeps (g c : Word32) (s : State) : Keeps s (startSettings g c s) := by
  unfold startSettings
  split
  · exact issue_keeps ..
  · exact startCueTable_keeps ..

theorem acceptMark_keeps (m : Word32) (s : State) : Keeps s (acceptMark m s) := by
  unfold acceptMark
  dsimp only
  repeat' split
  all_goals first
    | exact .refl s
    | exact lower_keeps ..
    | exact .same rfl rfl rfl rfl rfl rfl rfl rfl rfl rfl

theorem headerRead_keeps (h : HeaderWords) (s : State) : Keeps s (headerRead h s) := by
  unfold headerRead
  dsimp only
  repeat' split
  · exact (acceptMark_keeps ..).trans (startSlots_keeps ..)
  · exact (acceptMark_keeps ..).trans (startSettings_keeps ..)
  · exact .refl s

theorem scanBoundary_keeps (s : State) : Keeps s (scanBoundary s) := by
  unfold scanBoundary
  repeat' split
  · exact .refl s
  · exact .same rfl rfl rfl rfl rfl rfl rfl rfl rfl rfl
  · exact .same rfl rfl rfl rfl rfl rfl rfl rfl rfl rfl

theorem startFlush_keeps (s : State) : Keeps s (startFlush s) := by
  unfold startFlush
  split
  · exact withOp_keeps ..
  · exact issue_keeps ..

theorem checkSlot_keeps (n : SlotNo) (r : CueState) (s : State) : Keeps s (checkSlot n r s) := by
  unfold checkSlot
  repeat' split
  all_goals first | exact .refl s | exact markSlot_keeps ..

theorem handSlot_keeps (b : Bool) (t : List Byte) (s : State) (n : SlotNo) : Keeps s (handSlot b t s n) := by
  unfold handSlot
  dsimp only
  repeat' split
  all_goals first
    | exact .refl s
    | exact (takePosted_keeps ..).trans (checkSlot_keeps ..)
    | exact (withdrawCue_keeps ..).trans (checkSlot_keeps ..)
    | exact checkSlot_keeps ..
    | exact takePosted_keeps ..
    | exact takeStray_keeps ..

/-- An update of PE's record that leaves the base and the buffer keeps. -/
theorem pe_keeps (s : State) (x : PageEngine) (hb : x.base = s.pe.base) (hl : x.buffer = s.pe.buffer) :
    Keeps s { s with pe := x } :=
  .same rfl hb rfl rfl rfl rfl hl rfl rfl rfl

theorem seeCueChange_keeps (c : Word32) (s : State) : Keeps s (seeCueChange c s) := pe_keeps s _ rfl rfl

theorem clearScanMarks_keeps (s : State) : Keeps s (clearScanMarks s) := pe_keeps s _ rfl rfl

theorem handTable_keeps (t : List Byte) (s : State) : Keeps s (handTable t s) := Keeps.foldl (handSlot_keeps _ t) _ s

theorem cueTableRead_keeps (t : List Byte) (s : State) : Keeps s (cueTableRead t s) := by
  unfold cueTableRead
  split
  · exact (((seeCueChange_keeps ..).trans (handTable_keeps ..)).trans (clearScanMarks_keeps _)).trans
      (startSlots_keeps ..)
  · exact .refl s

theorem afterAbandoned_keeps (op : Option PageOp) (s : State) : Keeps s (afterAbandoned op s) := by
  unfold afterAbandoned
  split
  · exact control_keeps ..
  · exact haltCheck_keeps s
  · exact .refl s
  · exact .refl s

theorem takeFault_keeps (o : Nat) (x : Site) (s : State) : Keeps s (takeFault o x s) := by
  unfold takeFault
  refine Keeps.trans (Keeps.trans ?_ (Keeps.foldl abandonFetch_keeps _ _)) (afterAbandoned_keeps ..)
  exact .same rfl rfl rfl rfl rfl rfl rfl rfl rfl rfl

theorem accessFailed_keeps (a : Access) (o : Nat) (s : State) : Keeps s (accessFailed a o s) := by
  unfold accessFailed
  split
  · exact takeFault_keeps ..
  · exact .refl s

theorem accessLate_keeps (a : Access) (o : Nat) (s : State) : Keeps s (accessLate a o s) := by
  unfold accessLate
  repeat' split
  all_goals first | exact .refl s | exact takeFault_keeps ..

theorem endFault_keeps (s : State) : Keeps s (endFault s) := by
  unfold endFault
  dsimp only
  split
  · refine Keeps.trans (t := { s with pe := { s.pe with fault := none } })
      (.same rfl rfl rfl rfl rfl rfl rfl rfl rfl rfl) ?_
    split
    · exact (journal_keeps ..).trans (.same rfl rfl rfl rfl rfl rfl rfl rfl rfl rfl)
    · exact journal_keeps ..
  · exact .refl s

/-! ### Frame boundaries and the timebase -/

theorem newFrame_keeps (o : Nat) (s : State) : Keeps s (newFrame o s) := by
  unfold newFrame
  dsimp only
  split
  · exact (tb_keeps s _).trans (loadTaken_keeps _)
  · exact tb_keeps ..

theorem slotNow_keeps (s : State) : Keeps s (slotNow s) := (boundarySlot_keeps s).trans (haltCheck_keeps _)

theorem frameCounts_keeps (s : State) : Keeps s (frameCounts s) :=
  (countPorts_keeps s).trans (handoffCount_keeps _)

theorem frameSlot_keeps (s : State) : Keeps s (frameSlot s) := by
  unfold frameSlot
  split
  · exact .refl s
  · exact slotNow_keeps s

theorem frameFeed_keeps (s : State) : Keeps s (frameFeed s) := (scanBoundary_keeps s).trans (feedAttempt_keeps _)

theorem frameCues_keeps (s : State) : Keeps s (frameCues s) := by
  unfold frameCues
  split
  · exact (dueTest_keeps s).trans (feedTest_keeps _)
  · exact feedTest_keeps s

theorem frameMarks_keeps (b : Bool) (s : State) : Keeps s (frameMarks b s) := work_keeps ..

theorem frameWork_keeps (s : State) : Keeps s (frameWork s) :=
  ((((frameCounts_keeps s).trans (frameSlot_keeps _)).trans (frameFeed_keeps _)).trans (frameCues_keeps _)).trans
    (frameMarks_keeps ..)

theorem tbTurns_keeps (a b : TbMode) (c : RefCause) (s : State) : Keeps s (tbTurns a b c s) :=
  ((tb_keeps s _).trans (journal_keeps ..)).trans (raise_keeps ..)

theorem acceptPulse_keeps (b : Bool) (s : State) : Keeps s (acceptPulse b s) := tb_keeps ..

theorem pulse_keeps (s : State) : Keeps s (pulse s) := by
  unfold pulse
  split
  · exact (((acceptPulse_keeps ..).trans (newFrame_keeps ..)).trans (tbTurns_keeps ..)).trans (frameWork_keeps _)
  · unfold lockedPulse
    repeat' split
    · exact tb_keeps ..
    · exact acceptPulse_keeps ..
    · exact ((acceptPulse_keeps ..).trans (newFrame_keeps ..)).trans (frameWork_keeps _)
  · unfold freewheelPulse
    dsimp only
    split
    · exact (((acceptPulse_keeps ..).trans (newFrame_keeps ..)).trans (tbTurns_keeps ..)).trans (frameWork_keeps _)
    · exact ((acceptPulse_keeps ..).trans (tb_keeps ..)).trans (tbTurns_keeps ..)

theorem lossNow_keeps (s : State) : Keeps s (lossNow s) := by
  unfold lossNow
  split
  · split
    · exact ((newFrame_keeps ..).trans (tbTurns_keeps ..)).trans (frameWork_keeps _)
    · exact .refl s
  · exact .refl s

theorem freewheelNow_keeps (s : State) : Keeps s (freewheelNow s) := by
  unfold freewheelNow
  repeat' split
  all_goals first | exact .refl s | exact (newFrame_keeps ..).trans (frameWork_keeps _)

theorem tbEnters_keeps (s : State) : Keeps s (tbEnters s) := by
  unfold tbEnters
  split
  · exact ((newFrame_keeps ..).trans (tbTurns_keeps ..)).trans (frameWork_keeps _)
  all_goals
    split
    · exact (newFrame_keeps ..).trans (frameWork_keeps _)
    · exact .refl s

theorem tbRates_keeps (a b : Nat) (s : State) : Keeps s (tbRates a b s) := by
  unfold tbRates
  dsimp only
  split
  · exact settings_keeps ..
  · split
    · exact .same rfl rfl rfl rfl rfl rfl rfl rfl rfl rfl
    · refine Keeps.trans ?_ (tbTurns_keeps ..)
      exact .same rfl rfl rfl rfl rfl rfl rfl rfl rfl rfl

theorem tbLoad_keeps (l : Option Frame) (s : State) : Keeps s (tbLoad l s) := by
  unfold tbLoad
  split
  · exact tb_keeps ..
  · exact .refl s

/-! ### Pieces of a boundary's work -/

theorem pauseWork_keeps (w : Writer) (s : State) : Keeps s (pauseWork w s) := by
  unfold pauseWork
  split
  · exact (work_keeps s _).trans (pauseNow_keeps ..)
  · exact .refl s

theorem timeoutWork_keeps (s : State) : Keeps s (timeoutWork s) := by
  unfold timeoutWork
  split
  · exact (work_keeps s _).trans (handoffTimeoutNow_keeps _)
  · exact .refl s

theorem onsetsWork_keeps (s : State) : Keeps s (onsetsWork s) := by
  unfold onsetsWork
  split
  · exact (work_keeps s _).trans (ageOnsets_keeps _)
  · exact .refl s

theorem lastOnsetsWork_keeps (s : State) : Keeps s (lastOnsetsWork s) := by
  unfold lastOnsetsWork
  split
  · exact (work_keeps s _).trans (lapseLastOnsets_keeps _)
  · exact .refl s

theorem buffersWork_keeps (s : State) : Keeps s (buffersWork s) := by
  unfold buffersWork
  split
  · exact (work_keeps s _).trans (lapseBuffers_keeps _)
  · exact .refl s

theorem mirrorWork_keeps (s : State) : Keeps s (mirrorWork s) := by
  unfold mirrorWork
  split
  · exact (work_keeps s _).trans (markPast_keeps _)
  · exact .refl s

theorem atFrameWork_keeps (s : State) : Keeps s (atFrameWork s) := by
  unfold atFrameWork
  split
  · exact (work_keeps s _).trans (watchBoundary_keeps _)
  · exact .refl s

theorem expiryWork_keeps (s : State) : Keeps s (expiryWork s) := by
  unfold expiryWork
  dsimp only
  split
  · exact ((atFrameWork_keeps s).trans (work_keeps ..)).trans (expireBoundary_keeps _)
  · exact atFrameWork_keeps s

theorem slotWork_keeps (s : State) : Keeps s (slotWork s) := by
  unfold slotWork
  split
  · exact (work_keeps s _).trans (slotNow_keeps _)
  · exact .refl s

theorem showWork_keeps (s : State) : Keeps s (showWork s) := by
  unfold showWork
  split
  · exact slotWork_keeps s
  · exact .refl s

theorem clearWork_keeps (s : State) : Keeps s (clearWork s) := by
  unfold clearWork
  split
  · exact slotWork_keeps s
  · exact .refl s

theorem settle_keeps (s : State) : Keeps s (settle s) := by
  unfold settle
  have h1 := ((((buffersWork_keeps s).trans (mirrorWork_keeps _)).trans (onsetsWork_keeps _)).trans
    (lastOnsetsWork_keeps _)).trans (slotWork_keeps _)
  have h2 := ((((h1.trans (pauseWork_keeps 0 _)).trans (pauseWork_keeps 1 _)).trans (pauseWork_keeps 2 _)).trans
    (pauseWork_keeps 3 _)).trans (timeoutWork_keeps _)
  exact (h2.trans (silentLeads_keeps _)).trans (expiryWork_keeps _)

/-! ### Settings, entering and leaving RUNNING -/

theorem applyTuning_keeps (x : Settings) (s : State) : Keeps s (applyTuning x s) :=
  (settings_keeps s _).trans (clampEstimates_keeps _)

theorem applyVoices_keeps (x : Settings) (s : State) : Keeps s (applyVoices x s) :=
  (settings_keeps s _).trans (Keeps.foldl (applyLine_keeps x) _ _)

theorem applyWriter_keeps (x : Settings) (s : State) (w : Writer) : Keeps s (applyWriter x s w) :=
  (applyPort_keeps x s w).trans (silentLeads_keeps _)

theorem applyOnAir_keeps (x : Settings) (s : State) : Keeps s (applyOnAir x s) :=
  ((applyVoices_keeps x s).trans (Keeps.foldl (applyWriter_keeps x) _ _)).trans (applyLiveLevel_keeps ..)

theorem applyForced_keeps (f : Option Writer) (s : State) : Keeps s (applyForced f s).1 := by
  unfold applyForced
  dsimp only
  repeat' split
  · exact settings_keeps ..
  · exact ((forceLead_keeps _ s).trans (silentLeads_keeps _)).trans (settings_keeps ..)
  · exact .refl s

theorem reportSettings_keeps (g : Word32) (a b : List Nat) (s : State) : Keeps s (reportSettings g a b s) := by
  unfold reportSettings
  dsimp only
  refine Keeps.trans (t := { s with pe := { s.pe with
    lastGeneration := g
    clampCount := s.pe.clampCount + BitVec.ofNat 32 a.length
    ignoreCount := s.pe.ignoreCount + BitVec.ofNat 32 b.length } })
    (.same rfl rfl rfl rfl rfl rfl rfl rfl rfl rfl) ?_
  repeat' split
  all_goals first
    | exact .refl _
    | exact raise_keeps ..
    | exact journal_keeps ..
    | exact (raise_keeps ..).trans (journal_keeps ..)

theorem silenceOfApplication_keeps (s : State) : Keeps s (silenceOfApplication s) := by
  unfold silenceOfApplication
  split
  · exact (silenceTest_keeps s).trans (silentLeads_keeps _)
  · exact .refl s

theorem applyRunning_keeps (g : Word32) (b : List Byte) (s : State) : Keeps s (applyRunning g b s) := by
  unfold applyRunning
  dsimp only
  refine Keeps.trans (Keeps.trans (Keeps.trans ?_ (applyForced_keeps ..)) (silenceOfApplication_keeps _))
    (reportSettings_keeps ..)
  split
  · exact applyTuning_keeps ..
  · exact (applyTuning_keeps ..).trans (applyOnAir_keeps ..)

theorem applyStarting_keeps (g : Word32) (b : List Byte) (s : State) : Keeps s (applyStarting g b s) := by
  unfold applyStarting applyStructure
  dsimp only
  exact ((((((((tbRates_keeps ..).trans (tbLoad_keeps ..)).trans (settings_keeps ..)).trans (applyTuning_keeps ..)).trans
    (applyOnAir_keeps ..)).trans (settings_keeps ..)).trans (silenceOfApplication_keeps _)).trans (reportSettings_keeps ..))

theorem settingsRead_keeps (b : List Byte) (s : State) : Keeps s (settingsRead b s) := by
  unfold settingsRead
  split
  · exact (applyRunning_keeps ..).trans (startCueTable_keeps ..)
  · exact .refl s

theorem enterRunning_keeps (s : State) : Keeps s (enterRunning s) := by
  unfold enterRunning
  dsimp only
  refine Keeps.trans (Keeps.trans (Keeps.trans (Keeps.trans (Keeps.trans (Keeps.trans (control_keeps s _)
    (Keeps.foldl startPort_keeps allWriters _)) (Keeps.foldl seedWriter_keeps allWriters _)) (out_keeps ..))
    (startLead_keeps _)) (insertionTest_keeps _)) (tbEnters_keeps _)

theorem pendRunStart_keeps (s : State) : Keeps s (pendRunStart s) := pe_keeps s _ rfl rfl

theorem startingApplied_keeps (h : HeaderWords) (b : List Byte) (s : State) : Keeps s (startingApplied h b s) :=
  ((applyStarting_keeps ..).trans (acceptMark_keeps ..)).trans (pendRunStart_keeps _)

theorem backToHalted_keeps (s : State) : Keeps s (backToHalted s) := control_keeps ..

theorem startingRead_keeps (h : HeaderWords) (b : List Byte) (s : State) : Keeps s (startingRead h b s) := by
  unfold startingRead
  split
  · split
    · exact ((withOp_keeps none s).trans (startingApplied_keeps ..)).trans (enterRunning_keeps _)
    · exact (withOp_keeps none s).trans (backToHalted_keeps _)
  · exact .refl s

theorem haltSchedule_keeps (s : State) : Keeps s (haltSchedule s) :=
  ⟨rfl, rfl, rfl, rfl, rfl, rfl, id, id, fun _ => by simp [haltSchedule, AirSchedule.reset], id⟩

theorem leaveRunning_keeps (s : State) : Keeps s (leaveRunning s) := by
  unfold leaveRunning
  have h := (haltDisplay_keeps s).trans (haltSchedule_keeps _)
  dsimp only
  generalize haltSchedule (haltDisplay s) = u at h ⊢
  refine (h.trans ?_).trans (startFlush_keeps _)
  exact ⟨rfl, rfl, rfl, rfl, rfl, rfl, id, fun _ => by simp, id, fun _ v => by simp⟩

theorem writeRun_keeps (b : Bool) (s : State) : Keeps s (writeRun b s) := by
  unfold writeRun
  have h := control_keeps s { s.control with run := b }
  dsimp only
  split
  · exact h.trans (enterStarting_keeps _)
  · exact control_keeps ..
  · exact Keeps.trans (control_keeps ..) (leaveRunning_keeps _)
  all_goals exact control_keeps ..

theorem writeFreeze_keeps (b : Bool) (s : State) : Keeps s (writeFreeze b s) := by
  unfold writeFreeze
  split
  · exact control_keeps ..
  · exact .refl s

theorem writeAttn_keeps (x : Word32) (s : State) : Keeps s (writeAttn x s) := by
  unfold writeAttn
  dsimp only
  split
  · exact control_keeps ..
  · exact (control_keeps s _).trans (endFault_keeps _)

theorem writeEnable_keeps (x : Word32) (s : State) : Keeps s (writeEnable x s) := control_keeps ..

end Sys2Proof.Machine
end

