-- ==== Sys2Proof/Laws/Commands.lean ====
section
/-! SUPPORT. How a command finds the part: what the moment of a command and the work left of the boundary leave as it was, and
an event or a piece as its function applied to the state found. -/

namespace Sys2Proof.Machine

theorem advance_eq (m : Moment) (s : State) : advance m s = { s with clock := s.clock + m.dt, lines := m.lines } := rfl

theorem arrive_eq (m : Moment) (s : State) :
    arrive m s = { settle s with clock := (settle s).clock + m.dt, lines := m.lines } := by
  rw [arrive, advance_eq]

theorem arrive_mem (m : Moment) (s : State) : (arrive m s).mem = s.mem := by
  rw [arrive_eq]
  exact (settle_keeps s).mem

theorem arrive_pending (m : Moment) (s : State) : (arrive m s).pending = s.pending := by
  rw [arrive_eq]
  exact (settle_keeps s).pending

theorem arrive_base (m : Moment) (s : State) : (arrive m s).pe.base = s.pe.base := by
  rw [arrive_eq]
  exact (settle_keeps s).base

theorem arrive_resetLow (m : Moment) (s : State) : (arrive m s).resetLow = s.resetLow := by
  rw [arrive_eq]
  exact (settle_keeps s).resetLow

theorem arrive_clock (m : Moment) (s : State) : (arrive m s).clock = s.clock + m.dt := by
  rw [arrive_eq]
  show (settle s).clock + m.dt = _
  rw [(settle_keeps s).clock]

theorem arrive_lines (m : Moment) (s : State) : (arrive m s).lines = m.lines := by
  rw [arrive_eq]

/-- With no work outstanding nothing is taken before a command. -/
theorem settle_none {s : State} (h : s.work = Work.none) : settle s = s := by
  simp [settle, buffersWork, mirrorWork, onsetsWork, lastOnsetsWork, slotWork, pauseWork, timeoutWork, silentLeads, silentLeadNow,
    expiryWork, atFrameWork, h, Work.none]

/-- An event that finds the part in a acts on a. -/
theorem event_of_finds {m : Moment} {s a : State} (h : Finds m s a) (f : State → State) : event m f s = f a := by
  obtain ⟨low, rfl⟩ := h
  rw [event, arrive_resetLow, low]
  rfl

/-- A piece that finds the part in a acts on a. -/
theorem piece_of_finds {m : Moment} {s a : State} (h : FindsPiece m s a) (f : State → State) : piece m f s = f a := by
  obtain ⟨low, rfl⟩ := h
  rw [piece, advance_eq]
  simp only [low]
  rfl

end Sys2Proof.Machine
end

