-- ==== Sys2Proof/Laws/Local.lean ====
section
/-! SUPPORT. What the display, the cue player, the schedule and the live queue never change, said once for each operation:
the frame DisplayFrame names, the operation in flight but for its dirty mark, and the quiet of the fetches under a fault. -/

namespace Sys2Proof.Machine

-- One theorem after another: with many threads at once the compile of the package as one text runs out of memory.
set_option Elab.async false

/-- The page operation in flight with the dirty mark of a slot write left out. -/
def undirty : Option PageOp → Option PageOp
  | some (.pass flush (.slot n data terminal _) gen cue since) => some (.pass flush (.slot n data terminal false) gen cue since)
  | op => op

/-- No fetch is in flight or void. -/
def NoFetch (s : State) : Prop := ∀ k x, ctxOf s k = some x → x.fetch = .none

/-- t differs from s only where the display, the cue player, the schedule and the live queue act. -/
structure Local (s t : State) : Prop extends DisplayFrame s t where
  op : undirty t.pe.op = undirty s.pe.op
  quiet : s.pe.fault.isSome = true → NoFetch s → NoFetch t

/-! ### Records kept -/

theorem RecordsKept.refl (s : State) : RecordsKept s s := ⟨⟨[], by simp⟩, fun _ => rfl, fun _ h => h⟩

theorem RecordsKept.trans {s t u : State} (h : RecordsKept s t) (g : RecordsKept t u) : RecordsKept s u := by
  obtain ⟨a, ha⟩ := h.buffer
  obtain ⟨b, hb⟩ := g.buffer
  refine ⟨⟨a ++ b, by rw [hb, ha, List.append_assoc]⟩, fun hf => ?_, fun f x => g.flags f (h.flags f x)⟩
  have e := h.full hf
  rw [g.full (by rw [e]; exact hf), e]

/-- An update that leaves the buffer and the flags keeps the records. -/
theorem RecordsKept.same {s t : State} (buffer : t.pe.buffer = s.pe.buffer) (attn : t.control.attn = s.control.attn) :
    RecordsKept s t :=
  ⟨⟨[], by simp [buffer]⟩, fun _ => buffer, fun f h => by rw [flagSet, attn]; exact h⟩

theorem raise_flags (f g : AttnFlag) (s : State) (h : flagSet g s = true) : flagSet g (raise f s) = true := by
  simp only [flagSet, raise, BitVec.getLsbD_or, Bool.or_eq_true] at h ⊢
  exact .inl h

/-- A flag that is raised is set (R177). -/
theorem raise_set (f : AttnFlag) (s : State) : flagSet f (raise f s) = true := by
  simp only [flagSet, raise, BitVec.getLsbD_or, Bool.or_eq_true]
  refine .inr ?_
  cases f <;> rfl

theorem raise_records (f : AttnFlag) (s : State) : RecordsKept s (raise f s) :=
  ⟨⟨[], by simp [raise]⟩, fun _ => rfl, fun g h => raise_flags f g s h⟩

theorem journal_records (r : Record) (s : State) : RecordsKept s (journal r s) := by
  unfold journal
  split
  · exact ⟨⟨[_], rfl⟩, fun h => absurd h (by omega), fun _ h => h⟩
  · exact RecordsKept.trans (t := { s with pe := { s.pe with lost := s.pe.lost + 1 } }) (.same rfl rfl) (raise_records ..)

/-! ### Composition -/

namespace SlotFrame

theorem refl (s : State) : SlotFrame s s := by constructor <;> first | rfl | exact RecordsKept.refl s

theorem trans {s t u : State} (h : SlotFrame s t) (g : SlotFrame t u) : SlotFrame s u where
  tb := g.tb.trans h.tb
  ports := g.ports.trans h.ports
  builders := g.builders.trans h.builders
  capture := g.capture.trans h.capture
  onsets := g.onsets.trans h.onsets
  lastOnset := g.lastOnset.trans h.lastOnset
  est := g.est.trans h.est
  la := g.la.trans h.la
  mem := g.mem.trans h.mem
  pending := g.pending.trans h.pending
  clock := g.clock.trans h.clock
  lines := g.lines.trans h.lines
  resetLow := g.resetLow.trans h.resetLow
  work := g.work.trans h.work
  control := by have e := g.control; rw [h.control] at e; exact e
  settings := by have e := g.settings; rw [h.settings] at e; exact e
  engine := by have e := g.engine; rw [h.engine] at e; exact e
  records := h.records.trans g.records

end SlotFrame

namespace Local

theorem refl (s : State) : Local s s := ⟨⟨SlotFrame.refl s, rfl⟩, rfl, fun _ h => h⟩

theorem trans {s t u : State} (h : Local s t) (g : Local t u) : Local s u where
  toDisplayFrame := ⟨h.toSlotFrame.trans g.toSlotFrame, g.out.trans h.out⟩
  op := g.op.trans h.op
  quiet := fun f n => g.quiet (by rw [h.engine]; exact f) (h.quiet f n)

theorem foldl {α : Type} {f : State → α → State} (h : ∀ s x, Local s (f s x)) (l : List α) (s : State) :
    Local s (l.foldl f s) := by
  induction l generalizing s with
  | nil => exact refl s
  | cons x rest ih => exact (h s x).trans (ih _)

end Local

/-! ### Updates -/

theorem raise_local (f : AttnFlag) (s : State) : Local s (raise f s) := by
  refine ⟨⟨?_, rfl⟩, rfl, fun _ h => h⟩
  constructor <;> first | rfl | exact raise_records f s

theorem lost_local (s : State) (n : Word32) : Local s { s with pe := { s.pe with lost := n } } := by
  refine ⟨⟨?_, rfl⟩, rfl, fun _ h => h⟩
  constructor <;> first | rfl | exact .same rfl rfl

theorem journal_local (r : Record) (s : State) : Local s (journal r s) := by
  have h := journal_records r s
  unfold journal at h ⊢
  split
  · rename_i c
    rw [if_pos c] at h
    refine ⟨⟨?_, rfl⟩, rfl, fun _ h => h⟩
    constructor <;> first | rfl | exact h
  · exact (lost_local s _).trans (raise_local ..)

theorem counters_local (s : State) (c : Vector Counters 4) : Local s { s with counters := c } := by
  refine ⟨⟨?_, rfl⟩, rfl, fun _ h => h⟩
  constructor <;> first | rfl | exact .same rfl rfl

theorem count_local (w : Writer) (f : Counters → Counters) (s : State) : Local s (count w f s) := counters_local ..

theorem queue_local (s : State) (q : List Row) : Local s { s with queue := q } := by
  refine ⟨⟨?_, rfl⟩, rfl, fun _ h => h⟩
  constructor <;> first | rfl | exact .same rfl rfl

theorem air_local (s : State) (a : AirSchedule) : Local s { s with air := a } := by
  refine ⟨⟨?_, rfl⟩, rfl, fun _ h => h⟩
  constructor <;> first | rfl | exact .same rfl rfl

theorem nextRowId_local (s : State) (x : Word32) : Local s { s with nextRowId := x } := by
  refine ⟨⟨?_, rfl⟩, rfl, fun _ h => h⟩
  constructor <;> first | rfl | exact .same rfl rfl

/-- An update of DO's record that leaves the cue contexts, and of the applied live level. -/
theorem settings_disp_local (s : State) (v : Nat) (d : Display) (h : d.ctx = s.disp.ctx) :
    Local s { s with settings := { s.settings with liveLevel := v }, disp := d } := by
  refine ⟨⟨?_, rfl⟩, rfl, fun _ n k x e => n k x ?_⟩
  · constructor <;> first | rfl | exact .same rfl rfl
  · simpa only [ctxOf, h] using e

theorem disp_local (s : State) (d : Display) (h : d.ctx = s.disp.ctx) : Local s { s with disp := d } :=
  settings_disp_local s s.settings.liveLevel d h

theorem storeCue_local (n : SlotNo) (c : Option Cue) (s : State) : Local s (storeCue n c s) := disp_local s _ rfl

theorem withStack_local (l : List Owner) (s : State) : Local s (withStack l s) := disp_local s _ rfl

theorem undirty_dirtyOp (n : SlotNo) (op : Option PageOp) : undirty (dirtyOp n op) = undirty op := by
  unfold dirtyOp
  split <;> rfl

theorem markSlot_local (n : SlotNo) (s : State) : Local s (markSlot n s) := by
  refine ⟨⟨?_, rfl⟩, undirty_dirtyOp n _, fun _ h => h⟩
  constructor <;> first | rfl | exact .same rfl rfl

/-- A context is stored: with the fault set, one without a fetch, or one whose fetch was there before. -/
theorem storeCtx_local (k : CtxNo) (x : Option Context) (s : State)
    (h : ∀ y, x = some y → s.pe.fault.isSome = true → y.fetch = .none ∨ ∃ z, ctxOf s k = some z ∧ z.fetch ≠ .none) :
    Local s (storeCtx k x s) := by
  refine ⟨⟨?_, rfl⟩, rfl, fun f n j y e => ?_⟩
  · constructor <;> first | rfl | exact .same rfl rfl
  · simp only [ctxOf, storeCtx, get_put] at e
    split at e
    · rcases h y e f with g | ⟨z, hz, g⟩
      · exact g
      · exact absurd (n k z hz) g
    · exact n j y e

/-- A context without a fetch is stored, or one is freed. -/
theorem storeCtx_idle (k : CtxNo) (x : Option Context) (s : State) (h : ∀ y, x = some y → y.fetch = .none) :
    Local s (storeCtx k x s) := storeCtx_local k x s (fun y e _ => .inl (h y e))

/-! ### The live queue and the air schedule -/

theorem countDropped_local (r : Row) (s : State) : Local s (countDropped r s) := by
  unfold countDropped
  split
  · exact count_local ..
  · exact .refl s

theorem overflowDrop_local (r : Row) (s : State) : Local s (overflowDrop r s) :=
  (countDropped_local r s).trans (journal_local ..)

theorem joinTail_local (r : Row) (s : State) : Local s (joinTail r s) := by
  unfold joinTail
  repeat' split
  all_goals first | exact (queue_local ..).trans (overflowDrop_local ..) | exact queue_local ..

theorem trimQueue_local (n : Nat) (s : State) : Local s (trimQueue n s) := by
  induction n generalizing s with
  | zero => exact .refl s
  | succ n ih =>
    unfold trimQueue
    repeat' split
    all_goals first | exact ((queue_local s _).trans (overflowDrop_local ..)).trans (ih _) | exact .refl s

theorem joinHead_local (rows : List Row) (s : State) : Local s (joinHead rows s) :=
  (queue_local s _).trans (trimQueue_local ..)

theorem enterRow_local (r : Row) (p : Placement) (s : State) : Local s (enterRow r p s) := air_local ..

theorem offerRow_local (r : Row) (s : State) : Local s (offerRow r s).1 := by
  unfold offerRow
  dsimp only
  split
  · exact (countDropped_local ..).trans (journal_local ..)
  · exact enterRow_local ..

theorem feedRows_local (n : Nat) (s : State) : Local s (feedRows n s) := by
  induction n generalizing s with
  | zero => exact .refl s
  | succ n ih =>
    unfold feedRows
    repeat' split
    all_goals first | exact ((queue_local s _).trans (offerRow_local ..)).trans (ih _) | exact .refl s

theorem feedAttempt_local (s : State) : Local s (feedAttempt s) := feedRows_local _ s

theorem keepEntries_local (kept : List Entry) (s : State) : Local s (keepEntries kept s) := air_local ..

theorem removeWaiting_local (p : Entry → Bool) (s : State) : Local s (removeWaiting p s) := by
  unfold removeWaiting
  split
  · exact .refl s
  · exact keepEntries_local ..

theorem removeWaiting_ctx (p : Entry → Bool) (s : State) (k : CtxNo) : ctxOf (removeWaiting p s) k = ctxOf s k := by
  unfold removeWaiting
  split <;> rfl

theorem withdrawLive_local (s : State) : Local s (withdrawLive s) :=
  (joinHead_local ..).trans (removeWaiting_local ..)

theorem discardCue_local (n : SlotNo) (s : State) : Local s (discardCue n s) :=
  (Local.foldl (fun _ _ => journal_local ..) _ s).trans (removeWaiting_local ..)

theorem updateCue_local (n : SlotNo) (c : Cue) (s : State) : Local s (updateCue n c s) :=
  (storeCue_local ..).trans (markSlot_local ..)

theorem cueTurns_local (n : SlotNo) (left : CueState) (c : Cue) (s : State) : Local s (cueTurns n left c s) := by
  unfold cueTurns
  have h := (updateCue_local n c s).trans
    (journal_local (.cueState n left c.state c.reason c.shown c.dropped c.start) (updateCue n c s))
  dsimp only
  split
  · exact h.trans (raise_local ..)
  · exact h

theorem feedTest_local (s : State) : Local s (feedTest s) := by
  unfold feedTest
  repeat' split
  all_goals try exact .refl s
  rename_i h
  refine storeCtx_local _ _ s (fun y _ f => absurd f ?_)
  simp only [mayFetch, Bool.and_eq_true] at h
  rw [Option.isNone_iff_eq_none.mp h.1.1.1.1.1.2]
  simp

theorem becomeDue_local (n : SlotNo) (f : Frame) (s : State) : Local s (becomeDue n f s) := by
  unfold becomeDue
  split
  · exact (cueTurns_local ..).trans (disp_local _ _ (by rfl))
  · exact .refl s

/-- A voided fetch was there before. -/
theorem voidFetch_ne {f : FetchState} (h : voidFetch f ≠ .none) : f ≠ .none := by
  cases f <;> simp_all [voidFetch]

theorem suspendCue_local (k : CtxNo) (s : State) : Local s (suspendCue k s) := by
  unfold suspendCue
  split
  · rename_i x hx
    repeat' split
    all_goals try exact .refl s
    refine ((removeWaiting_local ..).trans (storeCtx_local _ _ _ (fun y e _ => ?_))).trans (cueTurns_local ..)
    cases e
    rw [removeWaiting_ctx]
    by_cases h : voidFetch x.fetch = .none
    · exact .inl h
    · exact .inr ⟨x, hx, voidFetch_ne h⟩
  · exact .refl s

theorem preemptTop_local (s : State) : Local s (preemptTop s) := by
  unfold preemptTop
  split
  · exact withdrawLive_local s
  · exact suspendCue_local _ s
  · exact .refl s

theorem acceptCue_local (n : SlotNo) (c : Cue) (k : CtxNo) (s : State) : Local s (acceptCue n c k s) := by
  unfold acceptCue
  exact (((((disp_local s _ (by rfl)).trans (preemptTop_local _)).trans (storeCtx_idle _ _ _ (by simp))).trans
    (withStack_local ..)).trans (cueTurns_local ..)).trans (feedTest_local _)

theorem dueTest_local (s : State) : Local s (dueTest s).1 := by
  unfold dueTest
  repeat' split
  all_goals first | exact .refl s | exact acceptCue_local ..

theorem insertionTest_local (s : State) : Local s (insertionTest s).1 := by
  unfold insertionTest
  repeat' split
  all_goals first
    | exact .refl s
    | exact disp_local _ _ (by rfl)
    | exact ((disp_local s _ (by rfl)).trans (feedAttempt_local _)).trans (dueTest_local _)

theorem applyPendingLevel_local (s : State) : Local s (applyPendingLevel s) := by
  unfold applyPendingLevel
  repeat' split
  all_goals first | exact .refl s | exact settings_disp_local _ _ _ (by rfl)

theorem leadAppeared_local (s : State) : Local s (leadAppeared s) :=
  (disp_local s _ (by rfl)).trans (insertionTest_local _)

theorem leadGone_local (s : State) : Local s (leadGone s) := by
  unfold leadGone
  dsimp only
  repeat' split
  · exact ((((disp_local s _ (by rfl)).trans (withdrawLive_local _)).trans (withStack_local ..)).trans
      (applyPendingLevel_local _)).trans (dueTest_local _)
  · exact (((disp_local s _ (by rfl)).trans (withStack_local ..)).trans (applyPendingLevel_local _)).trans (dueTest_local _)
  · exact disp_local _ _ (by rfl)

theorem applyLiveLevel_local (v : Nat) (s : State) : Local s (applyLiveLevel v s) := by
  unfold applyLiveLevel
  repeat' split
  · exact .refl s
  · exact ((settings_disp_local s _ _ (by rfl)).trans (insertionTest_local _)).trans (dueTest_local _)
  · exact disp_local _ _ (by rfl)

theorem takeUpDisplay_local (s : State) : Local s (takeUpDisplay s) := by
  unfold takeUpDisplay
  repeat' split
  all_goals first
    | exact .refl s
    | exact feedAttempt_local s
    | exact feedTest_local s
    | exact (cueTurns_local ..).trans (feedTest_local _)

theorem releaseCtx_local (k : CtxNo) (s : State) : Local s (releaseCtx k s) := by
  unfold releaseCtx
  split
  · rename_i x hx
    split
    · exact storeCtx_idle _ _ _ (by simp)
    · rename_i h
      exact storeCtx_local _ _ _ (fun y e _ => .inr ⟨x, hx, h⟩)
  · exact .refl s

theorem leaveStack_local (k : CtxNo) (s : State) : Local s (leaveStack k s) := by
  unfold leaveStack
  have h := ((((releaseCtx_local k s).trans (withStack_local (s.disp.stack.erase (.ctx k)) _)).trans
    (applyPendingLevel_local _)).trans (insertionTest_local _)).trans (dueTest_local _)
  dsimp only
  split
  · exact h.trans (takeUpDisplay_local _)
  · exact h

theorem endCue_local (n : SlotNo) (k : CtxNo) (c : Cue) (s : State) (e : CueState) (r : CueReason) :
    Local s (endCue n k c s e r) :=
  (cueTurns_local ..).trans (leaveStack_local ..)

theorem completeCtx_local (k : CtxNo) (n : SlotNo) (s : State) : Local s (completeCtx k n s) := by
  unfold completeCtx
  repeat' split
  all_goals first | exact .refl s | exact endCue_local ..

theorem completionTest_local (n : SlotNo) (s : State) : Local s (completionTest n s) := by
  unfold completionTest
  split
  · exact completeCtx_local ..
  · exact .refl s

theorem cueRowShown_local (n : SlotNo) (s : State) : Local s (cueRowShown n s) := by
  unfold cueRowShown
  split
  · exact (updateCue_local ..).trans (completionTest_local ..)
  · exact .refl s

theorem cueRowsDropped_local (n : SlotNo) (m : Nat) (s : State) : Local s (cueRowsDropped n m s) := by
  unfold cueRowsDropped
  repeat' split
  all_goals first | exact .refl s | exact updateCue_local ..

theorem placeArmed_local (n : SlotNo) (c : Cue) (s : State) : Local s (placeArmed n c s) := by
  unfold placeArmed
  repeat' split
  all_goals first
    | exact .refl s
    | exact (becomeDue_local ..).trans (dueTest_local _)
    | exact disp_local _ _ (by rfl)

theorem armCue_local (n : SlotNo) (left : CueState) (c : Cue) (s : State) : Local s (armCue n left c s) := by
  unfold armCue
  repeat' split
  · exact (storeCue_local ..).trans (placeArmed_local ..)
  · exact (updateCue_local ..).trans (placeArmed_local ..)
  · exact (cueTurns_local ..).trans (placeArmed_local ..)

theorem takePosted_local (n : SlotNo) (b : List Byte) (left : CueState) (s : State) :
    Local s (takePosted n b left s) := by
  unfold takePosted
  dsimp only
  repeat' split
  · exact cueTurns_local ..
  · exact cueTurns_local ..
  · exact armCue_local ..

theorem takeStray_local (n : SlotNo) (b : List Byte) (left : CueState) (s : State) :
    Local s (takeStray n b left s) := cueTurns_local ..

theorem abortCue_local (n : SlotNo) (c : Cue) (r : CueReason) (s : State) : Local s (abortCue n c r s) :=
  cueTurns_local ..

theorem withdrawCue_local (n : SlotNo) (c : Cue) (s : State) : Local s (withdrawCue n c s) := by
  unfold withdrawCue
  split
  · exact Local.trans (disp_local _ _ (by rfl)) (abortCue_local ..)
  · exact Local.trans (disp_local _ _ (by rfl)) (abortCue_local ..)
  · dsimp only
    split
    · exact Local.trans (Local.trans (discardCue_local ..) (cueRowsDropped_local ..)) (endCue_local ..)
    · exact Local.trans (Local.trans (discardCue_local ..) (cueRowsDropped_local ..)) (abortCue_local ..)
  · split
    · exact endCue_local ..
    · exact abortCue_local ..
  all_goals exact .refl s

theorem watchDue_local (s : State) (n : SlotNo) : Local s (watchDue s n) := by
  unfold watchDue
  repeat' split
  all_goals first | exact .refl s | exact (disp_local _ _ (by rfl)).trans (becomeDue_local ..)

theorem watchBoundary_local (s : State) : Local s (watchBoundary s) :=
  (Local.foldl watchDue_local _ s).trans (dueTest_local _)

theorem expireCue_local (s : State) (n : SlotNo) : Local s (expireCue s n) := by
  unfold expireCue
  repeat' split
  all_goals first | exact .refl s | exact (disp_local _ _ (by rfl)).trans (cueTurns_local ..)

theorem expireBoundary_local (s : State) : Local s (expireBoundary s) := Local.foldl expireCue_local _ s

theorem takeRow_local (k : CtxNo) (n : SlotNo) (r : Row) (e : List Byte) (s : State) : Local s (takeRow k n r e s) := by
  unfold takeRow
  dsimp only
  repeat' split
  · exact ((journal_local ..).trans (cueRowsDropped_local ..)).trans (completeCtx_local ..)
  · exact ((offerRow_local ..).trans (cueRowsDropped_local ..)).trans (completeCtx_local ..)
  · exact offerRow_local ..

theorem takeFetch_local (k : CtxNo) (x : Context) (c : Cue) (e : List Byte) (s : State) :
    Local s (takeFetch k x c e s) := by
  unfold takeFetch
  dsimp only
  split
  · exact ((nextRowId_local s _).trans (storeCtx_idle _ _ _ (by simp))).trans (takeRow_local ..)
  · exact storeCtx_idle _ _ _ (by simp)

theorem endVoidFetch_local (k : CtxNo) (x : Context) (s : State) : Local s (endVoidFetch k x s) := by
  unfold endVoidFetch
  split
  · exact storeCtx_idle _ _ _ (by simp)
  · exact (storeCtx_idle _ _ _ (by simp)).trans (dueTest_local _)

theorem discardFetch_local (k : CtxNo) (x : Context) (s : State) : Local s (discardFetch k x s) := by
  unfold discardFetch
  split
  · exact (endVoidFetch_local ..).trans (feedTest_local _)
  · exact endVoidFetch_local ..

theorem completeFetch_local (k : CtxNo) (e : List Byte) (s : State) : Local s (completeFetch k e s) := by
  unfold completeFetch
  repeat' split
  all_goals first
    | exact .refl s
    | exact discardFetch_local ..
    | exact (takeFetch_local ..).trans (feedTest_local _)

theorem abandonFetch_local (s : State) (k : CtxNo) : Local s (abandonFetch s k) := by
  unfold abandonFetch
  repeat' split
  all_goals first | exact .refl s | exact storeCtx_idle _ _ _ (by simp) | exact endVoidFetch_local ..

theorem haltCue_local (s : State) (n : SlotNo) : Local s (haltCue s n) := by
  unfold haltCue
  repeat' split
  all_goals first | exact .refl s | exact abortCue_local ..

end Sys2Proof.Machine
end

