-- ==== Sys2Proof/Tests/Slice0.lean ====
section
/-! SUPPORT. Tests: a refused ill-formed command for each check of WellFormed; one-step tests whose expected results come from
the worked sequences and rules of the spec; and, for every statement with hypotheses, a state and operands that meet them, at
the boundary values of its clauses. -/

namespace Sys2Proof.Tests

-- One theorem after another: with many threads at once the compile of the package as one text runs out of memory.
set_option Elab.async false

open Sys2Proof Sys2Proof.Machine

/-! ### Small states -/

/-- The moment some counts on, every capture line low but line 0 where high is set. -/
def later (counts : Nat) (high : Bool := false) : Moment := { dt := counts, lines := Vector.ofFn (fun i => high && i == 0) }

/-- The moment at once. -/
def now : Moment := later 0

/-- A writer that is enabled, at 234 counts a bit. -/
def writer : WriterSettings := { WriterSettings.default with enable := true, divisor := 234 }

/-- A RUNNING part in FREEWHEEL at the beginning of a frame, every port in RUN, writer 0 LEAD with an estimate of 1,200 ticks,
the live stream on top, and no row anywhere. -/
def live (frame : Nat) : State :=
  { State.reset with
    clock := 10000000
    control := { State.reset.control with run := true, runState := .running }
    settings := { Settings.default with delay := 100, writers := Vector.replicate 4 writer }
    tb := { State.reset.tb with
      mode := .freewheel, frame := BitVec.ofNat 28 frame, origin := some 10000000, lastPulse := some 10000000, load := none }
    ports := Vector.replicate 4 { Port.reset with mode := .run, divisor := some 234, lookFrom := 9000000, since := 9000000 }
    est := Vector.replicate 4 { estimate := some 1200, rejects := 0 }
    la := { Arbiter.reset with lead := some 0, roles := put (Vector.replicate 4 .standby) 0 .lead }
    disp := { State.reset.disp with stack := [.live], place := .inStack } }

/-- The same part with its settings changed. -/
def tuned (f : Settings → Settings) (s : State) : State := { s with settings := f s.settings }

/-- The same part with its timebase changed. -/
def timed (f : Timebase → Timebase) (s : State) : State := { s with tb := f s.tb }

/-- The same part with the port of writer 0 changed. -/
def ported (f : Port → Port) (s : State) : State := { s with ports := change s.ports 0 f }

/-- The same part with the settings of writer 0 changed. -/
def written (f : WriterSettings → WriterSettings) (s : State) : State :=
  tuned (fun set => { set with writers := change set.writers 0 f }) s

/-- The same part with the buffer of writer 0 holding a text, all of it from tick stamp 5. -/
def holding (text : List Byte) (s : State) : State :=
  let b := { Builder.reset with chars := text.map (fun c => { ch := c, stamp := 5 }), arrival := some 5 }
  { s with builders := put s.builders 0 b }

/-- The same part with its page engine changed. -/
def paged (f : PageEngine → PageEngine) (s : State) : State := { s with pe := f s.pe }

/-- The same part in another run state. -/
def inState (r : RunState) (s : State) : State := { s with control := { s.control with runState := r } }

/-- The same part with a handoff pending to writer 1. -/
def handing (waited : Nat) (s : State) : State :=
  { s with la := { s.la with handoff := some { taker := 1, waited := waited }, roles := put s.la.roles 1 .taking } }

/-- The same part with a piece of boundary work outstanding. -/
def working (f : Work → Work) (s : State) : State := { s with work := f s.work }

/-- A row of the given length that writer 0 closed. -/
def liveRow (id n arrival : Nat) : Row :=
  { id := BitVec.ofNat 32 id, text := List.replicate n 0x41
    source := .live 0 (BitVec.ofNat 32 arrival) .rowCode false }

/-- A waiting schedule entry for a row. -/
def entry (r : Row) (frame : Nat) : Entry :=
  { row := r, latency := some 1200, ideal := BitVec.ofNat 28 frame, showAt := BitVec.ofNat 28 frame, hold := 9, buffer := 0
    stageStart := BitVec.ofNat 28 frame, stagedBy := BitVec.ofNat 28 frame, sent := 0
    flags := { late := false, catchup := false, clamped := false } }

/-- The edges of a character of 234 counts a bit with the given levels from its start bit to its stop bit. -/
def edgesOf (levels : List Bool) : List Nat :=
  (List.range (levels.length - 1)).flatMap (fun i =>
    if levels[i]? == levels[i + 1]? then [] else [(i + 1) * 234])

/-- The edges of a byte without parity. -/
def wave (ch : Byte) (stop : Bool := true) : List Nat :=
  edgesOf (false :: (List.range 8).map (fun i => ch.getLsbD i) ++ [stop])

/-- The edges of a byte with a parity bit. -/
def waveParity (ch : Byte) (bit stop : Bool) : List Nat :=
  edgesOf (false :: (List.range 8).map (fun i => ch.getLsbD i) ++ [bit, stop])

/-- The host words of a header, each least significant byte first. -/
def hostWords (cueChange generation readMark : Nat) : List Byte :=
  [cueChange, generation, readMark].flatMap (fun w => [w, w / 256, w / 65536, w / 16777216].map (BitVec.ofNat 8))

/-- The next state, where there is one, passes a test. -/
def then? (c : Instr) (s : State) (test : State → Bool) : Bool :=
  match exec c s with
  | .next t => test t
  | .fault _ => false
  | .refused _ => false

/-! ### Ill-formed commands -/

theorem test_wellFormed_control_writes :
    (Instr.softReset now 0).wellFormed = false ∧ (Instr.runSet now 0).wellFormed = false ∧
    (Instr.runSet now 5).wellFormed = false ∧ (Instr.runClear now 1).wellFormed = false ∧
    (Instr.runClear now 4).wellFormed = false ∧ (Instr.freeze now 1).wellFormed = false ∧
    (Instr.freeze now 6).wellFormed = false ∧ (Instr.pageFaultClear now 4).wellFormed = false := by decide

theorem test_wellFormed_waveforms :
    (Instr.characterAccepted now 0 [468, 234]).wellFormed = false ∧
    (Instr.alignmentCharacter now 0 [234, 234]).wellFormed = false ∧ (Instr.spanMeasured now 0 0).wellFormed = false := by
  decide

theorem test_wellFormed_boundary_work_comes_at_once :
    (Instr.pauseEvent (later 1) 0).wellFormed = false ∧ (Instr.silentLead (later 1)).wellFormed = false ∧
    (Instr.handoffTimeout (later 1)).wellFormed = false ∧ (Instr.onsetAged (later 1)).wellFormed = false ∧
    (Instr.lastOnsetLapse (later 1)).wellFormed = false ∧ (Instr.bufferFreeLapse (later 1)).wellFormed = false ∧
    (Instr.mirrorPast (later 1)).wellFormed = false ∧ (Instr.atFrameDue (later 1)).wellFormed = false ∧
    (Instr.cueWaitExpired (later 1)).wellFormed = false ∧ (Instr.showRow (later 1)).wellFormed = false ∧
    (Instr.pendingClear (later 1)).wellFormed = false := by decide

theorem test_wellFormed_reads_and_offsets :
    (Instr.settingsApplication now []).wellFormed = false ∧
    (Instr.settingsReadComplete now (hostWords 0 0 0) []).wellFormed = false ∧
    (Instr.headerReadComplete now [0]).wellFormed = false ∧
    (Instr.cueTableReadComplete now []).wellFormed = false ∧ (Instr.fetchComplete now 0 []).wellFormed = false ∧
    (Instr.pageFault now .engine 0x29000).wellFormed = false ∧
    (Instr.accessTimeout now .engine 0x29000).wellFormed = false := by decide

theorem test_wellFormed_good_commands :
    (Instr.runSet now 3).wellFormed = true ∧ (Instr.characterAccepted now 0 (wave 0x41)).wellFormed = true ∧
    (Instr.pageFault now .engine 0x28FFF).wellFormed = true := by decide

/-! ### One step each, from the worked sequences -/

/-- "Worked sequence: loss and return at 25 fps" (after R9), at a local count with the frame's origin. -/
def following (mode : TbMode) (frame origin : Nat) : State :=
  timed (fun tb => { tb with mode := mode, frame := BitVec.ofNat 28 frame, origin := some origin, lastPulse := some origin })
    { live 0 with clock := origin }

theorem test_glitch_at_3500000 :
    then? (.referencePulse (later 420000)) (following .locked 1 3080000)
      (fun t => t.tb.glitches = 1 && t.tb.frame = 1 && t.tb.origin = some 3080000) = true := by decide +kernel

theorem test_loss_expiry_at_5780000 :
    then? (.lossExpiry (later 1620000)) (following .locked 2 4160000)
      (fun t => t.tb.mode = .freewheel && t.tb.frame = 3 && t.tb.origin = some 5240000 && subTick t = 8) = true := by
  decide +kernel

theorem test_freewheel_expiry_at_6320000 :
    then? (.freewheelExpiry (later 1080000)) (following .freewheel 3 5240000)
      (fun t => t.tb.frame = 4 && t.tb.origin = some 6320000) = true := by decide +kernel

theorem test_realign_at_6650000 :
    then? (.referencePulse (later 330000)) (following .freewheel 4 6320000)
      (fun t => t.tb.mode = .locked && t.tb.frame = 4 && t.tb.origin = some 6650000 && subTick t = 4) = true := by
  decide +kernel

/-- "Worked acquisition at 9,600 bits per second" (after R24): a port of an automatic writer, its start edge 0 counts ago. -/
def acquiring (phase : AcqPhase) : State :=
  ported (fun p => { p with mode := .acquire, phase := some phase, divisor := none, startEdge := some 10000000 })
    (written (fun w => { w with auto := true }) (live 0))

theorem test_span_19688 :
    then? (.spanMeasured (later 19688) 0 8438) (acquiring .measure)
      (fun t => (portOf t 0).measured = some 2813 && (portOf t 0).phase = some .check) = true := by decide +kernel

theorem test_span_with_0x3E_is_an_alignment_error :
    then? (.spanMeasured (later 19688) 0 5625) (acquiring .measure)
      (fun t => (portOf t 0).phase = some .seekBreak && (get t.counters 0).alignmentErrors = 1) = true := by decide +kernel

theorem test_alignment_accepted_at_27074 :
    then? (.alignmentCharacter (later 27074) 0 [25313])
      (ported (fun p => { p with measured := some 2813, edges := [8438, 19688] }) (acquiring .check))
      (fun t => (portOf t 0).mode = .run && (portOf t 0).divisor = some 2813) = true := by decide +kernel

/-- "Worked sequence: wrap, reopen and refusal" (Rows and Corrections): the 'E' that wraps "THE MINISTER SAID TH". -/
def minister : State :=
  let text : List Byte := [0x54, 0x48, 0x45, 0x20, 0x4D, 0x49, 0x4E, 0x49, 0x53, 0x54, 0x45, 0x52, 0x20, 0x53, 0x41, 0x49, 0x44,
    0x20, 0x54, 0x48]
  { tuned (fun set => { set with rowWidth := 20 }) (holding text (live 8041)) with
    disp := { (live 0).disp with stack := [.live, .ctx 0] }, nextRowId := 41 }

theorem test_wrap_carries_TH :
    then? (.characterAccepted (later 10000) 0 (wave 0x45)) minister
      (fun t => (builderOf t 0).chars.map TextChar.ch = [0x54, 0x48, 0x45] &&
        t.queue.map (fun r => (r.id, r.text.length)) = [(41, 17)]) = true := by decide +kernel

/-- "Worked sequence: gate, rejects and reseed" (after R77): resumption 1, x = 1,120 from the estimate 1,000. -/
def resuming (x : Nat) (est : Estimator) : State :=
  { ported (fun p => { p with pauseFlag := true }) (live 1000) with
    est := put (live 0).est 0 est
    onsets := Vector.replicate 2 [{ stamp := BitVec.ofNat 32 (16000 - x), marks := Vector.replicate 4 false }] }

theorem test_resumption_moves_the_estimate_to_1015 :
    then? (.characterAccepted now 0 (wave 0x41)) (resuming 1120 { estimate := some 1000, rejects := 0 })
      (fun t => get t.est 0 = { estimate := some 1015, rejects := 0 }) = true := by decide +kernel

/-- "A click, then speech" (after R65): VOX0 sampled at tick 10 of frame 20,000 with two candidates from tick 6. -/
theorem test_capture_is_dated_to_its_first_sample :
    then? (.tickStep (later 675000 true))
      { tuned (fun set => { set with lines := put set.lines 0 { edge := .rising, period := 2, filter := 3 } }) (live 20000) with
        capture := put (live 0).capture 0
          { filtered := false, steps := 1, candidates := 2, candStamp := some 320006, captures := 0 } }
      (fun t => get t.lastOnset 0 = some 320006 && (get t.onsets 0).map Onset.stamp = [320006] &&
        (get t.capture 0).captures = 1) = true := by decide +kernel

/-- The onset of stamp 320,006 at a boundary (the same worked sequence). -/
def aging (frame : Nat) : State :=
  working (fun w => { w with onsets := true })
    { live frame with onsets := put (live 0).onsets 0 [{ stamp := 320006, marks := Vector.replicate 4 false }] }

theorem test_onset_kept_at_20251_and_removed_at_20252 :
    then? (.onsetAged now) (aging 20251) (fun t => (get t.onsets 0).length = 1) = true ∧
    then? (.onsetAged now) (aging 20252) (fun t => get t.onsets 0 = []) = true := by decide +kernel

/-- "Worked schedule: one row at the limits" (after R107). -/
def limits (delay : Nat) : State :=
  { tuned (fun set => { set with delay := delay }) (live 10030) with
    est := put (live 0).est 0 { estimate := some 1000, rejects := 0 }
    air := { AirSchedule.reset with
      entries := [{ entry (liveRow 7 20 0) 10040 with hold := 21, buffer := 1, sent := 22 }]
      horizon := some 10021
      bufFree := put AirSchedule.reset.bufFree 1 (some 10041) } }

/-- The numbers of a schedule entry: ideal and show frames, hold, buffer, stage start, staged-by, LATE and CATCHUP. -/
def numbers (e : Entry) : List Nat × Bool × Bool :=
  ([e.ideal.toNat, e.showAt.toNat, e.hold, e.buffer.val, e.stageStart.toNat, e.stagedBy.toNat], e.flags.late, e.flags.catchup)

theorem test_schedule_row_at_the_limits :
    ((offerRow (liveRow 8 28 160000) (limits 120)).1.air.entries.map numbers).getLast? =
      some ([10058, 10061, 26, 0, 10031, 10035], false, false) ∧
    ((offerRow (liveRow 8 28 160000) (limits 0)).1.air.entries.map numbers).getLast? =
      some ([9938, 10061, 13, 0, 10031, 10035], true, true) := by decide +kernel

/-- "Worked staging: the five-row schedule" (R150) and "Example slot" (after R187): the boundary of 20,005, where row A has 28
units sent and row B waits. -/
theorem test_slot_of_20005 :
    (boundarySlot { live 20005 with
      air := { AirSchedule.reset with entries :=
        [{ entry (liveRow 1 30 319680) 20006 with sent := 28 }, { entry (liveRow 2 12 319848) 20033 with buffer := 1 }] }
      out := { Output.reset with cursor := some 1 } }).out.slot =
    [0xC5, 7, 0x41, 0x41, 0x41, 0x41, 0x1D, 12, 0x41] := by decide +kernel

/-- "Relay by close, and by timeout" (Lead Writer and Relay): the ROW from writer 0 at frame 40,042. -/
theorem test_row_code_completes_the_handoff :
    then? (.characterAccepted now 0 (wave 0x0D)) (holding [0x41] (handing 42 (live 40042)))
      (fun t => t.la.lead = some 1 && t.pe.buffer.getLast?.map JournalEntry.record =
        some (.leadChange (some 0) (some 1) .take 42)) = true := by decide +kernel

/-- "Failover without a taker" (Lead Writer and Relay): frame 50,250, the partner not in RUN, and frame 50,261, in RUN. -/
def quiet (frame silence : Nat) (partner : PortMode) (reported : Bool) : State :=
  working (fun w => { w with silence := true })
    (written (fun w => { w with partner := some 1, voice := .vox0 })
      { live frame with
        ports := put (put (live 0).ports 1 { Port.reset with mode := partner, divisor := some 234 }) 0
          { Port.reset with mode := .run, divisor := some 234, silence := silence }
        lastOnset := put (live 0).lastOnset 0 (some 802880)
        la := { (live 0).la with silenceReported := reported } })

theorem test_failover_without_a_taker :
    then? (.silentLead now) (quiet 50250 250 .resync false)
      (fun t => t.la.lead = some 0 && t.la.silenceReported && flagSet .writer t) = true ∧
    then? (.silentLead now) (quiet 50261 261 .run true)
      (fun t => t.la.lead = some 1 && !t.la.silenceReported) = true := by decide +kernel

/-- "The journal under pressure" (The Shared Page): the read mark at 60,002 refused, and at 60,004 accepted. -/
def scanning (step : PassStep) : State :=
  paged (fun pe => { pe with
    readMark := 1200, writeCount := 1288, op := some (.pass false step 0 0 10000000) }) (live 60002)

theorem test_read_mark_refused_and_accepted :
    then? (.headerReadComplete now (hostWords 0 0 2000)) (scanning .header)
      (fun t => t.pe.readMark = 1200) = true ∧
    then? (.headerReadComplete now (hostWords 0 0 1288)) (scanning .header)
      (fun t => t.pe.readMark = 1288 && !flagSet .journal t) = true := by decide +kernel

/-- A failed fetch is a page fault with its context (R168; "A fault during a cue", The Shared Page). -/
theorem test_failed_fetch_is_a_page_fault :
    then? (.pageFault now (.fetch 0) 0x9000)
      { live 70010 with disp := { (live 0).disp with
          ctx := put (live 0).disp.ctx 0
            (some { slot := 5, next := 0, offsets := [], fetch := .inFlight, fetchEntry := 0, fetchSince := 10000000, refetch := none }) } }
      (fun t => t.pe.fault = some { offset := 0x9000, write := false, op := .fetch, frame := 70010 } &&
        flagSet .pageFault t) = true := by decide +kernel

/-- The defaults of the settings block are those of reset, by its layout (R158, R181). -/
def defaultBlock : List Byte :=
  [0, 1, 8, 32, 2, 0, 0, 0, 0, 0, 0, 0, 0, 0, 2, 0] ++ (List.replicate 4 [0, 0, 0xFD, 0x0A, 0, 2, 0xFF, 0]).flatten ++
  (List.replicate 6 [0, 1, 3, 0]).flatten ++
  [20, 0, 250, 0, 75, 0, 3, 0, 0x80, 2, 12, 0, 250, 0, 125, 0, 8, 10, 25, 0, 50, 0, 0, 0, 200, 0, 100, 0, 0xFF] ++
  List.replicate 155 0

theorem test_default_block : defaultBlock.length = 256 ∧ parseSettings defaultBlock = Settings.default ∧
    clampedFields defaultBlock = [] := by decide +kernel

/-- An idle step, and a step of a RUN write (R174). -/
theorem test_step_takes_the_queue :
    step State.reset = .next State.reset ∧
    then? (.runSet now 1) State.reset (fun t => t.control.runState = .starting && t.pe.op = some (.settingsRead 0)) = true :=
  ⟨rfl, by decide +kernel⟩

/-! ### Witnesses: states and operands that meet the hypotheses of each statement -/

/-- A state that an event finds as it is, and of which the test holds. -/
def Meets (s : State) (test : State → Bool) : Prop := Finds now s s ∧ test s = true

/-- A state that a piece of boundary work finds as it is, and of which the test holds. -/
def MeetsPiece (s : State) (test : State → Bool) : Prop := FindsPiece now s s ∧ test s = true

theorem meets {s : State} {test : State → Bool}
    (h : s.resetLow = false ∧ s.work = Work.none ∧ s.lines = now.lines ∧ test s = true) : Meets s test := by
  refine ⟨⟨h.1, ?_⟩, h.2.2.2⟩
  rw [arrive_eq, settle_none h.2.1, ← h.2.2.1]
  rfl

theorem meetsPiece {s : State} {test : State → Bool} (h : s.resetLow = false ∧ s.lines = now.lines ∧ test s = true) :
    MeetsPiece s test := by
  refine ⟨⟨h.1, ?_⟩, h.2.2⟩
  rw [advance_eq, ← h.2.1]
  rfl

/-- The test that writer 0's line receives the character of the edges. -/
def hears (edges : List Nat) (a : State) : Bool :=
  decide ((portOf a 0).mode = .run) && decide ((portOf a 0).divisor = some 234) &&
  decide ((portOf a 0).lookFrom + thirdSample 234 (stopPosition (writerOf a 0).parity) ≤ a.clock) &&
  !bitValue edges 234 0

/-- The test that writer 0's line receives a byte. -/
def hearsByte (ch : Byte) (a : State) : Bool :=
  hears (wave ch) a && bitValue (wave ch) 234 (stopPosition (writerOf a 0).parity) &&
  parityAgrees (writerOf a 0).parity (charByte (wave ch) 234) (bitValue (wave ch) 234 9) &&
  decide (charByte (wave ch) 234 = ch)

theorem receives_of_hears {edges : List Nat} {a : State} (h : hears edges a = true) : Receives a 0 edges 234 := by
  simp only [hears, Bool.and_eq_true, decide_eq_true_eq, Bool.not_eq_true'] at h
  exact ⟨h.1.1.1, h.1.1.2, h.1.2, h.2⟩

theorem receivesByte_of_hears {ch : Byte} {a : State} (h : hearsByte ch a = true) : ReceivesByte a 0 (wave ch) 234 ch := by
  simp only [hearsByte, Bool.and_eq_true, decide_eq_true_eq] at h
  exact ⟨receives_of_hears h.1.1.1, h.1.1.2, h.1.2, h.2⟩

theorem test_witness_StepTakesTheFrontCommand :
    { live 0 with pending := [.tickStep now] }.pending = [.tickStep now] ∧ (live 0).pending = [] := ⟨rfl, rfl⟩

theorem test_witness_HardwareResetHoldsEveryBlockUntilItRises :
    { live 0 with resetLow := true }.resetLow = true ∧ (live 0).resetLow = false := ⟨rfl, rfl⟩

theorem test_witness_SoftResetKeepsThePageBaseAndTheSlot : Meets (live 0) (fun _ => softResetBit 4) :=
  meets (by decide +kernel)

theorem test_witness_ResetLowDiscardsEveryOtherCommand :
    let s := { live 0 with resetLow := true }
    s.resetLow = true ∧ s.work = Work.none ∧ (∀ m, Instr.tickStep now ≠ .hardwareReset m) ∧
      ∀ m, Instr.tickStep now ≠ .resetNRise m :=
  ⟨rfl, rfl, (fun _ h => nomatch h), fun _ h => nomatch h⟩

theorem test_witness_InterruptLineFollowsFlagsAndEnables :
    Meets { live 0 with control := { (live 0).control with attn := 8, enable := 8 } }
      (fun a => flagSet .reference a && a.control.enable.getLsbD AttnFlag.reference.bit) := meets (by decide +kernel)

/-- A part in the fault state. -/
def faulted : State :=
  paged (fun pe => { pe with fault := some { offset := 0, write := false, op := .fetch, frame := 0 } }) (live 0)

theorem test_witness_AttnWriteClearsFlagsAndEndsAFault :
    Meets (live 0) (fun _ => faultBit 4) ∧ Meets (live 0) (fun a => !faultBit 0 && a.pe.fault = none) ∧
    Meets faulted (fun a => !faultBit 0 && a.pe.fault.isSome) :=
  ⟨meets (by decide +kernel), meets (by decide +kernel), meets (by decide +kernel)⟩

theorem test_witness_WindowWritesAreTakenOrDiscarded :
    Meets State.reset (fun a => a.control.runState = .halted) ∧ Meets (live 0) (fun a => a.control.runState ≠ .halted) ∧
    ((0x1C : Nat) ∉ [0x00, 0x04, 0x08, 0x0C, 0x10, 0x14, 0x18] ∧ (0x02 : Nat) ∉ [0x00, 0x04, 0x08, 0x0C, 0x10, 0x14, 0x18]) :=
  ⟨meets (by decide +kernel), meets (by decide +kernel), by decide⟩

theorem test_witness_RunSetInHaltedBeginsTheSettingsRead :
    Meets State.reset (fun a => runBit 1 && !softResetBit 1 && a.control.runState = .halted && a.pe.fault = none) ∧
    Meets (inState .halted faulted) (fun a => runBit 3 && !softResetBit 3 && a.control.runState = .halted && a.pe.fault.isSome) :=
  ⟨meets (by decide +kernel), meets (by decide +kernel)⟩

theorem test_witness_ControlWriteHoldsRunAndSetsFreeze :
    Meets (inState .starting (live 0)) (fun a => !softResetBit 0 && a.control.runState = .starting) ∧
    Meets (inState .halting (live 0)) (fun a => !softResetBit 3 && a.control.runState = .halting) ∧
    Meets (live 0) (fun a => !softResetBit 3 && a.control.runState = .running && runBit 3) ∧
    Meets State.reset (fun a => !softResetBit 2 && a.control.runState = .halted && !runBit 2) :=
  ⟨meets (by decide +kernel), meets (by decide +kernel), meets (by decide +kernel), meets (by decide +kernel)⟩

/-- A cue of level 3, in a state. -/
def cueIn (st : CueState) : Cue :=
  { state := st, level := 3, kind := .atFrame, startFrame := 110, line := 0, firstRow := 0, rowCount := 3, waitLimit := 5
    clearOnStart := false, dueFrame := some 100, start := some 100, shown := 0, dropped := 0, reason := .none }

/-- A part with a cue in slot 5, another armed in slot 6, and slot 5's context with a fetch. -/
def withCue (st : CueState) (fetch : FetchState) (s : State) : State :=
  { s with disp := { s.disp with
      cues := put (put s.disp.cues 5 (some (cueIn st))) 6 (some (cueIn .armed))
      ctx := put s.disp.ctx 0
        (some { slot := 5, next := 0, offsets := [], fetch := fetch, fetchEntry := 0, fetchSince := 10000000, refetch := none }) } }

theorem test_witness_RunClearInRunningBeginsHalting :
    Meets (withCue .running .inFlight (live 0)) (fun a => !runBit 0 && !softResetBit 0 && a.control.runState = .running &&
      (cueOf a 5).map Cue.state = some .running && (cueOf a 6).map Cue.state = some .armed &&
      (ctxOf a 0).map Context.fetch = some .inFlight && a.pe.fault = none) ∧
    Meets (withCue .suspended .none faulted) (fun a => !runBit 2 && !softResetBit 2 && a.control.runState = .running &&
      (cueOf a 5).map Cue.state = some .suspended && (ctxOf a 0).map Context.fetch = some .none && a.pe.fault.isSome) :=
  ⟨meets (by decide +kernel), meets (by decide +kernel)⟩

theorem test_witness_ThresholdsAndTicks :
    (live 0).settings.rateCode = 0 ∧ (live 0).settings.divider = 1 ∧
    (tuned (fun set => { set with rateCode := 3, divider := 2 }) (live 0)).settings.rateCode = 3 ∧
    (live 0).tb.heldTick ≤ 15 := by decide +kernel

theorem test_witness_FirstPulseLocksTheTimebase :
    Meets (timed (fun tb => { tb with mode := .unlocked, load := some 7 }) (live 0)) (fun a => a.tb.mode = .unlocked) ∧
    Meets (tuned (fun set => { set with divider := 2 }) State.reset) (fun a => a.tb.mode = .unlocked && a.settings.divider = 2) :=
  ⟨meets (by decide +kernel), meets (by decide +kernel)⟩

/-- A LOCKED part, the last accepted pulse and the frame origin some counts ago, with a divider and a phase. -/
def locked (sincePulse sinceOrigin divider : Nat) (phase : Bool) : State :=
  tuned (fun set => { set with divider := divider }) (timed (fun tb => { tb with
    mode := .locked, lastPulse := some (10000000 - sincePulse), origin := some (10000000 - sinceOrigin), phase := phase })
    (live 0))

theorem test_witness_LockedPulseIsGlitchFieldOrBoundary :
    Meets (locked 809999 809999 1 false) (fun a => a.tb.mode = .locked && a.tb.lastPulse = some 9190001 &&
      a.clock - 9190001 < glitchLimit a) ∧
    Meets (locked 405000 809999 2 true) (fun a => glitchLimit a ≤ a.clock - 9595000 && a.settings.divider = 2 && a.tb.phase &&
      a.clock - 9190001 < fieldLimit a) ∧
    Meets (locked 810000 810000 1 false) (fun a => glitchLimit a ≤ a.clock - 9190000 && a.settings.divider ≠ 2) ∧
    Meets (locked 405000 809999 2 false) (fun a => glitchLimit a ≤ a.clock - 9595000 && !a.tb.phase) ∧
    Meets (locked 405000 810000 2 true) (fun a => glitchLimit a ≤ a.clock - 9595000 && fieldLimit a ≤ a.clock - 9190000) :=
  ⟨meets (by decide +kernel), meets (by decide +kernel), meets (by decide +kernel), meets (by decide +kernel),
    meets (by decide +kernel)⟩

/-- A FREEWHEEL part whose frame began some counts ago. -/
def wheeling (sinceOrigin : Nat) : State :=
  timed (fun tb => { tb with origin := some (10000000 - sinceOrigin) }) (live 0)

theorem test_witness_FreewheelPulseSnapsOrRealigns :
    Meets (wheeling 540000) (fun a => a.tb.mode = .freewheel && a.tb.origin = some 9460000 &&
      framePeriod a / 2 ≤ a.clock - 9460000) ∧
    Meets (wheeling 539999) (fun a => a.tb.mode = .freewheel && a.tb.origin = some 9460001 &&
      a.clock - 9460001 < framePeriod a / 2) :=
  ⟨meets (by decide +kernel), meets (by decide +kernel)⟩

theorem test_witness_LossExpiryFreewheels :
    Meets (locked 1620000 1620000 1 false) (fun a => a.tb.mode = .locked && a.tb.origin = some 8380000 &&
      a.clock = 8380000 + lossCounts a) := meets (by decide +kernel)

/-- A part at a freewheel expiry in a run state, with an owed command, an entry of a show frame, and its page engine changed. -/
def slotted (r : RunState) (owed : Owed) (showAt : Nat) (f : PageEngine → PageEngine) : State :=
  let s := paged f (inState r (wheeling 1080000))
  { s with out := { Output.reset with owed := owed }, air := { AirSchedule.reset with entries := [entry (liveRow 1 3 0) showAt] } }

/-- The hypotheses common to the slots of a boundary, which begins frame 1. -/
def expires (a : State) : Bool := a.tb.mode = .freewheel && a.tb.origin = some 8920000 && 8920000 + framePeriod a ≤ a.clock

/-- A fault context, or a halting flush in flight. -/
def fault0 (pe : PageEngine) : PageEngine := { pe with fault := some { offset := 0, write := false, op := .flush, frame := 0 } }

@[inherit_doc fault0] def flush0 (pe : PageEngine) : PageEngine := { pe with op := some (.pass true .header 0 0 10000000) }

theorem test_witness_slots_of_a_boundary :
    Meets (slotted .running .startClear 1 id) (fun a => expires a && a.control.runState = .running && a.out.owed = .startClear) ∧
    Meets (slotted .running .none 2 id) (fun a => expires a && a.out.owed = .none && a.air.clear = none &&
      a.air.entries.map Entry.showAt = [a.tb.frame + 2]) ∧
    Meets (slotted .running .none 1 id) (fun a => expires a && a.out.owed = .none &&
      a.air.entries.map Entry.showAt = [a.tb.frame + 1]) ∧
    Meets (slotted .halting .none 1 id) (fun a => expires a && a.control.runState = .halting && a.out.owed ≠ .haltClear) ∧
    Meets (slotted .halting .haltClear 1 flush0) (fun a => expires a && a.out.owed = .haltClear &&
      a.pe.op = some (.pass true .header 0 0 10000000)) ∧
    Meets (slotted .halting .haltClear 1 id) (fun a => expires a && a.pe.op = none && a.control.run && a.pe.fault = none) ∧
    Meets (slotted .halting .haltClear 1 fault0) (fun a => expires a && a.pe.op = none && a.control.run && a.pe.fault.isSome) :=
  ⟨meets (by decide +kernel), meets (by decide +kernel), meets (by decide +kernel), meets (by decide +kernel),
    meets (by decide +kernel), meets (by decide +kernel), meets (by decide +kernel)⟩

/-- The slot that completes the halt: HALTED with RUN 0, STARTING with RUN 1 (R175). -/
theorem test_halting_clear_completes_the_halt :
    then? (.freewheelExpiry now) (slotted .halting .haltClear 1 id) (fun t => t.control.runState = .starting) = true ∧
    then? (.freewheelExpiry now) (slotted .halting .haltClear 1 flush0) (fun t => t.control.runState = .halting) = true := by
  decide +kernel

theorem test_witness_FreewheelExpiryKeepsExactSpacing :
    Meets (wheeling 1080000) (fun a => a.tb.mode = .freewheel && a.tb.origin = some 8920000 &&
      8920000 + framePeriod a ≤ a.clock) := meets (by decide +kernel)

/-- A part whose line i reads low, has the filtered level high where high is set, some candidates and some steps. -/
def sampling (i : LineNo) (period filter steps candidates : Nat) (high : Bool) : State :=
  let c : Capture :=
    { filtered := high, steps := steps, candidates := candidates
      candStamp := if candidates = 0 then none else some 3, captures := 0 }
  tuned (fun set => { set with lines := put set.lines i { edge := .falling, period := period, filter := filter } })
    { timed (fun tb => { tb with heldTick := 4, stepped := some 3 }) (live 0) with capture := put (live 0).capture i c }

theorem test_witness_TickStepSamplesEveryLine :
    Meets (sampling 0 4 3 2 1 true) (fun a => a.tb.mode ≠ .unlocked && a.tb.stepped = some 3 && 3 < subTick a &&
      (get a.capture 0).steps + 1 < (get a.settings.lines 0).period) ∧
    Meets (sampling 0 4 3 3 1 false) (fun a => (get a.settings.lines 0).period ≤ (get a.capture 0).steps + 1 &&
      get a.lines 0 = (get a.capture 0).filtered) ∧
    Meets (sampling 0 1 2 0 0 true) (fun a => (get a.capture 0).candidates = 0 && get a.lines 0 ≠ (get a.capture 0).filtered &&
      (get a.capture 0).candidates + 1 < (get a.settings.lines 0).filter) ∧
    Meets (sampling 0 1 3 0 1 true) (fun a => 0 < (get a.capture 0).candidates && (get a.capture 0).candStamp.isSome &&
      (get a.capture 0).candidates + 1 < (get a.settings.lines 0).filter) ∧
    Meets (sampling 0 1 2 0 1 true) (fun a => (get a.settings.lines 0).filter ≤ (get a.capture 0).candidates + 1 &&
      get a.lines 0 ≠ (get a.capture 0).filtered) :=
  ⟨meets (by decide +kernel), meets (by decide +kernel), meets (by decide +kernel), meets (by decide +kernel),
    meets (by decide +kernel)⟩

/-- The same part with no tick stepped yet in its frame. -/
def unstepped (s : State) : State := timed (fun tb => { tb with stepped := none }) s

/-- The hypotheses of CapturesBecomeOnsetsAndTriggers on a line. -/
def accepts (i : LineNo) (a : State) : Bool :=
  a.tb.mode ≠ .unlocked && (a.tb.stepped = none || a.tb.stepped.any (fun n => n < subTick a)) && isRunning a &&
  (get a.settings.lines i).period ≤ (get a.capture i).steps + 1 && get a.lines i ≠ (get a.capture i).filtered &&
  (get a.settings.lines i).filter ≤ (get a.capture i).candidates + 1 && edgeSelects (get a.settings.lines i).edge (get a.lines i)

/-- A part whose line CUE0 accepts a selected change, with an armed cue of level 3 in its wait list, an owner stack, the live
level, and a cue of a level in a state in slot 5 and context 0, or that context free. -/
def firing (stack : List Owner) (liveLevel : Nat) (below : Option (CueState × Nat)) : State :=
  let s := tuned (fun set => { set with liveLevel := liveLevel }) (unstepped (sampling 2 1 2 0 1 true))
  { s with disp := { s.disp with
      stack := stack
      waits := put s.disp.waits 0 [6]
      cues := put (put s.disp.cues 6 (some (cueIn .armed))) 5 (below.map (fun b => { cueIn b.1 with level := b.2 }))
      ctx := put s.disp.ctx 0 (below.map (fun _ =>
        { slot := 5, next := 1, offsets := [4], fetch := .none, fetchEntry := 0, fetchSince := 0, refetch := none })) } }

/-- The hypotheses of CapturesBecomeOnsetsAndTriggers on a trigger line whose wait list holds slot 6 alone. -/
def fires (a : State) : Bool :=
  accepts 2 a && (List.finRange 6).all (fun x => x == 2 || get a.lines x == (get a.capture x).filtered) &&
  get a.disp.waits 0 = [6] && cueOf a 6 = some (cueIn .armed) && a.disp.due = []

/-- The hypotheses under which the accepted cue's first row is fetched. -/
def fetches (a : State) : Bool :=
  isRunning a && a.pe.fault = none && 0 < (cueIn .armed).rowCount && a.air.entries.length < 24 &&
  !Machine.later (frameOf 3 + BitVec.ofNat 28 a.settings.delay) (a.tb.frame + BitVec.ofNat 28 a.settings.feedWindow)

theorem test_witness_CapturesBecomeOnsetsAndTriggers :
    Meets (unstepped (sampling 0 1 1 0 0 true)) (fun a => accepts 0 a && voiceIndex 0 = some 0) ∧
    Meets (sampling 0 1 2 0 1 true) (fun a => accepts 0 a && a.tb.stepped = some 3 && voiceIndex 0 = some 0) ∧
    Meets { firing [] 2 none with tb := (sampling 2 1 2 0 1 true).tb } (fun a => fires a && a.tb.stepped = some 3) ∧
    Meets (unstepped (sampling 2 1 2 0 1 true)) (fun a => accepts 2 a && voiceIndex 2 = none && cueIndex 2 = some 0 &&
      get a.disp.waits 0 = []) ∧
    Meets (firing [] 2 none) (fun a => fires a && fetches a && ctxOf a 0 = none && a.pe.buffer.length + 2 ≤ 32) ∧
    Meets (firing [] 2 (some (.running, 3))) (fun a => fires a && ctxOf a 1 = none && (ctxOf a 0).isSome) ∧
    Meets (firing [.live] 2 none) (fun a => fires a && topOwner a = some .live && a.settings.liveLevel < 3) ∧
    Meets (firing [.live] 3 none) (fun a => fires a && topOwner a = some .live && 3 ≤ a.settings.liveLevel) ∧
    Meets (firing [.live, .ctx 0] 2 (some (.running, 2))) (fun a => fires a && topOwner a = some (.ctx 0) && ctxOf a 1 = none &&
      (cueOf a 5).any (fun c => c.state = .running && c.level < 3)) ∧
    Meets (firing [.live, .ctx 0] 2 (some (.running, 3))) (fun a => fires a && topOwner a = some (.ctx 0) &&
      (cueOf a 5).any (fun c => 3 ≤ c.level)) :=
  ⟨meets (by decide +kernel), meets (by decide +kernel), meets (by decide +kernel),
    meets (by decide +kernel), meets (by decide +kernel), meets (by decide +kernel),
    meets (by decide +kernel), meets (by decide +kernel), meets (by decide +kernel), meets (by decide +kernel)⟩

theorem test_witness_FramesCompareAcrossTheWrap :
    (2 ^ 28 - (0 : Frame).toNat + (134217728 : Frame).toNat) % 2 ^ 28 = 2 ^ 27 ∧
    2 ^ 31 ≤ (2 ^ 32 - (0 : Stamp).toNat + (2147483648 : Stamp).toNat) % 2 ^ 32 ∧
    (2 ^ 32 - (0 : Stamp).toNat + (2147483647 : Stamp).toNat) % 2 ^ 32 < 2 ^ 31 := by decide

/-- The part with writer 0 under odd parity. -/
def odd : State := written (fun w => { w with parity := .odd }) (live 0)

theorem test_witness_ParityErrorDropsTheCharacter :
    Meets odd (fun a => hears (waveParity 0x41 false true) a && bitValue (waveParity 0x41 false true) 234 10 &&
      !parityAgrees .odd (charByte (waveParity 0x41 false true) 234) (bitValue (waveParity 0x41 false true) 234 9)) ∧
    Meets odd (fun a => hears (waveParity 0x41 false false) a && !bitValue (waveParity 0x41 false false) 234 10 &&
      !parityAgrees .odd (charByte (waveParity 0x41 false false) 234) (bitValue (waveParity 0x41 false false) 234 9)) :=
  ⟨meets (by decide +kernel), meets (by decide +kernel)⟩

/-- The part with writer 0 automatic and a count of framing errors. -/
def framed (count : Nat) : State :=
  ported (fun p => { p with framing := count }) (written (fun w => { w with auto := true }) (live 0))

theorem test_witness_FramingErrorLeavesRun :
    Meets (live 0) (fun a => hears (wave 0x41 false) a && !bitValue (wave 0x41 false) 234 9 && !(writerOf a 0).auto) ∧
    Meets (framed 2) (fun a => hears (wave 0x41 false) a && !bitValue (wave 0x41 false) 234 9 && (portOf a 0).framing + 1 < 4) ∧
    Meets (framed 3) (fun a => hears (wave 0x41 false) a && !bitValue (wave 0x41 false) 234 9 && (writerOf a 0).auto &&
      4 ≤ (portOf a 0).framing + 1) :=
  ⟨meets (by decide +kernel), meets (by decide +kernel), meets (by decide +kernel)⟩

theorem test_witness_BytesAreClassifiedAndIgnoredOnesCounted :
    Meets (live 0) (fun a => hearsByte 0x1F a && classify 0x1F = .ignored) ∧
    Meets (live 0) (fun a => hearsByte 0x7F a && classify 0x7F = .ignored) :=
  ⟨meets (by decide +kernel), meets (by decide +kernel)⟩

/-- The part with a row width, and a text in writer 0's buffer. -/
def filled (width : Nat) (text : List Byte) : State := tuned (fun set => { set with rowWidth := width }) (holding text (live 0))

/-- The part with a speaker mark pending for writer 0. -/
def marked : State := { live 0 with builders := put (live 0).builders 0 { Builder.reset with markPending := true } }

theorem test_witness_TextIsPlacedInTheBuffer :
    Meets (live 0) (fun a => hearsByte 0x20 a && classify 0x20 = .text && (builderOf a 0).chars = [] &&
      (builderOf a 0).chars.length < a.settings.rowWidth) ∧
    Meets (live 0) (fun a => hearsByte 0x80 a && classify 0x80 = .text && !(builderOf a 0).markPending &&
      !(portOf a 0).pauseFlag) ∧
    Meets marked (fun a => hearsByte 0x7E a && classify 0x7E = .text && (builderOf a 0).markPending) ∧
    Meets (filled 2 [0x41]) (fun a => hearsByte 0x41 a && (builderOf a 0).chars ≠ [] &&
      (builderOf a 0).chars.length < a.settings.rowWidth) :=
  ⟨meets (by decide +kernel), meets (by decide +kernel), meets (by decide +kernel), meets (by decide +kernel)⟩

/-- The part with the display owned by a cue, and some rows in the live queue. -/
def queued (rows : Nat) (s : State) : State :=
  { s with disp := { s.disp with stack := [.live, .ctx 0] }, queue := (List.range rows).map (fun n => liveRow n 3 0) }

/-- The same part with writer 0's builder changed. -/
def built (f : Builder → Builder) (s : State) : State := { s with builders := change s.builders 0 f }

/-- The test that the schedule takes a row of writer 0 at once. -/
def takes (a : State) : Bool :=
  decide (roleOf a 0 = .lead) && isRunning a && decide (topOwner a = some .live) && decide (a.queue = []) &&
  decide (a.air.entries.length < Config.scheduleEntries)

theorem liveTakes_of {a : State} (h : takes a = true) : LiveTakes a 0 := by
  simp only [takes, Bool.and_eq_true, decide_eq_true_eq] at h
  exact ⟨h.1.1.1.1, h.1.1.1.2, h.1.1.2, h.1.2, h.2⟩

/-- The hypotheses common to the clauses of WrapCarriesTheLastWord, on a buffer and a character. -/
def full (text : List Byte) (ch : Byte) (a : State) : Bool :=
  hearsByte ch a && classify ch = .text && a.settings.rowWidth = text.length && a.settings.rowWidth ≤ (builderOf a 0).chars.length &&
  (builderOf a 0).chars.map TextChar.ch = text && text ≠ []

theorem test_witness_WrapCarriesTheLastWord :
    Meets (filled 3 [0x41, 0x20, 0x42]) (fun a => full ([0x41] ++ 0x20 :: [0x42]) 0x43 a && !(builderOf a 0).markHeld &&
      a.la.handoff = none && roleOf a 0 = .lead && (builderOf a 0).heldId = none && !(portOf a 0).pauseFlag) ∧
    Meets (built (fun b => { b with markHeld := true }) (filled 5 [0x3E, 0x3E, 0x20, 0x41, 0x20])) (fun a =>
      full ([0x3E, 0x3E, 0x20, 0x41] ++ 0x20 :: []) 0x42 a && (builderOf a 0).markHeld && !(builderOf a 0).markPending) ∧
    Meets (built (fun b => { b with markPending := true }) (filled 2 [0x41, 0x20])) (fun a => full ([0x41] ++ 0x20 :: []) 0x42 a &&
      (builderOf a 0).markPending) ∧
    Meets (built (fun b => { b with markHeld := true }) (filled 4 [0x3E, 0x3E, 0x20, 0x41])) (fun a =>
      full [0x3E, 0x3E, 0x20, 0x41] 0x42 a && (builderOf a 0).markHeld) ∧
    Meets (filled 2 [0x41, 0x20]) (full [0x41, 0x20] 0x20) ∧
    Meets (handing 3 (filled 2 [0x41, 0x42])) (fun a => full [0x41, 0x42] 0x43 a && roleOf a 0 = .lead && a.la.lead = some 0 &&
      a.la.handoff = some { taker := 1, waited := 3 }) ∧
    Meets (filled 3 [0x41, 0x20, 0x42]) (fun a => full [0x41, 0x20, 0x42] 0x43 a && takes a && a.la.handoff = none &&
      !(portOf a 0).pauseFlag && (get a.est 0).estimate = some 1200) :=
  ⟨meets (by decide +kernel), meets (by decide +kernel), meets (by decide +kernel), meets (by decide +kernel),
    meets (by decide +kernel), meets (by decide +kernel), meets (by decide +kernel)⟩

theorem test_witness_RowCodeClosesTheBuffer :
    Meets (live 0) (fun a => hearsByte 0x0D a && hearsByte 0x1E a && (builderOf a 0).chars = []) ∧
    Meets (holding [0x41] { live 0 with la := Arbiter.reset }) (fun a => hearsByte 0x0D a && hearsByte 0x1E a &&
      (builderOf a 0).chars ≠ [] && a.la.handoff = none && roleOf a 0 ≠ .lead) ∧
    Meets (queued 7 (holding [0x41, 0x20] (live 0))) (fun a => hearsByte 0x0D a && hearsByte 0x1E a && (builderOf a 0).chars ≠ [] &&
      a.la.handoff = none && roleOf a 0 = .lead && topOwner a ≠ some .live && a.queue.length < 8) ∧
    Meets (queued 8 (holding [0x41] (live 0))) (fun a => hearsByte 0x0D a && hearsByte 0x1E a && (builderOf a 0).chars ≠ [] &&
      a.la.handoff = none && roleOf a 0 = .lead && topOwner a ≠ some .live && a.queue.length = 8 &&
      a.queue.head? = some (liveRow 0 3 0)) :=
  ⟨meets (by decide +kernel), meets (by decide +kernel), meets (by decide +kernel), meets (by decide +kernel)⟩

theorem test_witness_RubRemovesTheLastCharacter :
    Meets (holding [0x41] (live 0)) (fun a => hearsByte 0x08 a && (builderOf a 0).chars = [] ++ [{ ch := 0x41, stamp := 5 }]) ∧
    Meets (holding [0x3E, 0x3E, 0x20] (live 0)) (fun a => hearsByte 0x08 a &&
      (builderOf a 0).chars = [{ ch := 0x3E, stamp := 5 }, { ch := 0x3E, stamp := 5 }] ++ [{ ch := 0x20, stamp := 5 }]) ∧
    Meets (holding [0x41, 0x20, 0x42, 0x20] (live 0)) (fun a => hearsByte 0x17 a && (builderOf a 0).chars =
      [{ ch := 0x41, stamp := 5 }, { ch := 0x20, stamp := 5 }] ++ [{ ch := 0x42, stamp := 5 }] ++ [{ ch := 0x20, stamp := 5 }]) ∧
    Meets (holding [0x20] (live 0)) (fun a => hearsByte 0x17 a &&
      (builderOf a 0).chars = [] ++ [] ++ [{ ch := 0x20, stamp := 5 }]) :=
  ⟨meets (by decide +kernel), meets (by decide +kernel), meets (by decide +kernel), meets (by decide +kernel)⟩

/-- The part with the live stream on top and some entries in the schedule, and a mirror. -/
def scheduled (entries : List Entry) (mirror : List MirrorRow) (s : State) : State :=
  { s with air := { AirSchedule.reset with entries := entries }, out := { s.out with mirror := mirror } }

/-- The hypotheses common to the clauses of RubReopensOrIsRefused for the lead. -/
def rubs (a : State) (code : Byte := 0x08) : Bool := hearsByte code a && (builderOf a 0).chars = [] && roleOf a 0 = .lead

/-- A row of the mirror: a caption of writer A. -/
def shownRow : MirrorRow :=
  { row := liveRow 1 3 0, showAt := 50, hold := 9, buffer := 1, flags := { late := false, catchup := false, clamped := false }
    past := false }

theorem test_witness_RubReopensOrIsRefused :
    Meets { live 0 with la := Arbiter.reset } (fun a => hearsByte 0x08 a && (builderOf a 0).chars = [] && roleOf a 0 ≠ .lead) ∧
    Meets (queued 1 (live 0)) (fun a => rubs a && a.queue = [] ++ [liveRow 0 3 0] &&
      (liveRow 0 3 0).text = [0x41, 0x41] ++ [0x41]) ∧
    Meets { queued 0 (live 0) with queue := [{ liveRow 0 3 0 with source := .live 1 0 .wrap false }] } (fun a => rubs a &&
      a.queue.map Row.source = [.live 1 0 .wrap false]) ∧
    Meets (scheduled [entry { liveRow 0 3 0 with source := .live 1 0 .wrap false } 50] [] (live 0)) (fun a => rubs a &&
      a.queue = [] && a.air.entries.map (fun e => e.row.source) = [.live 1 0 .wrap false]) ∧
    Meets (scheduled [{ entry (liveRow 0 3 0) 50 with sent := 1 }] [] (live 0)) (fun a => rubs a && a.queue = [] &&
      a.air.entries = [] ++ [{ entry (liveRow 0 3 0) 50 with sent := 1 }]) ∧
    Meets (scheduled [entry (liveRow 1 3 0) 50, entry (liveRow 2 3 0) 60] [] (live 0)) (fun a => rubs a && a.queue = [] &&
      topOwner a = some .live && a.air.entries = [entry (liveRow 1 3 0) 50] ++ [entry (liveRow 2 3 0) 60] &&
      (liveRow 2 3 0).text = [0x41, 0x41] ++ [0x41]) ∧
    Meets (scheduled [entry (liveRow 2 3 0) 60] [shownRow] (live 55)) (fun a => rubs a && a.queue = [] &&
      topOwner a = some .live && a.air.entries = [] ++ [entry (liveRow 2 3 0) 60] && a.out.mirror = [shownRow] &&
      a.settings.linger ≠ 0) ∧
    Meets (live 0) (fun a => rubs a && rubs a 0x17 && a.queue = [] && a.air.entries = [] && topOwner a = some .live) ∧
    Meets (queued 0 (live 0)) (fun a => rubs a && a.queue = [] && a.air.entries = [] && topOwner a ≠ some .live) :=
  ⟨meets (by decide +kernel), meets (by decide +kernel), meets (by decide +kernel), meets (by decide +kernel),
    meets (by decide +kernel), meets (by decide +kernel), meets (by decide +kernel), meets (by decide +kernel),
    meets (by decide +kernel)⟩

/-- RUBWORD leaves "A " of "A BC", and either correction leaves nothing of a row of one character. -/
theorem test_witness_CorrectionLeaves :
    CorrectionLeaves true [0x41, 0x20, 0x42, 0x43] [0x41, 0x20] ∧ CorrectionLeaves false [0x41] [] ∧
    CorrectionLeaves true [0x41] [] :=
  ⟨⟨nofun, fun _ => ⟨[0x42, 0x43], [], rfl, by decide, by decide, by simp, nofun⟩⟩, ⟨fun _ => ⟨0x41, rfl⟩, nofun⟩,
    ⟨nofun, fun _ => ⟨[0x41], [], rfl, by decide, by decide, nofun, nofun⟩⟩⟩

theorem test_witness_reopened_by_RUBWORD :
    Meets { queued 0 (live 0) with queue := [{ liveRow 0 3 0 with text := [0x41, 0x20, 0x42, 0x43] }] } (fun a => rubs a 0x17 &&
      a.queue = [] ++ [{ liveRow 0 3 0 with text := [0x41, 0x20, 0x42, 0x43] }]) ∧
    Meets (queued 1 (live 0)) (fun a => rubs a 0x17 && a.queue = [] ++ [liveRow 0 3 0]) ∧
    Meets (scheduled [entry (liveRow 2 1 0) 60] [] (live 0)) (fun a => rubs a 0x17 && rubs a && a.queue = [] &&
      topOwner a = some .live && a.air.entries = [] ++ [entry (liveRow 2 1 0) 60]) ∧
    Meets (scheduled [entry (liveRow 2 1 0) 60] [] (queued 0 (live 0))) (fun a => rubs a 0x17 && a.queue = [] &&
      topOwner a ≠ some .live && a.air.entries = [] ++ [entry (liveRow 2 1 0) 60]) ∧
    Meets (scheduled [entry { liveRow 2 1 0 with source := .cue 5 0 100 0 none true false } 60] [] (live 0)) (fun a =>
      rubs a 0x17 && a.queue = [] && a.air.entries.map (fun e => e.row.source) = [.cue 5 0 100 0 none true false]) ∧
    then? (.characterAccepted now 0 (wave 0x17))
      { queued 0 (live 0) with queue := [{ liveRow 7 3 9 with text := [0x41, 0x20, 0x42, 0x43] }] }
      (fun t => t.queue = [] && (builderOf t 0).chars = [⟨0x41, 9⟩, ⟨0x20, 9⟩] && (builderOf t 0).heldId = some 7) = true :=
  ⟨meets (by decide +kernel), meets (by decide +kernel), meets (by decide +kernel), meets (by decide +kernel),
    meets (by decide +kernel), by decide +kernel⟩

/-- The part with writer 1 as LEAD, and writer 0 in the role given. -/
def led (role : Role) (handoff : Option Handoff) : State :=
  { live 0 with la := { lead := some 1, roles := put (put (Vector.replicate 4 .standby) 1 .lead) 0 role, handoff := handoff
                        silenceReported := false } }

theorem test_witness_TakeAndGiveWithoutASwitch :
    Meets { live 0 with la := Arbiter.reset, disp := State.reset.disp } (fun a => hearsByte 0x11 a && a.la.lead = none &&
      a.disp.stack = [] && a.disp.due = []) ∧
    Meets (led .standby none) (fun a => hearsByte 0x11 a && a.la.lead = some 1 && a.la.handoff = none) ∧
    Meets (led .standby (some { taker := 2, waited := 3 })) (fun a => hearsByte 0x11 a && a.la.handoff.map Handoff.taker = some 2) ∧
    Meets (led .taking (some { taker := 0, waited := 3 })) (fun a => hearsByte 0x11 a && a.la.handoff.map Handoff.taker = some 0) ∧
    Meets (live 0) (fun a => hearsByte 0x12 a && a.la.lead = some 0 && a.la.handoff = none) ∧
    Meets (led .standby none) (fun a => hearsByte 0x12 a && a.la.lead = some 1) :=
  ⟨meets (by decide +kernel), meets (by decide +kernel), meets (by decide +kernel), meets (by decide +kernel),
    meets (by decide +kernel), meets (by decide +kernel)⟩

theorem test_witness_GiveAndRowCodeCompleteAHandoff :
    Meets (handing 3 (live 0)) (fun a => hearsByte 0x12 a && a.la.lead = some 0 &&
      a.la.handoff = some { taker := 1, waited := 3 }) ∧
    Meets (handing 3 (holding [0x41] (live 0))) (fun a => hearsByte 0x0D a && a.la.lead = some 0 && roleOf a 0 = .lead &&
      a.la.handoff = some { taker := 1, waited := 3 } && (builderOf a 0).chars ≠ []) ∧
    Meets (queued 7 (handing 3 (holding [0x41] (live 0)))) (fun a => hearsByte 0x0D a && a.la.lead = some 0 &&
      roleOf a 0 = .lead && a.la.handoff = some { taker := 1, waited := 3 } && (builderOf a 0).chars ≠ [] &&
      topOwner a ≠ some .live && a.queue.length < 8) :=
  ⟨meets (by decide +kernel), meets (by decide +kernel), meets (by decide +kernel)⟩

/-- The hypotheses of ResumptionGivesALatencySample on a sample x, from the state resuming. -/
def samples (x : Nat) (a : State) : Bool :=
  hearsByte 0x41 a && (portOf a 0).pauseFlag && (writerOf a 0).voice = .vox0 && (get a.est 0).estimate.isSome &&
  (get a.onsets 0).map Onset.stamp = [BitVec.ofNat 32 (16000 - x)] &&
  tickDiff (stampNow a) (BitVec.ofNat 32 (16000 - x)) = Int.ofNat x &&
  16 * a.settings.lmin ≤ x && x ≤ 16 * max a.settings.lmin a.settings.lmax

/-- The part in which writer 0, mapped to VOX0, resumes. -/
def sampled (x : Nat) (estimate rejects : Nat) : State :=
  written (fun w => { w with voice := .vox0 }) (resuming x { estimate := some estimate, rejects := rejects })

theorem test_witness_ResumptionGivesALatencySample :
    Meets { sampled 320 960 0 with onsets := Vector.replicate 2 [] } (fun a => hearsByte 0x41 a && (portOf a 0).pauseFlag &&
      get a.onsets 0 = []) ∧
    Meets (sampled 320 960 0) (fun a => samples 320 a && (960 - 320) + (320 - 960) ≤ a.settings.gate) ∧
    Meets (sampled 320 961 1) (fun a => samples 320 a && a.settings.gate ≠ 0 && a.settings.gate < (961 - 320) + (320 - 961) &&
      (get a.est 0).rejects + 1 < 3) ∧
    Meets (sampled 4000 3359 2) (fun a => samples 4000 a && a.settings.gate ≠ 0 &&
      a.settings.gate < (3359 - 4000) + (4000 - 3359) && 3 ≤ (get a.est 0).rejects + 1) :=
  ⟨meets (by decide +kernel), meets (by decide +kernel), meets (by decide +kernel), meets (by decide +kernel)⟩

/-- The part with writer 0's port in a mode since some counts ago, the start edge some counts ago. -/
def port (mode : PortMode) (phase : AcqPhase) (since start : Nat) : State :=
  ported (fun p => { p with
    mode := mode, phase := some phase, since := 10000000 - since, startEdge := some (10000000 - start), measured := some 234 })
    (written (fun w => { w with auto := true }) (live 0))

theorem test_witness_BreakThenStartEdgeBeginTheMeasurement :
    Meets (port .acquire .seekBreak 540000 0) (fun a => (portOf a 0).mode = .acquire && (portOf a 0).phase = some .seekBreak &&
      540000 ≤ a.clock - (portOf a 0).since) ∧
    Meets (port .acquire .breakSeen 0 0) (fun a => (portOf a 0).mode = .acquire && (portOf a 0).phase = some .breakSeen) :=
  ⟨meets (by decide +kernel), meets (by decide +kernel)⟩

/-- The test that the first seven bits of a span are those of the alignment character. -/
def aligned (rise span : Nat) (a : State) : Bool :=
  (List.range 7).all (fun i => bitValue [rise, span] ((2 * span + 7) / 14) i == alignmentBit (writerOf a 0).parity i)

/-- The hypotheses common to the clauses of SpanGivesTheDivisorOrAnAlignmentError. -/
def measuring (span : Nat) (a : State) : Bool :=
  (portOf a 0).mode = .acquire && (portOf a 0).phase = some .measure && (portOf a 0).startEdge = some (10000000 - span)

theorem test_witness_SpanGivesTheDivisorOrAnAlignmentError :
    Meets (port .acquire .measure 0 1634) (measuring 1634) ∧ Meets (port .acquire .measure 0 157504) (measuring 157504) ∧
    Meets (port .acquire .measure 0 1635) (fun a => measuring 1635 a && aligned 702 1635 a) ∧
    Meets (port .acquire .measure 0 157503) (fun a => measuring 157503 a && aligned 67501 157503 a) ∧
    Meets (port .acquire .measure 0 1635) (fun a => measuring 1635 a && !aligned 234 1635 a) :=
  ⟨meets (by decide +kernel), meets (by decide +kernel), meets (by decide +kernel), meets (by decide +kernel),
    meets (by decide +kernel)⟩

/-- The hypotheses common to the clauses of AlignmentCharacterIsAcceptedOrFails, with the edges of the bits 0 to 6 held. -/
def checking (start : Nat) : State :=
  ported (fun p => { p with edges := [702, 1638] }) (port .acquire .check 0 start)

theorem test_witness_AlignmentCharacterIsAcceptedOrFails :
    Meets (checking 2252) (fun a => thirdSample 234 9 ≤ a.clock - 9997748 && (portOf a 0).startEdge = some 9997748 &&
      (portOf a 0).measured = some 234 && (List.range 10).all (fun i =>
        i < 7 || bitValue ([702, 1638] ++ [2106]) 234 i == alignmentBit (writerOf a 0).parity i)) ∧
    Meets (checking 1784) (fun a => thirdSample 234 7 ≤ a.clock - 9998216 &&
      bitValue ([702, 1638] ++ [1650]) 234 7 ≠ alignmentBit (writerOf a 0).parity 7) :=
  ⟨meets (by decide +kernel), meets (by decide +kernel)⟩

theorem test_witness_ResyncEndsAtMarkOrAtABreak :
    Meets (port .resync .check 2340 0) (fun a => (portOf a 0).mode = .resync && (portOf a 0).divisor = some 234 &&
      10 * 234 ≤ a.clock - (portOf a 0).since) ∧
    Meets (port .resync .check 540000 0) (fun a => (portOf a 0).mode = .resync && (writerOf a 0).auto &&
      540000 ≤ a.clock - (portOf a 0).since) :=
  ⟨meets (by decide +kernel), meets (by decide +kernel)⟩

/-- The part at a boundary whose pause test of writer 0 is outstanding, with 12 boundaries counted. -/
def pausing (s : State) : State :=
  working (fun w => { w with pause := put w.pause 0 true }) (ported (fun p => { p with pauseArmed := true, pauseCount := 12 }) s)

/-- The hypotheses common to the clauses of PauseEventClosesTheBuffer. -/
def pauses (a : State) : Bool :=
  get a.work.pause 0 && (portOf a 0).mode ≠ .off && (portOf a 0).pauseArmed && a.settings.pauseFrames ≤ (portOf a 0).pauseCount

theorem test_witness_PauseEventClosesTheBuffer :
    MeetsPiece (pausing (live 0)) (fun a => pauses a && (builderOf a 0).chars = []) ∧
    MeetsPiece (pausing (holding [0x41] { live 0 with la := Arbiter.reset })) (fun a => pauses a && (builderOf a 0).chars ≠ [] &&
      roleOf a 0 ≠ .lead) ∧
    MeetsPiece (pausing (queued 7 (holding [0x41] (live 0)))) (fun a => pauses a && (builderOf a 0).chars ≠ [] &&
      roleOf a 0 = .lead && a.la.handoff = none && topOwner a ≠ some .live && a.queue.length < 8) :=
  ⟨meetsPiece (by decide +kernel), meetsPiece (by decide +kernel), meetsPiece (by decide +kernel)⟩

theorem test_witness_HandoffTimeoutSwitchesTheLead :
    MeetsPiece (working (fun w => { w with timeout := true }) (handing 125 (live 0))) (fun a => a.work.timeout &&
      a.la.lead = some 0 && a.la.handoff = some { taker := 1, waited := 125 } && a.settings.handoffFrames = 125) :=
  meetsPiece (by decide +kernel)

/-- The test that writer 0, mapped to VOX0 alone, is a silent lead whose last onset is present. -/
def silent0 (s : State) : Bool :=
  s.la.lead = some 0 && s.settings.silenceFrames ≠ 0 && s.settings.silenceFrames ≤ (portOf s 0).silence &&
  (writerOf s 0).voice = .vox0 &&
  (get s.lastOnset 0).any (fun o => decide (0 ≤ tickDiff (stampNow s) o) &&
    decide (tickDiff (stampNow s) o ≤ 16 * (s.settings.silenceFrames : Int)))

theorem silent_of {s : State} (h : silent0 s = true) : Silent s := by
  simp only [silent0, Bool.and_eq_true, decide_eq_true_eq, Option.any_eq_true] at h
  obtain ⟨⟨⟨⟨hw, hz⟩, hs⟩, hm⟩, o, ho, hl, hr⟩ := h
  exact ⟨0, hw, hz, hs, 0, 0, rfl, by rw [hm]; rfl, .inl ⟨o, ho, hl, hr⟩⟩

theorem test_witness_SilentLeadFailsOverOrIsReported :
    MeetsPiece (handing 3 (quiet 50250 250 .run false)) (fun a => a.work.silence && silent0 a && a.la.lead = some 0 &&
      a.la.handoff.isSome) ∧
    MeetsPiece (quiet 50250 250 .run false) (fun a => a.work.silence && silent0 a && a.la.handoff = none &&
      (writerOf a 0).partner = some 1 && (portOf a 1).mode = .run) ∧
    MeetsPiece (quiet 50250 250 .resync true) (fun a => a.work.silence && silent0 a && a.la.silenceReported &&
      (portOf a 1).mode ≠ .run) ∧
    MeetsPiece (quiet 50250 250 .resync false) (fun a => a.work.silence && silent0 a && !a.la.silenceReported &&
      (portOf a 1).mode ≠ .run) :=
  ⟨meetsPiece (by decide +kernel), meetsPiece (by decide +kernel), meetsPiece (by decide +kernel), meetsPiece (by decide +kernel)⟩

/-- A part at a boundary whose lapses are outstanding, with a last onset of VOX0 at tick 0 and one of VOX1 absent. -/
def lapsing (frame : Nat) : State :=
  working (fun w => { w with onsets := true, lastOnsets := true, buffers := true, mirror := true })
    { live frame with
      lastOnset := put (live 0).lastOnset 0 (some 0)
      out := { Output.reset with mirror := [{ shownRow with showAt := 0 }, { shownRow with showAt := 1 }] }
      air := { AirSchedule.reset with bufFree := put (put AirSchedule.reset.bufFree 0 (some 4096)) 1 (some 4097) } }

theorem test_witness_OldTimesLapseAtABoundary :
    MeetsPiece (lapsing 4096) (fun a => a.work.onsets && a.work.lastOnsets && a.work.buffers && a.work.mirror &&
      65520 < tickDiff (stampOf a.tb.frame 0) 0 && !Machine.later 4096 a.tb.frame && Machine.later 4097 a.tb.frame &&
      get a.lastOnset 1 = none && get a.air.bufFree 2 = none &&
      a.out.mirror.map (fun r => (a.tb.frame - r.showAt).toNat) = [4096, 4095]) ∧
    MeetsPiece (lapsing 4095) (fun a => tickDiff (stampOf a.tb.frame 0) 0 ≤ 65520) ∧
    MeetsPiece (lapsing (4097 + 2 ^ 27)) (fun a => a.work.buffers && !Machine.later 4097 a.tb.frame) :=
  ⟨meetsPiece (by decide +kernel), meetsPiece (by decide +kernel), meetsPiece (by decide +kernel)⟩

/-- A part at a frame, the AT_FRAME cue of slot 6 watched and the DUE cue of slot 5 in the due list. -/
def cued (frame : Nat) (f : Work → Work) : State :=
  let s := withCue .due .none (live frame)
  working f { s with disp := { s.disp with stack := [.live], ctx := Vector.replicate 2 none, watch := [6], due := [5] } }

theorem test_witness_AtFrameCuesBecomeDue :
    MeetsPiece (cued 110 (fun w => { w with atFrame := true })) (fun a => a.work.atFrame && a.disp.watch = [6] &&
      (cueOf a 6).any (fun c => !Machine.later c.startFrame a.tb.frame)) ∧
    MeetsPiece (cued (110 + 2 ^ 27) (fun w => { w with atFrame := true })) (fun a => a.work.atFrame && a.disp.watch = [6] &&
      (cueOf a 6).any (fun c => !Machine.later c.startFrame a.tb.frame)) ∧
    MeetsPiece (cued 109 (fun w => { w with atFrame := true })) (fun a => a.work.atFrame && a.disp.watch = [6] &&
      (cueOf a 6).any (fun c => Machine.later c.startFrame a.tb.frame)) :=
  ⟨meetsPiece (by decide +kernel), meetsPiece (by decide +kernel), meetsPiece (by decide +kernel)⟩

theorem test_witness_DueCuesExpire :
    MeetsPiece (cued 105 (fun w => { w with expiry := true })) (fun a => a.work.expiry && !a.work.atFrame && a.disp.due = [5] &&
      (cueOf a 5).any (fun c => c.waitLimit ≠ 0 && c.dueFrame = some 100 &&
        atOrAfter a.tb.frame (100 + BitVec.ofNat 28 c.waitLimit))) ∧
    MeetsPiece { cued 105 (fun w => { w with expiry := true }) with
      disp := { (cued 105 id).disp with cues := put (cued 105 id).disp.cues 5 (some { cueIn .due with waitLimit := 0 }) } }
      (fun a => a.work.expiry && a.disp.due = [5] && (cueOf a 5).any (fun c => c.waitLimit = 0)) ∧
    MeetsPiece (cued 104 (fun w => { w with expiry := true })) (fun a => a.work.expiry && a.disp.due = [5] &&
      (cueOf a 5).any (fun c => c.dueFrame = some 100 && !atOrAfter a.tb.frame (100 + BitVec.ofNat 28 c.waitLimit))) :=
  ⟨meetsPiece (by decide +kernel), meetsPiece (by decide +kernel), meetsPiece (by decide +kernel)⟩

/-- A fresh row of a cue. -/
def freshRow : Row := { id := 3, text := [0x41], source := .cue 5 0 100 0 none true false }

/-- A part at a boundary whose slot is outstanding, with a schedule and a mirror. -/
def slotting (entries : List Entry) (mirror : Nat) : State :=
  working (fun w => { w with slot := true })
    { live 100 with
      air := { AirSchedule.reset with entries := entries, clear := some 100 }
      out := { Output.reset with mirror := List.replicate mirror shownRow } }

/-- The hypotheses common to the clauses of ShowPutsTheHeadOnScreen. -/
def showing (a : State) : Bool :=
  a.work.slot && a.control.runState = .running && a.out.owed = .none && a.air.entries.map Entry.showAt = [a.tb.frame]

theorem test_witness_ShowPutsTheHeadOnScreen :
    MeetsPiece (slotting [entry freshRow 100] 1) (fun a => showing a && isFresh freshRow) ∧
    MeetsPiece (slotting [entry (liveRow 2 3 0) 100] 1) (fun a => showing a && !isFresh (liveRow 2 3 0) &&
      a.out.mirror.length < a.settings.displayRows) ∧
    MeetsPiece (slotting [entry (liveRow 2 3 0) 100] 2) (fun a => showing a && a.settings.displayRows ≤ a.out.mirror.length) :=
  ⟨meetsPiece (by decide +kernel), meetsPiece (by decide +kernel), meetsPiece (by decide +kernel)⟩

theorem test_witness_PendingClearEmptiesTheScreen :
    MeetsPiece (slotting [] 1) (fun a => a.work.slot && a.control.runState = .running && a.out.owed = .none && !showDue a &&
      a.air.clear = some 100 && atOrAfter a.tb.frame 100) := meetsPiece (by decide +kernel)

/-- The hypotheses of the staging clauses of SlotCarriesAtMostCUnits: no command goes with the slot. -/
def stages (s : State) : Bool :=
  s.control.runState = .running && s.out.owed = .none && s.air.entries.head?.all (fun e => e.showAt ≠ s.tb.frame) &&
  s.air.clear.all (fun f => !atOrAfter s.tb.frame f) && 1 ≤ s.settings.slotUnits && s.settings.slotUnits ≤ 32

theorem test_witness_SlotCarriesAtMostCUnits :
    1 ≤ (tuned (fun set => { set with slotUnits := 1 }) (live 0)).settings.slotUnits ∧
    (tuned (fun set => { set with slotUnits := 32 }) (live 0)).settings.slotUnits ≤ 32 ∧
    (let s := scheduled [{ entry (liveRow 1 3 0) 60 with sent := 2 }] [] (live 55)
     let going := { s with out := { s.out with cursor := some 1 } }
     stages going = true ∧ going.out.cursor = some 1 ∧
       going.air.entries = [] ++ { entry (liveRow 1 3 0) 60 with sent := 2 } :: []) ∧
    (let s := scheduled [{ entry (liveRow 1 3 0) 60 with sent := 5 }] [] (live 55)
     stages s = true ∧ s.out.cursor = none ∧ ∀ x ∈ s.air.entries, x.sent ≠ 0) ∧
    (let s := tuned (fun set => { set with slotUnits := 3 }) (scheduled [{ entry (liveRow 1 3 0) 60 with sent := 5, buffer := 1 },
       entry (liveRow 2 3 0) 70] [{ shownRow with buffer := 0 }] (live 55))
     stages s = true ∧ 3 ≤ s.settings.slotUnits ∧ before shownRow.showAt s.tb.frame = true) ∧
    (let s := scheduled [{ entry (liveRow 1 3 0) 60 with sent := 5 }, entry (liveRow 2 3 0) 70] [] (live 55)
     stages s = true ∧ (s.air.entries.map Entry.buffer) = [0, 0]) ∧
    (let s := scheduled [entry (liveRow 2 3 0) 70] [{ shownRow with buffer := 0 }] (live 50)
     stages s = true ∧ before shownRow.showAt s.tb.frame = false ∧ shownRow.past = false) := by decide +kernel

/-- The words of a header's bytes. -/
def words (cueChange generation readMark : Nat) : HeaderWords :=
  let header := hostWords cueChange generation readMark
  { cueChange := BitVec.ofNat 32 (le32 header 0x00), generation := BitVec.ofNat 32 (le32 header 0x04)
    readMark := BitVec.ofNat 32 (le32 header 0x08) }

theorem test_witness_HeaderReadTestsTheReadMark :
    Meets (scanning .header) (fun a => a.pe.op = some (.pass false .header 0 0 10000000) &&
      (a.pe.writeCount - (words 0 1 1032).readMark).toNat ≤ 256 && (words 0 1 1032).generation ≠ a.pe.lastGeneration) ∧
    Meets (scanning .header) (fun a => 256 < (a.pe.writeCount - (words 1 0 1031).readMark).toNat &&
      (words 1 0 1031).generation = a.pe.lastGeneration && !a.pe.recovery && (words 1 0 1031).cueChange ≠ a.pe.lastCueChange) ∧
    Meets (scanning .header) (fun a => (words 0 0 1288).readMark = a.pe.writeCount) :=
  ⟨meets (by decide +kernel), meets (by decide +kernel), meets (by decide +kernel)⟩

/-- A block with bytes changed. -/
def blockWith (changes : List (Nat × Byte)) : List Byte := changes.foldl (fun b c => b.set c.1 c.2) defaultBlock

/-- A part whose settings read is in flight in RUNNING, with a settings application for writer 0 changed, and writer 0's port
in a mode. -/
def applying (f : WriterSettings → WriterSettings) (mode : PortMode) (s : State) : State :=
  written f (ported (fun p => { p with mode := mode, framing := 2 })
    { s with pe := (scanning .settings).pe })

/-- The hypotheses common to the clauses of SettingsApplicationTakesItsGroups on ports and lead. -/
def applies (a : State) : Bool :=
  a.pe.op = some (.pass false .settings 0 0 10000000) && isRunning a && !a.control.freeze

/-- Writer 0's fields of a block. -/
def writer0 (changes : List (Nat × Byte)) : WriterSettings := get (parseSettings (blockWith changes)).writers 0

/-- The bytes that enable writer 0 in fixed mode at 234 counts a bit, as the small states have it, and no other writer; and
with no silence limit. -/
def kept : List (Nat × Byte) := [(0x10, 1), (0x11, 0), (0x12, 234), (0x13, 0), (0x54, 0)]

theorem test_witness_SettingsApplicationTakesItsGroups :
    Meets (scanning .settings) (fun a => a.pe.op = some (.pass false .settings 0 0 10000000) && !a.control.freeze &&
      (get a.est 0).estimate.isSome) ∧
    Meets { scanning .settings with control := { (live 0).control with freeze := true } } (fun a => a.control.freeze) ∧
    Meets (applying id .off (live 0)) (fun a => applies a && (portOf a 0).mode = .off && (writer0 kept).enable &&
      !(writer0 kept).auto && !(writer0 []).enable) ∧
    Meets (applying id .run (live 0)) (fun a => applies a && (portOf a 0).mode = .run && !(writerOf a 0).auto &&
      (writer0 kept).enable && (writer0 kept).divisor = (writerOf a 0).divisor && (writer0 kept).parity = (writerOf a 0).parity &&
      (writer0 (kept ++ [(0x11, 1)])).auto && (writer0 (kept ++ [(0x12, 235)])).divisor ≠ (writerOf a 0).divisor &&
      (writer0 (kept ++ [(0x14, 1)])).parity ≠ (writerOf a 0).parity) ∧
    Meets (applying (fun w => { w with auto := true }) .resync (live 0)) (fun a => applies a && (portOf a 0).mode = .resync &&
      (writerOf a 0).auto && !(writer0 kept).auto && (writer0 kept).enable) :=
  ⟨meets (by decide +kernel), meets (by decide +kernel), meets (by decide +kernel), meets (by decide +kernel),
    meets (by decide +kernel)⟩

/-- The test that a writer's port is in RUN and that a block with bytes changed leaves it there. -/
def runsOn (w : Writer) (changes : List (Nat × Byte)) (a : State) : Bool :=
  (portOf a w).mode = .run && !(writerOf a w).auto &&
  decide (get (parseSettings (blockWith changes)).writers w = { writerOf a w with partner := none })

theorem test_witness_LeadAtAnApplication :
    let none0 : List (Nat × Byte) := [(0x54, 0)]
    let partner : List (Nat × Byte) := none0 ++ [(0x16, 1), (0x18, 1), (0x1A, 234), (0x1B, 0)]
    let new := fun changes => parseSettings (blockWith changes)
    (new none0).silenceFrames = 0 ∧ (new none0).forcedLead = none ∧ (get (new none0).writers 0).enable = false ∧
    (new (kept ++ [(0x64, 0)])).forcedLead = some 0 ∧ (new (none0 ++ [(0x64, 3)])).forcedLead = some 3 ∧
    (get (new partner).writers 0).partner = some 1 ∧
    Meets (applying id .run (handing 3 (live 0))) (fun a => applies a && a.la.lead = some 0 && (portOf a 0).mode ≠ .off &&
      a.la.handoff = some { taker := 1, waited := 3 } && runsOn 1 partner a) ∧
    Meets (applying id .run (live 0)) (fun a => applies a && a.la.lead = some 0 && a.la.handoff = none && runsOn 1 partner a) ∧
    LeadBonds (live 0).la := by
  refine ⟨by decide +kernel, by decide +kernel, by decide +kernel, by decide +kernel, by decide +kernel, by decide +kernel,
    meets (by decide +kernel), meets (by decide +kernel), by decide +kernel, ?_, by decide +kernel⟩
  intro w
  refine ⟨fun h => ?_, fun ⟨_, h, _⟩ => nomatch h⟩
  revert h w
  decide +kernel

/-- The part in STARTING with its settings read in flight, RUN as given. -/
def starting (run : Bool) : State :=
  paged (fun pe => { pe with op := some (.settingsRead 0) })
    { State.reset with control := { State.reset.control with run := run, runState := .starting } }

theorem test_witness_SettingsReadEntersRunningOrReturns :
    Meets (starting false) (fun a => a.control.runState = .starting && a.pe.op = some (.settingsRead 0) && !a.control.run) ∧
    Meets (starting true) (fun a => a.control.run && a.la = Arbiter.reset && a.disp.stack = [] &&
      (portOf a 0).mode = .off && (portOf a 3).mode = .off && a.tb.mode = .unlocked && a.queue = [] && a.air.entries = [] &&
      (parseSettings defaultBlock).leadAtStart = some 0 &&
      (a.pe.writeCount - (words 0 0 (2 ^ 32 - 256)).readMark).toNat ≤ 256 &&
      256 < (a.pe.writeCount - (words 0 0 (2 ^ 32 - 257)).readMark).toNat &&
      (get (parseSettings (blockWith [(0x10, 1)])).writers 0).enable && (parseSettings (blockWith [(0x64, 0)])).forcedLead = some 0) ∧
    Meets (timed (fun tb => { tb with mode := .locked }) (starting true)) (fun a => a.tb.mode ≠ .unlocked &&
      (parseSettings defaultBlock).rateCode = a.settings.rateCode && (parseSettings defaultBlock).divider = a.settings.divider &&
      (parseSettings (blockWith [(0, 1)])).rateCode ≠ a.settings.rateCode) ∧
    Meets { starting true with disp := { State.reset.disp with pendingLevel := some 5 } } (fun a => a.control.run &&
      a.la = Arbiter.reset && a.disp.stack = [] && a.disp.pendingLevel = some 5 &&
      (parseSettings defaultBlock).liveLevel = a.settings.liveLevel &&
      (parseSettings (blockWith [(0x0E, 4)])).liveLevel ≠ a.settings.liveLevel) :=
  ⟨meets (by decide +kernel), meets (by decide +kernel), meets (by decide +kernel), meets (by decide +kernel)⟩

/-- A cue table with one posted slot, slot 5. -/
def posted (level kind line first rows : Nat) (start : Byte) : List Byte :=
  List.replicate 160 0 ++
    [1, 0, BitVec.ofNat 8 level, BitVec.ofNat 8 kind, start, 0, 0, 0, BitVec.ofNat 8 line, 0, BitVec.ofNat 8 first,
      BitVec.ofNat 8 (first / 256), BitVec.ofNat 8 rows, 0, 0, 0] ++ List.replicate 1872 0

/-- The hypotheses common to the clauses of CueTableRefusesOrArmsPostedSlots, for slot 5. -/
def handed (table : List Byte) (a : State) : Bool :=
  a.pe.op = some (.pass false .cueTable 0 0 10000000) && cueOf a 5 = none && !a.disp.due.contains 5 && !a.disp.watch.contains 5 &&
  byteAt (slotBytes table 5) 0x00 = 1 && byteAt (slotBytes table 5) 0x01 = 0

/-- The start frame of slot 5. -/
def startOf (table : List Byte) : Frame := BitVec.ofNat 28 (min 268435455 (le32 (slotBytes table 5) 0x04))

/-- The test of a slot's rows (R126). -/
def badRows (table : List Byte) : Bool :=
  let slot := slotBytes table 5
  byteAt slot 0x0C = 0 || 32 < byteAt slot 0x0C || 2047 < le16 slot 0x0A + byteAt slot 0x0C - 1

theorem test_witness_CueTableRefusesOrArmsPostedSlots :
    Meets (scanning .cueTable) (fun a => handed (posted 0 1 0 0 1 0) a && byteAt (slotBytes (posted 0 1 0 0 1 0) 5) 2 = 0) ∧
    Meets (scanning .cueTable) (fun a => handed (posted 8 1 0 0 1 0) a && 7 < byteAt (slotBytes (posted 8 1 0 0 1 0) 5) 2) ∧
    Meets (scanning .cueTable) (fun a => handed (posted 7 1 0 2016 33 0) a && badRows (posted 7 1 0 2016 33 0)) ∧
    Meets (scanning .cueTable) (fun a => handed (posted 1 1 0 2017 32 0) a && badRows (posted 1 1 0 2017 32 0)) ∧
    Meets (scanning .cueTable) (fun a => handed (posted 1 2 4 2016 32 0) a && !badRows (posted 1 2 4 2016 32 0) &&
      3 < byteAt (slotBytes (posted 1 2 4 2016 32 0) 5) 8) ∧
    Meets (scanning .cueTable) (fun a => handed (posted 7 3 0 0 1 0) a && !badRows (posted 7 3 0 0 1 0)) ∧
    Meets { scanning .cueTable with tb := (live 99).tb } (fun a => handed (posted 7 1 0 0 1 100) a &&
      !badRows (posted 7 1 0 0 1 100) && Machine.later (startOf (posted 7 1 0 0 1 100)) a.tb.frame) ∧
    Meets { scanning .cueTable with tb := (live 100).tb } (fun a => handed (posted 1 1 0 0 1 100) a &&
      !Machine.later (startOf (posted 1 1 0 0 1 100)) a.tb.frame) ∧
    Meets { scanning .cueTable with tb := (live (100 + 2 ^ 27)).tb } (fun a => handed (posted 1 1 0 0 1 100) a &&
      !Machine.later (startOf (posted 1 1 0 0 1 100)) a.tb.frame) ∧
    Meets (scanning .cueTable) (fun a => handed (posted 1 0 0 0 32 0) a && !badRows (posted 1 0 0 0 32 0)) ∧
    Meets (scanning .cueTable) (fun a => handed (posted 1 2 3 0 1 0) a && byteAt (slotBytes (posted 1 2 3 0 1 0) 5) 8 = 3) :=
  ⟨meets (by decide +kernel), meets (by decide +kernel), meets (by decide +kernel), meets (by decide +kernel),
    meets (by decide +kernel), meets (by decide +kernel), meets (by decide +kernel), meets (by decide +kernel),
    meets (by decide +kernel), meets (by decide +kernel), meets (by decide +kernel)⟩

/-- A cue table in which nothing but slot 5 is written: its state byte and withdraw flag as given. -/
def reading (state flag : Byte) : List Byte := ((posted 7 2 3 0 1 0).set 160 state).set 161 flag

/-- The run-start scan taking the cue table, with a cue in slot 5 or none. -/
def rerun (held : Option Cue) : State :=
  let s := paged (fun pe => { pe with runStart := true }) (scanning .cueTable)
  { s with disp := { s.disp with cues := put s.disp.cues 5 held } }

/-- The hypotheses common to the clauses of CueTableRefusesOrArmsPostedSlots in that scan, for slot 5. -/
def rescanned (a : State) : Bool :=
  a.pe.op = some (.pass false .cueTable 0 0 10000000) && a.pe.runStart && !a.disp.due.contains 5 && !a.disp.watch.contains 5

/-- The test that slot i calls for nothing in a table. -/
def idle (s : State) (table : List Byte) (i : SlotNo) : Bool :=
  decide (byteAt (slotBytes table i) 0x01 = 0) && decide (byteAt (slotBytes table i) 0x00 = 0) && decide (cueOf s i = none)

theorem callsForNothing_of {s : State} {table : List Byte} {i : SlotNo} (h : idle s table i = true) :
    CallsForNothing s table i := by
  simp only [idle, Bool.and_eq_true, decide_eq_true_eq] at h
  exact ⟨h.1.1, by simp [h.1.2], fun _ c hc => by simp [h.2] at hc, fun _ _ => Or.inl h.1.2⟩

theorem test_witness_run_start_scan :
    Meets (rerun none) (fun a => rescanned a && cueOf a 5 = none && byteAt (slotBytes (reading 2 0) 5) 0x00 = 2 &&
      byteAt (slotBytes (reading 2 0) 5) 0x01 = 0 && !badRows (reading 2 0) && (allSlots.erase 5).all (idle a (reading 2 0))) ∧
    Meets (rerun (some (cueIn .armed))) (fun a => rescanned a && cueOf a 5 = some (cueIn .armed) &&
      byteAt (slotBytes (reading 7 0) 5) 0x01 = 0 && !badRows (reading 7 0) && (allSlots.erase 5).all (idle a (reading 7 0))) ∧
    Meets (rerun (some (cueIn .armed))) (fun a => rescanned a && byteAt (slotBytes (reading 2 1) 5) 0x01 ≠ 0) ∧
    Meets (scanning .cueTable) (fun a => a.pe.op = some (.pass false .cueTable 0 0 10000000) && cueOf a 5 = none &&
      byteAt (slotBytes (reading 1 1) 5) 0x00 = 1 && byteAt (slotBytes (reading 1 1) 5) 0x01 ≠ 0) ∧
    Meets (rerun none) (fun a => rescanned a && cueOf a 5 = none && [3, 4, 5].all (fun b =>
      byteAt (slotBytes (reading (BitVec.ofNat 8 b) 0) 5) 0x00 = b) && CueState.due.code = 3 && CueState.suspended.code = 5) ∧
    Meets (rerun none) (fun a => rescanned a && cueOf a 5 = none && byteAt (slotBytes (reading 0 1) 5) 0x00 = 0 &&
      byteAt (slotBytes (reading 6 1) 5) 0x00 = 6) ∧
    Meets (rerun (some (cueIn .done))) (fun a => rescanned a && cueOf a 5 = some (cueIn .done) &&
      (allSlots.erase 5).all (idle a (reading 7 1))) :=
  ⟨meets (by decide +kernel), meets (by decide +kernel), meets (by decide +kernel), meets (by decide +kernel),
    meets (by decide +kernel), meets (by decide +kernel), meets (by decide +kernel)⟩

/-- A cue table whose slot 5 alone carries the withdraw flag. -/
def withdrawing : List Byte := (List.replicate 2048 0).set 161 1

/-- The part in a scan that takes the cue table, a cue in slot 5 in a state and stacked as given, and a schedule. -/
def held (st : CueState) (stack : List Owner) (entries : List Entry) : State :=
  let s := withCue st .none (scanning .cueTable)
  { s with disp := { s.disp with stack := stack }, air := { s.air with entries := entries } }

/-- The hypotheses common to the withdrawal clauses of CueTableRefusesOrArmsPostedSlots. -/
def withdraws (st : CueState) (a : State) : Bool :=
  a.pe.op = some (.pass false .cueTable 0 0 10000000) && !a.pe.runStart && cueOf a 5 = some (cueIn st) && a.queue = [] &&
  a.disp.due = [] && a.disp.place ≠ .waiting && ctxOf a 1 = none

theorem test_witness_withdrawal :
    (byteAt (slotBytes withdrawing 5) 0x01 ≠ 0 ∧
      ∀ i : SlotNo, i ≠ 5 → byteAt (slotBytes withdrawing i) 0x00 ≠ 1 ∧ byteAt (slotBytes withdrawing i) 0x01 = 0) ∧
    Meets (held .armed [.live] []) (withdraws .armed) ∧ Meets (held .due [.live] []) (withdraws .due) ∧
    Meets (held .suspended [.ctx 0] []) (fun a => withdraws .suspended a && a.disp.stack.contains (.ctx 0)) ∧
    Meets (held .running [.live, .ctx 0] []) (fun a => withdraws .running a && a.disp.stack.contains (.ctx 0) &&
      a.air.entries.filter (waitsOfCue 5) = []) ∧
    Meets (held .running [.live, .ctx 0] [entry freshRow 120]) (fun a => withdraws .running a &&
      a.air.entries.filter (waitsOfCue 5) = [entry freshRow 120]) ∧
    Meets (held .done [.live] []) (withdraws .done) :=
  ⟨by decide +kernel, meets (by decide +kernel), meets (by decide +kernel), meets (by decide +kernel), meets (by decide +kernel),
    meets (by decide +kernel), meets (by decide +kernel)⟩

theorem test_witness_SlotWriteStoresTheSlot :
    Meets (scanning (.slot 5 (slotWrite 5 (cueIn .done)) true false)) (fun a =>
      a.pe.op = some (.pass false (.slot 5 (slotWrite 5 (cueIn .done)) true false) 0 0 10000000)) := meets (by decide +kernel)

/-- The status write in flight, in a scan or a flush, with the values of the small part. -/
def statusStep (flush : Bool) : PageOp :=
  .pass flush (.status [(0x10, headerBytes (live 0)), (0x200, statusBytes (live 0))]) 0 0 10000000

/-- A part whose status write is in flight, with some records in the buffer and some past the read mark. -/
def posting (flush : Bool) (records past : Nat) (s : State) : State :=
  paged (fun pe => { pe with
    op := some (statusStep flush), buffer := List.replicate records { frame := 0, record := .giveIgnored 0 }
    writeCount := BitVec.ofNat 32 past }) s

theorem test_witness_StatusWriteStoresHeaderAndStatus :
    Meets (posting false 1 255 (live 0)) (fun a => a.pe.op = some (statusStep false) && a.pe.buffer.length = 1 &&
      (a.pe.writeCount - a.pe.readMark).toNat < 256) ∧
    Meets (posting false 1 256 (live 0)) (fun a => a.pe.op = some (statusStep false) && a.pe.buffer.length = 1 &&
      256 ≤ (a.pe.writeCount - a.pe.readMark).toNat && a.control.runState ≠ .halting) ∧
    Meets (posting true 0 0 (inState .halting (live 0))) (fun a => a.pe.op = some (statusStep true) && a.pe.buffer = [] &&
      a.control.runState = .halting && a.out.owed ≠ .haltClear && a.control.run && a.pe.fault = none) ∧
    Meets { posting true 0 0 (live 0) with control := { (live 0).control with runState := .halting, run := false } } (fun a =>
      a.pe.op = some (statusStep true) && !a.control.run && a.out.owed ≠ .haltClear) ∧
    Meets (posting true 0 0 (inState .halting faulted)) (fun a => a.control.run && a.pe.fault.isSome) ∧
    Meets { posting true 0 0 (inState .halting (live 0)) with out := { Output.reset with owed := .haltClear } } (fun a =>
      a.pe.buffer = [] && a.out.owed = .haltClear) :=
  ⟨meets (by decide +kernel), meets (by decide +kernel), meets (by decide +kernel), meets (by decide +kernel),
    meets (by decide +kernel), meets (by decide +kernel)⟩

/-- A part whose journal write is in flight, with some records in the buffer and some past the read mark. -/
def journaling (records past : Nat) (s : State) : State :=
  paged (fun pe => { pe with
    op := some (.pass false (.journal [(0x1000, [1, 2])]) 0 0 10000000)
    buffer := List.replicate records { frame := 0, record := .giveIgnored 0 }
    writeCount := BitVec.ofNat 32 past }) s

/-- The hypotheses common to the clauses of JournalWriteStoresTheRecord. -/
def journals (a : State) : Bool := a.pe.op = some (.pass false (.journal [(0x1000, [1, 2])]) 0 0 10000000)

theorem test_witness_JournalWriteStoresTheRecord :
    Meets (journaling 2 254 (live 0)) (fun a => journals a && (a.pe.writeCount + 1 - a.pe.readMark).toNat < 256 &&
      (a.pe.buffer.drop 1).length = 1 && a.control.runState ≠ .halting) ∧
    Meets (journaling 2 255 (live 0)) (fun a => journals a && 256 ≤ (a.pe.writeCount + 1 - a.pe.readMark).toNat) ∧
    Meets (journaling 1 9 (inState .halting (live 0))) (fun a => journals a && a.pe.buffer.drop 1 = [] &&
      a.control.runState = .halting && a.out.owed ≠ .haltClear && a.control.run && a.pe.fault = none) ∧
    Meets { journaling 1 9 (inState .halting (live 0)) with control := { (live 0).control with runState := .halting, run := false } }
      (fun a => journals a && !a.control.run) ∧
    Meets (journaling 1 9 (inState .halting faulted)) (fun a => journals a && a.control.run && a.pe.fault.isSome) ∧
    Meets { journaling 1 9 (inState .halting (live 0)) with out := { Output.reset with owed := .haltClear } } (fun a =>
      journals a && a.pe.buffer.drop 1 = [] && a.out.owed = .haltClear) :=
  ⟨meets (by decide +kernel), meets (by decide +kernel), meets (by decide +kernel), meets (by decide +kernel),
    meets (by decide +kernel), meets (by decide +kernel)⟩

/-- A part whose top is the cue of slot 5, its fetch in flight. -/
def fetching : State :=
  let s := withCue .running .inFlight (live 100)
  { s with disp := { s.disp with stack := [.live, .ctx 0] } }

/-- The same part with the cue's last row in flight, an owner stack, a suspended cue in slot 7 and context 1, and a queue. -/
def lastRow (stack : List Owner) (queue : List Row) : State :=
  let s := fetching
  { s with
    queue := queue
    disp := { s.disp with
      stack := stack
      cues := put s.disp.cues 7 (some (cueIn .suspended))
      ctx := put (s.disp.ctx.map (fun x => x.map (fun x => { x with next := 2, offsets := [1, 2] }))) 1
        (some { slot := 7, next := 0, offsets := [], fetch := .none, fetchEntry := 0, fetchSince := 0, refetch := none }) } }

/-- The hypotheses common to the clauses of FetchedRowEntersOrIsSkipped, for the cue of slot 5. -/
def fetched (a : State) : Bool :=
  isRunning a && topOwner a = some (.ctx 0) && (ctxOf a 0).map Context.fetch = some .inFlight && (ctxOf a 0).map Context.slot = some 5 &&
  cueOf a 5 = some (cueIn .running) && a.air.entries.length < 24

/-- The hypotheses of its last clause: the row is the cue's last, with no entry of it left. -/
def lastFetched (a : State) : Bool :=
  fetched a && (ctxOf a 0).all (fun x => x.next + 1 = (cueIn .running).rowCount) &&
  a.air.entries.all (fun e => !isCueEntry 5 e) && a.disp.due = [] && a.disp.place ≠ .waiting

theorem test_witness_FetchedRowEntersOrIsSkipped :
    byteAt (1 :: List.replicate 63 0) 0 ≠ 0 ∧ byteAt (List.replicate 64 0) 0 = 0 ∧
    Meets fetching (fun a => fetched a && 0 + 1 < (cueIn .running).rowCount && a.settings.dropAbove = 0) ∧
    Meets (lastRow [.live, .ctx 0] [liveRow 1 3 0]) (fun a => lastFetched a && a.queue = [liveRow 1 3 0] &&
      a.settings.dropAbove = 0 && a.disp.stack = [.live, .ctx 0]) ∧
    Meets (lastRow [.live, .ctx 1, .ctx 0] []) (fun a => lastFetched a && (ctxOf a 1).map Context.slot = some 7 &&
      cueOf a 7 = some (cueIn .suspended)) ∧
    Meets { lastRow [.live, .ctx 0] [] with air := { AirSchedule.reset with entries := [entry freshRow 120] } } (fun a =>
      fetched a && a.air.entries.any (isCueEntry 5)) :=
  ⟨by decide +kernel, by decide +kernel, meets (by decide +kernel), meets (by decide +kernel), meets (by decide +kernel),
    meets (by decide +kernel)⟩

/-- The same part with that fetch in a state, an owner stack, and a cue due in slot 6. -/
def voided (stack : List Owner) (due : List SlotNo) (s : State) : State :=
  { s with disp := { s.disp with
      stack := stack, due := due, ctx := s.disp.ctx.map (fun x => x.map (fun x => { x with fetch := .void })) } }

/-- The test that the fetch of context 0 is void. -/
def isVoid (a : State) : Bool := (ctxOf a 0).map Context.fetch = some .void && (ctxOf a 0).map Context.slot = some 5

theorem test_witness_void_fetches :
    Meets (voided [.live, .ctx 0] [] fetching) (fun a => isVoid a && a.disp.stack.contains (.ctx 0) && isRunning a &&
      topOwner a = some (.ctx 0) && cueOf a 5 = some (cueIn .running)) ∧
    Meets (voided [.ctx 0, .live] [] fetching) (fun a => isVoid a && a.disp.stack.contains (.ctx 0) &&
      topOwner a ≠ some (.ctx 0)) ∧
    Meets (voided [] [] (inState .halting fetching)) (fun a => isVoid a && !a.disp.stack.contains (.ctx 0) && a.disp.due = []) ∧
    Meets (voided [.live] [6] fetching) (fun a => isVoid a && !a.disp.stack.contains (.ctx 0) && a.disp.due = 6 :: [] &&
      cueOf a 6 = some (cueIn .armed) && topOwner a = some .live && a.settings.liveLevel < 3) ∧
    Meets { fetching with air := { AirSchedule.reset with entries := List.replicate 24 (entry freshRow 120) } } (fun a =>
      isRunning a && topOwner a = some (.ctx 0) && 24 ≤ a.air.entries.length) ∧
    then? (.fetchComplete now 0 (List.replicate 64 0)) (voided [.live] [6] fetching) (fun t => t.disp.due = [] &&
      t.disp.stack = [.live, .ctx 0] && (ctxOf t 0).map Context.slot = some 6 && t.nextRowId = 0) = true :=
  ⟨meets (by decide +kernel), meets (by decide +kernel), meets (by decide +kernel), meets (by decide +kernel),
    meets (by decide +kernel), by decide +kernel⟩

/-- A row-area entry of three characters: 'A', a code below 0x20, 'B', with an override of 0. -/
def rowEntry : List Byte := [3, 1, 0, 0, 0, 0] ++ List.replicate 10 0 ++ [0x41, 0x1F, 0x42] ++ List.replicate 45 0

/-- The row is in time with no stale limit, and stale with the limit 1 and no programme delay. -/
theorem test_witness_fetched_rows :
    then? (.fetchComplete now 0 rowEntry) fetching (fun t => t.air.entries.map (fun e => (e.row.text, e.hold, e.flags.clamped)) =
      [([0x41, 0x20, 0x42], 1, true)]) = true ∧
    Meets (tuned (fun set => { set with dropAbove := 1, delay := 0 }) fetching) (fun a => fetched a &&
      a.settings.dropAbove ≠ 0 && a.settings.dropAbove < (placeRow { freshRow with source := .cue 5 0 100 0 none true false } a).lag) :=
  ⟨by decide +kernel, meets (by decide +kernel)⟩

theorem test_witness_FailedAccessIsAPageFault :
    Meets fetching (fun a => (accessAt (.fetch 0) 0x9000 a).any (fun site => a.clock < site.since + 270000)) ∧
    Meets { fetching with clock := 10270000 } (fun a => (accessAt (.fetch 0) 0x9000 a).any (fun site =>
      site.since + 270000 ≤ a.clock)) ∧
    Meets (starting true) (fun a => (accessAt .engine 0x100 a).isSome && a.pe.op = some (.settingsRead 0)) ∧
    Meets (scanning .header) (fun a => (accessAt .engine 0x00 a).isSome && a.control.runState = .running) :=
  ⟨meets (by decide +kernel), meets (by decide +kernel), meets (by decide +kernel), meets (by decide +kernel)⟩

/-- The hypotheses of ClosedRowEntersTheSchedule. -/
def enters (a : State) : Bool :=
  takes a && (builderOf a 0).chars ≠ [] && a.la.handoff = none && (get a.est 0).estimate = some 1200

theorem test_witness_ClosedRowEntersTheSchedule :
    Meets { holding [0x41] (live 0) with
      air := { AirSchedule.reset with entries := List.replicate 23 (entry (liveRow 1 3 0) 50) } } (fun a => enters a && hearsByte 0x0D a && hearsByte 0x1E a &&
      a.settings.catchAbove ≠ 0 && !a.air.catchup) ∧
    Meets { holding [0x41] (live 0) with air := { AirSchedule.reset with catchup := true } } (fun a => enters a && hearsByte 0x0D a && hearsByte 0x1E a &&
      a.settings.catchAbove ≠ 0 && a.air.catchup) ∧
    Meets (tuned (fun set => { set with catchAbove := 0 }) (holding [0x41] (live 0))) (fun a => enters a && hearsByte 0x0D a && hearsByte 0x1E a &&
      a.settings.dropAbove = 0 && a.settings.catchAbove = 0) ∧
    Meets (tuned (fun set => { set with delay := 0, dropAbove := 1 }) (holding [0x41] (live 100))) (fun a => enters a && hearsByte 0x0D a && hearsByte 0x1E a &&
      a.settings.dropAbove < (placeRow (closedRow 0 (builderOf a 0) .rowCode 0) a).lag) ∧
    MeetsPiece (pausing (holding [0x41] (live 0))) (fun a => pauses a && enters a && a.settings.dropAbove = 0) ∧
    MeetsPiece (pausing (tuned (fun set => { set with delay := 0, dropAbove := 1 }) (holding [0x41] (live 100)))) (fun a =>
      pauses a && enters a && a.settings.dropAbove < (placeRow (closedRow 0 (builderOf a 0) .pause 0) a).lag) :=
  ⟨meets (by decide +kernel), meets (by decide +kernel), meets (by decide +kernel), meets (by decide +kernel),
    meetsPiece (by decide +kernel), meetsPiece (by decide +kernel)⟩

/-! ### Witnesses: the tests and marks of a boundary -/

/-- The test that nothing feeds in a state, and that a watched cue's start frame is reached. -/
def feedsNothing (s : State) : Bool := s.queue = [] || topOwner s ≠ some .live || 24 ≤ s.air.entries.length

@[inherit_doc feedsNothing] def reached (s : State) : Bool :=
  s.disp.watch.any (fun n => (cueOf s n).any (fun c => !Machine.later c.startFrame s.tb.frame))

theorem nothingFeeds_iff (s : State) : NothingFeeds s ↔ feedsNothing s = true := by
  simp only [NothingFeeds, feedsNothing, Bool.or_eq_true, decide_eq_true_eq, or_assoc]

theorem watchReached_iff (s : State) : WatchReached s ↔ reached s = true := by
  simp only [WatchReached, reached, List.any_eq_true, Option.any_eq_true, Bool.not_eq_true']

/-- A freewheel expiry in a RUNNING state with nothing owed whose slot begins no row, and of what the slot leaves and the
state after it the test holds. -/
def Bounds (s : State) (test : State → State → Bool) : Prop :=
  Meets s (fun a => expires a && isRunning a && a.out.owed = .none && a.air.clear = none && a.air.entries.all (fun e => 0 < e.sent)) ∧
  then? (.freewheelExpiry now) s (fun t => test (slotLeft s t s.air.entries) t) = true

theorem boundsBy {s : State} {test : State → State → Bool}
    (h : (s.resetLow = false ∧ s.work = Work.none ∧ s.lines = now.lines ∧ (expires s && isRunning s && s.out.owed = .none &&
      s.air.clear = none && s.air.entries.all (fun e => 0 < e.sent)) = true) ∧
      then? (.freewheelExpiry now) s (fun t => test (slotLeft s t s.air.entries) t) = true) : Bounds s test :=
  ⟨meets h.1, h.2⟩

/-- A part at a freewheel expiry with one row in the live queue. -/
def feeding : State := { wheeling 1080000 with queue := [liveRow 1 3 0] }

/-- A part at a freewheel expiry, an owner stack, the cue of slot 5 in a state, in context 0 or in no context, watched cues,
and due ones. -/
def cueing (stack : List Owner) (st : CueState) (placed : Bool) (watch due : List SlotNo) : State :=
  let s := withCue st .none (wheeling 1080000)
  { s with disp := { s.disp with
      stack := stack, watch := watch, due := due, ctx := if placed then s.disp.ctx else Vector.replicate 2 none } }

/-- The feed window of 100 frames and the delay of 100 reach frame 101 from frame 1: the cue of slot 5 starts at 100. -/
theorem test_witness_BoundaryTests :
    Bounds feeding (fun u t => !feedsNothing u && u.queue = [liveRow 1 3 0] && (get u.est 0).estimate = some 1200 &&
      u.disp.due = [] && t.queue = [] && t.air.entries.map Entry.row = [liveRow 1 3 0]) ∧
    Bounds (tuned (fun set => { set with delay := 0, dropAbove := 1 }) feeding) (fun u t => !feedsNothing u && u.disp.due = [] &&
      u.settings.dropAbove < (placeRow (liveRow 1 3 0) u).lag && t.air.entries = [] &&
      (get t.counters 0).rowsDropped = 1) ∧
    Bounds { feeding with air := { AirSchedule.reset with entries := [{ entry (liveRow 2 3 0) 1 with sent := 5 }] } } (fun u t =>
      !feedsNothing u && t.work.slot && t.air.entries.length = 2 && t.queue = []) ∧
    Bounds (cueing [.live] .due false [] [5]) (fun u t => feedsNothing u && !reached u && u.disp.due = [5] &&
      (cueOf u 5).any (fun c => u.settings.liveLevel < c.level) && t.disp.stack = [.live, .ctx 0]) ∧
    Bounds (tuned (fun set => { set with liveLevel := 3 }) (cueing [.live] .due false [] [5])) (fun u t => feedsNothing u &&
      !reached u && (cueOf u 5).any (fun c => c.level ≤ u.settings.liveLevel) && t.disp.due = [5]) ∧
    Bounds (timed (fun tb => { tb with load := some 110 }) (cueing [.live] .due false [6] [5])) (fun u t => reached u &&
      t.disp = u.disp && t.work.atFrame) ∧
    Bounds (tuned (fun set => { set with delay := 1 }) (cueing [.live, .ctx 0] .running true [] [])) (fun u t =>
      u.disp.due = [] && topOwner u = some (.ctx 0) && (ctxOf t 0).any (fun x => x.fetch = .inFlight && x.fetchEntry = 0)) ∧
    Bounds (tuned (fun set => { set with delay := 2 }) (cueing [.live, .ctx 0] .running true [] [])) (fun u t =>
      u.disp.due = [] && topOwner u = some (.ctx 0) && ctxOf t 0 = ctxOf u 0) :=
  ⟨boundsBy (by decide +kernel), boundsBy (by decide +kernel), boundsBy (by decide +kernel), boundsBy (by decide +kernel),
    boundsBy (by decide +kernel), boundsBy (by decide +kernel), boundsBy (by decide +kernel), boundsBy (by decide +kernel)⟩

/-- A part before the boundary to frame 5,000, at which every piece of work comes to be left, or none with early set. -/
def ripening (early : Bool) : State :=
  let n := if early then 1 else 0
  let s := cued 4999 id
  let due := { cueIn .due with dueFrame := some (BitVec.ofNat 28 (4995 + n)) }
  let watched := { cueIn .armed with startFrame := BitVec.ofNat 28 (5000 + n) }
  written (fun w => { w with voice := .vox0 })
    (handing (124 - n)
      { s with
        clock := 10000000
        tb := { s.tb with origin := some 8920000 }
        ports := Vector.replicate 4 { Port.reset with
          mode := .run, divisor := some 234, pauseArmed := true, pauseCount := 11 - n, silence := 249 - n }
        lastOnset := put (Vector.replicate 2 (some (BitVec.ofNat 32 (80000 - 65521 + n)))) 0 (some 80000)
        onsets := put s.onsets 0 [{ stamp := BitVec.ofNat 32 (80000 - 4017 + n), marks := Vector.replicate 4 false }]
        air := { AirSchedule.reset with bufFree := put AirSchedule.reset.bufFree 2 (some (BitVec.ofNat 28 (5000 + n))) }
        out := { Output.reset with mirror := [{ shownRow with showAt := BitVec.ofNat 28 (904 + n) }] }
        disp := { s.disp with
          cues := put (put s.disp.cues 5 (some due)) 6 (some watched)
          ctx := Vector.replicate 2 (some
            { slot := 9, next := 0, offsets := [], fetch := .none, fetchEntry := 0, fetchSince := 0, refetch := none }) } })

theorem test_marks_of_a_boundary :
    then? (.freewheelExpiry now) (ripening false) (fun t =>
      (List.finRange 4).all (fun w => get t.work.pause w) && t.work.timeout && t.work.silence && t.work.onsets &&
      t.work.lastOnsets && t.work.buffers && t.work.mirror && t.work.atFrame && t.work.expiry) = true ∧
    then? (.freewheelExpiry now) (ripening true) (fun t => t.work = Work.none) = true := by decide +kernel

/-! ### Witnesses: silence -/

theorem test_witness_silent_lead :
    Silent (quiet 50250 250 .run false) ∧ Silent (quiet 50430 250 .run false) ∧
    (¬silent0 (quiet 50249 249 .run false) ∧ ¬silent0 (quiet 50431 250 .run false)) ∧
    ¬Silent (tuned (fun set => { set with silenceFrames := 0 }) (live 0)) :=
  ⟨silent_of (by decide +kernel), silent_of (by decide +kernel), by decide +kernel, fun ⟨_, _, h, _⟩ => h rfl⟩

/-- A silent lead mapped to VOX0, whose line i accepts a selected change. -/
def hearing (i : LineNo) : State :=
  written (fun w => { w with voice := .vox0 }) (ported (fun p => { p with silence := 250 }) (unstepped (sampling i 1 1 0 0 true)))

theorem test_witness_silence_test_at_a_capture :
    Meets (hearing 0) (fun a => accepts 0 a && voiceIndex 0 = some 0 && !a.work.silence &&
      (List.finRange 6).all (fun x => x == 0 || get a.lines x == (get a.capture x).filtered)) ∧
    Meets (hearing 1) (fun a => accepts 1 a && voiceIndex 1 = some 1) ∧
    then? (.tickStep now) (hearing 0) (fun t => t.work.silence && silent0 t) = true ∧
    then? (.tickStep now) (hearing 1) (fun t => !t.work.silence) = true :=
  ⟨meets (by decide +kernel), meets (by decide +kernel), by decide +kernel, by decide +kernel⟩

/-- A GIVE to a taker who has been silent as long leaves a silence test to be taken. -/
theorem test_silence_test_at_a_change_of_lead :
    then? (.characterAccepted now 0 (wave 0x12)) (handing 3
      { live 50250 with
        ports := Vector.replicate 4 { Port.reset with mode := .run, divisor := some 234, lookFrom := 9000000, silence := 250 }
        lastOnset := Vector.replicate 2 (some 802880) })
      (fun t => t.la.lead = some 1 && t.work.silence) = true := by decide +kernel

/-! ### Witnesses: latency candidates -/

/-- The test that a voice map names a voice line. -/
def mapped (m : VoiceMap) (v : Fin 2) : Bool := m = .both || (m = .vox0 && v = 0) || (m = .vox1 && v = 1)

theorem mapped_iff (m : VoiceMap) (v : Fin 2) : MapsLine m v ↔ mapped m v = true := by
  cases m <;> simp [MapsLine, mapped]

/-- The test that an onset of a voice line makes a candidate for writer 0, and that the candidate of stamp o is chosen. -/
def offers (a : State) (v : Fin 2) (x : Onset) : Bool :=
  mapped (writerOf a 0).voice v && !get x.marks 0 && decide (16 * (a.settings.lmin : Int) ≤ tickDiff (stampNow a) x.stamp) &&
  decide (tickDiff (stampNow a) x.stamp ≤ 16 * (max a.settings.lmin a.settings.lmax : Nat))

@[inherit_doc offers] def choosing (a : State) (estimate : Nat) (o : Stamp) : Bool :=
  (List.finRange 2).any (fun v => (get a.onsets v).any (fun x => offers a v x && x.stamp = o)) &&
  (List.finRange 2).all (fun v => (get a.onsets v).all (fun x => !offers a v x ||
    decide ((tickDiff (stampNow a) o - estimate).natAbs < (tickDiff (stampNow a) x.stamp - estimate).natAbs ∨
      ((tickDiff (stampNow a) o - estimate).natAbs = (tickDiff (stampNow a) x.stamp - estimate).natAbs ∧
        tickDiff (stampNow a) o ≤ tickDiff (stampNow a) x.stamp))))

theorem candidate_iff (a : State) (o : Stamp) : Candidate a 0 (stampNow a) o ↔
    ∃ v, ∃ x ∈ get a.onsets v, offers a v x = true ∧ x.stamp = o := by
  simp only [offers, Bool.and_eq_true, decide_eq_true_eq, Bool.not_eq_true', ← mapped_iff]
  constructor
  · rintro ⟨⟨v, hm, x, hx, rfl, hk⟩, hl, hh⟩
    exact ⟨v, x, hx, ⟨⟨⟨hm, hk⟩, hl⟩, hh⟩, rfl⟩
  · rintro ⟨v, x, hx, ⟨⟨⟨hm, hk⟩, hl⟩, hh⟩, rfl⟩
    exact ⟨⟨v, hm, x, hx, rfl, hk⟩, hl, hh⟩

theorem chosen_of {a : State} {estimate : Nat} {o : Stamp} (h : choosing a estimate o = true) :
    Chosen a 0 (stampNow a) estimate o := by
  simp only [choosing, Bool.and_eq_true, List.any_eq_true, List.all_eq_true, List.mem_finRange, true_and, forall_const,
    Bool.or_eq_true, Bool.not_eq_true', decide_eq_true_eq] at h
  obtain ⟨⟨v, x, hx, hc, rfl⟩, hall⟩ := h
  refine ⟨(candidate_iff a _).2 ⟨v, x, hx, hc, rfl⟩, fun p hp => ?_⟩
  obtain ⟨w, y, hy, hd, rfl⟩ := (candidate_iff a p).1 hp
  exact (hall w y hy).resolve_left (by rw [hd]; exact Bool.noConfusion)

/-- The part in which writer 0 resumes under a voice map, with onsets some ticks old on either voice line. -/
def choices (m : VoiceMap) (vox0 vox1 : List Nat) (estimate rejects : Nat) : State :=
  let onsets := fun (l : List Nat) => l.map (fun x =>
    ({ stamp := BitVec.ofNat 32 (16000 - x), marks := Vector.replicate 4 false } : Onset))
  written (fun w => { w with voice := m }) { resuming 0 { estimate := some estimate, rejects := rejects } with
    onsets := put (Vector.replicate 2 (onsets vox0)) 1 (onsets vox1) }

/-- A resumption of writer 0 at which the candidate x ticks old is chosen, and of the state after it the test holds. -/
def Picks (s : State) (estimate x : Nat) (test : State → Bool) : Prop :=
  Meets s (fun a => hearsByte 0x41 a && (portOf a 0).pauseFlag && (get a.est 0).estimate = some estimate) ∧
  Chosen s 0 (stampNow s) estimate (BitVec.ofNat 32 (16000 - x)) ∧
  then? (.characterAccepted now 0 (wave 0x41)) s test = true

/-- The test that the onsets of a voice line of these ages, and no others, are consumed for writer 0. -/
def consumed (v : Fin 2) (ages : List Nat) (t : State) : Bool :=
  decide (((get t.onsets v).filter (fun o => get o.marks 0)).map Onset.stamp = ages.map (fun x => BitVec.ofNat 32 (16000 - x)))

/-- The same part with writer 0 in another role. -/
def roled (r : Role) (s : State) : State := { s with la := { s.la with roles := put s.la.roles 0 r } }

/-- Of two candidates as near to the estimate the later is chosen; VOX1 alone is looked at under VOX1; both members of a pair
of one stamp are consumed under BOTH; and a reseed is journaled for a writer who is LEAD or TAKING, and for no other. -/
theorem test_witness_candidates :
    Picks (choices .vox0 [1100, 900, 500] [1000] 1000 0) 1000 900 (fun t => consumed 0 [900] t && consumed 1 [] t) ∧
    Picks (choices .vox1 [1000] [1200] 1000 0) 1000 1200 (fun t => consumed 0 [] t && consumed 1 [1200] t) ∧
    Picks (choices .both [1200, 900] [1500, 900] 1000 0) 1000 900 (fun t => consumed 0 [900] t && consumed 1 [900] t) ∧
    Picks (choices .vox0 [3000] [] 1000 2) 1000 3000 (fun t =>
      t.pe.buffer.map JournalEntry.record = [.latencyReseed 0 1000 3000 13000 16000]) ∧
    Picks (roled .taking (choices .vox0 [3000] [] 1000 2)) 1000 3000 (fun t =>
      t.pe.buffer.map JournalEntry.record = [.latencyReseed 0 1000 3000 13000 16000]) ∧
    Picks (roled .standby (choices .vox0 [3000] [] 1000 2)) 1000 3000 (fun t =>
      get t.est 0 = { estimate := some 3000, rejects := 0 } && t.pe.buffer = []) :=
  ⟨⟨meets (by decide +kernel), chosen_of (by decide +kernel), by decide +kernel⟩,
    ⟨meets (by decide +kernel), chosen_of (by decide +kernel), by decide +kernel⟩,
    ⟨meets (by decide +kernel), chosen_of (by decide +kernel), by decide +kernel⟩,
    ⟨meets (by decide +kernel), chosen_of (by decide +kernel), by decide +kernel⟩,
    ⟨meets (by decide +kernel), chosen_of (by decide +kernel), by decide +kernel⟩,
    ⟨meets (by decide +kernel), chosen_of (by decide +kernel), by decide +kernel⟩⟩

/-- An onset just too young, and one just too old, make no candidate: 16 × 20 and 16 × 250 ticks are the bounds. -/
theorem test_witness_no_candidate (o : Stamp) : ¬Candidate (choices .vox0 [319, 4001] [1000] 1000 0) 0
    (stampNow (choices .vox0 [319, 4001] [1000] 1000 0)) o := by
  rw [candidate_iff]
  rintro ⟨v, x, hx, ho, -⟩
  revert v x
  decide +kernel

/-! ### Witnesses: due cues and shown rows -/

/-- The hypotheses of the last clause of AtFrameCuesBecomeDue: slot 6's start frame is reached, slot 7's is not, and no cue is
due. -/
theorem test_witness_one_cue_becomes_due :
    let s := cued 110 (fun w => { w with atFrame := true })
    MeetsPiece { s with disp := { s.disp with
      due := [], watch := [6, 7], cues := put s.disp.cues 7 (some { cueIn .armed with startFrame := 111 }) } } (fun a =>
      a.work.atFrame && a.disp.watch = [] ++ 6 :: [7] && a.disp.due = [] &&
      (cueOf a 6).any (fun c => !Machine.later c.startFrame a.tb.frame && a.settings.liveLevel < c.level) &&
      (cueOf a 7).any (fun c => Machine.later c.startFrame a.tb.frame) && ctxOf a 0 = none) :=
  meetsPiece (by decide +kernel)

/-- A part at a boundary whose slot shows a live row, alone in the schedule, with a linger time and rows in the queue. -/
def showsLive (linger : Nat) (queue : List Row) : State :=
  { tuned (fun set => { set with linger := linger }) (slotting [entry (liveRow 2 3 0) 100] 1) with queue := queue }

/-- The same with a row of the cue of slot 5, at a next row of its context, under an owner stack, and another row behind. -/
def showsCue (next : Nat) (stack : List Owner) (behind : List Entry) : State :=
  let s := withCue .running .none (slotting (entry freshRow 100 :: behind) 1)
  { s with disp := { s.disp with stack := stack, ctx := s.disp.ctx.map (fun x => x.map (fun x => { x with next := next })) } }

/-- The pending clear of a schedule left empty, at frame 100 and with a hold of 9 frames (R116): none with a linger time of 0,
else 100 + max(linger time, 9). -/
theorem test_pending_clear_of_an_emptied_schedule :
    then? (.showRow now) (showsLive 0 []) (fun t => t.air.clear = none) = true ∧
    then? (.showRow now) (showsLive 8 []) (fun t => t.air.clear = some 109) = true ∧
    then? (.showRow now) (showsLive 10 []) (fun t => t.air.clear = some 110) = true := by decide +kernel

theorem test_witness_shown_rows :
    MeetsPiece (showsLive 0 []) (fun a => showing a && a.settings.linger = 0 && a.queue = []) ∧
    MeetsPiece (showsLive 200 [liveRow 3 3 0]) (fun a => showing a && a.queue = [liveRow 3 3 0] && topOwner a = some .live &&
      (get a.est 0).estimate = some 1200) ∧
    MeetsPiece (showsCue 2 [.live, .ctx 0] []) (fun a => showing a && (ctxOf a 0).any (fun x => x.slot = 5 && x.next = 2) &&
      cueOf a 5 = some (cueIn .running)) ∧
    MeetsPiece (showsCue 3 [.live, .ctx 0] [entry freshRow 120]) (fun a => a.air.entries.drop 1 = [entry freshRow 120] &&
      a.air.entries.head? = some (entry freshRow 100)) ∧
    MeetsPiece (showsCue 3 [.live, .ctx 0] []) (fun a => showing a && (ctxOf a 0).any (fun x => x.slot = 5 &&
      x.next = (cueIn .running).rowCount && x.fetch = .none) && ctxOf a 1 = none && a.disp.due = [] && a.disp.place ≠ .waiting) ∧
    MeetsPiece (showsCue 3 [.live] []) (fun a => showing a && !a.disp.stack.contains (.ctx 0)) :=
  ⟨meetsPiece (by decide +kernel), meetsPiece (by decide +kernel), meetsPiece (by decide +kernel), meetsPiece (by decide +kernel),
    meetsPiece (by decide +kernel), meetsPiece (by decide +kernel)⟩

/-- The last row of a cue shown: the cue is DONE and off the stack, with one row shown. -/
theorem test_cue_done_at_its_last_show :
    then? (.showRow now) (showsCue 3 [.live, .ctx 0] []) (fun t =>
      cueOf t 5 = some { cueIn .done with shown := 1 } && t.disp.stack = [.live] && ctxOf t 0 = none) = true := by decide +kernel

/-! ### Witnesses: the writes of a pass -/

/-- A part with a pass in flight at a step, cues in slots 5 and 6, and their slots and slot 9's marked for writing. -/
def writing (step : PassStep) (st : CueState) (entries : List Entry) : State :=
  let s := withCue st .none (scanning step)
  { s with
    air := { AirSchedule.reset with entries := entries }
    pe := { s.pe with marks := put (put (put s.pe.marks 5 true) 6 true) 9 true } }

/-- The next write is that of a slot with a cue, or that of the header and the status block. -/
def writesSlot (n : SlotNo) (c : Cue) (terminal : Bool) (t : State) : Bool :=
  decide (t.pe.op = some (.pass false (.slot n (slotWrite n c) terminal false) 0 0 t.clock))

@[inherit_doc writesSlot] def writesStatus (t : State) : Bool :=
  decide (t.pe.op = some (.pass false (.status [(0x10, headerBytes t), (0x200, statusBytes t)]) 0 0 t.clock))

/-- Step 4 passes over a terminal cue with an entry left in the schedule, and over a slot that is not held (R162). -/
theorem test_witness_WriteIssued :
    Meets (writing .header .running []) (fun a => a.pe.op = some (.pass false .header 0 0 10000000)) ∧
    then? (.headerReadComplete now (hostWords 0 0 1288)) (writing .header .running []) (writesSlot 5 (cueIn .running) false) = true ∧
    then? (.headerReadComplete now (hostWords 0 0 1288)) (writing .header .done []) (writesSlot 5 (cueIn .done) true) = true ∧
    then? (.headerReadComplete now (hostWords 0 0 1288)) (writing .header .done [entry freshRow 120])
      (writesSlot 6 (cueIn .armed) false) = true ∧
    then? (.headerReadComplete now (hostWords 0 0 1288)) (scanning .header) writesStatus = true ∧
    then? (.slotWriteComplete now) (writing (.slot 5 (slotWrite 5 (cueIn .running)) false false) .running [])
      (writesSlot 6 (cueIn .armed) false) = true ∧
    then? (.slotWriteComplete now) (writing (.slot 6 (slotWrite 6 (cueIn .armed)) false false) .running []) writesStatus = true ∧
    then? (.cueTableReadComplete now (List.replicate 2048 0)) (writing .cueTable .running [])
      (writesSlot 5 (cueIn .running) false) = true ∧
    then? (.settingsApplication now defaultBlock) (scanning .settings) writesStatus = true :=
  ⟨meets (by decide +kernel), by decide +kernel, by decide +kernel, by decide +kernel, by decide +kernel, by decide +kernel,
    by decide +kernel, by decide +kernel, by decide +kernel⟩

/-! ### Witnesses: lines, live level and silence at an application -/

/-- A block that keeps the writers of a part of the small states, their partners aside, with other bytes changed. -/
def steady (changes : List (Nat × Byte)) : List (Nat × Byte) :=
  (List.finRange 4).flatMap (fun w : Writer => [(0x10 + 8 * w.val, 1), (0x12 + 8 * w.val, 234), (0x13 + 8 * w.val, 0)]) ++ changes

/-- The test that an application of a block moves no port and names no forced lead. -/
def steadies (changes : List (Nat × Byte)) (s : State) : Bool :=
  let new := parseSettings (blockWith (steady changes))
  (List.finRange 4).all (fun w => ((get new.writers w).enable == decide ((portOf s w).mode ≠ .off)) &&
    (get new.writers w).auto = (writerOf s w).auto && (get new.writers w).divisor = (writerOf s w).divisor &&
    (get new.writers w).parity = (writerOf s w).parity) && new.forcedLead = none

theorem movesNoPort_of {changes : List (Nat × Byte)} {s : State} (h : steadies changes s = true) :
    MovesNoPort s (parseSettings (blockWith (steady changes))) := by
  simp only [steadies, Bool.and_eq_true, List.all_eq_true, List.mem_finRange, forall_const, beq_iff_eq, decide_eq_true_eq] at h
  exact ⟨fun w => by rw [(h.1 w).1.1.1, decide_eq_true_eq], fun w => ⟨(h.1 w).1.1.2, (h.1 w).1.2, (h.1 w).2⟩, h.2⟩

/-- A settings application that moves no port, before which and after which the tests hold. -/
def Application (s : State) (changes : List (Nat × Byte)) (test : State → Bool) (after : State → Bool) : Prop :=
  Meets s (fun a => a.pe.op = some (.pass false .settings 0 0 10000000) && isRunning a && test a) ∧
  MovesNoPort s (parseSettings (blockWith (steady changes))) ∧
  then? (.settingsApplication now (blockWith (steady changes))) s after = true

/-- A settings read in flight in a part with an owner stack, the live entry's place, and due cues; slot 5's cue, of level 3,
stands in context 0 where that is stacked. -/
def leveling (stack : List Owner) (place : LivePlace) (due : List SlotNo) : State :=
  let s := withCue .due .none (scanning .settings)
  { s with disp := { s.disp with
      stack := stack, place := place, due := due, ctx := if stack.contains (.ctx 0) then s.disp.ctx else Vector.replicate 2 none } }

/-- The live level 5, over the applied 2. -/
def level5 : List (Nat × Byte) := [(0x0E, 5), (0x54, 0)]

theorem test_witness_LevelTaken :
    Application (leveling [.live] .inStack []) [(0x54, 0)] (fun a => a.settings.liveLevel = 2) (fun t => t.settings.liveLevel = 2) ∧
    Application (leveling [.live, .ctx 0] .inStack []) level5 (fun a => a.disp.stack.length = 2) (fun t =>
      t.settings.liveLevel = 2 && t.disp.pendingLevel = some 5) ∧
    Application (leveling [.live] .inStack []) level5 (fun a => a.disp.stack.length = 1 && a.disp.place ≠ .waiting && a.disp.due = [])
      (fun t => t.settings.liveLevel = 5) ∧
    Application (leveling [.live] .inStack [5]) [(0x0E, 1), (0x54, 0)] (fun a => a.disp.due = [5] && (cueOf a 5).isSome) (fun t =>
      t.disp.stack = [.live, .ctx 0]) ∧
    Application (leveling [] .waiting []) level5 (fun a => a.disp.stack = [] && a.disp.place = .waiting) (fun t =>
      t.disp.stack = [.live]) ∧
    Application (leveling [.ctx 0] .waiting []) [(0x0E, 1), (0x54, 0)] (fun a => a.disp.stack = [.ctx 0] && (ctxOf a 0).isSome)
      (fun t => t.disp.stack = [.live, .ctx 0]) ∧
    Application (leveling [.ctx 0] .waiting []) [(0x0E, 3), (0x54, 0)] (fun a => a.disp.stack = [.ctx 0] && (ctxOf a 0).isSome)
      (fun t => t.disp.stack = [.ctx 0]) :=
  ⟨⟨meets (by decide +kernel), movesNoPort_of (by decide +kernel), by decide +kernel⟩,
    ⟨meets (by decide +kernel), movesNoPort_of (by decide +kernel), by decide +kernel⟩,
    ⟨meets (by decide +kernel), movesNoPort_of (by decide +kernel), by decide +kernel⟩,
    ⟨meets (by decide +kernel), movesNoPort_of (by decide +kernel), by decide +kernel⟩,
    ⟨meets (by decide +kernel), movesNoPort_of (by decide +kernel), by decide +kernel⟩,
    ⟨meets (by decide +kernel), movesNoPort_of (by decide +kernel), by decide +kernel⟩,
    ⟨meets (by decide +kernel), movesNoPort_of (by decide +kernel), by decide +kernel⟩⟩

/-- A settings read in flight with writer 0, LEAD, silent since 250 frames, and writer 1's port in a mode. -/
def stilled (partner : PortMode) (s : State) : State :=
  { s with
    pe := (scanning .settings).pe
    ports := put (put s.ports 0 { get s.ports 0 with silence := 250 }) 1 { get s.ports 1 with mode := partner }
    lastOnset := Vector.replicate 2 (some (stampNow s)) }

/-- The changes of a block that map writer 0 to VOX0 and name its partner. -/
def relayed (partner : Byte) : List (Nat × Byte) := [(0x15, 0), (0x16, partner)]

/-- The state that the silence test of an application judges: the lead is silent with the settings it has taken. -/
def judged (s t : State) : Bool := silent0 { s with settings := t.settings, capture := t.capture }

theorem test_witness_SilenceJudged :
    Application (stilled .run (live 50250)) [(0x54, 0)] (fun a => a.la.lead = some 0) (fun t => t.settings.silenceFrames = 0) ∧
    Application (stilled .run (handing 3 (live 50250))) (relayed 0xFF) (fun a => a.la.handoff = some { taker := 1, waited := 3 } &&
      (portOf a 1).silence < 250) (fun t => judged (stilled .run (handing 3 (live 50250))) t && t.la.lead = some 1) ∧
    Application (stilled .run (live 50250)) (relayed 1) (fun a => a.la.handoff = none && (portOf a 1).mode = .run) (fun t =>
      judged (stilled .run (live 50250)) t && t.la.lead = some 1) ∧
    Application (stilled .resync (live 50250)) (relayed 1) (fun a => a.la.handoff = none && (portOf a 1).mode ≠ .run &&
      !a.la.silenceReported) (fun t => judged (stilled .resync (live 50250)) t && t.la.lead = some 0 && t.la.silenceReported) :=
  ⟨⟨meets (by decide +kernel), movesNoPort_of (by decide +kernel), by decide +kernel⟩,
    ⟨meets (by decide +kernel), movesNoPort_of (by decide +kernel), by decide +kernel⟩,
    ⟨meets (by decide +kernel), movesNoPort_of (by decide +kernel), by decide +kernel⟩,
    ⟨meets (by decide +kernel), movesNoPort_of (by decide +kernel), by decide +kernel⟩⟩

/-- The filter of line 0, whose sample period changes, restarts at its raw level; line 1's, unchanged, stays (R57). -/
theorem test_filter_restarts_with_its_line :
    let c : Capture := { filtered := true, steps := 2, candidates := 1, candStamp := some 3, captures := 7 }
    then? (.settingsApplication now (blockWith [(0x31, 2)])) { scanning .settings with capture := Vector.replicate 6 c } (fun t =>
      get t.capture 0 = { filtered := false, steps := 0, candidates := 0, candStamp := none, captures := 7 } &&
      get t.capture 1 = c) = true := by decide +kernel

/-! ### Witnesses: what every command keeps -/

theorem test_witness_OnlyWriteCompletionsChangeHostMemory :
    then? (.tickStep now) (live 0) (fun _ => true) = true := by decide +kernel

theorem test_witness_RecordsAndFlagsStay :
    (Instr.tickStep now).wellFormed = true ∧ then? (.tickStep now) (live 0) (fun _ => true) = true := by decide +kernel

theorem test_witness_SafeStates : Safe (live 0) ∧ then? (.referencePulse (later 540000)) (live 0) (fun _ => true) = true := by
  refine ⟨⟨⟨by decide +kernel, by decide +kernel, by decide +kernel, by decide +kernel, by decide +kernel, by decide +kernel⟩,
    (fun h => nomatch h), ⟨⟨by decide +kernel, ?_, by decide +kernel⟩, by decide +kernel, (fun h => nomatch h), fun _ h => nomatch h⟩⟩,
    by decide +kernel⟩
  intro w
  refine ⟨fun h => ?_, fun ⟨_, h, _⟩ => nomatch h⟩
  revert h w
  decide +kernel

end Sys2Proof.Tests
end

