-- ==== Sys2Proof/Proofs/Time.lean ====
section
/-! The words of the timebase: R13's comparisons and sums as arithmetic on natural numbers, the sub-frame tick of R4 and the
thresholds of R1, with the reset values. -/

namespace Sys2Proof.Machine

/-! ### Arithmetic on time (R13) -/

/-- The distance R13 compares, in the spec's own modular form. -/
theorem frame_sub_toNat (a b : Frame) : (a - b).toNat = (2 ^ 28 - b.toNat + a.toNat) % 2 ^ 28 := BitVec.toNat_sub a b

theorem stamp_sub_toNat (a b : Stamp) : (a - b).toNat = (2 ^ 32 - b.toNat + a.toNat) % 2 ^ 32 := BitVec.toNat_sub a b

theorem atOrAfter_iff (a b : Frame) : atOrAfter a b = true ↔ (a - b).toNat ≤ 2 ^ 27 - 1 := by
  simp [atOrAfter]

theorem later_iff (a b : Frame) : later a b = true ↔ 1 ≤ (a - b).toNat ∧ (a - b).toNat ≤ 2 ^ 27 - 1 := by
  simp [later]

theorem atOrBefore_iff (a b : Frame) : atOrBefore a b = true ↔ later a b = false := by simp [atOrBefore]

theorem before_iff (a b : Frame) : before a b = true ↔ atOrAfter a b = false := by simp [before]

/-- The latest of a list longer by one item: the new item where it is later than the item kept (R13). -/
theorem latestOf_append (a : Frame) (rest : List Frame) (b : Frame) :
    latestOf (a :: (rest ++ [b])) = if later b (latestOf (a :: rest)) then b else latestOf (a :: rest) :=
  List.foldl_append

/-- A difference of tick stamps below half the range is itself, and another is negative (R13). -/
theorem tickDiff_eq (a b : Stamp) :
    tickDiff a b = if (a - b).toNat < 2 ^ 31 then ((a - b).toNat : Int) else ((a - b).toNat : Int) - 4294967296 := by
  rw [tickDiff, BitVec.toInt_eq_toNat_cond]
  split <;> split <;> omega

theorem frameOf_toNat (t : Stamp) : (frameOf t).toNat = ((t.toNat + 8) % 2 ^ 32) / 16 % 2 ^ 28 := by
  simp [frameOf]

theorem addFrames_toNat (f : Frame) (n : Nat) : (addFrames f n).toNat = (f.toNat + n) % 2 ^ 28 := by
  simp [addFrames]

theorem stampOf_toNat (f : Frame) (tick : Nat) : (stampOf f tick).toNat = (16 * f.toNat + tick) % 2 ^ 32 := by
  simp [stampOf]

/-- Settles O20. Every clause is one of the equations above, with the distance written as R13 writes it. -/
theorem framesCompareAcrossTheWrap : Obligations.FramesCompareAcrossTheWrap := by
  simp only [Obligations.FramesCompareAcrossTheWrap, ← frame_sub_toNat, ← stamp_sub_toNat]
  refine ⟨atOrAfter_iff, later_iff, fun a b => ?_, fun a b => ?_, fun a b h => ⟨?_, ?_⟩, fun _ => rfl, latestOf_append,
    fun a b => ?_, frameOf_toNat, by decide, by decide, addFrames_toNat, stampOf_toNat, fun _ _ => rfl⟩
  · rw [atOrBefore_iff, ← Bool.not_eq_true, later_iff]
    omega
  · rw [before_iff, ← Bool.not_eq_true, atOrAfter_iff]
    omega
  · rw [← Bool.not_eq_true, atOrAfter_iff]
    omega
  · have back : (b - a).toNat = 2 ^ 27 := by
      rw [frame_sub_toNat] at h ⊢
      omega
    rw [← Bool.not_eq_true, atOrAfter_iff]
    omega
  · rw [tickDiff_eq]
    exact ⟨fun h => by rw [if_pos h]; rfl, fun h => by rw [if_neg (by omega)]; rfl⟩

/-! ### Ticks and thresholds (R1, R4) -/

/-- The tick with an origin (R4). -/
theorem subTick_of_origin {s : State} {o : Nat} (h : s.tb.origin = some o) :
    subTick s = max s.tb.heldTick (min 15 (16 * (s.clock - o) / framePeriod s)) := by
  simp [subTick, h]

/-- The tick without an origin is the held tick (R4). -/
theorem subTick_of_noOrigin {s : State} (h : s.tb.origin = none) : subTick s = s.tb.heldTick := by
  simp [subTick, h]

theorem heldTick_le_subTick (s : State) : s.tb.heldTick ≤ subTick s := by
  cases h : s.tb.origin with
  | none => exact (subTick_of_noOrigin h).ge
  | some o => exact subTick_of_origin h ▸ le_max_left _ _

theorem subTick_le (s : State) (h : s.tb.heldTick ≤ 15) : subTick s ≤ 15 := by
  cases e : s.tb.origin with
  | none => exact (subTick_of_noOrigin e).trans_le h
  | some o => exact subTick_of_origin e ▸ max_le h (min_le_left _ _)

/-- The tick does not fall as time passes within a frame (R4). -/
theorem subTick_mono (s : State) (d : Nat) : subTick s ≤ subTick { s with clock := s.clock + d } := by
  cases e : s.tb.origin with
  | none => rw [subTick_of_noOrigin e, subTick_of_noOrigin (by exact e)]
  | some o =>
    rw [subTick_of_origin e, subTick_of_origin (o := o) (by exact e)]
    have passed : 16 * (s.clock - o) / framePeriod s ≤ 16 * (s.clock + d - o) / framePeriod s :=
      Nat.div_le_div_right (by omega)
    exact max_le_max (le_refl _) (min_le_min (le_refl _) passed)

/-- A tick that is handed out is the tick that is read again (R4). -/
theorem subTick_held (s : State) : subTick { s with tb := { s.tb with heldTick := subTick s } } = subTick s := by
  cases e : s.tb.origin with
  | none => rw [subTick_of_noOrigin (by exact e)]
  | some o =>
    rw [subTick_of_origin (o := o) (by exact e)]
    refine max_eq_left ?_
    rw [subTick_of_origin e]
    exact le_max_right _ _

theorem framePeriod_of_code (s : State) :
    (s.settings.rateCode = 0 → framePeriod s = 1080000) ∧ (s.settings.rateCode = 1 → framePeriod s = 900900) ∧
    (s.settings.rateCode = 2 → framePeriod s = 540000) ∧ (s.settings.rateCode = 3 → framePeriod s = 450450) := by
  refine ⟨?_, ?_, ?_, ?_⟩ <;> intro h <;> rw [framePeriod, h] <;> rfl

/-- The frame period is one of R1's four. -/
theorem framePeriod_mem (s : State) : framePeriod s ∈ [1080000, 900900, 540000, 450450] := by
  unfold framePeriod periodOf
  split <;> decide

/-- Half a period after the origin, with no tick handed out, the tick is 8 (R4, R7). -/
theorem subTick_half {s : State} {o : Nat} (began : s.tb.origin = some o) (held : s.tb.heldTick = 0)
    (half : s.clock = o + framePeriod s / 2) : subTick s = 8 := by
  rw [subTick_of_origin began, held, half, Nat.add_sub_cancel_left]
  have periods := framePeriod_mem s
  generalize framePeriod s = p at periods ⊢
  fin_cases periods <;> rfl

/-- Settles O12. -/
theorem thresholdsAndTicks : Obligations.ThresholdsAndTicks := by
  refine ⟨fun s => ?_, subTick_mono, subTick_le, fun s => ⟨heldTick_le_subTick s, subTick_held s⟩⟩
  obtain ⟨p0, p1, p2, p3⟩ := framePeriod_of_code s
  refine ⟨fun h => ?_, fun h => ?_, fun h => ?_, fun h => ?_⟩
  · simp +contextual [fieldLimit, lossCounts, glitchLimit, pulsePeriod, p0 h]
  · simp +contextual [fieldLimit, lossCounts, glitchLimit, pulsePeriod, p1 h]
  · simp +contextual [fieldLimit, lossCounts, glitchLimit, pulsePeriod, p2 h]
  · simp +contextual [fieldLimit, lossCounts, glitchLimit, pulsePeriod, p3 h]

/-! ### Reset -/

/-- Settles O2. Each table of the reset state repeats one reset record, and every other field is the value itself. -/
theorem resetStateHoldsTheSpecValues : Obligations.ResetStateHoldsTheSpecValues := by
  have ports (w : Writer) : portOf State.reset w = Port.reset := get_replicate ..
  have builders (w : Writer) : builderOf State.reset w = Builder.reset := get_replicate ..
  have capture (i : LineNo) : get State.reset.capture i = Capture.reset false := get_replicate ..
  have est (w : Writer) : get State.reset.est w = Estimator.reset := get_replicate ..
  refine ⟨⟨rfl, rfl, rfl, rfl, rfl⟩, rfl, fun w => ?_, fun w => get_replicate .., fun w => ?_, ⟨rfl, rfl⟩, fun i => ?_,
    fun v => ⟨get_replicate .., get_replicate ..⟩, fun w => ?_, ⟨rfl, fun w => get_replicate .., rfl, rfl⟩,
    ⟨rfl, rfl, fun b => get_replicate .., rfl, rfl, rfl⟩,
    ⟨rfl, rfl, rfl, fun n => get_replicate .., rfl, rfl, fun i => get_replicate .., fun k => get_replicate ..⟩,
    ⟨rfl, rfl, fun b => get_replicate .., rfl, rfl⟩, ?_,
    ⟨rfl, rfl, rfl, rfl, rfl, rfl, rfl, rfl⟩, fun w => get_replicate .., fun i => get_replicate ..,
    ⟨rfl, rfl, rfl, rfl, rfl, rfl, rfl, rfl⟩, ⟨rfl, rfl, rfl, rfl, rfl, rfl, rfl, rfl⟩⟩
  · rw [ports]
    exact ⟨rfl, rfl, rfl, rfl, rfl, rfl, rfl⟩
  · rw [builders]
    exact ⟨rfl, rfl, rfl, rfl, rfl⟩
  · rw [capture]
    exact ⟨rfl, rfl, rfl, rfl⟩
  · rw [est]
    exact ⟨rfl, rfl⟩
  · exact ⟨rfl, rfl, rfl, rfl, rfl, rfl, rfl, rfl, rfl, rfl, rfl, fun n => get_replicate .., rfl, rfl, rfl, rfl, rfl⟩

end Sys2Proof.Machine
end

