-- ==== Sys2Proof/Proofs/Staging.lean ====
section
/-! Staging (R143, R144): the units that the encoder stages are those of the relation Stages, and nothing but the schedule's
entries, the staging cursor and the completion frames changes by it. -/

namespace Sys2Proof.Machine

/-- The state in which staging has come to q. -/
def staged (q : Staging) (s : State) : State :=
  { s with
    air := { s.air with entries := q.entries }
    out := { s.out with cursor := q.cursor, completion := q.completion } }

@[simp] theorem staged_stagingOf (s : State) : staged (stagingOf s) s = s := rfl

@[simp] theorem stagingOf_entries (s : State) : (stagingOf s).entries = s.air.entries := rfl

/-- The item that a search from the end of a list finds, told by where it stands. -/
theorem find?_reverse_eq_some_iff {α : Type} (p : α → Bool) (l : List α) (r : α) :
    l.reverse.find? p = some r ↔ p r = true ∧ ∃ older newer, l = older ++ r :: newer ∧ ∀ x ∈ newer, p x = false := by
  rw [List.find?_eq_some_iff_append]
  refine and_congr_right fun _ => ⟨fun ⟨front, back, split, miss⟩ => ⟨back.reverse, front.reverse, ?_, ?_⟩,
    fun ⟨older, newer, split, miss⟩ => ⟨newer.reverse, older.reverse, ?_, ?_⟩⟩
  · rw [← l.reverse_reverse, split]
    simp
  · simpa using miss
  · simp [split]
  · simpa using miss

/-- The buffer of the first WAITING entry is ready exactly where R144 has it free. -/
theorem bufferReady_iff {s : State} {front back : List Entry} {e : Entry} (split : s.air.entries = front ++ e :: back)
    (sent : ∀ x ∈ front, x.sent ≠ 0) (waits : e.sent = 0) :
    bufferReady e s = true ↔ BufferFree s.tb.frame s.out.mirror front e := by
  have ahead : s.air.entries.takeWhile (fun x => !isWaiting x) = front := by
    rw [split, List.takeWhile_append_of_pos (by simpa [isWaiting] using sent)]
    simp [isWaiting, waits]
  rw [bufferReady, ahead, Bool.and_eq_true]
  constructor
  · rintro ⟨apart, last⟩
    refine ⟨by simpa using apart, fun older r newer cut own others => ?_⟩
    have found := (find?_reverse_eq_some_iff (fun r : MirrorRow => r.buffer == e.buffer) s.out.mirror r).mpr
      ⟨by simpa using own, older, newer, cut, by simpa using others⟩
    simpa [found] using last
  · rintro ⟨apart, shown⟩
    refine ⟨by simpa using apart, ?_⟩
    split
    · rename_i r found
      obtain ⟨own, older, newer, cut, others⟩ := (find?_reverse_eq_some_iff _ _ _).mp found
      simpa using shown older r newer cut (by simpa using own) (by simpa using others)
    · rfl

/-- What staging works on after n more units of the entry e, which the cursor id names, in the slot of frame (R143). -/
def unitsTaken (frame : Frame) (id : Word32) (e : Entry) (n : Nat) (p : Staging) : Staging :=
  if e.row.text.length + 2 ≤ e.sent + n then
    { entries := raised id n p.entries, cursor := none, completion := put p.completion e.buffer (some frame) }
  else { p with entries := raised id n p.entries }

/-- What staging works on after the first two units of the entry e (R143). -/
def unitsBegun (e : Entry) (p : Staging) : Staging :=
  { p with entries := raised e.row.id 2 p.entries, cursor := some e.row.id }

/-- A round of staging in which the row in staging goes on. -/
theorem stageUnits_goesOn {s : State} {id : Word32} {e : Entry} (fuel budget : Nat) (cursor : s.out.cursor = some id)
    (found : s.air.entries.find? (fun e => e.row.id == id) = some e) {n : Nat}
    (taken : n = min budget (e.row.text.length + 2 - e.sent)) :
    stageUnits (fuel + 1) budget s =
      let more := stageUnits fuel (budget - n) (staged (unitsTaken s.tb.frame id e n (stagingOf s)) s)
      ((e.row.text.drop (e.sent - 2)).take n ++ more.1, more.2) := by
  have after : (if e.row.text.length + 2 ≤ e.sent + n then stagingDone e.buffer (sendUnits id n s) else sendUnits id n s) =
      staged (unitsTaken s.tb.frame id e n (stagingOf s)) s := by
    unfold unitsTaken
    split <;> rfl
  rw [stageUnits, cursor]
  simp only [found, ← taken, after]

/-- A round of staging in which the first WAITING entry begins. -/
theorem stageUnits_begins {s : State} {e : Entry} (fuel budget : Nat) (cursor : s.out.cursor = none)
    (found : s.air.entries.find? isWaiting = some e) (go : (bufferReady e s && decide (2 ≤ budget)) = true) :
    stageUnits (fuel + 1) budget s =
      let more := stageUnits fuel (budget - 2) (staged (unitsBegun e (stagingOf s)) s)
      (unitStage e.buffer :: unitLength e.row.text.length :: more.1, more.2) := by
  rw [stageUnits, cursor]
  simp only [found, go, if_true]
  rfl

/-- The rounds left are enough: no budget is left, or each round but that which completes a row spends some of it. -/
def RoundsSuffice (fuel budget : Nat) (cursor : Option Word32) : Prop :=
  budget = 0 ∨ budget + (if cursor.isSome then 1 else 0) ≤ fuel

theorem RoundsSuffice.goesOn {fuel budget n : Nat} {id : Word32} {frame : Frame} {e : Entry} {p : Staging}
    (rounds : RoundsSuffice (fuel + 1) budget (some id)) (taken : n = min budget (e.row.text.length + 2 - e.sent)) :
    RoundsSuffice fuel (budget - n) (unitsTaken frame id e n p).cursor := by
  rcases rounds with spent | few
  · exact .inl (by omega)
  · simp only [Option.isSome_some, if_true] at few
    unfold unitsTaken RoundsSuffice
    split
    · exact .inr (by simp only [Option.isSome_none, Bool.false_eq_true, if_false]; omega)
    · exact .inl (by omega)

theorem RoundsSuffice.begins {fuel budget : Nat} (rounds : RoundsSuffice (fuel + 1) budget none) (room : 2 ≤ budget)
    (id : Word32) : RoundsSuffice fuel (budget - 2) (some id) := by
  rcases rounds with spent | few
  · exact .inl (by omega)
  · simp only [Option.isSome_none, Bool.false_eq_true, if_false] at few
    exact .inr (by simp only [Option.isSome_some, if_true]; omega)

/-- The units staged, with enough rounds, are those of R143, and no more than what staging works on changes. -/
theorem stageUnits_stages (fuel budget : Nat) (s : State) (rounds : RoundsSuffice fuel budget s.out.cursor) :
    ∃ q, (stageUnits fuel budget s).2 = staged q s ∧
      Stages s.tb.frame s.out.mirror budget (stagingOf s) (stageUnits fuel budget s).1 q := by
  induction fuel generalizing budget s with
  | zero =>
    obtain rfl : budget = 0 := by
      rcases rounds with spent | few
      · exact spent
      · omega
    exact ⟨stagingOf s, rfl, .spent _⟩
  | succ fuel ih =>
    cases cursor : s.out.cursor with
    | some id =>
      rw [cursor] at rounds
      cases found : s.air.entries.find? (fun e => e.row.id == id) with
      | none =>
        have absent : ∀ e ∈ (stagingOf s).entries, e.row.id ≠ id := by simpa using List.find?_eq_none.mp found
        exact ⟨stagingOf s, by simp [stageUnits, cursor, found], by
          simpa [stageUnits, cursor, found] using .unnamed budget _ id cursor absent⟩
      | some e =>
        obtain ⟨own, front, back, split, others⟩ := List.find?_eq_some_iff_append.mp found
        generalize taken : min budget (e.row.text.length + 2 - e.sent) = n
        obtain ⟨q, after, units⟩ := ih (budget - n) (staged (unitsTaken s.tb.frame id e n (stagingOf s)) s)
          (rounds.goesOn taken.symm)
        rw [stageUnits_goesOn fuel budget cursor found taken.symm]
        exact ⟨q, after, .goesOn budget _ q id front e back n _ cursor split (by simpa using others) (by simpa using own)
          taken.symm units⟩
    | none =>
      rw [cursor] at rounds
      cases found : s.air.entries.find? isWaiting with
      | none =>
        have sent : ∀ e ∈ (stagingOf s).entries, e.sent ≠ 0 := by simpa [isWaiting] using List.find?_eq_none.mp found
        exact ⟨stagingOf s, by simp [stageUnits, cursor, found], by
          simpa [stageUnits, cursor, found] using .noneWaits budget _ cursor sent⟩
      | some e =>
        obtain ⟨first, front, back, split, others⟩ := List.find?_eq_some_iff_append.mp found
        have waits : e.sent = 0 := by simpa [isWaiting] using first
        have sent : ∀ x ∈ front, x.sent ≠ 0 := by simpa [isWaiting] using others
        have ready := bufferReady_iff split sent waits
        cases go : bufferReady e s && decide (2 ≤ budget) with
        | true =>
          obtain ⟨free, room⟩ : bufferReady e s = true ∧ 2 ≤ budget := by simpa using go
          obtain ⟨q, after, units⟩ := ih (budget - 2) (staged (unitsBegun e (stagingOf s)) s) (rounds.begins room _)
          rw [stageUnits_begins fuel budget cursor found go]
          exact ⟨q, after, .begins budget _ q front e back _ cursor split sent waits (ready.mp free) room units⟩
        | false =>
          have stop : ¬BufferFree s.tb.frame s.out.mirror front e ∨ budget < 2 := by
            rw [← ready]
            by_contra both
            push Not at both
            simp [both.1, both.2] at go
          exact ⟨stagingOf s, by simp [stageUnits, cursor, found, go], by
            simpa [stageUnits, cursor, found, go] using .heldBack budget _ front e back cursor split sent waits stop⟩

/-- The slot that follows a command unit: staging from what the command left, then all of it sent (R141, R143, R187). -/
theorem sendSlot_sent (command : List Byte) (s : State) :
    ∃ q units, stageUnits s.settings.slotUnits (s.settings.slotUnits - 1) s = (units, staged q s) ∧
      SlotSent s.tb.frame s.settings.slotUnits command (stagingOf s) q (sendSlot (command ++ units) (staged q s)).out := by
  have rounds : RoundsSuffice s.settings.slotUnits (s.settings.slotUnits - 1) s.out.cursor := by
    unfold RoundsSuffice
    split <;> omega
  obtain ⟨q, after, units⟩ := stageUnits_stages _ _ s rounds
  refine ⟨q, _, Prod.ext rfl after, _, units, ?_, ?_, rfl, rfl⟩
  · simp [sendSlot, slotMark, unitLength]
  · simp [sendSlot]

end Sys2Proof.Machine
end

