-- ==== Sys2Proof/Proofs/Placing.lean ====
section
/-! What a record that is made leaves as it was, and the offer of a row to the schedule (R101 to R110): the place that it is
given, and the entry or the drop that follows. -/

namespace Sys2Proof.Machine

/-! ### Records that are made -/

@[simp] theorem journal_air (r : Record) (s : State) : (journal r s).air = s.air := by
  unfold journal; split <;> rfl

@[simp] theorem journal_disp (r : Record) (s : State) : (journal r s).disp = s.disp := by
  unfold journal; split <;> rfl

@[simp] theorem journal_counters (r : Record) (s : State) : (journal r s).counters = s.counters := by
  unfold journal; split <;> rfl

@[simp] theorem journal_marks (r : Record) (s : State) : (journal r s).pe.marks = s.pe.marks := by
  unfold journal; split <;> rfl

/-- A record that is made is in the buffer, or the buffer is full and JOURNAL_LOST is set (R165). -/
theorem journal_recorded (r : Record) (s : State) : Recorded (journal r s) r := by
  rcases journal_cases r s with ⟨_, e⟩ | ⟨full, e⟩ <;> rw [e]
  · exact .inl ⟨_, List.mem_append_right _ (List.mem_singleton_self _), rfl⟩
  · exact .inr ⟨full, raise_set _ _⟩

/-- A record that has been made stays made while no record leaves the buffer and no flag is cleared. -/
theorem Recorded.mono {s t : State} {r : Record} (h : Recorded s r) (kept : RecordsKept s t) : Recorded t r := by
  rcases h with ⟨j, made, own⟩ | ⟨full, lost⟩
  · obtain ⟨rest, e⟩ := kept.buffer
    exact .inl ⟨j, e ▸ List.mem_append_left _ made, own⟩
  · exact .inr ⟨by rwa [kept.full full], kept.flags _ lost⟩

/-- A record that is made is the first behind those of s, whatever is made after it (R165). -/
theorem journaled_of_kept {s t : State} {r : Record} (kept : RecordsKept (journal r s) t) : Journaled s t s.tb.frame r := by
  obtain ⟨rest, later⟩ := kept.buffer
  rcases journal_cases r s with ⟨room, e⟩ | ⟨full, e⟩
  · refine ⟨fun _ => ⟨rest, ?_⟩, fun full => absurd room (by omega)⟩
    rw [later, e]
    simp
  · refine ⟨fun room => absurd room (by omega), fun _ => ⟨?_, kept.flags _ (e ▸ raise_set _ _)⟩⟩
    rw [kept.full (by rw [e]; exact full), e]
    rfl

/-! ### The place of a row (R103, R104, R106) -/

theorem effectiveFree_eq (s : State) (b : BufferNo) : effectiveFree s b = freeFrame s b := by
  unfold effectiveFree freeFrame
  cases get s.air.bufFree b with
  | none => rfl
  | some f => cases h : later f s.tb.frame <;> simp [Option.filter, h]

/-- The frames from the present frame to the one at which a buffer is free. -/
def freeIn (s : State) (b : BufferNo) : Nat := (freeFrame s b - s.tb.frame).toNat

/-- A buffer is free at the present frame or later: less than half the range ahead (R103). -/
theorem freeIn_le (s : State) (b : BufferNo) : freeIn s b ≤ 2 ^ 27 - 1 := by
  unfold freeIn freeFrame
  cases get s.air.bufFree b with
  | none => simp
  | some f =>
    cases h : later f s.tb.frame with
    | false => simp [Option.filter, h]
    | true => simpa [Option.filter, h] using ((later_iff _ _).mp h).2

/-- So effective free frames are ordered as their distances from the present frame. -/
theorem later_freeFrame (s : State) (a b : BufferNo) :
    later (freeFrame s a) (freeFrame s b) = decide (freeIn s b < freeIn s a) := by
  have ha := freeIn_le s a
  have hb := freeIn_le s b
  rw [Bool.eq_iff_iff, later_iff, decide_eq_true_iff]
  unfold freeIn at ha hb ⊢
  generalize freeFrame s a = x at *
  generalize freeFrame s b = y at *
  bv_omega

/-- The search along a rising list for the least value, which keeps the lowest of those that tie. -/
theorem foldl_least (d : BufferNo → Nat) (l : List BufferNo) (k : BufferNo) (rising : (k :: l).Pairwise (· < ·)) :
    let least := l.foldl (fun kept b => if d b < d kept then b else kept) k
    (∀ b ∈ k :: l, d least ≤ d b) ∧ ∀ b ∈ k :: l, b < least → d least < d b := by
  induction l generalizing k with
  | nil => simp
  | cons x rest ih =>
    obtain ⟨below, more⟩ := List.pairwise_cons.mp rising
    simp only [List.foldl_cons, List.forall_mem_cons]
    by_cases less : d x < d k
    · rw [if_pos less]
      obtain ⟨⟨least, others⟩, lowest⟩ := (ih x more).imp_left List.forall_mem_cons.mp
      exact ⟨⟨by omega, least, others⟩, fun _ => by omega, List.forall_mem_cons.mp lowest⟩
    · rw [if_neg less]
      have skip : (k :: rest).Pairwise (· < ·) := rising.sublist (.cons_cons k (.cons x (.refl rest)))
      obtain ⟨⟨least, others⟩, ⟨lowest, lower⟩⟩ := (ih k skip).imp List.forall_mem_cons.mp List.forall_mem_cons.mp
      have ahead := below x List.mem_cons_self
      exact ⟨⟨least, by omega, others⟩, lowest, fun past => by have := lowest (ahead.trans past); omega, lower⟩

/-- The buffer chosen is free earliest, and the lowest of those that tie (R103). -/
theorem chooseBuffer_earliest (s : State) :
    (∀ b, freeIn s (chooseBuffer s) ≤ freeIn s b) ∧ ∀ b, b < chooseBuffer s → freeIn s (chooseBuffer s) < freeIn s b := by
  have search : chooseBuffer s =
      ([1, 2, 3] : List BufferNo).foldl (fun kept b => if freeIn s b < freeIn s kept then b else kept) 0 := by
    simp only [chooseBuffer, effectiveFree_eq, later_freeFrame, decide_eq_true_eq]
  obtain ⟨least, lowest⟩ := foldl_least (freeIn s) [1, 2, 3] 0 (by decide)
  have every (b : BufferNo) : b ∈ ([0, 1, 2, 3] : List BufferNo) := by revert b; decide
  rw [search]
  exact ⟨fun b => least b (every b), fun b => lowest b (every b)⟩

/-- The hold floor that the model computes is R106's. -/
theorem holdFloor_isFloor (s : State) : HoldFloor s (holdFloor s) := by
  refine ⟨fun front e split => ?_, fun empty older r split => ?_, fun empty nothing => ?_⟩
  · simp [holdFloor, split, addFrames]
  · have floor : holdFloor s =
        if !r.past && decide ((s.tb.frame - r.showAt).toNat ≤ r.hold) then some (addFrames r.showAt r.hold)
        else none := by
      rw [holdFloor, empty, split, List.getLast?_nil, List.getLast?_concat]
      rfl
    refine ⟨fun shown recent => ?_, fun gone => ?_⟩
    · rw [floor, shown, decide_eq_true recent]
      rfl
    · rw [floor, if_neg]
      rcases gone with past | long
      · simp [past]
      · rw [decide_eq_false (by omega)]
        simp
  · simp [holdFloor, empty, nothing]

/-- The place that a placement names. -/
def placeOf (p : Placement) : Place :=
  { buffer := p.buffer, start := p.stageStart, stagedBy := p.stagedBy, showAt := p.showAt, lag := p.lag }

/-- The place that the model computes is R103's, R104's, R106's and R107's. -/
theorem placeRow_placedAt (r : Row) (s : State) :
    PlacedAt s r.text.length (idealFrame r s).2 (placeOf (placeRow r s)) := by
  have chosen := chooseBuffer_earliest s
  refine ⟨fun b => ?_, fun b lower same => ?_, ?_, ⟨rfl, holdFloor s, holdFloor_isFloor s, rfl⟩, rfl⟩
  · rw [later_freeFrame, decide_eq_false_iff_not, not_lt]
    exact chosen.1 b
  · have less := chosen.2 b lower
    unfold freeIn at less
    rw [same] at less
    exact absurd less (lt_irrefl _)
  · show latestOf (s.air.horizon.toList ++ [addFrames s.tb.frame 1, effectiveFree s (chooseBuffer s)]) = _
    rw [effectiveFree_eq]
    rfl

/-! ### The offer of a row -/

theorem isStale_iff (lag : Nat) (s : State) : isStale lag s = true ↔ Stale s lag := by simp [isStale, Stale]

theorem not_stale_iff (lag : Nat) (s : State) : isStale lag s = false ↔ InTime s lag := by
  rw [← Bool.not_eq_true, isStale_iff, Stale, InTime]
  omega

/-- A row that is in time enters (R109). -/
theorem offerRow_enters {r : Row} {s : State} (h : isStale (placeRow r s).lag s = false) :
    (offerRow r s).1 = enterRow r (placeRow r s) s := by
  simp [offerRow, h]

/-- A stale row is counted and journaled (R108). -/
theorem offerRow_drops {r : Row} {s : State} (h : isStale (placeRow r s).lag s = true) :
    (offerRow r s).1 = journal (.rowDropped r .stale (some (placeRow r s).ideal) (some (placeRow r s).showAt)
      (placeRow r s).lag) (countDropped r s) := by
  simp [offerRow, h]

/-- A row that enters is in the schedule at its place (R97, R107, R109). -/
theorem enterRow_entered (r : Row) (s : State) (rest : List Row) :
    Entered s (enterRow r (placeRow r s) { s with queue := rest }) r (idealFrame r s).2 (placeOf (placeRow r s))
      (entryOf r (placeRow r s) s) :=
  ⟨⟨rfl, rfl, rfl⟩, ⟨rfl, rfl, rfl, rfl⟩, rfl, rfl⟩

/-- The catch-up state after the entry of a live row (R110). -/
theorem catchupAfter_cases (s : State) (lag : Nat) :
    (s.settings.catchAbove = 0 → catchupAfter s lag = false) ∧
    (s.settings.catchAbove ≠ 0 → s.air.catchup = false → catchupAfter s lag = decide (s.settings.catchAbove < lag)) ∧
    (s.settings.catchAbove ≠ 0 → s.air.catchup = true → catchupAfter s lag = decide (s.settings.catchAbove / 2 < lag)) := by
  simp +contextual [catchupAfter]

/-- The hold of a live row (R105). -/
theorem rowHold_live {r : Row} {w : Writer} {arrival : Stamp} {reason : CloseReason} {mark : Bool}
    (live : r.source = .live w arrival reason mark) (catchup : Bool) (s : State) :
    rowHold r catchup s =
      let base := if catchup then s.settings.holdBase / 2 else s.settings.holdBase
      let char := if catchup then s.settings.holdChar / 2 else s.settings.holdChar
      max 1 (base + (r.text.length * char + 15) / 16) := by
  cases catchup <;> simp [rowHold, live, computedHold, ceilDiv]

/-- A live row that enters is timed with its writer's estimate, and marks the catch-up state (R105, R110). -/
theorem enterRow_liveEntered {r : Row} {s : State} {w : Writer} {arrival : Stamp} {reason : CloseReason} {mark : Bool}
    {estimate : Nat} (live : r.source = .live w arrival reason mark) (set : (get s.est w).estimate = some estimate)
    (rest : List Row) :
    LiveEntered s (enterRow r (placeRow r s) { s with queue := rest }) r (idealFrame r s).2 (placeOf (placeRow r s))
      (entryOf r (placeRow r s) s) estimate := by
  have isLive : isLiveRow r = true := by simp [isLiveRow, live]
  have updated : (enterRow r (placeRow r s) { s with queue := rest }).air.catchup = catchupAfter s (placeRow r s).lag := by
    simp [enterRow, catchupWith, isLive, catchupAfter]
  refine ⟨enterRow_entered r s rest, ?_, ?_, ?_, ?_, ?_⟩
  · simp [entryOf, placeRow, idealFrame, live, set]
  · simp [entryOf, rowClamped, live]
  · simp [entryOf, enterRow, isLive]
    rfl
  · rw [updated]
    exact catchupAfter_cases s _
  · rw [updated]
    simp only [entryOf, rowHold_live live, catchupWith, isLive, if_true]

/-- The ideal frame of a live row (R102). -/
theorem idealFrame_live {r : Row} {s : State} {w : Writer} {arrival : Stamp} {reason : CloseReason} {mark : Bool}
    {estimate : Nat} (live : r.source = .live w arrival reason mark) (set : (get s.est w).estimate = some estimate) :
    (idealFrame r s).2 = liveIdeal s arrival estimate := by
  simp [idealFrame, live, set, liveIdeal]

/-- A live row drawn from the queue and offered has entered at its place, or was dropped as stale (R101 to R110). -/
theorem offerRow_liveOffered {r : Row} {s : State} {w : Writer} {arrival : Stamp} {reason : CloseReason} {mark : Bool}
    {estimate : Nat} (live : r.source = .live w arrival reason mark) (set : (get s.est w).estimate = some estimate)
    (rest : List Row) : LiveOffered s (offerRow r { s with queue := rest }).1 r w arrival estimate := by
  have ideal := idealFrame_live live set
  have placed := placeRow_placedAt r s
  have entered := enterRow_liveEntered live set rest
  rw [ideal] at placed entered
  refine ⟨placeOf (placeRow r s), placed, fun inTime => ⟨entryOf r (placeRow r s) s, ?_⟩, fun stale => ?_⟩
  · rw [offerRow_enters (s := { s with queue := rest }) ((not_stale_iff _ s).mpr inTime)]
    exact entered
  · rw [offerRow_drops (s := { s with queue := rest }) ((isStale_iff _ s).mpr stale)]
    refine ⟨?_, ?_, ?_⟩
    · simp [countDropped, live, count]
    · simp [countDropped, live, count, get_change]
    · rw [← ideal]
      exact journal_recorded ..

end Sys2Proof.Machine
end

