-- ==== Sys2Proof/Proofs/Display.lean ====
section
/-! The cue player at a boundary: the feed test (R132), the rows that go back to the live queue (R49, R113), and the test of
the due list with what an acceptance does (R114, R128, R130). -/

namespace Sys2Proof.Machine

/-! ### Drops and the live queue (R47, R49) -/

@[simp] theorem countDropped_air (r : Row) (s : State) : (countDropped r s).air = s.air := by
  unfold countDropped; split <;> rfl

@[simp] theorem countDropped_disp (r : Row) (s : State) : (countDropped r s).disp = s.disp := by
  unfold countDropped; split <;> rfl

/-- An overflow drop touches neither schedule, display nor queue. -/
theorem overflowDrop_leaves (r : Row) (s : State) :
    (overflowDrop r s).queue = s.queue ∧ (overflowDrop r s).air = s.air ∧ (overflowDrop r s).disp = s.disp := by
  simp [overflowDrop, journal_queue, countDropped_queue]

/-- Trimming cuts the queue's head down to the last eight rows, and touches neither schedule nor display (R49). -/
theorem trimQueue_cuts (n : Nat) (s : State) (h : s.queue.length ≤ n + 8) :
    (trimQueue n s).queue = s.queue.drop (s.queue.length - 8) ∧ (trimQueue n s).air = s.air ∧
    (trimQueue n s).disp = s.disp := by
  induction n generalizing s with
  | zero => exact ⟨by rw [trimQueue, Nat.sub_eq_zero_of_le (by omega), List.drop_zero], rfl, rfl⟩
  | succ n ih =>
    unfold trimQueue
    split
    · rename_i head rest queue
      rw [queue, List.length_cons] at h
      split
      · rename_i long
        rw [queue, Config.liveQueueRows, List.length_cons] at long
        obtain ⟨cut, sameAir, sameDisp⟩ := overflowDrop_leaves head { s with queue := rest }
        obtain ⟨queued, air, disp⟩ := ih (overflowDrop head { s with queue := rest }) (by rw [cut]; dsimp only; omega)
        refine ⟨?_, air.trans sameAir, disp.trans sameDisp⟩
        rw [queued, cut, queue, List.length_cons, show rest.length + 1 - 8 = rest.length - 8 + 1 by omega, List.drop_succ_cons]
      · rename_i short
        rw [queue, Config.liveQueueRows, List.length_cons] at short
        exact ⟨by rw [queue, List.length_cons, Nat.sub_eq_zero_of_le (by omega), List.drop_zero], rfl, rfl⟩
    · rename_i queue
      exact ⟨by rw [queue]; rfl, rfl, rfl⟩

/-- Rows join the head of the live queue, which then loses its head rows down to eight (R49). -/
theorem joinHead_queue (rows : List Row) (s : State) :
    (joinHead rows s).queue = (rows ++ s.queue).drop (rows.length + s.queue.length - 8) ∧
    (joinHead rows s).air = s.air ∧ (joinHead rows s).disp = s.disp := by
  have cuts := trimQueue_cuts (rows.length + s.queue.length) { s with queue := rows ++ s.queue }
    (by simp only [List.length_append]; omega)
  rwa [List.length_append] at cuts

/-! ### Removals from the schedule (R112, R113) -/

/-- A removal takes the WAITING entries of the given kind from the schedule (R112). -/
theorem removeWaiting_entries (p : Entry → Bool) (s : State) :
    (removeWaiting p s).air.entries = s.air.entries.filter (fun e => !(isWaiting e && p e)) := by
  unfold removeWaiting
  split
  · rename_i nothing
    refine (List.filter_eq_self.mpr fun e listed => ?_).symm
    have absent := List.filter_eq_nil_iff.mp (List.isEmpty_iff.mp nothing) e listed
    rw [Bool.not_eq_true', ← Bool.not_eq_true]
    exact absent
  · rfl

@[simp] theorem removeWaiting_disp (p : Entry → Bool) (s : State) : (removeWaiting p s).disp = s.disp := by
  unfold removeWaiting; split <;> rfl

@[simp] theorem removeWaiting_queue (p : Entry → Bool) (s : State) : (removeWaiting p s).queue = s.queue := by
  unfold removeWaiting; split <;> rfl

theorem waitsLive_eq : (fun e => isWaiting e && isLiveEntry e) = waitsLive := by
  funext e
  rw [waitsLive, isWaiting, beq_eq_decide]

theorem waitsOfCue_eq (n : SlotNo) : (fun e => isWaiting e && isCueEntry n e) = waitsOfCue n := by
  funext e
  rw [waitsOfCue, isWaiting, beq_eq_decide]

/-- The live stream leaves the top: its WAITING entries go back to the head of the queue (R113). -/
theorem withdrawLive_takes (s : State) :
    (withdrawLive s).air.entries = s.air.entries.filter (fun e => !waitsLive e) ∧
    (withdrawLive s).queue = (((s.air.entries.filter waitsLive).map Entry.row) ++ s.queue).drop
      ((s.air.entries.filter waitsLive).length + s.queue.length - 8) ∧
    (withdrawLive s).disp = s.disp := by
  have waiting : waitingOf isLiveEntry s = s.air.entries.filter waitsLive := by rw [waitingOf, waitsLive_eq]
  obtain ⟨queue, air, disp⟩ := joinHead_queue ((waitingOf isLiveEntry s).map Entry.row) s
  refine ⟨?_, ?_, ?_⟩
  · rw [withdrawLive, removeWaiting_entries, air]
    simp only [fun e => congrFun waitsLive_eq e]
  · rw [withdrawLive, removeWaiting_queue, queue, waiting, List.length_map]
  · rw [withdrawLive, removeWaiting_disp, disp]

/-! ### The feed test (R132) -/

/-- The feed test changes at most the cue contexts. -/
theorem feedTest_eq (s : State) : ∃ ctx, feedTest s = { s with disp := { s.disp with ctx := ctx } } := by
  unfold feedTest
  repeat' split
  all_goals exact ⟨_, rfl⟩

@[simp] theorem feedTest_air (s : State) : (feedTest s).air = s.air := by
  obtain ⟨_, e⟩ := feedTest_eq s; rw [e]

@[simp] theorem feedTest_queue (s : State) : (feedTest s).queue = s.queue := by
  obtain ⟨_, e⟩ := feedTest_eq s; rw [e]

@[simp] theorem feedTest_pe (s : State) : (feedTest s).pe = s.pe := by
  obtain ⟨_, e⟩ := feedTest_eq s; rw [e]

@[simp] theorem feedTest_stack (s : State) : (feedTest s).disp.stack = s.disp.stack := by
  obtain ⟨_, e⟩ := feedTest_eq s; rw [e]

@[simp] theorem feedTest_due (s : State) : (feedTest s).disp.due = s.disp.due := by
  obtain ⟨_, e⟩ := feedTest_eq s; rw [e]

@[simp] theorem cueOf_feedTest (s : State) (n : SlotNo) : cueOf (feedTest s) n = cueOf s n := by
  obtain ⟨_, e⟩ := feedTest_eq s; rw [e]; rfl

theorem feedTest_of_noCue {s : State} (h : ∀ k, topOwner s ≠ some (.ctx k)) : feedTest s = s := by
  unfold feedTest
  split
  · rename_i k top
    exact absurd top (h k)
  · rfl

theorem feedTest_of_stopped {s : State} (h : isRunning s = false) : feedTest s = s := by
  unfold feedTest mayFetch
  repeat' split
  all_goals simp_all

theorem feedTest_of_top {s : State} {k : CtxNo} {x : Context} {c : Cue} (top : topOwner s = some (.ctx k))
    (ctx : ctxOf s k = some x) (cue : cueOf s x.slot = some c) :
    feedTest s = if mayFetch x c s then
      storeCtx k (some { x with fetch := .inFlight, fetchEntry := c.firstRow + x.next, fetchSince := s.clock }) s else s := by
  simp only [feedTest, top, ctx, cue]

/-- R132's conditions, in RUNNING. -/
theorem mayFetch_iff {x : Context} {c : Cue} {s : State} (running : isRunning s = true) :
    mayFetch x c s = true ↔ s.pe.fault = none ∧ x.fetch = .none ∧ x.next < c.rowCount ∧ s.air.entries.length < 24 ∧
      later (c.start.getD 0 + BitVec.ofNat 28 (x.offsets.getLast?.getD 0 + s.settings.delay))
        (s.tb.frame + BitVec.ofNat 28 s.settings.feedWindow) = false ∧ x.refetch ≠ some x.next := by
  simp only [mayFetch, running, atOrBefore, addFrames, offsetFloor, Bool.and_eq_true, Option.isNone_iff_eq_none, beq_iff_eq,
    decide_eq_true_eq, Bool.not_eq_true', bne_iff_ne, true_and, and_assoc]
  rfl

theorem ctxOf_storeCtx (k j : CtxNo) (x : Option Context) (s : State) :
    ctxOf (storeCtx k x s) j = if k = j then x else ctxOf s j := get_put ..

/-- The feed test of a cue on top fetches its next row exactly where R132 allows it. -/
theorem feedTest_tested {s : State} {k : CtxNo} {x : Context} {c : Cue} (running : isRunning s = true)
    (top : topOwner s = some (.ctx k)) (ctx : ctxOf s k = some x) (cue : cueOf s x.slot = some c) :
    FetchTested s (feedTest s) k x c := by
  rw [feedTest_of_top top ctx cue]
  refine ⟨fun fault fetch rows room near fresh => ?_, fun held => ?_, fun j other => ?_⟩
  · rw [if_pos ((mayFetch_iff running).mpr ⟨fault, fetch, rows, room, near, fresh⟩), ctxOf_storeCtx, if_pos rfl]
  · rw [if_neg, ctx]
    rw [mayFetch_iff running]
    rintro ⟨fault, fetch, rows, room, near, fresh⟩
    rcases held with h | h | h | h | h | h
    · simp [fault] at h
    · exact h fetch
    · omega
    · omega
    · exact absurd (near.symm.trans h) Bool.false_ne_true
    · exact fresh h
  · split
    · rw [ctxOf_storeCtx, if_neg (Ne.symm other)]
    · rfl

/-- A second feed test at the same moment finds the first one's fetch in flight. -/
theorem feedTest_feedTest (s : State) : feedTest (feedTest s) = feedTest s := by
  by_cases noCue : ∀ k, topOwner s ≠ some (.ctx k)
  · rw [feedTest_of_noCue noCue, feedTest_of_noCue noCue]
  · push Not at noCue
    obtain ⟨k, top⟩ := noCue
    cases ctx : ctxOf s k with
    | none => simp [feedTest, top, ctx]
    | some x =>
      cases cue : cueOf s x.slot with
      | none => simp [feedTest, top, ctx, cue]
      | some c =>
        rw [feedTest_of_top top ctx cue]
        split
        · rw [feedTest_of_top (x := { x with fetch := .inFlight, fetchEntry := c.firstRow + x.next, fetchSince := s.clock })
            (c := c) (k := k) (by exact top) (by rw [ctxOf_storeCtx, if_pos rfl]) (by exact cue)]
          rw [if_neg (by simp [mayFetch])]
        · rename_i held
          rw [feedTest_of_top top ctx cue, if_neg held]

end Sys2Proof.Machine
end

