-- ==== Sys2Proof/Proofs/DueList.lean ====
section
/-! The test of the due list (R128): whether a cue is accepted, and what an acceptance does to the display, to the cue and to
what was on top (R113, R114, R130). -/

namespace Sys2Proof.Machine

/-! ### A cue changes state (R138) -/

@[simp] theorem cueTurns_air (n : SlotNo) (left : CueState) (c : Cue) (s : State) : (cueTurns n left c s).air = s.air := by
  unfold cueTurns
  dsimp only
  split <;> simp [updateCue]

@[simp] theorem cueTurns_queue (n : SlotNo) (left : CueState) (c : Cue) (s : State) :
    (cueTurns n left c s).queue = s.queue := by
  unfold cueTurns
  dsimp only
  split <;> simp [updateCue, journal_queue]

@[simp] theorem cueTurns_disp (n : SlotNo) (left : CueState) (c : Cue) (s : State) :
    (cueTurns n left c s).disp = { s.disp with cues := put s.disp.cues n (some c) } := by
  unfold cueTurns
  dsimp only
  split <;> simp [updateCue] <;> rfl

@[simp] theorem cueTurns_marks (n : SlotNo) (left : CueState) (c : Cue) (s : State) :
    (cueTurns n left c s).pe.marks = put s.pe.marks n true := by
  unfold cueTurns
  dsimp only
  split <;> simp [updateCue] <;> rfl

/-- The CUE_STATE record of a change of state has been made (R138). -/
theorem cueTurns_recorded (n : SlotNo) (left : CueState) (c : Cue) (s : State) :
    Recorded (cueTurns n left c s) (.cueState n left c.state c.reason c.shown c.dropped c.start) := by
  have made := journal_recorded (.cueState n left c.state c.reason c.shown c.dropped c.start) (updateCue n c s)
  unfold cueTurns
  dsimp only
  split
  · exact made.mono (raise_records ..)
  · exact made

theorem cueOf_cueTurns (n m : SlotNo) (left : CueState) (c : Cue) (s : State) :
    cueOf (cueTurns n left c s) m = if n = m then some c else cueOf s m := by
  rw [cueOf, cueTurns_disp]
  exact get_put ..

/-! ### What is on top gives way (R113, R114) -/

/-- The next-row index of a cue that is suspended: the position of its first WAITING row, where it has one (R114). -/
def nextLeft (s : State) (x : Context) : Nat :=
  (((s.air.entries.filter (waitsOfCue x.slot)).head?).map (fun e => rowPosition e.row)).getD x.next

theorem suspendCue_of {s : State} {j : CtxNo} {x : Context} {c : Cue} (ctx : ctxOf s j = some x)
    (cue : cueOf s x.slot = some c) (running : c.state = .running) :
    suspendCue j s = cueTurns x.slot .running { c with state := .suspended }
      (storeCtx j (some { x with next := nextLeft s x, offsets := x.offsets.take (nextLeft s x), fetch := voidFetch x.fetch })
        (removeWaiting (isCueEntry x.slot) s)) := by
  simp only [suspendCue, ctx, cue, running, if_true, waitingOf, waitsOfCue_eq]
  rfl

/-- The display gives way without a change of the stack or the due list. -/
theorem preemptTop_disp (s : State) : ∃ cues ctx, (preemptTop s).disp = { s.disp with cues := cues, ctx := ctx } := by
  unfold preemptTop suspendCue
  repeat' split
  · exact ⟨_, _, (withdrawLive_takes s).2.2⟩
  · exact ⟨_, _, by rw [cueTurns_disp, storeCtx, removeWaiting_disp]⟩
  all_goals exact ⟨_, _, rfl⟩

/-! ### An acceptance (R130) -/

/-- The context of a cue that has just been accepted. -/
def freshCtx (n : SlotNo) : Context :=
  { slot := n, next := 0, offsets := [], fetch := .none, fetchEntry := 0, fetchSince := 0, refetch := none }

/-- The display as an acceptance finds it once the old top has given way. -/
def gaveWay (s : State) (rest : List SlotNo) : State := preemptTop { s with disp := { s.disp with due := rest } }

/-- The accepted cue on top, before its feed test. -/
def pushed (n : SlotNo) (c : Cue) (k : CtxNo) (u : State) : State :=
  cueTurns n c.state { c with state := .running } (withStack (u.disp.stack ++ [.ctx k]) (storeCtx k (some (freshCtx n)) u))

theorem acceptCue_eq {s : State} {n : SlotNo} {rest : List SlotNo} (due : s.disp.due = n :: rest) (c : Cue) (k : CtxNo) :
    acceptCue n c k s = feedTest (pushed n c k (gaveWay s rest)) := by
  simp only [acceptCue, due, List.erase_cons_head]
  rfl

theorem gaveWay_disp (s : State) (rest : List SlotNo) :
    ∃ cues ctx, (gaveWay s rest).disp = { s.disp with cues := cues, ctx := ctx, due := rest } := by
  obtain ⟨cues, ctx, e⟩ := preemptTop_disp { s with disp := { s.disp with due := rest } }
  exact ⟨cues, ctx, e⟩

theorem pushed_local (n : SlotNo) (c : Cue) (k : CtxNo) (s : State) (rest : List SlotNo) :
    Local s (pushed n c k (gaveWay s rest)) :=
  ((((disp_local s _ (by rfl)).trans (preemptTop_local _)).trans (storeCtx_idle _ _ _ (by simp [freshCtx]))).trans
    (withStack_local ..)).trans (cueTurns_local ..)

@[simp] theorem pushed_air (n : SlotNo) (c : Cue) (k : CtxNo) (u : State) : (pushed n c k u).air = u.air := by simp [pushed]

@[simp] theorem pushed_queue (n : SlotNo) (c : Cue) (k : CtxNo) (u : State) : (pushed n c k u).queue = u.queue := by
  simp [pushed]

@[simp] theorem pushed_stack (n : SlotNo) (c : Cue) (k : CtxNo) (u : State) :
    (pushed n c k u).disp.stack = u.disp.stack ++ [.ctx k] := by simp [pushed]

@[simp] theorem pushed_due (n : SlotNo) (c : Cue) (k : CtxNo) (u : State) : (pushed n c k u).disp.due = u.disp.due := by
  rw [pushed, cueTurns_disp]
  rfl

@[simp] theorem pushed_marks (n : SlotNo) (c : Cue) (k : CtxNo) (u : State) :
    (pushed n c k u).pe.marks = put u.pe.marks n true := by
  rw [pushed, cueTurns_marks]
  rfl

theorem ctxOf_pushed (n : SlotNo) (c : Cue) (k j : CtxNo) (u : State) :
    ctxOf (pushed n c k u) j = if k = j then some (freshCtx n) else ctxOf u j := by
  rw [pushed, ctxOf, cueTurns_disp]
  exact get_put ..

theorem cueOf_pushed (n m : SlotNo) (c : Cue) (k : CtxNo) (u : State) :
    cueOf (pushed n c k u) m = if n = m then some { c with state := .running } else cueOf u m := cueOf_cueTurns ..

/-- The feed test of the accepted cue looks at its fresh context. -/
theorem feedTest_pushed (n : SlotNo) (c : Cue) (k : CtxNo) (u : State) :
    feedTest (pushed n c k u) = if mayFetch (freshCtx n) { c with state := .running } (pushed n c k u) then
      storeCtx k (some { freshCtx n with fetch := .inFlight, fetchEntry := c.firstRow, fetchSince := (pushed n c k u).clock })
        (pushed n c k u)
    else pushed n c k u :=
  feedTest_of_top (by simp [topOwner]) (by rw [ctxOf_pushed, if_pos rfl]) ((cueOf_pushed ..).trans (if_pos rfl))

/-- What an acceptance leaves of the state in which the old top has given way. -/
theorem acceptCue_leaves {s : State} {n : SlotNo} {rest : List SlotNo} (due : s.disp.due = n :: rest) (c : Cue) (k : CtxNo) :
    let t := acceptCue n c k s
    let u := gaveWay s rest
    t.air = u.air ∧ t.queue = u.queue ∧ (∀ j, j ≠ k → ctxOf t j = ctxOf u j) ∧ (∀ m, m ≠ n → cueOf t m = cueOf u m) ∧
    ∀ m, get u.pe.marks m = true → get t.pe.marks m = true := by
  rw [acceptCue_eq due]
  refine ⟨by simp, by simp, fun j other => ?_, fun m other => ?_, fun m marked => ?_⟩
  · have same : ctxOf (pushed n c k (gaveWay s rest)) j = ctxOf (gaveWay s rest) j := by
      rw [ctxOf_pushed, if_neg (Ne.symm other)]
    rw [feedTest_pushed, ← same]
    split
    · rw [ctxOf_storeCtx, if_neg (Ne.symm other)]
    · rfl
  · rw [cueOf_feedTest, cueOf_pushed, if_neg (Ne.symm other)]
  · rw [feedTest_pe, pushed_marks, get_put]
    split
    · rfl
    · exact marked

/-- The first due cue is on top and RUNNING in a fresh context, with its feed test made (R130). -/
theorem acceptCue_accepted {s : State} {n : SlotNo} {rest : List SlotNo} (due : s.disp.due = n :: rest) (c : Cue) (k : CtxNo) :
    Accepted s (acceptCue n c k s) n rest c k := by
  obtain ⟨cues, tables, disp⟩ := gaveWay_disp s rest
  rw [acceptCue_eq due]
  refine ⟨?_, ?_, ?_, ?_, ?_⟩
  · rw [feedTest_due, pushed_due, disp]
  · rw [feedTest_stack, pushed_stack, disp]
  · rw [cueOf_feedTest, cueOf_pushed, if_pos rfl]
  · exact (cueTurns_recorded ..).mono (feedTest_local _).records
  · have loc := pushed_local n c k s rest
    rw [feedTest_pushed]
    split
    · exact ⟨_, by rw [ctxOf_storeCtx, if_pos rfl], rfl, rfl, rfl, fun _ _ _ _ _ => ⟨rfl, rfl, loc.clock⟩⟩
    · rename_i held
      refine ⟨freshCtx n, by rw [ctxOf_pushed, if_pos rfl], rfl, rfl, rfl, fun running fault rows room near => absurd ?_ held⟩
      have runs : isRunning (pushed n c k (gaveWay s rest)) = true := by rwa [isRunning, loc.control]
      rw [mayFetch_iff runs, loc.engine, loc.tb, loc.settings]
      exact ⟨fault, rfl, rows, room, by simpa [freshCtx] using near, by simp [freshCtx]⟩

/-! ### The test (R128) -/

theorem freeCtx_of_free {s : State} {k : CtxNo} (free : ctxOf s k = none) (lower : k = 1 → (ctxOf s 0).isSome = true) :
    freeCtx s = some k := by
  rcases Fin.eq_zero_or_eq_succ k with rfl | ⟨j, rfl⟩
  · simp [freeCtx, free]
  · obtain rfl : j = 0 := Subsingleton.elim _ _
    have held := lower rfl
    rw [← Option.not_isNone, Bool.not_eq_true'] at held
    have second : ctxOf s 1 = none := free
    simp [freeCtx, held, second]

theorem freeCtx_of_full {s : State} (full : ∀ k, (ctxOf s k).isSome = true) : freeCtx s = none := by
  have held (k : CtxNo) : (ctxOf s k).isNone = false := by simpa using full k
  simp [freeCtx, held]

theorem ownerLevel_of_live {s : State} (top : topOwner s = some .live) : ownerLevel s = s.settings.liveLevel := by
  simp [ownerLevel, top, levelOf]

theorem ownerLevel_of_ctx {s : State} {k : CtxNo} {x : Context} {c : Cue} (top : topOwner s = some (.ctx k))
    (ctx : ctxOf s k = some x) (cue : cueOf s x.slot = some c) : ownerLevel s = c.level := by
  simp [ownerLevel, top, levelOf, cueOfCtx, ctx, cue]

/-- With a free context and a level above the owner's the first due cue is accepted (R128). -/
theorem dueTest_accepts {s : State} {n : SlotNo} {rest : List SlotNo} {c : Cue} {k : CtxNo} (due : s.disp.due = n :: rest)
    (cue : cueOf s n = some c) (free : freeCtx s = some k) (above : ownerLevel s < c.level) :
    dueTest s = (acceptCue n c k s, true) := by
  simp only [dueTest, due, cue, free, above, if_true]

/-- With no free context, or a level no higher than the owner's, nothing happens (R128). -/
theorem dueTest_stays {s : State} {n : SlotNo} {rest : List SlotNo} {c : Cue} (due : s.disp.due = n :: rest)
    (cue : cueOf s n = some c) (held : freeCtx s = none ∨ c.level ≤ ownerLevel s) : dueTest s = (s, false) := by
  rcases held with full | low
  · simp only [dueTest, due, cue, full]
  · cases free : freeCtx s with
    | none => simp only [dueTest, due, cue, free]
    | some k => simp only [dueTest, due, cue, free, if_neg (Nat.not_lt.mpr low)]

theorem dueTest_of_noneDue {s : State} (due : s.disp.due = []) : dueTest s = (s, false) := by simp only [dueTest, due]

/-- The WAITING rows of a suspended cue leave the schedule, and the cue waits in its context (R114). -/
theorem gaveWay_overCue {s : State} {j : CtxNo} {x : Context} {below : Cue} (rest : List SlotNo)
    (top : topOwner s = some (.ctx j)) (ctx : ctxOf s j = some x) (cue : cueOf s x.slot = some below)
    (running : below.state = .running) :
    let u := gaveWay s rest
    u.air.entries = s.air.entries.filter (fun e => !waitsOfCue x.slot e) ∧ u.queue = s.queue ∧
    cueOf u x.slot = some { below with state := .suspended } ∧ get u.pe.marks x.slot = true ∧
    ctxOf u j = some { x with
      next := nextLeft s x, offsets := x.offsets.take (nextLeft s x), fetch := voidFetch x.fetch } := by
  have suspended : gaveWay s rest = suspendCue j { s with disp := { s.disp with due := rest } } := by
    simp only [gaveWay, preemptTop, show topOwner { s with disp := { s.disp with due := rest } } = some (.ctx j) from top]
  rw [suspended, suspendCue_of (s := { s with disp := { s.disp with due := rest } }) ctx cue running]
  refine ⟨?_, ?_, ?_, ?_, ?_⟩
  · rw [cueTurns_air]
    exact (removeWaiting_entries ..).trans (by simp only [fun e => congrFun (waitsOfCue_eq x.slot) e])
  · rw [cueTurns_queue]
    exact removeWaiting_queue ..
  · rw [cueOf_cueTurns, if_pos rfl]
  · rw [cueTurns_marks, get_put_same]
  · rw [ctxOf, cueTurns_disp]
    exact get_put_same ..

theorem voidFetch_eq (f : FetchState) : voidFetch f = if f = .none then .none else .void := by cases f <;> rfl

/-- The due list is tested on the way from s to t: t is s but for the cue contexts where no cue is accepted, and is what the
acceptance makes where one is. -/
theorem dueTested_of {s t : State} {n : SlotNo} {rest : List SlotNo} {c : Cue} (due : s.disp.due = n :: rest)
    (cue : cueOf s n = some c)
    (stays : dueTest s = (s, false) → t.air = s.air ∧ t.disp = { s.disp with ctx := t.disp.ctx })
    (accepts : ∀ k, dueTest s = (acceptCue n c k s, true) → t = acceptCue n c k s) : DueTested s t n rest c := by
  refine ⟨fun held => ?_, fun k free lower empty level => ?_, fun k free lower top level => ?_,
    fun k j x below free lower top ctx under running level => ?_⟩
  · have stop : freeCtx s = none ∨ c.level ≤ ownerLevel s := by
      rcases held with full | ⟨top, low⟩ | ⟨k, x, below, top, ctx, under, low⟩
      · exact .inl (freeCtx_of_full full)
      · exact .inr (ownerLevel_of_live top ▸ low)
      · exact .inr (ownerLevel_of_ctx top ctx under ▸ low)
    obtain ⟨air, disp⟩ := stays (dueTest_stays due cue stop)
    refine ⟨?_, ?_, ?_, air⟩
    · rw [disp]
      exact due
    · rw [disp]
    · rw [cueOf, disp]
      exact cue
  · have owner : ownerLevel s = 0 := by simp [ownerLevel, topOwner, empty]
    obtain rfl := accepts k (dueTest_accepts due cue (freeCtx_of_free free lower) (owner ▸ level))
    have gone : gaveWay s rest = { s with disp := { s.disp with due := rest } } := by simp [gaveWay, preemptTop, topOwner, empty]
    obtain ⟨air, queue, _⟩ := acceptCue_leaves due c k
    rw [gone] at air queue
    exact ⟨acceptCue_accepted due c k, air, queue⟩
  · obtain rfl := accepts k (dueTest_accepts due cue (freeCtx_of_free free lower) (ownerLevel_of_live top ▸ level))
    have gone : gaveWay s rest = withdrawLive { s with disp := { s.disp with due := rest } } := by
      simp only [gaveWay, preemptTop, show topOwner { s with disp := { s.disp with due := rest } } = some .live from top]
    obtain ⟨air, queue, _⟩ := acceptCue_leaves due c k
    obtain ⟨entries, queued, _⟩ := withdrawLive_takes { s with disp := { s.disp with due := rest } }
    rw [gone] at air queue
    exact ⟨acceptCue_accepted due c k, air ▸ entries, queue.trans queued⟩
  · obtain rfl := accepts k (dueTest_accepts due cue (freeCtx_of_free free lower) (ownerLevel_of_ctx top ctx under ▸ level))
    obtain ⟨air, queue, ctxs, cues, marks⟩ := acceptCue_leaves due c k
    obtain ⟨entries, queued, suspended, marked, waits⟩ := gaveWay_overCue rest top ctx under running
    have apart : j ≠ k := by
      rintro rfl
      simp [free] at ctx
    have distinct : x.slot ≠ n := by
      intro same
      rw [same, cue] at under
      cases under
      exact absurd level (lt_irrefl _)
    refine ⟨acceptCue_accepted due c k, air ▸ entries, queue.trans queued, (cues _ distinct).trans suspended, marks _ marked,
      nextLeft s x, ?_, fun nothing => ?_, fun e more slot pos first offset hold fresh clamped waiting source => ?_⟩
    · rw [ctxs j apart, waits, voidFetch_eq]
    · simp [nextLeft, nothing]
    · simp [nextLeft, waiting, rowPosition, source]

/-- The test of the due list with the feed test behind it, which finds that of an accepted cue made (R128, R132). -/
theorem feedTest_dueTest_tested {s : State} {n : SlotNo} {rest : List SlotNo} {c : Cue} (due : s.disp.due = n :: rest)
    (cue : cueOf s n = some c) : DueTested s (feedTest (dueTest s).1) n rest c := by
  refine dueTested_of due cue (fun e => ?_) (fun k e => ?_)
  · rw [e]
    obtain ⟨ctx, after⟩ := feedTest_eq s
    exact ⟨feedTest_air s, by rw [after]⟩
  · rw [e, acceptCue_eq due, feedTest_feedTest]

end Sys2Proof.Machine
end

