-- ==== Sys2Proof/Proofs/RowsKept.lean ====
section
/-! What the display, the cue player, the schedule and the live queue leave of the rows at a boundary: the next row id, and the
entries of which a unit has been sent. Said once for each operation, in the order of the model. -/

namespace Sys2Proof.Machine

/-- t has the next row id of s, and the entries of which a unit has been sent. -/
structure RowsKept (s t : State) : Prop where
  nextRowId : t.nextRowId = s.nextRowId
  begun : begun t.air.entries = begun s.air.entries

namespace RowsKept

theorem refl (s : State) : RowsKept s s := ⟨rfl, rfl⟩

theorem trans {s t u : State} (h : RowsKept s t) (g : RowsKept t u) : RowsKept s u :=
  ⟨g.nextRowId.trans h.nextRowId, g.begun.trans h.begun⟩

/-- An update of other fields keeps the rows. -/
theorem same {s t : State} (nextRowId : t.nextRowId = s.nextRowId) (air : t.air.entries = s.air.entries) : RowsKept s t :=
  ⟨nextRowId, by rw [air]⟩

end RowsKept

theorem queue_rowsKept (s : State) (q : List Row) : RowsKept s { s with queue := q } := .same rfl rfl

theorem disp_rowsKept (s : State) (d : Display) : RowsKept s { s with disp := d } := .same rfl rfl

theorem storeCtx_rowsKept (k : CtxNo) (x : Option Context) (s : State) : RowsKept s (storeCtx k x s) := disp_rowsKept ..

theorem updateCue_rowsKept (n : SlotNo) (c : Cue) (s : State) : RowsKept s (updateCue n c s) := .same rfl rfl

theorem raise_rowsKept (f : AttnFlag) (s : State) : RowsKept s (raise f s) := .same rfl rfl

theorem journal_rowsKept (r : Record) (s : State) : RowsKept s (journal r s) := by
  unfold journal
  split <;> exact .same rfl rfl

theorem countDropped_rowsKept (r : Row) (s : State) : RowsKept s (countDropped r s) := by
  unfold countDropped
  split <;> exact .same rfl rfl

theorem overflowDrop_rowsKept (r : Row) (s : State) : RowsKept s (overflowDrop r s) :=
  (countDropped_rowsKept r s).trans (journal_rowsKept ..)

theorem trimQueue_rowsKept (n : Nat) (s : State) : RowsKept s (trimQueue n s) := by
  induction n generalizing s with
  | zero => exact .refl s
  | succ n ih =>
    unfold trimQueue
    repeat' split
    · exact ((queue_rowsKept ..).trans (overflowDrop_rowsKept ..)).trans (ih _)
    · exact .refl s
    · exact .refl s

theorem joinHead_rowsKept (rows : List Row) (s : State) : RowsKept s (joinHead rows s) :=
  (queue_rowsKept ..).trans (trimQueue_rowsKept ..)

/-- A row enters with no unit sent. -/
theorem enterRow_rowsKept (r : Row) (p : Placement) (s : State) : RowsKept s (enterRow r p s) := by
  refine ⟨rfl, ?_⟩
  simp [begun, enterRow, entryOf]

theorem offerRow_rowsKept (r : Row) (s : State) : RowsKept s (offerRow r s).1 := by
  cases stale : isStale (placeRow r s).lag s with
  | false => rw [offerRow_enters stale]; exact enterRow_rowsKept ..
  | true => rw [offerRow_drops stale]; exact (countDropped_rowsKept ..).trans (journal_rowsKept ..)

theorem feedRows_rowsKept (n : Nat) (s : State) : RowsKept s (feedRows n s) := by
  induction n generalizing s with
  | zero => exact .refl s
  | succ n ih =>
    unfold feedRows
    repeat' split
    · exact ((queue_rowsKept ..).trans (offerRow_rowsKept ..)).trans (ih _)
    · exact .refl s
    · exact .refl s

theorem feedAttempt_rowsKept (s : State) : RowsKept s (feedAttempt s) := feedRows_rowsKept _ s

/-- A removal takes WAITING entries alone. -/
theorem removeWaiting_rowsKept (p : Entry → Bool) (s : State) : RowsKept s (removeWaiting p s) := by
  refine ⟨?_, ?_⟩
  · unfold removeWaiting
    split <;> rfl
  · rw [removeWaiting_entries, begun, begun, List.filter_filter]
    refine List.filter_congr fun e _ => ?_
    by_cases waits : e.sent = 0 <;> simp [isWaiting, waits]

theorem withdrawLive_rowsKept (s : State) : RowsKept s (withdrawLive s) :=
  (joinHead_rowsKept ..).trans (removeWaiting_rowsKept ..)

theorem cueTurns_rowsKept (n : SlotNo) (left : CueState) (c : Cue) (s : State) : RowsKept s (cueTurns n left c s) := by
  have made := (updateCue_rowsKept n c s).trans
    (journal_rowsKept (.cueState n left c.state c.reason c.shown c.dropped c.start) (updateCue n c s))
  unfold cueTurns
  dsimp only
  split
  · exact made.trans (raise_rowsKept ..)
  · exact made

theorem feedTest_rowsKept (s : State) : RowsKept s (feedTest s) := by
  obtain ⟨_, e⟩ := feedTest_eq s
  rw [e]
  exact .same rfl rfl

theorem suspendCue_rowsKept (k : CtxNo) (s : State) : RowsKept s (suspendCue k s) := by
  unfold suspendCue
  repeat' split
  · exact ((removeWaiting_rowsKept ..).trans (storeCtx_rowsKept ..)).trans (cueTurns_rowsKept ..)
  all_goals exact .refl s

theorem preemptTop_rowsKept (s : State) : RowsKept s (preemptTop s) := by
  unfold preemptTop
  split
  · exact withdrawLive_rowsKept s
  · exact suspendCue_rowsKept _ s
  · exact .refl s

theorem acceptCue_rowsKept (n : SlotNo) (c : Cue) (k : CtxNo) (s : State) : RowsKept s (acceptCue n c k s) := by
  have gave := (disp_rowsKept s { s.disp with due := s.disp.due.erase n }).trans (preemptTop_rowsKept _)
  exact (((gave.trans (storeCtx_rowsKept ..)).trans (disp_rowsKept ..)).trans (cueTurns_rowsKept ..)).trans (feedTest_rowsKept _)

theorem dueTest_rowsKept (s : State) : RowsKept s (dueTest s).1 := by
  unfold dueTest
  repeat' split
  all_goals first | exact .refl s | exact acceptCue_rowsKept ..

theorem insertionTest_rowsKept (s : State) : RowsKept s (insertionTest s).1 := by
  unfold insertionTest
  repeat' split
  · exact ((disp_rowsKept ..).trans (feedAttempt_rowsKept _)).trans (dueTest_rowsKept _)
  · exact .same rfl rfl
  · exact .refl s

theorem applyPendingLevel_rowsKept (s : State) : RowsKept s (applyPendingLevel s) := by
  unfold applyPendingLevel
  repeat' split
  all_goals exact .same rfl rfl

theorem takeUpDisplay_rowsKept (s : State) : RowsKept s (takeUpDisplay s) := by
  unfold takeUpDisplay
  repeat' split
  · exact feedAttempt_rowsKept s
  · exact (cueTurns_rowsKept ..).trans (feedTest_rowsKept _)
  · exact feedTest_rowsKept s
  all_goals exact .refl s

theorem releaseCtx_rowsKept (k : CtxNo) (s : State) : RowsKept s (releaseCtx k s) := by
  unfold releaseCtx
  repeat' split
  all_goals exact .same rfl rfl

theorem leaveStack_rowsKept (k : CtxNo) (s : State) : RowsKept s (leaveStack k s) := by
  have left : RowsKept s (withStack (s.disp.stack.erase (.ctx k)) (releaseCtx k s)) :=
    (releaseCtx_rowsKept k s).trans (disp_rowsKept ..)
  have tested := ((left.trans (applyPendingLevel_rowsKept _)).trans (insertionTest_rowsKept _)).trans (dueTest_rowsKept _)
  unfold leaveStack
  dsimp only
  split
  · exact tested.trans (takeUpDisplay_rowsKept _)
  · exact tested

theorem completeCtx_rowsKept (k : CtxNo) (n : SlotNo) (s : State) : RowsKept s (completeCtx k n s) := by
  unfold completeCtx
  repeat' split
  · exact (cueTurns_rowsKept ..).trans (leaveStack_rowsKept ..)
  all_goals exact .refl s

theorem completionTest_rowsKept (n : SlotNo) (s : State) : RowsKept s (completionTest n s) := by
  unfold completionTest
  split
  · exact completeCtx_rowsKept ..
  · exact .refl s

theorem cueRowShown_rowsKept (n : SlotNo) (s : State) : RowsKept s (cueRowShown n s) := by
  unfold cueRowShown
  split
  · exact (updateCue_rowsKept ..).trans (completionTest_rowsKept ..)
  · exact .refl s

end Sys2Proof.Machine
end

