-- ==== Sys2Proof/Proofs/BoundaryTests.lean ====
section
/-! The tests of a boundary in RUNNING (R48, R128, R132): the feed attempt, the test of the due list and the feed test, and
what these read of the state they find. -/

namespace Sys2Proof.Machine

/-! ### The feed attempt (R48) -/

theorem feedRows_of_blocked {s : State} (h : canFeed s = false) (n : Nat) : feedRows n s = s := by
  cases n with
  | zero => rfl
  | succ n =>
    unfold feedRows
    split
    · rw [h]
      rfl
    · rfl

theorem feedAttempt_of_stopped {s : State} (h : isRunning s = false) : feedAttempt s = s :=
  feedRows_of_blocked (by simp [canFeed, h]) _

/-- Where R48 lets nothing move a feed attempt does nothing. -/
theorem feedAttempt_of_nothing {s : State} (h : NothingFeeds s) : feedAttempt s = s := by
  rcases h with empty | owner | full
  · rw [feedAttempt, empty]
    rfl
  · exact feedRows_of_blocked (by simp [canFeed, owner]) _
  · exact feedRows_of_blocked (by simp [canFeed, Config.scheduleEntries, Nat.not_lt.mpr full]) _

/-- A queue of one row gives it up where R48 lets it move. -/
theorem feedAttempt_of_one {s : State} {r : Row} (running : isRunning s = true) (h : ¬NothingFeeds s) (queue : s.queue = [r]) :
    feedAttempt s = (offerRow r { s with queue := [] }).1 := by
  obtain ⟨_, top, room⟩ : s.queue ≠ [] ∧ topOwner s = some .live ∧ s.air.entries.length < 24 := by
    simpa [NothingFeeds] using h
  have feeds : canFeed s = true := by simp [canFeed, running, top, Config.scheduleEntries, room]
  rw [feedAttempt, queue, List.length_singleton, feedRows]
  simp only [queue, feeds, if_true]
  rfl

theorem offerRow_leaves (r : Row) (s : State) :
    (offerRow r s).1.disp = s.disp ∧ (offerRow r s).1.queue = s.queue := by
  cases stale : isStale (placeRow r s).lag s with
  | false => rw [offerRow_enters stale]; exact ⟨rfl, rfl⟩
  | true => rw [offerRow_drops stale]; simp [journal_queue, countDropped_queue]

@[simp] theorem feedRows_disp (n : Nat) (s : State) : (feedRows n s).disp = s.disp := by
  induction n generalizing s with
  | zero => rfl
  | succ n ih =>
    unfold feedRows
    repeat' split
    · rw [ih, (offerRow_leaves ..).1]
    all_goals rfl

@[simp] theorem feedAttempt_disp (s : State) : (feedAttempt s).disp = s.disp := feedRows_disp ..

/-! ### The cue player's tests (R127, R128, R132) -/

theorem atFrameReached_iff (s : State) : atFrameReached s = true ↔ isRunning s = true ∧ WatchReached s := by
  rw [atFrameReached, Bool.and_eq_true, List.any_eq_true, WatchReached]
  refine and_congr_right fun _ => exists_congr fun n => and_congr_right fun _ => ?_
  cases cueOf s n with
  | none => simp
  | some c => simp [atOrBefore]

/-- With no cue due, or with a watched cue to become DUE first, the due list is not tested. -/
theorem frameCues_untested {s : State} (h : s.disp.due = [] ∨ WatchReached s) : frameCues s = feedTest s := by
  unfold frameCues
  split
  · rename_i go
    rcases h with due | reached
    · rw [dueTest_of_noneDue due]
    · rw [Bool.and_eq_true, Bool.not_eq_true', ← Bool.not_eq_true, atFrameReached_iff] at go
      exact absurd ⟨go.1, reached⟩ go.2
  · rfl

theorem frameCues_tested {s : State} (running : isRunning s = true) (h : ¬WatchReached s) :
    frameCues s = feedTest (dueTest s).1 := by
  have quiet : atFrameReached s = false := by rw [← Bool.not_eq_true, atFrameReached_iff]; exact fun both => h both.2
  simp [frameCues, running, quiet]

theorem frameCues_of_stopped {s : State} (h : isRunning s = false) : frameCues s = s := by
  simp [frameCues, h, feedTest_of_stopped h]

theorem frameCues_local (s : State) : Local s (frameCues s) := by
  unfold frameCues
  split
  · exact (dueTest_local s).trans (feedTest_local _)
  · exact feedTest_local s

theorem frameCues_rowsKept (s : State) : RowsKept s (frameCues s) := by
  unfold frameCues
  split
  · exact (dueTest_rowsKept s).trans (feedTest_rowsKept _)
  · exact feedTest_rowsKept s

/-! ### What the tests read

The tests look at TB, the clock, the schedule, the live queue, the display, the settings, the estimates, the output, the
counters, the run state and the fault. -/

/-- x with all that the tests of a boundary read as it is in s. -/
def besides (s x : State) : State :=
  { x with
    clock := s.clock, tb := s.tb, air := s.air, queue := s.queue, disp := s.disp, settings := s.settings, est := s.est
    out := s.out, counters := s.counters
    control := { x.control with runState := s.control.runState }
    pe := { x.pe with fault := s.pe.fault } }

/-- t with other work outstanding. -/
def working (w : Work) (t : State) : State := { t with work := w }

theorem LiveOffered.besides {s t : State} {r : Row} {w : Writer} {arrival : Stamp} {estimate : Nat}
    (h : LiveOffered s t r w arrival estimate) (x : State) (o : Work) :
    LiveOffered (besides s x) (working o t) r w arrival estimate := by
  obtain ⟨p, placed, entered, stale⟩ := h
  obtain ⟨earliest, lowest, start, ⟨stagedBy, floor, isFloor, showAt⟩, lag⟩ := placed
  refine ⟨p, ⟨earliest, lowest, start, ⟨stagedBy, floor, ⟨isFloor.behind, isFloor.shown, isFloor.nothing⟩, showAt⟩, lag⟩,
    fun inTime => ?_, stale⟩
  obtain ⟨e, ⟨row, place, late, schedule⟩, latency, unclamped, flagged, catchup, hold⟩ := entered inTime
  exact ⟨e, ⟨row, place, late, schedule⟩, latency, unclamped, flagged, catchup, hold⟩

theorem FetchTested.besides {s t : State} {k : CtxNo} {x : Context} {c : Cue} (h : FetchTested s t k x c) (y : State)
    (o : Work) : FetchTested (besides s y) (working o t) k x c :=
  ⟨h.asked, h.held, h.others⟩

theorem Accepted.besides {s t : State} {n : SlotNo} {rest : List SlotNo} {c : Cue} {k : CtxNo} (h : Accepted s t n rest c k)
    (x : State) (o : Work) : Accepted (besides s x) (working o t) n rest c k :=
  ⟨h.due, h.stack, h.running, h.record, h.context⟩

theorem DueTested.besides {s t : State} {n : SlotNo} {rest : List SlotNo} {c : Cue} (h : DueTested s t n rest c)
    (x : State) (o : Work) : DueTested (besides s x) (working o t) n rest c := by
  refine ⟨h.stays, fun k free lower empty level => ?_, fun k free lower top level => ?_,
    fun k j y below free lower top ctx under running level => ?_⟩
  · exact (h.overNothing k free lower empty level).imp_left (·.besides x o)
  · exact (h.overLive k free lower top level).imp_left (·.besides x o)
  · exact (h.overCue k j y below free lower top ctx under running level).imp_left (·.besides x o)

theorem BoundaryTests.besides {s t : State} (h : BoundaryTests s t) (x : State) (o : Work) :
    BoundaryTests (besides s x) (working o t) := by
  refine ⟨h.begun, h.unfed, fun r w arrival reason mark estimate feeds queue live set quiet => ?_, h.untested,
    fun n rest c nothing quiet due cue => ?_, fun quiet k y c top ctx cue => ?_⟩
  · exact (h.fed r w arrival reason mark estimate feeds queue live set quiet).imp_right (·.besides x o)
  · exact (h.tested n rest c nothing quiet due cue).besides x o
  · exact (h.fetches quiet k y c top ctx cue).besides x o

/-! ### The tests together -/

/-- The feed attempt and the cue player's tests of a boundary in RUNNING are those of R48, R128 and R132. -/
theorem boundaryTests (s : State) (running : isRunning s = true) : BoundaryTests s (frameCues (feedAttempt s)) := by
  have loc := feedAttempt_local s
  have reached : WatchReached (feedAttempt s) ↔ WatchReached s := by
    simp only [WatchReached, cueOf, feedAttempt_disp, loc.tb]
  have untested (quiet : s.disp.due = [] ∨ WatchReached s) : frameCues (feedAttempt s) = feedTest (feedAttempt s) :=
    frameCues_untested (by rwa [feedAttempt_disp, reached])
  refine ⟨?_, fun nothing quiet => ?_, fun r w arrival reason mark estimate feeds queue live set quiet => ?_,
    fun quiet => ?_, fun n rest c nothing quiet due cue => ?_, fun quiet k x c top ctx cue => ?_⟩
  · exact ((feedAttempt_rowsKept s).trans (frameCues_rowsKept _)).begun
  · rw [untested quiet, feedAttempt_of_nothing nothing]
    exact ⟨feedTest_air s, feedTest_queue s⟩
  · have live' : topOwner (feedAttempt s) = some .live := by
      rw [topOwner, feedAttempt_disp]
      by_contra other
      exact feeds (.inr (.inl other))
    rw [untested quiet, feedTest_of_noCue (by simp [live']), feedAttempt_of_one running feeds queue]
    exact ⟨(offerRow_leaves ..).2, offerRow_liveOffered live set []⟩
  · rw [untested quiet]
    obtain ⟨ctx, after⟩ := feedTest_eq (feedAttempt s)
    refine ⟨by rw [after, feedAttempt_disp], fun owner => ?_⟩
    rw [feedTest_of_noCue (by simpa [topOwner] using owner), feedAttempt_disp]
  · rw [feedAttempt_of_nothing nothing, frameCues_tested running quiet]
    exact feedTest_dueTest_tested due cue
  · have nothing : NothingFeeds s := .inr (.inl (by simp [top]))
    rw [untested quiet, feedAttempt_of_nothing nothing]
    exact feedTest_tested running top ctx cue

end Sys2Proof.Machine
end

