-- ==== Sys2Proof/Proofs/WorkMarks.lean ====
section
/-! The marks of a boundary's work: each stands exactly where the condition of its rule holds. -/

namespace Sys2Proof.Machine

/-- A test of a table's entries. -/
theorem any_iff_get {α : Type} {n : Nat} (v : Vector α n) (p : α → Bool) :
    v.any p = true ↔ ∃ i, p (get v i) = true := by
  rw [Vector.any_eq_true]
  exact ⟨fun ⟨i, lt, holds⟩ => ⟨⟨i, lt⟩, holds⟩, fun ⟨i, holds⟩ => ⟨i.val, i.isLt, holds⟩⟩

theorem pauseDue_iff (s : State) (w : Writer) : pauseDue s w = true ↔ (portOf s w).mode ≠ .off ∧
    (portOf s w).pauseArmed = true ∧ s.settings.pauseFrames ≤ (portOf s w).pauseCount := by
  simp [pauseDue, and_assoc]

theorem handoffOver_iff (s : State) : handoffOver s = true ↔
    ∃ h, s.la.handoff = some h ∧ s.settings.handoffFrames ≠ 0 ∧ s.settings.handoffFrames ≤ h.waited := by
  unfold handoffOver
  cases s.la.handoff <;> simp

theorem mem_mappedLines (m : VoiceMap) (v : Fin 2) : v ∈ mappedLines m ↔ MapsLine m v := by
  cases m with
  | vox0 => simp [mappedLines, MapsLine]
  | vox1 => simp [mappedLines, MapsLine]
  | both =>
    simp only [mappedLines, MapsLine, List.mem_cons, List.not_mem_nil, or_false, iff_true]
    omega

theorem recentOnset_iff (s : State) (v : Fin 2) : recentOnset s v = true ↔ ∃ o, get s.lastOnset v = some o ∧
    0 ≤ tickDiff (stampNow s) o ∧ tickDiff (stampNow s) o ≤ 16 * (s.settings.silenceFrames : Int) := by
  unfold recentOnset
  cases get s.lastOnset v <;> simp

theorem lineActive_iff (s : State) (i : LineNo) : lineActive s i = true ↔
    (get s.settings.lines i).edge ≠ .none ∧ (get s.capture i).filtered = true := by
  simp [lineActive]

/-- The test of a silent lead is R91's. -/
theorem leadSilent_iff (s : State) : leadSilent s = true ↔ Silent s := by
  unfold leadSilent Silent
  cases lead : s.la.lead with
  | none => simp
  | some w =>
    have speech : speechPresent s w = true ↔ ∃ (v : Fin 2) (i : LineNo), i.val = v.val ∧ MapsLine (writerOf s w).voice v ∧
        ((∃ o, get s.lastOnset v = some o ∧ 0 ≤ tickDiff (stampNow s) o ∧
            tickDiff (stampNow s) o ≤ 16 * (s.settings.silenceFrames : Int)) ∨
          ((get s.settings.lines i).edge ≠ .none ∧ (get s.capture i).filtered = true)) := by
      simp only [speechPresent, List.any_eq_true, mem_mappedLines, Bool.or_eq_true, recentOnset_iff, lineActive_iff]
      exact ⟨fun ⟨v, maps, present⟩ => ⟨v, voiceLine v, rfl, maps, present⟩, fun ⟨v, i, same, maps, present⟩ =>
        ⟨v, maps, by rwa [show i = voiceLine v from Fin.ext same] at present⟩⟩
    simp only [Bool.and_eq_true, decide_eq_true_eq, speech, Option.some.injEq, exists_eq_left', and_assoc]

theorem onsetsDue_iff (s : State) : onsetsDue s = true ↔ isRunning s = true ∧ ∃ v, ∃ o ∈ get s.onsets v,
    16 * (max s.settings.lmin s.settings.lmax : Nat) + 16 < tickDiff (stampOf s.tb.frame 0) o.stamp := by
  simp [onsetsDue, any_iff_get, onsetOld, lmaxBound]

theorem lastOnsetsDue_iff (s : State) : lastOnsetsDue s = true ↔
    ∃ v o, get s.lastOnset v = some o ∧ 65520 < tickDiff (stampOf s.tb.frame 0) o := by
  simp [lastOnsetsDue, any_iff_get, lastOld, Option.any_eq_true]

theorem buffersDue_iff (s : State) : buffersDue s = true ↔
    ∃ b f, get s.air.bufFree b = some f ∧ later f s.tb.frame = false := by
  simp [buffersDue, any_iff_get, atOrBefore, Option.any_eq_true]

theorem mirrorDue_iff (s : State) : mirrorDue s = true ↔
    ∃ r ∈ s.out.mirror, r.past = false ∧ (s.tb.frame - r.showAt).toNat = 4096 := by
  simp only [mirrorDue, List.any_eq_true, Bool.and_eq_true, Bool.not_eq_true', beq_iff_eq]
  rfl

theorem waitOver_iff (s : State) (n : SlotNo) : waitOver s n = true ↔ ∃ c, cueOf s n = some c ∧ c.waitLimit ≠ 0 ∧
    atOrAfter s.tb.frame (c.dueFrame.getD 0 + BitVec.ofNat 28 c.waitLimit) = true := by
  unfold waitOver
  cases cueOf s n <;> simp [addFrames]

theorem expiryDue_iff (s : State) : expiryDue s = true ↔ isRunning s = true ∧ ∃ n ∈ s.disp.due, ∃ c, cueOf s n = some c ∧
    c.waitLimit ≠ 0 ∧ atOrAfter s.tb.frame (c.dueFrame.getD 0 + BitVec.ofNat 28 c.waitLimit) = true := by
  simp only [expiryDue, Bool.and_eq_true, List.any_eq_true, waitOver_iff]

/-- The work of a boundary that is left to commands is marked where its conditions hold. -/
theorem frameMarks_marked (slot : Bool) (s : State) : WorkMarked (frameMarks slot s) where
  pause w := by
    show get (Vector.ofFn (pauseDue s)) w = true ↔ _
    rw [get_ofFn]
    exact pauseDue_iff s w
  timeout := handoffOver_iff s
  silence := leadSilent_iff s
  onsets := onsetsDue_iff s
  lastOnsets := lastOnsetsDue_iff s
  buffers := buffersDue_iff s
  mirror := mirrorDue_iff s
  atFrame := atFrameReached_iff s
  expiry := expiryDue_iff s

end Sys2Proof.Machine
end

