-- ==== Sys2Proof/Proofs/BoundarySlot.lean ====
section
/-! The slot of a boundary (R141 to R143, R175): what each run state sends, and what every slot leaves as it was. -/

namespace Sys2Proof.Machine

/-! ### What a slot leaves as it was -/

/-- t differs from s only where a slot acts; no row id is taken, and the operation in flight stays but for its dirty mark. -/
structure SlotStill (s t : State) : Prop extends SlotFrame s t where
  nextRowId : t.nextRowId = s.nextRowId
  op : undirty t.pe.op = undirty s.pe.op

namespace SlotStill

theorem refl (s : State) : SlotStill s s := ⟨.refl s, rfl, rfl⟩

theorem trans {s t u : State} (h : SlotStill s t) (g : SlotStill t u) : SlotStill s u :=
  ⟨h.toSlotFrame.trans g.toSlotFrame, g.nextRowId.trans h.nextRowId, g.op.trans h.op⟩

theorem of_local {s t : State} (h : Local s t) (rows : RowsKept s t) : SlotStill s t := ⟨h.toSlotFrame, rows.nextRowId, h.op⟩

/-- An update of the schedule and the output. -/
theorem air_out (s : State) (a : AirSchedule) (o : Output) : SlotStill s { s with air := a, out := o } := by
  refine ⟨?_, rfl, rfl⟩
  constructor <;> first | rfl | exact .same rfl rfl

end SlotStill

theorem journal_slotStill (r : Record) (s : State) : SlotStill s (journal r s) :=
  .of_local (journal_local ..) (journal_rowsKept ..)

theorem feedAttempt_slotStill (s : State) : SlotStill s (feedAttempt s) :=
  .of_local (feedAttempt_local s) (feedAttempt_rowsKept s)

theorem feedTest_slotStill (s : State) : SlotStill s (feedTest s) := .of_local (feedTest_local s) (feedTest_rowsKept s)

theorem frameCues_slotStill (s : State) : SlotStill s (frameCues s) := .of_local (frameCues_local s) (frameCues_rowsKept s)

theorem headLeaves_slotStill (e : Entry) (rest : List Entry) (s : State) : SlotStill s (headLeaves e rest s) := .air_out ..

theorem handOnShown_slotStill (e : Entry) (s : State) : SlotStill s (handOnShown e s) := by
  unfold handOnShown
  dsimp only
  split
  · exact .trans ⟨(count_local ..).toSlotFrame, rfl, rfl⟩ (journal_slotStill ..)
  · exact (SlotStill.of_local (cueRowShown_local ..) (cueRowShown_rowsKept ..)).trans (journal_slotStill ..)

theorem showHead_slotStill (e : Entry) (rest : List Entry) (s : State) : SlotStill s (showHead e rest s) :=
  (((headLeaves_slotStill ..).trans (handOnShown_slotStill ..)).trans (feedAttempt_slotStill _)).trans (feedTest_slotStill _)

theorem commandUnit_slotStill (s : State) : SlotStill s (commandUnit s).2 := by
  unfold commandUnit
  repeat' split
  all_goals first | exact .refl s | exact showHead_slotStill .. | exact .air_out ..

theorem sendSlot_slotStill (units : List Byte) (s : State) : SlotStill s (sendSlot units s) := .air_out ..

theorem staged_slotStill (q : Staging) (s : State) : SlotStill s (staged q s) := .air_out ..

/-! ### The slot in RUNNING (R141 to R143) -/

/-- The slot behind a command unit that leaves u: its staging goes on from u. -/
theorem runningSlot_sends {s u : State} {command : List Byte} (h : commandUnit s = (command, u))
    (settings : u.settings.slotUnits = s.settings.slotUnits) :
    ∃ q units, runningSlot s = sendSlot (command ++ units) (staged q u) ∧
      SlotSent u.tb.frame s.settings.slotUnits command (stagingOf u) q (runningSlot s).out := by
  obtain ⟨q, units, staging, sent⟩ := sendSlot_sent command u
  rw [settings] at staging sent
  have slot : runningSlot s = sendSlot (command ++ units) (staged q u) := by
    simp only [runningSlot, h, staging]
  exact ⟨q, units, slot, slot ▸ sent⟩

theorem runningSlot_slotStill (s : State) : SlotStill s (runningSlot s) := by
  have command := commandUnit_slotStill s
  obtain ⟨q, units, slot, _⟩ := runningSlot_sends (s := s) (u := (commandUnit s).2) rfl (by rw [command.settings])
  rw [slot]
  exact (command.trans (staged_slotStill ..)).trans (sendSlot_slotStill ..)

/-- The state that the command START_CLEAR leaves to staging (R142, R147). -/
def startCleared (s : State) : State := { s with out := { s.out with owed := .none, mirror := [] } }

theorem commandUnit_startClear {s : State} (owed : s.out.owed = .startClear) :
    commandUnit s = ([0x18], startCleared s) := by
  simp only [commandUnit, owed, if_true]
  rfl

theorem showDue_iff (s : State) : showDue s = true ↔ ∃ e rest, s.air.entries = e :: rest ∧ e.showAt = s.tb.frame := by
  unfold showDue
  cases s.air.entries <;> simp

theorem clearDue_iff (s : State) : clearDue s = true ↔ ∃ f, s.air.clear = some f ∧ atOrAfter s.tb.frame f = true := by
  unfold clearDue
  cases s.air.clear <;> simp

/-- With nothing owed, shown or cleared a slot has no command unit (R142). -/
theorem commandUnit_nothing {s : State} (owed : s.out.owed = .none) (shows : showDue s = false) (clears : clearDue s = false) :
    commandUnit s = ([], s) := by
  unfold commandUnit
  rw [owed]
  simp only [reduceCtorEq, if_false]
  split
  · rename_i e rest entries
    have later : e.showAt ≠ s.tb.frame := fun now => by simp [showDue, entries, now] at shows
    simp [later, clears]
  · simp [clears]

theorem slotDeferred_iff (s : State) : slotDeferred s = true ↔
    isRunning s = true ∧ s.out.owed = .none ∧ (showDue s = true ∨ clearDue s = true) := by
  simp [slotDeferred, and_assoc]

theorem haltCheck_of_running {s : State} (h : s.control.runState = .running) : haltCheck s = s := by
  simp [haltCheck, h]

theorem isRunning_iff (s : State) : isRunning s = true ↔ s.control.runState = .running := by simp [isRunning]

theorem slotNow_of_running {s : State} (h : s.control.runState = .running) : slotNow s = runningSlot s := by
  have after : (runningSlot s).control.runState = .running := by rw [(runningSlot_slotStill s).control, h]
  simp only [slotNow, boundarySlot, h]
  exact haltCheck_of_running after

/-! ### The slot outside RUNNING (R141, R174, R175) -/

theorem slotNow_of_filler {s : State} (h : s.control.runState = .halted ∨ s.control.runState = .starting) :
    slotNow s = sendSlot [] s := by
  rcases h with h | h
  · simp [slotNow, boundarySlot, h, haltCheck, sendSlot]
  · simp [slotNow, boundarySlot, h, haltCheck, sendSlot]

/-- The state in which the halting CLEAR has been sent (R141, R147). -/
def haltCleared (s : State) : State :=
  sendSlot [0x18] { s with out := { s.out with owed := .none, mirror := [], completion := Vector.replicate 4 none } }

theorem slotNow_of_haltClear {s : State} (h : s.control.runState = .halting) (owed : s.out.owed = .haltClear) :
    slotNow s = haltCheck (haltCleared s) := by
  simp only [slotNow, boundarySlot, h, haltingSlot, owed, if_true]
  rfl

theorem slotNow_of_haltFiller {s : State} (h : s.control.runState = .halting) (owed : s.out.owed ≠ .haltClear) :
    slotNow s = haltCheck (sendSlot [] s) := by
  simp only [slotNow, boundarySlot, h, haltingSlot, owed, if_false]

theorem flushActive_iff (s : State) : flushActive s = true ↔ ∃ step g c since, s.pe.op = some (.pass true step g c since) := by
  unfold flushActive
  split
  · rename_i op
    simp [op]
  · rename_i other
    simpa using other

/-- What may become of a halt at its check: it goes on, it ends, or it ends in STARTING or in a failed start (R174, R175). -/
theorem haltCheck_cases (s : State) :
    haltCheck s = s ∨
    s.control.runState = .halting ∧
      (haltCheck s = { s with control := { s.control with runState := .halted } } ∨
       haltCheck s = { s with control := { s.control with runState := .halted, run := false } } ∨
       haltCheck s = { s with
         control := { s.control with runState := .starting }, pe := { s.pe with op := some (.settingsRead s.clock) } }) := by
  unfold haltCheck
  split
  · rename_i reached
    refine .inr ⟨reached.1, ?_⟩
    unfold enterHalted enterStarting
    dsimp only
    repeat' split
    · exact .inr (.inl rfl)
    · exact .inr (.inr rfl)
    · exact .inl rfl
  · exact .inl rfl

end Sys2Proof.Machine
end

