-- ==== Sys2Proof/Proofs/Boundary.lean ====
section
/-! The frame boundary as a whole (R3): its frame, its counters, its scan, its slot with the tests behind it, and the marks of
what is left. -/

namespace Sys2Proof.Machine

/-! ### The frame of a boundary -/

namespace BoundaryFrame

theorem trans {s t u : State} (h : BoundaryFrame s t) (g : BoundaryFrame t u) : BoundaryFrame s u where
  builders := g.builders.trans h.builders
  nextRowId := g.nextRowId.trans h.nextRowId
  onsets := g.onsets.trans h.onsets
  est := g.est.trans h.est
  lead := g.lead.trans h.lead
  roles := g.roles.trans h.roles
  reported := g.reported.trans h.reported
  mem := g.mem.trans h.mem
  pending := g.pending.trans h.pending
  clock := g.clock.trans h.clock
  lines := g.lines.trans h.lines
  resetLow := g.resetLow.trans h.resetLow
  freeze := g.freeze.trans h.freeze
  enable := g.enable.trans h.enable
  settings := by have e := g.settings; rw [h.settings] at e; exact e
  engine := by have e := g.engine; rw [h.engine] at e; exact e
  records := h.records.trans g.records

end BoundaryFrame

/-- t has of s what the work of a boundary leaves as it was once the counters have risen: TB, the ports, LA and the capture
lines too. -/
structure Still (s t : State) : Prop extends BoundaryFrame s t where
  tb : t.tb = s.tb
  ports : t.ports = s.ports
  la : t.la = s.la
  capture : t.capture = s.capture
  lastOnset : t.lastOnset = s.lastOnset

namespace Still

theorem refl (s : State) : Still s s := by
  refine ⟨?_, rfl, rfl, rfl, rfl, rfl⟩
  constructor <;> first | rfl | exact .refl s

theorem trans {s t u : State} (h : Still s t) (g : Still t u) : Still s u :=
  ⟨h.toBoundaryFrame.trans g.toBoundaryFrame, g.tb.trans h.tb, g.ports.trans h.ports, g.la.trans h.la,
    g.capture.trans h.capture, g.lastOnset.trans h.lastOnset⟩

theorem of_slot {s t : State} (h : SlotStill s t) : Still s t := by
  refine ⟨?_, h.tb, h.ports, h.la, h.capture, h.lastOnset⟩
  exact {
    builders := h.builders, nextRowId := h.nextRowId, onsets := h.onsets, est := h.est
    lead := by rw [h.la], roles := by rw [h.la], reported := by rw [h.la]
    mem := h.mem, pending := h.pending, clock := h.clock, lines := h.lines, resetLow := h.resetLow
    freeze := by rw [h.control], enable := by rw [h.control]
    settings := h.settings
    engine := by rw [h.engine]
    records := h.records }

/-- The run state, the work outstanding, and of the page engine the scan counts and the operation in flight are set. -/
theorem of_engine (s : State) (r : RunState) (run : Bool) (w : Work) (scans skipped : Word32) (op : Option PageOp) :
    Still s { s with
      control := { s.control with runState := r, run := run }, work := w
      pe := { s.pe with scans := scans, skipped := skipped, op := op } } := by
  refine ⟨?_, rfl, rfl, rfl, rfl, rfl⟩
  constructor <;> first | rfl | exact .same rfl rfl

end Still

theorem haltCheck_still (s : State) : Still s (haltCheck s) := by
  rcases haltCheck_cases s with e | ⟨_, e | e | e⟩ <;> rw [e]
  · exact .refl s
  · exact .of_engine s .halted s.control.run s.work s.pe.scans s.pe.skipped s.pe.op
  · exact .of_engine s .halted false s.work s.pe.scans s.pe.skipped s.pe.op
  · exact .of_engine s .starting s.control.run s.work s.pe.scans s.pe.skipped _

theorem boundarySlot_slotStill (s : State) : SlotStill s (boundarySlot s) := by
  unfold boundarySlot
  split
  · exact runningSlot_slotStill s
  · unfold haltingSlot
    split
    · exact SlotStill.trans (.air_out s s.air _) (sendSlot_slotStill ..)
    · exact sendSlot_slotStill ..
  all_goals exact sendSlot_slotStill ..

theorem slotNow_still (s : State) : Still s (slotNow s) :=
  (Still.of_slot (boundarySlot_slotStill s)).trans (haltCheck_still _)

theorem frameSlot_still (s : State) : Still s (frameSlot s) := by
  unfold frameSlot
  split
  · exact .refl s
  · exact slotNow_still s

theorem scanBoundary_still (s : State) : Still s (scanBoundary s) := by
  unfold scanBoundary
  repeat' split
  · exact .refl s
  · exact .of_engine s s.control.runState s.control.run s.work s.pe.scans (s.pe.skipped + 1) s.pe.op
  · exact .of_engine s s.control.runState s.control.run s.work (s.pe.scans + 1) s.pe.skipped _

theorem frameMarks_still (b : Bool) (s : State) : Still s (frameMarks b s) :=
  .of_engine s s.control.runState s.control.run _ s.pe.scans s.pe.skipped s.pe.op

/-- What follows the slot of a boundary. -/
theorem slotFollowed_still (b : Bool) (s : State) : Still s (frameMarks b (frameCues (frameFeed s))) :=
  (((scanBoundary_still s).trans (.of_slot (feedAttempt_slotStill _))).trans (.of_slot (frameCues_slotStill _))).trans
    (frameMarks_still ..)

/-- The counters that rise at a boundary, and the frame of their rise (R30, R31, R88). -/
theorem frameCounts_frame (s : State) : BoundaryFrame s (frameCounts s) := by
  constructor <;> first | rfl | exact .same rfl rfl

theorem frameWork_still (s : State) : Still (frameCounts s) (frameWork s) :=
  (frameSlot_still _).trans (slotFollowed_still ..)

theorem frameWork_frame (s : State) : BoundaryFrame s (frameWork s) :=
  (frameCounts_frame s).trans (frameWork_still s).toBoundaryFrame

@[simp] theorem frameWork_tb (s : State) : (frameWork s).tb = s.tb := (frameWork_still s).tb

theorem frameWork_records (s : State) : RecordsKept s (frameWork s) := (frameWork_frame s).records

/-! ### Outside RUNNING -/

theorem scanBoundary_of_stopped {s : State} (h : isRunning s = false) : scanBoundary s = s := by simp [scanBoundary, h]

/-- Outside RUNNING the work of a boundary is its slot alone. -/
theorem slotFollowed_of_stopped {s : State} (h : isRunning s = false) (b : Bool) :
    frameMarks b (frameCues (frameFeed s)) = frameMarks b s := by
  rw [frameFeed, scanBoundary_of_stopped h, feedAttempt_of_stopped h, frameCues_of_stopped h]

theorem isRunning_haltCheck {s : State} (h : isRunning s = false) : isRunning (haltCheck s) = false := by
  rcases haltCheck_cases s with e | ⟨_, e | e | e⟩ <;> rw [e]
  · exact h
  all_goals rfl

theorem frameWork_of_stopped {s : State} (h : isRunning s = false) :
    frameWork s = frameMarks false (slotNow (frameCounts s)) := by
  have deferred : slotDeferred (frameCounts s) = false := by
    rw [← Bool.not_eq_true, slotDeferred_iff]
    intro both
    rw [show isRunning (frameCounts s) = isRunning s from rfl, h] at both
    exact Bool.false_ne_true both.1
  have stopped : isRunning (slotNow (frameCounts s)) = false := by
    refine isRunning_haltCheck ?_
    rw [isRunning, (boundarySlot_slotStill (frameCounts s)).control]
    exact h
  rw [frameWork, deferred, frameSlot, deferred]
  exact slotFollowed_of_stopped stopped false

/-! ### In RUNNING -/

/-- What the tests of a boundary read is the same in v and u. -/
structure ReadsAlike (v u : State) : Prop where
  clock : v.clock = u.clock
  tb : v.tb = u.tb
  air : v.air = u.air
  queue : v.queue = u.queue
  disp : v.disp = u.disp
  settings : v.settings = u.settings
  est : v.est = u.est
  out : v.out = u.out
  counters : v.counters = u.counters
  runState : v.control.runState = u.control.runState
  fault : v.pe.fault = u.pe.fault

theorem ReadsAlike.besides_eq {v u : State} (h : ReadsAlike v u) : besides u v = v := by
  rw [besides, ← h.clock, ← h.tb, ← h.air, ← h.queue, ← h.disp, ← h.settings, ← h.est, ← h.out, ← h.counters, ← h.runState,
    ← h.fault]

theorem scanBoundary_reads {v s : State} (h : ReadsAlike v s) : ReadsAlike v (scanBoundary s) := by
  unfold scanBoundary
  repeat' split
  all_goals exact ⟨h.clock, h.tb, h.air, h.queue, h.disp, h.settings, h.est, h.out, h.counters, h.runState, h.fault⟩

/-- The tests behind the slot of a boundary in RUNNING are those of R48, R128 and R132, told of any state that reads alike. -/
theorem slotFollowed_tests {v s : State} (running : isRunning s = true) (h : ReadsAlike v s) (b : Bool) :
    BoundaryTests v (frameMarks b (frameCues (frameFeed s))) := by
  have scanned := scanBoundary_reads h
  have runs : isRunning (scanBoundary s) = true := by
    rwa [isRunning, ← scanned.runState, h.runState]
  have tests := (boundaryTests (scanBoundary s) runs).besides v (frameMarks b (frameCues (frameFeed s))).work
  rwa [scanned.besides_eq] at tests

theorem slotFollowed_out (b : Bool) (s : State) : (frameMarks b (frameCues (frameFeed s))).out = s.out := by
  have cues : (frameCues (frameFeed s)).out = (frameFeed s).out := (frameCues_local _).out
  have feed : (frameFeed s).out = (scanBoundary s).out := (feedAttempt_local _).out
  have scan : (scanBoundary s).out = s.out := by
    unfold scanBoundary
    repeat' split
    all_goals rfl
  exact cues.trans (feed.trans scan)

/-! ### The scan (R155) -/

theorem scanActive_undirty (s : State) : scanActive (withOp (undirty s.pe.op) s) = scanActive s := by
  unfold scanActive withOp
  rcases s.pe.op with _ | ⟨since⟩ | ⟨flush, step, g, c, since⟩
  · rfl
  · rfl
  · cases step <;> cases flush <;> rfl

theorem scanActive_of_undirty {s t : State} (h : undirty t.pe.op = undirty s.pe.op) : scanActive t = scanActive s := by
  rw [← scanActive_undirty t, ← scanActive_undirty s, h]
  rfl

/-- Only a slot write in flight can be dirty. -/
theorem op_of_undirty_header {op : Option PageOp} {flush : Bool} {g c : Word32} {since : Nat}
    (h : undirty op = some (.pass flush .header g c since)) : op = some (.pass flush .header g c since) := by
  unfold undirty at h
  split at h
  · simp at h
  · exact h

/-- The scan of a boundary as what follows it leaves it. -/
theorem slotFollowed_scan (b : Bool) (s : State) :
    let t := frameMarks b (frameCues (frameFeed s))
    undirty t.pe.op = undirty (scanBoundary s).pe.op ∧ t.pe.scans = (scanBoundary s).pe.scans ∧
    t.pe.skipped = (scanBoundary s).pe.skipped := by
  have tested := (feedAttempt_slotStill (scanBoundary s)).trans (frameCues_slotStill _)
  exact ⟨tested.op, (congrArg PageEngine.scans tested.engine :), (congrArg PageEngine.skipped tested.engine :)⟩

end Sys2Proof.Machine
end

