-- ==== Sys2Proof/Proofs/FrameBegins.lean ====
section
/-! A frame begins (R3): what a boundary's own frame, its counters, its scan, its slot and its tests come to. -/

namespace Sys2Proof.Machine

/-! ### The frame itself (R3, R58) -/

/-- Lines restarted one after another are restarted together (R57). -/
theorem foldl_restartLine (l : List LineNo) (s : State) :
    l.foldl restartLine s = { s with capture := Vector.ofFn (fun i =>
      if i ∈ l then restarted (get s.lines i) (get s.capture i) else get s.capture i) } := by
  induction l generalizing s with
  | nil =>
    have same : s.capture = Vector.ofFn (get s.capture) := table_ext fun i => (get_ofFn ..).symm
    simpa using congrArg (fun c => { s with capture := c }) same
  | cons j rest ih =>
    rw [List.foldl_cons, ih]
    have table : (Vector.ofFn fun i => if i ∈ rest then restarted (get (restartLine s j).lines i) (get (restartLine s j).capture i)
        else get (restartLine s j).capture i) = Vector.ofFn (fun i =>
          if i ∈ j :: rest then restarted (get s.lines i) (get s.capture i) else get s.capture i) := by
      refine table_ext fun i => ?_
      rw [get_ofFn, get_ofFn, restartLine, get_change]
      by_cases same : j = i
      · subst same
        simp only [if_true, List.mem_cons_self, ite_self, restarted]
      · have other : i ≠ j := fun e => same e.symm
        simp only [if_neg same, List.mem_cons, other, false_or]
    rw [table]
    rfl

/-- A load that is taken restarts every filter and makes each last onset absent (R58). -/
theorem loadTaken_eq (s : State) : loadTaken s = { s with
    lastOnset := Vector.replicate 2 none
    capture := Vector.ofFn (fun i => restarted (get s.lines i) (get s.capture i)) } := by
  have every (i : LineNo) : i ∈ allLines := by revert i; decide
  rw [loadTaken, foldl_restartLine]
  simp only [every, if_true]

/-- s is a after the frame number, origin and ticks of a boundary, with whatever TB, its pulse and its REFERENCE_STATE record
change beside: all but these is as it was. -/
structure Opened (a s : State) (origin : Nat) : Prop extends BoundaryFrame a s where
  frame : s.tb.frame = a.tb.load.getD (a.tb.frame + 1)
  load : s.tb.load = none
  began : s.tb.origin = some origin
  heldTick : s.tb.heldTick = 0
  stepped : s.tb.stepped = none
  noLoad : a.tb.load = none → s.capture = a.capture ∧ s.lastOnset = a.lastOnset
  loadTaken : a.tb.load.isSome = true →
    (∀ i, get s.capture i = restarted (get a.lines i) (get a.capture i)) ∧ ∀ v, get s.lastOnset v = none
  sameSettings : s.settings = a.settings
  ports : s.ports = a.ports
  la : s.la = a.la
  counters : s.counters = a.counters
  queue : s.queue = a.queue
  air : s.air = a.air
  disp : s.disp = a.disp
  out : s.out = a.out
  run : s.control.run = a.control.run
  runState : s.control.runState = a.control.runState
  op : s.pe.op = a.pe.op
  scans : s.pe.scans = a.pe.scans
  skipped : s.pe.skipped = a.pe.skipped

/-- TB and the capture lines are set. -/
theorem tb_capture_frame (s : State) (b : Timebase) (c : Vector Capture 6) (l : Vector (Option Stamp) 2) :
    BoundaryFrame s { s with tb := b, capture := c, lastOnset := l } := by
  constructor <;> first | rfl | exact .same rfl rfl

/-- The frame number, load, origin and ticks that a boundary sets (R3). -/
def openedTb (origin : Nat) (b : Timebase) : Timebase :=
  { b with frame := b.load.getD (b.frame + 1), load := none, origin := some origin, heldTick := 0, stepped := none }

theorem newFrame_of_noLoad {s : State} (h : s.tb.load = none) (origin : Nat) :
    newFrame origin s = { s with tb := openedTb origin s.tb } := by
  simp [newFrame, openedTb, h]

theorem newFrame_of_load {s : State} (h : s.tb.load.isSome = true) (origin : Nat) :
    newFrame origin s = loadTaken { s with tb := openedTb origin s.tb } := by
  simp [newFrame, openedTb, h]

theorem newFrame_opened (origin : Nat) (a : State) : Opened a (newFrame origin a) origin := by
  cases load : a.tb.load with
  | none =>
    rw [newFrame_of_noLoad load]
    exact ⟨tb_capture_frame a _ a.capture a.lastOnset, rfl, rfl, rfl, rfl, rfl, fun _ => ⟨rfl, rfl⟩,
      fun taken => by simp [load] at taken, rfl, rfl, rfl, rfl, rfl, rfl, rfl, rfl, rfl, rfl, rfl, rfl, rfl⟩
  | some f =>
    have taken : a.tb.load.isSome = true := by simp [load]
    rw [newFrame_of_load taken, loadTaken_eq]
    exact ⟨tb_capture_frame a _ _ _, rfl, rfl, rfl, rfl, rfl, fun absent => by simp [load] at absent,
      fun _ => ⟨fun i => get_ofFn .., fun v => get_replicate ..⟩, rfl, rfl, rfl, rfl, rfl, rfl, rfl, rfl, rfl, rfl, rfl, rfl, rfl⟩

/-- A pulse that is accepted with the boundary leaves the boundary as it is. -/
theorem Opened.of_acceptPulse {a s : State} {origin : Nat} {phase : Bool} (h : Opened (acceptPulse phase a) s origin) :
    Opened a s origin :=
  ⟨(tb_capture_frame a _ a.capture a.lastOnset).trans h.toBoundaryFrame, h.frame, h.load, h.began, h.heldTick, h.stepped,
    h.noLoad, h.loadTaken, h.sameSettings, h.ports, h.la, h.counters, h.queue, h.air, h.disp, h.out, h.run, h.runState, h.op,
    h.scans, h.skipped⟩

theorem newFrame_pe (origin : Nat) (s : State) : (newFrame origin s).pe = s.pe := by
  cases load : s.tb.load with
  | none => rw [newFrame_of_noLoad load]
  | some f => rw [newFrame_of_load (by simp [load]), loadTaken_eq]

theorem newFrame_tb (origin : Nat) (s : State) : (newFrame origin s).tb = openedTb origin s.tb := by
  cases load : s.tb.load with
  | none => rw [newFrame_of_noLoad load]
  | some f => rw [newFrame_of_load (by simp [load]), loadTaken_eq]

/-! ### TB changes state (R12) -/

/-- A change of TB's state is noted with its record and its flag (R12). -/
theorem tbTurns_noted (left entered : TbMode) (cause : RefCause) (s : State) : tbTurns left entered cause s =
    noted (.referenceState left entered cause) [.reference] { s with tb := { s.tb with mode := entered } } := by
  unfold tbTurns noted journal
  dsimp only
  split
  · rfl
  · simp only [raise, List.foldl, BitVec.or_assoc, BitVec.or_comm AttnFlag.journalLost.mask]

@[simp] theorem tbTurns_tb (left entered : TbMode) (cause : RefCause) (s : State) :
    (tbTurns left entered cause s).tb = { s.tb with mode := entered } := (journal_local ..).tb

theorem tbTurns_slotStill (left entered : TbMode) (cause : RefCause) (s : State) :
    SlotStill { s with tb := { s.tb with mode := entered } } (tbTurns left entered cause s) :=
  (journal_slotStill ..).trans (.of_local (raise_local ..) (raise_rowsKept ..))

/-- A change of TB's state with the boundary leaves the boundary as it is. -/
theorem Opened.tbTurns {a s : State} {origin : Nat} (h : Opened a s origin) (left entered : TbMode) (cause : RefCause) :
    Opened a (tbTurns left entered cause s) origin := by
  have still := tbTurns_slotStill left entered cause s
  have turned := (h.toBoundaryFrame.trans (tb_capture_frame s { s.tb with mode := entered } s.capture s.lastOnset)).trans
    (Still.of_slot still).toBoundaryFrame
  rcases journal_cases (.referenceState left entered cause) { s with tb := { s.tb with mode := entered } } with
    ⟨_, e⟩ | ⟨_, e⟩ <;> rw [Machine.tbTurns, e] at turned ⊢
  all_goals
    exact ⟨turned, h.frame, h.load, h.began, h.heldTick, h.stepped, h.noLoad, h.loadTaken, h.sameSettings, h.ports, h.la,
      h.counters, h.queue, h.air, h.disp, h.out, h.run, h.runState, h.op, h.scans, h.skipped⟩

/-- The boundary at which TB changes state has its record first and its flag set (R12). -/
theorem frameWork_tbTurns (left entered : TbMode) (cause : RefCause) (s : State) :
    let t := frameWork (tbTurns left entered cause s)
    flagSet .reference t = true ∧ Journaled s t t.tb.frame (.referenceState left entered cause) := by
  have kept := frameWork_records (tbTurns left entered cause s)
  refine ⟨kept.flags _ (raise_set _ _), ?_⟩
  rw [frameWork_tb, tbTurns_tb]
  exact journaled_of_kept (s := { s with tb := { s.tb with mode := entered } }) ((raise_records ..).trans kept)

/-! ### The scan of a boundary (R155) -/

theorem frameSlot_of_running {s : State} (h : s.control.runState = .running) : SlotStill s (frameSlot s) := by
  unfold frameSlot
  split
  · exact .refl s
  · rw [slotNow_of_running h]
    exact runningSlot_slotStill s

/-- The slot of a boundary in RUNNING leaves the part RUNNING, and the page engine as it is but for its dirty mark. -/
theorem frameSlot_engine {s : State} (h : s.control.runState = .running) :
    let f := frameSlot (frameCounts s)
    isRunning f = true ∧ f.pe.fault = s.pe.fault ∧ f.pe.scans = s.pe.scans ∧ f.pe.skipped = s.pe.skipped ∧
    scanActive f = scanActive s ∧ f.clock = s.clock := by
  have slot := frameSlot_of_running (s := frameCounts s) h
  refine ⟨?_, ?_, ?_, ?_, ?_, slot.clock⟩
  · rw [isRunning_iff, slot.control]
    exact h
  · rw [slot.engine]
    rfl
  · rw [slot.engine]
    rfl
  · rw [slot.engine]
    rfl
  · exact scanActive_of_undirty (t := frameSlot (frameCounts s)) (s := s) slot.op

/-- What a boundary in RUNNING does to the scan (R155). -/
theorem scanBoundary_of_running {s : State} (h : isRunning s = true) :
    (s.pe.fault = none → scanActive s = false → (scanBoundary s).pe.op = some (.pass false .header 0 0 s.clock) ∧
      (scanBoundary s).pe.scans = s.pe.scans + 1 ∧ (scanBoundary s).pe.skipped = s.pe.skipped) ∧
    (s.pe.fault = none → scanActive s = true → (scanBoundary s).pe.op = s.pe.op ∧
      (scanBoundary s).pe.scans = s.pe.scans ∧ (scanBoundary s).pe.skipped = s.pe.skipped + 1) ∧
    (s.pe.fault.isSome = true → scanBoundary s = s) := by
  simp +contextual [scanBoundary, h, issue, withOp]

theorem frameWork_scan {s : State} (h : s.control.runState = .running) :
    (s.pe.fault = none → scanActive s = false →
      (frameWork s).pe.op = some (.pass false .header 0 0 s.clock) ∧ (frameWork s).pe.scans = s.pe.scans + 1 ∧
      (frameWork s).pe.skipped = s.pe.skipped) ∧
    (s.pe.fault = none → scanActive s = true →
      scanActive (frameWork s) = true ∧ (frameWork s).pe.scans = s.pe.scans ∧
      (frameWork s).pe.skipped = s.pe.skipped + 1) ∧
    (s.pe.fault.isSome = true → (frameWork s).pe.scans = s.pe.scans ∧ (frameWork s).pe.skipped = s.pe.skipped) := by
  obtain ⟨running, fault, scans, skipped, active, clock⟩ := frameSlot_engine h
  obtain ⟨op, scanned, passed⟩ := slotFollowed_scan (slotDeferred (frameCounts s)) (frameSlot (frameCounts s))
  obtain ⟨begins, skips, quiet⟩ := scanBoundary_of_running running
  rw [fault, active, scans, skipped] at begins skips
  refine ⟨fun sound idle => ?_, fun sound busy => ?_, fun faulty => ?_⟩
  · obtain ⟨header, more, same⟩ := begins sound idle
    rw [header, clock] at op
    exact ⟨op_of_undirty_header op, scanned.trans more, passed.trans same⟩
  · obtain ⟨still, same, more⟩ := skips sound busy
    rw [still] at op
    exact ⟨(scanActive_of_undirty op).trans (active.trans busy), scanned.trans same, passed.trans more⟩
  · rw [quiet (fault ▸ faulty)] at scanned passed
    exact ⟨scanned.trans scans, passed.trans skipped⟩

/-! ### The slot outside RUNNING (R141, R174, R175) -/

/-- What the check of a halt leaves of the blocks. -/
theorem haltCheck_leaves (s : State) :
    (haltCheck s).out = s.out ∧ (haltCheck s).queue = s.queue ∧ (haltCheck s).disp = s.disp ∧ (haltCheck s).air = s.air ∧
    (haltCheck s).counters = s.counters ∧ (haltCheck s).pe.scans = s.pe.scans ∧ (haltCheck s).pe.skipped = s.pe.skipped := by
  rcases haltCheck_cases s with e | ⟨_, e | e | e⟩ <;> rw [e] <;> exact ⟨rfl, rfl, rfl, rfl, rfl, rfl, rfl⟩

/-- The slot outside RUNNING is sent without staging. -/
theorem boundarySlot_of_stopped {s : State} (h : isRunning s = false) : ∃ out, boundarySlot s = { s with out := out } := by
  unfold boundarySlot
  split
  · rename_i running
    simp [isRunning, running] at h
  · unfold haltingSlot
    split <;> exact ⟨_, rfl⟩
  all_goals exact ⟨_, rfl⟩

theorem frameWork_stopped_leaves {s : State} (h : isRunning s = false) :
    (frameWork s).work.slot = false ∧ (frameWork s).queue = s.queue ∧ (frameWork s).disp = s.disp ∧
    (frameWork s).air = s.air ∧ (frameWork s).counters = s.counters ∧ (frameWork s).pe.scans = s.pe.scans ∧
    (frameWork s).pe.skipped = s.pe.skipped := by
  obtain ⟨out, slot⟩ := boundarySlot_of_stopped (s := frameCounts s) h
  obtain ⟨_, left⟩ := haltCheck_leaves (boundarySlot (frameCounts s))
  rw [frameWork_of_stopped h]
  rw [slot] at left
  refine ⟨rfl, ?_⟩
  rw [slotNow, slot]
  exact left

/-- A halt whose CLEAR is sent ends where no flush is in flight, and else goes on (R175). -/
theorem haltCheck_of_halting {s : State} (h : s.control.runState = .halting) (owed : s.out.owed ≠ .haltClear) :
    haltCheck s = if flushActive s = true then s else enterHalted s := by
  cases flush : flushActive s <;> simp [haltCheck, h, owed, flush]

/-- The end of a halt: HALTED with RUN at 0; with RUN at 1 STARTING, or under a fault HALTED with RUN back at 0 (R174, R175).
-/
theorem enterHalted_of_run (s : State) :
    (s.control.run = false → (enterHalted s).control.runState = .halted ∧ (enterHalted s).control.run = false ∧
      (enterHalted s).pe.op = s.pe.op) ∧
    (s.control.run = true → s.pe.fault = none → (enterHalted s).control.runState = .starting ∧
      (enterHalted s).control.run = true ∧ (enterHalted s).pe.op = some (.settingsRead s.clock)) ∧
    (s.control.run = true → s.pe.fault.isSome = true → (enterHalted s).control.runState = .halted ∧
      (enterHalted s).control.run = false ∧ (enterHalted s).pe.op = s.pe.op) := by
  simp +contextual [enterHalted, enterStarting, withOp]

/-- The boundary that sends the halting CLEAR (R175). -/
theorem frameWork_haltClear {s : State} (h : s.control.runState = .halting) (owed : s.out.owed = .haltClear) :
    frameWork s = frameMarks false
      (if flushActive s = true then haltCleared (frameCounts s) else enterHalted (haltCleared (frameCounts s))) := by
  have stopped : isRunning s = false := by simp [isRunning, h]
  have cleared : (haltCleared (frameCounts s)).out.owed ≠ .haltClear := by
    show Owed.none ≠ .haltClear
    decide
  rw [frameWork_of_stopped stopped, slotNow_of_haltClear (s := frameCounts s) h owed,
    haltCheck_of_halting (s := haltCleared (frameCounts s)) h cleared]
  rfl

theorem frameWork_haltClear_flushing {s : State} (h : s.control.runState = .halting) (owed : s.out.owed = .haltClear)
    (flush : ∃ step g c since, s.pe.op = some (.pass true step g c since)) :
    (frameWork s).control.runState = .halting ∧ (frameWork s).control.run = s.control.run ∧
    (frameWork s).pe.op = s.pe.op := by
  rw [frameWork_haltClear h owed, if_pos ((flushActive_iff s).mpr flush)]
  exact ⟨h, rfl, rfl⟩

theorem frameWork_haltClear_ends {s : State} (h : s.control.runState = .halting) (owed : s.out.owed = .haltClear)
    (noFlush : ∀ step g c since, s.pe.op ≠ some (.pass true step g c since)) :
    (s.control.run = false → (frameWork s).control.runState = .halted ∧ (frameWork s).control.run = false ∧
      (frameWork s).pe.op = s.pe.op) ∧
    (s.control.run = true → s.pe.fault = none → (frameWork s).control.runState = .starting ∧
      (frameWork s).control.run = true ∧ (frameWork s).pe.op = some (.settingsRead s.clock)) ∧
    (s.control.run = true → s.pe.fault.isSome = true → (frameWork s).control.runState = .halted ∧
      (frameWork s).control.run = false ∧ (frameWork s).pe.op = s.pe.op) := by
  have noneActive : ¬flushActive s = true := fun flush => by
    obtain ⟨step, g, c, since, op⟩ := (flushActive_iff s).mp flush
    exact noFlush step g c since op
  rw [frameWork_haltClear h owed, if_neg noneActive]
  exact enterHalted_of_run (haltCleared (frameCounts s))

/-- The slot of a boundary outside RUNNING (R141). -/
theorem frameWork_filler {s : State} (h : s.control.runState = .halted ∨ s.control.runState = .starting) :
    (frameWork s).out.slot = [0xC5, 0x00] ∧ (frameWork s).control.runState = s.control.runState := by
  have stopped : isRunning s = false := by rcases h with h | h <;> simp [isRunning, h]
  rw [frameWork_of_stopped stopped, slotNow_of_filler (s := frameCounts s) h]
  exact ⟨rfl, rfl⟩

theorem frameWork_haltFiller {s : State} (h : s.control.runState = .halting) (owed : s.out.owed ≠ .haltClear) :
    (frameWork s).out.slot = [0xC5, 0x00] := by
  have stopped : isRunning s = false := by simp [isRunning, h]
  rw [frameWork_of_stopped stopped, slotNow_of_haltFiller (s := frameCounts s) h owed]
  exact congrArg Output.slot (haltCheck_leaves (sendSlot [] (frameCounts s))).1

theorem frameWork_haltClear_out {s : State} (h : s.control.runState = .halting) (owed : s.out.owed = .haltClear) :
    (frameWork s).out.slot = [0xC5, 0x01, 0x18] ∧ (frameWork s).out.owed = .none ∧ (frameWork s).out.mirror = [] ∧
    ∀ b, get (frameWork s).out.completion b = none := by
  have stopped : isRunning s = false := by simp [isRunning, h]
  have out : (frameWork s).out = (haltCleared (frameCounts s)).out := by
    rw [frameWork_of_stopped stopped, slotNow_of_haltClear (s := frameCounts s) h owed]
    exact (haltCheck_leaves _).1
  rw [out]
  exact ⟨rfl, rfl, rfl, fun b => get_replicate ..⟩

/-! ### The slot in RUNNING (R141 to R143) -/

/-- What the slot of a boundary leaves to the tests reads as the state behind the slot does. -/
theorem slotLeft_reads {a s t u : State} {origin : Nat} {entries : List Entry} (h : Opened a s origin) (tb : t.tb = s.tb)
    (out : t.out = u.out) (slot : u = { frameCounts s with air := { s.air with entries := entries }, out := u.out }) :
    ReadsAlike (slotLeft a t entries) u := by
  rw [slot]
  refine ⟨h.clock.symm, tb, ?_, h.queue.symm, h.disp.symm, h.sameSettings.symm, h.est.symm, out, h.counters.symm,
    h.runState.symm, ?_⟩
  · rw [slotLeft, ← h.air]
  · show a.pe.fault = s.pe.fault
    rw [h.engine]

/-- A boundary in RUNNING whose slot is its own: the slot is sent behind the command, which leaves the output at o to staging,
and the tests follow. -/
theorem frameWork_sends {a s : State} {origin : Nat} {command : List Byte} {o : Output} (h : Opened a s origin)
    (running : s.control.runState = .running) (own : slotDeferred (frameCounts s) = false)
    (unit : commandUnit (frameCounts s) = (command, { frameCounts s with out := o })) :
    (frameWork s).out.owed = o.owed ∧ (frameWork s).out.mirror = o.mirror ∧ (frameWork s).work.slot = false ∧
    ∃ q, SlotSent s.tb.frame s.settings.slotUnits command
        { entries := s.air.entries, cursor := o.cursor, completion := o.completion } q (frameWork s).out ∧
      BoundaryTests (slotLeft a (frameWork s) q.entries) (frameWork s) := by
  obtain ⟨q, units, slot, sent⟩ := runningSlot_sends unit rfl
  have sends : frameSlot (frameCounts s) = sendSlot (command ++ units) (staged q { frameCounts s with out := o }) := by
    rw [frameSlot, own, if_neg Bool.false_ne_true, slotNow_of_running (s := frameCounts s) running, slot]
  have out : (frameWork s).out = (sendSlot (command ++ units) (staged q { frameCounts s with out := o })).out := by
    rw [frameWork, slotFollowed_out, sends]
  have reads := slotLeft_reads h (frameWork_tb s) out (entries := q.entries) rfl
  rw [← sends] at reads
  have runs : isRunning (frameSlot (frameCounts s)) = true := (frameSlot_engine running).1
  rw [slot, ← out] at sent
  refine ⟨?_, ?_, ?_, q, sent, slotFollowed_tests runs reads (slotDeferred (frameCounts s))⟩
  · rw [out]
    rfl
  · rw [out]
    rfl
  · rw [frameWork, own]
    rfl

/-- A boundary in RUNNING whose slot shows or clears: the slot is left to its command, and the tests are made (R142). -/
theorem frameWork_defers {a s : State} {origin : Nat} (h : Opened a s origin) (deferred : slotDeferred (frameCounts s) = true) :
    (frameWork s).work.slot = true ∧ (frameWork s).out = s.out ∧
    BoundaryTests (slotLeft a (frameWork s) a.air.entries) (frameWork s) := by
  have left : frameSlot (frameCounts s) = frameCounts s := by rw [frameSlot, if_pos deferred]
  have out : (frameWork s).out = s.out := by
    rw [frameWork, slotFollowed_out, left]
    rfl
  have reads := slotLeft_reads h (frameWork_tb s) (u := frameCounts s) out (entries := s.air.entries) rfl
  rw [← left, h.air] at reads
  have runs : isRunning (frameSlot (frameCounts s)) = true := by
    rw [left]
    exact ((slotDeferred_iff _).mp deferred).1
  refine ⟨?_, out, slotFollowed_tests runs reads (slotDeferred (frameCounts s))⟩
  rw [frameWork, deferred]
  rfl

/-! ### The boundary as the statements have it -/

/-- A boundary in RUNNING with START_CLEAR owed (R141, R142, R147). -/
theorem frameWork_startClear {a s : State} {origin : Nat} (h : Opened a s origin) (running : a.control.runState = .running)
    (owed : a.out.owed = .startClear) :
    let t := frameWork s
    (∃ n rest, t.out.slot = 0xC5 :: n :: 0x18 :: rest) ∧ t.out.owed = .none ∧ t.out.mirror = [] ∧ t.work.slot = false ∧
    ∃ q, SlotSent t.tb.frame a.settings.slotUnits [0x18] (stagingOf a) q t.out ∧
      BoundaryTests (slotLeft a t q.entries) t := by
  have own : slotDeferred (frameCounts s) = false := by
    rw [← Bool.not_eq_true, slotDeferred_iff]
    rintro ⟨_, unowed, _⟩
    rw [show (frameCounts s).out = s.out from rfl, h.out, owed] at unowed
    simp at unowed
  have unit := commandUnit_startClear (s := frameCounts s) (by rw [← owed, ← h.out]; rfl)
  obtain ⟨unowed, mirror, slot, q, sent, tests⟩ := frameWork_sends h (h.runState.trans running) own unit
  have found : stagingOf a = { entries := s.air.entries, cursor := s.out.cursor, completion := s.out.completion } := by
    rw [stagingOf, h.air, h.out]
  rw [← frameWork_tb s, h.sameSettings] at sent
  obtain ⟨staging, stages, units, rest⟩ := id sent
  refine ⟨⟨_, staging, units⟩, unowed, mirror, slot, q, ?_, tests⟩
  rw [found]
  exact sent

/-- A boundary in RUNNING with nothing owed, shown or cleared (R141, R143). -/
theorem frameWork_stages {a s : State} {origin : Nat} (h : Opened a s origin) (running : a.control.runState = .running)
    (owed : a.out.owed = .none) (shows : ∀ e rest, a.air.entries = e :: rest → e.showAt ≠ s.tb.frame)
    (clears : ∀ f, a.air.clear = some f → atOrAfter s.tb.frame f = false) :
    let t := frameWork s
    t.out.owed = .none ∧ t.out.mirror = a.out.mirror ∧ t.work.slot = false ∧
    ∃ q, SlotSent t.tb.frame a.settings.slotUnits [] (stagingOf a) q t.out ∧ BoundaryTests (slotLeft a t q.entries) t := by
  have noShow : showDue (frameCounts s) = false := by
    rw [← Bool.not_eq_true, showDue_iff]
    rintro ⟨e, rest, entries, now⟩
    exact shows e rest (h.air ▸ entries) now
  have noClear : clearDue (frameCounts s) = false := by
    rw [← Bool.not_eq_true, clearDue_iff]
    rintro ⟨f, clear, reached⟩
    exact Bool.false_ne_true ((clears f (h.air ▸ clear)).symm.trans reached)
  have nothing : (frameCounts s).out.owed = .none := by
    rw [← owed, ← h.out]
    rfl
  have own : slotDeferred (frameCounts s) = false := by simp [slotDeferred, noShow, noClear]
  have unit : commandUnit (frameCounts s) = ([], { frameCounts s with out := (frameCounts s).out }) :=
    commandUnit_nothing nothing noShow noClear
  obtain ⟨unowed, mirror, slot, q, sent, tests⟩ := frameWork_sends h (h.runState.trans running) own unit
  have found : stagingOf a = { entries := s.air.entries, cursor := s.out.cursor, completion := s.out.completion } := by
    rw [stagingOf, h.air, h.out]
  rw [← frameWork_tb s, h.sameSettings] at sent
  refine ⟨unowed.trans nothing, mirror.trans (congrArg Output.mirror h.out), slot, q, ?_, tests⟩
  rw [found]
  exact sent

/-- A boundary in RUNNING whose slot shows or clears (R142). -/
theorem frameWork_deferred {a s : State} {origin : Nat} (h : Opened a s origin) (running : a.control.runState = .running)
    (owed : a.out.owed = .none) (acts : (∃ e rest, a.air.entries = e :: rest ∧ e.showAt = s.tb.frame) ∨
      ∃ f, a.air.clear = some f ∧ atOrAfter s.tb.frame f = true) :
    (frameWork s).work.slot = true ∧ (frameWork s).out = a.out ∧
    BoundaryTests (slotLeft a (frameWork s) a.air.entries) (frameWork s) := by
  have deferred : slotDeferred (frameCounts s) = true := by
    rw [slotDeferred_iff, showDue_iff, clearDue_iff, isRunning_iff]
    rw [← h.air] at acts
    exact ⟨h.runState.trans running, (congrArg Output.owed h.out).trans owed, acts⟩
  obtain ⟨slot, out, tests⟩ := frameWork_defers h deferred
  exact ⟨slot, out.trans h.out, tests⟩

/-- The work of a boundary begins the frame that was opened, whatever the run state. -/
theorem frameWork_begins {a s : State} {origin : Nat} (h : Opened a s origin) : FrameBegins a (frameWork s) origin := by
  have still := frameWork_still s
  have frame : (frameWork s).tb.frame = s.tb.frame := by rw [frameWork_tb]
  have active : scanActive s = scanActive a := by rw [scanActive, scanActive, h.op]
  have fault : s.pe.fault = a.pe.fault := by rw [h.engine]
  have running (r : isRunning a = true) : s.control.runState = .running := h.runState.trans ((isRunning_iff a).mp r)
  have stopped (r : isRunning a = false) : isRunning s = false := by rw [isRunning, h.runState]; exact r
  exact {
    frame := by rw [frame, h.frame]; cases a.tb.load <;> rfl
    load := by rw [frameWork_tb, h.load]
    began := by rw [frameWork_tb, h.began]
    heldTick := by rw [frameWork_tb, h.heldTick]
    stepped := by rw [frameWork_tb, h.stepped]
    noLoad := fun absent => by rw [still.capture, still.lastOnset]; exact h.noLoad absent
    loadTaken := fun taken => by rw [still.capture, still.lastOnset]; exact h.loadTaken taken
    ports := fun w => by
      rw [portOf, still.ports, portOf, ← h.ports]
      exact get_map ..
    handoff := by
      rw [still.la, ← h.la]
      rfl
    scan := fun r sound idle => by
      obtain ⟨begins, _, _⟩ := frameWork_scan (running r)
      rw [← h.clock, ← h.scans, ← h.skipped]
      exact begins (fault.trans sound) (active.trans idle)
    skip := fun r sound busy => by
      obtain ⟨_, skips, _⟩ := frameWork_scan (running r)
      rw [← h.scans, ← h.skipped]
      exact skips (fault.trans sound) (active.trans busy)
    noScan := fun quiet => by
      rw [← h.scans, ← h.skipped]
      cases r : isRunning a with
      | false =>
        obtain ⟨_, _, _, _, _, scans, skipped⟩ := frameWork_stopped_leaves (stopped r)
        exact ⟨scans, skipped⟩
      | true =>
        obtain ⟨_, _, quietScan⟩ := frameWork_scan (running r)
        rcases quiet with halted | faulty
        · simp [halted] at r
        · exact quietScan (fault ▸ faulty)
    filler := fun r => by
      rw [← h.runState] at r ⊢
      exact frameWork_filler r
    startClear := fun r owed => frameWork_startClear h r owed
    stages := fun r owed shows clears => frameWork_stages h r owed (frame ▸ shows) (frame ▸ clears)
    deferred := fun r owed acts => frameWork_deferred h r owed (frame ▸ acts)
    haltFiller := fun r owed => frameWork_haltFiller (h.runState.trans r) (h.out ▸ owed)
    haltClear := fun r owed => frameWork_haltClear_out (h.runState.trans r) (h.out ▸ owed)
    flushing := fun r owed flush => by
      rw [← h.op] at flush ⊢
      rw [← h.run]
      exact frameWork_haltClear_flushing (h.runState.trans r) (h.out ▸ owed) flush
    halted := fun r owed noFlush => by
      rw [← h.op] at noFlush ⊢
      rw [← h.run, ← fault, ← h.clock]
      exact frameWork_haltClear_ends (h.runState.trans r) (h.out ▸ owed) noFlush
    stopped := fun r => by
      obtain ⟨slot, queue, disp, air, counters, _, _⟩ := frameWork_stopped_leaves (stopped r)
      exact ⟨slot, queue.trans h.queue, disp.trans h.disp, air.trans h.air, counters.trans h.counters⟩
    marked := frameMarks_marked .. }

end Sys2Proof.Machine
end

