-- ==== Sys2Proof/Proofs/Timebase.lean ====
section
/-! The timebase's commands (R5 to R9): each is a frame boundary, a change of TB alone, or both, in the state in which it
finds the part. -/

namespace Sys2Proof.Machine

/-! ### The commands in the state they find -/

theorem exec_referencePulse {m : Moment} {s a : State} (h : Finds m s a) : exec (.referencePulse m) s = .next (pulse a) :=
  congrArg Host.Outcome.next (event_of_finds h pulse)

theorem exec_lossExpiry {m : Moment} {s a : State} (h : Finds m s a) : exec (.lossExpiry m) s = .next (lossNow a) :=
  congrArg Host.Outcome.next (event_of_finds h lossNow)

theorem exec_freewheelExpiry {m : Moment} {s a : State} (h : Finds m s a) :
    exec (.freewheelExpiry m) s = .next (freewheelNow a) :=
  congrArg Host.Outcome.next (event_of_finds h freewheelNow)

/-! ### Boundaries -/

/-- A boundary without a change of TB's state. -/
theorem boundary_of_opened {a s : State} {origin : Nat} (h : Opened a s origin) :
    FrameBegins a (frameWork s) origin ∧ BoundaryFrame a (frameWork s) :=
  ⟨frameWork_begins h, h.toBoundaryFrame.trans (frameWork_frame s)⟩

/-- A boundary at which TB changes state, with its record first and its flag set (R12). -/
theorem boundary_of_turn {a s : State} {origin : Nat} (h : Opened a s origin) (same : s.pe = a.pe) (left entered : TbMode)
    (cause : RefCause) :
    let t := frameWork (tbTurns left entered cause s)
    FrameBegins a t origin ∧ BoundaryFrame a t ∧ t.tb = { s.tb with mode := entered } ∧ flagSet .reference t = true ∧
    Journaled a t t.tb.frame (.referenceState left entered cause) := by
  obtain ⟨begins, frame⟩ := boundary_of_opened (h.tbTurns left entered cause)
  obtain ⟨flag, record⟩ := frameWork_tbTurns left entered cause s
  refine ⟨begins, frame, by rw [frameWork_tb, tbTurns_tb], flag, ?_⟩
  rw [Journaled, same] at record
  exact record

/-- A pulse accepted with a boundary. -/
theorem pulse_opened (a : State) : Opened a (newFrame a.clock (acceptPulse (phaseAfter a) a)) a.clock :=
  (newFrame_opened a.clock (acceptPulse (phaseAfter a) a)).of_acceptPulse

theorem pulse_tb (a : State) : (newFrame a.clock (acceptPulse (phaseAfter a) a)).tb =
    openedTb a.clock { a.tb with lastPulse := some a.clock, phase := phaseAfter a } := newFrame_tb ..

/-- The phase after a pulse that begins a frame (R5, R6, R9). -/
theorem phaseAfter_cases (a : State) :
    (a.settings.divider = 2 → phaseAfter a = true) ∧ (a.settings.divider ≠ 2 → phaseAfter a = a.tb.phase) := by
  simp +contextual [phaseAfter]

/-- A pulse in another state of TB than LOCKED that begins a frame locks it (R5, R9, R12). -/
theorem pulse_locks (a : State) (left : TbMode) (cause : RefCause) :
    let t := frameWork (tbTurns left .locked cause (newFrame a.clock (acceptPulse (phaseAfter a) a)))
    FrameBegins a t a.clock ∧ BoundaryFrame a t ∧ t.tb.mode = .locked ∧ t.tb.lastPulse = some a.clock ∧
    t.tb.glitches = a.tb.glitches ∧ (a.settings.divider = 2 → t.tb.phase = true) ∧
    (a.settings.divider ≠ 2 → t.tb.phase = a.tb.phase) ∧ flagSet .reference t = true ∧
    Journaled a t t.tb.frame (.referenceState left .locked cause) := by
  obtain ⟨begins, frame, tb, flag, record⟩ := boundary_of_turn (pulse_opened a) (newFrame_pe ..) left .locked cause
  have entered := tb
  rw [pulse_tb] at entered
  obtain ⟨both, one⟩ := phaseAfter_cases a
  refine ⟨begins, frame, ?_, ?_, ?_, fun two => ?_, fun other => ?_, flag, record⟩
  · rw [entered]
  · rw [entered]
    rfl
  · rw [entered]
    rfl
  · rw [entered]
    exact both two
  · rw [entered]
    exact one other

/-! ### The first pulse (R5) -/

/-- Settles O13: the pulse is accepted, opens the frame at its own count, and TB locks with its record. -/
theorem firstPulseLocksTheTimebase : Obligations.FirstPulseLocksTheTimebase := by
  intro m s a finds unlocked
  refine ⟨_, exec_referencePulse finds, ?_⟩
  rw [show pulse a = firstPulse a by simp only [pulse, unlocked]]
  exact pulse_locks a .unlocked .firstPulse

/-! ### A pulse in LOCKED (R6) -/

theorem pulse_of_locked {a : State} {p o : Nat} (locked : a.tb.mode = .locked) (last : a.tb.lastPulse = some p)
    (origin : a.tb.origin = some o) : pulse a =
      if a.clock - p < glitchLimit a then { a with tb := { a.tb with glitches := a.tb.glitches + 1 } }
      else if a.settings.divider = 2 ∧ a.tb.phase = true ∧ a.clock - o < fieldLimit a then acceptPulse false a
      else frameWork (newFrame a.clock (acceptPulse (phaseAfter a) a)) := by
  simp only [pulse, locked, lockedPulse, sincePulse, sinceOrigin, last, origin, Option.getD_some]

/-- Settles O14: the three branches of a pulse in LOCKED, by the counts since the last pulse and since the origin. -/
theorem lockedPulseIsGlitchFieldOrBoundary : Obligations.LockedPulseIsGlitchFieldOrBoundary := by
  intro m s a p o finds locked last origin
  rw [exec_referencePulse finds, pulse_of_locked locked last origin]
  refine ⟨fun early => ?_, fun accepted two phase near => ?_, fun accepted boundary => ⟨_, rfl, ?_⟩⟩
  · rw [if_pos early]
  · rw [if_neg (Nat.not_lt.mpr accepted), if_pos ⟨two, phase, near⟩]
    rfl
  · have noField : ¬(a.settings.divider = 2 ∧ a.tb.phase = true ∧ a.clock - o < fieldLimit a) := by
      rintro ⟨two, phase, near⟩
      rcases boundary with one | low | far
      · exact one two
      · exact Bool.false_ne_true (low.symm.trans phase)
      · omega
    rw [if_neg (Nat.not_lt.mpr accepted), if_neg noField]
    obtain ⟨begins, frame⟩ := boundary_of_opened (pulse_opened a)
    obtain ⟨both, one⟩ := phaseAfter_cases a
    refine ⟨begins, frame, ?_⟩
    rw [frameWork_tb, pulse_tb]
    exact ⟨locked, rfl, rfl, both, one⟩

/-! ### A pulse in FREEWHEEL (R9) -/

theorem pulse_of_freewheel {a : State} {o : Nat} (freewheel : a.tb.mode = .freewheel) (origin : a.tb.origin = some o) :
    pulse a =
      if framePeriod a / 2 ≤ a.clock - o then
        frameWork (tbTurns .freewheel .locked .snap (newFrame a.clock (acceptPulse (phaseAfter a) a)))
      else tbTurns .freewheel .locked .realign { a with tb := { a.tb with
        lastPulse := some a.clock, phase := phaseAfter a, heldTick := subTick a, origin := some a.clock } } := by
  simp only [pulse, freewheel, freewheelPulse, sinceOrigin, origin, Option.getD_some, acceptPulse]

/-- Settles O15: a snap is a boundary at which TB locks, and a realignment sets TB alone and is noted. -/
theorem freewheelPulseSnapsOrRealigns : Obligations.FreewheelPulseSnapsOrRealigns := by
  intro m s a o finds freewheel origin
  rw [exec_referencePulse finds, pulse_of_freewheel freewheel origin]
  refine ⟨fun far => ⟨_, rfl, ?_⟩, fun near => ?_⟩
  · rw [if_pos far]
    exact pulse_locks a .freewheel .snap
  · rw [if_neg (Nat.not_le.mpr near), tbTurns_noted]
    rfl

/-! ### The expiries (R7, R8) -/

theorem lossNow_of_locked {a : State} {o : Nat} (locked : a.tb.mode = .locked) (origin : a.tb.origin = some o)
    (expired : o + lossCounts a ≤ a.clock) :
    lossNow a = frameWork (tbTurns .locked .freewheel .loss (newFrame (o + framePeriod a) a)) := by
  simp only [lossNow, locked, origin, expired, if_true]

theorem freewheelNow_of_freewheel {a : State} {o : Nat} (freewheel : a.tb.mode = .freewheel) (origin : a.tb.origin = some o)
    (expired : o + framePeriod a ≤ a.clock) : freewheelNow a = frameWork (newFrame (o + framePeriod a) a) := by
  simp only [freewheelNow, freewheel, origin, expired, if_true]

/-- A boundary leaves the rate code, and with it the frame period. -/
theorem framePeriod_of_frame {s t : State} (h : BoundaryFrame s t) : framePeriod t = framePeriod s := by
  rw [framePeriod, h.settings]
  rfl

/-- Settles O16: the boundary of the old origin + P at which TB freewheels, half a period old at the very count. -/
theorem lossExpiryFreewheels : Obligations.LossExpiryFreewheels := by
  intro m s a o finds locked origin expired
  refine ⟨_, exec_lossExpiry finds, ?_⟩
  rw [lossNow_of_locked locked origin expired]
  obtain ⟨begins, frame, tb, flag, record⟩ := boundary_of_turn (newFrame_opened (o + framePeriod a) a) (newFrame_pe ..)
    .locked .freewheel .loss
  have entered := tb
  rw [newFrame_tb] at entered
  refine ⟨begins, frame, ?_, ?_, ?_, ?_, flag, record, fun atEnd => ?_⟩
  · rw [entered]
  · rw [entered]
    rfl
  · rw [entered]
    rfl
  · rw [entered]
    rfl
  · refine subTick_half begins.began begins.heldTick ?_
    rw [frame.clock, framePeriod_of_frame frame, atEnd, lossCounts]
    omega

/-- Settles O17: the boundary of the previous origin + P, with all else of TB as it was. -/
theorem freewheelExpiryKeepsExactSpacing : Obligations.FreewheelExpiryKeepsExactSpacing := by
  intro m s a o finds freewheel origin expired
  refine ⟨_, exec_freewheelExpiry finds, ?_⟩
  rw [freewheelNow_of_freewheel freewheel origin expired]
  obtain ⟨begins, frame⟩ := boundary_of_opened (newFrame_opened (o + framePeriod a) a)
  refine ⟨begins, frame, ?_⟩
  rw [frameWork_tb, newFrame_tb]
  exact ⟨freewheel, rfl, rfl, rfl⟩

end Sys2Proof.Machine
end

