-- ==== Sys2Proof/Proofs/WriterLines.lean ====
section
/-! The writer lines: what a change of port state makes of the state (R17, R32, R90), the commands of the lines in the state
they find, and a character in RUN that is dropped, ends RUN, or is ignored (R25 to R29). -/

namespace Sys2Proof.Machine

/-! ### Tables -/

/-- A second value stored at an index replaces the first. -/
@[simp] theorem put_put_same {α : Type} {n : Nat} (v : Vector α n) (i : Fin n) (x y : α) :
    put (put v i x) i y = put v i y := by
  refine table_ext fun j => ?_
  rw [get_put, get_put, get_put]
  split <;> rfl

@[simp] theorem change_change_same {α : Type} {n : Nat} (v : Vector α n) (i : Fin n) (f g : α → α) :
    change (change v i f) i g = change v i (fun x => g (f x)) := by
  simp [change]

@[simp] theorem put_get_same {α : Type} {n : Nat} (v : Vector α n) (i : Fin n) : put v i (get v i) = v := by
  refine table_ext fun j => ?_
  rw [get_put]
  split
  · subst_vars; rfl
  · rfl

/-! ### Records and flags -/

/-- A record that is made is noted (R165). -/
theorem journal_noted (r : Record) (s : State) : journal r s = noted r [] s := by
  unfold journal noted
  split <;> rfl

/-- A flag raised after a record is noted with it. -/
theorem raise_noted (f : AttnFlag) (r : Record) (flags : List AttnFlag) (s : State) :
    raise f (noted r flags s) = noted r (flags ++ [f]) s := by
  unfold noted
  simp only [List.foldl_append, List.foldl_cons, List.foldl_nil]
  split
  · rfl
  · simp only [raise, BitVec.or_assoc, BitVec.or_comm AttnFlag.journalLost.mask]

@[simp] theorem noted_counters (r : Record) (flags : List AttnFlag) (s : State) :
    (noted r flags s).counters = s.counters := by
  unfold noted; split <;> rfl

/-! ### Changes of port state (R32, R90) -/

theorem takerLeftRun_eq (w : Writer) (s : State) : takerLeftRun w s = { s with la := withoutTaker w s.la } := by
  unfold takerLeftRun cancelHandoff withoutTaker
  cases handoff : s.la.handoff with
  | none => rfl
  | some h =>
    dsimp only
    split
    · rename_i own
      rw [own]
    · rfl

/-- LA's record is none of what a record that is made reads or changes. -/
theorem noted_la (r : Record) (flags : List AttnFlag) (s : State) (la : Arbiter) :
    { noted r flags s with la := la } = noted r flags { s with la := la } := by
  unfold noted
  split <;> rfl

theorem noted_la_same (r : Record) (flags : List AttnFlag) (s : State) : (noted r flags s).la = s.la := by
  unfold noted
  split <;> rfl

/-- A port that leaves RUN: its record, attention WRITER, and the end of the handoff of which its writer is the taker (R32,
R90). -/
theorem portBecomes_leaves {w : Writer} {p : Port} {s : State} (left : (portOf s w).mode = .run) (entered : p.mode ≠ .run)
    (cause : PortCause) : portBecomes w p cause s = noted (.writerState w .run p.mode cause p.divisor) [.writer]
      { s with ports := put s.ports w p, la := withoutTaker w s.la } := by
  have own : portOf (onPort w (fun _ => p) s) w = p := get_put_same ..
  simp only [portBecomes, reportPort, own, left, true_and, if_pos entered, journal_noted, raise_noted, takerLeftRun_eq,
    noted_la, noted_la_same]
  rfl

/-- A port that does not leave RUN is recorded without attention (R32). -/
theorem portBecomes_stays {w : Writer} {p : Port} {s : State} {left : PortMode} (was : (portOf s w).mode = left)
    (stays : left ≠ .run ∨ p.mode = .run) (cause : PortCause) :
    portBecomes w p cause s = noted (.writerState w left p.mode cause p.divisor) [] { s with ports := put s.ports w p } := by
  have own : portOf (onPort w (fun _ => p) s) w = p := get_put_same ..
  have quiet : ¬(left = .run ∧ p.mode ≠ .run) := by
    rintro ⟨run, other⟩
    exact stays.elim (· run) other
  simp only [portBecomes, reportPort, own, was, if_neg quiet, journal_noted]
  rfl

/-! ### The commands in the state they find -/

theorem exec_characterAccepted {m : Moment} {s a : State} (h : Finds m s a) (w : Writer) (edges : List Nat) :
    exec (.characterAccepted m w edges) s = .next (characterNow w edges a) :=
  congrArg Host.Outcome.next (event_of_finds h _)

theorem exec_breakSeen {m : Moment} {s a : State} (h : Finds m s a) (w : Writer) (space : Nat) :
    exec (.breakSeen m w space) s = .next (breakSeenNow w space a) :=
  congrArg Host.Outcome.next (event_of_finds h _)

theorem exec_alignmentStartEdge {m : Moment} {s a : State} (h : Finds m s a) (w : Writer) :
    exec (.alignmentStartEdge m w) s = .next (startEdgeNow w a) :=
  congrArg Host.Outcome.next (event_of_finds h _)

theorem exec_spanTooLong {m : Moment} {s a : State} (h : Finds m s a) (w : Writer) :
    exec (.spanTooLong m w) s = .next (spanTooLongNow w a) :=
  congrArg Host.Outcome.next (event_of_finds h _)

theorem exec_spanMeasured {m : Moment} {s a : State} (h : Finds m s a) (w : Writer) (rise : Nat) :
    exec (.spanMeasured m w rise) s = .next (spanMeasuredNow w rise a) :=
  congrArg Host.Outcome.next (event_of_finds h _)

theorem exec_alignmentCharacter {m : Moment} {s a : State} (h : Finds m s a) (w : Writer) (later : List Nat) :
    exec (.alignmentCharacter m w later) s = .next (alignmentNow w later a) :=
  congrArg Host.Outcome.next (event_of_finds h _)

theorem exec_resyncEnd {m : Moment} {s a : State} (h : Finds m s a) (w : Writer) (mark : Nat) :
    exec (.resyncEnd m w mark) s = .next (resyncEndNow w mark a) :=
  congrArg Host.Outcome.next (event_of_finds h _)

theorem exec_resyncBreak {m : Moment} {s a : State} (h : Finds m s a) (w : Writer) (space : Nat) :
    exec (.resyncBreak m w space) s = .next (resyncBreakNow w space a) :=
  congrArg Host.Outcome.next (event_of_finds h _)

/-! ### A character in RUN (R15, R25 to R27) -/

/-- a with the port of w looking for its next start edge. -/
def looking (w : Writer) (a : State) : State :=
  { a with ports := put a.ports w { portOf a w with lookFrom := a.clock } }

@[simp] theorem portOf_looking (w : Writer) (a : State) : portOf (looking w a) w = { portOf a w with lookFrom := a.clock } :=
  get_put_same ..

theorem characterNow_of_receives {a : State} {w : Writer} {edges : List Nat} {d : Nat} (h : Receives a w edges d) :
    characterNow w edges a =
      if bitValue edges d (stopPosition (writerOf a w).parity) = false then framingError w (looking w a)
      else if !parityAgrees (writerOf a w).parity (charByte edges d) (bitValue edges d 9) then parityError w (looking w a)
      else deliver w (charByte edges d) (charNoisy edges d (writerOf a w).parity) (looking w a) := by
  have taken : ¬(a.clock < (portOf a w).lookFrom + thirdSample d (stopPosition (writerOf a w).parity) ∨
      bitValue edges d 0 = true) := by
    simp [h.sampled, h.start]
  simp only [characterNow, h.mode, h.inUse, if_neg taken]
  rfl

/-- A byte that passes both tests is delivered (R25). -/
theorem characterNow_of_byte {a : State} {w : Writer} {edges : List Nat} {d : Nat} {ch : Byte}
    (h : ReceivesByte a w edges d ch) :
    characterNow w edges a = deliver w ch (charNoisy edges d (writerOf a w).parity) (looking w a) := by
  rw [characterNow_of_receives h.toReceives, h.stop, h.parity, h.byte]
  rfl

/-- A framing error in fixed mode, or before the fourth (R27). -/
theorem framingError_resync {w : Writer} {s : State} (run : (portOf s w).mode = .run)
    (few : (writerOf s w).auto = false ∨ (portOf s w).framing + 1 < 4) :
    framingError w s = noted (.writerState w .run .resync .framing (portOf s w).divisor) [.writer]
      { s with
        ports := put s.ports w { portOf s w with
          mode := .resync, framing := min 4 ((portOf s w).framing + 1), since := s.clock }
        counters := change s.counters w (fun c => { c with framingErrors := c.framingErrors + 1 })
        la := withoutTaker w s.la } := by
  have below : ((writerOf s w).auto && min 4 ((portOf s w).framing + 1) == 4) = false := by
    rcases few with fixed | few
    · simp [fixed]
    · simp [show min 4 ((portOf s w).framing + 1) ≠ 4 by omega]
  simp only [framingError, below, Bool.false_eq_true, if_false]
  exact portBecomes_leaves (s := count w _ s) run (by simp) .framing

/-- The fourth framing error in automatic mode (R27). -/
theorem framingError_limit {w : Writer} {s : State} (run : (portOf s w).mode = .run) (auto : (writerOf s w).auto = true)
    (fourth : 4 ≤ (portOf s w).framing + 1) :
    framingError w s = noted (.writerState w .run .acquire .framingLimit none) [.writer]
      { s with
        ports := put s.ports w (seekingPort (portOf s w) s.clock)
        counters := change s.counters w (fun c => { c with framingErrors := c.framingErrors + 1 })
        la := withoutTaker w s.la } := by
  have reached : ((writerOf s w).auto && min 4 ((portOf s w).framing + 1) == 4) = true := by
    simp [auto, show min 4 ((portOf s w).framing + 1) = 4 by omega]
  simp only [framingError, reached, if_true]
  exact portBecomes_leaves (s := count w _ s) run (by simp [seekingPort]) .framingLimit

/-- A framing error is counted, whatever it does to the port. -/
theorem framingError_counters {w : Writer} {s : State} (run : (portOf s w).mode = .run) :
    (framingError w s).counters = change s.counters w (fun c => { c with framingErrors := c.framingErrors + 1 }) := by
  by_cases few : (writerOf s w).auto = false ∨ (portOf s w).framing + 1 < 4
  · rw [framingError_resync run few, noted_counters]
  · push Not at few
    rw [framingError_limit run (by simpa using few.1) few.2, noted_counters]

/-- Settles O21: the stop-bit test comes before the parity test. -/
theorem parityErrorDropsTheCharacter : Obligations.ParityErrorDropsTheCharacter := by
  intro m w edges s a d finds receives disagrees
  rw [exec_characterAccepted finds, characterNow_of_receives receives]
  refine ⟨fun stop => ?_, fun noStop => ⟨_, rfl, ?_⟩⟩
  · rw [stop, disagrees]
    rfl
  · rw [if_pos noStop]
    exact framingError_counters (by rw [portOf_looking]; exact receives.mode)

/-- Settles O22: the two branches of a framing error, by the rate mode and the count. -/
theorem framingErrorLeavesRun : Obligations.FramingErrorLeavesRun := by
  intro m w edges s a d finds receives noStop
  have run : (portOf (looking w a) w).mode = .run := by rw [portOf_looking]; exact receives.mode
  rw [exec_characterAccepted finds, characterNow_of_receives receives, if_pos noStop]
  refine ⟨fun few => ?_, fun auto fourth => ?_⟩
  · rw [framingError_resync run (by rw [portOf_looking]; exact few), portOf_looking]
    simp only [looking, put_put_same, receives.inUse]
  · rw [framingError_limit run auto (by rw [portOf_looking]; exact fourth), portOf_looking]
    simp only [looking, put_put_same, seekingPort]

/-! ### The class of a byte, and an ignored one (R29) -/

theorem classify_text_iff (b : Byte) : classify b = .text ↔ (0x20 ≤ b.toNat ∧ b.toNat ≤ 0x7E) ∨ 0x80 ≤ b.toNat := by
  unfold classify
  repeat' split
  all_goals simp only [reduceCtorEq, false_iff, true_iff]
  all_goals bv_omega

theorem classify_ignored_iff (b : Byte) : classify b = .ignored ↔
    (b.toNat ≤ 0x1F ∧ b ≠ 0x0D ∧ b ≠ 0x08 ∧ b ≠ 0x17 ∧ b ≠ 0x1E ∧ b ≠ 0x11 ∧ b ≠ 0x12) ∨ b = 0x7F := by
  unfold classify
  repeat' split
  all_goals simp only [reduceCtorEq, false_iff, true_iff]
  all_goals bv_omega

/-- An ignored byte is counted with its character, and only that (R29). -/
theorem deliver_ignored {ch : Byte} (h : classify ch = .ignored) (w : Writer) (noisy : Bool) (s : State) :
    deliver w ch noisy s = { s with
      ports := put s.ports w { portOf s w with framing := 0 }
      counters := change s.counters w (fun c => { c with
        characters := c.characters + 1
        noise := if noisy then c.noise + 1 else c.noise
        ignoredCodes := c.ignoredCodes + 1 }) } := by
  simp only [deliver, h, if_true, count, change_change_same]
  rfl

/-- Settles O23. -/
theorem bytesAreClassifiedAndIgnoredOnesCounted : Obligations.BytesAreClassifiedAndIgnoredOnesCounted := by
  refine ⟨classify_text_iff, ⟨rfl, rfl, rfl, rfl, rfl, rfl⟩, classify_ignored_iff,
    fun m w edges s a d ch finds receives ignored => ?_⟩
  rw [exec_characterAccepted finds, characterNow_of_byte receives, deliver_ignored ignored, portOf_looking]
  simp only [looking, put_put_same]

end Sys2Proof.Machine
end

