-- ==== Sys2Proof/Proofs/Acquisition.lean ====
section
/-! Automatic rate acquisition (R20 to R23) and the end of RESYNC (R24, R28): the break, the span and the bits of the alignment
character, and the stretches of mark and space. -/

namespace Sys2Proof.Machine

/-! ### The break and the span (R20, R21, R23) -/

theorem inPhase_iff (p : Port) (x : AcqPhase) : inPhase p x = true ↔ p.mode = .acquire ∧ p.phase = some x := by
  simp [inPhase]

/-- A stretch reaches a length where it has lasted so long, and the port has timed it so long. -/
theorem le_stretch_iff (p : Port) (clock counts n : Nat) : n ≤ stretch p clock counts ↔ n ≤ counts ∧ n ≤ clock - p.since :=
  le_min_iff

/-- Settles O32. -/
theorem breakThenStartEdgeBeginTheMeasurement : Obligations.BreakThenStartEdgeBeginTheMeasurement := by
  intro m w s a finds acquiring
  refine ⟨fun space seeking long timed => ?_, fun seen => ?_⟩
  · have phase : inPhase (portOf a w) .seekBreak = true := (inPhase_iff ..).mpr ⟨acquiring, seeking⟩
    have reached : breakCounts ≤ stretch (portOf a w) a.clock space := (le_stretch_iff ..).mpr ⟨long, timed⟩
    rw [exec_breakSeen finds, breakSeenNow, phase, decide_eq_true reached]
    rfl
  · have phase : inPhase (portOf a w) .breakSeen = true := (inPhase_iff ..).mpr ⟨acquiring, seen⟩
    rw [exec_alignmentStartEdge finds, startEdgeNow, phase]
    rfl

/-- The bits of the alignment character 0x3C with its start, parity and stop bits (R14, R22). -/
theorem alignmentBits :
    (∀ p : Parity, (List.range 9).map (alignmentBit p) = [false, false, false, true, true, true, true, false, false]) ∧
    alignmentBit .none 9 = true ∧ alignmentBit .even 9 = false ∧ alignmentBit .odd 9 = true ∧
    alignmentBit .even 10 = true ∧ alignmentBit .odd 10 = true := by
  refine ⟨fun p => ?_, rfl, rfl, rfl, rfl, rfl⟩
  cases p <;> rfl

/-- A span in range gives a divisor in range (R21). -/
theorem spanDivisor_bounds {span : Nat} (low : 1635 ≤ span) (high : span ≤ 157503) :
    234 ≤ (2 * span + 7) / 14 ∧ (2 * span + 7) / 14 ≤ 22500 := by
  omega

/-- Bit positions read as they must exactly where each does (R22). -/
theorem alignmentReads_iff (p : Parity) (edges : List Nat) (divisor lo hi : Nat) :
    alignmentReads p edges divisor lo hi = true ↔
      ∀ i, lo ≤ i → i < hi → bitValue edges divisor i = alignmentBit p i := by
  simp only [alignmentReads, List.all_eq_true, List.mem_range, Bool.or_eq_true, decide_eq_true_eq, beq_iff_eq]
  exact ⟨fun h i low high => (h i high).resolve_left (Nat.not_lt.mpr low),
    fun h i high => (Nat.lt_or_ge i lo).imp_right fun low => h i low high⟩

theorem alignmentError_eq (w : Writer) (s : State) : alignmentError w s = { s with
    ports := put s.ports w { portOf s w with
      phase := some .seekBreak, startEdge := none, edges := [], measured := none, since := s.clock }
    counters := change s.counters w (fun c => { c with alignmentErrors := c.alignmentErrors + 1 }) } := rfl

/-- The falling edge at d6 in MEASURE, by the span since the start edge (R21, R22). -/
theorem spanMeasuredNow_eq {w : Writer} {s : State} {e : Nat} (phase : inPhase (portOf s w) .measure = true)
    (start : (portOf s w).startEdge = some e) (rise : Nat) :
    spanMeasuredNow w rise s =
      let span := s.clock - e
      let divisor := (2 * span + 7) / 14
      if span ≤ spanShort ∨ spanLong ≤ span then alignmentError w s
      else if alignmentReads (writerOf s w).parity [rise, span] divisor 0 7 then
        { s with ports := put s.ports w { portOf s w with
          phase := some .check, measured := some divisor, edges := [rise, span] } }
      else alignmentError w s := by
  have since : sinceStart (portOf s w) s.clock = s.clock - e := by simp only [sinceStart, start, Option.getD_some]
  simp only [spanMeasuredNow, phase, if_true, since]
  rfl

/-- Settles O33. -/
theorem spanGivesTheDivisorOrAnAlignmentError : Obligations.SpanGivesTheDivisorOrAnAlignmentError := by
  obtain ⟨bits, last⟩ := alignmentBits
  refine ⟨bits, last, fun span => spanDivisor_bounds, fun m w s a e finds acquiring measuring start => ?_⟩
  intro span d p failed
  have phase : inPhase (portOf a w) .measure = true := (inPhase_iff ..).mpr ⟨acquiring, measuring⟩
  have since : sinceStart (portOf a w) a.clock = span := by simp only [sinceStart, start, Option.getD_some, span]
  refine ⟨fun long => ?_, fun rise => ?_⟩
  · rw [exec_spanTooLong finds, spanTooLongNow, phase, since, decide_eq_true (show spanLong ≤ span from long)]
    rfl
  · rw [exec_spanMeasured finds, spanMeasuredNow_eq phase start]
    refine ⟨fun outside => ?_, fun low high right => ?_, fun low high wrong => ?_⟩
    · exact congrArg _ (if_pos outside)
    · have inRange : ¬(span ≤ spanShort ∨ spanLong ≤ span) := by simp only [spanShort, spanLong]; omega
      have reads := (alignmentReads_iff (writerOf a w).parity [rise, span] d 0 7).mpr fun i _ => right i
      exact congrArg _ ((if_neg inRange).trans (if_pos reads))
    · have inRange : ¬(span ≤ spanShort ∨ spanLong ≤ span) := by simp only [spanShort, spanLong]; omega
      obtain ⟨i, few, other⟩ := wrong
      have misread : ¬alignmentReads (writerOf a w).parity [rise, span] d 0 7 = true := fun reads =>
        other ((alignmentReads_iff ..).mp reads i (Nat.zero_le i) few)
      exact congrArg _ ((if_neg inRange).trans (if_neg misread))

/-! ### The bits of the alignment character (R22, R23) -/

/-- Of the first numbers, those that satisfy a test which fails from some number on are the numbers below their count. -/
theorem lt_length_filter_range {test : Nat → Bool} (falls : ∀ i j, i ≤ j → test j = true → test i = true) (n i : Nat) :
    i < ((List.range n).filter test).length ↔ i < n ∧ test i = true := by
  induction n with
  | zero => simp
  | succ n ih =>
    rw [List.range_succ, List.filter_append, List.length_append]
    cases last : test n with
    | false =>
      have apart (holds : test i = true) : i ≠ n := by rintro rfl; simp [last] at holds
      simp only [List.filter_singleton, last, cond_false, List.length_nil, Nat.add_zero, ih]
      exact ⟨fun ⟨less, holds⟩ => ⟨by omega, holds⟩, fun ⟨less, holds⟩ => ⟨by have := apart holds; omega, holds⟩⟩
    | true =>
      have all : (List.range n).filter test = List.range n :=
        List.filter_eq_self.mpr fun j below => falls j n (List.mem_range.mp below).le last
      simp only [all, List.filter_singleton, last, cond_true, List.length_range, List.length_singleton]
      exact ⟨fun less => ⟨less, falls i n (by omega) last⟩, And.left⟩

theorem thirdSample_mono (divisor : Nat) {i j : Nat} (h : i ≤ j) : thirdSample divisor i ≤ thirdSample divisor j := by
  have := Nat.mul_le_mul_right divisor h
  simp only [thirdSample, bitCentre]
  omega

/-- A bit position up to the stop bit is judged exactly where its third sample has been taken (R15, R22). -/
theorem lt_judgedBits_iff (p : Parity) (divisor elapsed i : Nat) :
    i < judgedBits p divisor elapsed ↔ i ≤ stopPosition p ∧ thirdSample divisor i ≤ elapsed := by
  rw [judgedBits, lt_length_filter_range, decide_eq_true_eq, Nat.lt_succ_iff]
  intro i j below later
  simp only [decide_eq_true_eq] at later ⊢
  exact (thirdSample_mono divisor below).trans later

/-- At the third sample of the stop bit every position is judged. -/
theorem judgedBits_of_stop {p : Parity} {divisor elapsed : Nat} (h : thirdSample divisor (stopPosition p) ≤ elapsed) :
    judgedBits p divisor elapsed = stopPosition p + 1 := by
  have last := (lt_judgedBits_iff p divisor elapsed (stopPosition p)).mpr ⟨le_rfl, h⟩
  have none := mt (lt_judgedBits_iff p divisor elapsed (stopPosition p + 1)).mp (by omega)
  omega

/-- The judgement of the alignment character in CHECK, with the divisor measured (R22, R23). -/
theorem alignmentNow_eq {w : Writer} {s : State} {e d : Nat} (phase : inPhase (portOf s w) .check = true)
    (start : (portOf s w).startEdge = some e) (measured : (portOf s w).measured = some d) (later : List Nat) :
    alignmentNow w later s =
      let parity := (writerOf s w).parity
      let judged := judgedBits parity d (s.clock - e)
      if !alignmentReads parity ((portOf s w).edges ++ later) d 7 judged then alignmentError w s
      else if judged = stopPosition parity + 1 then
        portBecomes w { runningPort (portOf s w) d s.clock with framing := 0 } .aligned s
      else s := by
  simp only [alignmentNow, phase, if_true, sinceStart, start, measured, Option.getD_some]

/-- Settles O34: with every bit judged and right the port enters RUN, and a wrong bit that is judged fails it. -/
theorem alignmentCharacterIsAcceptedOrFails : Obligations.AlignmentCharacterIsAcceptedOrFails := by
  obtain ⟨bits, last⟩ := alignmentBits
  refine ⟨bits, last, fun m w later s a e d finds acquiring checking start measured => ?_⟩
  intro p parity stop
  have phase : inPhase p .check = true := (inPhase_iff ..).mpr ⟨acquiring, checking⟩
  have reads (judged : Nat) := alignmentReads_iff parity (p.edges ++ later) d 7 judged
  rw [exec_alignmentCharacter finds, alignmentNow_eq phase start measured]
  refine ⟨fun past right => ?_, fun ⟨i, low, high, past, wrong⟩ => ?_⟩
  · have all : judgedBits parity d (a.clock - e) = stop + 1 := judgedBits_of_stop past
    have accepted : alignmentReads parity (p.edges ++ later) d 7 (stop + 1) = true :=
      (reads _).mpr fun i low high => right i low (Nat.lt_succ_iff.mp high)
    dsimp only
    rw [all, accepted]
    exact congrArg _ ((if_pos rfl).trans (portBecomes_stays acquiring (.inl (by decide)) .aligned))
  · have misread : alignmentReads parity (p.edges ++ later) d 7 (judgedBits parity d (a.clock - e)) = false := by
      rw [← Bool.not_eq_true, reads]
      exact fun right => wrong (right i low ((lt_judgedBits_iff ..).mpr ⟨high, past⟩))
    dsimp only
    rw [misread]
    rfl

/-! ### The end of RESYNC (R24, R28) -/

/-- Settles O35. -/
theorem resyncEndsAtMarkOrAtABreak : Obligations.ResyncEndsAtMarkOrAtABreak := by
  intro m w s a finds resync
  refine ⟨fun mark d inUse long timed => ?_, fun space auto long timed => ?_⟩
  · have divisor : (portOf a w).divisor.getD 0 = d := by rw [inUse, Option.getD_some]
    have reached : 10 * d ≤ stretch (portOf a w) a.clock mark := (le_stretch_iff ..).mpr ⟨long, timed⟩
    rw [exec_resyncEnd finds]
    simp only [resyncEndNow, resync, divisor, decide_true, Bool.true_and, decide_eq_true_eq, if_pos reached]
    rw [portBecomes_stays resync (.inl (by decide))]
    rfl
  · have reached : breakCounts ≤ stretch (portOf a w) a.clock space := (le_stretch_iff ..).mpr ⟨long, timed⟩
    rw [exec_resyncBreak finds]
    simp only [resyncBreakNow, resync, auto, decide_true, Bool.true_and, decide_eq_true_eq, if_pos reached]
    rw [portBecomes_stays resync (.inl (by decide))]
    rfl

end Sys2Proof.Machine
end

