-- ==== Sys2Proof/Proofs/RowClose.lean ====
section
/-! A buffer that is closed (R38): the row it makes, and where that goes; by the ROW and SPEAKER codes and by a pause event
(R30, R39, R40). -/

namespace Sys2Proof.Machine

/-! ### The row of a close (R38) -/

theorem trimRow_eq (chars : List TextChar) : trimRow chars = chars.rdropWhile (fun c => c.ch == space) := rfl

/-- A close takes off the spaces at the end, and no more (R38 step 1). -/
theorem trimRow_trims (chars : List TextChar) :
    (∃ n, chars.map TextChar.ch = (trimRow chars).map TextChar.ch ++ List.replicate n 0x20) ∧
    ((trimRow chars).map TextChar.ch).getLast? ≠ some 0x20 := by
  rw [trimRow_eq]
  refine ⟨⟨(chars.rtakeWhile (fun c => c.ch == space)).length, ?_⟩, fun last => ?_⟩
  · have spaces : (chars.rtakeWhile (fun c => c.ch == space)).map TextChar.ch =
        List.replicate (chars.rtakeWhile (fun c => c.ch == space)).length 0x20 := by
      refine List.eq_replicate_iff.mpr ⟨List.length_map .., fun x listed => ?_⟩
      obtain ⟨c, own, rfl⟩ := List.mem_map.mp listed
      simpa [space] using List.mem_rtakeWhile_imp own
    conv_lhs => rw [← List.rdropWhile_append_rtakeWhile (p := fun c : TextChar => c.ch == space) (l := chars)]
    rw [List.map_append, spaces]
  · rw [List.getLast?_map, Option.map_eq_some_iff] at last
    obtain ⟨c, final, own⟩ := last
    obtain ⟨some, rfl⟩ := List.mem_getLast?_eq_getLast final
    exact List.rdropWhile_last_not _ _ some (by simpa [space] using own)

/-- The row that the model forms is the close's (R38 step 2). -/
theorem closedRow_closedAs (w : Writer) (b : Builder) (reason : CloseReason) (id : Word32) :
    ClosedAs (closedRow w b reason id) w b reason id := by
  obtain ⟨text, trimmed⟩ := trimRow_trims b.chars
  exact ⟨text, trimmed, rfl, by simp [closedRow]⟩

/-! ### A close, by whose buffer it is (R38, R47) -/

theorem closeRow_of_empty {w : Writer} {s : State} (h : (builderOf s w).chars = []) (reason : CloseReason) :
    closeRow w reason s = (s, false) := by
  simp [closeRow, h]

/-- The row of a writer who is not LEAD is discarded and counted. -/
theorem closeRow_of_other {w : Writer} {s : State} (h : (builderOf s w).chars ≠ []) (role : roleOf s w ≠ .lead)
    (reason : CloseReason) :
    closeRow w reason s = ({ s with
      builders := put s.builders w (emptied (builderOf s w))
      counters := change s.counters w (fun c => { c with
        rowsClosed := c.rowsClosed + 1, rowsDropped := c.rowsDropped + 1 }) }, false) := by
  simp only [closeRow, List.isEmpty_iff, h, role, if_false, count, onBuilder, change_change_same]
  rfl

/-- The state in which the lead's row leaves its buffer: the buffer emptied, the row counted, and a new row id taken. -/
def rowLeaves (w : Writer) (s : State) : State :=
  { s with
    builders := put s.builders w (emptied (builderOf s w))
    counters := change s.counters w (fun c => { c with rowsClosed := c.rowsClosed + 1 })
    nextRowId := if (builderOf s w).heldId.isSome then s.nextRowId else s.nextRowId + 1 }

/-- The row that a close of writer w's buffer makes of a state. -/
def rowOf (w : Writer) (reason : CloseReason) (s : State) : Row :=
  closedRow w (builderOf s w) reason ((builderOf s w).heldId.getD s.nextRowId)

/-- The lead's row joins the live queue, with a feed attempt, and the close is reported. -/
theorem closeRow_of_lead {w : Writer} {s : State} (h : (builderOf s w).chars ≠ []) (role : roleOf s w = .lead)
    (reason : CloseReason) :
    closeRow w reason s = (feedAttempt (joinTail (rowOf w reason s) (rowLeaves w s)), true) := by
  simp only [closeRow, List.isEmpty_iff, h, role, if_true, if_false, rowOf, rowLeaves]
  cases (builderOf s w).heldId <;> rfl

theorem joinTail_of_room {s : State} (h : s.queue.length < 8) (r : Row) :
    joinTail r s = { s with queue := s.queue ++ [r] } := by
  unfold joinTail
  split
  · exact if_neg (Nat.not_le.mpr h)
  · rename_i empty
    rw [empty]
    rfl

/-- A lead's row, while the live stream is not on top, waits in the queue. -/
theorem closeRow_waits {w : Writer} {s : State} (h : (builderOf s w).chars ≠ []) (role : roleOf s w = .lead)
    (top : topOwner s ≠ some .live) (room : s.queue.length < 8) (reason : CloseReason) :
    closeRow w reason s = ({ rowLeaves w s with queue := s.queue ++ [rowOf w reason s] }, true) := by
  rw [closeRow_of_lead h role, joinTail_of_room (s := rowLeaves w s) room]
  exact congrArg (·, true) (feedAttempt_of_nothing (.inr (.inl top)))

/-! ### A row that enters the schedule at once (R48, R101) -/

/-- With nothing waiting and the live stream on top a lead's row is offered to the schedule at once. -/
theorem closeRow_offers {w : Writer} {s : State} (takes : LiveTakes s w) (h : (builderOf s w).chars ≠ [])
    (reason : CloseReason) :
    closeRow w reason s = ((offerRow (rowOf w reason s) (rowLeaves w s)).1, true) := by
  have empty : (rowLeaves w s).queue = [] := takes.nothingWaits
  let waiting (q : List Row) : State := { rowLeaves w s with queue := q }
  have joined : joinTail (rowOf w reason s) (rowLeaves w s) = waiting [rowOf w reason s] := by
    rw [joinTail_of_room (by rw [empty]; decide), empty]
    rfl
  have feeds : ¬NothingFeeds (waiting [rowOf w reason s]) := by
    rintro (none | owner | full)
    · exact List.cons_ne_nil _ _ none
    · exact owner takes.live
    · exact absurd takes.room (Nat.not_lt.mpr full)
  have drawn : waiting [] = rowLeaves w s := congrArg waiting empty.symm
  rw [closeRow_of_lead h takes.lead, joined, feedAttempt_of_one (s := waiting [_]) takes.running feeds rfl, ← drawn]

/-- It enters at its place, or is dropped as stale (R102 to R110). -/
theorem closeRow_enters {w : Writer} {s : State} {estimate : Nat} (takes : LiveTakes s w) (h : (builderOf s w).chars ≠ [])
    (set : (get s.est w).estimate = some estimate) (reason : CloseReason) :
    RowEnters w (builderOf s w) reason estimate { s with builders := put s.builders w (emptied (builderOf s w)) }
      (closeRow w reason s).1 := by
  let u : State := { s with builders := put s.builders w (emptied (builderOf s w)) }
  let r := rowOf w reason s
  have live : r.source = .live w ((builderOf s w).arrival.getD 0) reason
    ((builderOf s w).markHeld && decide (3 ≤ (trimRow (builderOf s w).chars).length)) := rfl
  have ideal : (idealFrame r u).2 = liveIdeal u ((builderOf s w).arrival.getD 0) estimate := idealFrame_live live set
  have placed := placeRow_placedAt r u
  have entered := enterRow_liveEntered (s := u) live set []
  rw [closeRow_offers takes h]
  rw [ideal] at placed entered
  refine ⟨r, placeOf (placeRow r u), closedRow_closedAs .., placed, fun stale => ?_, fun inTime => ?_⟩
  · show (offerRow r (rowLeaves w s)).1 = _
    rw [offerRow_drops (r := r) (s := rowLeaves w s) ((isStale_iff _ u).mpr stale), journal_noted, ← ideal]
    rfl
  · rw [show (offerRow (rowOf w reason s) (rowLeaves w s)).1 = enterRow r (placeRow r u) (rowLeaves w s) from
      offerRow_enters (r := r) (s := rowLeaves w s) ((not_stale_iff _ u).mpr inTime)]
    obtain ⟨⟨row, place, late, schedule⟩, latency, unclamped, flagged, catchup, hold⟩ := entered
    exact ⟨entryOf r (placeRow r u) u, rfl, ⟨row, place, late, schedule⟩, latency, unclamped, flagged, catchup, hold⟩

/-- The ports, LA's record and the row builders have no part in it. -/
theorem RowEnters.onLine {w : Writer} {b : Builder} {reason : CloseReason} {estimate : Nat} {u t : State}
    (h : RowEnters w b reason estimate u t) (ports : Vector Port 4) (la : Arbiter) (builders : Vector Builder 4) :
    RowEnters w b reason estimate { u with ports := ports, la := la, builders := builders }
      { t with ports := ports, la := la, builders := builders } := by
  obtain ⟨r, p, closed, ⟨earliest, lowest, start, ⟨stagedBy, floor, isFloor, showAt⟩, lag⟩, stale, inTime⟩ := h
  refine ⟨r, p, closed,
    ⟨earliest, lowest, start, ⟨stagedBy, floor, ⟨isFloor.behind, isFloor.shown, isFloor.nothing⟩, showAt⟩, lag⟩,
    fun late => ?_, fun early => ?_⟩
  · rw [stale late]
    unfold noted
    dsimp only
    split <;> rfl
  · obtain ⟨e, same, ⟨row, place, late, schedule⟩, latency, unclamped, flagged, catchup, hold⟩ := inTime early
    exact ⟨e, congrArg (fun x : State => { x with ports := ports, la := la, builders := builders }) same,
      ⟨row, place, late, schedule⟩, latency, unclamped, flagged, catchup, hold⟩

/-! ### Handoffs -/

@[simp] theorem completeHandoff_unreported (s : State) : completeHandoff false s = s := by
  unfold completeHandoff
  split <;> rfl

theorem completeHandoff_of_none {s : State} (h : s.la.handoff = none) (reported : Bool) : completeHandoff reported s = s := by
  simp only [completeHandoff, h]

theorem joinTail_la (r : Row) (s : State) : (joinTail r s).la = s.la := (joinTail_local r s).la

/-- A close leaves LA's record, and the ports. -/
theorem closeRow_leaves (w : Writer) (reason : CloseReason) (s : State) :
    (closeRow w reason s).1.la = s.la ∧ (closeRow w reason s).1.ports = s.ports := by
  by_cases h : (builderOf s w).chars = []
  · rw [closeRow_of_empty h]
    exact ⟨rfl, rfl⟩
  · by_cases role : roleOf s w = .lead
    · rw [closeRow_of_lead h role]
      have joined := (joinTail_local (rowOf w reason s) (rowLeaves w s)).trans (feedAttempt_local _)
      exact ⟨joined.la, joined.ports⟩
    · rw [closeRow_of_other h role]
      exact ⟨rfl, rfl⟩

/-- A close of a buffer that holds a character empties it. -/
theorem closeRow_builders {w : Writer} {s : State} (h : (builderOf s w).chars ≠ []) (reason : CloseReason) :
    (closeRow w reason s).1.builders = put s.builders w (emptied (builderOf s w)) := by
  by_cases role : roleOf s w = .lead
  · rw [closeRow_of_lead h role]
    exact ((joinTail_local (rowOf w reason s) (rowLeaves w s)).trans (feedAttempt_local _)).builders
  · rw [closeRow_of_other h role]

/-! ### The pause event (R30, R39) -/

theorem exec_pauseEvent {m : Moment} {s a : State} (h : FindsPiece m s a) (w : Writer) :
    exec (.pauseEvent m w) s = .next (pauseWork w a) :=
  congrArg Host.Outcome.next (piece_of_finds h _)

/-- The pause that a port has reached: its mark is cleared, pause armed with it, and the pause flag set (R30). -/
def paused (w : Writer) (a : State) : State :=
  { a with
    work := { a.work with pause := put a.work.pause w false }
    ports := put a.ports w { portOf a w with pauseArmed := false, pauseFlag := true } }

theorem pauseWork_of_due {a : State} {w : Writer} (marked : get a.work.pause w = true) (on : (portOf a w).mode ≠ .off)
    (armed : (portOf a w).pauseArmed = true) (idle : a.settings.pauseFrames ≤ (portOf a w).pauseCount) :
    pauseWork w a =
      completeHandoff (closeRow w .pause (paused w a)).2 (closeRow w .pause (paused w a)).1 := by
  have due : pauseDue { a with work := { a.work with pause := put a.work.pause w false } } w = true :=
    (pauseDue_iff _ w).mpr ⟨on, armed, idle⟩
  rw [pauseWork, if_pos marked, pauseNow, if_pos due]
  rfl

/-- Settles O36: the close of the buffer by the three cases of whose row it is. -/
theorem pauseEventClosesTheBuffer : Obligations.PauseEventClosesTheBuffer := by
  intro m w s a finds marked on armed idle
  rw [exec_pauseEvent finds, pauseWork_of_due marked on armed idle]
  refine ⟨fun empty => ?_, fun some other => ?_, fun some lead noHandoff top room => ?_⟩
  · rw [closeRow_of_empty (s := paused w a) empty, completeHandoff_unreported]
    rfl
  · rw [closeRow_of_other (s := paused w a) some other, completeHandoff_unreported]
    rfl
  · rw [closeRow_waits (s := paused w a) some lead top room, completeHandoff_of_none (by exact noHandoff)]
    rfl

/-! ### The ROW and SPEAKER codes (R39, R40) -/

theorem touchPort_eq (w : Writer) (s : State) : touchPort w s = { s with
    ports := put s.ports w { portOf s w with pauseCount := 0, pauseArmed := true, silence := 0 }
    la := { s.la with silenceReported := if s.la.lead = some w then false else s.la.silenceReported } } := by
  unfold touchPort
  dsimp only
  split <;> rfl

/-- A delivery acts alike on the ports and on LA's record wherever these are alike. -/
theorem touchPort_alike {s t : State} (ports : t.ports = s.ports) (la : t.la = s.la) (w : Writer) :
    touchPort w t = { t with ports := (touchPort w s).ports, la := (touchPort w s).la } := by
  simp only [touchPort_eq, portOf, ports, la]

/-- A line code as the row builder finds it: the character counted, and the tick handed out (R4, R25). -/
def heard (w : Writer) (noisy : Bool) (s : State) : State :=
  holdTick (count w (fun c => { c with
    characters := c.characters + 1
    noise := if noisy then c.noise + 1 else c.noise }) (onPort w (fun p => { p with framing := 0 }) s))

theorem touchPort_heard (w : Writer) (noisy : Bool) (a : State) :
    touchPort w (heard w noisy (looking w a)) = delivered w noisy a := by
  simp only [touchPort_eq, heard, looking, holdTick, count, onPort, change, portOf, get_put_same, put_put_same]
  rfl

/-- The delivery of a line code: the row builder and the lead arbiter act, then the port's counters return to 0 (R29 to R31). -/
theorem deliver_of_code {ch : Byte} (code : classify ch ≠ .text ∧ classify ch ≠ .ignored) (w : Writer) (noisy : Bool)
    (s : State) :
    deliver w ch noisy s = touchPort w (handOn w (classify ch) ch (stampNow s) (heard w noisy s)) := by
  simp only [deliver, code.1, code.2, if_false]
  rfl

/-- A line code that closes the lead's buffer offers its row at once, and what follows in the delivery changes the ports, LA's
record and the row builders alone. -/
theorem heard_enters {a t : State} {w : Writer} {estimate : Nat} (takes : LiveTakes a w) (h : (builderOf a w).chars ≠ [])
    (set : (get a.est w).estimate = some estimate) (reason : CloseReason) (noisy : Bool) (builders : Vector Builder 4)
    (after : t = { (closeRow w reason (heard w noisy (looking w a))).1 with builders := builders }) :
    RowEnters w (builderOf a w) reason estimate { delivered w noisy a with builders := builders } (touchPort w t) := by
  let s := heard w noisy (looking w a)
  have takes' : LiveTakes s w := ⟨takes.lead, takes.running, takes.live, takes.nothingWaits, takes.room⟩
  obtain ⟨la, ports⟩ := closeRow_leaves w reason s
  rw [after, ← touchPort_heard, touchPort_alike (s := s) (t := s) rfl rfl,
    touchPort_alike (s := s) (t := { (closeRow w reason s).1 with builders := builders }) ports la]
  exact (closeRow_enters takes' h set reason).onLine (touchPort w s).ports (touchPort w s).la builders

/-- With no handoff pending the ROW code closes the buffer, and the SPEAKER code sets speaker mark pending too (R39, R40). -/
theorem handOn_closes {u : State} (h : u.la.handoff = none) (w : Writer) (ch : Byte) (stamp : Stamp) :
    handOn w .row ch stamp u = (closeRow w .rowCode u).1 ∧ handOn w .speaker ch stamp u = (takeSpeaker w u).1 := by
  have row : (closeRow w .rowCode u).1.la.handoff = none := by rwa [(closeRow_leaves ..).1]
  have speaker : (takeSpeaker w u).1.la.handoff = none := by
    rw [takeSpeaker, onBuilder_la, (closeRow_leaves ..).1]
    exact h
  exact ⟨completeHandoff_of_none row _, completeHandoff_of_none speaker _⟩

/-- Settles O54: a close of the lead's buffer offers its row at once, in the state that the delivery or the pause leaves. -/
theorem closedRowEntersTheSchedule : Obligations.ClosedRowEntersTheSchedule := by
  intro m w s a estimate takes some noHandoff set
  refine ⟨fun edges d finds => ?_, fun finds marked on armed reached => ⟨_, exec_pauseEvent finds w, ?_⟩⟩
  · have closed (reason : CloseReason) (noisy : Bool) :
        (closeRow w reason (heard w noisy (looking w a))).1.builders = put a.builders w (emptied (builderOf a w)) :=
      closeRow_builders (s := heard w noisy (looking w a)) some reason
    have code (noisy : Bool) := handOn_closes (u := heard w noisy (looking w a)) noHandoff w
    refine ⟨fun receives => ⟨_, exec_characterAccepted finds w edges, ?_⟩,
      fun receives => ⟨_, exec_characterAccepted finds w edges, ?_⟩⟩
    · rw [characterNow_of_byte receives, deliver_of_code (by decide), show classify 0x0D = .row from rfl, (code _ _ _).1]
      refine heard_enters takes some set .rowCode _ (put a.builders w (emptied (builderOf a w))) ?_
      rw [← closed .rowCode (charNoisy edges d (writerOf a w).parity)]
    · rw [characterNow_of_byte receives, deliver_of_code (by decide), show classify 0x1E = .speaker from rfl, (code _ _ _).2]
      refine heard_enters takes some set .speaker _
        (put a.builders w { emptied (builderOf a w) with markPending := true }) ?_
      simp only [takeSpeaker, onBuilder, change, closed, get_put_same, put_put_same]
  · have after : (closeRow w .pause (paused w a)).1.la.handoff = none := by
      rw [(closeRow_leaves ..).1]
      exact noHandoff
    rw [pauseWork_of_due marked on armed reached, completeHandoff_of_none after]
    exact closeRow_enters (s := paused w a) ⟨takes.lead, takes.running, takes.live, takes.nothingWaits, takes.room⟩ some set .pause

end Sys2Proof.Machine
end

