-- ==== Sys2Proof/Proofs/SettingsBlock.lean ====
section
/-! The settings block: what each field is taken as (R158, R159, R181), which fields are clamped, and which an application in
RUNNING ignores. -/

namespace Sys2Proof.Machine

/-! ### A field brought into its range (R159) -/

theorem clampTo_eq {lo hi : Nat} (h : lo ≤ hi) (x : Nat) : clampTo lo hi x = min hi (max lo x) := by
  unfold clampTo
  repeat' split
  all_goals omega

theorem clampTo_zero (hi x : Nat) : clampTo 0 hi x = min hi x := by rw [clampTo_eq (Nat.zero_le _), Nat.zero_max]

theorem clampTo_ne_iff (lo hi x : Nat) : clampTo lo hi x ≠ x ↔ x < lo ∨ hi < x := by
  unfold clampTo
  repeat' split
  all_goals omega

theorem byteAt_lt (block : List Byte) (off : Nat) : byteAt block off < 256 := BitVec.isLt _

/-- A field of one byte whose range has no upper limit of its own. -/
theorem clampTo_byte {lo : Nat} (h : lo ≤ 255) (block : List Byte) (off : Nat) :
    clampTo lo 255 (byteAt block off) = max lo (byteAt block off) := by
  have := byteAt_lt block off
  rw [clampTo_eq h]
  omega

theorem parityOfCode_clamped (x : Nat) : parityOfCode (clampTo 0 2 x) = match x with
    | 0 => .none
    | 1 => .even
    | _ => .odd := by
  rw [clampTo_zero]
  match x with
  | 0 | 1 => rfl
  | n + 2 => rw [show min 2 (n + 2) = 2 by omega]; rfl

theorem voiceOfCode_clamped (x : Nat) : voiceOfCode (clampTo 0 2 x) = match x with
    | 0 => .vox0
    | 1 => .vox1
    | _ => .both := by
  rw [clampTo_zero]
  match x with
  | 0 | 1 => rfl
  | n + 2 => rw [show min 2 (n + 2) = 2 by omega]; rfl

theorem edgeOfCode_clamped (x : Nat) : edgeOfCode (clampTo 0 3 x) = match x with
    | 0 => .none
    | 1 => .rising
    | 2 => .falling
    | _ => .both := by
  rw [clampTo_zero]
  match x with
  | 0 | 1 | 2 => rfl
  | n + 3 => rw [show min 3 (n + 3) = 3 by omega]; rfl

theorem periodField_eq (x : Nat) : periodField x = match x with
    | 0 => 1
    | 1 => 1
    | 2 => 2
    | _ => 4 := by
  match x with
  | 0 | 1 | 2 => rfl
  | n + 3 => simp [periodField]

theorem partnerField_eq (w : Writer) (n : Nat) : partnerField w n = (namedWriter n).filter (fun p => p != w) := by
  rw [partnerField, show writerField n = namedWriter n from rfl]
  cases namedWriter n with
  | none => rfl
  | some p => by_cases own : p = w <;> simp [own, Option.filter]

/-! ### The values of a block (R158, R181) -/

theorem parseWriter_taken (block : List Byte) (w : Writer) : WriterTaken block w (parseWriter block w) where
  enable := by rw [decide_not, parseWriter, bne, beq_eq_decide]
  auto := by
    show (clampTo 0 1 (byteAt block (0x11 + 8 * w.val)) == 1) = _
    rw [clampTo_zero, beq_eq_decide, decide_eq_decide]
    omega
  divisor := clampTo_eq (by simp only [fieldDivisor]; decide) _
  parity := parityOfCode_clamped _
  voice := voiceOfCode_clamped _
  partner := partnerField_eq ..

theorem parseLine_taken (block : List Byte) (i : LineNo) : LineTaken block i (parseLine block i) where
  edge := edgeOfCode_clamped _
  period := periodField_eq _
  filter := clampTo_eq (by simp only [fieldFilter]; decide) _

theorem parseSettings_taken (block : List Byte) : SettingsTaken block (parseSettings block) where
  rateCode := clampTo_zero ..
  divider := clampTo_eq (by decide) _
  slotUnits := clampTo_eq (by decide) _
  rowWidth := clampTo_eq (by decide) _
  displayRows := clampTo_eq (by decide) _
  leadAtStart := rfl
  delay := clampTo_zero ..
  liveLevel := clampTo_eq (by decide) _
  writers w := by
    rw [parseSettings, get_ofFn]
    exact parseWriter_taken block w
  lines i := by
    rw [parseSettings, get_ofFn]
    exact parseLine_taken block i
  bounds := ⟨clampTo_zero .., clampTo_zero .., clampTo_zero ..⟩
  smooth := clampTo_eq (by decide) _
  gate := clampTo_zero ..
  pauseFrames := clampTo_byte (by decide) ..
  silenceFrames := clampTo_zero ..
  handoffFrames := clampTo_zero ..
  holds := ⟨(clampTo_byte (by decide) ..).trans (Nat.zero_max _), (clampTo_byte (by decide) ..).trans (Nat.zero_max _)⟩
  lateAbove := (clampTo_byte (by decide) ..).trans (Nat.zero_max _)
  catchAbove := clampTo_zero ..
  dropAbove := clampTo_zero ..
  linger := clampTo_zero ..
  feedWindow := clampTo_eq (by decide) _
  forcedLead := rfl

/-! ### Offsets picked by a test -/

/-- The offsets that a list of offsets with their tests picks. -/
def picked (l : List (Nat × Bool)) : List Nat := (l.filter Prod.snd).map Prod.fst

theorem picked_append (l r : List (Nat × Bool)) : picked (l ++ r) = picked l ++ picked r := by simp [picked]

theorem picked_one (off : Nat) (test : Bool) : picked [(off, test)] = if test then [off] else [] := by
  cases test <;> rfl

theorem picked_flatMap {α : Type} (l : List α) (f : α → List (Nat × Bool)) :
    picked (l.flatMap f) = l.flatMap (fun x => picked (f x)) := by
  simp [picked, List.filter_flatMap, List.map_flatMap]

theorem mem_picked {l : List (Nat × Bool)} {off : Nat} : off ∈ picked l ↔ (off, true) ∈ l := by
  simp [picked]

/-- Offsets that rise are picked in rising order. -/
theorem picked_rises {l : List (Nat × Bool)} (h : (l.map Prod.fst).Pairwise (· < ·)) : (picked l).Pairwise (· < ·) :=
  h.sublist ((List.filter_sublist).map _)

/-! ### The fields that are clamped (R57, R159) -/

/-- A field's offset with the test whether it is written outside its range. -/
def rangeTest (block : List Byte) (f : NumField) : Nat × Bool := (f.off, f.outside block)

theorem outsideAt_eq (block : List Byte) (f : NumField) : outsideAt block f = picked [rangeTest block f] :=
  (picked_one ..).symm

/-- The fields of group A, and of groups B and C before and behind those of the writers and lines. -/
def structureFields : List NumField := [fieldRate, fieldDivider, fieldUnits, fieldWidth, fieldRows]
def streamFields : List NumField := [fieldDelay, fieldLevel]
def writerFields (w : Writer) : List NumField := [fieldMode w.val, fieldDivisor w.val, fieldParity w.val, fieldVoice w.val]
def lineFields (i : LineNo) : List NumField := [fieldEdge i.val, fieldFilter i.val]
def tuningFields : List NumField :=
  [fieldLmin, fieldLmax, fieldLseed, fieldSmooth, fieldGate, fieldPause, fieldSilence, fieldHandoff, fieldHoldBase,
    fieldHoldChar, fieldLate, fieldCatch, fieldDrop, fieldLinger, fieldWindow]

/-- The numeric fields with a range, in the order of the block but for the sample periods between those of a line. -/
def numFields : List NumField :=
  structureFields ++ streamFields ++ allWriters.flatMap writerFields ++ allLines.flatMap lineFields ++ tuningFields

theorem numFields_ranges : numFields.map (fun f => (f.off, f.size, f.lo, f.hi)) = settingsRanges := by decide

/-- Line i's sample period with its test (R57). -/
def periodTest (block : List Byte) (i : LineNo) : Nat × Bool :=
  (periodOffset i.val, periodField (byteAt block (periodOffset i.val)) != byteAt block (periodOffset i.val))

/-- Every field that may be clamped, with its test, in the order of the block. -/
def rangeTests (block : List Byte) : List (Nat × Bool) :=
  structureFields.map (rangeTest block) ++ [(0x08, loadRequested block && fieldLoad.outside block)]
    ++ streamFields.map (rangeTest block) ++ allWriters.flatMap (fun w => (writerFields w).map (rangeTest block))
    ++ allLines.flatMap (fun i => [rangeTest block (fieldEdge i.val), periodTest block i, rangeTest block (fieldFilter i.val)])
    ++ tuningFields.map (rangeTest block)

theorem picked_map (block : List Byte) (l : List NumField) :
    picked (l.map (rangeTest block)) = l.flatMap (outsideAt block) := by
  induction l with
  | nil => rfl
  | cons f l ih =>
    rw [List.flatMap_cons, outsideAt_eq, ← ih, ← picked_append]
    rfl

theorem clampedFields_eq (block : List Byte) : clampedFields block = picked (rangeTests block) := by
  have load : (if loadRequested block then outsideAt block fieldLoad else []) =
      picked [(0x08, loadRequested block && fieldLoad.outside block)] := by
    rw [picked_one, outsideAt]
    cases loadRequested block <;> rfl
  have writer (w : Writer) : picked ((writerFields w).map (rangeTest block)) = outsideWriter block w := by
    rw [picked_map]
    simp [writerFields, outsideWriter]
  have line (i : LineNo) :
      picked [rangeTest block (fieldEdge i.val), periodTest block i, rangeTest block (fieldFilter i.val)] =
        outsideLine block i := by
    simp only [outsideLine, outsideAt_eq]
    rw [← picked_one, ← picked_append, ← picked_append]
    rfl
  rw [rangeTests, picked_append, picked_append, picked_append, picked_append, picked_append, picked_map, picked_map,
    picked_map, picked_flatMap, picked_flatMap, ← load]
  simp only [writer, line]
  simp [clampedFields, structureFields, streamFields, tuningFields]

theorem clampedFields_rises (block : List Byte) : (clampedFields block).Pairwise (· < ·) := by
  have offsets : (rangeTests block).map Prod.fst = (rangeTests []).map Prod.fst := by
    simp [rangeTests, Function.comp_def, rangeTest, periodTest, List.map_flatMap]
  have rising : ((rangeTests block).map Prod.fst).Pairwise (· < ·) := by
    rw [offsets]
    decide
  rw [clampedFields_eq]
  exact picked_rises rising

theorem eq_rangeTest_iff (block : List Byte) (off : Nat) (f : NumField) :
    (off, true) = rangeTest block f ↔ off = f.off ∧ f.outside block = true := by
  rw [rangeTest, Prod.mk.injEq, eq_comm (a := true)]

theorem eq_periodTest_iff (block : List Byte) (off : Nat) (i : LineNo) : (off, true) = periodTest block i ↔
    off = periodOffset i.val ∧ periodField (byteAt block off) ≠ byteAt block off := by
  rw [periodTest, Prod.mk.injEq, eq_comm (a := true), bne_iff_ne]
  exact and_congr_right fun here => by rw [here]

theorem mem_rangeTests_map {block : List Byte} {off : Nat} {l : List NumField} :
    (off, true) ∈ l.map (rangeTest block) ↔ ∃ f ∈ l, off = f.off ∧ f.outside block = true := by
  rw [List.mem_map]
  exact exists_congr fun f => and_congr_right fun _ => eq_comm.trans (eq_rangeTest_iff ..)

theorem mem_lineTests (block : List Byte) (off : Nat) : (off, true) ∈ allLines.flatMap
      (fun i => [rangeTest block (fieldEdge i.val), periodTest block i, rangeTest block (fieldFilter i.val)]) ↔
    (∃ f ∈ allLines.flatMap lineFields, off = f.off ∧ f.outside block = true) ∨
    ∃ i : LineNo, off = periodOffset i.val ∧ periodField (byteAt block off) ≠ byteAt block off := by
  have every (i : LineNo) : i ∈ allLines := by revert i; decide
  have fields : (∃ f ∈ allLines.flatMap lineFields, off = f.off ∧ f.outside block = true) ↔ ∃ i : LineNo,
      (off, true) = rangeTest block (fieldEdge i.val) ∨ (off, true) = rangeTest block (fieldFilter i.val) := by
    simp only [List.mem_flatMap, every, true_and, lineFields, eq_rangeTest_iff]
    constructor
    · rintro ⟨f, ⟨i, listed⟩, outside⟩
      refine ⟨i, ?_⟩
      rcases List.mem_pair.mp listed with rfl | rfl
      · exact .inl outside
      · exact .inr outside
    · rintro ⟨i, outside | outside⟩
      · exact ⟨_, ⟨i, List.mem_cons_self ..⟩, outside⟩
      · exact ⟨_, ⟨i, List.mem_pair.mpr (.inr rfl)⟩, outside⟩
  rw [fields, ← exists_or, List.mem_flatMap]
  refine exists_congr fun i => ?_
  simp only [every, true_and, List.mem_cons, List.not_mem_nil, or_false, eq_periodTest_iff]
  exact (or_congr_right or_comm).trans or_assoc.symm

theorem mem_clampedFields (block : List Byte) (off : Nat) : off ∈ clampedFields block ↔
    (∃ f ∈ numFields, off = f.off ∧ f.outside block = true) ∨
    (off = 0x08 ∧ loadRequested block = true ∧ fieldLoad.outside block = true) ∨
    ∃ i : LineNo, off = periodOffset i.val ∧ periodField (byteAt block off) ≠ byteAt block off := by
  have writers : (off, true) ∈ allWriters.flatMap (fun w => (writerFields w).map (rangeTest block)) ↔
      ∃ f ∈ allWriters.flatMap writerFields, off = f.off ∧ f.outside block = true := by
    rw [← List.map_flatMap, mem_rangeTests_map]
  have load : (off, true) = (0x08, loadRequested block && fieldLoad.outside block) ↔
      off = 0x08 ∧ loadRequested block = true ∧ fieldLoad.outside block = true := by
    rw [Prod.mk.injEq, eq_comm (a := true), Bool.and_eq_true]
  rw [clampedFields_eq, mem_picked]
  simp only [rangeTests, numFields, List.mem_append, List.mem_singleton, mem_rangeTests_map, writers, mem_lineTests, load,
    or_and_right, exists_or]
  refine iff_of_eq ?_
  ac_rfl

theorem outside_iff {f : NumField} (h : f ∈ numFields) (block : List Byte) :
    f.outside block = true ↔ written block f.off f.size < f.lo ∨ f.hi < written block f.off f.size := by
  have size : ∀ f ∈ numFields, f.size = 1 ∨ f.size = 2 := by decide
  have raw : f.raw block = written block f.off f.size := by
    rcases size f h with e | e <;> simp [NumField.raw, written, e]
  rw [NumField.outside, bne_iff_ne, NumField.value, clampTo_ne_iff, raw]

theorem periodField_ne_iff (x : Nat) : periodField x ≠ x ↔ x ≠ 1 ∧ x ≠ 2 ∧ x ≠ 4 := by
  match x with
  | 0 | 1 | 2 => decide
  | n + 3 =>
    rw [show periodField (n + 3) = 4 from by simp [periodField]]
    omega

theorem ranged_outside_iff (block : List Byte) (off : Nat) : (∃ f ∈ numFields, off = f.off ∧ f.outside block = true) ↔
    ∃ size low high, (off, size, low, high) ∈ settingsRanges ∧
      (written block off size < low ∨ high < written block off size) := by
  simp only [← numFields_ranges, List.mem_map, Prod.mk.injEq]
  constructor
  · rintro ⟨f, listed, rfl, outside⟩
    exact ⟨f.size, f.lo, f.hi, ⟨f, listed, rfl, rfl, rfl, rfl⟩, (outside_iff listed block).mp outside⟩
  · rintro ⟨size, low, high, ⟨f, listed, rfl, rfl, rfl, rfl⟩, outside⟩
    exact ⟨f, listed, rfl, (outside_iff listed block).mpr outside⟩

theorem load_outside_iff (block : List Byte) :
    loadRequested block = true ∧ fieldLoad.outside block = true ↔
      byteAt block 0x06 ≠ 0 ∧ 268435455 < le32 block 0x08 := by
  rw [loadRequested, bne_iff_ne, NumField.outside, bne_iff_ne, NumField.value, clampTo_ne_iff]
  exact and_congr_right fun _ => or_iff_right (Nat.not_lt_zero _)

theorem mem_clampedFields_iff (block : List Byte) (off : Nat) : off ∈ clampedFields block ↔ OutsideRange block off := by
  rw [mem_clampedFields, ranged_outside_iff, load_outside_iff, OutsideRange]
  simp only [periodField_ne_iff, periodOffset]

/-! ### The fields that are ignored (R158) -/

/-- A compared field's offset, with the test whether its values differ. -/
theorem differsAt_eq (off : Nat) (same : Bool) : differsAt off same = picked [(off, !same)] := by
  cases same <;> rfl

/-- The compared fields of group A, with their tests. -/
def structureTests (x y : Settings) (block : List Byte) : List (Nat × Bool) :=
  [(0x00, !(x.rateCode == y.rateCode)), (0x01, !(x.divider == y.divider)), (0x02, !(x.slotUnits == y.slotUnits)),
    (0x03, !(x.rowWidth == y.rowWidth)), (0x04, !(x.displayRows == y.displayRows)),
    (0x05, !(x.leadAtStart == y.leadAtStart)), (0x06, !!loadRequested block)]

/-- The compared fields of a writer, with their tests. -/
def writerTests (w : Nat) (x y : WriterSettings) : List (Nat × Bool) :=
  [(0x10 + 8 * w, !(x.enable == y.enable)), (0x11 + 8 * w, !(x.auto == y.auto)), (0x12 + 8 * w, !(x.divisor == y.divisor)),
    (0x14 + 8 * w, !(x.parity == y.parity)), (0x15 + 8 * w, !(x.voice == y.voice)),
    (0x16 + 8 * w, !(x.partner == y.partner))]

/-- The compared fields of a capture line, with their tests. -/
def lineTests (i : Nat) (x y : LineSettings) : List (Nat × Bool) :=
  [(0x30 + 4 * i, !(x.edge == y.edge)), (0x31 + 4 * i, !(x.period == y.period)), (0x32 + 4 * i, !(x.filter == y.filter))]

/-- The compared fields of group B, with their tests. -/
def onAirTests (x y : Settings) : List (Nat × Bool) :=
  [(0x0C, !(x.delay == y.delay)), (0x0E, !(x.liveLevel == y.liveLevel))]
    ++ allWriters.flatMap (fun w => writerTests w.val (get x.writers w) (get y.writers w))
    ++ allLines.flatMap (fun i => lineTests i.val (get x.lines i) (get y.lines i))

theorem ignoredA_eq (x y : Settings) (block : List Byte) : ignoredA x y block = picked (structureTests x y block) := by
  simp only [ignoredA, differsAt_eq, ← picked_append]
  rfl

theorem ignoredB_eq (x y : Settings) : ignoredB x y = picked (onAirTests x y) := by
  have writer (w : Nat) (p q : WriterSettings) : ignoredWriter w p q = picked (writerTests w p q) := by
    simp only [ignoredWriter, differsAt_eq, ← picked_append]
    rfl
  have line (i : Nat) (p q : LineSettings) : ignoredLine i p q = picked (lineTests i p q) := by
    simp only [ignoredLine, differsAt_eq, ← picked_append]
    rfl
  simp only [ignoredB, differsAt_eq, writer, line, ← picked_flatMap, ← picked_append]
  rfl

/-- Everything that an application compares, and the forced lead where it is refused. -/
def ignoredTests (frozen : Bool) (x y : Settings) (block : List Byte) (refused : Bool) : List (Nat × Bool) :=
  structureTests x y block ++ (if frozen then onAirTests x y else []) ++ [(0x64, refused)]

/-- The offsets that an application in RUNNING ignores. -/
def ignoredFields (frozen : Bool) (x y : Settings) (block : List Byte) (refused : Bool) : List Nat :=
  ignoredA x y block ++ (if frozen then ignoredB x y else []) ++ (if refused then [forcedLeadOffset] else [])

theorem ignoredFields_eq (frozen : Bool) (x y : Settings) (block : List Byte) (refused : Bool) :
    ignoredFields frozen x y block refused = picked (ignoredTests frozen x y block refused) := by
  simp only [ignoredFields, ignoredTests, picked_append, picked_one, ← ignoredA_eq]
  cases frozen
  · rfl
  · rw [if_pos rfl, if_pos rfl, ← ignoredB_eq]
    rfl

theorem ignoredFields_rises (frozen : Bool) (x y : Settings) (block : List Byte) (refused : Bool) :
    (ignoredFields frozen x y block refused).Pairwise (· < ·) := by
  rw [ignoredFields_eq]
  refine picked_rises ?_
  have offsets : (ignoredTests frozen x y block refused).map Prod.fst =
      (ignoredTests frozen Settings.default Settings.default [] false).map Prod.fst := by cases frozen <;> rfl
  rw [offsets]
  cases frozen <;> decide

theorem mem_ignoredFields (frozen : Bool) (x y : Settings) (block : List Byte) (refused : Bool) (off : Nat) :
    off ∈ ignoredFields frozen x y block refused ↔
      FieldIgnored frozen x y block off ∨ (off = 0x64 ∧ refused = true) := by
  have differs {α : Type} [BEq α] [LawfulBEq α] (o : Nat) (p q : α) :
      (off, true) = (o, !(p == q)) ↔ off = o ∧ p ≠ q := by
    rw [Prod.mk.injEq, eq_comm (a := true), Bool.not_eq_true', beq_eq_false_iff_ne]
  have load : (off, true) = (0x06, !!loadRequested block) ↔ off = 0x06 ∧ byteAt block 0x06 ≠ 0 := by
    rw [Prod.mk.injEq, eq_comm (a := true), Bool.not_not, loadRequested, bne_iff_ne]
    rfl
  have writer (w : Writer) : (off, true) ∈ writerTests w.val (get x.writers w) (get y.writers w) ↔
      WriterDiffers w (get x.writers w) (get y.writers w) off := by
    simp only [writerTests, List.mem_cons, List.not_mem_nil, or_false, differs]
    rfl
  have line (i : LineNo) : (off, true) ∈ lineTests i.val (get x.lines i) (get y.lines i) ↔
      LineDiffers i (get x.lines i) (get y.lines i) off := by
    simp only [lineTests, List.mem_cons, List.not_mem_nil, or_false, differs]
    rfl
  have onAir : (off, true) ∈ onAirTests x y ↔
      (off = 0x0C ∧ x.delay ≠ y.delay) ∨ (off = 0x0E ∧ x.liveLevel ≠ y.liveLevel) ∨
      (∃ w : Writer, WriterDiffers w (get x.writers w) (get y.writers w) off) ∨
      ∃ i : LineNo, LineDiffers i (get x.lines i) (get y.lines i) off := by
    have allW (w : Writer) : w ∈ allWriters := by revert w; decide
    have allL (i : LineNo) : i ∈ allLines := by revert i; decide
    simp only [onAirTests, List.mem_append, List.mem_cons, List.not_mem_nil, or_false, differs, List.mem_flatMap, allW, allL,
      true_and, writer, line, or_assoc]
  have forced : (off, true) = (0x64, refused) ↔ off = 0x64 ∧ refused = true := by
    rw [Prod.mk.injEq, eq_comm (a := true)]
  have frozenTests : (off, true) ∈ (if frozen then onAirTests x y else []) ↔
      frozen = true ∧ (off, true) ∈ onAirTests x y := by
    cases frozen <;> simp
  rw [ignoredFields_eq, mem_picked]
  simp only [ignoredTests, structureTests, FieldIgnored, List.mem_append, List.mem_cons, List.not_mem_nil, or_false, differs,
    load, forced, frozenTests, onAir, or_assoc]

end Sys2Proof.Machine
end

