-- ==== Sys2Proof/Proofs/LeadFrames.lean ====
section
/-! What the lead arbiter's work leaves as it was, said once for each operation: besides what the display never changes, the
applied settings, the pending live level, and attention SETTINGS, which only the report of an application raises. -/

namespace Sys2Proof.Machine

/-! ### The display (R48, R113, R128, R130) -/

/-- From s to t neither attention SETTINGS nor the applied settings change, nor does the pending live level. -/
structure Calm (s t : State) : Prop where
  unreported : flagSet .settings t = flagSet .settings s
  settings : t.settings = s.settings
  level : t.disp.pendingLevel = s.disp.pendingLevel

namespace Calm

theorem refl (s : State) : Calm s s := ⟨rfl, rfl, rfl⟩

theorem trans {s t u : State} (h : Calm s t) (g : Calm t u) : Calm s u :=
  ⟨g.unreported.trans h.unreported, g.settings.trans h.settings, g.level.trans h.level⟩

/-- An update that leaves the flags, the settings and the pending live level. -/
theorem same {s t : State} (attn : t.control.attn = s.control.attn) (settings : t.settings = s.settings)
    (level : t.disp.pendingLevel = s.disp.pendingLevel) : Calm s t :=
  ⟨by rw [flagSet, attn, flagSet], settings, level⟩

end Calm

/-- A flag other than SETTINGS is raised. -/
theorem raise_calm {f : AttnFlag} (h : f ≠ .settings) (s : State) : Calm s (raise f s) := by
  refine ⟨?_, rfl, rfl⟩
  have apart : f.mask.getLsbD AttnFlag.settings.bit = false := by
    cases f <;> first | rfl | exact absurd rfl h
  rw [flagSet, raise_attn, BitVec.getLsbD_or, apart, Bool.or_false, flagSet]

theorem journal_calm (r : Record) (s : State) : Calm s (journal r s) := by
  rcases journal_cases r s with ⟨_, e⟩ | ⟨_, e⟩ <;> rw [e]
  · exact .same rfl rfl rfl
  · have lost : Calm s { s with pe := { s.pe with lost := s.pe.lost + 1 } } := .same rfl rfl rfl
    exact lost.trans (raise_calm (by decide) _)

theorem countDropped_calm (r : Row) (s : State) : Calm s (countDropped r s) := by
  unfold countDropped
  split
  · exact .same rfl rfl rfl
  · exact .refl s

theorem overflowDrop_calm (r : Row) (s : State) : Calm s (overflowDrop r s) :=
  (countDropped_calm r s).trans (journal_calm ..)

theorem queue_calm (s : State) (q : List Row) : Calm s { s with queue := q } := .same rfl rfl rfl

theorem joinTail_calm (r : Row) (s : State) : Calm s (joinTail r s) := by
  unfold joinTail
  split
  · split
    · exact (queue_calm ..).trans (overflowDrop_calm ..)
    · exact queue_calm ..
  · exact queue_calm ..

theorem trimQueue_calm (n : Nat) (s : State) : Calm s (trimQueue n s) := by
  induction n generalizing s with
  | zero => exact .refl s
  | succ n ih =>
    unfold trimQueue
    split
    · split
      · exact ((queue_calm s _).trans (overflowDrop_calm ..)).trans (ih _)
      · exact .refl s
    · exact .refl s

theorem offerRow_calm (r : Row) (s : State) : Calm s (offerRow r s).1 := by
  cases stale : isStale (placeRow r s).lag s with
  | false => rw [offerRow_enters stale]; exact .same rfl rfl rfl
  | true => rw [offerRow_drops stale]; exact (countDropped_calm ..).trans (journal_calm ..)

theorem feedRows_calm (n : Nat) (s : State) : Calm s (feedRows n s) := by
  induction n generalizing s with
  | zero => exact .refl s
  | succ n ih =>
    unfold feedRows
    split
    · split
      · exact ((queue_calm s _).trans (offerRow_calm ..)).trans (ih _)
      · exact .refl s
    · exact .refl s

theorem feedAttempt_calm (s : State) : Calm s (feedAttempt s) := feedRows_calm ..

theorem removeWaiting_calm (p : Entry → Bool) (s : State) : Calm s (removeWaiting p s) := by
  unfold removeWaiting
  split
  · exact .refl s
  · exact .same rfl rfl rfl

theorem withdrawLive_calm (s : State) : Calm s (withdrawLive s) :=
  ((queue_calm s _).trans (trimQueue_calm ..)).trans (removeWaiting_calm ..)

theorem cueTurns_calm (n : SlotNo) (left : CueState) (c : Cue) (s : State) : Calm s (cueTurns n left c s) := by
  have stored : Calm s (updateCue n c s) := .same rfl rfl rfl
  have made := stored.trans (journal_calm (.cueState n left c.state c.reason c.shown c.dropped c.start) (updateCue n c s))
  unfold cueTurns
  dsimp only
  split
  · exact made.trans (raise_calm (by decide) _)
  · exact made

theorem storeCtx_calm (k : CtxNo) (x : Option Context) (s : State) : Calm s (storeCtx k x s) := .same rfl rfl rfl

theorem feedTest_calm (s : State) : Calm s (feedTest s) := by
  obtain ⟨ctx, e⟩ := feedTest_eq s
  rw [e]
  exact .same rfl rfl rfl

theorem preemptTop_calm (s : State) : Calm s (preemptTop s) := by
  unfold preemptTop
  split
  · exact withdrawLive_calm s
  · unfold suspendCue
    repeat' split
    · exact ((removeWaiting_calm ..).trans (storeCtx_calm ..)).trans (cueTurns_calm ..)
    all_goals exact .refl s
  · exact .refl s

theorem acceptCue_calm (n : SlotNo) (c : Cue) (k : CtxNo) (s : State) : Calm s (acceptCue n c k s) := by
  have gaveWay : Calm s (preemptTop { s with disp := { s.disp with due := s.disp.due.erase n } }) :=
    Calm.trans (t := { s with disp := { s.disp with due := s.disp.due.erase n } }) (.same rfl rfl rfl) (preemptTop_calm _)
  unfold acceptCue
  refine Calm.trans ?_ (feedTest_calm _)
  refine Calm.trans ?_ (cueTurns_calm ..)
  exact gaveWay.trans (.same rfl rfl rfl)

theorem dueTest_calm (s : State) : Calm s (dueTest s).1 := by
  unfold dueTest
  repeat' split
  all_goals first | exact acceptCue_calm .. | exact .refl s

theorem insertionTest_calm (s : State) : Calm s (insertionTest s).1 := by
  unfold insertionTest
  repeat' split
  · refine Calm.trans ?_ (dueTest_calm _)
    refine Calm.trans ?_ (feedAttempt_calm _)
    exact .same rfl rfl rfl
  · exact .same rfl rfl rfl
  · exact .refl s

theorem leadAppeared_calm (s : State) : Calm s (leadAppeared s) :=
  Calm.trans (t := { s with disp := { s.disp with place := .waiting } }) (.same rfl rfl rfl) (insertionTest_calm _)

/-- A pending live level that is applied raises no flag. -/
theorem applyPendingLevel_unreported (s : State) : flagSet .settings (applyPendingLevel s) = flagSet .settings s := by
  unfold applyPendingLevel
  repeat' split
  all_goals rfl

theorem leadGone_unreported (s : State) : flagSet .settings (leadGone s) = flagSet .settings s := by
  unfold leadGone
  dsimp only
  split
  · rw [(dueTest_calm _).unreported, applyPendingLevel_unreported]
    split
    · exact (withdrawLive_calm { s with disp := { s.disp with place := .absent } }).unreported
    · rfl
  · rfl

theorem applyLiveLevel_unreported (v : Nat) (s : State) : flagSet .settings (applyLiveLevel v s) = flagSet .settings s := by
  unfold applyLiveLevel
  split
  · rfl
  · split
    · rw [(dueTest_calm _).unreported, (insertionTest_calm _).unreported]
      rfl
    · rfl

/-! ### The frames -/

/-- t has of s what no part of a settings application changes before its report. -/
structure OnAirFrame (s t : State) : Prop where
  tb : t.tb = s.tb
  onsets : t.onsets = s.onsets
  lastOnset : t.lastOnset = s.lastOnset
  mem : t.mem = s.mem
  pending : t.pending = s.pending
  clock : t.clock = s.clock
  lines : t.lines = s.lines
  resetLow : t.resetLow = s.resetLow
  out : t.out = s.out
  control : t.control = { s.control with attn := t.control.attn }
  engine : t.pe = { s.pe with buffer := t.pe.buffer, lost := t.pe.lost, marks := t.pe.marks, op := t.pe.op }
  records : RecordsKept s t
  unreported : flagSet .settings t = flagSet .settings s

/-- t has of s what a change of lead and the display's part in it leave, the live level aside. -/
structure LeadFrame (s t : State) : Prop extends OnAirFrame s t where
  ports : t.ports = s.ports
  capture : t.capture = s.capture
  est : t.est = s.est
  settings : t.settings = { s.settings with liveLevel := t.settings.liveLevel }

/-- The live level stands too, the applied and the pending one. -/
structure SteadyFrame (s t : State) : Prop extends LeadFrame s t where
  applied : t.settings = s.settings
  level : t.disp.pendingLevel = s.disp.pendingLevel

theorem OnAirFrame.refl (s : State) : OnAirFrame s s := by
  constructor <;> first | rfl | exact RecordsKept.refl s

theorem OnAirFrame.trans {s t u : State} (h : OnAirFrame s t) (g : OnAirFrame t u) : OnAirFrame s u where
  tb := g.tb.trans h.tb
  onsets := g.onsets.trans h.onsets
  lastOnset := g.lastOnset.trans h.lastOnset
  mem := g.mem.trans h.mem
  pending := g.pending.trans h.pending
  clock := g.clock.trans h.clock
  lines := g.lines.trans h.lines
  resetLow := g.resetLow.trans h.resetLow
  out := g.out.trans h.out
  control := by have e := g.control; rw [h.control] at e; exact e
  engine := by have e := g.engine; rw [h.engine] at e; exact e
  records := h.records.trans g.records
  unreported := g.unreported.trans h.unreported

theorem LeadFrame.trans {s t u : State} (h : LeadFrame s t) (g : LeadFrame t u) : LeadFrame s u where
  toOnAirFrame := h.toOnAirFrame.trans g.toOnAirFrame
  ports := g.ports.trans h.ports
  capture := g.capture.trans h.capture
  est := g.est.trans h.est
  settings := by have e := g.settings; rw [h.settings] at e; exact e

namespace SteadyFrame

theorem refl (s : State) : SteadyFrame s s := ⟨⟨.refl s, rfl, rfl, rfl, rfl⟩, rfl, rfl⟩

theorem trans {s t u : State} (h : SteadyFrame s t) (g : SteadyFrame t u) : SteadyFrame s u :=
  ⟨h.toLeadFrame.trans g.toLeadFrame, g.applied.trans h.applied, g.level.trans h.level⟩

/-- An update of the lead arbiter's record, the row builders, the work outstanding, the counters and the next row id. -/
theorem update (s : State) (la : Arbiter) (builders : Vector Builder 4) (work : Work) (counters : Vector Counters 4)
    (nextRowId : Word32) : SteadyFrame s { s with
      la := la, builders := builders, work := work, counters := counters, nextRowId := nextRowId } := by
  refine ⟨⟨?_, rfl, rfl, rfl, rfl⟩, rfl, rfl⟩
  constructor <;> first | rfl | exact .same rfl rfl

theorem arbiter (s : State) (la : Arbiter) : SteadyFrame s { s with la := la } := update s la ..

theorem working (s : State) (work : Work) : SteadyFrame s { s with work := work } := update s _ _ work _ _

end SteadyFrame

/-- What the display does leaves what it leaves, the live level aside. -/
theorem Local.onAir {s t : State} (h : Local s t) (unreported : flagSet .settings t = flagSet .settings s) : LeadFrame s t :=
  { h.toDisplayFrame with unreported := unreported }

theorem Local.steady {s t : State} (h : Local s t) (calm : Calm s t) : SteadyFrame s t :=
  ⟨h.onAir calm.unreported, calm.settings, calm.level⟩

theorem raise_steady {f : AttnFlag} (h : f ≠ .settings) (s : State) : SteadyFrame s (raise f s) :=
  (raise_local f s).steady (raise_calm h s)

theorem journal_steady (r : Record) (s : State) : SteadyFrame s (journal r s) := (journal_local r s).steady (journal_calm r s)

theorem feedAttempt_steady (s : State) : SteadyFrame s (feedAttempt s) := (feedAttempt_local s).steady (feedAttempt_calm s)

/-! ### Changes of lead (R84 to R94) -/

theorem silenceTest_eq (s : State) : ∃ b, silenceTest s = { s with work := { s.work with silence := b } } := by
  unfold silenceTest
  split
  · exact ⟨_, rfl⟩
  · exact ⟨s.work.silence, rfl⟩

theorem silenceTest_steady (s : State) : SteadyFrame s (silenceTest s) := by
  obtain ⟨b, e⟩ := silenceTest_eq s
  rw [e]
  exact .working ..

theorem closeRow_steady (w : Writer) (reason : CloseReason) (s : State) : SteadyFrame s (closeRow w reason s).1 := by
  by_cases empty : (builderOf s w).chars = []
  · rw [closeRow_of_empty empty]
    exact .refl s
  · by_cases role : roleOf s w = .lead
    · rw [closeRow_of_lead empty role]
      exact ((SteadyFrame.update s s.la _ s.work _ _).trans
        ((joinTail_local ..).steady (joinTail_calm ..))).trans (feedAttempt_steady _)
    · rw [closeRow_of_other empty role]
      exact .update s s.la _ s.work _ s.nextRowId

theorem giveLead_steady (w : Writer) (reason : LeadReason) (s : State) : SteadyFrame s (giveLead w reason s) := by
  unfold giveLead
  exact (((((SteadyFrame.arbiter s _).trans (journal_steady ..)).trans (raise_steady (by decide) _)).trans
    ((leadAppeared_local _).steady (leadAppeared_calm _))).trans (feedAttempt_steady _)).trans (silenceTest_steady _)

theorem switchLead_steady (w : Writer) (reason : LeadReason) (s : State) : SteadyFrame s (switchLead w reason s) := by
  unfold switchLead
  split
  · exact giveLead_steady ..
  · exact (((((closeRow_steady ..).trans (.arbiter ..)).trans (journal_steady ..)).trans (raise_steady (by decide) _)).trans
      (feedAttempt_steady _)).trans (silenceTest_steady _)

theorem loseLead_frame (w : Writer) (reason : LeadReason) (s : State) : LeadFrame s (loseLead w reason s) :=
  (((((closeRow_steady ..).trans (.arbiter ..)).trans (journal_steady ..)).trans
    (raise_steady (by decide) _))).toLeadFrame.trans ((leadGone_local _).onAir (leadGone_unreported _))

theorem cancelHandoff_steady (s : State) : SteadyFrame s (cancelHandoff s) := by
  unfold cancelHandoff
  split
  · exact .arbiter ..
  · exact .refl s

theorem completeHandoff_steady (reported : Bool) (s : State) : SteadyFrame s (completeHandoff reported s) := by
  unfold completeHandoff
  split
  · split
    · exact switchLead_steady ..
    · exact .refl s
  · exact .refl s

theorem failover_steady (s : State) : SteadyFrame s (failover s) := by
  unfold failover
  split
  · split
    · exact switchLead_steady ..
    · split
      · exact switchLead_steady ..
      · unfold reportSilence
        split
        · exact .refl s
        · exact ((SteadyFrame.arbiter s _).trans (raise_steady (by decide) _)).trans (journal_steady ..)
  · exact .refl s

theorem silentLeadNow_steady (s : State) : SteadyFrame s (silentLeadNow s) := by
  unfold silentLeadNow
  split
  · dsimp only
    split
    · exact (SteadyFrame.working s _).trans (failover_steady _)
    · exact .working ..
  · exact .refl s

theorem silentLeads_steady (s : State) : SteadyFrame s (silentLeads s) :=
  (((silentLeadNow_steady s).trans (silentLeadNow_steady _)).trans (silentLeadNow_steady _)).trans (silentLeadNow_steady _)

theorem forceLead_steady (w : Writer) (s : State) : SteadyFrame s (forceLead w s).1 := by
  unfold forceLead
  split
  · exact .refl s
  · split
    · exact cancelHandoff_steady s
    · split
      · split
        · exact switchLead_steady ..
        · exact (cancelHandoff_steady s).trans (switchLead_steady ..)
      · exact switchLead_steady ..

theorem takerLeftRun_steady (w : Writer) (s : State) : SteadyFrame s (takerLeftRun w s) := by
  rw [takerLeftRun_eq]
  exact .arbiter ..

theorem leadDisabled_frame (w : Writer) (s : State) : LeadFrame s (leadDisabled w s) := by
  unfold leadDisabled
  split
  · split
    · exact (switchLead_steady ..).toLeadFrame
    · split
      · exact (switchLead_steady ..).toLeadFrame
      · exact loseLead_frame ..
  · exact (SteadyFrame.refl s).toLeadFrame

theorem silenceOfApplication_steady (s : State) : SteadyFrame s (silenceOfApplication s) := by
  unfold silenceOfApplication
  split
  · exact (silenceTest_steady s).trans (silentLeads_steady _)
  · exact .refl s

end Sys2Proof.Machine
end

