-- ==== Sys2Proof/Proofs/PortsApplied.lean ====
section
/-! The ports at a settings application (R17, R18, R157): what becomes of one writer's port, its record and its estimate, and
what the application of all four leaves as it was. -/

namespace Sys2Proof.Machine

/-! ### One port (R17, R18) -/

/-- What an application in RUNNING makes of a port at a count of the clock. -/
def appliedPort (old new : WriterSettings) (clock : Nat) (p : Port) : Port :=
  if p.mode = .off then (if new.enable then startedPort new clock else p)
  else if !new.enable then stoppedPort
  else if samePortSettings old new then p
  else retunedPort old new p clock

theorem samePortSettings_iff (x y : WriterSettings) :
    samePortSettings x y = true ↔ x.auto = y.auto ∧ x.divisor = y.divisor ∧ x.parity = y.parity := by
  simp [samePortSettings, and_assoc]

/-- An abandoned character leaves the port's state, divisor and counts (R18). -/
theorem abandonedPort_leaves (p : Port) (clock : Nat) :
    let q := abandonedPort p clock
    q.mode = p.mode ∧ q.divisor = p.divisor ∧ q.framing = p.framing ∧ q.pauseCount = p.pauseCount ∧
    q.pauseArmed = p.pauseArmed ∧ q.pauseFlag = p.pauseFlag ∧ q.silence = p.silence ∧ q.lookFrom = clock := by
  unfold abandonedPort
  dsimp only
  split <;> exact ⟨rfl, rfl, rfl, rfl, rfl, rfl, rfl, rfl⟩

/-- Changed port settings leave the pause and silence counts. -/
theorem retunedPort_counts (old new : WriterSettings) (p : Port) (clock : Nat) :
    let q := retunedPort old new p clock
    q.pauseCount = p.pauseCount ∧ q.pauseArmed = p.pauseArmed ∧ q.pauseFlag = p.pauseFlag ∧ q.silence = p.silence := by
  obtain ⟨_, _, _, pauseCount, pauseArmed, pauseFlag, silence, _⟩ := abandonedPort_leaves p clock
  unfold retunedPort
  dsimp only
  repeat' split
  all_goals exact ⟨pauseCount, pauseArmed, pauseFlag, silence⟩

theorem retunedPort_toAutomatic {old new : WriterSettings} (was : old.auto = false) (auto : new.auto = true) (p : Port)
    (clock : Nat) : retunedPort old new p clock = seekingPort (abandonedPort p clock) clock := by
  simp [retunedPort, was, auto]

theorem retunedPort_toFixed {old new : WriterSettings} (was : old.auto = true) (fixed : new.auto = false) (p : Port)
    (clock : Nat) :
    retunedPort old new p clock = { runningPort (abandonedPort p clock) new.divisor clock with framing := 0 } := by
  simp [retunedPort, was, fixed]

/-- A changed fixed divisor is taken in RUN. -/
theorem retunedPort_inRun {old new : WriterSettings} (was : old.auto = false) (fixed : new.auto = false)
    (other : old.divisor ≠ new.divisor) {p : Port} (run : p.mode = .run) (clock : Nat) :
    retunedPort old new p clock = { abandonedPort p clock with divisor := some new.divisor } := by
  simp [retunedPort, was, fixed, other, run]

/-- In RESYNC the mark is timed anew with it. -/
theorem retunedPort_inResync {old new : WriterSettings} (was : old.auto = false) (fixed : new.auto = false)
    (other : old.divisor ≠ new.divisor) {p : Port} (resync : p.mode = .resync) (clock : Nat) :
    retunedPort old new p clock = { abandonedPort p clock with divisor := some new.divisor, since := clock } := by
  simp [retunedPort, was, fixed, other, resync]

theorem retunedPort_abandons {old new : WriterSettings} (same : old.auto = new.auto)
    (kept : new.auto = true ∨ old.divisor = new.divisor) (p : Port) (clock : Nat) :
    retunedPort old new p clock = abandonedPort p clock := by
  rcases kept with auto | divisor
  · simp [retunedPort, same, auto]
  · simp [retunedPort, same, divisor]

theorem appliedPort_applied (old new : WriterSettings) (clock : Nat) (p : Port) :
    PortApplied old new clock p (appliedPort old new clock p) := by
  have retuned (on : p.mode ≠ .off) (enable : new.enable = true)
      (changed : ¬(old.auto = new.auto ∧ old.divisor = new.divisor ∧ old.parity = new.parity)) :
      appliedPort old new clock p = retunedPort old new p clock := by
    rw [← samePortSettings_iff] at changed
    simp [appliedPort, on, enable, changed]
  obtain ⟨mode, divisor, framing, _, _, _, _, lookFrom⟩ := abandonedPort_leaves p clock
  refine ⟨fun off stays => ?_, fun on disabled => ?_, fun off enable => ?_, fun on enable => ?_,
    fun on enable auto divisor parity => ?_, fun on enable was auto => ?_, fun on enable was fixed => ?_,
    fun receives enable was fixed other => ?_, fun on enable same kept changed => ?_⟩
  · simp [appliedPort, off, stays]
  · simp only [appliedPort, on, disabled, if_false]
    rfl
  · rw [appliedPort, if_pos off, if_pos enable, startedPort]
    split <;> simp_all [Port.reset]
  · by_cases same : samePortSettings old new = true
    · simp [appliedPort, on, enable, same]
    · rw [retuned on enable (by rwa [← samePortSettings_iff])]
      exact retunedPort_counts ..
  · have same := (samePortSettings_iff old new).mpr ⟨auto, divisor, parity⟩
    simp [appliedPort, on, enable, same]
  · rw [retuned on enable (by simp [was, auto]), retunedPort_toAutomatic was auto]
    exact ⟨rfl, rfl, rfl, rfl, rfl⟩
  · rw [retuned on enable (by simp [was, fixed]), retunedPort_toFixed was fixed]
    exact ⟨rfl, rfl, rfl, rfl, rfl⟩
  · rcases receives with run | resync
    · rw [retuned (by simp [run]) enable (by simp [other]), retunedPort_inRun was fixed other run]
      exact ⟨mode, rfl, framing, lookFrom, by simp [run]⟩
    · rw [retuned (by simp [resync]) enable (by simp [other]), retunedPort_inResync was fixed other resync]
      exact ⟨mode, rfl, framing, lookFrom, fun _ => rfl⟩
  · rw [retuned on enable (by tauto), retunedPort_abandons same kept]
    exact ⟨mode, divisor, framing, lookFrom⟩

/-! ### The application of one writer's port settings (R157 step 3) -/

/-- Writer w's settings with the port settings of new ones. -/
def portSet (new : Settings) (s : State) (w : Writer) : WriterSettings :=
  let n := get new.writers w
  { writerOf s w with enable := n.enable, auto := n.auto, divisor := n.divisor, parity := n.parity }

/-- s with writer w's port settings taken. -/
def portWritten (new : Settings) (s : State) (w : Writer) : State :=
  { s with settings := { s.settings with writers := put s.settings.writers w (portSet new s w) } }

/-- The port of writer w after the application. -/
def portAfter (new : Settings) (s : State) (w : Writer) : Port :=
  if isRunning s then appliedPort (writerOf s w) (get new.writers w) s.clock (portOf s w) else portOf s w

/-- The estimator's record of a writer that is seeded (R68). -/
def seeded (s : State) : Estimator := { estimate := some (clampEstimate s (16 * s.settings.lseed)), rejects := 0 }

/-- The estimates after the application: a writer that is enabled is seeded (R68). -/
def estAfter (new : Settings) (s : State) (w : Writer) : Vector Estimator 4 :=
  if isRunning s = true ∧ (portOf s w).mode = .off ∧ (get new.writers w).enable = true then put s.est w (seeded s)
  else s.est

/-- s with writer w's port settings, port and estimate after the application. -/
def portApplied (new : Settings) (s : State) (w : Writer) : State :=
  { portWritten new s w with ports := put s.ports w (portAfter new s w), est := estAfter new s w }

theorem reportPort_steady (w : Writer) (left : PortMode) (cause : PortCause) (s : State) :
    SteadyFrame s (reportPort w left cause s) := by
  unfold reportPort
  dsimp only
  split
  · exact (journal_steady ..).trans (raise_steady (by decide) _)
  · exact journal_steady ..

theorem portBecomes_steady (w : Writer) (p : Port) (cause : PortCause) (s : State) :
    SteadyFrame { s with ports := put s.ports w p } (portBecomes w p cause s) := by
  have reported := reportPort_steady w (portOf s w).mode cause { s with ports := put s.ports w p }
  unfold portBecomes
  dsimp only
  split
  · exact reported.trans (takerLeftRun_steady ..)
  · exact reported

/-- The state in which the lead arbiter finds the disable of writer w's port, whether a close was reported, and the taker's
handoff cancelled (R90, R94). -/
def portDisabled (w : Writer) (s : State) : State × Bool :=
  let r := closeRow w .handoff (onPort w (fun _ => stoppedPort) s)
  (reportPort w (portOf s w).mode .disable (onBuilder w (fun b => { b with markPending := false }) r.1), r.2)

theorem disablePort_eq (w : Writer) (s : State) : disablePort w s =
    let s2 := completeHandoff (portDisabled w s).2 (portDisabled w s).1
    leadDisabled w (if (portOf s w).mode = .run then takerLeftRun w s2 else s2) := rfl

theorem portDisabled_steady (w : Writer) (s : State) :
    SteadyFrame { s with ports := put s.ports w stoppedPort } (portDisabled w s).1 :=
  ((closeRow_steady w .handoff { s with ports := put s.ports w stoppedPort }).trans (.update ..)).trans (reportPort_steady ..)

theorem disablePort_frame (w : Writer) (s : State) :
    LeadFrame { s with ports := put s.ports w stoppedPort } (disablePort w s) := by
  rw [disablePort_eq]
  have completed := (portDisabled_steady w s).trans (completeHandoff_steady (portDisabled w s).2 _)
  dsimp only
  split
  · exact (completed.trans (takerLeftRun_steady ..)).toLeadFrame.trans (leadDisabled_frame ..)
  · exact completed.toLeadFrame.trans (leadDisabled_frame ..)

theorem writerOf_portWritten (new : Settings) (s : State) (w : Writer) :
    writerOf (portWritten new s w) w = portSet new s w := get_put_same ..

/-- The application by its cases: whether the part is RUNNING, the port OFF, its writer enabled, and its settings changed. -/
theorem applyPort_eq (new : Settings) (s : State) (w : Writer) : applyPort new s w =
    let n := get new.writers w
    let u := portWritten new s w
    if !isRunning s then u
    else if (portOf s w).mode = .off then (if n.enable then enablePort w u else u)
    else if !n.enable then disablePort w u
    else if samePortSettings (writerOf s w) n then u
    else retunePort w (writerOf s w) n u := rfl

theorem applyPort_of_stopped {s : State} (h : isRunning s = false) (new : Settings) (w : Writer) :
    applyPort new s w = portWritten new s w := by
  rw [applyPort_eq]
  exact if_pos (by rw [h]; rfl)

theorem applyPort_of_running {s : State} (h : isRunning s = true) (new : Settings) (w : Writer) : applyPort new s w =
    let n := get new.writers w
    let u := portWritten new s w
    if (portOf s w).mode = .off then (if n.enable then enablePort w u else u)
    else if !n.enable then disablePort w u
    else if samePortSettings (writerOf s w) n then u
    else retunePort w (writerOf s w) n u := by
  rw [applyPort_eq]
  exact if_neg (by rw [h]; decide)

/-- What is not RUNNING, stays OFF, or keeps its port settings, has its settings taken alone. -/
theorem applyPort_still {new : Settings} {s : State} {w : Writer}
    (h : isRunning s = true → ((portOf s w).mode = .off ∧ (get new.writers w).enable = false) ∨
      ((portOf s w).mode ≠ .off ∧ (get new.writers w).enable = true ∧
        samePortSettings (writerOf s w) (get new.writers w) = true)) : applyPort new s w = portWritten new s w := by
  cases running : isRunning s with
  | false => exact applyPort_of_stopped running ..
  | true =>
    rw [applyPort_of_running running]
    rcases h running with ⟨off, disabled⟩ | ⟨on, enabled, same⟩
    · simp only [off, disabled, if_true, Bool.false_eq_true, if_false]
    · simp only [on, enabled, same, if_false, if_true, Bool.not_true, Bool.false_eq_true]

theorem applyPort_enables {new : Settings} {s : State} {w : Writer} (h : isRunning s = true) (off : (portOf s w).mode = .off)
    (enabled : (get new.writers w).enable = true) : applyPort new s w = enablePort w (portWritten new s w) := by
  rw [applyPort_of_running h]
  simp only [off, enabled, if_true]

theorem applyPort_disables {new : Settings} {s : State} {w : Writer} (h : isRunning s = true) (on : (portOf s w).mode ≠ .off)
    (disabled : (get new.writers w).enable = false) : applyPort new s w = disablePort w (portWritten new s w) := by
  rw [applyPort_of_running h]
  simp only [on, disabled, if_false, if_true, Bool.not_false]

theorem applyPort_retunes {new : Settings} {s : State} {w : Writer} (h : isRunning s = true) (on : (portOf s w).mode ≠ .off)
    (enabled : (get new.writers w).enable = true) (changed : samePortSettings (writerOf s w) (get new.writers w) = false) :
    applyPort new s w = retunePort w (writerOf s w) (get new.writers w) (portWritten new s w) := by
  rw [applyPort_of_running h]
  simp only [on, enabled, changed, if_false, Bool.not_true, Bool.false_eq_true]

theorem enablePort_portWritten (new : Settings) (s : State) (w : Writer) : enablePort w (portWritten new s w) =
    portBecomes w (startedPort (get new.writers w) s.clock) .enable (seedWriter (portWritten new s w) w) := by
  rw [enablePort, writerOf_portWritten]
  rfl

theorem retunePort_frame (w : Writer) (old new : WriterSettings) (s : State) :
    SteadyFrame { s with ports := put s.ports w (retunedPort old new (portOf s w) s.clock) } (retunePort w old new s) := by
  unfold retunePort
  dsimp only
  split
  · exact .refl _
  · exact portBecomes_steady ..

/-- The port and the estimate of a writer follow the application, and besides nothing but the lead and the display changes. -/
theorem applyPort_frame (new : Settings) (s : State) (w : Writer) :
    LeadFrame (portApplied new s w) (applyPort new s w) := by
  have still (same : applyPort new s w = portWritten new s w) (port : portAfter new s w = portOf s w)
      (est : estAfter new s w = s.est) : LeadFrame (portApplied new s w) (applyPort new s w) := by
    rw [same, portApplied, port, est, portOf, put_get_same]
    exact (SteadyFrame.refl (portWritten new s w)).toLeadFrame
  cases running : isRunning s with
  | false =>
    exact still (applyPort_of_stopped running ..) (by simp [portAfter, running]) (by simp [estAfter, running])
  | true =>
    by_cases off : (portOf s w).mode = .off
    · cases enabled : (get new.writers w).enable with
      | false =>
        exact still (applyPort_still fun _ => .inl ⟨off, enabled⟩) (by simp [portAfter, appliedPort, off, enabled])
          (by simp [estAfter, enabled])
      | true =>
        have port : portAfter new s w = startedPort (get new.writers w) s.clock := by
          simp [portAfter, appliedPort, running, off, enabled]
        have est : estAfter new s w = put s.est w (seeded s) := by simp [estAfter, running, off, enabled]
        rw [applyPort_enables running off enabled, enablePort_portWritten, portApplied, port, est]
        exact (portBecomes_steady w _ .enable (seedWriter (portWritten new s w) w)).toLeadFrame
    · have est : estAfter new s w = s.est := by simp [estAfter, off]
      cases enabled : (get new.writers w).enable with
      | false =>
        have port : portAfter new s w = stoppedPort := by simp [portAfter, appliedPort, running, off, enabled]
        rw [applyPort_disables running off enabled, portApplied, port, est]
        exact disablePort_frame w (portWritten new s w)
      | true =>
        cases same : samePortSettings (writerOf s w) (get new.writers w) with
        | true =>
          exact still (applyPort_still fun _ => .inr ⟨off, enabled, same⟩)
            (by simp [portAfter, appliedPort, off, enabled, same]) est
        | false =>
          have port : portAfter new s w = retunedPort (writerOf s w) (get new.writers w) (portOf s w) s.clock := by
            simp [portAfter, appliedPort, running, off, enabled, same]
          rw [applyPort_retunes running off enabled same, portApplied, port, est]
          exact (retunePort_frame w _ _ (portWritten new s w)).toLeadFrame

/-! ### The records of the ports (R32) -/

/-- A change of port state is on record, and one that leaves RUN has set attention WRITER (R32). -/
theorem reportPort_reports (w : Writer) (left : PortMode) (cause : PortCause) (s : State) :
    Recorded (reportPort w left cause s) (.writerState w left (portOf s w).mode cause (portOf s w).divisor) ∧
    (left = .run → (portOf s w).mode ≠ .run → flagSet .writer (reportPort w left cause s) = true) := by
  have made := journal_recorded (.writerState w left (portOf s w).mode cause (portOf s w).divisor) s
  unfold reportPort
  dsimp only
  split
  · exact ⟨made.mono (raise_records ..), fun _ _ => raise_set ..⟩
  · rename_i quiet
    exact ⟨made, fun run other => absurd ⟨run, other⟩ quiet⟩

theorem portBecomes_reports (w : Writer) (p : Port) (cause : PortCause) (s : State) :
    Recorded (portBecomes w p cause s) (.writerState w (portOf s w).mode p.mode cause p.divisor) ∧
    ((portOf s w).mode = .run → p.mode ≠ .run → flagSet .writer (portBecomes w p cause s) = true) := by
  have own : portOf (onPort w (fun _ => p) s) w = p := get_put_same ..
  obtain ⟨made, raised⟩ := reportPort_reports w (portOf s w).mode cause (onPort w (fun _ => p) s)
  rw [own] at made raised
  unfold portBecomes
  dsimp only
  split
  · have kept := (takerLeftRun_steady w (reportPort w (portOf s w).mode cause (onPort w (fun _ => p) s))).records
    exact ⟨made.mono kept, fun run other => kept.flags _ (raised run other)⟩
  · exact ⟨made, raised⟩

theorem disablePort_reports (w : Writer) (s : State) :
    Recorded (disablePort w s) (.writerState w (portOf s w).mode .off .disable none) ∧
    ((portOf s w).mode = .run → flagSet .writer (disablePort w s) = true) := by
  let closed := closeRow w .handoff (onPort w (fun _ => stoppedPort) s)
  let u := onBuilder w (fun b => { b with markPending := false }) closed.1
  have own : portOf u w = stoppedPort := by
    show get closed.1.ports w = _
    rw [(closeRow_leaves ..).2]
    exact get_put_same ..
  obtain ⟨made, raised⟩ := reportPort_reports w (portOf s w).mode .disable u
  rw [own] at made raised
  have kept : RecordsKept (portDisabled w s).1 (disablePort w s) := by
    rw [disablePort_eq]
    have completed := completeHandoff_steady (portDisabled w s).2 (portDisabled w s).1
    dsimp only
    split
    · exact ((completed.trans (takerLeftRun_steady ..)).toLeadFrame.trans (leadDisabled_frame ..)).records
    · exact (completed.toLeadFrame.trans (leadDisabled_frame ..)).records
  exact ⟨made.mono kept, fun run => kept.flags _ (raised run (by decide))⟩

theorem retunePort_of_changed {w : Writer} {old new : WriterSettings} {s : State}
    (changed : (retunedPort old new (portOf s w) s.clock).mode ≠ (portOf s w).mode ∨
      (retunedPort old new (portOf s w) s.clock).divisor ≠ (portOf s w).divisor) :
    retunePort w old new s = portBecomes w (retunedPort old new (portOf s w) s.clock) .settings s := by
  unfold retunePort
  exact if_neg (by tauto)

theorem PortRecorded.mono {w : Writer} {new : WriterSettings} {p q : Port} {s t : State} (h : PortRecorded w new p q s)
    (kept : RecordsKept s t) : PortRecorded w new p q t :=
  ⟨fun off enable => (h.enabled off enable).mono kept, fun on disable => (h.disabled on disable).mono kept,
    fun on enable changed => (h.retuned on enable changed).mono kept, fun run left => kept.flags _ (h.attention run left)⟩

/-- A port that stays as it is needs no record. -/
theorem PortRecorded.still {w : Writer} {new : WriterSettings} {p : Port} (s : State)
    (h : (p.mode = .off ∧ new.enable = false) ∨ (p.mode ≠ .off ∧ new.enable = true)) : PortRecorded w new p p s := by
  rcases h with ⟨off, disabled⟩ | ⟨on, enabled⟩
  · exact ⟨fun _ e => by simp [disabled] at e, fun on => absurd off on, fun on => absurd off on,
      fun run other => absurd run other⟩
  · exact ⟨fun off => absurd off on, fun _ d => by simp [enabled] at d, fun _ _ changed => by simp at changed,
      fun run other => absurd run other⟩

theorem applyPort_recorded {new : Settings} {s : State} {w : Writer} (running : isRunning s = true) :
    PortRecorded w (get new.writers w) (portOf s w) (portAfter new s w) (applyPort new s w) := by
  by_cases off : (portOf s w).mode = .off
  · cases enabled : (get new.writers w).enable with
    | false =>
      have port : portAfter new s w = portOf s w := by simp [portAfter, appliedPort, off, enabled]
      rw [port]
      exact .still _ (.inl ⟨off, enabled⟩)
    | true =>
      have port : portAfter new s w = startedPort (get new.writers w) s.clock := by
        simp [portAfter, appliedPort, running, off, enabled]
      obtain ⟨made, _⟩ := portBecomes_reports w (startedPort (get new.writers w) s.clock) .enable
        (seedWriter (portWritten new s w) w)
      rw [applyPort_enables running off enabled, enablePort_portWritten, port]
      refine ⟨fun _ _ => off ▸ made, fun on => absurd off on, fun on => absurd off on, fun run => by simp [off] at run⟩
  · cases enabled : (get new.writers w).enable with
    | false =>
      have port : portAfter new s w = stoppedPort := by simp [portAfter, appliedPort, running, off, enabled]
      obtain ⟨made, raised⟩ := disablePort_reports w (portWritten new s w)
      rw [applyPort_disables running off enabled, port]
      exact ⟨fun h => absurd h off, fun _ _ => made, fun _ e => by simp [enabled] at e, fun run _ => raised run⟩
    | true =>
      cases same : samePortSettings (writerOf s w) (get new.writers w) with
      | true =>
        have port : portAfter new s w = portOf s w := by simp [portAfter, appliedPort, off, enabled, same]
        rw [port]
        exact .still _ (.inr ⟨off, enabled⟩)
      | false =>
        have port : portAfter new s w = retunedPort (writerOf s w) (get new.writers w) (portOf s w) s.clock := by
          simp [portAfter, appliedPort, running, off, enabled, same]
        rw [applyPort_retunes running off enabled same, port]
        have reports (changed) := retunePort_of_changed (w := w) (old := writerOf s w) (new := get new.writers w)
          (s := portWritten new s w) changed
        refine ⟨fun h => absurd h off, fun _ d => by simp [enabled] at d, fun _ _ changed => ?_, fun run left => ?_⟩
        · rw [reports changed]
          exact (portBecomes_reports ..).1
        · have entered : (retunedPort (writerOf s w) (get new.writers w) (portOf s w) s.clock).mode ≠
              (portOf s w).mode := by rwa [run]
          rw [reports (.inl entered)]
          exact (portBecomes_reports ..).2 run left

end Sys2Proof.Machine
end

