-- ==== Sys2Proof/Proofs/ApplicationOnAir.lean ====
section
/-! The values of a settings application (R57, R68, R69, R157): the tuning, the voices and lines, and the ports of all four
writers. -/

namespace Sys2Proof.Machine

/-! ### Tuning, voices and lines (R157 steps 1 and 2) -/

/-- The applied settings with the group C values of new ones, the forced lead aside. -/
def tunedTo (new x : Settings) : Settings :=
  { x with
    lmin := new.lmin, lmax := new.lmax, lseed := new.lseed, smooth := new.smooth, gate := new.gate
    pauseFrames := new.pauseFrames, silenceFrames := new.silenceFrames, handoffFrames := new.handoffFrames
    holdBase := new.holdBase, holdChar := new.holdChar, lateAbove := new.lateAbove, catchAbove := new.catchAbove
    dropAbove := new.dropAbove, linger := new.linger, feedWindow := new.feedWindow }

/-- Every set estimate lies within the bounds in force (R69). -/
def EstimatesWithin (s : State) : Prop :=
  ∀ w e, (get s.est w).estimate = some e →
    16 * s.settings.lmin ≤ e ∧ e ≤ 16 * max s.settings.lmin s.settings.lmax

theorem clampEstimate_within (s : State) (x : Nat) :
    16 * s.settings.lmin ≤ clampEstimate s x ∧ clampEstimate s x ≤ 16 * max s.settings.lmin s.settings.lmax := by
  unfold clampEstimate clampTo lmaxBound
  repeat' split
  all_goals omega

theorem applyTuning_eq (new : Settings) (s : State) : applyTuning new s =
    { s with settings := tunedTo new s.settings, est := (applyTuning new s).est } := rfl

theorem applyTuning_within (new : Settings) (s : State) : EstimatesWithin (applyTuning new s) := by
  intro w e set
  have clamped : get (applyTuning new s).est w = { get s.est w with
      estimate := (get s.est w).estimate.map (clampEstimate { s with settings := tunedTo new s.settings }) } := get_map ..
  rw [clamped, Option.map_eq_some_iff] at set
  obtain ⟨x, -, rfl⟩ := set
  exact clampEstimate_within ..

/-- The filter of line i after an application: it restarts where the line's values change (R57). -/
def lineAfter (new : Settings) (s : State) (i : LineNo) : Capture :=
  if get new.lines i = get s.settings.lines i then get s.capture i else restarted (get s.lines i) (get s.capture i)

theorem applyLine_eq (new : Settings) (s : State) (i : LineNo) : applyLine new s i = { s with
    settings := { s.settings with lines := put s.settings.lines i (get new.lines i) }
    capture := put s.capture i (lineAfter new s i) } := by
  unfold applyLine lineAfter
  split
  · rename_i same
    rw [same, put_get_same, put_get_same]
  · rfl

/-- Lines that take their values one after another take them together. -/
theorem foldl_applyLine (new : Settings) (l : List LineNo) (s : State) : l.foldl (applyLine new) s = { s with
    settings := { s.settings with
      lines := Vector.ofFn (fun i => if i ∈ l then get new.lines i else get s.settings.lines i) }
    capture := Vector.ofFn (fun i => if i ∈ l then lineAfter new s i else get s.capture i) } := by
  induction l generalizing s with
  | nil =>
    have lines : s.settings.lines = Vector.ofFn (get s.settings.lines) := table_ext fun i => (get_ofFn ..).symm
    have capture : s.capture = Vector.ofFn (get s.capture) := table_ext fun i => (get_ofFn ..).symm
    simp only [List.foldl_nil, List.not_mem_nil, if_false, ← lines, ← capture]
  | cons j rest ih =>
    rw [List.foldl_cons, ih, applyLine_eq]
    dsimp only
    congr 3
    all_goals
      funext i
      by_cases own : j = i
      · subst own
        simp [lineAfter]
      · simp [lineAfter, List.mem_cons, Ne.symm own, get_put_other _ _ own]

/-- The group B values other than the ports and the live level, taken. -/
def voicedTo (new x : Settings) : Settings :=
  { x with
    delay := new.delay
    writers := Vector.ofFn (fun w => withVoices (get x.writers w) (get new.writers w))
    lines := new.lines }

theorem applyVoices_eq (new : Settings) (s : State) : applyVoices new s =
    { s with settings := voicedTo new s.settings, capture := Vector.ofFn (lineAfter new s) } := by
  have every (i : LineNo) : i ∈ allLines := by revert i; decide
  have lines : new.lines = Vector.ofFn (get new.lines) := table_ext fun i => (get_ofFn ..).symm
  rw [applyVoices, foldl_applyLine]
  simp only [every, if_true, voicedTo, ← lines]
  rfl

/-! ### The ports of all writers (R157 step 3) -/

/-- t has of s what no part of an application from the ports on changes before its report. -/
structure PortsFrame (s t : State) : Prop extends OnAirFrame s t where
  capture : t.capture = s.capture
  settings : t.settings = { s.settings with writers := t.settings.writers, liveLevel := t.settings.liveLevel }

theorem PortsFrame.refl (s : State) : PortsFrame s s := ⟨.refl s, rfl, rfl⟩

theorem PortsFrame.trans {s t u : State} (h : PortsFrame s t) (g : PortsFrame t u) : PortsFrame s u where
  toOnAirFrame := h.toOnAirFrame.trans g.toOnAirFrame
  capture := g.capture.trans h.capture
  settings := by have e := g.settings; rw [h.settings] at e; exact e

theorem LeadFrame.portsFrame {s t : State} (h : LeadFrame s t) : PortsFrame s t :=
  ⟨h.toOnAirFrame, h.capture, by rw [h.settings]⟩

theorem OnAirFrame.running {s t : State} (h : OnAirFrame s t) : isRunning t = isRunning s := by
  rw [isRunning, h.control, isRunning]

/-- Writer w's port, estimate and settings are in t as in s. -/
structure KeepsWriter (w : Writer) (s t : State) : Prop where
  port : portOf t w = portOf s w
  est : get t.est w = get s.est w
  writer : writerOf t w = writerOf s w

theorem LeadFrame.keepsWriter {s t : State} (h : LeadFrame s t) (w : Writer) : KeepsWriter w s t :=
  ⟨by rw [portOf, h.ports, portOf], by rw [h.est], by rw [writerOf, h.settings, writerOf]⟩

theorem KeepsWriter.trans {w : Writer} {s t u : State} (h : KeepsWriter w s t) (g : KeepsWriter w t u) : KeepsWriter w s u :=
  ⟨g.port.trans h.port, g.est.trans h.est, g.writer.trans h.writer⟩

theorem portApplied_frame (new : Settings) (s : State) (w : Writer) : PortsFrame s (portApplied new s w) := by
  refine ⟨?_, rfl, rfl⟩
  constructor <;> first | rfl | exact .same rfl rfl

theorem portApplied_keepsWriter (new : Settings) (s : State) {w x : Writer} (other : w ≠ x) :
    KeepsWriter x s (portApplied new s w) := by
  refine ⟨get_put_other _ _ other, ?_, get_put_other _ _ other⟩
  show get (estAfter new s w) x = _
  unfold estAfter
  split
  · exact get_put_other _ _ other
  · rfl

theorem applyWriter_frame (new : Settings) (s : State) (w : Writer) : LeadFrame (portApplied new s w) (applyWriter new s w) :=
  (applyPort_frame new s w).trans (silentLeads_steady _).toLeadFrame

theorem foldl_applyWriter_frame (new : Settings) (l : List Writer) (s : State) :
    PortsFrame s (l.foldl (applyWriter new) s) := by
  induction l generalizing s with
  | nil => exact .refl s
  | cons w rest ih => exact ((portApplied_frame new s w).trans (applyWriter_frame new s w).portsFrame).trans (ih _)

theorem foldl_applyWriter_keeps (new : Settings) {w : Writer} {l : List Writer} (other : w ∉ l) (s : State) :
    KeepsWriter w s (l.foldl (applyWriter new) s) := by
  induction l generalizing s with
  | nil => exact ⟨rfl, rfl, rfl⟩
  | cons x rest ih =>
    rw [List.mem_cons, not_or] at other
    exact ((portApplied_keepsWriter new s (Ne.symm other.1)).trans ((applyWriter_frame new s x).keepsWriter w)).trans
      (ih other.2 _)

/-- Every writer has its place among all. -/
theorem allWriters_split (w : Writer) : ∃ front back, allWriters = front ++ w :: back ∧ front.Nodup ∧ back.Nodup ∧
    w ∉ front ∧ w ∉ back ∧ ∀ x ∈ front, x ∉ back := by
  have every : w ∈ allWriters := by revert w; decide
  obtain ⟨front, back, e⟩ := List.append_of_mem every
  have distinct : (front ++ w :: back).Nodup := e ▸ (by decide : allWriters.Nodup)
  obtain ⟨ahead, behind, apart⟩ := List.nodup_append.mp distinct
  obtain ⟨notBehind, back'⟩ := List.nodup_cons.mp behind
  exact ⟨front, back, e, ahead, back', fun listed => apart w listed w (List.mem_cons_self ..) rfl, notBehind,
    fun x inFront inBack => apart x inFront x (List.mem_cons_of_mem _ inBack) rfl⟩

/-- What the application made of writer w on the way from s to t. -/
structure WriterApplied (new : Settings) (w : Writer) (s t : State) : Prop where
  settings : writerOf t w = portSet new s w
  port : portOf t w = portAfter new s w
  est : get t.est w = get (estAfter new s w) w
  recorded : isRunning s = true → PortRecorded w (get new.writers w) (portOf s w) (portOf t w) t

theorem applyWriter_applied (new : Settings) (s : State) (w : Writer) : WriterApplied new w s (applyWriter new s w) := by
  obtain ⟨port, est, writer⟩ := (applyWriter_frame new s w).keepsWriter w
  have entered : portOf (applyWriter new s w) w = portAfter new s w := port.trans (get_put_same ..)
  refine ⟨writer.trans (get_put_same ..), entered, est, fun running => ?_⟩
  rw [entered]
  exact (applyPort_recorded running).mono (silentLeads_steady _).records

/-- What is made of a writer depends on no other writer. -/
theorem WriterApplied.of_before {new : Settings} {w : Writer} {s t u : State} (frame : PortsFrame s t)
    (keeps : KeepsWriter w s t) (h : WriterApplied new w t u) : WriterApplied new w s u := by
  have running := frame.running
  have set : portSet new t w = portSet new s w := by rw [portSet, keeps.writer, portSet]
  have port : portAfter new t w = portAfter new s w := by
    rw [portAfter, running, keeps.writer, keeps.port, frame.clock, portAfter]
  have seed : seeded t = seeded s := by
    have lmin : t.settings.lmin = s.settings.lmin := by rw [frame.settings]
    have lmax : t.settings.lmax = s.settings.lmax := by rw [frame.settings]
    have lseed : t.settings.lseed = s.settings.lseed := by rw [frame.settings]
    simp only [seeded, clampEstimate, lmaxBound, lmin, lmax, lseed]
  have est : get (estAfter new t w) w = get (estAfter new s w) w := by
    simp only [estAfter, running, keeps.port, seed]
    split
    · rw [get_put_same, get_put_same]
    · exact keeps.est
  exact ⟨h.settings.trans set, h.port.trans port, h.est.trans est, fun r => by
    rw [← keeps.port]
    exact h.recorded (running.trans r)⟩

theorem WriterApplied.of_after {new : Settings} {w : Writer} {s t u : State} (h : WriterApplied new w s t)
    (frame : PortsFrame t u) (keeps : KeepsWriter w t u) : WriterApplied new w s u :=
  ⟨keeps.writer.trans h.settings, keeps.port.trans h.port, keeps.est.trans h.est, fun r => by
    rw [keeps.port]
    exact (h.recorded r).mono frame.records⟩

/-- The state of an application after the ports of all writers. -/
def portsTaken (new : Settings) (s : State) : State := allWriters.foldl (applyWriter new) s

theorem portsTaken_applied (new : Settings) (s : State) (w : Writer) : WriterApplied new w s (portsTaken new s) := by
  obtain ⟨front, back, all, _, _, ahead, behind, _⟩ := allWriters_split w
  rw [portsTaken, all, List.foldl_append, List.foldl_cons]
  have now := (applyWriter_applied new _ w).of_before (foldl_applyWriter_frame new front s)
    (foldl_applyWriter_keeps new ahead s)
  exact now.of_after (foldl_applyWriter_frame ..) (foldl_applyWriter_keeps new behind _)

theorem portsTaken_frame (new : Settings) (s : State) : PortsFrame s (portsTaken new s) := foldl_applyWriter_frame ..

/-- A writer that is seeded is seeded within the bounds (R68, R69). -/
theorem portsTaken_within {new : Settings} {s : State} (h : EstimatesWithin s) : EstimatesWithin (portsTaken new s) := by
  intro w e set
  have lmin : (portsTaken new s).settings.lmin = s.settings.lmin := by rw [(portsTaken_frame new s).settings]
  have lmax : (portsTaken new s).settings.lmax = s.settings.lmax := by rw [(portsTaken_frame new s).settings]
  rw [(portsTaken_applied new s w).est, estAfter] at set
  rw [lmin, lmax]
  split at set
  · rw [get_put_same, seeded, Option.some_inj] at set
    exact set ▸ clampEstimate_within ..
  · exact h w e set

end Sys2Proof.Machine
end

