-- ==== Sys2Proof/Proofs/LeadAtApplication.lean ====
section
/-! The lead at a settings application (R84, R89 to R94): what a change of lead makes of the arbiter's record, what the disable
of a port does to it, and the forced lead. -/

namespace Sys2Proof.Machine

/-! ### Changes of lead (R89) -/

theorem joinTail_disp (r : Row) (s : State) : (joinTail r s).disp = s.disp := by
  unfold joinTail
  split
  · split
    · exact (overflowDrop_leaves ..).2.2
    · rfl
  · rfl

theorem closeRow_disp (w : Writer) (reason : CloseReason) (s : State) : (closeRow w reason s).1.disp = s.disp := by
  by_cases empty : (builderOf s w).chars = []
  · rw [closeRow_of_empty empty]
  · by_cases role : roleOf s w = .lead
    · rw [closeRow_of_lead empty role, feedAttempt_disp, joinTail_disp]
      rfl
    · rw [closeRow_of_other empty role]

/-- A change of lead that is made is on record, with attention LEAD, before the feed attempt and the silence test (R89). -/
theorem leadChange_noticed (r : Record) (s : State) :
    let t := silenceTest (feedAttempt (raise .lead (journal r s)))
    t.la = s.la ∧ flagSet .lead t = true ∧ Recorded t r ∧ t.disp = s.disp := by
  have kept := (feedAttempt_steady (raise .lead (journal r s))).trans (silenceTest_steady _)
  obtain ⟨b, e⟩ := silenceTest_eq (feedAttempt (raise .lead (journal r s)))
  refine ⟨?_, kept.records.flags _ (raise_set ..), ((journal_recorded r s).mono (raise_records ..)).mono kept.records, ?_⟩
  · rw [e]
    exact (feedAttempt_local _).la.trans (journal_local r s).la
  · rw [e]
    exact (feedAttempt_disp _).trans (journal_disp r s)

/-- A switch from a lead (R89). -/
theorem switchLead_switches {s : State} {outgoing : Writer} (lead : s.la.lead = some outgoing) (w : Writer)
    (reason : LeadReason) :
    let t := switchLead w reason s
    t.la = switched s.la outgoing w ∧ flagSet .lead t = true ∧
    Recorded t (.leadChange (some outgoing) (some w) reason (framesWaited s)) ∧ t.disp = s.disp := by
  let closed := (closeRow outgoing .handoff s).1
  have eq : switchLead w reason s = silenceTest (feedAttempt (raise .lead
      (journal (.leadChange (some outgoing) (some w) reason (framesWaited s))
        { closed with la := switched closed.la outgoing w }))) := by
    simp only [switchLead, lead]
    rfl
  obtain ⟨la, flag, record, disp⟩ := leadChange_noticed (.leadChange (some outgoing) (some w) reason (framesWaited s))
    { closed with la := switched closed.la outgoing w }
  rw [eq]
  refine ⟨la.trans ?_, flag, record, disp.trans (closeRow_disp ..)⟩
  exact congrArg (fun x => switched x outgoing w) (closeRow_leaves ..).1

theorem giveLead_gives (w : Writer) (reason : LeadReason) (s : State) :
    (giveLead w reason s).la = { s.la with lead := some w, roles := put s.la.roles w .lead } ∧
    flagSet .lead (giveLead w reason s) = true := by
  let u := raise .lead (journal (.leadChange none (some w) reason 0)
    { s with la := { s.la with lead := some w, roles := put s.la.roles w .lead } })
  have eq : giveLead w reason s = silenceTest (feedAttempt (leadAppeared u)) := rfl
  have loc := (leadAppeared_local u).trans (feedAttempt_local _)
  obtain ⟨b, e⟩ := silenceTest_eq (feedAttempt (leadAppeared u))
  rw [eq, e]
  exact ⟨loc.la.trans (journal_local ..).la, loc.records.flags _ (raise_set ..)⟩

theorem loseLead_loses (w : Writer) (reason : LeadReason) (s : State) :
    (loseLead w reason s).la.lead = none ∧ (loseLead w reason s).la.handoff = none ∧
    flagSet .lead (loseLead w reason s) = true := by
  let closed := (closeRow w .handoff s).1
  let u := raise .lead (journal (.leadChange (some w) none reason (framesWaited s)) { closed with la :=
    { lead := none, roles := put closed.la.roles w .standby, handoff := none, silenceReported := false } })
  have eq : loseLead w reason s = leadGone u := rfl
  have loc := leadGone_local u
  have la : u.la = _ := (journal_local ..).la
  rw [eq, loc.la, la]
  exact ⟨rfl, rfl, loc.records.flags _ (raise_set ..)⟩

/-! ### The steps that a silence test leaves, without a silence limit (R91) -/

theorem leadSilent_of_noLimit {s : State} (h : s.settings.silenceFrames = 0) : leadSilent s = false := by
  unfold leadSilent
  split
  · simp [h]
  · rfl

theorem silentLeads_of_noLimit {s : State} (h : s.settings.silenceFrames = 0) :
    silentLeads s = { s with work := { s.work with silence := false } } := by
  have now (t : State) (none : t.settings.silenceFrames = 0) :
      silentLeadNow t = { t with work := { t.work with silence := false } } := by
    unfold silentLeadNow
    cases mark : t.work.silence with
    | true => simp only [if_true, leadSilent_of_noLimit (s := { t with work := { t.work with silence := false } }) none]; rfl
    | false => rw [if_neg (by decide), ← mark]
  let u : State := { s with work := { s.work with silence := false } }
  have rest : silentLeadNow u = u := now u h
  rw [silentLeads, now s h]
  show silentLeadNow (silentLeadNow (silentLeadNow u)) = u
  rw [rest, rest, rest]

/-! ### The disable of a port (R45, R90, R94) -/

/-- A close is reported only where the writer is LEAD. -/
theorem closeRow_reports {w : Writer} {reason : CloseReason} {s : State} (h : (closeRow w reason s).2 = true) :
    roleOf s w = .lead := by
  by_cases empty : (builderOf s w).chars = []
  · simp [closeRow_of_empty empty] at h
  · by_contra role
    simp [closeRow_of_other empty role] at h

theorem reportPort_la (w : Writer) (left : PortMode) (cause : PortCause) (s : State) :
    (reportPort w left cause s).la = s.la := by
  have made := (journal_local (.writerState w left (portOf s w).mode cause (portOf s w).divisor) s).la
  unfold reportPort
  dsimp only
  split
  · exact made
  · exact made

theorem portDisabled_la (w : Writer) (s : State) : (portDisabled w s).1.la = s.la :=
  (reportPort_la ..).trans (closeRow_leaves w .handoff (onPort w (fun _ => stoppedPort) s)).1

theorem portDisabled_reports {w : Writer} {s : State} (h : (portDisabled w s).2 = true) : roleOf s w = .lead :=
  closeRow_reports (reason := .handoff) (s := onPort w (fun _ => stoppedPort) s) h

theorem withoutTaker_of_none {la : Arbiter} (h : la.handoff = none) (w : Writer) : withoutTaker w la = la := by
  simp only [withoutTaker, h]

theorem withoutTaker_of_other {la : Arbiter} {h : Handoff} {w : Writer} (handoff : la.handoff = some h)
    (other : h.taker ≠ w) : withoutTaker w la = la := by
  simp only [withoutTaker, handoff, if_neg other]

theorem withoutTaker_lead (w : Writer) (la : Arbiter) : (withoutTaker w la).lead = la.lead := by
  unfold withoutTaker
  repeat' split
  all_goals rfl

theorem withoutTaker_handoff (w : Writer) (la : Arbiter) :
    (withoutTaker w la).handoff = none ∨ (withoutTaker w la).handoff = la.handoff := by
  unfold withoutTaker
  repeat' split
  all_goals first | exact .inl rfl | exact .inr rfl

theorem leadDisabled_of_other {w : Writer} {s : State} (h : s.la.lead ≠ some w) : leadDisabled w s = s := if_neg h

theorem leadDisabled_of_handoff {w : Writer} {s : State} {h : Handoff} (lead : s.la.lead = some w)
    (handoff : s.la.handoff = some h) : leadDisabled w s = switchLead h.taker .disabled s := by
  simp only [leadDisabled, lead, if_true, handoff]

theorem leadDisabled_of_partner {w p : Writer} {s : State} (lead : s.la.lead = some w) (handoff : s.la.handoff = none)
    (partner : readyPartner w s = some p) : leadDisabled w s = switchLead p .disabled s := by
  simp only [leadDisabled, lead, if_true, handoff, partner]

theorem leadDisabled_of_alone {w : Writer} {s : State} (lead : s.la.lead = some w) (handoff : s.la.handoff = none)
    (partner : readyPartner w s = none) : leadDisabled w s = loseLead w .disabled s := by
  simp only [leadDisabled, lead, if_true, handoff, partner]

/-- The state in which the disable of writer w's port comes to its lead: a handoff that a reported close completes, or of which
w is the taker, has ended (R87, R90). -/
def leadAsked (w : Writer) (s : State) : State :=
  let s2 := completeHandoff (portDisabled w s).2 (portDisabled w s).1
  if (portOf s w).mode = .run then takerLeftRun w s2 else s2

theorem disablePort_asks (w : Writer) (s : State) : disablePort w s = leadDisabled w (leadAsked w s) := rfl

/-- With no handoff to complete or to end LA's record comes to that as it was. -/
theorem leadAsked_la {w : Writer} {s : State} (role : s.la.handoff ≠ none → roleOf s w ≠ .lead)
    (taker : ∀ h, s.la.handoff = some h → h.taker = w → (portOf s w).mode ≠ .run) : (leadAsked w s).la = s.la := by
  have la := portDisabled_la w s
  have completed : completeHandoff (portDisabled w s).2 (portDisabled w s).1 = (portDisabled w s).1 := by
    cases handoff : s.la.handoff with
    | none => exact completeHandoff_of_none (la ▸ handoff) _
    | some h =>
      cases reported : (portDisabled w s).2 with
      | false => exact completeHandoff_unreported _
      | true => exact absurd (portDisabled_reports reported) (role (by simp [handoff]))
  unfold leadAsked
  dsimp only
  rw [completed]
  split
  · rename_i run
    rw [takerLeftRun_eq]
    show withoutTaker w (portDisabled w s).1.la = _
    rw [la]
    cases handoff : s.la.handoff with
    | none => exact withoutTaker_of_none handoff w
    | some h => exact withoutTaker_of_other handoff fun own => taker h handoff own run
  · exact la

theorem leadAsked_steady (w : Writer) (s : State) :
    SteadyFrame { s with ports := put s.ports w stoppedPort } (leadAsked w s) := by
  have completed := (portDisabled_steady w s).trans (completeHandoff_steady (portDisabled w s).2 _)
  unfold leadAsked
  dsimp only
  split
  · exact completed.trans (takerLeftRun_steady ..)
  · exact completed

theorem portBecomes_la {w : Writer} {p : Port} {s : State}
    (taker : ∀ h, s.la.handoff = some h → h.taker = w → (portOf s w).mode = .run → p.mode = .run) (cause : PortCause) :
    (portBecomes w p cause s).la = s.la := by
  have reported := reportPort_la w (portOf s w).mode cause (onPort w (fun _ => p) s)
  unfold portBecomes
  dsimp only
  split
  · rename_i left
    rw [takerLeftRun_eq]
    show withoutTaker w (reportPort ..).la = _
    rw [reported]
    cases handoff : s.la.handoff with
    | none => exact withoutTaker_of_none handoff w
    | some h => exact withoutTaker_of_other handoff fun own => left.2 (taker h handoff own left.1)
  · exact reported

/-! ### The writers whose ports leave the lead alone (R87, R90, R94) -/

/-- The application of writer w's port has nothing to do with the lead: w is not disabled as lead, nor as the taker or while a
handoff waits for its close. -/
structure LeavesLead (new : Settings) (s : State) (w : Writer) : Prop where
  lead : s.la.lead = some w → (get new.writers w).enable = true
  role : s.la.handoff ≠ none → roleOf s w = .lead → (get new.writers w).enable = true
  taker : ∀ h, s.la.handoff = some h → h.taker = w → (portOf s w).mode = .run → (portAfter new s w).mode = .run

theorem LeavesLead.applyPort_la {new : Settings} {s : State} {w : Writer} (h : LeavesLead new s w) :
    (applyPort new s w).la = s.la := by
  cases running : isRunning s with
  | false => rw [applyPort_of_stopped running]; rfl
  | true =>
    by_cases off : (portOf s w).mode = .off
    · cases enabled : (get new.writers w).enable with
      | false => rw [applyPort_still fun _ => .inl ⟨off, enabled⟩]; rfl
      | true =>
        rw [applyPort_enables running off enabled, enablePort_portWritten]
        exact portBecomes_la (s := seedWriter (portWritten new s w) w)
          (fun _ _ _ run => by rw [show (portOf s w).mode = .run from run] at off; cases off) _
    · cases enabled : (get new.writers w).enable with
      | false =>
        have port : portAfter new s w = stoppedPort := by simp [portAfter, appliedPort, running, off, enabled]
        have asked : (leadAsked w (portWritten new s w)).la = s.la := by
          refine leadAsked_la (s := portWritten new s w) (fun some role => ?_) (fun t handoff own run => ?_)
          · have := h.role some role
            simp [enabled] at this
          · have := h.taker t handoff own run
            rw [port] at this
            cases this
        rw [applyPort_disables running off enabled, disablePort_asks, leadDisabled_of_other, asked]
        intro own
        rw [asked] at own
        have := h.lead own
        simp [enabled] at this
      | true =>
        cases same : samePortSettings (writerOf s w) (get new.writers w) with
        | true => rw [applyPort_still fun _ => .inr ⟨off, enabled, same⟩]; rfl
        | false =>
          have port : portAfter new s w = retunedPort (writerOf s w) (get new.writers w) (portOf s w) s.clock := by
            simp [portAfter, appliedPort, running, off, enabled, same]
          rw [applyPort_retunes running off enabled same, retunePort]
          split
          · rfl
          · exact portBecomes_la (s := portWritten new s w) (fun t handoff own run => port ▸ h.taker t handoff own run) _

theorem silenceFrames_applyPort (new : Settings) (s : State) (w : Writer) :
    (applyPort new s w).settings.silenceFrames = s.settings.silenceFrames := by
  rw [(applyPort_frame new s w).settings]
  rfl

theorem applyWriter_of_noLimit {s : State} (h : s.settings.silenceFrames = 0) (new : Settings) (w : Writer) :
    applyWriter new s w = { applyPort new s w with work := { (applyPort new s w).work with silence := false } } :=
  silentLeads_of_noLimit ((silenceFrames_applyPort new s w).trans h)

theorem LeavesLead.after {new : Settings} {s : State} {w x : Writer} (h : LeavesLead new s x) (other : w ≠ x)
    (la : (applyWriter new s w).la = s.la) : LeavesLead new (applyWriter new s w) x := by
  have frame := (portApplied_frame new s w).trans (applyWriter_frame new s w).portsFrame
  have keeps := (portApplied_keepsWriter new s other).trans ((applyWriter_frame new s w).keepsWriter x)
  have after : portAfter new (applyWriter new s w) x = portAfter new s x := by
    rw [portAfter, frame.running, keeps.writer, keeps.port, frame.clock, portAfter]
  refine ⟨by rw [la]; exact h.lead, by rw [roleOf, la]; exact h.role, fun t handoff own run => ?_⟩
  rw [la] at handoff
  rw [keeps.port] at run
  rw [after]
  exact h.taker t handoff own run

/-- Writers who leave the lead alone, one after another. -/
theorem foldl_applyWriter_la {new : Settings} {l : List Writer} {s : State} (limit : s.settings.silenceFrames = 0)
    (distinct : l.Nodup) (h : ∀ x ∈ l, LeavesLead new s x) : (l.foldl (applyWriter new) s).la = s.la := by
  induction l generalizing s with
  | nil => rfl
  | cons w rest ih =>
    obtain ⟨notLater, rest'⟩ := List.nodup_cons.mp distinct
    have la : (applyWriter new s w).la = s.la := by
      rw [applyWriter_of_noLimit limit]
      exact (h w (List.mem_cons_self ..)).applyPort_la
    have limit' : (applyWriter new s w).settings.silenceFrames = 0 := by
      rw [applyWriter_of_noLimit limit]
      exact (silenceFrames_applyPort new s w).trans limit
    rw [List.foldl_cons, ih limit' rest' fun x later => ?_, la]
    exact (h x (List.mem_cons_of_mem _ later)).after (fun own => notLater (own ▸ later)) la

/-! ### The lead is disabled (R94) -/

/-- LA's record names a lead, with no handoff left, and the change has set attention LEAD. -/
structure LeadIs (lead : Option Writer) (t : State) : Prop where
  lead : t.la.lead = lead
  handoff : t.la.handoff = none
  flag : flagSet .lead t = true

theorem LeadIs.of_la {lead : Option Writer} {s t : State} (h : LeadIs lead s) (la : t.la = s.la) (kept : RecordsKept s t) :
    LeadIs lead t :=
  ⟨la ▸ h.lead, la ▸ h.handoff, kept.flags _ h.flag⟩

theorem switchLead_is {s : State} {outgoing : Writer} (lead : s.la.lead = some outgoing) (w : Writer) (reason : LeadReason) :
    LeadIs (some w) (switchLead w reason s) := by
  obtain ⟨la, flag, _⟩ := switchLead_switches lead w reason
  exact ⟨by rw [la]; rfl, by rw [la]; rfl, flag⟩

/-- The lead's taker takes over, at the close of its buffer or at the disable (R87, R94). -/
theorem disablePort_toTaker {w : Writer} {s : State} {h : Handoff} (lead : s.la.lead = some w)
    (handoff : s.la.handoff = some h) (other : h.taker ≠ w) : LeadIs (some h.taker) (disablePort w s) := by
  have la := portDisabled_la w s
  rw [disablePort_asks]
  cases reported : (portDisabled w s).2 with
  | true =>
    have completed : LeadIs (some h.taker) (completeHandoff true (portDisabled w s).1) := by
      simp only [completeHandoff, la, handoff, if_true]
      exact switchLead_is (la ▸ lead) ..
    have asked : LeadIs (some h.taker) (leadAsked w s) := by
      unfold leadAsked
      rw [reported]
      dsimp only
      split
      · rw [takerLeftRun_eq, withoutTaker_of_none completed.handoff]
        exact completed
      · exact completed
    rw [leadDisabled_of_other (by rw [asked.lead]; simpa using other)]
    exact asked
  | false =>
    have asked : (leadAsked w s).la = s.la := by
      unfold leadAsked
      rw [reported, completeHandoff_unreported]
      dsimp only
      split
      · rw [takerLeftRun_eq]
        show withoutTaker w (portDisabled w s).1.la = _
        rw [la, withoutTaker_of_other handoff other]
      · exact la
    rw [leadDisabled_of_handoff (asked ▸ lead) (asked ▸ handoff)]
    exact switchLead_is (asked ▸ lead) ..

theorem readyPartner_of_ready {w p : Writer} {s : State} (partner : (writerOf s w).partner = some p)
    (run : (portOf s p).mode = .run) : readyPartner w s = some p := by
  simp only [readyPartner, partner, run, if_true]

theorem readyPartner_of_none {w : Writer} {s : State}
    (h : ∀ p, (writerOf s w).partner = some p → (portOf s p).mode ≠ .run) : readyPartner w s = none := by
  unfold readyPartner
  split
  · rename_i p partner
    exact if_neg (h p partner)
  · rfl

/-- With no handoff the relay partner in RUN takes over (R94). -/
theorem disablePort_toPartner {w p : Writer} {s : State} (lead : s.la.lead = some w) (handoff : s.la.handoff = none)
    (partner : (writerOf s w).partner = some p) (run : (portOf s p).mode = .run) (other : p ≠ w) :
    LeadIs (some p) (disablePort w s) := by
  have asked : (leadAsked w s).la = s.la := leadAsked_la (fun h => absurd handoff h) (by simp [handoff])
  have frame := leadAsked_steady w s
  have ready : readyPartner w (leadAsked w s) = some p := by
    refine readyPartner_of_ready ?_ ?_
    · rw [writerOf, frame.applied]
      exact partner
    · rw [portOf, frame.ports]
      exact (congrArg Port.mode (get_put_other _ _ (Ne.symm other))).trans run
  rw [disablePort_asks, leadDisabled_of_partner (asked ▸ lead) (asked ▸ handoff) ready]
  exact switchLead_is (asked ▸ lead) ..

/-- With neither the lead is lost (R94). -/
theorem disablePort_toNone {w : Writer} {s : State} (lead : s.la.lead = some w) (handoff : s.la.handoff = none)
    (alone : ∀ p, (writerOf s w).partner = some p → (portOf s p).mode ≠ .run) : LeadIs none (disablePort w s) := by
  have asked : (leadAsked w s).la = s.la := leadAsked_la (fun h => absurd handoff h) (by simp [handoff])
  have frame := leadAsked_steady w s
  have none : readyPartner w (leadAsked w s) = none := by
    refine readyPartner_of_none fun p partner => ?_
    rw [writerOf, frame.applied] at partner
    rw [portOf, frame.ports]
    by_cases own : w = p
    · subst own
      show (get (put s.ports w stoppedPort) w).mode ≠ _
      rw [get_put_same]
      decide
    · show (get (put s.ports w stoppedPort) p).mode ≠ _
      rw [get_put_other _ _ own]
      exact alone p partner
  obtain ⟨lost, left, flag⟩ := loseLead_loses w .disabled (leadAsked w s)
  rw [disablePort_asks, leadDisabled_of_alone (asked ▸ lead) (asked ▸ handoff) none]
  exact ⟨lost, left, flag⟩

/-! ### The ports of all writers, with the lead disabled -/

/-- A port that runs before and after the application is that of an enabled writer. -/
theorem enabled_of_runs {new : Settings} {s : State} {w : Writer} (before : (portOf s w).mode = .run)
    (after : (portAfter new s w).mode = .run) (running : isRunning s = true) : (get new.writers w).enable = true := by
  by_contra disabled
  have off := (appliedPort_applied (writerOf s w) (get new.writers w) s.clock (portOf s w)).disabled (by simp [before])
    (by simpa using disabled)
  rw [portAfter, if_pos running, off] at after
  cases after

/-- The lead w is disabled with a writer, or none, to take over: where the writers before w leave the lead alone, the disable
of w passes it on, and nothing takes it away again. -/
theorem portsTaken_passes {new : Settings} {s : State} {w : Writer} {front back : List Writer} {next : Option Writer}
    (all : allWriters = front ++ w :: back) (distinct : front.Nodup ∧ back.Nodup) (limit : s.settings.silenceFrames = 0)
    (before : ∀ x ∈ front, LeavesLead new s x)
    (passes : (front.foldl (applyWriter new) s).la = s.la → LeadIs next (applyPort new (front.foldl (applyWriter new) s) w))
    (after : ∀ x ∈ back, next = some x → (get new.writers x).enable = true) : LeadIs next (portsTaken new s) := by
  let u := front.foldl (applyWriter new) s
  have limit' : u.settings.silenceFrames = 0 := by
    rw [show u.settings = _ from (foldl_applyWriter_frame new front s).settings]
    exact limit
  have passed : LeadIs next (applyWriter new u w) := by
    rw [applyWriter_of_noLimit limit']
    have := passes (foldl_applyWriter_la limit distinct.1 before)
    exact ⟨this.lead, this.handoff, this.flag⟩
  have limit'' : (applyWriter new u w).settings.silenceFrames = 0 := by
    rw [applyWriter_of_noLimit limit']
    exact (silenceFrames_applyPort new u w).trans limit'
  have alone (x : Writer) (listed : x ∈ back) : LeavesLead new (applyWriter new u w) x :=
    ⟨fun own => after x listed (passed.lead.symm.trans own), fun some => absurd passed.handoff some,
      fun h handoff => by simp [passed.handoff] at handoff⟩
  rw [portsTaken, all, List.foldl_append, List.foldl_cons]
  exact passed.of_la (foldl_applyWriter_la limit'' distinct.2 alone) (foldl_applyWriter_frame ..).records

/-- While the application has come to the writers of one part of the list, a port outside it is as before, and one within it is
as it is in the end. -/
theorem foldl_front_port {new : Settings} {s : State} {w : Writer} {front back : List Writer}
    (all : allWriters = front ++ w :: back) (ahead : w ∉ front) (apart : ∀ x ∈ front, x ∉ back) (p : Writer) :
    portOf (front.foldl (applyWriter new) s) p = portOf s p ∨
    portOf (front.foldl (applyWriter new) s) p = portOf (portsTaken new s) p := by
  by_cases listed : p ∈ front
  · have later : p ∉ w :: back := by
      rw [List.mem_cons, not_or]
      exact ⟨fun own => ahead (own ▸ listed), apart p listed⟩
    right
    rw [portsTaken, all, List.foldl_append]
    exact (foldl_applyWriter_keeps new later _).port.symm
  · exact .inl (foldl_applyWriter_keeps new listed s).port

/-- What a disable of the lead needs of the state it finds. -/
theorem foldl_front_disables {new : Settings} {s : State} {w : Writer} {front : List Writer} (ahead : w ∉ front)
    (running : isRunning s = true) (on : (portOf s w).mode ≠ .off) (disabled : (get new.writers w).enable = false) :
    let u := front.foldl (applyWriter new) s
    applyPort new u w = disablePort w (portWritten new u w) := by
  have frame := foldl_applyWriter_frame new front s
  have keeps := foldl_applyWriter_keeps new ahead s
  exact applyPort_disables (frame.running.trans running) (by rwa [keeps.port]) disabled

theorem portsTaken_toTaker {new : Settings} {s : State} {w : Writer} {h : Handoff} (running : isRunning s = true)
    (limit : s.settings.silenceFrames = 0) (bonds : LeadBonds s.la) (lead : s.la.lead = some w)
    (on : (portOf s w).mode ≠ .off) (disabled : (get new.writers w).enable = false) (handoff : s.la.handoff = some h)
    (other : h.taker ≠ w) (run : (portOf s h.taker).mode = .run) (stays : (portOf (portsTaken new s) h.taker).mode = .run) :
    LeadIs (some h.taker) (portsTaken new s) := by
  obtain ⟨front, back, all, front', back', ahead, behind, apart⟩ := allWriters_split w
  rw [(portsTaken_applied new s h.taker).port] at stays
  refine portsTaken_passes all ⟨front', back'⟩ limit
    (fun x listed => ⟨fun own => ?_, fun _ role => ?_, fun t own taker _ => ?_⟩) (fun la => ?_) (fun x _ own => ?_)
  · rw [lead, Option.some_inj] at own
    exact absurd listed (own ▸ ahead)
  · have own := (bonds.lead x).mp role
    rw [lead, Option.some_inj] at own
    exact absurd listed (own ▸ ahead)
  · rw [handoff, Option.some_inj] at own
    rwa [← taker, ← own]
  · rw [foldl_front_disables ahead running on disabled]
    exact disablePort_toTaker (s := portWritten new _ w) (la ▸ lead) (la ▸ handoff) other
  · rw [Option.some_inj] at own
    exact own ▸ enabled_of_runs run stays running

theorem portsTaken_toPartner {new : Settings} {s : State} {w p : Writer} (running : isRunning s = true)
    (limit : s.settings.silenceFrames = 0) (lead : s.la.lead = some w) (on : (portOf s w).mode ≠ .off)
    (disabled : (get new.writers w).enable = false) (handoff : s.la.handoff = none)
    (partner : (writerOf s w).partner = some p) (run : (portOf s p).mode = .run)
    (stays : (portOf (portsTaken new s) p).mode = .run) : LeadIs (some p) (portsTaken new s) := by
  obtain ⟨front, back, all, front', back', ahead, behind, apart⟩ := allWriters_split w
  have after := stays
  rw [(portsTaken_applied new s p).port] at after
  have enabled := enabled_of_runs run after running
  have other : p ≠ w := by
    rintro rfl
    simp [disabled] at enabled
  refine portsTaken_passes all ⟨front', back'⟩ limit (fun x listed => ⟨fun own => ?_, fun some => absurd handoff some,
    fun t own => by simp [handoff] at own⟩) (fun la => ?_) (fun x _ own => ?_)
  · rw [lead, Option.some_inj] at own
    exact absurd listed (own ▸ ahead)
  · rw [foldl_front_disables ahead running on disabled]
    refine disablePort_toPartner (s := portWritten new _ w) (la ▸ lead) (la ▸ handoff) ?_ ?_ other
    · rw [writerOf_portWritten, portSet, (foldl_applyWriter_keeps new ahead s).writer]
      exact partner
    · show (portOf (front.foldl (applyWriter new) s) p).mode = _
      rcases foldl_front_port all ahead apart p with before | now
      · rw [before, run]
      · rw [now, stays]
  · rw [Option.some_inj] at own
    exact own ▸ enabled

theorem portsTaken_toNone {new : Settings} {s : State} {w : Writer} (running : isRunning s = true)
    (limit : s.settings.silenceFrames = 0) (lead : s.la.lead = some w) (on : (portOf s w).mode ≠ .off)
    (disabled : (get new.writers w).enable = false) (handoff : s.la.handoff = none)
    (alone : ∀ p, (writerOf s w).partner = some p →
      (portOf s p).mode ≠ .run ∧ (portOf (portsTaken new s) p).mode ≠ .run) : LeadIs none (portsTaken new s) := by
  obtain ⟨front, back, all, front', back', ahead, behind, apart⟩ := allWriters_split w
  refine portsTaken_passes all ⟨front', back'⟩ limit (fun x listed => ⟨fun own => ?_, fun some => absurd handoff some,
    fun t own => by simp [handoff] at own⟩) (fun la => ?_) (fun x _ own => by cases own)
  · rw [lead, Option.some_inj] at own
    exact absurd listed (own ▸ ahead)
  · rw [foldl_front_disables ahead running on disabled]
    refine disablePort_toNone (s := portWritten new _ w) (la ▸ lead) (la ▸ handoff) fun p partner => ?_
    rw [writerOf_portWritten, portSet, (foldl_applyWriter_keeps new ahead s).writer] at partner
    obtain ⟨was, is⟩ := alone p partner
    show (portOf (front.foldl (applyWriter new) s) p).mode ≠ _
    rcases foldl_front_port all ahead apart p with before | now
    · rw [before]
      exact was
    · rw [now]
      exact is

end Sys2Proof.Machine
end

