-- ==== Sys2Proof/Proofs/ForcedLead.lean ====
section
/-! The forced lead of a settings application (R93), and what the ports before it leave of the lead. -/

namespace Sys2Proof.Machine

/-- A handoff has a lead to pass on in t, and a lead other than the one given has come with attention LEAD. -/
structure LeadKnown (lead : Option Writer) (t : State) : Prop where
  given : t.la.handoff.isSome = true → t.la.lead.isSome = true
  told : t.la.lead = lead ∨ flagSet .lead t = true

namespace LeadKnown

variable {lead : Option Writer} {s t : State}

theorem of_leadIs {now : Option Writer} (h : LeadIs now t) : LeadKnown lead t :=
  ⟨fun some => by simp [h.handoff] at some, .inr h.flag⟩

/-- A step that keeps the lead, and at most ends the handoff. -/
theorem of_kept (h : LeadKnown lead s) (same : t.la.lead = s.la.lead)
    (handoff : t.la.handoff = none ∨ t.la.handoff = s.la.handoff) (kept : RecordsKept s t) : LeadKnown lead t := by
  refine ⟨fun some => ?_, h.told.imp same.trans (kept.flags _)⟩
  rw [same]
  rcases handoff with ended | waits
  · simp [ended] at some
  · exact h.given (waits ▸ some)

theorem of_la (h : LeadKnown lead s) (la : t.la = s.la) (kept : RecordsKept s t) : LeadKnown lead t :=
  h.of_kept (by rw [la]) (.inr (by rw [la])) kept

theorem takerLeftRun (h : LeadKnown lead s) (w : Writer) : LeadKnown lead (takerLeftRun w s) := by
  refine h.of_kept ?_ ?_ (takerLeftRun_steady w s).records
  · rw [takerLeftRun_eq]
    exact withoutTaker_lead ..
  · rw [takerLeftRun_eq]
    exact withoutTaker_handoff ..

theorem completeHandoff (h : LeadKnown lead s) (reported : Bool) : LeadKnown lead (completeHandoff reported s) := by
  unfold Machine.completeHandoff
  split
  · rename_i x handoff
    split
    · obtain ⟨w, present⟩ := Option.isSome_iff_exists.mp (h.given (by simp [handoff]))
      exact of_leadIs (switchLead_is present ..)
    · exact h
  · exact h

theorem leadDisabled (h : LeadKnown lead s) (w : Writer) : LeadKnown lead (leadDisabled w s) := by
  unfold Machine.leadDisabled
  split
  · rename_i own
    split
    · exact of_leadIs (switchLead_is own ..)
    · split
      · exact of_leadIs (switchLead_is own ..)
      · obtain ⟨lost, ended, flag⟩ := loseLead_loses w .disabled s
        exact of_leadIs ⟨lost, ended, flag⟩
  · exact h

theorem portBecomes (h : LeadKnown lead s) (w : Writer) (p : Port) (cause : PortCause) :
    LeadKnown lead (portBecomes w p cause s) := by
  have reported : LeadKnown lead (reportPort w (portOf s w).mode cause (onPort w (fun _ => p) s)) :=
    LeadKnown.of_la (s := onPort w (fun _ => p) s) (h.of_la rfl (.same rfl rfl)) (reportPort_la ..)
      (reportPort_steady ..).records
  unfold Machine.portBecomes
  dsimp only
  split
  · exact reported.takerLeftRun w
  · exact reported

theorem disablePort (h : LeadKnown lead s) (w : Writer) : LeadKnown lead (disablePort w s) := by
  have closed : LeadKnown lead (portDisabled w s).1 :=
    LeadKnown.of_la (s := { s with ports := put s.ports w stoppedPort }) (h.of_la rfl (.same rfl rfl)) (portDisabled_la w s)
      (portDisabled_steady w s).records
  rw [disablePort_asks]
  refine LeadKnown.leadDisabled ?_ w
  unfold leadAsked
  dsimp only
  split
  · exact (closed.completeHandoff _).takerLeftRun w
  · exact closed.completeHandoff _

theorem applyPort (h : LeadKnown lead s) (new : Settings) (w : Writer) : LeadKnown lead (applyPort new s w) := by
  have written : LeadKnown lead (portWritten new s w) := h.of_la rfl (.same rfl rfl)
  rw [applyPort_eq]
  dsimp only
  split
  · exact written
  · split
    · split
      · exact LeadKnown.portBecomes (s := seedWriter (portWritten new s w) w) (written.of_la rfl (.same rfl rfl)) ..
      · exact written
    · split
      · exact written.disablePort w
      · split
        · exact written
        · unfold retunePort
          dsimp only
          split
          · exact written.of_la rfl (.same rfl rfl)
          · exact written.portBecomes ..

theorem portsTaken (h : LeadKnown lead s) (limit : s.settings.silenceFrames = 0) (new : Settings) :
    LeadKnown lead (portsTaken new s) := by
  unfold Machine.portsTaken
  induction allWriters generalizing s with
  | nil => exact h
  | cons w rest ih =>
    have limit' := (silenceFrames_applyPort new s w).trans limit
    rw [List.foldl_cons, applyWriter_of_noLimit limit]
    exact ih ((h.applyPort new w).of_la rfl (.same rfl rfl)) limit'

end LeadKnown

/-- A forced lead whose port is not OFF has the lead, and no handoff is left (R93). -/
theorem forceLead_takes {f : Writer} {s : State} (on : (portOf s f).mode ≠ .off)
    (given : s.la.handoff.isSome = true → s.la.lead.isSome = true) :
    let r := forceLead f s
    r.2 = true ∧ r.1.la.lead = some f ∧ r.1.la.handoff = none ∧ (s.la.lead ≠ some f → flagSet .lead r.1 = true) := by
  have cancelled : (cancelHandoff s).la.handoff = none ∧ (cancelHandoff s).la.lead = s.la.lead := by
    unfold cancelHandoff
    split
    · exact ⟨rfl, rfl⟩
    · rename_i none
      exact ⟨none, rfl⟩
  have switch (u : State) (reason : LeadReason) (bound : u.la.handoff = none ∨ u.la.lead.isSome = true) :
      LeadIs (some f) (switchLead f reason u) := by
    cases lead : u.la.lead with
    | some w => exact switchLead_is lead ..
    | none =>
      obtain ⟨la, flag⟩ := giveLead_gives f reason u
      have ended : u.la.handoff = none := bound.resolve_right (by simp [lead])
      simp only [switchLead, lead]
      exact ⟨by rw [la], by rw [la]; exact ended, flag⟩
  unfold forceLead
  rw [if_neg on]
  split
  · rename_i own
    exact ⟨rfl, cancelled.2.trans own, cancelled.1, fun other => absurd own other⟩
  · split
    · rename_i h handoff
      split
      · have := switch s .forced (.inr (given (by simp [handoff])))
        exact ⟨rfl, this.lead, this.handoff, fun _ => this.flag⟩
      · have := switch (cancelHandoff s) .forced (.inl cancelled.1)
        exact ⟨rfl, this.lead, this.handoff, fun _ => this.flag⟩
    · rename_i none
      have := switch s .forced (.inl none)
      exact ⟨rfl, this.lead, this.handoff, fun _ => this.flag⟩

theorem forceLead_refused {f : Writer} {s : State} (off : (portOf s f).mode = .off) : forceLead f s = (s, false) :=
  if_pos off

theorem forceLead_taken {f : Writer} {s : State} (on : (portOf s f).mode ≠ .off) : (forceLead f s).2 = true := by
  unfold forceLead
  rw [if_neg on]
  repeat' split
  all_goals rfl

/-- Whether an application's forced lead is refused: it names a writer whose port is OFF (R93). -/
def forcedRefused (f : Option Writer) (s : State) : Bool :=
  match f with
  | some w => decide ((portOf s w).mode = .off)
  | none => false

theorem applyForced_of_none (s : State) : applyForced none s = (setForced none s, []) := rfl

theorem applyForced_of_off {w : Writer} {s : State} (off : (portOf s w).mode = .off) :
    applyForced (some w) s = (s, [forcedLeadOffset]) := by
  simp only [applyForced, forceLead_refused off]
  rfl

theorem applyForced_of_on {w : Writer} {s : State} (on : (portOf s w).mode ≠ .off) :
    applyForced (some w) s = (setForced (some w) (silentLeads (forceLead w s).1), []) := by
  simp only [applyForced, forceLead_taken on, if_true]

/-- The forced lead is the one field that its application leaves ignored, where it is refused (R93, R158). -/
theorem applyForced_ignores (f : Option Writer) (s : State) :
    (applyForced f s).2 = if forcedRefused f s then [forcedLeadOffset] else [] := by
  cases f with
  | none => rfl
  | some w =>
    by_cases off : (portOf s w).mode = .off
    · simp only [applyForced_of_off off, forcedRefused, off, decide_true, if_true]
    · simp only [applyForced_of_on off, forcedRefused, off, decide_false, Bool.false_eq_true, if_false]

theorem setForced_records (f : Option Writer) (s : State) : RecordsKept s (setForced f s) := .same rfl rfl

theorem SteadyFrame.setForced {s t : State} (h : SteadyFrame s t) (f : Option Writer) :
    SteadyFrame (setForced f s) (setForced f t) := by
  have settings : (Machine.setForced f t).settings = (Machine.setForced f s).settings :=
    congrArg (fun x : Settings => { x with forcedLead := f }) h.applied
  have records : RecordsKept (Machine.setForced f s) (Machine.setForced f t) :=
    ⟨h.records.buffer, h.records.full, h.records.flags⟩
  exact { h with settings := by rw [settings], applied := settings, records := records }

/-- A forced lead changes, besides itself, what a change of lead does. -/
theorem applyForced_frame (f : Option Writer) (s : State) : ∃ forced,
    SteadyFrame (setForced forced s) (applyForced f s).1 := by
  cases f with
  | none => exact ⟨none, .refl _⟩
  | some w =>
    by_cases off : (portOf s w).mode = .off
    · rw [applyForced_of_off off]
      exact ⟨s.settings.forcedLead, .refl s⟩
    · rw [applyForced_of_on off]
      exact ⟨some w, ((forceLead_steady w s).trans (silentLeads_steady _)).setForced _⟩

end Sys2Proof.Machine
end

