-- ==== Sys2Proof/Proofs/ApplicationSilence.lean ====
section
/-! The silence test of a settings application (R91, R92, R157 step 6): what a test reads, and what comes of a silent lead
while the ports stay as they are. -/

namespace Sys2Proof.Machine

/-! ### What a silence test reads (R70, R91, R92) -/

/-- Besides LA's record s has all that a silence test and a failover read as v has it. -/
structure HearsAs (v s : State) : Prop where
  tb : s.tb = v.tb
  clock : s.clock = v.clock
  ports : s.ports = v.ports
  capture : s.capture = v.capture
  lastOnset : s.lastOnset = v.lastOnset
  rate : s.settings.rateCode = v.settings.rateCode
  limit : s.settings.silenceFrames = v.settings.silenceFrames
  lines : s.settings.lines = v.settings.lines
  voice : ∀ w, (writerOf s w).voice = (writerOf v w).voice
  partner : ∀ w, (writerOf s w).partner = (writerOf v w).partner

namespace HearsAs

variable {v s t : State}

theorem port (h : HearsAs v s) (w : Writer) : portOf s w = portOf v w := by rw [portOf, h.ports, portOf]

theorem stampNow_eq (h : HearsAs v s) : stampNow s = stampNow v := by
  have tick : subTick s = subTick v := by
    rw [subTick, subTick, h.tb, h.clock, framePeriod, h.rate, framePeriod]
  rw [stampNow, h.tb, tick, stampNow]

theorem speechPresent_eq (h : HearsAs v s) (w : Writer) : speechPresent s w = speechPresent v w := by
  have recent (x : Fin 2) : recentOnset s x = recentOnset v x := by
    rw [recentOnset, recentOnset, h.lastOnset, h.stampNow_eq, h.limit]
  have active (i : LineNo) : lineActive s i = lineActive v i := by rw [lineActive, h.lines, h.capture, lineActive]
  simp only [speechPresent, h.voice, recent, active]

/-- The tests of two states that name the same lead agree. -/
theorem leadSilent_eq (h : HearsAs v s) (lead : s.la.lead = v.la.lead) : leadSilent s = leadSilent v := by
  rw [leadSilent, leadSilent, lead]
  cases v.la.lead with
  | none => rfl
  | some w =>
    dsimp only
    rw [h.limit, h.port, h.speechPresent_eq]

theorem readyPartner_eq (h : HearsAs v s) (w : Writer) : readyPartner w s = readyPartner w v := by
  simp only [readyPartner, h.partner, h.port]

theorem after (h : HearsAs v s) (frame : LeadFrame s t) : HearsAs v t where
  tb := frame.tb.trans h.tb
  clock := frame.clock.trans h.clock
  ports := frame.ports.trans h.ports
  capture := frame.capture.trans h.capture
  lastOnset := frame.lastOnset.trans h.lastOnset
  rate := by rw [frame.settings]; exact h.rate
  limit := by rw [frame.settings]; exact h.limit
  lines := by rw [frame.settings]; exact h.lines
  voice w := by rw [writerOf, frame.settings]; exact h.voice w
  partner w := by rw [writerOf, frame.settings]; exact h.partner w

end HearsAs

/-! ### What comes of a silent lead (R92) -/

/-- Q is an outcome of the silence tests of v: a lead that is found silent as in v comes to it, and it is not left again. -/
structure Outcome (v : State) (Q : State → Prop) : Prop where
  kept : ∀ {s t}, Q s → t.la = s.la → RecordsKept s t → Q t
  comes : ∀ {s}, HearsAs v s → s.la = v.la → leadSilent s = true → Q (failover s)
  stays : ∀ {s}, HearsAs v s → Q s → leadSilent s = true → Q (failover s)

/-- LA's record is that of v still, or the outcome has come. -/
def Toward (v : State) (Q : State → Prop) (s : State) : Prop := HearsAs v s ∧ (s.la = v.la ∨ Q s)

section
variable {v : State} {Q : State → Prop}

theorem Toward.after {s t : State} (h : Toward v Q s) (outcome : Outcome v Q) (la : t.la = s.la) (frame : LeadFrame s t) :
    Toward v Q t :=
  ⟨h.1.after frame, h.2.imp la.trans fun q => outcome.kept q la frame.records⟩

theorem silentLeadNow_unmarked {s : State} (h : s.work.silence = false) : silentLeadNow s = s := by
  rw [silentLeadNow, h]
  rfl

theorem silentLeadNow_marked {s : State} (h : s.work.silence = true) : silentLeadNow s =
    let u := { s with work := { s.work with silence := false } }
    if leadSilent u then failover u else u := by
  rw [silentLeadNow, h]
  rfl

theorem Outcome.silentLeadNow (outcome : Outcome v Q) {s : State} (hears : HearsAs v s) (q : Q s) : Q (silentLeadNow s) := by
  let u := { s with work := { s.work with silence := false } }
  have cleared : SteadyFrame s u := .working ..
  cases mark : s.work.silence with
  | false => rwa [silentLeadNow_unmarked mark]
  | true =>
    rw [silentLeadNow_marked mark]
    dsimp only
    split
    · rename_i silent
      exact outcome.stays (hears.after cleared.toLeadFrame) (outcome.kept q rfl cleared.records) silent
    · exact outcome.kept q rfl cleared.records

theorem Outcome.silentLeads (outcome : Outcome v Q) {s : State} (hears : HearsAs v s) (q : Q s) : Q (silentLeads s) := by
  have now {s : State} (h : HearsAs v s ∧ Q s) : HearsAs v (Machine.silentLeadNow s) ∧ Q (Machine.silentLeadNow s) :=
    ⟨h.1.after (silentLeadNow_steady s).toLeadFrame, outcome.silentLeadNow h.1 h.2⟩
  exact (now (now (now (now ⟨hears, q⟩)))).2

theorem Toward.silentLeadNow {s : State} (h : Toward v Q s) (outcome : Outcome v Q) : Toward v Q (silentLeadNow s) := by
  obtain ⟨hears, same | q⟩ := h
  · refine ⟨hears.after (silentLeadNow_steady s).toLeadFrame, ?_⟩
    let u := { s with work := { s.work with silence := false } }
    cases mark : s.work.silence with
    | false => rw [silentLeadNow_unmarked mark]; exact .inl same
    | true =>
      rw [silentLeadNow_marked mark]
      dsimp only
      split
      · rename_i silent
        exact .inr (outcome.comes (hears.after (SteadyFrame.working s _).toLeadFrame) same silent)
      · exact .inl same
  · exact ⟨hears.after (silentLeadNow_steady s).toLeadFrame, .inr (outcome.silentLeadNow hears q)⟩

theorem Toward.silentLeads {s : State} (h : Toward v Q s) (outcome : Outcome v Q) : Toward v Q (silentLeads s) :=
  (((h.silentLeadNow outcome).silentLeadNow outcome).silentLeadNow outcome).silentLeadNow outcome

theorem Toward.silenceOfApplication {s : State} (h : Toward v Q s) (outcome : Outcome v Q) :
    Toward v Q (silenceOfApplication s) := by
  unfold Machine.silenceOfApplication
  split
  · obtain ⟨b, e⟩ := silenceTest_eq s
    exact (h.after outcome (by rw [e]) (silenceTest_steady s).toLeadFrame).silentLeads outcome
  · exact h

/-- The test of an application brings a silent lead to the outcome, where it has not come already. -/
theorem Toward.comes {s : State} (h : Toward v Q s) (outcome : Outcome v Q) (silent : leadSilent v = true) :
    Q (Machine.silenceOfApplication s) := by
  obtain ⟨hears, same | q⟩ := h
  · have silent' : leadSilent s = true := (hears.leadSilent_eq (by rw [same])).trans silent
    have lead : s.la.lead.isSome = true := by
      cases lead : s.la.lead with
      | some w => rfl
      | none => simp [leadSilent, lead] at silent'
    let marked : State := { s with work := { s.work with silence := true } }
    have hears' : HearsAs v marked := hears.after (SteadyFrame.working s _).toLeadFrame
    have first : Q (Machine.silentLeadNow marked) := by
      rw [silentLeadNow_marked (s := marked) rfl, if_pos (by exact silent')]
      exact outcome.comes (hears'.after (SteadyFrame.working marked _).toLeadFrame) same silent'
    have now {s : State} (h : HearsAs v s ∧ Q s) : HearsAs v (Machine.silentLeadNow s) ∧ Q (Machine.silentLeadNow s) :=
      ⟨h.1.after (silentLeadNow_steady s).toLeadFrame, outcome.silentLeadNow h.1 h.2⟩
    rw [Machine.silenceOfApplication, if_pos lead, silenceTest, if_pos silent']
    exact (now (now (now ⟨hears'.after (silentLeadNow_steady marked).toLeadFrame, first⟩))).2
  · unfold Machine.silenceOfApplication
    split
    · obtain ⟨b, e⟩ := silenceTest_eq s
      have frame := silenceTest_steady s
      exact outcome.silentLeads (hears.after frame.toLeadFrame) (outcome.kept q (by rw [e]) frame.records)
    · exact q

end

/-! ### The outcomes (R92) -/

/-- A lead that is not silent stays. -/
theorem outcome_heard {v : State} (heard : leadSilent v = false) : Outcome v (fun t => t.la = v.la) := by
  have quiet {s : State} (hears : HearsAs v s) (same : s.la = v.la) : leadSilent s = false :=
    (hears.leadSilent_eq (by rw [same])).trans heard
  exact ⟨fun q la _ => la.trans q, fun hears same silent => by simp [quiet hears same] at silent,
    fun hears q silent => by simp [quiet hears q] at silent⟩

/-- t has passed the lead on from w to i, with the record. -/
structure FailedOver (v : State) (w i : Writer) (waited : Nat) (t : State) : Prop where
  la : t.la = switched v.la w i
  flag : flagSet .lead t = true
  record : Recorded t (.leadChange (some w) (some i) .failover waited)

/-- A lead that passes to a writer who has not been silent as long stays there. -/
theorem outcome_failover {v : State} {w i : Writer} {waited : Nat} (lead : v.la.lead = some w)
    (passes : ∀ s, HearsAs v s → s.la = v.la → failover s = switchLead i .failover s ∧ framesWaited s = waited)
    (short : (portOf v i).silence < v.settings.silenceFrames) : Outcome v (FailedOver v w i waited) := by
  refine ⟨fun q la kept => ⟨la.trans q.la, kept.flags _ q.flag, q.record.mono kept⟩, fun {s} hears same _ => ?_,
    fun {s} hears q silent => ?_⟩
  · obtain ⟨e, frames⟩ := passes s hears same
    obtain ⟨la, flag, record, _⟩ := switchLead_switches (s := s) (same ▸ lead) i .failover
    rw [e]
    exact ⟨by rw [la, same], flag, frames ▸ record⟩
  · have now : s.la.lead = some i := by rw [q.la]; rfl
    simp only [leadSilent, now, Bool.and_eq_true, decide_eq_true_eq, hears.port, hears.limit] at silent
    omega

/-- t has reported the silence of the lead w, once. -/
structure SilenceNoted (v : State) (w : Writer) (t : State) : Prop where
  la : t.la = { v.la with silenceReported := true }
  noted : v.la.silenceReported = false → flagSet .writer t = true ∧
    Recorded t (.writerState w (portOf v w).mode (portOf v w).mode .silent (portOf v w).divisor)

theorem reportSilence_again {w : Writer} {s : State} (h : s.la.silenceReported = true) : reportSilence w s = s := if_pos h

theorem failover_alone {s : State} {w : Writer} (lead : s.la.lead = some w) (handoff : s.la.handoff = none)
    (alone : readyPartner w s = none) : failover s = reportSilence w s := by
  simp only [failover, lead, handoff, alone]

theorem outcome_reported {v : State} {w : Writer} (lead : v.la.lead = some w) (handoff : v.la.handoff = none)
    (alone : readyPartner w v = none) : Outcome v (SilenceNoted v w) := by
  refine ⟨fun q la kept => ⟨la.trans q.la, fun first => (q.noted first).imp (kept.flags _) (·.mono kept)⟩,
    fun {s} hears same _ => ?_, fun {s} hears q _ => ?_⟩
  · rw [failover_alone (same ▸ lead) (same ▸ handoff) ((hears.readyPartner_eq w).trans alone)]
    cases reported : v.la.silenceReported with
    | true =>
      rw [reportSilence_again (same ▸ reported)]
      refine ⟨?_, fun first => by simp [reported] at first⟩
      rw [same, ← reported]
    | false =>
      let u := raise .writer { s with la := { s.la with silenceReported := true } }
      have e : reportSilence w s =
          journal (.writerState w (portOf s w).mode (portOf s w).mode .silent (portOf s w).divisor) u :=
        if_neg (by rw [same, reported]; decide)
      rw [e, hears.port]
      have made := journal_steady (.writerState w (portOf v w).mode (portOf v w).mode .silent (portOf v w).divisor) u
      exact ⟨((journal_local ..).la).trans (by rw [← same]; rfl),
        fun _ => ⟨made.records.flags _ (raise_set ..), journal_recorded ..⟩⟩
  · have la := q.la
    rw [failover_alone (w := w) (by rw [la]; exact lead) (by rw [la]; exact handoff) ((hears.readyPartner_eq w).trans alone),
      reportSilence_again (by rw [la])]
    exact q

/-! ### The test of the application (R91, R92, R157 step 6) -/

/-- Where every outcome of v's silence tests is come to or still to come, the test of the application judges the silence of
v. -/
theorem silenceJudged_of {v u t : State} (toward : ∀ {Q : State → Prop}, Outcome v Q → Toward v Q u)
    (la : t.la = (silenceOfApplication u).la) (kept : RecordsKept (silenceOfApplication u) t) : SilenceJudged v t := by
  have comes {Q : State → Prop} (outcome : Outcome v Q) (silent : Silent v) : Q t :=
    outcome.kept ((toward outcome).comes outcome ((leadSilent_iff v).mpr silent)) la kept
  refine ⟨fun heard => ?_, fun w h silent lead handoff short => ?_, fun w p silent lead handoff partner run short => ?_,
    fun w silent lead handoff alone => ?_⟩
  · have outcome := outcome_heard (v := v) (by rwa [← Bool.not_eq_true, leadSilent_iff])
    exact la.trans (((toward outcome).silenceOfApplication outcome).2.elim id id)
  · have outcome : Outcome v (FailedOver v w h.taker h.waited) := by
      refine outcome_failover lead (fun s _ same => ?_) short
      simp only [failover, framesWaited, same, lead, handoff]
      exact ⟨trivial, rfl⟩
    obtain ⟨passed, flag, record⟩ := comes outcome silent
    exact ⟨passed, flag, record⟩
  · have outcome : Outcome v (FailedOver v w p 0) := by
      refine outcome_failover lead (fun s hears same => ?_) short
      have ready : readyPartner w s = some p := by
        rw [hears.readyPartner_eq]
        exact readyPartner_of_ready partner run
      simp only [failover, framesWaited, same, lead, handoff, ready]
      exact ⟨trivial, rfl⟩
    obtain ⟨passed, flag, record⟩ := comes outcome silent
    exact ⟨passed, flag, record⟩
  · obtain ⟨reported, noted⟩ := comes (outcome_reported lead handoff (readyPartner_of_none alone)) silent
    exact ⟨reported, noted⟩

end Sys2Proof.Machine
end

