-- ==== Sys2Proof/Proofs/LiveLevelApplied.lean ====
section
/-! A settings application that moves no port (R17, R18): what the ports leave as it was, and the live level that is taken or
held pending (R123, R124, R128). -/

namespace Sys2Proof.Machine

/-! ### Ports that do not move -/

/-- The application moves no port of writer w. -/
structure StillPort (new : Settings) (s : State) (w : Writer) : Prop where
  enabled : (get new.writers w).enable = true ↔ (portOf s w).mode ≠ .off
  same : samePortSettings (writerOf s w) (get new.writers w) = true

theorem StillPort.applyPort_eq {new : Settings} {s : State} {w : Writer} (h : StillPort new s w) :
    applyPort new s w = portWritten new s w := by
  refine applyPort_still fun _ => ?_
  by_cases off : (portOf s w).mode = .off
  · exact .inl ⟨off, by simpa [off] using h.enabled⟩
  · exact .inr ⟨off, h.enabled.mpr off, h.same⟩

theorem StillPort.after {new : Settings} {s : State} {w x : Writer} (h : StillPort new s x) :
    StillPort new (silentLeads (portWritten new s w)) x := by
  have frame := silentLeads_steady (portWritten new s w)
  refine ⟨by rw [portOf, frame.ports]; exact h.enabled, ?_⟩
  rw [writerOf, frame.applied]
  show samePortSettings (get (put s.settings.writers w (portSet new s w)) x) _ = true
  by_cases own : w = x
  · subst own
    rw [get_put_same, samePortSettings_iff]
    exact ⟨rfl, rfl, rfl⟩
  · rw [get_put_other _ _ own]
    exact h.same

/-- What the port settings and the silence tests keep holds after the ports of all writers where none moves. -/
theorem portsTaken_of_still {P : State → Prop} {new : Settings} {s : State}
    (written : ∀ s w, P s → P (portWritten new s w)) (tested : ∀ s, P s → P (silentLeads s))
    (still : ∀ w, StillPort new s w) (h : P s) : P (portsTaken new s) := by
  unfold portsTaken
  induction allWriters generalizing s with
  | nil => exact h
  | cons w rest ih =>
    have e : applyWriter new s w = silentLeads (portWritten new s w) := by rw [applyWriter, (still w).applyPort_eq]
    rw [List.foldl_cons, e]
    exact ih (fun x => (still x).after) (tested _ (written _ _ h))

/-! ### The display during the silence tests -/

theorem failover_disp (s : State) : (failover s).disp = s.disp := by
  unfold failover
  split
  · rename_i w lead
    split
    · exact (switchLead_switches lead ..).2.2.2
    · split
      · exact (switchLead_switches lead ..).2.2.2
      · unfold reportSilence
        split
        · rfl
        · exact journal_disp ..
  · rfl

theorem silentLeadNow_disp (s : State) : (silentLeadNow s).disp = s.disp := by
  unfold silentLeadNow
  split
  · dsimp only
    split
    · exact failover_disp _
    · rfl
  · rfl

theorem silentLeads_disp (s : State) : (silentLeads s).disp = s.disp := by
  simp only [silentLeads, silentLeadNow_disp]

theorem silenceOfApplication_disp (s : State) : (silenceOfApplication s).disp = s.disp := by
  unfold silenceOfApplication
  split
  · obtain ⟨b, e⟩ := silenceTest_eq s
    rw [silentLeads_disp, e]
  · rfl

/-! ### The live level (R123, R124) -/

/-- s with the live level taken and no level pending. -/
def levelled (v : Nat) (s : State) : State :=
  { s with settings := { s.settings with liveLevel := v }, disp := { s.disp with pendingLevel := none } }

theorem applyLiveLevel_same {v : Nat} {s : State} (h : v = s.settings.liveLevel) : applyLiveLevel v s = s := if_pos h

theorem applyLiveLevel_pends {v : Nat} {s : State} (other : v ≠ s.settings.liveLevel) (high : 2 ≤ s.disp.stack.length) :
    applyLiveLevel v s = { s with disp := { s.disp with pendingLevel := some v } } := by
  rw [applyLiveLevel, if_neg other, if_neg (by omega)]

theorem applyLiveLevel_takes {v : Nat} {s : State} (other : v ≠ s.settings.liveLevel) (low : s.disp.stack.length ≤ 1) :
    applyLiveLevel v s = (dueTest (insertionTest (levelled v s)).1).1 := by
  rw [applyLiveLevel, if_neg other, if_pos low]
  rfl

theorem insertionTest_of_settled {s : State} (h : s.disp.place ≠ .waiting) : insertionTest s = (s, false) := by
  rw [insertionTest, if_neg fun both => h both.1]

theorem insertionTest_of_misfit {s : State} (h : liveFits s = false) : insertionTest s = (s, false) := by
  rw [insertionTest, if_neg fun both => by simp [h] at both]

/-- A waiting live entry that fits is put at the bottom of the stack (R123). -/
theorem insertionTest_disp {s : State} (waits : s.disp.place = .waiting) (fits : liveFits s = true) (due : s.disp.due = []) :
    (insertionTest s).1.disp = { s.disp with stack := .live :: s.disp.stack, place := .inStack } := by
  rw [insertionTest, if_pos ⟨waits, fits⟩]
  dsimp only
  split
  · rw [dueTest_of_noneDue (by rw [feedAttempt_disp]; exact due), feedAttempt_disp]
  · rfl

theorem applyLiveLevel_settled {v : Nat} {s : State} (other : v ≠ s.settings.liveLevel) (low : s.disp.stack.length ≤ 1)
    (placed : s.disp.place ≠ .waiting) : applyLiveLevel v s = (dueTest (levelled v s)).1 := by
  rw [applyLiveLevel_takes other low, insertionTest_of_settled (s := levelled v s) placed]

/-- With no cue due the due-list test behind the insertion does nothing. -/
theorem applyLiveLevel_disp {v : Nat} {s : State} (other : v ≠ s.settings.liveLevel) (low : s.disp.stack.length ≤ 1)
    (due : s.disp.due = []) : (applyLiveLevel v s).disp = (insertionTest (levelled v s)).1.disp := by
  have still : (insertionTest (levelled v s)).1.disp.due = [] := by
    by_cases waits : s.disp.place = .waiting
    · cases fits : liveFits (levelled v s) with
      | true => rw [insertionTest_disp (s := levelled v s) waits fits due]; exact due
      | false => rw [insertionTest_of_misfit fits]; exact due
    · rw [insertionTest_of_settled (s := levelled v s) waits]
      exact due
  rw [applyLiveLevel_takes other low, dueTest_of_noneDue still]

theorem applyLiveLevel_taken {v : Nat} {s : State} (other : v ≠ s.settings.liveLevel) (low : s.disp.stack.length ≤ 1) :
    (applyLiveLevel v s).settings.liveLevel = v ∧ (applyLiveLevel v s).disp.pendingLevel = none := by
  have calm := (insertionTest_calm (levelled v s)).trans (dueTest_calm _)
  rw [applyLiveLevel_takes other low]
  exact ⟨by rw [calm.settings]; rfl, by rw [calm.level]; rfl⟩

theorem liveFits_of_empty {s : State} (h : s.disp.stack = []) : liveFits s = true := by simp [liveFits, h]

theorem liveFits_of_one {s : State} {k : CtxNo} {x : Context} {c : Cue} (stack : s.disp.stack = [.ctx k])
    (ctx : ctxOf s k = some x) (cue : cueOf s x.slot = some c) : liveFits s = decide (s.settings.liveLevel < c.level) := by
  simp [liveFits, stack, levelOf, cueOfCtx, ctx, cue]

/-! ### What the test of the due list reads and leaves -/

/-- The test of the due list reads and leaves no more of the states than these. -/
theorem DueTested.between {s t s' t' : State} {n : SlotNo} {rest : List SlotNo} {c : Cue} (h : DueTested s t n rest c)
    (level : Option Nat) (before : s' = { s with
      est := s'.est, capture := s'.capture, work := s'.work
      settings := { s.settings with forcedLead := s'.settings.forcedLead }
      disp := { s.disp with pendingLevel := level } })
    (disp : t'.disp = t.disp) (air : t'.air = t.air) (queue : t'.queue = t.queue) (marks : t'.pe.marks = t.pe.marks)
    (kept : RecordsKept t t') : DueTested s' t' n rest c := by
  have cue (m : SlotNo) : cueOf t' m = cueOf t m := by rw [cueOf, disp, cueOf]
  have ctx (k : CtxNo) : ctxOf t' k = ctxOf t k := by rw [ctxOf, disp, ctxOf]
  have accepted {k : CtxNo} (a : Accepted s t n rest c k) : Accepted s' t' n rest c k := by
    rw [before]
    refine ⟨by rw [disp]; exact a.due, by rw [disp]; exact a.stack, by rw [cue]; exact a.running, a.record.mono kept, ?_⟩
    rw [ctx, air]
    exact a.context
  have accepted' {k : CtxNo} (a : Accepted s t n rest c k) := before ▸ accepted a
  rw [before]
  refine ⟨fun held => ?_, fun k free lower empty above => ?_, fun k free lower top above => ?_,
    fun k j x below free lower top under held running above => ?_⟩
  · rw [disp, air, cue]
    exact h.stays held
  · rw [air, queue]
    exact (h.overNothing k free lower empty above).imp_left accepted'
  · rw [air, queue]
    exact (h.overLive k free lower top above).imp_left accepted'
  · rw [air, queue, cue, marks, ctx]
    exact (h.overCue k j x below free lower top under held running above).imp_left accepted'

/-! ### What becomes of the level -/

/-- The display after a level is applied, in the cases of R123 and R124, where t has it of a state p that has a's. -/
theorem levelTaken_of {a p t : State} {level : Nat} (disp : p.disp = a.disp)
    (before : p.settings.liveLevel = a.settings.liveLevel) (after : t.disp = (applyLiveLevel level p).disp)
    (taken : t.settings.liveLevel = (applyLiveLevel level p).settings.liveLevel)
    (tested : level ≠ a.settings.liveLevel → a.disp.stack.length ≤ 1 → a.disp.place ≠ .waiting →
      t.settings.silenceFrames = 0 → ∀ n rest c, a.disp.due = n :: rest → cueOf a n = some c →
      DueTested { a with settings := t.settings } t n rest c) : LevelTaken a t level := by
  have levelled_disp : (levelled level p).disp = { a.disp with pendingLevel := none } := by rw [levelled, disp]
  refine ⟨fun same => ?_, fun other high => ?_, fun other low => ?_, fun other low placed due => ?_, tested,
    fun other waits due => ⟨fun empty => ?_, fun k x c stack ctx cue => ⟨fun below => ?_, fun above => ?_⟩⟩⟩
  · rw [after, taken, applyLiveLevel_same (same.trans before.symm)]
    exact ⟨before.trans same.symm, disp⟩
  all_goals rw [← before] at other
  · rw [after, taken, applyLiveLevel_pends other (disp ▸ high)]
    exact ⟨before, by rw [disp]⟩
  · rw [after, taken]
    exact applyLiveLevel_taken other (disp ▸ low)
  · rw [after, applyLiveLevel_disp other (disp ▸ low) (disp ▸ due),
      insertionTest_of_settled (by rw [levelled_disp]; exact placed), levelled_disp]
  · have fits := liveFits_of_empty (s := levelled level p) (by rw [levelled_disp]; exact empty)
    rw [after, applyLiveLevel_disp other (by rw [disp, empty]; exact Nat.zero_le _) (disp ▸ due),
      insertionTest_disp (by rw [levelled_disp]; exact waits) fits (by rw [levelled_disp]; exact due), levelled_disp]
    dsimp only
    rw [empty]
  all_goals
    have fits := liveFits_of_one (s := levelled level p) (by rw [levelled_disp]; exact stack)
      (by rw [ctxOf, levelled_disp]; exact ctx) (by rw [cueOf, levelled_disp]; exact cue)
    rw [after, applyLiveLevel_disp other (by rw [disp, stack]; exact le_refl _) (disp ▸ due)]
  · rw [insertionTest_disp (by rw [levelled_disp]; exact waits) (fits.trans (decide_eq_true below))
      (by rw [levelled_disp]; exact due), levelled_disp]
    dsimp only
    rw [stack]
  · rw [insertionTest_of_misfit (fits.trans (decide_eq_false (Nat.not_lt.mpr above))), levelled_disp]

/-- The test of the due list behind a level that is applied. -/
theorem levelled_tested {p : State} {level : Nat} {n : SlotNo} {rest : List SlotNo} {c : Cue}
    (other : level ≠ p.settings.liveLevel) (low : p.disp.stack.length ≤ 1) (placed : p.disp.place ≠ .waiting)
    (due : p.disp.due = n :: rest) (cue : cueOf p n = some c) :
    DueTested (levelled level p) (applyLiveLevel level p) n rest c := by
  rw [applyLiveLevel_settled other low placed]
  exact dueTested_of (s := levelled level p) due cue (fun e => by rw [e]; exact ⟨rfl, rfl⟩) (fun k e => by rw [e])

end Sys2Proof.Machine
end

