-- ==== Sys2Proof/Proofs/ApplicationReport.lean ====
section
/-! The end of a settings application (R158, R159): its report, and the step of the scan that follows it (R155, R162, R164). -/

namespace Sys2Proof.Machine

/-! ### The report (R159) -/

/-- The state with the generation and the counts of a report. -/
def counted (generation : Word32) (clamped ignored : List Nat) (s : State) : State :=
  { s with pe := { s.pe with
    lastGeneration := generation
    clampCount := s.pe.clampCount + BitVec.ofNat 32 clamped.length
    ignoreCount := s.pe.ignoreCount + BitVec.ofNat 32 ignored.length } }

/-- The state with attention SETTINGS where a field is ignored. -/
def ignoredRaised (generation : Word32) (clamped ignored : List Nat) (s : State) : State :=
  if ignored.isEmpty then counted generation clamped ignored s else raise .settings (counted generation clamped ignored s)

theorem reportSettings_eq (generation : Word32) (clamped ignored : List Nat) (s : State) :
    reportSettings generation clamped ignored s =
      if clamped.isEmpty && ignored.isEmpty then ignoredRaised generation clamped ignored s
      else journal (.settings generation clamped.length ignored.length clamped.head? ignored.head?)
        (ignoredRaised generation clamped ignored s) := rfl

/-- What a report leaves of a state: all but the flags, and of PE's record what it says. -/
theorem reportSettings_leaves (generation : Word32) (clamped ignored : List Nat) (s : State) : ∃ attn buffer lost,
    reportSettings generation clamped ignored s = { s with
      control := { s.control with attn := attn }
      pe := { (counted generation clamped ignored s).pe with buffer := buffer, lost := lost } } := by
  have raised : ∃ attn, ignoredRaised generation clamped ignored s =
      { counted generation clamped ignored s with control := { s.control with attn := attn } } := by
    unfold ignoredRaised
    split
    · exact ⟨_, rfl⟩
    · exact ⟨_, rfl⟩
  obtain ⟨attn, e⟩ := raised
  rw [reportSettings_eq, e]
  split
  · exact ⟨_, _, _, rfl⟩
  · unfold journal
    split
    · exact ⟨_, _, _, rfl⟩
    · exact ⟨_, _, _, rfl⟩

theorem ignoredRaised_records (generation : Word32) (clamped ignored : List Nat) (s : State) :
    RecordsKept s (ignoredRaised generation clamped ignored s) := by
  have counts : RecordsKept s (counted generation clamped ignored s) := .same rfl rfl
  unfold ignoredRaised
  split
  · exact counts
  · exact counts.trans (raise_records ..)

theorem reportSettings_records (generation : Word32) (clamped ignored : List Nat) (s : State) :
    RecordsKept s (reportSettings generation clamped ignored s) := by
  have raised := ignoredRaised_records generation clamped ignored s
  rw [reportSettings_eq]
  split
  · exact raised
  · exact raised.trans (journal_records ..)

theorem ignoredRaised_attention (generation : Word32) (clamped ignored : List Nat) (s : State) :
    flagSet .settings (ignoredRaised generation clamped ignored s) =
      (flagSet .settings s || decide (ignored ≠ [])) := by
  unfold ignoredRaised
  cases ignored with
  | nil => exact (Bool.or_false _).symm
  | cons off rest =>
    rw [if_neg (by simp), raise_set]
    simp

/-- A record that is made is the last one in the buffer, or is lost with the buffer full (R165). -/
theorem journal_last (r : Record) (s : State) :
    (journal r s).pe.buffer.getLast? = some { frame := s.tb.frame, record := r } ∨
      (32 ≤ (journal r s).pe.buffer.length ∧ flagSet .journalLost (journal r s) = true) := by
  rcases journal_cases r s with ⟨_, e⟩ | ⟨full, e⟩
  · exact .inl (by rw [e]; simp)
  · exact .inr (by rw [e]; exact ⟨full, raise_set ..⟩)

theorem reportSettings_reports (generation : Word32) (clamped ignored : List Nat) (s : State) :
    SettingsReported s (reportSettings generation clamped ignored s) generation clamped ignored := by
  obtain ⟨attn, buffer, lost, e⟩ := reportSettings_leaves generation clamped ignored s
  refine ⟨by rw [e]; rfl, by rw [e]; rfl, ?_, fun some => ?_⟩
  · rw [reportSettings_eq]
    split
    · exact ignoredRaised_attention ..
    · rw [(journal_calm ..).unreported]
      exact ignoredRaised_attention ..
  · have frame : (ignoredRaised generation clamped ignored s).tb.frame = s.tb.frame := by
      unfold ignoredRaised
      split <;> rfl
    have made := journal_last (.settings generation clamped.length ignored.length clamped.head? ignored.head?)
      (ignoredRaised generation clamped ignored s)
    rw [frame] at made
    rw [reportSettings_eq, if_neg (by rcases some with h | h <;> simp [h])]
    exact made

/-! ### The step that follows (R155, R162, R164) -/

theorem isTerminal_iff (st : CueState) :
    isTerminal st = true ↔ st = .done ∨ st = .aborted ∨ st = .refused ∨ st = .expired := by
  cases st <;> simp [isTerminal]

theorem slotReady_iff (s : State) (n : SlotNo) : slotReady s n = true ↔ ∃ c, SlotReady s n c := by
  have none (entries : List Entry) : entries.any (isCueEntry n) = false ↔ ∀ e ∈ entries, isCueEntry n e = false := by
    simp
  constructor
  · intro ready
    unfold slotReady at ready
    cases held : cueOf s n with
    | none => simp [held] at ready
    | some c =>
      simp only [held, Bool.and_eq_true, Bool.not_eq_true', Bool.and_eq_false_iff] at ready
      obtain ⟨marked, shown⟩ := ready
      refine ⟨c, marked, held, fun terminal => (none _).mp (shown.resolve_left ?_)⟩
      rw [(isTerminal_iff _).mpr terminal]
      decide
  · rintro ⟨c, marked, held, shown⟩
    unfold slotReady
    simp only [held, marked, Bool.true_and, Bool.not_eq_true', Bool.and_eq_false_iff]
    cases terminal : isTerminal c.state with
    | false => exact .inl rfl
    | true => exact .inr ((none _).mpr (shown ((isTerminal_iff _).mp terminal)))

/-- The first slot to be written is found (R155, R162). -/
theorem find_slotReady {s : State} {first : Nat} {n : SlotNo} {c : Cue} (reached : first ≤ n.val) (ready : SlotReady s n c)
    (least : ∀ j x, first ≤ j.val → j < n → ¬SlotReady s j x) :
    allSlots.find? (fun n => decide (first ≤ n.val) && slotReady s n) = some n := by
  have listed : n.val < allSlots.length := by simp [allSlots]
  refine List.find?_eq_some_iff_getElem.mpr ⟨?_, n.val, listed, ?_, fun j before => ?_⟩
  · simp [reached, (slotReady_iff s n).mpr ⟨c, ready⟩]
  · simp [allSlots]
  · rw [Bool.not_eq_true', Bool.and_eq_false_iff, decide_eq_false_iff_not]
    by_cases early : first ≤ (allSlots[j]'(before.trans listed)).val
    · right
      rw [← Bool.not_eq_true, slotReady_iff]
      rintro ⟨x, other⟩
      refine least _ x early ?_ other
      simpa [allSlots, Fin.lt_def] using before
    · exact .inl early

theorem startSlots_of_ready {s : State} {first : Nat} {n : SlotNo} {cue : Cue} (flush : Bool) (g c : Word32)
    (found : allSlots.find? (fun n => decide (first ≤ n.val) && slotReady s n) = some n) (held : cueOf s n = some cue) :
    startSlots first flush g c s = issue flush (.slot n (slotWrite n cue) (isTerminal cue.state) false) g c s := by
  simp only [startSlots, found, held]

theorem startSlots_of_none {s : State} {first : Nat} (flush : Bool) (g c : Word32)
    (found : allSlots.find? (fun n => decide (first ≤ n.val) && slotReady s n) = none) :
    startSlots first flush g c s = startStatus flush g c s := by
  simp only [startSlots, found]

/-- An operation in flight is not among what a slot to be written is judged by. -/
theorem slotReady_withOp {op : Option PageOp} {s : State} {n : SlotNo} {c : Cue} (h : SlotReady (withOp op s) n c) :
    SlotReady s n c := ⟨h.marked, h.held, h.shown⟩

theorem startSlots_op (first : Nat) (flush : Bool) (g c : Word32) (s : State) :
    ∃ op, startSlots first flush g c s = withOp op s := by
  unfold startSlots
  repeat' split
  all_goals exact ⟨_, rfl⟩

/-- The write that is issued is that of the first slot to be written, else that of the header and the status block. -/
theorem startSlots_issues (first : Nat) (flush : Bool) (g c : Word32) (s : State) :
    WriteIssued first flush g c (startSlots first flush g c s) := by
  obtain ⟨op, e⟩ := startSlots_op first flush g c s
  refine ⟨fun n cue reached ready least => ?_, fun none => ?_⟩
  · rw [e] at ready least
    have found := find_slotReady reached (slotReady_withOp ready)
      fun j x early before other => least j x early before ⟨other.marked, other.held, other.shown⟩
    rw [startSlots_of_ready flush g c found ready.held]
    exact ⟨isTerminal cue.state, rfl, isTerminal_iff _⟩
  · rw [e] at none
    have found : allSlots.find? (fun n => decide (first ≤ n.val) && slotReady s n) = Option.none := by
      rw [List.find?_eq_none]
      intro n _ both
      rw [Bool.and_eq_true, decide_eq_true_eq, slotReady_iff] at both
      obtain ⟨reached, x, ready⟩ := both
      exact none n x reached ⟨ready.marked, ready.held, ready.shown⟩
    rw [startSlots_of_none flush g c found]
    rfl

theorem startCueTable_reads {g c : Word32} {s : State}
    (h : c ≠ s.pe.lastCueChange ∨ s.pe.runStart = true ∨ s.pe.recovery = true) :
    startCueTable g c s = issue false .cueTable g c s := if_pos h

theorem startCueTable_writes {g c : Word32} {s : State}
    (h : ¬(c ≠ s.pe.lastCueChange ∨ s.pe.runStart = true ∨ s.pe.recovery = true)) :
    startCueTable g c s = startSlots 0 false g c s := if_neg h

theorem startCueTable_op (g c : Word32) (s : State) : ∃ op, startCueTable g c s = withOp op s := by
  unfold startCueTable
  split
  · exact ⟨_, rfl⟩
  · exact startSlots_op ..

end Sys2Proof.Machine
end

