-- ==== Sys2Proof/Proofs/SettingsApplication.lean ====
section
/-! A settings application in RUNNING (R91 to R94, R124, R157 to R159), assembled: its groups, the ports, the lead, the live
level, the silence test, the report, and the step of the scan that follows. -/

namespace Sys2Proof.Machine

/-! ### The stages of an application -/

/-- The state with the values of groups B and C taken, the forced lead aside (R157 steps 1 to 4). -/
def groupsTaken (new : Settings) (a : State) : State :=
  if a.control.freeze then applyTuning new a else applyOnAir new (applyTuning new a)

/-- The state as the report of the application finds it (R157 steps 1 to 6). -/
def leadTaken (new : Settings) (a : State) : State :=
  silenceOfApplication (applyForced new.forcedLead (groupsTaken new a)).1

/-- The offsets that the application reports as ignored. -/
def ignoredOf (block : List Byte) (a : State) : List Nat :=
  let new := parseSettings block
  ignoredFields a.control.freeze a.settings new block (forcedRefused new.forcedLead (groupsTaken new a))

theorem applyRunning_eq (g : Word32) (block : List Byte) (a : State) : applyRunning g block a =
    reportSettings g (clampedFields block) (ignoredOf block a) (leadTaken (parseSettings block) a) := by
  have forced := applyForced_ignores (parseSettings block).forcedLead (groupsTaken (parseSettings block) a)
  rw [ignoredOf, ignoredFields, ← forced]
  rfl

/-- The values of group B before the ports (R157 step 2). -/
def voicesTaken (new : Settings) (a : State) : State := applyVoices new (applyTuning new a)

theorem groupsTaken_frozen {a : State} (freeze : a.control.freeze = true) (new : Settings) :
    groupsTaken new a = applyTuning new a := if_pos freeze

theorem groupsTaken_onAir {a : State} (freeze : a.control.freeze = false) (new : Settings) :
    groupsTaken new a = applyLiveLevel new.liveLevel (portsTaken new (voicesTaken new a)) :=
  if_neg (by rw [freeze]; decide)

theorem voicesTaken_eq (new : Settings) (a : State) : voicesTaken new a = { a with
    settings := voicedTo new (tunedTo new a.settings)
    est := (applyTuning new a).est
    capture := Vector.ofFn (lineAfter new a) } := by
  rw [voicesTaken, applyVoices_eq]
  rfl

/-- An update of the settings, the estimates and the filters is within the frame. -/
theorem onAirFrame_values (s : State) (settings : Settings) (est : Vector Estimator 4) (capture : Vector Capture 6) :
    OnAirFrame s { s with settings := settings, est := est, capture := capture } := by
  constructor <;> first | rfl | exact .same rfl rfl

theorem voicesTaken_frame (new : Settings) (a : State) : OnAirFrame a (voicesTaken new a) := by
  rw [voicesTaken_eq]
  exact onAirFrame_values ..

theorem levelTaken_frame (new : Settings) (s : State) : LeadFrame s (applyLiveLevel new.liveLevel s) :=
  (applyLiveLevel_local ..).onAir (applyLiveLevel_unreported ..)

theorem groupsTaken_frame (new : Settings) (a : State) : OnAirFrame a (groupsTaken new a) := by
  cases freeze : a.control.freeze with
  | true =>
    rw [groupsTaken_frozen freeze]
    exact onAirFrame_values a (tunedTo new a.settings) (applyTuning new a).est a.capture
  | false =>
    rw [groupsTaken_onAir freeze]
    exact ((voicesTaken_frame new a).trans (portsTaken_frame ..).toOnAirFrame).trans (levelTaken_frame ..).toOnAirFrame

/-- The forced lead and the silence test change, besides the forced lead itself, what a change of lead does. -/
theorem leadTaken_frame (new : Settings) (a : State) : ∃ forced,
    SteadyFrame (setForced forced (groupsTaken new a)) (leadTaken new a) := by
  obtain ⟨forced, frame⟩ := applyForced_frame new.forcedLead (groupsTaken new a)
  exact ⟨forced, frame.trans (silenceOfApplication_steady _)⟩

theorem leadTaken_onAir (new : Settings) (a : State) : OnAirFrame a (leadTaken new a) := by
  obtain ⟨forced, frame⟩ := leadTaken_frame new a
  have set : OnAirFrame (groupsTaken new a) (setForced forced (groupsTaken new a)) :=
    onAirFrame_values _ _ (groupsTaken new a).est (groupsTaken new a).capture
  exact ((groupsTaken_frame new a).trans set).trans frame.toOnAirFrame

/-! ### The report and the next step -/

/-- t is q but for the flags and for what the report and the next step change of PE's record. -/
structure Concluded (q t : State) : Prop where
  same : t = { q with control := { q.control with attn := t.control.attn }, pe := t.pe }
  base : t.pe.base = q.pe.base
  marks : t.pe.marks = q.pe.marks
  records : RecordsKept q t

theorem concluded (g c : Word32) (clamped ignored : List Nat) (q : State) :
    Concluded q (startCueTable g c (reportSettings g clamped ignored q)) := by
  obtain ⟨op, issued⟩ := startCueTable_op g c (reportSettings g clamped ignored q)
  obtain ⟨attn, buffer, lost, reported⟩ := reportSettings_leaves g clamped ignored q
  have records := reportSettings_records g clamped ignored q
  rw [issued]
  refine ⟨by rw [reported]; rfl, by rw [reported]; rfl, by rw [reported]; rfl, ?_⟩
  exact records.trans (.same rfl rfl)

namespace Concluded

variable {q t : State}

theorem settings (h : Concluded q t) : t.settings = q.settings := by rw [h.same]
theorem ports (h : Concluded q t) : t.ports = q.ports := by rw [h.same]
theorem est (h : Concluded q t) : t.est = q.est := by rw [h.same]
theorem capture (h : Concluded q t) : t.capture = q.capture := by rw [h.same]
theorem la (h : Concluded q t) : t.la = q.la := by rw [h.same]
theorem disp (h : Concluded q t) : t.disp = q.disp := by rw [h.same]
theorem air (h : Concluded q t) : t.air = q.air := by rw [h.same]
theorem queue (h : Concluded q t) : t.queue = q.queue := by rw [h.same]

theorem kept (h : Concluded q t) : t.tb = q.tb ∧ t.mem = q.mem ∧ t.pe.base = q.pe.base ∧ t.pending = q.pending ∧
    t.out = q.out := by
  refine ⟨?_, ?_, h.base, ?_, ?_⟩ <;> rw [h.same]

end Concluded

/-! ### The groups (R158) -/

theorem EstimatesWithin.of_same {s t : State} (h : EstimatesWithin s) (est : t.est = s.est)
    (lmin : t.settings.lmin = s.settings.lmin) (lmax : t.settings.lmax = s.settings.lmax) : EstimatesWithin t := by
  intro w e set
  rw [est] at set
  rw [lmin, lmax]
  exact h w e set

theorem leadTaken_settings (new : Settings) (a : State) : ∃ forced,
    (leadTaken new a).settings = { (groupsTaken new a).settings with forcedLead := forced } := by
  obtain ⟨forced, frame⟩ := leadTaken_frame new a
  exact ⟨forced, frame.applied⟩

/-- After the ports every writer has its new settings. -/
theorem portsTaken_writers (new : Settings) (a : State) :
    (portsTaken new (voicesTaken new a)).settings.writers = new.writers := by
  refine table_ext fun w => ?_
  have applied := (portsTaken_applied new (voicesTaken new a) w).settings
  have voiced : writerOf (voicesTaken new a) w = withVoices (writerOf a w) (get new.writers w) := by
    rw [voicesTaken_eq]
    exact get_ofFn ..
  rw [portSet, voiced] at applied
  exact applied

theorem groupsTaken_settings (new : Settings) (a : State) : ∃ level,
    (groupsTaken new a).settings =
      if a.control.freeze then tunedTo new a.settings
      else { tunedTo new a.settings with
        delay := new.delay, writers := new.writers, lines := new.lines, liveLevel := level } := by
  cases freeze : a.control.freeze with
  | true => exact ⟨0, by rw [groupsTaken_frozen freeze]; rfl⟩
  | false =>
    refine ⟨(groupsTaken new a).settings.liveLevel, ?_⟩
    rw [groupsTaken_onAir freeze, (levelTaken_frame ..).settings, (portsTaken_frame ..).settings, portsTaken_writers,
      voicesTaken_eq]
    rfl

theorem leadTaken_within (new : Settings) (a : State) : EstimatesWithin (leadTaken new a) := by
  have within : EstimatesWithin (groupsTaken new a) := by
    cases freeze : a.control.freeze with
    | true =>
      rw [groupsTaken_frozen freeze]
      exact applyTuning_within new a
    | false =>
      have voiced : EstimatesWithin (voicesTaken new a) := by
        rw [voicesTaken_eq]
        exact applyTuning_within new a
      have frame := levelTaken_frame new (portsTaken new (voicesTaken new a))
      rw [groupsTaken_onAir freeze]
      exact (portsTaken_within voiced).of_same frame.est (by rw [frame.settings]) (by rw [frame.settings])
  obtain ⟨forced, frame⟩ := leadTaken_frame new a
  obtain ⟨forced', settings⟩ := leadTaken_settings new a
  exact within.of_same (frame.est.trans (setForced_est ..)) (by rw [settings]) (by rw [settings])

theorem leadTaken_capture (new : Settings) (a : State) : (leadTaken new a).capture =
    if a.control.freeze then a.capture else Vector.ofFn (lineAfter new a) := by
  obtain ⟨forced, frame⟩ := leadTaken_frame new a
  rw [frame.capture, setForced_capture]
  cases freeze : a.control.freeze with
  | true =>
    rw [groupsTaken_frozen freeze]
    rfl
  | false =>
    rw [groupsTaken_onAir freeze, (levelTaken_frame ..).capture, (portsTaken_frame ..).capture, voicesTaken_eq]
    rfl

/-! ### The ports (R17, R18, R68) -/

theorem voicesTaken_port (new : Settings) (a : State) (w : Writer) : portOf (voicesTaken new a) w = portOf a w := by
  rw [voicesTaken_eq]
  rfl

theorem voicesTaken_writer (new : Settings) (a : State) (w : Writer) :
    writerOf (voicesTaken new a) w = withVoices (writerOf a w) (get new.writers w) := by
  rw [voicesTaken_eq]
  exact get_ofFn ..

theorem voicesTaken_la (new : Settings) (a : State) : (voicesTaken new a).la = a.la := by rw [voicesTaken_eq]

theorem voicesTaken_limit (new : Settings) (a : State) :
    (voicesTaken new a).settings.silenceFrames = new.silenceFrames := by
  rw [voicesTaken_eq]
  rfl

/-- What follows the ports leaves the ports, the estimates and the records. -/
theorem leadTaken_afterPorts {a : State} (freeze : a.control.freeze = false) (new : Settings) :
    let p := portsTaken new (voicesTaken new a)
    (leadTaken new a).ports = p.ports ∧ (leadTaken new a).est = p.est ∧ RecordsKept p (leadTaken new a) := by
  obtain ⟨forced, frame⟩ := leadTaken_frame new a
  have level := levelTaken_frame new (portsTaken new (voicesTaken new a))
  rw [← groupsTaken_onAir freeze] at level
  have ports := frame.ports
  have est := frame.est
  rw [setForced_ports] at ports
  rw [setForced_est] at est
  exact ⟨ports.trans level.ports, est.trans level.est, (level.records.trans (setForced_records ..)).trans frame.records⟩

/-- The application's effect on the port of writer w, from the state it finds. -/
theorem portAfter_voicesTaken {a : State} (running : isRunning a = true) (new : Settings) (w : Writer) :
    portAfter new (voicesTaken new a) w = appliedPort (writerOf a w) (get new.writers w) a.clock (portOf a w) := by
  have frame := voicesTaken_frame new a
  rw [portAfter, if_pos (frame.running.trans running), voicesTaken_writer, voicesTaken_port, frame.clock]
  rfl

theorem leadTaken_ports {a t : State} (freeze : a.control.freeze = false) (running : isRunning a = true) (new : Settings)
    (ends : Concluded (leadTaken new a) t) (w : Writer) :
    PortApplied (writerOf a w) (get new.writers w) a.clock (portOf a w) (portOf t w) ∧
    PortRecorded w (get new.writers w) (portOf a w) (portOf t w) t ∧
    ((portOf a w).mode = .off → (get new.writers w).enable = true → get t.est w =
      { estimate := some (clampTo (16 * new.lmin) (16 * max new.lmin new.lmax) (16 * new.lseed)), rejects := 0 }) := by
  obtain ⟨ports, est, records⟩ := leadTaken_afterPorts freeze new
  obtain ⟨_, port, estimate, recorded⟩ := portsTaken_applied new (voicesTaken new a) w
  have runs := (voicesTaken_frame new a).running.trans running
  have now : portOf t w = portOf (portsTaken new (voicesTaken new a)) w := by rw [portOf, ends.ports, ports, portOf]
  refine ⟨?_, ?_, fun off enabled => ?_⟩
  · rw [now, port, portAfter_voicesTaken running]
    exact appliedPort_applied ..
  · rw [now, ← voicesTaken_port new a w]
    exact ((recorded runs).mono records).mono ends.records
  · rw [ends.est, est, estimate, estAfter, voicesTaken_port, if_pos ⟨runs, off, enabled⟩, get_put_same, voicesTaken_eq]
    rfl

/-! ### The lead (R93, R94) -/

theorem silenceOfApplication_of_noLimit {s : State} (h : s.settings.silenceFrames = 0) :
    silenceOfApplication s = { s with work := (silenceOfApplication s).work } := by
  unfold silenceOfApplication
  split
  · rw [silenceTest, leadSilent_of_noLimit h, if_neg (by decide), silentLeads_of_noLimit h]
  · rfl

theorem groupsTaken_limit (new : Settings) (a : State) : (groupsTaken new a).settings.silenceFrames = new.silenceFrames := by
  obtain ⟨level, e⟩ := groupsTaken_settings new a
  rw [e]
  split <;> rfl

/-- With no silence limit the silence test of the application has nothing to do with the lead. -/
theorem silenceOfApplication_la {s : State} (h : s.settings.silenceFrames = 0) : (silenceOfApplication s).la = s.la := by
  rw [silenceOfApplication_of_noLimit h]

/-- A forced lead whose port is not OFF has the lead after the application (R93). -/
theorem applyForced_takes {lead : Option Writer} {f : Writer} {s : State} (known : LeadKnown lead s)
    (limit : s.settings.silenceFrames = 0) (on : (portOf s f).mode ≠ .off) :
    let q := silenceOfApplication (applyForced (some f) s).1
    q.la.lead = some f ∧ q.la.handoff = none ∧ q.settings.forcedLead = some f ∧
    (lead ≠ some f → flagSet .lead q = true) := by
  let r := (forceLead f s).1
  have frame := forceLead_steady f s
  obtain ⟨_, now, ended, told⟩ := forceLead_takes on known.given
  have quiet : r.settings.silenceFrames = 0 := by rw [frame.applied]; exact limit
  have quiet' : (setForced (some f) (silentLeads r)).settings.silenceFrames = 0 := by
    rw [silentLeads_of_noLimit quiet]
    exact quiet
  have after := silenceOfApplication_steady (setForced (some f) (silentLeads r))
  have la : (silenceOfApplication (setForced (some f) (silentLeads r))).la = r.la := by
    rw [silenceOfApplication_la quiet', setForced_la, silentLeads_of_noLimit quiet]
  have records := ((silentLeads_steady r).records.trans (setForced_records (some f) _)).trans after.records
  rw [applyForced_of_on on]
  refine ⟨by rw [la]; exact now, by rw [la]; exact ended, by rw [after.applied]; rfl, fun other => records.flags _ ?_⟩
  rcases known.told with same | flag
  · exact told (by rwa [same])
  · exact frame.records.flags _ flag

theorem applyForced_refuses {f : Writer} {s : State} (off : (portOf s f).mode = .off) :
    (silenceOfApplication (applyForced (some f) s).1).settings = s.settings := by
  rw [applyForced_of_off off, (silenceOfApplication_steady s).applied]

/-- The lead follows the ports of an application from v on, where v has the lead and the ports of a, and t those of the end. -/
theorem leadApplied_unforced {a v t : State} {new : Settings} (running : isRunning v = true)
    (limit : v.settings.silenceFrames = 0) (bonds : LeadBonds a.la) (la : v.la = a.la)
    (port : ∀ w, portOf v w = portOf a w) (partner : ∀ w, (writerOf v w).partner = (get new.writers w).partner)
    (now : ∀ w, portOf t w = portOf (portsTaken new v) w)
    (passed : ∀ {next}, LeadIs next (portsTaken new v) → t.la.lead = next ∧ flagSet .lead t = true)
    (unforced : new.forcedLead = none) : LeadApplied a t new := by
  refine ⟨fun f forced => by simp [unforced] at forced, fun f forced => by simp [unforced] at forced,
    fun w h _ lead on disabled handoff other run stays => passed ?_,
    fun w p _ lead on disabled handoff relay run stays => passed ?_,
    fun w _ lead on disabled handoff alone => passed ?_⟩
  all_goals
    rw [← la] at lead handoff
    rw [← port] at on
  · rw [← la] at bonds
    rw [← port] at run
    rw [now] at stays
    exact portsTaken_toTaker running limit bonds lead on disabled handoff other run stays
  · rw [← port] at run
    rw [now] at stays
    exact portsTaken_toPartner running limit lead on disabled handoff ((partner w).trans relay) run stays
  · refine portsTaken_toNone running limit lead on disabled handoff fun p relay => ?_
    rw [port, ← now]
    exact alone p ((partner w).symm.trans relay)

theorem groupsTaken_ports {a : State} (freeze : a.control.freeze = false) (new : Settings) :
    (groupsTaken new a).ports = (portsTaken new (voicesTaken new a)).ports := by
  rw [groupsTaken_onAir freeze, (levelTaken_frame ..).ports]

theorem groupsTaken_la {a : State} (freeze : a.control.freeze = false) (new : Settings) :
    (groupsTaken new a).la = (portsTaken new (voicesTaken new a)).la := by
  rw [groupsTaken_onAir freeze, (applyLiveLevel_local ..).la]

/-- The lead at the end of the groups is known from that before the application. -/
theorem groupsTaken_known {a : State} {new : Settings} (freeze : a.control.freeze = false) (bonds : LeadBonds a.la)
    (limit : new.silenceFrames = 0) : LeadKnown a.la.lead (groupsTaken new a) := by
  have voiced : LeadKnown a.la.lead (voicesTaken new a) :=
    ⟨by rw [voicesTaken_la]; exact bonds.given, .inl (by rw [voicesTaken_la])⟩
  have taken := voiced.portsTaken ((voicesTaken_limit new a).trans limit) new
  refine taken.of_la (groupsTaken_la freeze new) ?_
  rw [groupsTaken_onAir freeze]
  exact (levelTaken_frame ..).records

theorem leadTaken_applied {a t : State} {new : Settings} (freeze : a.control.freeze = false) (running : isRunning a = true)
    (bonds : LeadBonds a.la) (limit : new.silenceFrames = 0) (ends : Concluded (leadTaken new a) t) : LeadApplied a t new := by
  obtain ⟨ports, _, records⟩ := leadTaken_afterPorts freeze new
  have quiet := (groupsTaken_limit new a).trans limit
  have now (w : Writer) : portOf t w = portOf (groupsTaken new a) w := by
    rw [portOf, ends.ports, ports, ← groupsTaken_ports freeze, portOf]
  cases forced : new.forcedLead with
  | none =>
    refine leadApplied_unforced ((voicesTaken_frame new a).running.trans running) ((voicesTaken_limit new a).trans limit) bonds
      (voicesTaken_la new a) (voicesTaken_port new a) (fun w => by rw [voicesTaken_writer]; rfl)
      (fun w => by rw [now, portOf, groupsTaken_ports freeze, portOf]) (fun passed => ?_) forced
    have la : (leadTaken new a).la = (portsTaken new (voicesTaken new a)).la := by
      rw [leadTaken, forced, applyForced_of_none]
      exact (silenceOfApplication_la (s := setForced none (groupsTaken new a)) quiet).trans (groupsTaken_la freeze new)
    rw [ends.la, la]
    exact ⟨passed.lead, (records.trans ends.records).flags _ passed.flag⟩
  | some w =>
    have ended : leadTaken new a = silenceOfApplication (applyForced (some w) (groupsTaken new a)).1 := by
      rw [leadTaken, forced]
    refine ⟨fun f same on => ?_, fun f same off => ?_, fun _ _ none => ?_, fun _ _ none => ?_, fun _ none => ?_⟩
    · obtain rfl : w = f := by rwa [forced, Option.some_inj] at same
      rw [now] at on
      obtain ⟨lead, handoff, set, told⟩ := applyForced_takes (groupsTaken_known freeze bonds limit) quiet on
      rw [← ended] at lead handoff set told
      rw [ends.la, ends.settings]
      exact ⟨lead, handoff, set, fun other => ends.records.flags _ (told other)⟩
    · obtain rfl : w = f := by rwa [forced, Option.some_inj] at same
      rw [now] at off
      obtain ⟨level, settings⟩ := groupsTaken_settings new a
      rw [ends.settings, ended, applyForced_refuses off, settings, freeze]
      rfl
    all_goals simp [forced] at none

/-! ### An application that moves no port: the live level (R123, R124) -/

theorem voicesTaken_still {a : State} {new : Settings} (h : MovesNoPort a new) (w : Writer) :
    StillPort new (voicesTaken new a) w := by
  obtain ⟨auto, divisor, parity⟩ := h.same w
  refine ⟨by rw [voicesTaken_port]; exact h.enabled w, ?_⟩
  rw [voicesTaken_writer, samePortSettings_iff]
  exact ⟨auto.symm, divisor.symm, parity.symm⟩

/-- Ports that do not move leave the display and the live level. -/
theorem portsTaken_display {a : State} {new : Settings} (h : MovesNoPort a new) :
    let p := portsTaken new (voicesTaken new a)
    p.disp = a.disp ∧ p.settings.liveLevel = a.settings.liveLevel := by
  refine portsTaken_of_still (P := fun s => s.disp = a.disp ∧ s.settings.liveLevel = a.settings.liveLevel)
    (fun _ _ same => same) (fun s same => ?_) (voicesTaken_still h) ?_
  · rw [silentLeads_disp, (silentLeads_steady s).applied]
    exact same
  · rw [voicesTaken_eq]
    exact ⟨rfl, rfl⟩

/-- Without a silence limit they change the settings, the estimates, the filters and the mark of a silence test at most. -/
theorem portsTaken_values {a : State} {new : Settings} (h : MovesNoPort a new) (limit : new.silenceFrames = 0) :
    ∃ settings est capture work, portsTaken new (voicesTaken new a) =
      { a with settings := settings, est := est, capture := capture, work := work } := by
  refine (portsTaken_of_still (P := fun s => (∃ settings est capture work,
      s = { a with settings := settings, est := est, capture := capture, work := work }) ∧ s.settings.silenceFrames = 0)
    (fun s w same => ?_) (fun s same => ?_) (voicesTaken_still h) ?_).1
  · obtain ⟨⟨settings, est, capture, work, rfl⟩, quiet⟩ := same
    exact ⟨⟨_, est, capture, work, rfl⟩, quiet⟩
  · obtain ⟨⟨settings, est, capture, work, rfl⟩, quiet⟩ := same
    rw [silentLeads_of_noLimit quiet]
    exact ⟨⟨settings, est, capture, _, rfl⟩, quiet⟩
  · rw [voicesTaken_eq]
    exact ⟨⟨_, _, _, a.work, rfl⟩, limit⟩

theorem leadTaken_unforced {a : State} {new : Settings} (unforced : new.forcedLead = none) :
    leadTaken new a = silenceOfApplication (setForced none (groupsTaken new a)) := by
  rw [leadTaken, unforced, applyForced_of_none]

theorem leadTaken_level {a t : State} {new : Settings} (freeze : a.control.freeze = false) (h : MovesNoPort a new)
    (ends : Concluded (leadTaken new a) t) : LevelTaken a t new.liveLevel := by
  let l := applyLiveLevel new.liveLevel (portsTaken new (voicesTaken new a))
  obtain ⟨disp, before⟩ := portsTaken_display h
  have ended : leadTaken new a = silenceOfApplication (setForced none l) := by
    rw [leadTaken_unforced h.unforced, groupsTaken_onAir freeze]
  have settings : t.settings = { l.settings with forcedLead := none } := by
    rw [ends.settings, ended, (silenceOfApplication_steady _).applied]
    rfl
  have display : t.disp = l.disp := by rw [ends.disp, ended, silenceOfApplication_disp, setForced_disp]
  refine levelTaken_of disp before display (by rw [settings]) fun other low placed limit n rest c due cue => ?_
  have quiet : (setForced none l).settings.silenceFrames = 0 := by
    rw [settings] at limit
    exact limit
  have limit' : new.silenceFrames = 0 := by
    have same := groupsTaken_limit new a
    rw [groupsTaken_onAir freeze] at same
    exact same.symm.trans quiet
  have still : leadTaken new a = { setForced none l with work := (leadTaken new a).work } := by
    rw [ended]
    exact silenceOfApplication_of_noLimit quiet
  have tested := levelled_tested (p := portsTaken new (voicesTaken new a)) (by rwa [before]) (by rwa [disp]) (by rwa [disp])
    (by rw [disp]; exact due) (by rw [cueOf, disp]; exact cue)
  have levelSettings : l.settings = (levelled new.liveLevel (portsTaken new (voicesTaken new a))).settings := by
    show (applyLiveLevel _ _).settings = _
    rw [applyLiveLevel_settled (by rwa [before]) (by rwa [disp]) (by rwa [disp]), (dueTest_calm _).settings]
  obtain ⟨taken, est, capture, work, values⟩ := portsTaken_values h limit'
  refine tested.between a.disp.pendingLevel ?_ display ?_ ?_ ?_ ?_
  · rw [settings, levelSettings, values]
    rfl
  · rw [ends.air, still]; rfl
  · rw [ends.queue, still]; rfl
  · rw [ends.marks, still]; rfl
  · have records := (silenceOfApplication_steady (setForced none l)).records
    rw [← ended] at records
    exact ((setForced_records none l).trans records).trans ends.records

/-! ### The silence test (R91, R92) -/

theorem hearsAs_of_values {a : State} {x y : Settings} {est : Vector Estimator 4} {capture : Vector Capture 6}
    (rate : x.rateCode = y.rateCode) (limit : x.silenceFrames = y.silenceFrames) (lines : x.lines = y.lines)
    (voice : ∀ w, (get x.writers w).voice = (get y.writers w).voice)
    (partner : ∀ w, (get x.writers w).partner = (get y.writers w).partner) :
    HearsAs { a with settings := y, capture := capture } { a with settings := x, est := est, capture := capture } :=
  ⟨rfl, rfl, rfl, rfl, rfl, rate, limit, lines, voice, partner⟩

theorem HearsAs.setForced {v s : State} (h : HearsAs v s) (f : Option Writer) : HearsAs v (setForced f s) :=
  ⟨h.tb, h.clock, h.ports, h.capture, h.lastOnset, h.rate, h.limit, h.lines, h.voice, h.partner⟩

/-- Port settings that are taken leave the voices and partners. -/
theorem HearsAs.portWritten {v s : State} (h : HearsAs v s) (new : Settings) (w : Writer) :
    HearsAs v (portWritten new s w) := by
  have kept (x : Writer) : (writerOf (Machine.portWritten new s w) x).voice = (writerOf s x).voice ∧
      (writerOf (Machine.portWritten new s w) x).partner = (writerOf s x).partner := by
    by_cases own : w = x
    · subst own
      rw [writerOf_portWritten]
      exact ⟨rfl, rfl⟩
    · have other : writerOf (Machine.portWritten new s w) x = writerOf s x := get_put_other _ _ own
      rw [other]
      exact ⟨rfl, rfl⟩
  exact ⟨h.tb, h.clock, h.ports, h.capture, h.lastOnset, h.rate, h.limit, h.lines, fun x => (kept x).1.trans (h.voice x),
    fun x => (kept x).2.trans (h.partner x)⟩

/-- The settings and the filters of the end are those that the silence tests of the application read. -/
theorem leadTaken_toward {a t : State} {new : Settings} (ends : Concluded (leadTaken new a) t)
    (case : a.control.freeze = true ∨ MovesNoPort a new) {Q : State → Prop}
    (outcome : Outcome { a with settings := t.settings, capture := t.capture } Q) :
    Toward { a with settings := t.settings, capture := t.capture } Q (setForced none (groupsTaken new a)) := by
  obtain ⟨forced, ended⟩ := leadTaken_settings new a
  obtain ⟨level, groups⟩ := groupsTaken_settings new a
  have settings := ends.settings.trans ended
  have capture := ends.capture.trans (leadTaken_capture new a)
  rw [groups] at settings
  cases freeze : a.control.freeze with
  | true =>
    rw [freeze] at settings capture
    rw [groupsTaken_frozen freeze, applyTuning_eq, settings, capture]
    have hears := hearsAs_of_values (a := a) (x := tunedTo new a.settings)
      (y := { tunedTo new a.settings with forcedLead := forced })
      (est := (applyTuning new a).est) (capture := a.capture) rfl rfl rfl (fun _ => rfl) (fun _ => rfl)
    exact ⟨hears.setForced none, .inl rfl⟩
  | false =>
    have still : MovesNoPort a new := case.resolve_left (by rw [freeze]; decide)
    rw [freeze] at settings capture
    have voiced : HearsAs { a with settings := t.settings, capture := t.capture } (voicesTaken new a) := by
      rw [voicesTaken_eq, settings, capture]
      have each (w : Writer) : get (voicedTo new (tunedTo new a.settings)).writers w =
          withVoices (get a.settings.writers w) (get new.writers w) := get_ofFn ..
      exact hearsAs_of_values rfl rfl rfl (fun w => by rw [each]; rfl) (fun w => by rw [each]; rfl)
    have taken := portsTaken_of_still (P := Toward { a with settings := t.settings, capture := t.capture } Q)
      (fun s w h => ⟨h.1.portWritten new w, h.2.elim .inl fun q => .inr (outcome.kept q rfl (.same rfl rfl))⟩)
      (fun s h => h.silentLeads outcome) (voicesTaken_still still) ⟨voiced, .inl (voicesTaken_la new a)⟩
    rw [groupsTaken_onAir freeze]
    obtain ⟨hears, reached⟩ := taken.after outcome (applyLiveLevel_local ..).la (levelTaken_frame new _)
    exact ⟨hears.setForced none, reached.elim .inl fun q => .inr (outcome.kept q rfl (setForced_records ..))⟩

theorem leadTaken_judged {a t : State} {new : Settings} (ends : Concluded (leadTaken new a) t)
    (unforced : new.forcedLead = none) (case : a.control.freeze = true ∨ MovesNoPort a new) :
    SilenceJudged { a with settings := t.settings, capture := t.capture } t := by
  refine silenceJudged_of (leadTaken_toward ends case) ?_ ?_
  · rw [ends.la, leadTaken_unforced unforced]
  · rw [← leadTaken_unforced unforced]
    exact ends.records

/-! ### The application as the scan takes it (R155) -/

/-- The state after the settings read of a scan. -/
def scanGoesOn (g c : Word32) (block : List Byte) (a : State) : State :=
  startCueTable g c (reportSettings g (clampedFields block) (ignoredOf block a) (leadTaken (parseSettings block) a))

theorem exec_settingsApplication {m : Moment} {block : List Byte} {s a : State} {g c : Word32} {since : Nat} (h : Finds m s a)
    (op : a.pe.op = some (.pass false .settings g c since)) :
    exec (.settingsApplication m block) s = .next (scanGoesOn g c block a) := by
  have read : settingsRead block a = scanGoesOn g c block a := by
    simp only [settingsRead, op, applyRunning_eq, scanGoesOn]
  exact congrArg Host.Outcome.next ((event_of_finds h _).trans read)

theorem scanGoesOn_concluded (g c : Word32) (block : List Byte) (a : State) :
    Concluded (leadTaken (parseSettings block) a) (scanGoesOn g c block a) := concluded ..

/-- The applied settings at the end. -/
theorem Concluded.applied {new : Settings} {a t : State} (ends : Concluded (leadTaken new a) t) : ∃ level forced,
    t.settings = { (if a.control.freeze then tunedTo new a.settings
      else { tunedTo new a.settings with
        delay := new.delay, writers := new.writers, lines := new.lines, liveLevel := level }) with forcedLead := forced } := by
  obtain ⟨forced, ended⟩ := leadTaken_settings new a
  obtain ⟨level, groups⟩ := groupsTaken_settings new a
  exact ⟨level, forced, by rw [ends.settings, ended, groups]⟩

theorem Concluded.captures {new : Settings} {a t : State} (ends : Concluded (leadTaken new a) t) :
    t.capture = if a.control.freeze then a.capture else Vector.ofFn (lineAfter new a) :=
  ends.capture.trans (leadTaken_capture new a)

/-- With FREEZE set the live level's pending value stays. -/
theorem Concluded.pendingLevel {new : Settings} {a t : State} (ends : Concluded (leadTaken new a) t)
    (freeze : a.control.freeze = true) : t.disp.pendingLevel = a.disp.pendingLevel := by
  obtain ⟨forced, frame⟩ := leadTaken_frame new a
  rw [ends.disp, frame.level, setForced_disp, groupsTaken_frozen freeze]
  rfl

/-- A forced lead is refused where its port is OFF at the end (R93). -/
theorem Concluded.forcedRefused_iff {new : Settings} {a t : State} (ends : Concluded (leadTaken new a) t) :
    forcedRefused new.forcedLead (groupsTaken new a) = true ↔
      ∃ f, new.forcedLead = some f ∧ (portOf t f).mode = .off := by
  obtain ⟨forced, frame⟩ := leadTaken_frame new a
  have ports : t.ports = (groupsTaken new a).ports := ends.ports.trans (frame.ports.trans (setForced_ports ..))
  cases named : new.forcedLead with
  | none => simp [forcedRefused]
  | some w =>
    have same : portOf t w = portOf (groupsTaken new a) w := by rw [portOf, ports, portOf]
    show decide _ = true ↔ _
    rw [decide_eq_true_iff, ← same]
    simp

theorem mem_ignoredOf {block : List Byte} {a t : State} (ends : Concluded (leadTaken (parseSettings block) a) t) (off : Nat) :
    off ∈ ignoredOf block a ↔ FieldIgnored a.control.freeze a.settings (parseSettings block) block off ∨
      ∃ f, off = 0x64 ∧ (parseSettings block).forcedLead = some f ∧ (portOf t f).mode = .off := by
  rw [ignoredOf, mem_ignoredFields, ends.forcedRefused_iff]
  exact or_congr_right ⟨fun ⟨here, f, rest⟩ => ⟨f, here, rest⟩, fun ⟨f, here, rest⟩ => ⟨here, f, rest⟩⟩

/-- A report counts on from the state before the application (R159). -/
theorem SettingsReported.since {a q r : State} {g : Word32} {clamped ignored : List Nat}
    (h : SettingsReported q r g clamped ignored) (frame : OnAirFrame a q) (op : Option PageOp) :
    SettingsReported a (withOp op r) g clamped ignored := by
  obtain ⟨clampCount, ignoreCount, attention, record⟩ := h
  rw [frame.engine] at clampCount ignoreCount
  rw [frame.unreported] at attention
  rw [frame.tb] at record
  exact ⟨clampCount, ignoreCount, attention, record⟩

theorem scanGoesOn_reports (g c : Word32) (block : List Byte) (a : State) :
    SettingsReported a (scanGoesOn g c block a) g (clampedFields block) (ignoredOf block a) := by
  obtain ⟨op, issued⟩ := startCueTable_op g c
    (reportSettings g (clampedFields block) (ignoredOf block a) (leadTaken (parseSettings block) a))
  rw [scanGoesOn, issued]
  exact (reportSettings_reports ..).since (leadTaken_onAir ..) op

/-- The step behind a report is called for as the state before the application calls for it (R155). -/
theorem startCueTable_issues {a q : State} (frame : OnAirFrame a q) (g c : Word32) (clamped ignored : List Nat) :
    let t := startCueTable g c (reportSettings g clamped ignored q)
    (c ≠ a.pe.lastCueChange ∨ a.pe.runStart = true ∨ a.pe.recovery = true →
      t.pe.op = some (.pass false .cueTable g c a.clock)) ∧
    (c = a.pe.lastCueChange → a.pe.runStart = false → a.pe.recovery = false → WriteIssued 0 false g c t) ∧
    t.pe.lastGeneration = g := by
  obtain ⟨attn, buffer, lost, reported⟩ := reportSettings_leaves g clamped ignored q
  generalize reportSettings g clamped ignored q = r at reported
  have called : (c ≠ r.pe.lastCueChange ∨ r.pe.runStart = true ∨ r.pe.recovery = true) ↔
      (c ≠ a.pe.lastCueChange ∨ a.pe.runStart = true ∨ a.pe.recovery = true) := by
    rw [reported]
    show (c ≠ q.pe.lastCueChange ∨ q.pe.runStart = true ∨ q.pe.recovery = true) ↔ _
    rw [frame.engine]
  have clock : r.clock = a.clock := by
    rw [reported]
    exact frame.clock
  obtain ⟨op, issued⟩ := startCueTable_op g c r
  refine ⟨fun calls => ?_, fun same notStart notRecovery => ?_, ?_⟩
  · rw [startCueTable_reads (called.mpr calls), ← clock]
    rfl
  · rw [startCueTable_writes (by rw [called]; simp [same, notStart, notRecovery])]
    exact startSlots_issues ..
  · rw [issued, reported]
    rfl

theorem scanGoesOn_issues (g c : Word32) (block : List Byte) (a : State) :
    let t := scanGoesOn g c block a
    (c ≠ a.pe.lastCueChange ∨ a.pe.runStart = true ∨ a.pe.recovery = true →
      t.pe.op = some (.pass false .cueTable g c a.clock)) ∧
    (c = a.pe.lastCueChange → a.pe.runStart = false → a.pe.recovery = false → WriteIssued 0 false g c t) ∧
    t.pe.lastGeneration = g := by
  rw [scanGoesOn]
  exact startCueTable_issues (leadTaken_onAir ..) g c _ _

/-- The filter of each line whose values change restarts (R57). -/
theorem Concluded.lineRestarts {new : Settings} {a t : State} (ends : Concluded (leadTaken new a) t)
    (freeze : a.control.freeze = false) (i : LineNo) :
    (get new.lines i = get a.settings.lines i → get t.capture i = get a.capture i) ∧
    (get new.lines i ≠ get a.settings.lines i → get t.capture i = restarted (get a.lines i) (get a.capture i)) := by
  have after : get t.capture i = lineAfter new a i := by
    rw [ends.captures, freeze]
    exact get_ofFn ..
  rw [after]
  exact ⟨fun same => if_pos same, fun other => if_neg other⟩

/-- Settles O46: each clause is the stage of the application that it speaks of. -/
theorem settingsApplicationTakesItsGroups : Obligations.SettingsApplicationTakesItsGroups := by
  refine ⟨fun block => ⟨parseSettings_taken block, clampedFields_rises block, mem_clampedFields_iff block⟩,
    fun m block s a g c since finds op => ?_⟩
  have ends := scanGoesOn_concluded g c block a
  have frame := leadTaken_onAir (parseSettings block) a
  have reports := scanGoesOn_reports g c block a
  obtain ⟨reads, writes, generation⟩ := scanGoesOn_issues g c block a
  obtain ⟨level, forced, settings⟩ := ends.applied
  obtain ⟨tb, mem, base, pending, out⟩ := ends.kept
  refine ⟨scanGoesOn g c block a, exec_settingsApplication finds op,
    ⟨?_, fun freeze => ?_, fun freeze => ?_, ?_, ?_, fun w e set => ?_,
      ⟨ignoredOf block a, ignoredFields_rises .., reports, mem_ignoredOf ends⟩,
      fun running freeze => ⟨leadTaken_ports freeze running _ ends,
        fun bonds limit => leadTaken_applied freeze running bonds limit ends⟩,
      fun freeze => ⟨by rw [ends.captures, freeze]; rfl, ends.pendingLevel freeze⟩, fun freeze => ends.lineRestarts freeze,
      fun _ freeze still => leadTaken_level freeze still ends, fun _ unforced case => leadTaken_judged ends unforced case⟩,
    reads, writes, generation, reports.clampCount, fun loads => ?_,
    ⟨tb.trans frame.tb, mem.trans frame.mem, ?_, pending.trans frame.pending, out.trans frame.out⟩,
    frame.records.trans ends.records⟩
  · rw [settings]
    split <;> exact ⟨rfl, rfl, rfl, rfl, rfl, rfl⟩
  · rw [settings, freeze]
    exact ⟨rfl, rfl, rfl, rfl⟩
  · rw [settings, freeze]
    exact ⟨rfl, rfl, rfl⟩
  · rw [settings]
    split <;> exact ⟨rfl, rfl, rfl, rfl, rfl, rfl, rfl, rfl⟩
  · rw [settings]
    split <;> exact ⟨rfl, rfl, rfl, rfl, rfl, rfl, rfl⟩
  · have within := (leadTaken_within (parseSettings block) a).of_same ends.est (by rw [ends.settings]) (by rw [ends.settings])
    have bounds := within w e set
    rw [settings] at bounds
    split at bounds <;> exact bounds
  · have listed : 0x06 ∈ ignoredOf block a := by
      rw [loadRequested, bne_iff_ne] at loads
      exact (mem_ignoredOf ends _).mpr (.inl (.inr (.inr (.inr (.inr (.inr (.inr (.inl ⟨rfl, loads⟩))))))))
    rw [reports.attention, decide_eq_true (List.ne_nil_of_mem listed), Bool.or_true]
  · rw [base, frame.engine]

end Sys2Proof.Machine
end

