-- ==== Sys2Proof/Proofs/Bounds.lean ====
section
/-! The bounds of the queues and lists, the alignment of the page base and the canonical form of the written memory (R47, R53,
R100, R153, R154): an operation that Keeps keeps them, and so do the resets, the writes of the page base and those of the
page. -/

namespace Sys2Proof.Machine

/-! ### Functions that keep the bounds -/

/-- The bounds hold after f where they held before. -/
def KeepsBounds (f : State → State) : Prop := ∀ s, WithinBounds s → WithinBounds (f s)

theorem Keeps.bounds {s t : State} (h : Keeps s t) (within : WithinBounds s) : WithinBounds t where
  memory := by rw [h.mem]; exact within.memory
  base := by rw [baseAligned, h.base]; exact within.base
  buffer := h.buffer within.buffer
  queue := h.queue within.queue
  entries := h.entries within.entries
  onsets := h.onsets within.onsets

theorem KeepsBounds.of_keeps {f : State → State} (h : ∀ s, Keeps s (f s)) : KeepsBounds f := fun s => (h s).bounds

/-- Another moment has the same bounds. -/
theorem advance_bounds (m : Moment) : KeepsBounds (advance m) := fun _ within => { within with }

theorem arrive_bounds (m : Moment) : KeepsBounds (arrive m) := fun s within =>
  advance_bounds m _ ((settle_keeps s).bounds within)

theorem event_bounds {f : State → State} (h : KeepsBounds f) (m : Moment) : KeepsBounds (event m f) := by
  intro s within
  have found := arrive_bounds m s within
  unfold event
  split
  · exact found
  · exact h _ found

theorem piece_bounds {f : State → State} (h : KeepsBounds f) (m : Moment) : KeepsBounds (piece m f) := by
  intro s within
  have found := advance_bounds m s within
  unfold piece
  split
  · exact found
  · exact h _ found

/-! ### Resets (R176) -/

theorem resetBlocks_bounds : KeepsBounds resetBlocks := fun _ within => {
  memory := within.memory
  base := show ((0 : BitVec 64) &&& 0xFFF) == 0 from by decide
  buffer := Nat.zero_le _
  queue := Nat.zero_le _
  entries := Nat.zero_le _
  onsets := fun v => by simp [resetBlocks, State.reset] }

theorem hardwareResetNow_bounds : KeepsBounds hardwareResetNow := fun s within => { resetBlocks_bounds s within with }

/-- A soft reset keeps the page base. -/
theorem softResetNow_bounds : KeepsBounds softResetNow := fun s within =>
  { resetBlocks_bounds s within with base := within.base }

theorem resetRises_bounds : KeepsBounds resetRises := by
  intro s within
  unfold resetRises
  split
  · exact { resetBlocks_bounds s within with }
  · exact within

/-! ### Writes to the register window (R171 to R178) -/

theorem writeControl_bounds (word : Word32) : KeepsBounds (writeControl word) := by
  intro s within
  unfold writeControl
  split
  · exact softResetNow_bounds s within
  · exact ((writeRun_keeps _ s).trans (writeFreeze_keeps ..)).bounds within

/-- The low 12 bits of a word as a word of their own. -/
theorem low_bits_zero_iff (base : BitVec 64) : base &&& 0xFFF = 0 ↔ base.setWidth 12 = 0 := by
  have low : base.toNat &&& (2 ^ 12 - 1) = base.toNat % 2 ^ 12 := Nat.and_two_pow_sub_one_eq_mod ..
  rw [BitVec.toNat_eq, BitVec.toNat_eq, BitVec.toNat_and, BitVec.toNat_setWidth, ← low]
  rfl

/-- Either half of a written base leaves its low 12 bits 0 (R172). -/
theorem replaceBase_aligned (high : Bool) (word : Word32) {base : BitVec 64} (aligned : base &&& 0xFFF = 0) :
    replaceBase high word base &&& 0xFFF = 0 := by
  rw [low_bits_zero_iff] at aligned ⊢
  cases high with
  | true =>
    show (word ++ base.setWidth 32).setWidth 12 = 0
    rw [BitVec.setWidth_append, dif_pos (by decide), BitVec.setWidth_setWidth_of_le _ (by decide), aligned]
  | false =>
    show ((base >>> 32).setWidth 32 ++ (word &&& 0xFFFFF000)).setWidth 12 = 0
    rw [BitVec.setWidth_append, dif_pos (by decide), BitVec.setWidth_and]
    exact BitVec.and_zero

theorem writeBase_bounds (high : Bool) (word : Word32) : KeepsBounds (writeBase high word) := by
  intro s within
  unfold writeBase
  split
  · exact { within with base := beq_iff_eq.mpr (replaceBase_aligned high word (beq_iff_eq.mp within.base)) }
  · exact within

theorem writeAttn_bounds (word : Word32) : KeepsBounds (writeAttn word) := .of_keeps (writeAttn_keeps word)

theorem writeEnable_bounds (word : Word32) : KeepsBounds (writeEnable word) := .of_keeps (writeEnable_keeps word)

theorem writeRegister_bounds (reg : Reg) (word : Word32) : KeepsBounds (writeRegister reg word) := by
  cases reg with
  | ident => exact fun _ => id
  | control => exact writeControl_bounds word
  | status => exact fun _ => id
  | attn => exact writeAttn_bounds word
  | attnEnable => exact writeEnable_bounds word
  | pageBaseLo => exact writeBase_bounds false word
  | pageBaseHi => exact writeBase_bounds true word

/-! ### Writes of the page (R162, R164, R166) -/

theorem writePage_bounds (data : List (Nat × List Byte)) : KeepsBounds (writePage data) := fun s within =>
  { within with memory := memWf_writePage data s within.memory }

theorem slotWritten_bounds : KeepsBounds slotWritten := by
  intro s within
  unfold slotWritten
  split
  · rename_i flush n data terminal dirty generation cueChange since op
    let u : State := { writePage data s with
      pe := { (writePage data s).pe with marks := put (writePage data s).pe.marks n dirty } }
    have written : WithinBounds u := { writePage_bounds data s within with }
    have released : WithinBounds (if terminal then releaseSlot n u else u) := by
      split
      · exact (storeCue_keeps n none u).bounds written
      · exact written
    exact (startSlots_keeps ..).bounds released
  · exact within

theorem statusWritten_bounds : KeepsBounds statusWritten := by
  intro s within
  unfold statusWritten
  split
  · exact (startJournal_keeps ..).bounds (writePage_bounds _ s within)
  · exact within

/-- The head record leaves the buffer. -/
theorem journalWritten_bounds : KeepsBounds journalWritten := by
  intro s within
  unfold journalWritten
  split
  · rename_i flush data generation cueChange since op
    have written := writePage_bounds data s within
    have left : WithinBounds { writePage data s with pe := { (writePage data s).pe with
        buffer := (writePage data s).pe.buffer.drop 1, writeCount := (writePage data s).pe.writeCount + 1 } } :=
      { written with buffer := (by simpa using Nat.le_trans (Nat.sub_le _ 1) written.buffer) }
    exact ((raise_keeps ..).trans (startJournal_keeps ..)).bounds left
  · exact within

/-! ### The commands -/

theorem tickStepEvent_keeps (s : State) : Keeps s (tickStepEvent s) := by
  unfold tickStepEvent
  split
  · exact tickStepNow_keeps s
  · exact .refl s

/-- Every command answers a state within its bounds, from one within them. -/
theorem exec_bounds (c : Instr) (s : State) (within : WithinBounds s) : ∃ t, exec c s = .next t ∧ WithinBounds t := by
  have found {f : State → State} (h : ∀ s, Keeps s (f s)) (m : Moment) : WithinBounds (event m f s) :=
    event_bounds (.of_keeps h) m s within
  have taken {f : State → State} (h : ∀ s, Keeps s (f s)) (m : Moment) : WithinBounds (piece m f s) :=
    piece_bounds (.of_keeps h) m s within
  cases c with
  | hardwareReset m => exact ⟨_, rfl, hardwareResetNow_bounds _ (arrive_bounds m s within)⟩
  | softReset m word => exact ⟨_, rfl, event_bounds (writeControl_bounds word) m s within⟩
  | runSet m word => exact ⟨_, rfl, event_bounds (writeControl_bounds word) m s within⟩
  | runClear m word => exact ⟨_, rfl, event_bounds (writeControl_bounds word) m s within⟩
  | freeze m word => exact ⟨_, rfl, event_bounds (writeControl_bounds word) m s within⟩
  | attnClear m word => exact ⟨_, rfl, event_bounds (writeAttn_bounds word) m s within⟩
  | pageFaultClear m word => exact ⟨_, rfl, event_bounds (writeAttn_bounds word) m s within⟩
  | attnEnableWrite m word => exact ⟨_, rfl, event_bounds (writeEnable_bounds word) m s within⟩
  | pageBaseWrite m high word => exact ⟨_, rfl, event_bounds (writeBase_bounds high word) m s within⟩
  | registerWriteDiscarded m reg word => exact ⟨_, rfl, event_bounds (writeRegister_bounds reg word) m s within⟩
  | referencePulse m => exact ⟨_, rfl, found pulse_keeps m⟩
  | lossExpiry m => exact ⟨_, rfl, found lossNow_keeps m⟩
  | freewheelExpiry m => exact ⟨_, rfl, found freewheelNow_keeps m⟩
  | tickStep m => exact ⟨_, rfl, found tickStepEvent_keeps m⟩
  | characterAccepted m w edges => exact ⟨_, rfl, found (characterNow_keeps w edges) m⟩
  | breakSeen m w space => exact ⟨_, rfl, found (breakSeenNow_keeps w space) m⟩
  | resyncBreak m w space => exact ⟨_, rfl, found (resyncBreakNow_keeps w space) m⟩
  | spanTooLong m w => exact ⟨_, rfl, found (spanTooLongNow_keeps w) m⟩
  | alignmentCharacter m w edges => exact ⟨_, rfl, found (alignmentNow_keeps w edges) m⟩
  | resyncEnd m w mark => exact ⟨_, rfl, found (resyncEndNow_keeps w mark) m⟩
  | pauseEvent m w => exact ⟨_, rfl, taken (pauseWork_keeps w) m⟩
  | silentLead m => exact ⟨_, rfl, taken silentLeadNow_keeps m⟩
  | handoffTimeout m => exact ⟨_, rfl, taken timeoutWork_keeps m⟩
  | onsetAged m => exact ⟨_, rfl, taken onsetsWork_keeps m⟩
  | lastOnsetLapse m => exact ⟨_, rfl, taken lastOnsetsWork_keeps m⟩
  | bufferFreeLapse m => exact ⟨_, rfl, taken buffersWork_keeps m⟩
  | mirrorPast m => exact ⟨_, rfl, taken mirrorWork_keeps m⟩
  | atFrameDue m => exact ⟨_, rfl, taken atFrameWork_keeps m⟩
  | cueWaitExpired m => exact ⟨_, rfl, taken expiryWork_keeps m⟩
  | showRow m => exact ⟨_, rfl, taken showWork_keeps m⟩
  | pendingClear m => exact ⟨_, rfl, taken clearWork_keeps m⟩
  | headerReadComplete m header => exact ⟨_, rfl, found (headerRead_keeps _) m⟩
  | settingsApplication m block => exact ⟨_, rfl, found (settingsRead_keeps block) m⟩
  | settingsReadComplete m header block => exact ⟨_, rfl, found (startingRead_keeps _ block) m⟩
  | cueTableReadComplete m table => exact ⟨_, rfl, found (cueTableRead_keeps table) m⟩
  | slotWriteComplete m => exact ⟨_, rfl, event_bounds slotWritten_bounds m s within⟩
  | statusWriteComplete m => exact ⟨_, rfl, event_bounds statusWritten_bounds m s within⟩
  | journalWriteComplete m => exact ⟨_, rfl, event_bounds journalWritten_bounds m s within⟩
  | fetchComplete m ctx entry => exact ⟨_, rfl, found (completeFetch_keeps ctx entry) m⟩
  | pageFault m access offset => exact ⟨_, rfl, found (accessFailed_keeps access offset) m⟩
  | accessTimeout m access offset => exact ⟨_, rfl, found (accessLate_keeps access offset) m⟩
  | resetNRise m => exact ⟨_, rfl, resetRises_bounds _ (arrive_bounds m s within)⟩
  | alignmentStartEdge m w => exact ⟨_, rfl, found (startEdgeNow_keeps w) m⟩
  | spanMeasured m w rise => exact ⟨_, rfl, found (spanMeasuredNow_keeps w rise) m⟩

/-- Settles O57, by the command at the front of the queue. -/
theorem everyStepKeepsTheBounds : Obligations.EveryStepKeepsTheBounds := by
  intro s t within stepped
  unfold step at stepped
  split at stepped
  · cases stepped
    exact within
  · rename_i c rest waiting
    obtain ⟨u, next, kept⟩ := exec_bounds c (s.withPending rest) { within with }
    rw [next] at stepped
    cases stepped
    exact kept

end Sys2Proof.Machine
end

