-- ==== Sys2Proof/Proofs/Deliveries.lean ====
section
/-! The delivery of a byte (R25, R30, R31): what follows the row builder and the lead arbiter in it, a text character that is
placed (R35), and the ROW and SPEAKER codes that close a buffer (R38 to R40, R47). -/

namespace Sys2Proof.Machine

/-! ### Line codes and text (R29 to R31) -/

/-- What follows a line code in its delivery sets the port and LA's record alone (R30, R31, R92), and a delivery without more
is the code heard with these set. -/
theorem touchPort_settles (a : State) (w : Writer) (noisy : Bool) :
    ∃ ports la, delivered w noisy a = { heard w noisy (looking w a) with ports := ports, la := la } ∧
      ∀ t, t.ports = (heard w noisy (looking w a)).ports → t.la = (heard w noisy (looking w a)).la →
        touchPort w t = { t with ports := ports, la := la } := by
  refine ⟨_, _, ?_, fun t ports la => touchPort_alike ports la w⟩
  rw [← touchPort_heard]
  exact touchPort_alike rfl rfl w

theorem exec_code {m : Moment} {w : Writer} {edges : List Nat} {s a : State} {d : Nat} {ch : Byte} (finds : Finds m s a)
    (receives : ReceivesByte a w edges d ch) (code : classify ch ≠ .text ∧ classify ch ≠ .ignored) :
    exec (.characterAccepted m w edges) s = .next (touchPort w (handOn w (classify ch) ch (stampNow (looking w a))
      (heard w (charNoisy edges d (writerOf a w).parity) (looking w a)))) := by
  rw [exec_characterAccepted finds, characterNow_of_byte receives, deliver_of_code code]

/-- A text character ends with its resumption, where it is one (R30, R76). -/
theorem exec_text {m : Moment} {w : Writer} {edges : List Nat} {s a : State} {d : Nat} {ch : Byte} (finds : Finds m s a)
    (receives : ReceivesByte a w edges d ch) (text : classify ch = .text) :
    exec (.characterAccepted m w edges) s = .next (resumeAt w ch (stampNow a) (touchPort w (handOn w .text ch (stampNow a)
      (heard w (charNoisy edges d (writerOf a w).parity) (looking w a))))) := by
  rw [exec_characterAccepted finds, characterNow_of_byte receives]
  simp only [deliver, text, reduceCtorEq, if_false, if_true]
  rfl

/-- A record that is made does not read the ports or LA's record. -/
theorem noted_line (r : Record) (flags : List AttnFlag) (s : State) (ports : Vector Port 4) (la : Arbiter) :
    { noted r flags s with ports := ports, la := la } = noted r flags { s with ports := ports, la := la } := by
  unfold noted
  split <;> rfl

/-! ### A resumption (R70 to R77) -/

/-- What a resumption of writer w changes: its port, the estimates, the onsets' marks, the counters of samples, and the
records. -/
structure Resumed (w : Writer) (s t : State) : Prop where
  same : t = { s with
    ports := t.ports, counters := t.counters, onsets := t.onsets, est := t.est, control := t.control, pe := t.pe }
  ports : ∀ v, v ≠ w → portOf t v = portOf s v
  rowsClosed : ∀ v, (get t.counters v).rowsClosed = (get s.counters v).rowsClosed
  records : RecordsKept s t

namespace Resumed

theorem refl (w : Writer) (s : State) : Resumed w s s := ⟨rfl, fun _ _ => rfl, fun _ => rfl, .refl s⟩

theorem trans {w : Writer} {s t u : State} (h : Resumed w s t) (g : Resumed w t u) : Resumed w s u where
  same := by have e := g.same; rw [h.same] at e; exact e
  ports v other := (g.ports v other).trans (h.ports v other)
  rowsClosed v := (g.rowsClosed v).trans (h.rowsClosed v)
  records := h.records.trans g.records

end Resumed

/-- A count other than that of the rows closed. -/
theorem count_resumed {f : Counters → Counters} (h : ∀ c, (f c).rowsClosed = c.rowsClosed) (v w : Writer) (s : State) :
    Resumed w s (count v f s) := by
  refine ⟨rfl, fun _ _ => rfl, fun x => ?_, .same rfl rfl⟩
  rw [count, get_change]
  split
  · rename_i same
    rw [h, same]
  · rfl

theorem onEst_resumed (v w : Writer) (f : Estimator → Estimator) (s : State) : Resumed w s (onEst v f s) :=
  ⟨rfl, fun _ _ => rfl, fun _ => rfl, .same rfl rfl⟩

theorem journal_resumed (r : Record) (w : Writer) (s : State) : Resumed w s (journal r s) := by
  have records := journal_records r s
  rcases journal_cases r s with ⟨_, e⟩ | ⟨_, e⟩
  · rw [e] at records ⊢
    exact ⟨rfl, fun _ _ => rfl, fun _ => rfl, records⟩
  · rw [e] at records ⊢
    exact ⟨rfl, fun _ _ => rfl, fun _ => rfl, records⟩

theorem takeSample_resumed (w : Writer) (estimate sample : Nat) (onset resumption : Stamp) (s : State) :
    Resumed w s (takeSample w estimate sample onset resumption s) := by
  unfold takeSample
  dsimp only
  split
  · exact (onEst_resumed ..).trans (count_resumed (by intro; rfl) ..)
  · split
    · exact (onEst_resumed ..).trans (count_resumed (by intro; rfl) ..)
    · split
      · exact (onEst_resumed ..).trans (count_resumed (by intro; rfl) ..)
      · exact ((onEst_resumed ..).trans (count_resumed (by intro; rfl) ..)).trans (journal_resumed ..)

theorem takeResumption_resumed (w : Writer) (stamp : Stamp) (s : State) : Resumed w s (takeResumption w stamp s) := by
  unfold takeResumption
  dsimp only
  split
  · exact Resumed.trans (t := consumeOnset w _ s) ⟨rfl, fun _ _ => rfl, fun _ => rfl, .same rfl rfl⟩
      (takeSample_resumed ..)
  · exact count_resumed (by intro; rfl) ..

theorem resumeAt_resumed (w : Writer) (ch : Byte) (stamp : Stamp) (s : State) : Resumed w s (resumeAt w ch stamp s) := by
  unfold resumeAt
  split
  · refine Resumed.trans (t := onPort w _ s) ⟨rfl, fun v other => ?_, fun _ => rfl, .same rfl rfl⟩
      (takeResumption_resumed ..)
    exact get_put_other _ _ (Ne.symm other)
  · exact .refl ..

/-- A space, or a character with the pause flag clear, is no resumption (R30). -/
theorem resumeAt_of_none {w : Writer} {ch : Byte} {s : State} (h : ch = 0x20 ∨ (portOf s w).pauseFlag = false)
    (stamp : Stamp) : resumeAt w ch stamp s = s := by
  unfold resumeAt
  rw [if_neg]
  rintro ⟨solid, flag⟩
  rcases h with spaced | clear
  · exact solid spaced
  · rw [clear] at flag
    exact Bool.false_ne_true flag

/-! ### A character that is placed (R35) -/

theorem portOf_delivered_pauseFlag (w : Writer) (noisy : Bool) (a : State) :
    (portOf (delivered w noisy a) w).pauseFlag = (portOf a w).pauseFlag := by
  simp only [delivered, portOf, get_put_same]

theorem takeText_of_room {w : Writer} {s : State} (h : (builderOf s w).chars.length < s.settings.rowWidth) (ch : Byte)
    (stamp : Stamp) :
    takeText w ch stamp s = ({ s with builders := put s.builders w (placeChar ch stamp (builderOf s w)) }, false) := by
  simp only [takeText, h, if_true]
  rfl

/-- The buffer of a character that is placed, by whether it is the first and whether a mark is pending (R35, R40). -/
theorem placeChar_cases (ch : Byte) (stamp : Stamp) (b : Builder) :
    (b.chars = [] → ch = 0x20 → placeChar ch stamp b = b) ∧
    (b.chars = [] → ch ≠ 0x20 → b.markPending = false →
      placeChar ch stamp b = { b with chars := [⟨ch, stamp⟩], arrival := some stamp }) ∧
    (b.chars = [] → ch ≠ 0x20 → b.markPending = true → placeChar ch stamp b = { b with
      chars := [⟨0x3E, stamp⟩, ⟨0x3E, stamp⟩, ⟨0x20, stamp⟩, ⟨ch, stamp⟩], arrival := some stamp
      markHeld := true, markPending := false }) ∧
    (b.chars ≠ [] → placeChar ch stamp b = { b with chars := b.chars ++ [⟨ch, stamp⟩] }) := by
  refine ⟨fun empty spaced => ?_, fun empty solid clear => ?_, fun empty solid pending => ?_, fun some => ?_⟩
  · simp [placeChar, empty, spaced, space]
  · simp [placeChar, empty, show ch ≠ space from solid, clear]
  · simp [placeChar, empty, show ch ≠ 0x20#8 from solid, pending, space]
  · simp [placeChar, some]

/-- Settles O24: the character is placed, and what follows in its delivery leaves the row builders. -/
theorem textIsPlacedInTheBuffer : Obligations.TextIsPlacedInTheBuffer := by
  intro m w edges s a d ch finds receives text room
  rw [exec_text finds receives text]
  generalize charNoisy edges d (writerOf a w).parity = noisy
  let placed := placeChar ch (stampNow a) (builderOf a w)
  have handed : handOn w .text ch (stampNow a) (heard w noisy (looking w a)) =
      { heard w noisy (looking w a) with builders := put a.builders w placed } := by
    simp only [handOn, takeText_of_room (s := heard w noisy (looking w a)) room, completeHandoff_unreported]
    rfl
  obtain ⟨ports, la, settled, settles⟩ := touchPort_settles a w noisy
  have touched : touchPort w { heard w noisy (looking w a) with builders := put a.builders w placed } =
      { delivered w noisy a with builders := put a.builders w placed } := by
    rw [settled]
    exact settles _ rfl rfl
  rw [handed, touched]
  have built : builderOf (resumeAt w ch (stampNow a) { delivered w noisy a with builders := put a.builders w placed }) w =
      placed := by
    rw [builderOf, (resumeAt_resumed ..).same]
    exact get_put_same ..
  refine ⟨_, rfl, ?_, fun quiet => ?_⟩
  · rw [built]
    exact placeChar_cases ..
  · rw [built]
    refine resumeAt_of_none (quiet.imp_right fun clear => ?_) _
    rw [← clear]
    exact portOf_delivered_pauseFlag w noisy a

/-! ### A buffer that is closed (R38, R47) -/

/-- A full live queue loses its head to the row that joins it (R47). -/
theorem joinTail_of_full {s : State} {head : Row} {rest : List Row} {v : Writer} {arrival : Stamp} {cause : CloseReason}
    {mark : Bool} (queue : s.queue = head :: rest) (full : s.queue.length = 8)
    (live : head.source = .live v arrival cause mark) (r : Row) :
    joinTail r s = noted (.rowDropped head .overflow none none 0) []
      { s with
        counters := change s.counters v (fun c => { c with rowsDropped := c.rowsDropped + 1 })
        queue := rest ++ [r] } := by
  have full' : Config.liveQueueRows ≤ (head :: rest).length := by rw [← queue, full]; decide
  simp only [joinTail, queue, full', if_true, overflowDrop, countDropped, live, journal_noted]
  rfl

/-- A close of a buffer that holds a character, by whose it is and by the room in the live queue (R38, R47). -/
theorem closeRow_closed {w : Writer} {s : State} (h : (builderOf s w).chars ≠ []) (reason : CloseReason) :
    RowClosed w (builderOf s w) reason { s with builders := put s.builders w (emptied (builderOf s w)) }
      (closeRow w reason s).1 := by
  refine ⟨fun role => ?_, fun role top room => ⟨rowOf w reason s, closedRow_closedAs .., ?_⟩,
    fun role top head rest v arrival cause mark queue full live => ⟨rowOf w reason s, closedRow_closedAs .., ?_⟩⟩
  · rw [closeRow_of_other h role]
  · rw [closeRow_waits h role top room]
    rfl
  · have joined := joinTail_of_full (s := rowLeaves w s) queue full live (rowOf w reason s)
    have blocked : NothingFeeds (joinTail (rowOf w reason s) (rowLeaves w s)) := by
      refine .inr (.inl ?_)
      rw [topOwner, joinTail_disp]
      exact top
    rw [closeRow_of_lead h role, feedAttempt_of_nothing blocked, joined]
    rfl

/-- The ports, the row builders and of LA's record all but the roles have no part in it. -/
theorem RowClosed.onLine {w : Writer} {b : Builder} {reason : CloseReason} {u t : State} (h : RowClosed w b reason u t)
    (ports : Vector Port 4) {la : Arbiter} (roles : la.roles = u.la.roles) (builders : Vector Builder 4) :
    RowClosed w b reason { u with ports := ports, la := la, builders := builders }
      { t with ports := ports, la := la, builders := builders } := by
  have role : roleOf { u with ports := ports, la := la, builders := builders } w = roleOf u w := by
    show get la.roles w = get u.la.roles w
    rw [roles]
  refine ⟨fun other => ?_, fun lead top room => ?_, fun lead top head rest v arrival cause mark queue full live => ?_⟩
  · rw [h.discarded (role ▸ other)]
  · obtain ⟨r, closed, e⟩ := h.waits (role ▸ lead) top room
    exact ⟨r, closed, by rw [e]⟩
  · obtain ⟨r, closed, e⟩ := h.overflows (role ▸ lead) top head rest v arrival cause mark queue full live
    refine ⟨r, closed, ?_⟩
    rw [e]
    unfold noted
    dsimp only
    split <;> rfl

/-- A line code or a wrap that closes a buffer, with what follows in the delivery. -/
theorem heard_closed {a t : State} {w : Writer} (h : (builderOf a w).chars ≠ []) (reason : CloseReason) (noisy : Bool)
    (builders : Vector Builder 4)
    (after : t = { (closeRow w reason (heard w noisy (looking w a))).1 with builders := builders }) :
    RowClosed w (builderOf a w) reason { delivered w noisy a with builders := builders } (touchPort w t) := by
  let s := heard w noisy (looking w a)
  obtain ⟨la, ports⟩ := closeRow_leaves w reason s
  have roles : (touchPort w s).la.roles = s.la.roles := by rw [touchPort_eq]
  rw [after, ← touchPort_heard, touchPort_alike (s := s) (t := s) rfl rfl,
    touchPort_alike (s := s) (t := { (closeRow w reason s).1 with builders := builders }) ports la]
  exact (closeRow_closed (s := s) h reason).onLine (touchPort w s).ports roles builders

/-- The codes that close nothing, on an empty buffer. -/
theorem handOn_of_empty {u : State} {w : Writer} (h : (builderOf u w).chars = []) (ch : Byte) (stamp : Stamp) :
    handOn w .row ch stamp u = u ∧
    handOn w .speaker ch stamp u = { u with builders := put u.builders w { builderOf u w with markPending := true } } := by
  simp only [handOn, takeSpeaker, closeRow_of_empty h, completeHandoff_unreported]
  exact ⟨trivial, rfl⟩

/-- Settles O26: the two codes, on an empty buffer and on one that holds characters. -/
theorem rowCodeClosesTheBuffer : Obligations.RowCodeClosesTheBuffer := by
  intro m w edges s a d finds
  refine ⟨fun receives => ?_, fun receives => ?_⟩
  all_goals
    rw [exec_code finds receives (by decide)]
    generalize charNoisy edges d (writerOf a w).parity = noisy
    have closed (some : (builderOf a w).chars ≠ []) (reason : CloseReason) :
        (closeRow w reason (heard w noisy (looking w a))).1.builders = put a.builders w (emptied (builderOf a w)) :=
      closeRow_builders (s := heard w noisy (looking w a)) some reason
    have code (noHandoff : a.la.handoff = none) := handOn_closes (u := heard w noisy (looking w a)) noHandoff w
  · rw [show classify 0x0D = .row from rfl]
    refine ⟨fun empty => ?_, fun some noHandoff => ⟨_, rfl, ?_, ?_⟩⟩
    · rw [(handOn_of_empty (u := heard w noisy (looking w a)) empty ..).1, touchPort_heard]
    · rw [(code noHandoff ..).1, touchPort_eq]
      exact (congrArg (get · w) (closed some .rowCode)).trans (get_put_same ..)
    · rw [(code noHandoff ..).1]
      refine heard_closed some .rowCode noisy (put a.builders w (emptied (builderOf a w))) ?_
      rw [← closed some .rowCode]
  · rw [show classify 0x1E = .speaker from rfl]
    refine ⟨fun empty => ?_, fun some noHandoff => ⟨_, rfl, ?_, ?_⟩⟩
    · obtain ⟨ports, la, settled, settles⟩ := touchPort_settles a w noisy
      rw [(handOn_of_empty (u := heard w noisy (looking w a)) empty ..).2, settled]
      exact congrArg Host.Outcome.next (settles _ rfl rfl)
    · rw [(code noHandoff ..).2, touchPort_eq, takeSpeaker]
      refine (get_put_same ..).trans ?_
      rw [closed some .speaker, get_put_same]
      rfl
    · rw [(code noHandoff ..).2]
      refine heard_closed some .speaker noisy (put a.builders w { emptied (builderOf a w) with markPending := true }) ?_
      simp only [takeSpeaker, onBuilder, change, closed some, get_put_same, put_put_same]

end Sys2Proof.Machine
end

