-- ==== Sys2Proof/Proofs/Corrections.lean ====
section
/-! Corrections (R41 to R44): what RUB and RUBWORD leave of a text, the row that a correction reopens, and the refusals. -/

namespace Sys2Proof.Machine

/-! ### What a correction leaves of a text (R41, R42) -/

/-- The items at the end that pass a test are cut, and then those that fail it, back to the nearest that passes. -/
theorem cut_word_append {α : Type} (p : α → Bool) {front cut spaces : List α} (spaced : ∀ c ∈ spaces, p c = true)
    (solid : ∀ c ∈ cut, p c = false) (edge : ∀ c, front.getLast? = some c → p c = true) (whole : cut = [] → front = []) :
    (((front ++ cut ++ spaces).reverse.dropWhile p).dropWhile (fun c => !p c)).reverse = front := by
  have stops : front.reverse.dropWhile (fun c => !p c) = front.reverse := by
    cases back : front.reverse with
    | nil => rfl
    | cons c rest =>
      have last : front.getLast? = some c := by rw [← List.head?_reverse, back]; rfl
      rw [List.dropWhile_cons_of_neg (by simp [edge c last])]
  have begins : (cut.reverse ++ front.reverse).dropWhile p = cut.reverse ++ front.reverse := by
    cases back : cut.reverse with
    | nil => rw [whole (List.reverse_eq_nil_iff.mp back)]; rfl
    | cons c rest =>
      have own : c ∈ cut := List.mem_reverse.mp (back ▸ List.mem_cons_self)
      rw [List.cons_append, List.dropWhile_cons_of_neg (by simp [solid c own])]
  rw [List.reverse_append, List.reverse_append, List.dropWhile_append_of_pos (by simpa using spaced), begins,
    List.dropWhile_append_of_pos (by simpa using solid), stops, List.reverse_reverse]

/-- RUBWORD takes the spaces at the end and the word before them (R42). -/
theorem rubWordChars_append {front word spaces : List TextChar} (spaced : ∀ c ∈ spaces, c.ch = 0x20)
    (solid : ∀ c ∈ word, c.ch ≠ 0x20) (edge : ∀ c, front.getLast? = some c → c.ch = 0x20) (whole : word = [] → front = []) :
    rubWordChars (front ++ word ++ spaces) = front :=
  cut_word_append (fun c : TextChar => c.ch == space) (by simpa [space] using spaced) (by simpa [space] using solid)
    (by simpa [space] using edge) whole

/-- The characters that a correction leaves of a buffer's (R41, R42). -/
def corrected (word : Bool) (chars : List TextChar) : List TextChar := if word then rubWordChars chars else rubChars chars

theorem corrected_of_leaves {word : Bool} {text left : List Byte} (h : CorrectionLeaves word text left) (arrival : Stamp) :
    corrected word (text.map (fun c => ⟨c, arrival⟩)) = left.map (fun c => ⟨c, arrival⟩) := by
  cases word with
  | false =>
    obtain ⟨last, rfl⟩ := h.rub rfl
    simp [corrected, rubChars]
  | true =>
    obtain ⟨cut, spaces, rfl, spaced, solid, edge, whole⟩ := h.rubWord rfl
    rw [List.map_append, List.map_append]
    refine rubWordChars_append (by simpa using spaced) (by simpa using solid) (fun c last => ?_) (by simpa using whole)
    rw [List.getLast?_map, Option.map_eq_some_iff] at last
    obtain ⟨b, final, rfl⟩ := last
    exact edge b final

/-- The buffer that is left (R41): one without characters has no arrival tick and holds no row id, and one without its mark
holds none. -/
theorem correct_eq {word : Bool} {b : Builder} {left : List TextChar} (h : corrected word b.chars = left) :
    correct word b = if left = [] then { b with chars := [], arrival := none, heldId := none, markHeld := false }
      else { b with chars := left, markHeld := b.markHeld && decide (3 ≤ left.length) } := by
  subst h
  simp only [correct, cutTo, List.isEmpty_iff]
  rfl

/-! ### The delivery of a correction -/

theorem exec_correction {m : Moment} {w : Writer} {edges : List Nat} {s a : State} {d : Nat} {code : Byte} {word : Bool}
    (finds : Finds m s a) (codes : (code = 0x08 ∧ word = false) ∨ (code = 0x17 ∧ word = true))
    (receives : ReceivesByte a w edges d code) :
    exec (.characterAccepted m w edges) s = .next (touchPort w (takeCorrection w word
      (heard w (charNoisy edges d (writerOf a w).parity) (looking w a)))) := by
  rcases codes with ⟨rfl, rfl⟩ | ⟨rfl, rfl⟩
  · exact exec_code finds receives (by decide)
  · exact exec_code finds receives (by decide)

/-! ### A buffer that holds characters (R41, R42) -/

theorem takeCorrection_of_some {w : Writer} {s : State} (h : (builderOf s w).chars ≠ []) (word : Bool) :
    takeCorrection w word s = { s with builders := put s.builders w (correct word (builderOf s w)) } := by
  simp only [takeCorrection, List.isEmpty_iff, h, if_false]
  rfl

/-- The delivery of a correction to a buffer that holds characters. -/
theorem touchPort_correction {a : State} {w : Writer} {word : Bool} {left : List TextChar} (some : (builderOf a w).chars ≠ [])
    (leaves : corrected word (builderOf a w).chars = left) (noisy : Bool) :
    touchPort w (takeCorrection w word (heard w noisy (looking w a))) = { delivered w noisy a with
      builders := put a.builders w (if left = [] then
          { builderOf a w with chars := [], arrival := none, heldId := none, markHeld := false }
        else { builderOf a w with chars := left, markHeld := (builderOf a w).markHeld && decide (3 ≤ left.length) }) } := by
  rw [takeCorrection_of_some (s := heard w noisy (looking w a)) some, ← correct_eq leaves]
  obtain ⟨ports, la, settled, settles⟩ := touchPort_settles a w noisy
  rw [settled]
  exact settles _ rfl rfl

/-- Settles O27: either code leaves the front of the buffer. -/
theorem rubRemovesTheLastCharacter : Obligations.RubRemovesTheLastCharacter := by
  intro m w edges s a d front finds
  refine ⟨fun last receives chars => ?_, fun word spaces receives chars some spaced solid edge whole => ?_⟩
  · have leaves : corrected false (builderOf a w).chars = front := by simp [corrected, rubChars, chars]
    rw [exec_correction finds (.inl ⟨rfl, rfl⟩) receives, touchPort_correction (by simp [chars]) leaves]
    exact ⟨fun none => by rw [if_pos none], fun more => by rw [if_neg more]⟩
  · have leaves : corrected true (builderOf a w).chars = front := by
      rw [chars]
      exact rubWordChars_append spaced solid edge whole
    rw [exec_correction finds (.inr ⟨rfl, rfl⟩) receives, touchPort_correction some leaves]
    exact ⟨fun none => by rw [if_pos none], fun more => by rw [if_neg more]⟩

/-! ### The row that may be reopened (R43) -/

theorem closedBy_live {r : Row} {v : Writer} {arrival : Stamp} {reason : CloseReason} {mark : Bool}
    (live : r.source = .live v arrival reason mark) (w : Writer) : closedBy w r = (v == w) := by
  simp only [closedBy, live]

theorem eligible_of_other {w : Writer} {s : State} (role : roleOf s w ≠ .lead) : eligible w s = none := by
  rw [eligible, if_neg role]

theorem eligible_of_queue {w : Writer} {s : State} {front : List Row} {r : Row} (role : roleOf s w = .lead)
    (queue : s.queue = front ++ [r]) : eligible w s = if closedBy w r then some r else none := by
  rw [eligible, if_pos role, queue, List.getLast?_concat]

theorem eligible_of_schedule {w : Writer} {s : State} {kept : List Entry} {e : Entry} (role : roleOf s w = .lead)
    (queue : s.queue = []) (entries : s.air.entries = kept ++ [e]) :
    eligible w s = if topOwner s == some .live && closedBy w e.row && isWaiting e then some e.row else none := by
  rw [eligible, if_pos role, queue, entries, List.getLast?_nil, List.getLast?_concat]

theorem eligible_of_nothing {w : Writer} {s : State} (role : roleOf s w = .lead) (queue : s.queue = [])
    (entries : s.air.entries = []) : eligible w s = none := by
  rw [eligible, if_pos role, queue, entries, List.getLast?_nil, List.getLast?_nil]

/-! ### Reopening (R43) -/

theorem takeCorrection_reopens {w : Writer} {s : State} {r : Row} (empty : (builderOf s w).chars = [])
    (found : eligible w s = some r) (word : Bool) :
    takeCorrection w word s = onBuilder w (fun b => correct word (reopened r b)) (takeBack s) := by
  simp only [takeCorrection, List.isEmpty_iff, empty, if_true, found]

/-- A reopened row with the correction made (R41 to R43, R51). -/
theorem correct_reopened {r : Row} {w : Writer} {arrival : Stamp} {reason : CloseReason} {mark word : Bool} {left : List Byte}
    (live : r.source = .live w arrival reason mark) (leaves : CorrectionLeaves word r.text left) (b : Builder) :
    correct word (reopened r b) =
      if left = [] then { b with chars := [], arrival := none, heldId := none, markHeld := false }
      else { b with
        chars := left.map (fun c => ⟨c, arrival⟩), arrival := some arrival, heldId := some r.id
        markHeld := mark && decide (3 ≤ left.length) } := by
  have text : (reopened r b).chars = r.text.map (fun c => ⟨c, arrival⟩) := by simp only [reopened, live]
  rw [correct_eq (left := left.map (fun c => ⟨c, arrival⟩)) (text ▸ corrected_of_leaves leaves arrival)]
  simp only [reopened, live, List.map_eq_nil_iff, List.length_map]

theorem takeBack_of_queue {s : State} {front : List Row} {r : Row} (queue : s.queue = front ++ [r]) :
    takeBack s = { s with queue := front } := by
  simp [takeBack, queue]

theorem takeBack_of_schedule {s : State} {kept : List Entry} {e : Entry} (queue : s.queue = [])
    (entries : s.air.entries = kept ++ [e]) : takeBack s = { s with air := (keepEntries kept s).air } := by
  rw [takeBack, if_pos (List.isEmpty_iff.mpr queue), entries, List.dropLast_concat]
  rfl

/-- AS's record after a removal that leaves the given entries (R112, R116). -/
theorem keepEntries_air (kept : List Entry) (s : State) :
    let air := (keepEntries kept s).air
    air = { s.air with entries := kept, horizon := air.horizon, bufFree := air.bufFree, clear := air.clear } ∧
    (kept = [] → air.horizon = none) ∧ (∀ x, kept.getLast? = some x → air.horizon = some (x.stagedBy + 1)) ∧
    (∀ b : BufferNo, get air.bufFree b = match kept.reverse.find? (fun x => x.buffer == b) with
      | some x => some (x.showAt + 1)
      | none => (s.out.mirror.reverse.find? (fun r => r.buffer == b && !r.past)).map (fun r => r.showAt + 1)) ∧
    (kept ≠ [] → air.clear = s.air.clear) ∧
    (kept = [] → air.clear = match s.out.mirror.getLast? with
      | none => none
      | some r =>
        if s.settings.linger = 0 then none
        else if r.past then some s.tb.frame
        else some (r.showAt + BitVec.ofNat 28 (max s.settings.linger r.hold))) := by
  refine ⟨rfl, fun none => ?_, fun x last => ?_, fun b => ?_, fun some => ?_, fun none => ?_⟩
  · simp [keepEntries, none]
  · simp only [keepEntries, last]
    rfl
  · simp only [keepEntries, get_ofFn, bufferAfterRemoval]
    cases kept.reverse.find? (fun x => x.buffer == b) with
    | some x => rfl
    | none => cases s.out.mirror.reverse.find? (fun r => r.buffer == b && !r.past) <;> rfl
  · simp [keepEntries, clearAfterRemoval, some]
  · simp only [keepEntries, clearAfterRemoval, pendingClearFrame, none, List.isEmpty_nil, if_true]
    cases s.out.mirror.getLast? <;> rfl

/-! ### Refusals (R44) -/

/-- A refused correction is counted. -/
def refusalCounted (w : Writer) (s : State) : State :=
  { s with counters := change s.counters w (fun c => { c with refused := c.refused + 1 }) }

theorem takeCorrection_refuses {w : Writer} {s : State} (empty : (builderOf s w).chars = []) (none : eligible w s = none)
    (word : Bool) : takeCorrection w word s = if roleOf s w = .lead
      then noted (.correctionRefused w word (refuseReason w s)) [] (refusalCounted w s) else refusalCounted w s := by
  simp only [takeCorrection, List.isEmpty_iff, empty, if_true, none, refuse, journal_noted]
  rfl

/-- The delivery of a correction of the lead that is refused for a reason. -/
theorem touchPort_refusal {a : State} {w : Writer} (empty : (builderOf a w).chars = []) (role : roleOf a w = .lead)
    (none : eligible w a = none) {reason : RefuseReason} (why : refuseReason w a = reason) (word noisy : Bool) :
    touchPort w (takeCorrection w word (heard w noisy (looking w a))) =
      noted (.correctionRefused w word reason) [] (refusalCounted w (delivered w noisy a)) := by
  let u := heard w noisy (looking w a)
  have refused := takeCorrection_refuses (s := u) empty none word
  rw [if_pos (by exact role), show refuseReason w u = reason from why] at refused
  have line : (noted (.correctionRefused w word reason) [] (refusalCounted w u)).ports = u.ports := by
    unfold noted
    split <;> rfl
  obtain ⟨ports, la, settled, settles⟩ := touchPort_settles a w noisy
  rw [refused, settled, settles _ line (noted_la_same ..), noted_line]
  rfl

theorem refuseReason_of_queue {s : State} {front : List Row} {r : Row} (queue : s.queue = front ++ [r]) (w : Writer) :
    refuseReason w s = .otherWriter := by
  rw [refuseReason, queue, List.getLast?_concat]

theorem refuseReason_of_schedule {s : State} {kept : List Entry} {e : Entry} (queue : s.queue = [])
    (entries : s.air.entries = kept ++ [e]) (w : Writer) : refuseReason w s =
      if isLiveRow e.row && !closedBy w e.row then .otherWriter
      else if closedBy w e.row && !isWaiting e then .onAirPath else .notLive := by
  rw [refuseReason, queue, entries, List.getLast?_nil, List.getLast?_concat]

theorem refuseReason_of_nothing {s : State} (queue : s.queue = []) (entries : s.air.entries = []) (w : Writer) :
    refuseReason w s = if topOwner s = some .live then .none else .notLive := by
  rw [refuseReason, queue, entries, List.getLast?_nil, List.getLast?_nil]
  simp only [beq_iff_eq]

/-! ### A correction on an empty buffer, by where the newest row stands (R43, R44) -/

section
variable {m : Moment} {w : Writer} {edges : List Nat} {s a : State} {d : Nat} {code : Byte} {word : Bool}

/-- The row at the tail of the live queue. -/
theorem correction_of_queue (empty : (builderOf a w).chars = []) (role : roleOf a w = .lead) {front : List Row} {r : Row}
    (queue : a.queue = front ++ [r]) {v : Writer} {arrival : Stamp} {reason : CloseReason} {mark : Bool}
    (live : r.source = .live v arrival reason mark) (noisy : Bool) :
    let t := touchPort w (takeCorrection w word (heard w noisy (looking w a)))
    (v ≠ w → t = noted (.correctionRefused w word .otherWriter) [] (refusalCounted w (delivered w noisy a))) ∧
    ∀ left, v = w → CorrectionLeaves word r.text left → t = { delivered w noisy a with
      queue := front
      builders := put a.builders w (if left = [] then
          { builderOf a w with chars := [], arrival := none, heldId := none, markHeld := false }
        else { builderOf a w with
          chars := left.map (fun c => ⟨c, arrival⟩), arrival := some arrival, heldId := some r.id
          markHeld := mark && decide (3 ≤ left.length) }) } := by
  have found := eligible_of_queue role queue
  rw [closedBy_live live] at found
  refine ⟨fun other => ?_, fun left own leaves => ?_⟩
  · exact touchPort_refusal empty role (by rw [found, if_neg (by simpa using other)]) (refuseReason_of_queue queue w) ..
  · rw [if_pos (by simpa using own)] at found
    rw [takeCorrection_reopens (s := heard w noisy (looking w a)) empty found,
      takeBack_of_queue (s := heard w noisy (looking w a)) queue, ← correct_reopened live leaves]
    obtain ⟨ports, la, settled, settles⟩ := touchPort_settles a w noisy
    rw [settled]
    exact settles _ rfl rfl

/-- The last entry of the schedule, with the live queue empty: why a correction is refused there. -/
theorem correction_of_schedule_refused (empty : (builderOf a w).chars = []) (role : roleOf a w = .lead) (queue : a.queue = [])
    {kept : List Entry} {e : Entry} (entries : a.air.entries = kept ++ [e])
    (held : ¬(topOwner a = some .live ∧ closedBy w e.row = true ∧ e.sent = 0)) (noisy : Bool) :
    touchPort w (takeCorrection w word (heard w noisy (looking w a))) =
      noted (.correctionRefused w word (if isLiveRow e.row && !closedBy w e.row then .otherWriter
        else if closedBy w e.row && !isWaiting e then .onAirPath else .notLive)) []
        (refusalCounted w (delivered w noisy a)) := by
  refine touchPort_refusal empty role ?_ (refuseReason_of_schedule queue entries w) ..
  rw [eligible_of_schedule role queue entries, if_neg]
  simpa [isWaiting, and_assoc] using held

/-- The last entry of the schedule, taken back. -/
theorem correction_of_schedule (empty : (builderOf a w).chars = []) (role : roleOf a w = .lead) (queue : a.queue = [])
    {kept : List Entry} {e : Entry} (entries : a.air.entries = kept ++ [e]) {arrival : Stamp} {reason : CloseReason}
    {mark : Bool} (live : e.row.source = .live w arrival reason mark) (waits : e.sent = 0)
    (top : topOwner a = some .live) {left : List Byte} (leaves : CorrectionLeaves word e.row.text left) (noisy : Bool) :
    touchPort w (takeCorrection w word (heard w noisy (looking w a))) = { delivered w noisy a with
      air := (keepEntries kept a).air
      builders := put a.builders w (if left = [] then
          { builderOf a w with chars := [], arrival := none, heldId := none, markHeld := false }
        else { builderOf a w with
          chars := left.map (fun c => ⟨c, arrival⟩), arrival := some arrival, heldId := some e.row.id
          markHeld := mark && decide (3 ≤ left.length) }) } := by
  have found := eligible_of_schedule role queue entries
  rw [closedBy_live live, if_pos (by simp [isWaiting, top, waits])] at found
  have air : (keepEntries kept (heard w noisy (looking w a))).air = (keepEntries kept a).air := by
    simp only [keepEntries, clearAfterRemoval, pendingClearFrame]
    rfl
  rw [takeCorrection_reopens (s := heard w noisy (looking w a)) empty found,
    takeBack_of_schedule (s := heard w noisy (looking w a)) queue entries, air, ← correct_reopened live leaves]
  obtain ⟨ports, la, settled, settles⟩ := touchPort_settles a w noisy
  rw [settled]
  exact settles _ rfl rfl

end

/-- Settles O28, by the newest row's place: the live queue, the schedule, or neither. -/
theorem rubReopensOrIsRefused : Obligations.RubReopensOrIsRefused := by
  intro m w edges s a d code word finds codes receives empty
  rw [exec_correction finds codes receives]
  generalize charNoisy edges d (writerOf a w).parity = noisy
  refine ⟨fun other => ?_, fun role front r queue => ⟨fun arrival reason mark left live leaves => ?_,
    fun v arrival reason mark live other => ?_⟩, fun role queue kept e entries =>
      ⟨fun n pos start offset hold fresh clamped cue => ?_, fun v arrival reason mark live => ?_⟩,
    fun role queue entries => ?_⟩
  · rw [takeCorrection_refuses (s := heard w noisy (looking w a)) empty (eligible_of_other other), if_neg (by exact other)]
    obtain ⟨ports, la, settled, settles⟩ := touchPort_settles a w noisy
    rw [settled]
    exact congrArg _ (settles _ rfl rfl)
  · exact congrArg _ ((correction_of_queue empty role queue live noisy).2 left rfl leaves)
  · exact congrArg _ ((correction_of_queue empty role queue live noisy).1 other)
  · have another : closedBy w e.row = false := by simp only [closedBy, cue]
    rw [correction_of_schedule_refused empty role queue entries (by simp [another])]
    simp only [another, isLiveRow, cue]
    rfl
  · have isLive : isLiveRow e.row = true := by simp only [isLiveRow, live]
    have whose := closedBy_live live w
    refine ⟨fun other => ?_, fun own sent => ?_, fun own waits top => ?_, fun left own waits top leaves => ?_⟩
    · have another : closedBy w e.row = false := by simpa [whose] using other
      rw [correction_of_schedule_refused empty role queue entries (by simp [another])]
      simp only [isLive, another]
      rfl
    · have mine : closedBy w e.row = true := by simpa [whose] using own
      have started : isWaiting e = false := by simpa [isWaiting] using Nat.ne_of_gt sent
      rw [correction_of_schedule_refused empty role queue entries (by omega)]
      simp only [isLive, mine, started]
      rfl
    · have mine : closedBy w e.row = true := by simpa [whose] using own
      rw [correction_of_schedule_refused empty role queue entries (by simp [top])]
      simp only [isLive, mine, isWaiting, waits]
      rfl
    · subst own
      refine ⟨_, rfl, ?_⟩
      rw [correction_of_schedule empty role queue entries live waits top leaves]
      exact ⟨rfl, keepEntries_air kept a⟩
  · exact congrArg _ (touchPort_refusal empty role (eligible_of_nothing role queue entries)
      (refuseReason_of_nothing queue entries w) word noisy)

end Sys2Proof.Machine
end

