-- ==== Sys2Proof/Proofs/Switches.lean ====
section
/-! The switch of the lead as a whole (R89), and the two ends of a handoff that a delivery brings about: GIVE (R86) and the
lead's own close of its buffer (R87). -/

namespace Sys2Proof.Machine

/-! ### A switch from a lead (R89) -/

theorem closeRow_work (w : Writer) (reason : CloseReason) (s : State) : (closeRow w reason s).1.work = s.work := by
  by_cases empty : (builderOf s w).chars = []
  · rw [closeRow_of_empty empty]
  · by_cases role : roleOf s w = .lead
    · rw [closeRow_of_lead empty role]
      exact ((joinTail_local (rowOf w reason s) (rowLeaves w s)).trans (feedAttempt_local _)).work
    · rw [closeRow_of_other empty role]

/-- The close empties the buffer and leaves the other writers'. -/
theorem closeRow_empties (w : Writer) (reason : CloseReason) (s : State) :
    (builderOf (closeRow w reason s).1 w).chars = [] ∧
    ∀ v, v ≠ w → builderOf (closeRow w reason s).1 v = builderOf s v := by
  by_cases empty : (builderOf s w).chars = []
  · rw [closeRow_of_empty empty]
    exact ⟨empty, fun _ _ => rfl⟩
  · have built := closeRow_builders empty reason
    refine ⟨?_, fun v other => ?_⟩
    · rw [builderOf, built, get_put_same]
      rfl
    · rw [builderOf, built, get_put_other _ _ (Ne.symm other)]
      rfl

/-- The state after the outgoing lead's close, with the roles changed and the change on record (R89 steps 1 to 5). -/
def leadChanged (outgoing w : Writer) (reason : LeadReason) (s : State) : State :=
  raise .lead (journal (.leadChange (some outgoing) (some w) reason (framesWaited s))
    { (closeRow outgoing .handoff s).1 with la := switched s.la outgoing w })

section
variable {s : State} {outgoing : Writer} (lead : s.la.lead = some outgoing) (w : Writer) (reason : LeadReason)

include lead in
theorem switchLead_of_lead : switchLead w reason s = silenceTest (feedAttempt (leadChanged outgoing w reason s)) := by
  simp only [switchLead, lead]
  rw [(closeRow_leaves ..).1]
  rfl

theorem leadChanged_local : Local { (closeRow outgoing .handoff s).1 with la := switched s.la outgoing w }
    (leadChanged outgoing w reason s) :=
  (journal_local ..).trans (raise_local ..)

include lead in
/-- What the switch leaves for the feed attempt and the silence test to do. -/
theorem switchLead_builders : (switchLead w reason s).builders = (closeRow outgoing .handoff s).1.builders := by
  obtain ⟨b, e⟩ := silenceTest_eq (feedAttempt (leadChanged outgoing w reason s))
  rw [switchLead_of_lead lead, e]
  exact ((leadChanged_local w reason).trans (feedAttempt_local _)).builders

include lead in
theorem switchLead_work :
    (switchLead w reason s).work = { s.work with silence := (switchLead w reason s).work.silence } := by
  obtain ⟨b, e⟩ := silenceTest_eq (feedAttempt (leadChanged outgoing w reason s))
  rw [switchLead_of_lead lead, e]
  have kept := ((leadChanged_local (s := s) (outgoing := outgoing) w reason).trans (feedAttempt_local _)).work
  rw [show _ = s.work from kept.trans (closeRow_work ..)]

end

/-- A silence test raises the mark of the SILENT_LEAD step exactly where the lead is silent (R91). -/
theorem silenceTest_tests (s : State) : SilenceTested s (silenceTest s) := by
  unfold silenceTest
  split
  · rename_i silent
    have quiet : Silent { s with work := { s.work with silence := true } } := (leadSilent_iff _).mp silent
    exact iff_of_true rfl (.inr quiet)
  · rename_i sounds
    rw [leadSilent_iff] at sounds
    exact (or_iff_left sounds).symm

/-- What a change of lead leaves, as the statements about it put it. -/
theorem SteadyFrame.display {s t : State} (h : SteadyFrame s t)
    (work : t.work = { s.work with silence := t.work.silence }) :
    DisplayFrame { s with
      la := t.la, builders := t.builders, work := { s.work with silence := t.work.silence } } t where
  tb := h.tb
  ports := h.ports
  builders := rfl
  capture := h.capture
  onsets := h.onsets
  lastOnset := h.lastOnset
  est := h.est
  la := rfl
  mem := h.mem
  pending := h.pending
  clock := h.clock
  lines := h.lines
  resetLow := h.resetLow
  work := work
  control := h.control
  settings := h.settings
  engine := h.engine
  records := ⟨h.records.buffer, h.records.full, h.records.flags⟩
  out := h.out

/-- A switch from a lead (R89). -/
theorem switchLead_leadSwitched {s : State} {outgoing : Writer} (lead : s.la.lead = some outgoing) (w : Writer)
    (reason : LeadReason) : LeadSwitched s (switchLead w reason s) outgoing w reason (framesWaited s) := by
  obtain ⟨la, flag, _⟩ := switchLead_switches lead w reason
  obtain ⟨closed, others⟩ := closeRow_empties outgoing .handoff s
  have builders := switchLead_builders lead w reason
  refine ⟨la, ?_, fun v other => ?_, flag, fun empty => ?_, ?_,
    (switchLead_steady ..).display (switchLead_work lead w reason)⟩
  · rw [builderOf, builders]
    exact closed
  · rw [builderOf, builders]
    exact others v other
  · have kept : RecordsKept (journal (.leadChange (some outgoing) (some w) reason (framesWaited s))
        { s with la := switched s.la outgoing w }) (switchLead w reason s) := by
      rw [switchLead_of_lead lead, leadChanged, closeRow_of_empty empty]
      exact ((raise_records ..).trans (feedAttempt_local _).records).trans (silenceTest_steady _).records
    exact journaled_of_kept (s := { s with la := switched s.la outgoing w }) kept
  · have work : (feedAttempt (leadChanged outgoing w reason s)).work = s.work :=
      ((leadChanged_local w reason).trans (feedAttempt_local _)).work.trans (closeRow_work ..)
    rw [switchLead_of_lead lead, SilenceTested, ← work]
    exact silenceTest_tests _

theorem journal_nextRowId (r : Record) (s : State) : (journal r s).nextRowId = s.nextRowId := by
  rw [(journal_resumed r 0 s).same]

/-- With the live stream not on top the switch moves no row, where the outgoing writer's buffer is empty (R48). -/
theorem switchLead_queue {s : State} {outgoing : Writer} (lead : s.la.lead = some outgoing) (w : Writer)
    (reason : LeadReason) (empty : (builderOf s outgoing).chars = []) (top : topOwner s ≠ some .live) :
    (switchLead w reason s).queue = s.queue ∧ (switchLead w reason s).nextRowId = s.nextRowId := by
  obtain ⟨b, e⟩ := silenceTest_eq (feedAttempt (leadChanged outgoing w reason s))
  have changed : leadChanged outgoing w reason s = raise .lead (journal
      (.leadChange (some outgoing) (some w) reason (framesWaited s)) { s with la := switched s.la outgoing w }) := by
    rw [leadChanged, closeRow_of_empty empty]
  have top' : topOwner (leadChanged outgoing w reason s) ≠ some .live := by
    rw [topOwner, changed, raise_disp, journal_disp]
    exact top
  rw [switchLead_of_lead lead, e, feedAttempt_of_nothing (.inr (.inl top')), changed]
  exact ⟨journal_queue .., journal_nextRowId ..⟩

/-! ### What follows a switch in a delivery (R31) -/

/-- A silence test reads the port of the lead alone (R91). -/
theorem leadSilent_setPorts {s : State} {lead : Writer} (h : s.la.lead = some lead) {ports : Vector Port 4}
    (same : get ports lead = portOf s lead) : leadSilent { s with ports := ports } = leadSilent s := by
  simp only [leadSilent, h]
  rw [portOf, same]
  rfl

/-- The port of a writer who is not the new lead, and what LA's record has beside the roles, have no part in a switch. -/
theorem LeadSwitched.onLine {s t : State} {outgoing incoming : Writer} {reason : LeadReason} {waited : Nat}
    (h : LeadSwitched s t outgoing incoming reason waited) {ports : Vector Port 4}
    (same : get ports incoming = portOf t incoming) {la : Arbiter} (roles : la.roles = s.la.roles) :
    LeadSwitched { s with ports := ports, la := la } { t with ports := ports } outgoing incoming reason waited where
  la := by rw [h.la, switched, ← roles]; rfl
  closed := h.closed
  others := h.others
  flag := h.flag
  record := h.record
  tested := by
    have lead : t.la.lead = some incoming := by rw [h.la]; rfl
    have silent : Silent { t with ports := ports } ↔ Silent t := by
      rw [← leadSilent_iff, ← leadSilent_iff, leadSilent_setPorts lead same]
    exact h.tested.trans (or_congr_right silent.symm)
  frame := { h.frame with
    ports := rfl
    records := ⟨h.frame.records.buffer, h.frame.records.full, h.frame.records.flags⟩ }

/-- What follows in the delivery for a writer who leads no more sets that writer's port alone. -/
theorem touchPort_of_notLead {w : Writer} {t : State} (h : t.la.lead ≠ some w) : touchPort w t = { t with
    ports := put t.ports w { portOf t w with pauseCount := 0, pauseArmed := true, silence := 0 } } := by
  rw [touchPort_eq, if_neg h]

/-- A switch from writer w, whose delivery it is, to another. -/
theorem LeadSwitched.touched {s t : State} {w incoming : Writer} {reason : LeadReason} {waited : Nat}
    (h : LeadSwitched s t w incoming reason waited) (other : incoming ≠ w) :
    LeadSwitched (touchPort w s) (touchPort w t) w incoming reason waited := by
  have lead : t.la.lead ≠ some w := by
    rw [h.la]
    exact fun e => other (Option.some.inj e)
  have ports : t.ports = s.ports := h.frame.ports
  have near : get (touchPort w t).ports incoming = portOf t incoming := by
    rw [touchPort_of_notLead lead]
    exact get_put_other _ _ (Ne.symm other)
  have touched : touchPort w t = { t with ports := (touchPort w s).ports } := by
    rw [touchPort_of_notLead lead, touchPort_eq, portOf, ports]
    rfl
  rw [touched] at near ⊢
  rw [touchPort_alike (s := s) (t := s) rfl rfl w]
  exact h.onLine near (by rw [touchPort_eq])

/-! ### The two ends of a handoff (R86, R87) -/

/-- GIVE from the lead passes the lead to the taker (R86). -/
theorem takeGive_of_taker {w : Writer} {s : State} {h : Handoff} (lead : s.la.lead = some w)
    (handoff : s.la.handoff = some h) : takeGive w s = switchLead h.taker .give s := by
  simp only [takeGive, lead, handoff, if_true]

theorem completeHandoff_reported {s : State} {h : Handoff} (handoff : s.la.handoff = some h) :
    completeHandoff true s = switchLead h.taker .take s := by
  simp only [completeHandoff, handoff, if_true]

theorem framesWaited_of_handoff {s : State} {h : Handoff} (handoff : s.la.handoff = some h) : framesWaited s = h.waited := by
  rw [framesWaited, handoff]
  rfl

/-- The close of the lead's buffer that passes the lead on: t is what is left of u, the
state before the close, but for the row that is closed (R38, R87, R89, R91). -/
structure LeadPassedOn (u t : State) (w taker : Writer) : Prop where
  la : t.la = switched u.la w taker
  tested : SilenceTested u t
  flag : flagSet .lead t = true
  frame : DisplayFrame { u with
    la := t.la, builders := t.builders, work := { u.work with silence := t.work.silence } } t

/-- A switch after a close. -/
theorem LeadPassedOn.of_switched {u c t : State} {w taker : Writer} {waited : Nat} (same : SteadyFrame u c)
    (la : c.la.roles = u.la.roles)
    (work : c.work = u.work) (h : LeadSwitched c t w taker .take waited) (steady : SteadyFrame c t) :
    LeadPassedOn u t w taker where
  la := by rw [h.la, switched, la, switched]
  tested := by rw [SilenceTested, ← work]; exact h.tested
  flag := h.flag
  frame := (same.trans steady).display (by rw [← work]; exact h.frame.work)

/-- What follows in a delivery sets the same port alike on both sides. -/
theorem SteadyFrame.touched {s t : State} (h : SteadyFrame s t) (w : Writer) :
    SteadyFrame (touchPort w s) (touchPort w t) := by
  rw [touchPort_eq, touchPort_eq]
  exact { h with
    ports := by rw [portOf, portOf, h.ports]
    records := ⟨h.records.buffer, h.records.full, h.records.flags⟩
    unreported := h.unreported }

/-- A close of the lead's buffer with a handoff pending, and what follows in the delivery: c has lost the row, and the lead
is passed on from there. -/
theorem heard_passesOn {a c : State} {w : Writer} {h : Handoff} (lead : a.la.lead = some w) (handoff : a.la.handoff = some h)
    (other : h.taker ≠ w) (noisy : Bool) (closes : SteadyFrame (heard w noisy (looking w a)) c)
    (la : c.la = (heard w noisy (looking w a)).la) (work : c.work = a.work) :
    LeadPassedOn (delivered w noisy a) (touchPort w (completeHandoff true c)) w h.taker ∧
    LeadSwitched (touchPort w c) (touchPort w (completeHandoff true c)) w h.taker .take h.waited := by
  have lead' : c.la.lead = some w := by rw [la]; exact lead
  have handoff' : c.la.handoff = some h := by rw [la]; exact handoff
  have switched := (switchLead_leadSwitched lead' h.taker .take).touched other
  rw [framesWaited_of_handoff handoff'] at switched
  rw [completeHandoff_reported handoff', ← touchPort_heard]
  refine ⟨.of_switched (closes.touched w) ?_ ?_ switched ((switchLead_steady ..).touched w), switched⟩
  · rw [touchPort_eq, touchPort_eq, la]
  · rw [touchPort_eq, touchPort_eq, work]
    rfl

theorem rowLeaves_nextRowId (w : Writer) (s : State) : (rowLeaves w s).nextRowId =
    if (builderOf s w).heldId.isSome then s.nextRowId else s.nextRowId + 1 := rfl

/-- Which record is the first depends on the journal buffer alone. -/
theorem Journaled.of_buffer {s u t : State} {f : Frame} {r : Record} (h : Journaled s t f r)
    (buffer : s.pe.buffer = u.pe.buffer) : Journaled u t f r := by
  rw [Journaled, buffer] at h
  exact h

/-- Settles O30: GIVE switches the lead, and the ROW code closes the lead's row, which reports to the pending handoff. -/
theorem giveAndRowCodeCompleteAHandoff : Obligations.GiveAndRowCodeCompleteAHandoff := by
  intro m w edges s a d h finds lead handoff other
  refine ⟨fun receives => ?_, fun receives role nonempty => ?_⟩
  all_goals
    rw [exec_code finds receives (by decide)]
    generalize charNoisy edges d (writerOf a w).parity = noisy
    let v := heard w noisy (looking w a)
  · have lead' : v.la.lead = some w := lead
    have handoff' : v.la.handoff = some h := handoff
    refine ⟨_, rfl, ?_⟩
    have gives : handOn w (classify 0x12) 0x12 (stampNow (looking w a)) v = switchLead h.taker .give v :=
      takeGive_of_taker lead' handoff'
    have switched := (switchLead_leadSwitched lead' h.taker .give).touched other
    rw [framesWaited_of_handoff handoff', touchPort_heard] at switched
    rw [gives]
    exact switched
  · let c := (closeRow w .rowCode v).1
    have reported : (closeRow w .rowCode v).2 = true := by rw [closeRow_of_lead (s := v) nonempty role]
    have closes : handOn w (classify 0x0D) 0x0D (stampNow (looking w a)) v = completeHandoff true c := by
      rw [← reported]
      rfl
    obtain ⟨passed, switched⟩ := heard_passesOn lead handoff other noisy (closeRow_steady w .rowCode v)
      (closeRow_leaves ..).1 (closeRow_work ..)
    have built : c.builders = put a.builders w (emptied (builderOf a w)) := closeRow_builders (s := v) nonempty .rowCode
    have lead' : c.la.lead = some w := by rw [(closeRow_leaves ..).1]; exact lead
    have handoff' : c.la.handoff = some h := by rw [(closeRow_leaves ..).1]; exact handoff
    have empty : (builderOf c w).chars = [] := by
      rw [builderOf, built, get_put_same]
      rfl
    have completed : (completeHandoff true c) = switchLead h.taker .take c := completeHandoff_reported handoff'
    have touched : touchPort w (switchLead h.taker .take c) = _ := touchPort_eq ..
    rw [closes]
    refine ⟨_, rfl, passed.la, passed.tested, ?_, passed.flag, passed.frame, fun top room => ?_⟩
    · have left := switchLead_builders lead' h.taker .take
      rw [closeRow_of_empty empty] at left
      rw [completed, touched]
      exact left.trans built
    · have waits : c = { rowLeaves w v with queue := v.queue ++ [rowOf w .rowCode v] } :=
        congrArg Prod.fst (closeRow_waits (s := v) nonempty role top room .rowCode)
      have disp : c.disp = a.disp := closeRow_disp ..
      have top' : topOwner c ≠ .some .live := by rw [topOwner, disp]; exact top
      obtain ⟨queue, nextRowId⟩ := switchLead_queue lead' h.taker .take empty top'
      have held : builderOf v w = builderOf a w := rfl
      have next : v.nextRowId = a.nextRowId := rfl
      have pe : (touchPort w c).pe = a.pe := by rw [touchPort_eq, waits]; rfl
      have frame : (touchPort w c).tb.frame = a.tb.frame := by rw [touchPort_eq, waits]; rfl
      have first := switched.record (by rw [touchPort_eq]; exact empty)
      rw [frame] at first
      refine ⟨first.of_buffer (congrArg PageEngine.buffer pe), rowOf w .rowCode v, closedRow_closedAs .., ?_, ?_⟩
      · rw [completed, touched]
        exact queue.trans (congrArg State.queue waits)
      · rw [completed, touched]
        refine nextRowId.trans ?_
        rw [waits, ← held, ← next]
        exact rowLeaves_nextRowId w v

end Sys2Proof.Machine
end

