-- ==== Sys2Proof/Proofs/Wraps.lean ====
section
/-! The wrap of a full buffer (R36, R37): where it is cut, what is closed and what is carried, and the close as it reaches the
live queue, the schedule (R38, R48) or a pending handoff (R87). -/

namespace Sys2Proof.Machine

/-! ### What dropped rows leave of the counters (R47, R108) -/

/-- The counters of s but for those of the rows dropped. -/
structure DropsAlone (s t : State) : Prop where
  counters : ∀ w, get t.counters w = { get s.counters w with rowsDropped := (get t.counters w).rowsDropped }

namespace DropsAlone

theorem of_eq {s t : State} (h : t.counters = s.counters) : DropsAlone s t :=
  ⟨fun w => by rw [h]⟩

theorem trans {s t u : State} (h : DropsAlone s t) (g : DropsAlone t u) : DropsAlone s u where
  counters w := by
    have e := g.counters w
    rw [h.counters w] at e
    exact e

theorem rowsClosed {s t : State} (h : DropsAlone s t) (w : Writer) :
    (get t.counters w).rowsClosed = (get s.counters w).rowsClosed := by rw [h.counters w]

theorem rowsShown {s t : State} (h : DropsAlone s t) (w : Writer) :
    (get t.counters w).rowsShown = (get s.counters w).rowsShown := by rw [h.counters w]

end DropsAlone

theorem journal_dropsAlone (r : Record) (s : State) : DropsAlone s (journal r s) :=
  .of_eq (by unfold journal; split <;> rfl)

theorem countDropped_dropsAlone (r : Row) (s : State) : DropsAlone s (countDropped r s) := by
  refine ⟨fun w => ?_⟩
  unfold countDropped
  split
  · rw [count, get_change]
    split
    · rename_i same
      rw [same]
    · rfl
  · rfl

theorem queue_dropsAlone (s : State) (q : List Row) : DropsAlone s { s with queue := q } := .of_eq rfl

theorem overflowDrop_dropsAlone (r : Row) (s : State) : DropsAlone s (overflowDrop r s) :=
  (countDropped_dropsAlone ..).trans (journal_dropsAlone ..)

theorem offerRow_dropsAlone (r : Row) (s : State) : DropsAlone s (offerRow r s).1 := by
  unfold offerRow
  dsimp only
  split
  · exact (countDropped_dropsAlone ..).trans (journal_dropsAlone ..)
  · exact .of_eq rfl

theorem feedRows_dropsAlone (n : Nat) (s : State) : DropsAlone s (feedRows n s) := by
  induction n generalizing s with
  | zero => exact .of_eq rfl
  | succ n ih =>
    unfold feedRows
    split
    · split
      · exact ((queue_dropsAlone s _).trans (offerRow_dropsAlone ..)).trans (ih _)
      · exact .of_eq rfl
    · exact .of_eq rfl

theorem feedAttempt_dropsAlone (s : State) : DropsAlone s (feedAttempt s) := feedRows_dropsAlone ..

theorem joinTail_dropsAlone (r : Row) (s : State) : DropsAlone s (joinTail r s) := by
  unfold joinTail
  split
  · split
    · exact (queue_dropsAlone s _).trans (overflowDrop_dropsAlone ..)
    · exact queue_dropsAlone ..
  · exact queue_dropsAlone ..

/-! ### A close, whoever's buffer it is (R38) -/

theorem closeRow_rowsClosed {w : Writer} {s : State} (h : (builderOf s w).chars ≠ []) (reason : CloseReason) :
    (get (closeRow w reason s).1.counters w).rowsClosed = (get s.counters w).rowsClosed + 1 := by
  by_cases role : roleOf s w = .lead
  · have counted : (get (rowLeaves w s).counters w).rowsClosed = (get s.counters w).rowsClosed + 1 := by
      rw [rowLeaves, get_change, if_pos rfl]
    rw [closeRow_of_lead h role, ← counted]
    exact ((joinTail_dropsAlone ..).trans (feedAttempt_dropsAlone _)).rowsClosed w
  · rw [closeRow_of_other h role, get_change, if_pos rfl]

theorem joinTail_nextRowId (r : Row) (s : State) : (joinTail r s).nextRowId = s.nextRowId := by
  unfold joinTail
  split
  · split
    · exact (overflowDrop_rowsKept ..).nextRowId
    · rfl
  · rfl

theorem closeRow_nextRowId {w : Writer} {s : State} (h : (builderOf s w).chars ≠ []) (role : roleOf s w = .lead)
    (reason : CloseReason) : (closeRow w reason s).1.nextRowId =
      if (builderOf s w).heldId.isSome then s.nextRowId else s.nextRowId + 1 := by
  rw [closeRow_of_lead h role, ← rowLeaves_nextRowId]
  exact (feedAttempt_rowsKept _).nextRowId.trans (joinTail_nextRowId ..)

/-! ### Where a full buffer is cut (R36) -/

/-- The last of the numbers below n that a test accepts. -/
theorem getLast?_filter_range {p : Nat → Bool} {n i : Nat} (below : i < n) (accepted : p i = true)
    (later : ∀ j, i < j → j < n → p j = false) : ((List.range n).filter p).getLast? = some i := by
  induction n with
  | zero => omega
  | succ n ih =>
    rw [List.range_succ, List.filter_append]
    by_cases last : i = n
    · rw [List.filter_singleton, ← last, accepted]
      simp
    · rw [List.filter_singleton, later n (by omega) (by omega)]
      simpa using ih (by omega) fun j after less => later j after (by omega)

/-- The characters that a wrap may be made at. -/
def usableAt (b : Builder) (i : Nat) : Bool := (b.chars[i]?.map TextChar.ch) == some space && !(b.markHeld && i == 2)

theorem lastUsableSpace_eq (b : Builder) :
    lastUsableSpace b = ((List.range b.chars.length).filter (usableAt b)).getLast? := rfl

theorem usableAt_eq_false {b : Builder} {i : Nat}
    (h : ∀ c, b.chars[i]? = some c → c.ch = 0x20 → b.markHeld = true ∧ i = 2) : usableAt b i = false := by
  unfold usableAt
  cases found : b.chars[i]? with
  | none => rfl
  | some c =>
    by_cases spaced : c.ch = 0x20
    · obtain ⟨held, third⟩ := h c found spaced
      simp [held, third]
    · simp [space, show ¬c.ch = 0x20#8 from spaced]

theorem lastUsableSpace_at {b : Builder} {before after : List TextChar} {sp : TextChar}
    (cut : b.chars = before ++ sp :: after) (spaced : sp.ch = 0x20) (usable : ¬(b.markHeld = true ∧ before.length = 2))
    (later : ∀ i c, before.length < i → b.chars[i]? = some c → c.ch = 0x20 → b.markHeld = true ∧ i = 2) :
    lastUsableSpace b = some before.length := by
  rw [lastUsableSpace_eq]
  refine getLast?_filter_range ?_ ?_ fun i after _ => usableAt_eq_false fun c => later i c after
  · rw [cut]
    simp
  · have found : b.chars[before.length]? = some sp := by simp [cut]
    have solid : b.markHeld = false ∨ before.length ≠ 2 := by simpa [Decidable.imp_iff_not_or] using usable
    simpa [usableAt, found, space, show sp.ch = 0x20#8 from spaced] using solid

theorem lastUsableSpace_none {b : Builder}
    (none : ∀ (i : Nat) (c : TextChar), b.chars[i]? = some c → c.ch = 0x20 → b.markHeld = true ∧ i = 2) :
    lastUsableSpace b = .none := by
  rw [lastUsableSpace_eq, List.getLast?_eq_none_iff, List.filter_eq_nil_iff]
  intro i _
  rw [usableAt_eq_false (none i)]
  exact Bool.false_ne_true

/-! ### A text character that finds the buffer full (R36, R37) -/

/-- The buffer of w is cut down to the given one and closed, and then holds another: the state behind the row builder, and
whether a lead's close is reported. -/
def wrapped (w : Writer) (closed next : Builder) (s : State) : State × Bool :=
  let r := closeRow w .wrap { s with builders := put s.builders w closed }
  ({ r.1 with builders := put s.builders w next }, r.2)

/-- A function of the builder that the close leaves gives the next one. -/
theorem onBuilder_closeRow {w : Writer} {s : State} {closed : Builder} (some : closed.chars ≠ []) (f : Builder → Builder) :
    let r := closeRow w .wrap { s with builders := put s.builders w closed }
    (onBuilder w f r.1, r.2) = wrapped w closed (f (emptied closed)) s := by
  have held : builderOf { s with builders := put s.builders w closed } w = closed := get_put_same ..
  have built := closeRow_builders (s := { s with builders := put s.builders w closed }) (held ▸ some) .wrap
  rw [held] at built
  simp only [onBuilder, change, built, put_put_same, get_put_same, wrapped]

theorem takeText_breaks {w : Writer} {s : State} {ch : Byte} (full : s.settings.rowWidth ≤ (builderOf s w).chars.length)
    (some : (builderOf s w).chars ≠ []) (h : lastUsableSpace (builderOf s w) = none ∨ ch = space) (stamp : Stamp) :
    takeText w ch stamp s =
      wrapped w (builderOf s w) (placeAfterBreak ch stamp (emptied (builderOf s w))) s := by
  have whole : { s with builders := put s.builders w (builderOf s w) } = s := by rw [builderOf, put_get_same]
  rw [← onBuilder_closeRow some, whole]
  simp only [takeText, if_neg (Nat.not_lt.mpr full)]
  rcases h with none | spaced
  · rw [none]
  · split <;> simp only [spaced, if_true]

theorem takeText_wraps {w : Writer} {s : State} {ch : Byte} {before after : List TextChar} {sp : TextChar}
    (full : s.settings.rowWidth ≤ (builderOf s w).chars.length) (cut : (builderOf s w).chars = before ++ sp :: after)
    (some : before ≠ []) (last : lastUsableSpace (builderOf s w) = .some before.length) (solid : ch ≠ space) (stamp : Stamp) :
    takeText w ch stamp s = wrapped w { builderOf s w with chars := before }
      (placeChar ch stamp (refill after (emptied (builderOf s w)))) s := by
  have front : (builderOf s w).chars.take before.length = before := by simp [cut]
  have back : (builderOf s w).chars.drop (before.length + 1) = after := by simp [cut]
  have cutDown : onBuilder w (fun b => { b with chars := b.chars.take before.length }) s =
      { s with builders := put s.builders w { builderOf s w with chars := before } } := by
    show { s with builders := put s.builders w { builderOf s w with
      chars := (builderOf s w).chars.take before.length } } = _
    rw [front]
  refine Eq.trans ?_ (onBuilder_closeRow (closed := { builderOf s w with chars := before }) some
    fun b => placeChar ch stamp (refill after b))
  simp only [takeText, if_neg (Nat.not_lt.mpr full), last, if_neg solid]
  rw [back, cutDown]

/-- The row that a wrap begins (R35, R36): the carried characters with the one behind them, or that one as the first. -/
theorem placeChar_refill {ch : Byte} (solid : ch ≠ 0x20) (stamp : Stamp) (after : List TextChar) (b : Builder) :
    (∀ first more, after = first :: more → placeChar ch stamp (refill after (emptied b)) =
      { emptied b with chars := after ++ [⟨ch, stamp⟩], arrival := some first.stamp }) ∧
    (after = [] → b.markPending = false → placeChar ch stamp (refill after (emptied b)) =
      { emptied b with chars := [⟨ch, stamp⟩], arrival := some stamp }) ∧
    (after = [] → b.markPending = true → placeChar ch stamp (refill after (emptied b)) = { emptied b with
      chars := [⟨0x3E, stamp⟩, ⟨0x3E, stamp⟩, ⟨0x20, stamp⟩, ⟨ch, stamp⟩], arrival := some stamp
      markHeld := true, markPending := false }) := by
  obtain ⟨_, clear, pending, joined⟩ := placeChar_cases ch stamp (refill after (emptied b))
  refine ⟨fun first more carried => ?_, fun none mark => ?_, fun none mark => ?_⟩
  · rw [joined (show after ≠ [] by simp [carried]), carried]
    rfl
  · rw [clear none solid mark, none]
    rfl
  · rw [pending none solid mark, none]
    rfl

/-! ### The silence test under a resumption (R91) -/

/-- A resumption of a writer who is not the lead has no part in the silence test. -/
theorem Resumed.silenceTested {w lead : Writer} {u s t : State} (h : Resumed w s t) (named : s.la.lead = some lead)
    (other : lead ≠ w) (tested : SilenceTested u s) : SilenceTested u t := by
  have quiet : leadSilent t = leadSilent s := by
    rw [← leadSilent_setPorts named (h.ports lead other), h.same]
    rfl
  have work : t.work = s.work := by rw [h.same]
  rw [SilenceTested, work, ← leadSilent_iff, quiet, leadSilent_iff]
  exact tested

/-! ### The wrap in its delivery (R30, R31, R87) -/

section
variable (w : Writer) (closed next : Builder) (s : State)

theorem wrapped_steady : SteadyFrame s (wrapped w closed next s).1 := by
  have cut : SteadyFrame s { s with builders := put s.builders w closed } :=
    .update s s.la _ s.work s.counters s.nextRowId
  have left := (cut.trans (closeRow_steady w .wrap _))
  exact left.trans (.update _ _ (put s.builders w next) _ _ _)

theorem wrapped_leaves : (wrapped w closed next s).1.la = s.la ∧ (wrapped w closed next s).1.ports = s.ports ∧
    (wrapped w closed next s).1.work = s.work ∧ (wrapped w closed next s).1.builders = put s.builders w next := by
  obtain ⟨la, ports⟩ := closeRow_leaves w .wrap { s with builders := put s.builders w closed }
  exact ⟨la, ports, closeRow_work .., rfl⟩

end

/-- A wrap counts the row, and a lead's row that holds no id takes the next one (R38). -/
theorem wrapped_counts {w : Writer} {closed : Builder} {s : State} (some : closed.chars ≠ []) (next : Builder) :
    (get (wrapped w closed next s).1.counters w).rowsClosed = (get s.counters w).rowsClosed + 1 ∧
    (roleOf s w = .lead → closed.heldId = none → (wrapped w closed next s).1.nextRowId = s.nextRowId + 1) ∧
    (roleOf s w = .lead → (wrapped w closed next s).2 = true) := by
  have held : builderOf { s with builders := put s.builders w closed } w = closed := get_put_same ..
  have some' : (builderOf { s with builders := put s.builders w closed } w).chars ≠ [] := by rw [held]; exact some
  refine ⟨closeRow_rowsClosed some' .wrap, fun role none => ?_, fun role => ?_⟩
  · have id := closeRow_nextRowId some' role .wrap
    rw [held, none] at id
    exact id
  · have reported := closeRow_of_lead some' role .wrap
    exact congrArg Prod.snd reported

/-- What a wrap does in its delivery: t is what becomes of a, where the buffer of w is closed with the given characters and
then holds the next ones. -/
structure WrapOutcome (a : State) (w : Writer) (ch : Byte) (noisy : Bool) (closed next : Builder) (t : State) : Prop where
  kept : t.mem = a.mem ∧ t.out = a.out ∧ t.pending = a.pending ∧ t.settings.delay = a.settings.delay
  closes : a.la.handoff = none →
    t.builders = put a.builders w next ∧
    (get t.counters w).rowsClosed = (get a.counters w).rowsClosed + 1 ∧
    (roleOf a w = .lead → (builderOf a w).heldId = none → t.nextRowId = a.nextRowId + 1) ∧
    (ch = 0x20 ∨ (portOf a w).pauseFlag = false →
      RowClosed w closed .wrap { delivered w noisy a with builders := put a.builders w next } t ∧
      ∀ estimate, LiveTakes a w → (get a.est w).estimate = some estimate →
        RowEnters w closed .wrap estimate { delivered w noisy a with builders := put a.builders w next } t)
  passesOn : ∀ h, roleOf a w = .lead → a.la.lead = some w → a.la.handoff = some h → h.taker ≠ w →
    t.la = switched a.la w h.taker ∧ SilenceTested a t ∧ t.work = { a.work with silence := t.work.silence } ∧
    (builderOf t w).chars = [] ∧ (∀ v, v ≠ w → builderOf t v = builderOf a v) ∧ flagSet .lead t = true

theorem delivered_withBuilders (w : Writer) (noisy : Bool) (a : State) (builders : Vector Builder 4) :
    delivered w noisy { a with builders := builders } = { delivered w noisy a with builders := builders } := by
  unfold delivered
  rfl

theorem heard_withBuilders (w : Writer) (noisy : Bool) (a : State) (builders : Vector Builder 4) :
    heard w noisy (looking w { a with builders := builders }) = { heard w noisy (looking w a) with builders := builders } :=
  rfl

theorem heard_rowsClosed (w : Writer) (noisy : Bool) (a : State) :
    (get (heard w noisy (looking w a)).counters w).rowsClosed = (get a.counters w).rowsClosed := by
  show (get (change a.counters w _) w).rowsClosed = _
  rw [get_change, if_pos rfl]

section
variable {a : State} {w : Writer} {closed : Builder} (some : closed.chars ≠ []) (noisy : Bool) (next : Builder)

include some in
/-- With no handoff pending the row that a wrap closes goes where a closed row goes. -/
theorem heard_wraps_closes {t : State} (after : t = touchPort w (wrapped w closed next (heard w noisy (looking w a))).1) :
    RowClosed w closed .wrap { delivered w noisy a with builders := put a.builders w next } t ∧
    ∀ estimate, LiveTakes a w → (get a.est w).estimate = .some estimate →
      RowEnters w closed .wrap estimate { delivered w noisy a with builders := put a.builders w next } t := by
  let cut : State := { a with builders := put a.builders w closed }
  have held : builderOf cut w = closed := get_put_same ..
  have some' : (builderOf cut w).chars ≠ [] := by rw [held]; exact some
  have built : { delivered w noisy a with builders := put a.builders w next } =
      { delivered w noisy cut with builders := put a.builders w next } := by
    rw [show delivered w noisy cut = _ from delivered_withBuilders ..]
  have closes : t = touchPort w { (closeRow w .wrap (heard w noisy (looking w cut))).1 with
      builders := put a.builders w next } := by
    rw [after, wrapped, show heard w noisy (looking w cut) = _ from heard_withBuilders ..]
    rfl
  rw [built, closes]
  refine ⟨?_, fun estimate takes set => ?_⟩
  · have row := heard_closed some' .wrap noisy (put a.builders w next) rfl
    rw [held] at row
    exact row
  · have takes' : LiveTakes cut w := ⟨takes.lead, takes.running, takes.live, takes.nothingWaits, takes.room⟩
    have row := heard_enters takes' some' set .wrap noisy (put a.builders w next) rfl
    rw [held] at row
    exact row

include some in
/-- The wrap of a full buffer, to the end of the delivery. -/
theorem heard_wraps (held : closed.heldId = (builderOf a w).heldId) (ch : Byte) (stamp : Stamp) {r : State × Bool}
    (wraps : r = wrapped w closed next (heard w noisy (looking w a))) :
    WrapOutcome a w ch noisy closed next (resumeAt w ch stamp (touchPort w (completeHandoff r.2 r.1))) := by
  let v := heard w noisy (looking w a)
  have steady : SteadyFrame v r.1 := wraps ▸ wrapped_steady ..
  obtain ⟨la, ports, work, builders⟩ : r.1.la = v.la ∧ r.1.ports = v.ports ∧ r.1.work = v.work ∧
      r.1.builders = put a.builders w next := wraps ▸ wrapped_leaves ..
  obtain ⟨counted, id, reported⟩ : (get r.1.counters w).rowsClosed = (get v.counters w).rowsClosed + 1 ∧
      (roleOf v w = .lead → closed.heldId = none → r.1.nextRowId = v.nextRowId + 1) ∧
      (roleOf v w = .lead → r.2 = true) := wraps ▸ wrapped_counts some next
  let touched := touchPort w (completeHandoff r.2 r.1)
  have resumed : Resumed w touched (resumeAt w ch stamp touched) := resumeAt_resumed ..
  refine ⟨?_, fun none => ?_, fun h role lead handoff other => ?_⟩
  · have frame := (steady.trans (completeHandoff_steady r.2 r.1)).touched w
    rw [touchPort_heard] at frame
    rw [resumed.same]
    exact ⟨frame.mem, frame.out, frame.pending, congrArg Settings.delay frame.applied⟩
  · have same : touched = touchPort w r.1 :=
      congrArg (touchPort w) (completeHandoff_of_none (by rw [la]; exact none) r.2)
    have eq : touchPort w r.1 = _ := touchPort_eq ..
    refine ⟨?_, ?_, fun role noId => ?_, fun quiet => ?_⟩
    · rw [resumed.same, same, eq]
      exact builders
    · rw [resumed.rowsClosed, same, eq]
      exact counted.trans (congrArg (· + 1) (heard_rowsClosed w noisy a))
    · rw [resumed.same, same, eq]
      exact id role (held.trans noId)
    · have unresumed : resumeAt w ch stamp touched = touched := resumeAt_of_none (quiet.imp_right fun clear => ?_) stamp
      · rw [unresumed, same]
        exact heard_wraps_closes some noisy next (by rw [wraps])
      · have seen : touched.ports = (delivered w noisy a).ports := by
          rw [same, eq, ← touchPort_heard, touchPort_eq, portOf, ports]
          rfl
        rw [portOf, seen, ← clear, ← portOf_delivered_pauseFlag w noisy a]
        rfl
  · rw [reported role]
    obtain ⟨passed, switched⟩ := heard_passesOn lead handoff other noisy steady la work
    generalize touchPort w (completeHandoff true r.1) = t at passed switched ⊢
    have resumed := resumeAt_resumed w ch stamp t
    have named : t.la.lead = .some h.taker := by rw [passed.la]; rfl
    have after : (resumeAt w ch stamp t).builders = t.builders := by rw [resumed.same]
    refine ⟨?_, resumed.silenceTested named other passed.tested, ?_, ?_, fun x notOwn => ?_, ?_⟩
    · rw [resumed.same]
      exact passed.la
    · rw [resumed.same]
      exact passed.frame.work
    · rw [builderOf, after]
      exact switched.closed
    · rw [builderOf, after]
      refine (switched.others x notOwn).trans ?_
      rw [touchPort_eq]
      exact (congrArg (get · x) builders).trans (get_put_other _ _ (Ne.symm notOwn))
    · exact resumed.records.flags _ passed.flag

end

/-- A text character that wraps the buffer, as the queue's command has it. -/
theorem exec_wraps {m : Moment} {w : Writer} {edges : List Nat} {s a : State} {d : Nat} {ch : Byte} {closed next : Builder}
    (finds : Finds m s a) (receives : ReceivesByte a w edges d ch) (text : classify ch = .text)
    (wraps : takeText w ch (stampNow a) (heard w (charNoisy edges d (writerOf a w).parity) (looking w a)) =
      wrapped w closed next (heard w (charNoisy edges d (writerOf a w).parity) (looking w a)))
    (some : closed.chars ≠ []) (held : closed.heldId = (builderOf a w).heldId) :
    ∃ t, exec (.characterAccepted m w edges) s = .next t ∧
      WrapOutcome a w ch (charNoisy edges d (writerOf a w).parity) closed next t :=
  ⟨_, exec_text finds receives text, heard_wraps some _ next held ch (stampNow a) wraps⟩

/-- Settles O25: where the full buffer is cut gives what is closed and what the buffer holds next. -/
theorem wrapCarriesTheLastWord : Obligations.WrapCarriesTheLastWord := by
  intro m w edges s a d ch finds receives text full some
  let v := heard w (charNoisy edges d (writerOf a w).parity) (looking w a)
  have outcome (closed next : Builder) (wraps : takeText w ch (stampNow a) v = wrapped w closed next v)
      (some : closed.chars ≠ []) (held : closed.heldId = (builderOf a w).heldId) :
      ∃ t, exec (.characterAccepted m w edges) s = .next t ∧ _ ∧ _ ∧ _ :=
    have ⟨t, next, done⟩ := exec_wraps finds receives text wraps some held
    ⟨t, next, done.kept, done.closes, done.passesOn⟩
  refine ⟨fun before sp after solid cut front spaced usable later => ?_, fun solid none => ?_, fun spaced => ?_⟩
  · have wraps := takeText_wraps (s := v) full cut front (lastUsableSpace_at cut spaced usable later) solid (stampNow a)
    obtain ⟨carried, clear, pending⟩ := placeChar_refill solid (stampNow a) after (builderOf a w)
    refine ⟨fun first more e => ?_, fun e mark => ?_, fun e mark => ?_⟩
    · exact outcome _ _ (wraps.trans (congrArg (wrapped w _ · v) (carried first more e))) front rfl
    · exact outcome _ _ (wraps.trans (congrArg (wrapped w _ · v) (clear e mark))) front rfl
    · exact outcome _ _ (wraps.trans (congrArg (wrapped w _ · v) (pending e mark))) front rfl
  · have breaks := takeText_breaks (s := v) (ch := ch) full some
      (.inl (lastUsableSpace_none (b := builderOf v w) none)) (stampNow a)
    have placed : placeAfterBreak ch (stampNow a) (emptied (builderOf a w)) =
        { emptied (builderOf a w) with chars := [⟨ch, stampNow a⟩], arrival := .some (stampNow a) } := if_neg solid
    exact outcome _ _ (breaks.trans (congrArg (wrapped w _ · v) placed)) some rfl
  · have breaks := takeText_breaks (s := v) (ch := ch) full some (.inr spaced) (stampNow a)
    have dropped : placeAfterBreak ch (stampNow a) (emptied (builderOf a w)) = emptied (builderOf a w) := if_pos spaced
    exact outcome _ _ (breaks.trans (congrArg (wrapped w _ · v) dropped)) some rfl

end Sys2Proof.Machine
end

