-- ==== Sys2Proof/Proofs/WriteBackMarks.lean ====
section
/-! The write-back marks of the cue slots (R162): what the display, the cue player, the schedule and the live queue set they
never clear. Said once for each operation, in the order of the model. -/

namespace Sys2Proof.Machine

/-- Every write-back mark that s has set is set in t. -/
structure MarksKept (s t : State) : Prop where
  marks : ∀ n, get s.pe.marks n = true → get t.pe.marks n = true

namespace MarksKept

theorem refl (s : State) : MarksKept s s := ⟨fun _ h => h⟩

theorem trans {s t u : State} (h : MarksKept s t) (g : MarksKept t u) : MarksKept s u :=
  ⟨fun n m => g.marks n (h.marks n m)⟩

theorem of_eq {s t : State} (h : t.pe.marks = s.pe.marks) : MarksKept s t := ⟨fun _ m => by rwa [h]⟩

end MarksKept

theorem journal_marksKept (r : Record) (s : State) : MarksKept s (journal r s) := .of_eq (journal_marks r s)

theorem queue_marksKept (s : State) (q : List Row) : MarksKept s { s with queue := q } := .of_eq rfl

theorem disp_marksKept (s : State) (d : Display) : MarksKept s { s with disp := d } := .of_eq rfl

theorem cueTurns_marksKept (n : SlotNo) (left : CueState) (c : Cue) (s : State) : MarksKept s (cueTurns n left c s) where
  marks m set := by
    rw [cueTurns_marks, get_put]
    split
    · rfl
    · exact set

theorem countDropped_marksKept (r : Row) (s : State) : MarksKept s (countDropped r s) := by
  unfold countDropped
  split <;> exact .of_eq rfl

theorem overflowDrop_marksKept (r : Row) (s : State) : MarksKept s (overflowDrop r s) :=
  (countDropped_marksKept r s).trans (journal_marksKept ..)

theorem trimQueue_marksKept (n : Nat) (s : State) : MarksKept s (trimQueue n s) := by
  induction n generalizing s with
  | zero => exact .refl s
  | succ n ih =>
    unfold trimQueue
    split
    · split
      · exact ((queue_marksKept ..).trans (overflowDrop_marksKept ..)).trans (ih _)
      · exact .refl s
    · exact .refl s

theorem offerRow_marksKept (r : Row) (s : State) : MarksKept s (offerRow r s).1 := by
  cases stale : isStale (placeRow r s).lag s with
  | false => rw [offerRow_enters stale]; exact .of_eq rfl
  | true => rw [offerRow_drops stale]; exact (countDropped_marksKept ..).trans (journal_marksKept ..)

theorem feedRows_marksKept (n : Nat) (s : State) : MarksKept s (feedRows n s) := by
  induction n generalizing s with
  | zero => exact .refl s
  | succ n ih =>
    unfold feedRows
    split
    · split
      · exact ((queue_marksKept ..).trans (offerRow_marksKept ..)).trans (ih _)
      · exact .refl s
    · exact .refl s

theorem feedAttempt_marksKept (s : State) : MarksKept s (feedAttempt s) := feedRows_marksKept ..

theorem removeWaiting_marksKept (p : Entry → Bool) (s : State) : MarksKept s (removeWaiting p s) := by
  unfold removeWaiting
  split <;> exact .of_eq rfl

theorem withdrawLive_marksKept (s : State) : MarksKept s (withdrawLive s) :=
  ((queue_marksKept ..).trans (trimQueue_marksKept ..)).trans (removeWaiting_marksKept ..)

theorem feedTest_marksKept (s : State) : MarksKept s (feedTest s) := .of_eq (by rw [feedTest_pe])

theorem suspendCue_marksKept (k : CtxNo) (s : State) : MarksKept s (suspendCue k s) := by
  unfold suspendCue
  repeat' split
  · exact ((removeWaiting_marksKept ..).trans (disp_marksKept ..)).trans (cueTurns_marksKept ..)
  all_goals exact .refl s

theorem preemptTop_marksKept (s : State) : MarksKept s (preemptTop s) := by
  unfold preemptTop
  split
  · exact withdrawLive_marksKept s
  · exact suspendCue_marksKept _ s
  · exact .refl s

theorem acceptCue_marksKept (n : SlotNo) (c : Cue) (k : CtxNo) (s : State) : MarksKept s (acceptCue n c k s) := by
  have gave := (disp_marksKept s { s.disp with due := s.disp.due.erase n }).trans (preemptTop_marksKept _)
  exact (((gave.trans (disp_marksKept ..)).trans (disp_marksKept ..)).trans (cueTurns_marksKept ..)).trans
    (feedTest_marksKept _)

theorem dueTest_marksKept (s : State) : MarksKept s (dueTest s).1 := by
  unfold dueTest
  repeat' split
  · exact .refl s
  · exact acceptCue_marksKept ..
  all_goals exact .refl s

theorem insertionTest_marksKept (s : State) : MarksKept s (insertionTest s).1 := by
  unfold insertionTest
  repeat' split
  · exact ((disp_marksKept ..).trans (feedAttempt_marksKept _)).trans (dueTest_marksKept _)
  · exact .of_eq rfl
  · exact .refl s

theorem applyPendingLevel_marksKept (s : State) : MarksKept s (applyPendingLevel s) := by
  unfold applyPendingLevel
  repeat' split
  all_goals exact .of_eq rfl

theorem takeUpDisplay_marksKept (s : State) : MarksKept s (takeUpDisplay s) := by
  unfold takeUpDisplay
  repeat' split
  · exact feedAttempt_marksKept s
  · exact (cueTurns_marksKept ..).trans (feedTest_marksKept _)
  · exact feedTest_marksKept s
  all_goals exact .refl s

theorem releaseCtx_marksKept (k : CtxNo) (s : State) : MarksKept s (releaseCtx k s) := by
  unfold releaseCtx
  repeat' split
  all_goals exact .of_eq rfl

theorem leaveStack_marksKept (k : CtxNo) (s : State) : MarksKept s (leaveStack k s) := by
  have left : MarksKept s (withStack (s.disp.stack.erase (.ctx k)) (releaseCtx k s)) :=
    (releaseCtx_marksKept k s).trans (disp_marksKept ..)
  have tested := ((left.trans (applyPendingLevel_marksKept _)).trans (insertionTest_marksKept _)).trans
    (dueTest_marksKept _)
  unfold leaveStack
  dsimp only
  split
  · exact tested.trans (takeUpDisplay_marksKept _)
  · exact tested

theorem completionTest_marksKept (n : SlotNo) (s : State) : MarksKept s (completionTest n s) := by
  unfold completionTest completeCtx
  repeat' split
  · exact (cueTurns_marksKept ..).trans (leaveStack_marksKept ..)
  all_goals exact .refl s

/-- A cue row that is shown marks its cue's slot (R135, R162). -/
theorem cueRowShown_marked {n : SlotNo} {s : State} {c : Cue} (held : cueOf s n = some c) :
    get (cueRowShown n s).pe.marks n = true := by
  have counted : get (updateCue n { c with shown := c.shown + 1 } s).pe.marks n = true := get_put_same ..
  simp only [cueRowShown, held]
  exact (completionTest_marksKept ..).marks n counted

end Sys2Proof.Machine
end

