-- ==== Sys2Proof/Proofs/CueEnds.lean ====
section
/-! A cue that is complete leaves the stack (R131, R135): the stack and the contexts without it, and the live stream or the
cue below that takes up the display. -/

namespace Sys2Proof.Machine

/-! ### What stands of the stack and of a cue that has left it -/

/-- t has the stack of s and the cue in slot n as s has it, and context k is free in t where it is free in s. -/
structure StackHeld (n : SlotNo) (k : CtxNo) (s t : State) : Prop where
  stack : t.disp.stack = s.disp.stack
  cue : cueOf t n = cueOf s n
  context : ctxOf s k = none → ctxOf t k = none

namespace StackHeld

variable {n : SlotNo} {k : CtxNo}

theorem trans {s t u : State} (h : StackHeld n k s t) (g : StackHeld n k t u) : StackHeld n k s u :=
  ⟨g.stack.trans h.stack, g.cue.trans h.cue, fun free => g.context (h.context free)⟩

theorem of_disp {s t : State} (h : t.disp = s.disp) : StackHeld n k s t :=
  ⟨by rw [h], by rw [cueOf, h, cueOf], fun free => by rwa [ctxOf, h]⟩

theorem topOwner {s t : State} (h : StackHeld n k s t) : topOwner t = topOwner s := by
  rw [Machine.topOwner, h.stack, Machine.topOwner]

end StackHeld

variable (n : SlotNo) (k : CtxNo)

theorem journal_stackHeld (r : Record) (s : State) : StackHeld n k s (journal r s) := .of_disp (journal_disp r s)

theorem feedAttempt_stackHeld (s : State) : StackHeld n k s (feedAttempt s) := .of_disp (feedAttempt_disp s)

/-- A feed test fetches for an occupied context alone. -/
theorem feedTest_stackHeld (s : State) : StackHeld n k s (feedTest s) := by
  refine ⟨feedTest_stack s, cueOf_feedTest s n, fun free => ?_⟩
  unfold feedTest
  repeat' split
  · rename_i occupied _ _ _ _
    rw [ctxOf_storeCtx, if_neg]
    · exact free
    · rintro rfl
      exact nomatch free.symm.trans occupied
  all_goals exact free

theorem cueTurns_stackHeld {n m : SlotNo} (other : m ≠ n) (left : CueState) (c : Cue) (s : State) :
    StackHeld n k s (cueTurns m left c s) := by
  refine ⟨by rw [cueTurns_disp], ?_, fun free => ?_⟩
  · rw [cueOf_cueTurns, if_neg other]
  · rw [ctxOf, cueTurns_disp]
    exact free

/-- What takes up the display leaves the cue that has left it alone. -/
theorem takeUpDisplay_stackHeld {n : SlotNo} {s : State} (apart : ∀ j y, ctxOf s j = some y → y.slot ≠ n) :
    StackHeld n k s (takeUpDisplay s) := by
  unfold takeUpDisplay
  split
  · exact feedAttempt_stackHeld ..
  · split
    · rename_i y occupied
      split
      · split
        · exact (cueTurns_stackHeld k (apart _ y occupied) ..).trans (feedTest_stackHeld ..)
        · exact feedTest_stackHeld ..
      · exact .of_disp rfl
    · exact .of_disp rfl
  · exact .of_disp rfl

/-! ### The stack without a context (R131) -/

/-- The state in which context k has left the stack, before the tests that follow (R124, R131 steps 1 to 3). -/
def offStack (k : CtxNo) (s : State) : State :=
  applyPendingLevel (withStack (s.disp.stack.erase (.ctx k)) (releaseCtx k s))

theorem applyPendingLevel_eq (s : State) : ∃ level pending, applyPendingLevel s = { s with
    settings := { s.settings with liveLevel := level }, disp := { s.disp with pendingLevel := pending } } := by
  unfold applyPendingLevel
  repeat' split
  · exact ⟨_, _, rfl⟩
  all_goals exact ⟨s.settings.liveLevel, s.disp.pendingLevel, rfl⟩

section
variable {k : CtxNo} {s : State} {x : Context} (ctx : ctxOf s k = some x) (fetch : x.fetch = .none)

include ctx fetch in
theorem offStack_eq : ∃ level pending, offStack k s = { s with
    settings := { s.settings with liveLevel := level }
    disp := { s.disp with
      stack := s.disp.stack.erase (.ctx k), ctx := put s.disp.ctx k none, pendingLevel := pending } } := by
  have released : releaseCtx k s = storeCtx k none s := by simp only [releaseCtx, ctx, fetch, if_true]
  obtain ⟨level, pending, e⟩ := applyPendingLevel_eq (withStack (s.disp.stack.erase (.ctx k)) (releaseCtx k s))
  refine ⟨level, pending, ?_⟩
  rw [offStack, e, released]
  rfl

include ctx fetch in
theorem ctxOf_offStack (j : CtxNo) : ctxOf (offStack k s) j = if k = j then none else ctxOf s j := by
  obtain ⟨level, pending, e⟩ := offStack_eq ctx fetch
  rw [e]
  exact get_put ..

include ctx fetch in
/-- With no cue due and no live stream waiting, only what is then on top acts (R131 step 5). -/
theorem leaveStack_quiet (due : s.disp.due = []) (settled : s.disp.place ≠ .waiting) :
    leaveStack k s = if topOwner s = some (.ctx k) then takeUpDisplay (offStack k s) else offStack k s := by
  have due' : (offStack k s).disp.due = [] := by
    obtain ⟨level, pending, e⟩ := offStack_eq ctx fetch
    rw [e]
    exact due
  have settled' : (offStack k s).disp.place ≠ .waiting := by
    obtain ⟨level, pending, e⟩ := offStack_eq ctx fetch
    rw [e]
    exact settled
  have inserted : insertionTest (offStack k s) = (offStack k s, false) := insertionTest_of_settled settled'
  have tested : dueTest (offStack k s) = (offStack k s, false) := dueTest_of_noneDue due'
  simp only [leaveStack]
  rw [show applyPendingLevel (withStack (s.disp.stack.erase (.ctx k)) (releaseCtx k s)) = offStack k s from rfl, inserted]
  simp [tested]

end

/-! ### What takes up the display (R48, R131, R135) -/

/-- What a cue of slot n leaves the stack from: its context k has no fetch in flight, no other holds the slot, no cue is due,
and the live stream does not wait. -/
structure Leaves (p : State) (k : CtxNo) (n : SlotNo) : Prop where
  occupied : ∃ x, ctxOf p k = some x ∧ x.fetch = .none
  alone : ∀ j y, ctxOf p j = some y → y.slot = n → j = k
  due : p.disp.due = []
  settled : p.disp.place ≠ .waiting

section
variable {n : SlotNo} {k : CtxNo} {p : State} (h : Leaves p k n)

include h in
theorem leaveStack_stackHeld : StackHeld n k (offStack k p) (leaveStack k p) := by
  obtain ⟨x, ctx, fetch⟩ := h.occupied
  rw [leaveStack_quiet ctx fetch h.due h.settled]
  split
  · refine takeUpDisplay_stackHeld k fun j y held own => ?_
    rw [ctxOf_offStack ctx fetch] at held
    split at held
    · exact nomatch held
    · rename_i other
      exact other (h.alone j y held own).symm
  · exact .of_disp rfl

include h in
theorem leaveStack_leaves : (leaveStack k p).disp.stack = p.disp.stack.erase (.ctx k) ∧
    cueOf (leaveStack k p) n = cueOf p n ∧ ctxOf (leaveStack k p) k = none := by
  obtain ⟨x, ctx, fetch⟩ := h.occupied
  obtain ⟨stack, cue, context⟩ := leaveStack_stackHeld h
  have free := context (by rw [ctxOf_offStack ctx fetch, if_pos rfl])
  obtain ⟨level, pending, e⟩ := offStack_eq ctx fetch
  rw [e] at stack cue
  exact ⟨stack, cue, free⟩

include h in
/-- The live stream takes up the display: the one row that waits enters the schedule (R48, R131). -/
theorem leaveStack_toLive {r : Row} (running : isRunning p = true) (stack : p.disp.stack = [.live, .ctx k])
    (queue : p.queue = [r]) (room : p.air.entries.length < 24) (drops : p.settings.dropAbove = 0) :
    (leaveStack k p).queue = [] ∧ ∃ e, (leaveStack k p).air.entries = p.air.entries ++ [e] ∧ e.row = r := by
  obtain ⟨x, ctx, fetch⟩ := h.occupied
  obtain ⟨level, pending, e⟩ := offStack_eq ctx fetch
  have top : topOwner p = some (.ctx k) := by rw [topOwner, stack]; rfl
  have left : (offStack k p).disp.stack = [.live] := by
    rw [e]
    show p.disp.stack.erase (.ctx k) = _
    rw [stack]
    simp
  have live : topOwner (offStack k p) = some .live := by rw [topOwner, left]; rfl
  have feeds : ¬NothingFeeds (offStack k p) := by
    rintro (empty | blocked | full)
    · rw [e] at empty
      exact List.cons_ne_nil _ _ (queue.symm.trans empty)
    · exact blocked live
    · rw [e] at full
      exact absurd room (Nat.not_lt.mpr full)
  have fresh : isStale (placeRow r { offStack k p with queue := [] }).lag { offStack k p with queue := [] } = false := by
    rw [e]
    simp [isStale, drops]
  have takes : takeUpDisplay (offStack k p) = feedAttempt (offStack k p) := by simp only [takeUpDisplay, live]
  rw [leaveStack_quiet ctx fetch h.due h.settled, if_pos top, takes,
    feedAttempt_of_one (by rw [e]; exact running) feeds (by rw [e]; exact queue), offerRow_enters fresh]
  let waiting : State := { offStack k p with queue := [] }
  refine ⟨rfl, entryOf r (placeRow r waiting) waiting, ?_, rfl⟩
  rw [← show (offStack k p).air.entries = p.air.entries by rw [e]]
  rfl

include h in
/-- The suspended cue below takes up the display (R131). -/
theorem leaveStack_toCue {front : List Owner} {j : CtxNo} {y : Context} {resumed : Cue}
    (stack : p.disp.stack = front ++ [.ctx j, .ctx k]) (fresh : .ctx k ∉ front) (other : j ≠ k)
    (below : ctxOf p j = some y) (cue : cueOf p y.slot = some resumed) (suspended : resumed.state = .suspended) :
    topOwner (leaveStack k p) = some (.ctx j) ∧ (leaveStack k p).air = p.air ∧
    cueOf (leaveStack k p) y.slot = some { resumed with state := .running } ∧
    Recorded (leaveStack k p) (.cueState y.slot .suspended .running resumed.reason resumed.shown resumed.dropped
      resumed.start) := by
  obtain ⟨x, ctx, fetch⟩ := h.occupied
  obtain ⟨level, pending, e⟩ := offStack_eq ctx fetch
  have top : topOwner p = some (.ctx k) := by rw [topOwner, stack]; simp
  have left : (offStack k p).disp.stack = front ++ [.ctx j] := by
    rw [e]
    show p.disp.stack.erase (.ctx k) = _
    rw [stack, List.erase_append_right _ fresh]
    simp [other]
  have now : topOwner (offStack k p) = some (.ctx j) := by rw [topOwner, left]; simp
  have held : ctxOf (offStack k p) j = some y := by rw [ctxOf_offStack ctx fetch, if_neg (Ne.symm other), below]
  have cue' : cueOf (offStack k p) y.slot = some resumed := by rw [e]; exact cue
  have takes : takeUpDisplay (offStack k p) =
      feedTest (cueTurns y.slot .suspended { resumed with state := .running } (offStack k p)) := by
    simp only [takeUpDisplay, now, held, cue', suspended, if_true]
  have eq := leaveStack_quiet ctx fetch h.due h.settled
  rw [if_pos top, takes] at eq
  rw [eq]
  refine ⟨?_, ?_, ?_, (cueTurns_recorded ..).mono (feedTest_local _).records⟩
  · rw [(feedTest_stackHeld y.slot k _).topOwner, topOwner, cueTurns_disp]
    exact now
  · rw [feedTest_air, cueTurns_air, e]
  · rw [cueOf_feedTest, cueOf_cueTurns, if_pos rfl]

end

end Sys2Proof.Machine
end

