-- ==== Sys2Proof/Proofs/Shows.lean ====
section
/-! The slot that shows the head entry (R111, R142, R147, R148): the mirror and the pending clear, the count of the row and of
its cue, and the cue that is complete with it (R135). -/

namespace Sys2Proof.Machine

/-! ### The head entry leaves the schedule for the mirror (R111, R116, R147) -/

theorem mirrorAfter_eq (rows : Nat) (e : Entry) (mirror : List MirrorRow) :
    mirrorAfter rows e mirror = if isFresh e.row then [mirrorRow e]
      else if mirror.length < rows then mirror ++ [mirrorRow e] else (mirror ++ [mirrorRow e]).drop 1 := by
  unfold mirrorAfter
  split
  · rfl
  · by_cases room : mirror.length < rows
    · rw [if_neg (by omega), if_pos room]
    · rw [if_pos (by omega), if_neg room]

/-- The newest row of the mirror is the one shown. -/
theorem mirrorAfter_last {rows : Nat} {e : Entry} {mirror : List MirrorRow} {r : MirrorRow}
    (last : (mirrorAfter rows e mirror).getLast? = some r) : r = mirrorRow e := by
  have whole : (mirror ++ [mirrorRow e]).getLast? = some (mirrorRow e) := List.getLast?_concat ..
  rw [mirrorAfter_eq] at last
  split at last
  · exact (Option.some.inj last).symm
  · split at last
    · exact Option.some.inj (last.symm.trans whole)
    · rw [List.getLast?_drop] at last
      split at last
      · exact nomatch last
      · exact Option.some.inj (last.symm.trans whole)

/-- The pending clear behind the row shown (R111, R116). -/
theorem clearAfterRemoval_shown {s : State} {e : Entry} {rows : Nat} {before : List MirrorRow}
    (shown : s.out.mirror = mirrorAfter rows e before) : clearAfterRemoval s =
      if s.air.entries ≠ [] then s.air.clear
      else if s.settings.linger = 0 ∨ s.out.mirror = [] then none
      else some (e.showAt + BitVec.ofNat 28 (max s.settings.linger e.hold)) := by
  by_cases empty : s.air.entries = []
  · simp only [clearAfterRemoval, pendingClearFrame, empty, List.isEmpty_nil, if_true, ne_eq, not_true, if_false]
    cases last : s.out.mirror.getLast? with
    | none => rw [if_pos (.inr (List.getLast?_eq_none_iff.mp last))]
    | some r =>
      have newest : r = mirrorRow e := mirrorAfter_last (shown ▸ last)
      have some : s.out.mirror ≠ [] := fun none => by simp [none] at last
      rw [newest]
      by_cases linger : s.settings.linger = 0
      · simp [linger]
      · simp [linger, some, mirrorRow, addFrames]
  · simp [clearAfterRemoval, empty]

theorem headLeaves_eq (e : Entry) (rest : List Entry) (s : State) :
    let mirror := mirrorAfter s.settings.displayRows e s.out.mirror
    headLeaves e rest s = { s with
      out := { s.out with mirror := mirror }
      air := { s.air with
        entries := rest
        horizon := if rest = [] then none else s.air.horizon
        clear :=
          if rest ≠ [] then s.air.clear
          else if s.settings.linger = 0 ∨ mirror = [] then none
          else some (e.showAt + BitVec.ofNat 28 (max s.settings.linger e.hold)) } } := by
  intro mirror
  have horizon : (if rest.isEmpty then none else s.air.horizon) = if rest = [] then none else s.air.horizon := by
    simp only [List.isEmpty_iff]
  unfold headLeaves
  dsimp only
  rw [clearAfterRemoval_shown (e := e) (rows := s.settings.displayRows) (before := s.out.mirror) rfl, horizon]

/-! ### The command unit (R142, R187) -/

theorem commandUnit_shows {s : State} {e : Entry} {rest : List Entry} (owed : s.out.owed = .none)
    (entries : s.air.entries = e :: rest) (now : e.showAt = s.tb.frame) : commandUnit s =
      ([BitVec.ofNat 8 ((if isFresh e.row then 0x14 else 0x10) + e.buffer.val)], showHead e rest s) := by
  have unit : (if isFresh e.row then unitShowFresh e.buffer else unitShow e.buffer) =
      BitVec.ofNat 8 ((if isFresh e.row then 0x14 else 0x10) + e.buffer.val) := by split <;> rfl
  unfold commandUnit
  rw [owed, entries]
  simp only [reduceCtorEq, if_false, now, if_true, unit]

/-- SHOW_ROW takes the slot that is left, where the head entry's show frame is the present frame (R142). -/
theorem exec_showRow {m : Moment} {s a : State} (finds : FindsPiece m s a) (slot : a.work.slot = true)
    (running : a.control.runState = .running) (due : showDue a = true) :
    exec (.showRow m) s = .next (runningSlot { a with work := { a.work with slot := false } }) := by
  have taken : showWork a = slotNow { a with work := { a.work with slot := false } } := by
    simp only [showWork, due, slotWork, slot, if_true]
  refine (congrArg Host.Outcome.next (piece_of_finds finds showWork)).trans ?_
  rw [taken, slotNow_of_running (s := { a with work := { a.work with slot := false } }) running]

/-! ### What follows the count of the row (R48, R111, R148) -/

/-- The row's writer or its cue has counted it (R135, R148). -/
def rowCounted (e : Entry) (s : State) : State :=
  match e.row.source with
  | .live w _ _ _ => count w (fun c => { c with rowsShown := c.rowsShown + 1 }) s
  | .cue n _ _ _ _ _ _ => cueRowShown n s

/-- The record of the row, then the feed attempt and the feed test. -/
def recordedAndFed (r : Record) (s : State) : State := feedTest (feedAttempt (journal r s))

theorem showHead_eq (e : Entry) (rest : List Entry) (s : State) : showHead e rest s =
    recordedAndFed (.rowShown e (isFresh e.row) (get s.out.completion e.buffer)) (rowCounted e (headLeaves e rest s)) := rfl

section
variable (r : Record) (s : State)

theorem recordedAndFed_records : RecordsKept (journal r s) (recordedAndFed r s) :=
  (feedAttempt_local _).records.trans (feedTest_local _).records

theorem recordedAndFed_stackHeld (n : SlotNo) (k : CtxNo) : StackHeld n k s (recordedAndFed r s) :=
  ((journal_stackHeld ..).trans (feedAttempt_stackHeld ..)).trans (feedTest_stackHeld ..)

theorem recordedAndFed_marksKept : MarksKept s (recordedAndFed r s) :=
  ((journal_marksKept ..).trans (feedAttempt_marksKept _)).trans (feedTest_marksKept _)

theorem recordedAndFed_rowsKept : RowsKept s (recordedAndFed r s) :=
  ((journal_rowsKept ..).trans (feedAttempt_rowsKept _)).trans (feedTest_rowsKept _)

theorem recordedAndFed_rowsShown (w : Writer) :
    (get (recordedAndFed r s).counters w).rowsShown = (get s.counters w).rowsShown := by
  obtain ⟨ctx, e⟩ := feedTest_eq (feedAttempt (journal r s))
  rw [recordedAndFed, e]
  exact ((journal_dropsAlone r s).trans (feedAttempt_dropsAlone _)).rowsShown w

end

theorem recordedAndFed_local (r : Record) (s : State) : Local s (recordedAndFed r s) :=
  ((journal_local ..).trans (feedAttempt_local _)).trans (feedTest_local _)

/-- Where nothing feeds, the schedule and the live queue stand. -/
theorem recordedAndFed_of_nothing {s : State} (h : NothingFeeds s) (r : Record) :
    (recordedAndFed r s).air = s.air ∧ (recordedAndFed r s).queue = s.queue := by
  have nothing : NothingFeeds (journal r s) := by
    rw [NothingFeeds, topOwner, journal_queue, journal_air, journal_disp]
    exact h
  rw [recordedAndFed, feedAttempt_of_nothing nothing, feedTest_air, feedTest_queue]
  exact ⟨journal_air .., journal_queue ..⟩

/-- What an offer reads of the counters, the flags and the page engine is the count of the rows dropped alone. -/
theorem LiveOffered.of_counted {s t : State} {r : Row} {w : Writer} {arrival : Stamp} {estimate : Nat}
    {counters : Vector Counters 4} {control : Control} {pe : PageEngine}
    (h : LiveOffered { s with counters := counters, control := control, pe := pe } t r w arrival estimate)
    (dropped : (get counters w).rowsDropped = (get s.counters w).rowsDropped) : LiveOffered s t r w arrival estimate := by
  obtain ⟨p, placed, entered, stale⟩ := h
  obtain ⟨earliest, lowest, start, ⟨stagedBy, floor, isFloor, showAt⟩, lag⟩ := placed
  refine ⟨p, ⟨earliest, lowest, start, ⟨stagedBy, floor, ⟨isFloor.behind, isFloor.shown, isFloor.nothing⟩, showAt⟩, lag⟩,
    fun inTime => ?_, fun late => ?_⟩
  · obtain ⟨e, ⟨row, place, late, schedule⟩, latency, unclamped, flagged, catchup, hold⟩ := entered inTime
    exact ⟨e, ⟨row, place, late, schedule⟩, latency, unclamped, flagged, catchup, hold⟩
  · obtain ⟨air, counted, record⟩ := stale late
    exact ⟨air, counted.trans (congrArg (· + 1) dropped), record⟩

/-! ### A live row that is shown (R48, R148) -/

/-- The writer of a live row that is shown has counted it. -/
def liveShown (w : Writer) (s : State) : State := count w (fun c => { c with rowsShown := c.rowsShown + 1 }) s

theorem rowCounted_live {e : Entry} {w : Writer} {arrival : Stamp} {reason : CloseReason} {mark : Bool}
    (live : e.row.source = .live w arrival reason mark) (s : State) : rowCounted e s = liveShown w s := by
  simp only [rowCounted, live, liveShown]

theorem liveShown_rowsShown (w : Writer) (s : State) :
    (get (liveShown w s).counters w).rowsShown = (get s.counters w).rowsShown + 1 := by
  rw [liveShown, count, get_change, if_pos rfl]

theorem liveShown_rowsDropped (w x : Writer) (s : State) :
    (get (liveShown w s).counters x).rowsDropped = (get s.counters x).rowsDropped := by
  rw [liveShown, count, get_change]
  split
  · rename_i same
    rw [same]
  · rfl

theorem journal_eq (r : Record) (s : State) : ∃ control pe, journal r s = { s with control := control, pe := pe } := by
  unfold journal
  split <;> exact ⟨_, _, rfl⟩

/-- The one row that waits is offered, where the live stream is on top (R48, R101). -/
theorem recordedAndFed_offers {u : State} {x : Writer} {r : Row} {stamp : Stamp} {cause : CloseReason} {held : Bool}
    {estimate : Nat} (running : isRunning u = true) (feeds : ¬NothingFeeds u) (queue : u.queue = [r])
    (live : r.source = .live x stamp cause held) (set : (get u.est x).estimate = some estimate) (w : Writer)
    (record : Record) :
    (recordedAndFed record (liveShown w u)).queue = [] ∧
    LiveOffered u (recordedAndFed record (liveShown w u)) r x stamp estimate := by
  obtain ⟨control, pe, made⟩ := journal_eq record (liveShown w u)
  let noticed : State := { liveShown w u with control := control, pe := pe }
  have running' : isRunning noticed = true := by
    rw [← show journal record (liveShown w u) = noticed from made, isRunning, (journal_local ..).control]
    exact running
  have top : topOwner u = some .live := by
    by_contra blocked
    exact feeds (.inr (.inl blocked))
  have noCue : ∀ k, topOwner (feedAttempt noticed) ≠ some (.ctx k) := by
    intro k
    rw [topOwner, feedAttempt_disp]
    show topOwner u ≠ _
    simp [top]
  have fed : recordedAndFed record (liveShown w u) = (offerRow r { noticed with queue := [] }).1 := by
    rw [recordedAndFed, made, feedTest_of_noCue noCue]
    exact feedAttempt_of_one (s := noticed) running' feeds queue
  have offered := offerRow_liveOffered (s := noticed) live set []
  rw [fed]
  exact ⟨(offerRow_leaves ..).2, LiveOffered.of_counted (s := u) offered (liveShown_rowsDropped w x u)⟩

/-! ### A cue row that is shown (R135, R148) -/

theorem rowCounted_cue {e : Entry} {n : SlotNo} {pos : Nat} {start : Frame} {offset : Nat} {hold : Option Nat}
    {fresh clamped : Bool} (cue : e.row.source = .cue n pos start offset hold fresh clamped) (s : State) :
    rowCounted e s = cueRowShown n s := by
  simp only [rowCounted, cue]

theorem stackedCtx_none {n : SlotNo} {s : State}
    (h : ∀ k x, .ctx k ∈ s.disp.stack → ctxOf s k = some x → x.slot ≠ n) : stackedCtx n s = none := by
  rw [stackedCtx, List.find?_eq_none]
  intro k _
  simp only [Bool.and_eq_true, List.contains_iff_mem, Option.any_eq_true, beq_iff_eq]
  rintro ⟨stacked, x, ctx, own⟩
  exact h k x stacked ctx own

theorem stackedCtx_some {n : SlotNo} {s : State} {k : CtxNo} {x : Context} (stacked : .ctx k ∈ s.disp.stack)
    (ctx : ctxOf s k = some x) (own : x.slot = n) (alone : ∀ j y, ctxOf s j = some y → y.slot = n → j = k) :
    stackedCtx n s = some k := by
  have holds : ∀ j : CtxNo,
      (s.disp.stack.contains (.ctx j) && (ctxOf s j).any (fun x => x.slot == n)) = true ↔ j = k := by
    intro j
    simp only [Bool.and_eq_true, List.contains_iff_mem, Option.any_eq_true, beq_iff_eq]
    constructor
    · rintro ⟨_, y, held, slot⟩
      exact alone j y held slot
    · rintro rfl
      exact ⟨stacked, x, ctx, own⟩
  rw [stackedCtx]
  have two : ∀ j : CtxNo, j = 0 ∨ j = 1 := by decide
  obtain rfl | rfl := two k
  · exact List.find?_cons_of_pos ((holds 0).mpr rfl)
  · refine Eq.trans (List.find?_cons_of_neg fun first => ?_) (List.find?_cons_of_pos ((holds 1).mpr rfl))
    exact absurd ((holds 0).mp first) (by decide)

/-- Whether the cue of slot n is complete (R135). -/
theorem cueComplete_iff (n : SlotNo) (x : Context) (c : Cue) (s : State) : cueComplete n x c s = true ↔
    x.next = c.rowCount ∧ x.fetch = .none ∧ ∀ y ∈ s.air.entries, isCueEntry n y = false := by
  simp [cueComplete, and_assoc]

section
variable {n : SlotNo} {s : State} {c : Cue} (held : cueOf s n = some c)

/-- The state in which the cue of slot n has counted a row. -/
def cueCounted (n : SlotNo) (c : Cue) (s : State) : State := updateCue n { c with shown := c.shown + 1 } s

theorem cueOf_cueCounted (n : SlotNo) (c : Cue) (s : State) :
    cueOf (cueCounted n c s) n = some { c with shown := c.shown + 1 } := get_put_same ..

include held in
/-- A cue that is not in the stack counts the row alone. -/
theorem cueRowShown_unstacked (h : ∀ k x, .ctx k ∈ s.disp.stack → ctxOf s k = some x → x.slot ≠ n) :
    cueRowShown n s = cueCounted n c s := by
  have none : stackedCtx n (cueCounted n c s) = none := stackedCtx_none (s := cueCounted n c s) h
  simp only [cueRowShown, held]
  show completionTest n (cueCounted n c s) = _
  simp only [completionTest, none]

include held in
/-- A cue in the stack counts the row, and ends in DONE where it is complete. -/
theorem cueRowShown_stacked {k : CtxNo} {x : Context} (stacked : .ctx k ∈ s.disp.stack) (ctx : ctxOf s k = some x)
    (own : x.slot = n) (alone : ∀ j y, ctxOf s j = some y → y.slot = n → j = k) :
    cueRowShown n s =
      if x.next = c.rowCount ∧ x.fetch = .none ∧ ∀ y ∈ s.air.entries, isCueEntry n y = false then
        leaveStack k (cueTurns n c.state { c with shown := c.shown + 1, state := .done } (cueCounted n c s))
      else cueCounted n c s := by
  have found : stackedCtx n (cueCounted n c s) = some k := stackedCtx_some (s := cueCounted n c s) stacked ctx own alone
  have ctx' : ctxOf (cueCounted n c s) k = some x := ctx
  have complete := cueComplete_iff n x { c with shown := c.shown + 1 } (cueCounted n c s)
  simp only [cueRowShown, held]
  show completionTest n (cueCounted n c s) = _
  simp only [completionTest, found, completeCtx, ctx', cueOf_cueCounted, complete]
  rfl

end

/-! ### A cue that is done with the row (R131, R135) -/

theorem cueTurns_terminal {c : Cue} (h : isTerminal c.state = true) (n : SlotNo) (left : CueState) (s : State) :
    flagSet .cue (cueTurns n left c s) = true := by
  simp only [cueTurns, h, if_true]
  exact raise_set ..

/-- The cue of slot n has turned DONE and leaves the stack; then the row's record is made, and a feed attempt and a feed test
follow. -/
theorem cueDone_of_leaves {u : State} {n : SlotNo} {k : CtxNo} {x : Context} (running : isRunning u = true)
    (ctx : ctxOf u k = some x) (fetch : x.fetch = .none) (alone : ∀ j y, ctxOf u j = some y → y.slot = n → j = k)
    (due : u.disp.due = []) (settled : u.disp.place ≠ .waiting) (c : Cue) (r : Record) :
    CueDone u (recordedAndFed r (leaveStack k (cueTurns n c.state { c with state := .done } (updateCue n c u)))) k n c := by
  let p := cueTurns n c.state { c with state := .done } (updateCue n c u)
  have turned : Local (updateCue n c u) p := cueTurns_local ..
  have disp : p.disp = { u.disp with cues := put (put u.disp.cues n (some c)) n (some { c with state := .done }) } :=
    cueTurns_disp ..
  have air : p.air = u.air := cueTurns_air ..
  have queue : p.queue = u.queue := cueTurns_queue ..
  have settings : p.settings = u.settings := (cueTurns_calm ..).settings
  have running' : isRunning p = true := by
    rw [isRunning, turned.control]
    exact running
  have contexts (j : CtxNo) : ctxOf p j = ctxOf u j := by rw [ctxOf, disp, ctxOf]
  have leaves : Leaves p k n := by
    refine ⟨⟨x, (contexts k).trans ctx, fetch⟩, fun j y held => alone j y ((contexts j).symm.trans held), ?_, ?_⟩
    · rw [disp]
      exact due
    · rw [disp]
      exact settled
  obtain ⟨stack, cue, free⟩ := leaveStack_leaves leaves
  have held := recordedAndFed_stackHeld r (leaveStack k p) n k
  have records : RecordsKept p (recordedAndFed r (leaveStack k p)) :=
    ((leaveStack_local k p).records.trans (journal_records ..)).trans (recordedAndFed_records ..)
  have stack' : p.disp.stack = u.disp.stack := by rw [disp]
  refine ⟨?_, records.flags _ (cueTurns_terminal rfl ..), (cueTurns_recorded ..).mono records, ?_,
    fun _ => held.context free, fun q bottom waits room drops => ?_,
    fun front j y resumed under fresh other below apart cue' suspended => ?_⟩
  · rw [held.cue, cue, cueOf_cueTurns, if_pos rfl]
  · rw [held.stack, stack, stack']
  · obtain ⟨empty, e, entries, own⟩ := leaveStack_toLive leaves running' (stack'.trans bottom) (queue.trans waits)
      (by rw [air]; exact room) (by rw [settings]; exact drops)
    obtain ⟨sameAir, sameQueue⟩ := recordedAndFed_of_nothing (.inl empty) r
    refine ⟨sameQueue.trans empty, e, ?_, own⟩
    rw [sameAir, entries, air]
  · have cue'' : cueOf p y.slot = some resumed := by
      rw [cueOf_cueTurns, if_neg (Ne.symm apart), cueOf]
      exact (get_put_other _ _ (Ne.symm apart)).trans cue'
    obtain ⟨top, sameAir, resumes, record⟩ :=
      leaveStack_toCue leaves (stack'.trans under) fresh other ((contexts j).trans below) cue'' suspended
    have nothing : NothingFeeds (leaveStack k p) := .inr (.inl (by simp [top]))
    refine ⟨?_, ?_, (record.mono (journal_records ..)).mono (recordedAndFed_records ..)⟩
    · rw [(recordedAndFed_of_nothing nothing r).1, sameAir, air]
    · rw [(recordedAndFed_stackHeld r (leaveStack k p) y.slot k).cue, resumes]

/-! ### The slot that shows (R142) -/

theorem rowCounted_local (e : Entry) (s : State) : Local s (rowCounted e s) := by
  unfold rowCounted
  split
  · exact count_local ..
  · exact cueRowShown_local ..

theorem rowCounted_rowsKept (e : Entry) (s : State) : RowsKept s (rowCounted e s) := by
  unfold rowCounted
  split
  · exact .same rfl rfl
  · exact cueRowShown_rowsKept ..

/-- The row's record is the first made, where counting the row made none. -/
theorem recordedAndFed_journaled {u s : State} (buffer : s.pe.buffer = u.pe.buffer) (r : Record) :
    Journaled u (recordedAndFed r s) s.tb.frame r :=
  (journaled_of_kept (recordedAndFed_records r s)).of_buffer buffer

/-- The cue row that a cue outside the stack, or one that is not complete, counts. -/
theorem recordedAndFed_cueCounted (n : SlotNo) (c : Cue) (u : State) (r : Record) :
    cueOf (recordedAndFed r (cueCounted n c u)) n = some { c with shown := c.shown + 1 } ∧
    Journaled u (recordedAndFed r (cueCounted n c u)) u.tb.frame r ∧
    (recordedAndFed r (cueCounted n c u)).disp.stack = u.disp.stack := by
  have held := recordedAndFed_stackHeld r (cueCounted n c u) n 0
  exact ⟨held.cue.trans (cueOf_cueCounted ..), recordedAndFed_journaled (s := cueCounted n c u) rfl r, held.stack⟩

/-- The staging and the sending of the slot leave of v what speaks of the row shown. -/
structure SentBehind (v t : State) : Prop where
  pe : t.pe = v.pe
  control : t.control = v.control
  counters : t.counters = v.counters
  disp : t.disp = v.disp

namespace SentBehind

variable {s v t : State} (h : SentBehind v t)

include h

theorem cueOf (n : SlotNo) : cueOf t n = Machine.cueOf v n := by rw [Machine.cueOf, h.disp, Machine.cueOf]

theorem recorded {r : Record} (made : Recorded v r) : Recorded t r := by
  rw [Recorded, flagSet, ← h.pe, ← h.control] at made
  exact made

theorem journaled {f : Frame} {r : Record} (made : Journaled s v f r) : Journaled s t f r := by
  rw [Journaled, flagSet, ← h.pe, ← h.control] at made
  exact made

end SentBehind

/-- What the staging and the sending of the slot change. -/
theorem sendSlot_staged (units : List Byte) (q : Staging) (v : State) :
    let t := sendSlot units (staged q v)
    SentBehind v t ∧ t = { v with out := t.out, air := { v.air with entries := q.entries } } ∧ t.out.mirror = v.out.mirror :=
  ⟨⟨rfl, rfl, rfl, rfl⟩, rfl, rfl⟩

/-- A live row that is shown is counted and recorded, and the feed attempt follows (R48, R148). -/
theorem liveShown_follows {u t : State} (running : isRunning u = true) {w : Writer} {record : Record}
    (behind : SentBehind (recordedAndFed record (liveShown w u)) t) :
    let v := recordedAndFed record (liveShown w u)
    (get t.counters w).rowsShown = (get u.counters w).rowsShown + 1 ∧ Journaled u t u.tb.frame record ∧
    (NothingFeeds u → v.air = u.air ∧ v.queue = u.queue) ∧
    ∀ r x stamp cause held estimate, ¬NothingFeeds u → u.queue = [r] → r.source = .live x stamp cause held →
      (get u.est x).estimate = some estimate → v.queue = [] ∧ LiveOffered u v r x stamp estimate := by
  refine ⟨?_, behind.journaled (recordedAndFed_journaled (u := u) (s := liveShown w u) rfl record), fun nothing => ?_,
    fun r x stamp cause held estimate feeds queue live set => recordedAndFed_offers running feeds queue live set w record⟩
  · rw [behind.counters, recordedAndFed_rowsShown, liveShown_rowsShown]
  · have nothing' : NothingFeeds (liveShown w u) := nothing
    exact recordedAndFed_of_nothing nothing' record

/-- A cue row that is shown marks its cue, which counts it, and is DONE where it is complete (R135, R148). -/
theorem cueRowShown_follows {u t : State} (running : isRunning u = true) {n : SlotNo} {c : Cue} (held : cueOf u n = some c)
    {record : Record} (behind : SentBehind (recordedAndFed record (cueRowShown n u)) t) :
    let counted : Cue := { c with shown := c.shown + 1 }
    get t.pe.marks n = true ∧
    ((∀ k x, .ctx k ∈ u.disp.stack → ctxOf u k = some x → x.slot ≠ n) →
      cueOf t n = some counted ∧ Journaled u t u.tb.frame record ∧ t.disp.stack = u.disp.stack) ∧
    ∀ k x, .ctx k ∈ u.disp.stack → ctxOf u k = some x → x.slot = n →
      (∀ j y, ctxOf u j = some y → y.slot = n → j = k) →
      let complete := x.next = c.rowCount ∧ x.fetch = .none ∧ ∀ y ∈ u.air.entries, isCueEntry n y = false
      (¬complete → cueOf t n = some counted ∧ Journaled u t u.tb.frame record ∧ t.disp.stack = u.disp.stack) ∧
      (complete → u.disp.due = [] → u.disp.place ≠ .waiting →
        CueDone u (recordedAndFed record (cueRowShown n u)) k n counted) := by
  have counts (only : cueRowShown n u = cueCounted n c u) : cueOf t n = some { c with shown := c.shown + 1 } ∧
      Journaled u t u.tb.frame record ∧ t.disp.stack = u.disp.stack := by
    rw [only] at behind
    obtain ⟨cue, first, stack⟩ := recordedAndFed_cueCounted n c u record
    exact ⟨(behind.cueOf n).trans cue, behind.journaled first, by rw [behind.disp, stack]⟩
  refine ⟨?_, fun unstacked => counts (cueRowShown_unstacked held unstacked),
    fun k x stacked ctx own alone => ⟨fun incomplete => counts ?_, fun complete due settled => ?_⟩⟩
  · rw [behind.pe]
    exact (recordedAndFed_marksKept ..).marks n (cueRowShown_marked held)
  · rw [cueRowShown_stacked held stacked ctx own alone, if_neg incomplete]
  · rw [cueRowShown_stacked held stacked ctx own alone, if_pos complete]
    exact cueDone_of_leaves running ctx complete.2.1 alone due settled _ record

/-- Settles O42: the slot is the command unit and the staging behind it, and the row is counted before them. -/
theorem showPutsTheHeadOnScreen : Obligations.ShowPutsTheHeadOnScreen := by
  intro m s a e rest finds slot running owed entries now shown mirror clear u record
  let b : State := { a with work := { a.work with slot := false } }
  have left : headLeaves e rest b = u := by
    refine (headLeaves_eq e rest b).trans ?_
    rw [mirrorAfter_eq]
    rfl
  have shows : showHead e rest b = recordedAndFed record (rowCounted e u) := by
    rw [showHead_eq, left]
  have due : showDue a = true := (showDue_iff a).mpr ⟨e, rest, entries, now⟩
  obtain ⟨q, units, sends, sent⟩ := runningSlot_sends (commandUnit_shows (s := b) owed entries now)
    (by rw [(showHead_slotStill e rest b).settings])
  rw [shows] at sends sent
  let v := recordedAndFed record (rowCounted e u)
  have loc : Local u v := (rowCounted_local e u).trans (recordedAndFed_local ..)
  have rows : RowsKept u v := (rowCounted_rowsKept e u).trans (recordedAndFed_rowsKept ..)
  have recorded : Recorded v record := (journal_recorded ..).mono (recordedAndFed_records ..)
  have running' : isRunning u = true := (isRunning_iff u).mpr running
  obtain ⟨behind, airOut, screen⟩ := sendSlot_staged ([_] ++ units) q v
  rw [← sends] at behind airOut screen
  rw [stagingOf, loc.tb, loc.out] at sent
  refine ⟨runningSlot b, v, q, exec_showRow finds slot running due, (runningSlot_slotStill b).toSlotFrame, airOut,
    screen.trans (congrArg Output.mirror loc.out), rows.begun, sent, behind.recorded recorded,
    fun w arrival reason mark live => ?_, fun n pos start offset hold fresh clamped c cue held => ?_⟩
  · have shown : v = recordedAndFed record (liveShown w u) := congrArg (recordedAndFed record) (rowCounted_live live u)
    rw [shown] at behind ⊢
    exact liveShown_follows running' behind
  · have shown : v = recordedAndFed record (cueRowShown n u) := congrArg (recordedAndFed record) (rowCounted_cue cue u)
    rw [shown] at behind ⊢
    exact cueRowShown_follows running' (c := c) held behind

end Sys2Proof.Machine
end

