-- ==== Sys2Proof/Proofs/Lapses.lean ====
section
/-! What lapses at a boundary (R59, R103, R147): each list and table entry by entry, in the words of its rule. -/

namespace Sys2Proof.Machine

/-! ### What is kept -/

/-- Onsets within the matching window stay, in their order (R59). -/
theorem get_ageOnsets (s : State) (v : Fin 2) :
    get (ageOnsets s).onsets v = (get s.onsets v).filter (fun o => decide (tickDiff (stampOf s.tb.frame 0) o.stamp ≤
      16 * max s.settings.lmin s.settings.lmax + 16)) := by
  rw [ageOnsets, get_map]
  refine List.filter_congr fun o _ => ?_
  rw [onsetOld, ← decide_not, decide_eq_decide, not_lt, lmaxBound]
  norm_num

/-- A last onset no more than 16 × 4,095 ticks old stays (R59). -/
theorem get_lapseLastOnsets (s : State) (v : Fin 2) :
    get (lapseLastOnsets s).lastOnset v =
      (get s.lastOnset v).filter (fun o => decide (tickDiff (stampOf s.tb.frame 0) o ≤ 65520)) := by
  simp only [lapseLastOnsets, get_map, lastOld, ← decide_not, not_lt]
  norm_num

/-- A buffer free frame later than the present frame stays (R103). -/
theorem get_lapseBuffers (s : State) (b : BufferNo) :
    get (lapseBuffers s).air.bufFree b = (get s.air.bufFree b).filter (fun f => later f s.tb.frame) := by
  simp only [lapseBuffers, get_map, lapsedFree, atOrBefore, Bool.not_not]

/-- The past mark of a mirror row is set once it was shown 4,096 frames before, and stays set (R147). -/
theorem pastRow_eq (now : Frame) (r : MirrorRow) :
    pastRow now r = { r with past := r.past || decide ((now - r.showAt).toNat = 4096) } := by
  unfold pastRow framesSince
  split
  · rename_i long
    rw [decide_eq_true long, Bool.or_true]
  · rename_i other
    rw [decide_eq_false other, Bool.or_false]

/-- What a filter leaves of a value that may be absent. -/
theorem filter_cases {α : Type} (x : Option α) (p : α → Bool) :
    (∀ a, x = some a → p a = false → x.filter p = none) ∧ (∀ a, x = some a → p a = true → x.filter p = some a) ∧
    (x = none → x.filter p = none) := by
  refine ⟨?_, ?_, ?_⟩
  · rintro a rfl drop
    simp [Option.filter, drop]
  · rintro a rfl keep
    simp [Option.filter, keep]
  · rintro rfl
    rfl

/-! ### The commands in the state they find -/

section
variable {m : Moment} {s a : State} (h : FindsPiece m s a)

include h

theorem exec_onsetAged : exec (.onsetAged m) s = .next (onsetsWork a) := congrArg Host.Outcome.next (piece_of_finds h _)

theorem exec_lastOnsetLapse : exec (.lastOnsetLapse m) s = .next (lastOnsetsWork a) :=
  congrArg Host.Outcome.next (piece_of_finds h _)

theorem exec_bufferFreeLapse : exec (.bufferFreeLapse m) s = .next (buffersWork a) :=
  congrArg Host.Outcome.next (piece_of_finds h _)

theorem exec_mirrorPast : exec (.mirrorPast m) s = .next (mirrorWork a) := congrArg Host.Outcome.next (piece_of_finds h _)

end

/-- Settles O39: each piece of the boundary's work clears its mark and filters its own table, or marks the mirror. -/
theorem oldTimesLapseAtABoundary : Obligations.OldTimesLapseAtABoundary := by
  intro m s a finds now
  refine ⟨fun marked => ⟨_, exec_onsetAged finds, ?_⟩, fun marked => ⟨_, exec_lastOnsetLapse finds, ?_⟩,
    fun marked => ⟨_, exec_bufferFreeLapse finds, ?_⟩, fun marked => ?_⟩
  · rw [onsetsWork, if_pos marked]
    exact ⟨rfl, fun v => get_ageOnsets ..⟩
  · rw [lastOnsetsWork, if_pos marked]
    refine ⟨rfl, fun v => ?_⟩
    rw [get_lapseLastOnsets]
    obtain ⟨lapses, stays, absent⟩ := filter_cases (get a.lastOnset v) fun o => decide (tickDiff now o ≤ 65520)
    exact ⟨fun o held old => lapses o held (decide_eq_false (not_le.mpr old)),
      fun o held young => stays o held (decide_eq_true young), absent⟩
  · rw [buffersWork, if_pos marked]
    refine ⟨rfl, fun b => ?_⟩
    rw [get_lapseBuffers]
    exact filter_cases (get a.air.bufFree b) fun f => later f a.tb.frame
  · rw [exec_mirrorPast finds, mirrorWork, if_pos marked, markPast, funext (pastRow_eq a.tb.frame)]

end Sys2Proof.Machine
end

