-- ==== Sys2Proof/Proofs/DueArrivals.lean ====
section
/-! A cue that becomes DUE with none due before it, and the test of the due list that follows (R127, R128): its record, its
write-back mark and the outcomes of DueTested, and what the two leave of the counters and the wait lists. -/

namespace Sys2Proof.Machine

/-! ### What the display leaves of the counters (R47, R49) -/

theorem disp_dropsAlone (s : State) (d : Display) : DropsAlone s { s with disp := d } := .of_eq rfl

theorem storeCtx_dropsAlone (k : CtxNo) (x : Option Context) (s : State) : DropsAlone s (storeCtx k x s) := disp_dropsAlone ..

theorem trimQueue_dropsAlone (n : Nat) (s : State) : DropsAlone s (trimQueue n s) := by
  induction n generalizing s with
  | zero => exact .of_eq rfl
  | succ n ih =>
    unfold trimQueue
    split
    · split
      · exact ((queue_dropsAlone s _).trans (overflowDrop_dropsAlone ..)).trans (ih _)
      · exact .of_eq rfl
    · exact .of_eq rfl

theorem removeWaiting_dropsAlone (p : Entry → Bool) (s : State) : DropsAlone s (removeWaiting p s) := by
  unfold removeWaiting
  split <;> exact .of_eq rfl

theorem cueTurns_dropsAlone (n : SlotNo) (left : CueState) (c : Cue) (s : State) : DropsAlone s (cueTurns n left c s) := by
  have made := journal_dropsAlone (.cueState n left c.state c.reason c.shown c.dropped c.start) (updateCue n c s)
  have stored : DropsAlone s (updateCue n c s) := .of_eq rfl
  unfold cueTurns
  dsimp only
  split
  · exact (stored.trans made).trans (.of_eq rfl)
  · exact stored.trans made

theorem preemptTop_dropsAlone (s : State) : DropsAlone s (preemptTop s) := by
  unfold preemptTop
  split
  · exact ((queue_dropsAlone s _).trans (trimQueue_dropsAlone ..)).trans (removeWaiting_dropsAlone ..)
  · unfold suspendCue
    repeat' split
    · exact ((removeWaiting_dropsAlone ..).trans (storeCtx_dropsAlone ..)).trans (cueTurns_dropsAlone ..)
    all_goals exact .of_eq rfl
  · exact .of_eq rfl

theorem feedTest_dropsAlone (s : State) : DropsAlone s (feedTest s) := by
  obtain ⟨_, e⟩ := feedTest_eq s
  rw [e]
  exact .of_eq rfl

/-- An acceptance drops no rows but those that the live queue has no room for. -/
theorem acceptCue_dropsAlone (n : SlotNo) (c : Cue) (k : CtxNo) (s : State) : DropsAlone s (acceptCue n c k s) := by
  have gave := (disp_dropsAlone s { s.disp with due := s.disp.due.erase n }).trans (preemptTop_dropsAlone _)
  exact (((gave.trans (storeCtx_dropsAlone ..)).trans (disp_dropsAlone ..)).trans (cueTurns_dropsAlone ..)).trans
    (feedTest_dropsAlone _)

theorem dueTest_dropsAlone (s : State) : DropsAlone s (dueTest s).1 := by
  unfold dueTest
  repeat' split
  · exact .of_eq rfl
  · exact acceptCue_dropsAlone ..
  all_goals exact .of_eq rfl

/-! ### What the display leaves of the wait lists (R62) -/

theorem feedTest_waits (s : State) : (feedTest s).disp.waits = s.disp.waits := by
  obtain ⟨_, e⟩ := feedTest_eq s
  rw [e]

theorem acceptCue_waits (n : SlotNo) (c : Cue) (k : CtxNo) (s : State) :
    (acceptCue n c k s).disp.waits = s.disp.waits := by
  obtain ⟨cues, ctx, e⟩ := preemptTop_disp { s with disp := { s.disp with due := s.disp.due.erase n } }
  simp only [acceptCue, feedTest_waits, cueTurns_disp]
  rw [withStack, storeCtx, e]

theorem dueTest_waits (s : State) : (dueTest s).1.disp.waits = s.disp.waits := by
  unfold dueTest
  repeat' split
  · rfl
  · exact acceptCue_waits ..
  all_goals rfl

/-! ### A cue becomes DUE (R127) -/

/-- The state in which the cue d of slot n has just become DUE, with no other cue due. -/
def dueAlone (n : SlotNo) (left : CueState) (d : Cue) (s : State) : State :=
  { cueTurns n left d s with disp := { (cueTurns n left d s).disp with due := [n] } }

theorem becomeDue_eq {n : SlotNo} {s : State} {c : Cue} (held : cueOf s n = some c) (due : s.disp.due = []) (start : Frame) :
    becomeDue n start s = dueAlone n c.state (dueCue c s.tb.frame start) s := by
  simp only [becomeDue, held, cueTurns_disp, due, insertDue]
  rw [dueAlone, cueTurns_disp]
  rfl

theorem becomeDue_calm (n : SlotNo) (start : Frame) (s : State) : Calm s (becomeDue n start s) := by
  unfold becomeDue
  split
  · exact (cueTurns_calm ..).trans (.same rfl rfl rfl)
  · exact .refl s

theorem becomeDue_dropsAlone (n : SlotNo) (start : Frame) (s : State) : DropsAlone s (becomeDue n start s) := by
  unfold becomeDue
  split
  · exact (cueTurns_dropsAlone ..).trans (.of_eq rfl)
  · exact .of_eq rfl

theorem becomeDue_waits (n : SlotNo) (start : Frame) (s : State) : (becomeDue n start s).disp.waits = s.disp.waits := by
  unfold becomeDue
  split
  · dsimp only
    rw [cueTurns_disp]
  · rfl

section
variable (n : SlotNo) (left : CueState) (d : Cue) (s : State)

theorem dueAlone_disp : (dueAlone n left d s).disp = { s.disp with cues := put s.disp.cues n (some d), due := [n] } := by
  rw [dueAlone, cueTurns_disp]

theorem dueAlone_local : Local s (dueAlone n left d s) := (cueTurns_local ..).trans (disp_local _ _ (by rfl))

theorem dueAlone_settings : (dueAlone n left d s).settings = s.settings := (cueTurns_calm n left d s).settings

theorem cueOf_dueAlone (m : SlotNo) : cueOf (dueAlone n left d s) m = if n = m then some d else cueOf s m := by
  rw [cueOf, dueAlone_disp]
  exact get_put ..

theorem ctxOf_dueAlone (k : CtxNo) : ctxOf (dueAlone n left d s) k = ctxOf s k := by rw [ctxOf, dueAlone_disp, ctxOf]

theorem topOwner_dueAlone : topOwner (dueAlone n left d s) = topOwner s := by rw [topOwner, dueAlone_disp, topOwner]

end

/-- An acceptance from the state in which the cue became DUE, as the state before has it. -/
theorem Accepted.of_dueAlone {n : SlotNo} {left : CueState} {d : Cue} {s t : State} {k : CtxNo}
    (h : Accepted (dueAlone n left d s) t n [] d k) : Accepted s t n [] d k := by
  obtain ⟨due, stack, running, record, context⟩ := h
  have kept := dueAlone_local n left d s
  refine ⟨due, by rwa [dueAlone_disp] at stack, running, record, ?_⟩
  rw [isRunning, kept.control, kept.engine, kept.tb, kept.clock, dueAlone_settings] at context
  exact context

/-! ### The test that follows (R128) -/

/-- The test of the due list with the cue alone in it, as the state before it became DUE has it. -/
theorem DueTested.of_dueAlone {n : SlotNo} {left : CueState} {c d : Cue} {s t : State} (held : cueOf s n = some c)
    (level : d.level = c.level) (h : DueTested (dueAlone n left d s) t n [] d) : DueTested s t n [] d := by
  have kept := dueAlone_local n left d s
  have air : (dueAlone n left d s).air = s.air := cueTurns_air ..
  have queue : (dueAlone n left d s).queue = s.queue := cueTurns_queue ..
  obtain ⟨stays, overNothing, overLive, overCue⟩ := h
  simp only [ctxOf_dueAlone, topOwner_dueAlone, dueAlone_settings, dueAlone_disp, air, queue]
    at stays overNothing overLive overCue
  refine ⟨fun why => stays (why.imp_right (.imp_right ?_)), fun k free lower empty above => ?_,
    fun k free lower top above => ?_, fun k j x below free lower top ctx under running above => ?_⟩
  · rintro ⟨k, x, below, top, ctx, under, low⟩
    by_cases own : n = x.slot
    · obtain rfl : c = below := by rwa [← own, held, Option.some.injEq] at under
      exact ⟨k, x, d, top, ctx, by rw [cueOf_dueAlone, if_pos own], le_refl _⟩
    · exact ⟨k, x, below, top, ctx, by rw [cueOf_dueAlone, if_neg own]; exact under, low⟩
  · exact (overNothing k free lower empty above).imp_left (·.of_dueAlone)
  · exact (overLive k free lower top above).imp_left (·.of_dueAlone)
  · have apart : n ≠ x.slot := by
      intro own
      rw [← own, held, Option.some.injEq] at under
      exact absurd above (by rw [level, under]; exact lt_irrefl _)
    exact (overCue k j x below free lower top ctx (by rw [cueOf_dueAlone, if_neg apart]; exact under) running above).imp_left
      (·.of_dueAlone)

theorem freeCtx_isSome {s : State} {k : CtxNo} (free : ctxOf s k = none) : ∃ j, freeCtx s = some j := by
  rw [← Option.isSome_iff_exists, freeCtx, List.find?_isSome]
  exact ⟨k, by fin_cases k <;> simp, by rw [free]; rfl⟩

/-- A change of state that is not terminal makes one record (R138). -/
theorem cueTurns_buffer {n : SlotNo} {left : CueState} {c : Cue} {s : State} (alive : isTerminal c.state = false)
    (room : s.pe.buffer.length < 32) : (cueTurns n left c s).pe.buffer = s.pe.buffer ++
      [{ frame := s.tb.frame, record := .cueState n left c.state c.reason c.shown c.dropped c.start }] := by
  have stored : (updateCue n c s).pe.buffer.length < Config.journalRecords := room
  simp only [cueTurns, alive, Bool.false_eq_true, if_false]
  rw [journal, if_pos stored]
  rfl

/-- A cue that is accepted onto an empty stack makes its own record alone (R130, R138). -/
theorem acceptCue_buffer {n : SlotNo} {c : Cue} {s : State} (due : s.disp.due = [n]) (empty : s.disp.stack = [])
    (room : s.pe.buffer.length < 32) (k : CtxNo) : (acceptCue n c k s).pe.buffer = s.pe.buffer ++
      [{ frame := s.tb.frame, record := .cueState n c.state .running c.reason c.shown c.dropped c.start }] := by
  have gone : gaveWay s [] = { s with disp := { s.disp with due := [] } } := by
    simp [gaveWay, preemptTop, topOwner, empty]
  rw [acceptCue_eq due, feedTest_pe, gone, pushed]
  exact cueTurns_buffer rfl room

/-- A cue becomes DUE with none due before it, and the due list is tested (R127, R128). -/
theorem dueTest_becomeDue {n : SlotNo} {s : State} {c : Cue} (held : cueOf s n = some c) (due : s.disp.due = [])
    (start : Frame) : BecomesDue s (dueTest (becomeDue n start s)).1 n c start := by
  rw [becomeDue_eq held due]
  let d := dueCue c s.tb.frame start
  have alone : (dueAlone n c.state d s).disp.due = [n] := by rw [dueAlone_disp]
  have cue : cueOf (dueAlone n c.state d s) n = some d := by rw [cueOf_dueAlone, if_pos rfl]
  refine ⟨?_, ?_, ?_, fun k free empty level room => ?_⟩
  · refine (dueTest_marksKept _).marks n ?_
    show get (cueTurns n c.state d s).pe.marks n = true
    rw [cueTurns_marks, get_put_same]
  · have record : RecordsKept (journal (.cueState n c.state .due c.reason c.shown c.dropped (some start)) (updateCue n d s))
        (dueTest (dueAlone n c.state d s)).1 := (disp_local _ _ (by rfl)).records.trans (dueTest_local _).records
    exact (journaled_of_kept record).of_buffer rfl
  · have tested : DueTested (dueAlone n c.state d s) (dueTest (dueAlone n c.state d s)).1 n [] d :=
      dueTested_of alone cue (fun stop => by rw [stop]; exact ⟨rfl, rfl⟩) (fun k accepts => by rw [accepts])
    exact tested.of_dueAlone held rfl
  · have made : (dueAlone n c.state d s).pe.buffer = _ := cueTurns_buffer rfl (by omega)
    have bare : (dueAlone n c.state d s).disp.stack = [] := by rw [dueAlone_disp]; exact empty
    obtain ⟨j, context⟩ := freeCtx_isSome (s := dueAlone n c.state d s) ((ctxOf_dueAlone ..).trans free)
    have owner : ownerLevel (dueAlone n c.state d s) = 0 := by simp [ownerLevel, topOwner, bare]
    rw [dueTest_accepts alone cue context (owner ▸ level),
      acceptCue_buffer alone bare (by rw [made, List.length_append, List.length_singleton]; omega), made,
      (dueAlone_local ..).tb, List.append_assoc]
    rfl

end Sys2Proof.Machine
end

