-- ==== Sys2Proof/Proofs/TickSteps.lean ====
section
/-! A tick step (R54 to R56, R58, R63): what the step of one capture line makes of its filter record and hands on, what it
leaves to the other lines, and the step of one line among the others. -/

namespace Sys2Proof.Machine

/-! ### What a line's step never changes -/

/-- t has of s all that no capture of a tick step changes. -/
structure LineFrame (s t : State) : Prop extends DropsAlone s t where
  tb : t.tb = s.tb
  ports : t.ports = s.ports
  builders : t.builders = s.builders
  est : t.est = s.est
  la : t.la = s.la
  out : t.out = s.out
  mem : t.mem = s.mem
  settings : t.settings = s.settings
  pending : t.pending = s.pending
  clock : t.clock = s.clock
  lines : t.lines = s.lines
  running : isRunning t = isRunning s

namespace LineFrame

theorem refl (s : State) : LineFrame s s := ⟨.of_eq rfl, rfl, rfl, rfl, rfl, rfl, rfl, rfl, rfl, rfl, rfl, rfl, rfl⟩

theorem trans {s t u : State} (h : LineFrame s t) (g : LineFrame t u) : LineFrame s u :=
  ⟨h.toDropsAlone.trans g.toDropsAlone, g.tb.trans h.tb, g.ports.trans h.ports, g.builders.trans h.builders,
    g.est.trans h.est, g.la.trans h.la, g.out.trans h.out, g.mem.trans h.mem, g.settings.trans h.settings,
    g.pending.trans h.pending, g.clock.trans h.clock, g.lines.trans h.lines, g.running.trans h.running⟩

/-- An update of the filter records, the onsets and the mark of the silence test. -/
theorem update (s : State) (capture : Vector Capture 6) (onsets : Vector (List Onset) 2)
    (last : Vector (Option Stamp) 2) (silence : Bool) : LineFrame s { s with
      capture := capture, onsets := onsets, lastOnset := last, work := { s.work with silence := silence } } :=
  ⟨.of_eq rfl, rfl, rfl, rfl, rfl, rfl, rfl, rfl, rfl, rfl, rfl, rfl, rfl⟩

end LineFrame

theorem Local.lineFrame {s t : State} (h : Local s t) (settings : t.settings = s.settings) (counters : DropsAlone s t) :
    LineFrame s t where
  toDropsAlone := counters
  tb := h.tb
  ports := h.ports
  builders := h.builders
  est := h.est
  la := h.la
  out := h.out
  mem := h.mem
  settings := settings
  pending := h.pending
  clock := h.clock
  lines := h.lines
  running := by rw [isRunning, h.control, isRunning]

/-! ### Triggers (R63) -/

theorem fireTrigger_unused {j : Fin 4} {s : State} (list : get s.disp.waits j = []) (stamp : Stamp) :
    fireTrigger j stamp s = journal (.triggerUnused j stamp (frameOf stamp)) s := by
  simp only [fireTrigger, list]

theorem fireTrigger_fires {j : Fin 4} {s : State} {n : SlotNo} {rest : List SlotNo} (list : get s.disp.waits j = n :: rest)
    (stamp : Stamp) : fireTrigger j stamp s =
      (dueTest (becomeDue n (frameOf stamp) { s with disp := { s.disp with waits := put s.disp.waits j rest } })).1 := by
  simp only [fireTrigger, list]

theorem fireTrigger_waits (j : Fin 4) (stamp : Stamp) (s : State) :
    (fireTrigger j stamp s).disp.waits = put s.disp.waits j ((get s.disp.waits j).drop 1) := by
  cases list : get s.disp.waits j with
  | nil =>
    rw [fireTrigger_unused list, journal_disp, List.drop_nil, ← list]
    refine table_ext fun i => ?_
    rw [get_put]
    split
    · rename_i own
      rw [own]
    · rfl
  | cons n rest =>
    rw [fireTrigger_fires list, dueTest_waits, becomeDue_waits]
    rfl

theorem fireTrigger_local (j : Fin 4) (stamp : Stamp) (s : State) : Local s (fireTrigger j stamp s) := by
  cases list : get s.disp.waits j with
  | nil =>
    rw [fireTrigger_unused list]
    exact journal_local ..
  | cons n rest =>
    rw [fireTrigger_fires list]
    exact ((disp_local s _ (by rfl)).trans (becomeDue_local ..)).trans (dueTest_local _)

theorem fireTrigger_frame (j : Fin 4) (stamp : Stamp) (s : State) : LineFrame s (fireTrigger j stamp s) := by
  have kept := fireTrigger_local j stamp s
  cases list : get s.disp.waits j with
  | nil =>
    rw [fireTrigger_unused list] at kept ⊢
    exact kept.lineFrame (journal_calm ..).settings (journal_dropsAlone ..)
  | cons n rest =>
    rw [fireTrigger_fires list] at kept ⊢
    exact kept.lineFrame ((dueTest_calm _).settings.trans (becomeDue_calm ..).settings)
      (((disp_dropsAlone ..).trans (becomeDue_dropsAlone ..)).trans (dueTest_dropsAlone _))

/-! ### A capture (R56, R58) -/

/-- A line's capture is counted. -/
def captureCounted (i : LineNo) (s : State) : State :=
  { s with capture := change s.capture i (fun c => { c with captures := c.captures + 1 }) }

theorem takeCapture_voice {i : LineNo} {v : Fin 2} (voice : voiceIndex i = some v) (stamp : Stamp) (s : State) :
    takeCapture i stamp s =
      if leadMaps (addOnset v stamp (captureCounted i s)) v then silenceTest (addOnset v stamp (captureCounted i s))
      else addOnset v stamp (captureCounted i s) := by
  simp only [takeCapture, voice]
  rfl

theorem takeCapture_trigger {i : LineNo} {j : Fin 4} (trigger : cueIndex i = some j) (stamp : Stamp) (s : State) :
    takeCapture i stamp s = fireTrigger j stamp (captureCounted i s) := by
  have voice : voiceIndex i = none := by
    unfold cueIndex at trigger
    split at trigger
    · exact dif_neg (by omega)
    · cases trigger
  simp only [takeCapture, voice, trigger]
  rfl

/-- A capture line is a voice line or a trigger line. -/
theorem voice_or_trigger (i : LineNo) : (∃ v, voiceIndex i = some v) ∨ ∃ j, cueIndex i = some j := by
  unfold voiceIndex cueIndex
  by_cases low : i.val < 2
  · exact .inl ⟨_, dif_pos low⟩
  · exact .inr ⟨_, if_pos (Nat.not_lt.mp low)⟩

theorem voiceIndex_inj {x i : LineNo} {v : Fin 2} (h : voiceIndex x = some v) (g : voiceIndex i = some v) : x = i := by
  simp only [voiceIndex, Option.dite_none_right_eq_some, Option.some.injEq, Fin.ext_iff, exists_prop] at h g
  exact Fin.ext (h.2.trans g.2.symm)

theorem cueIndex_inj {x i : LineNo} {j : Fin 4} (h : cueIndex x = some j) (g : cueIndex i = some j) : x = i := by
  simp only [cueIndex, Option.ite_none_right_eq_some, Option.some.injEq, Fin.ext_iff] at h g
  have xBound := x.isLt
  have iBound := i.isLt
  exact Fin.ext (by omega)

theorem takeCapture_capture (i : LineNo) (stamp : Stamp) (s : State) :
    (takeCapture i stamp s).capture = (captureCounted i s).capture := by
  rcases voice_or_trigger i with ⟨v, voice⟩ | ⟨j, trigger⟩
  · rw [takeCapture_voice voice]
    split
    · rw [(silenceTest_steady _).capture]
      rfl
    · rfl
  · rw [takeCapture_trigger trigger, (fireTrigger_local ..).capture]

/-- A capture on a voice line becomes its onset and its last onset, and leaves the display (R58). -/
theorem takeCapture_onset {i : LineNo} {v : Fin 2} (voice : voiceIndex i = some v) (stamp : Stamp) (s : State) :
    ∃ silence, takeCapture i stamp s = { addOnset v stamp (captureCounted i s) with
      work := { s.work with silence := silence } } := by
  rw [takeCapture_voice voice]
  split
  · obtain ⟨b, e⟩ := silenceTest_eq (addOnset v stamp (captureCounted i s))
    exact ⟨b, e⟩
  · exact ⟨s.work.silence, rfl⟩

theorem takeCapture_frame (i : LineNo) (stamp : Stamp) (s : State) : LineFrame s (takeCapture i stamp s) := by
  rcases voice_or_trigger i with ⟨v, voice⟩ | ⟨j, trigger⟩
  · obtain ⟨b, e⟩ := takeCapture_onset voice stamp s
    rw [e]
    exact .update s _ _ _ b
  · rw [takeCapture_trigger trigger]
    exact (LineFrame.update s _ s.onsets s.lastOnset s.work.silence).trans (fireTrigger_frame ..)

/-! ### The filter (R54, R55) -/

/-- A filter record after the tick step of its line at a raw level, with the capture stamp of a change accepted by it. -/
def stepFilter (set : LineSettings) (level : Bool) (stamp : Stamp) (c : Capture) : Capture × Option Stamp :=
  if set.period ≤ c.steps + 1 then judgeSample set.filter level stamp { c with steps := 0 }
  else ({ c with steps := c.steps + 1 }, none)

/-- The stamp of a change that the present sample completes: that of its first sample (R55). -/
def firstStamp (stamp : Stamp) (c : Capture) : Stamp := if c.candidates = 0 then stamp else c.candStamp.getD stamp

section
variable {set : LineSettings} {level : Bool} {c : Capture} (stamp : Stamp)

theorem stepFilter_between (early : c.steps + 1 < set.period) :
    stepFilter set level stamp c = ({ c with steps := c.steps + 1 }, none) := if_neg (Nat.not_le.mpr early)

theorem stepFilter_steady (sampled : set.period ≤ c.steps + 1) (same : level = c.filtered) :
    stepFilter set level stamp c = ({ c with steps := 0, candidates := 0, candStamp := none }, none) := by
  rw [stepFilter, if_pos sampled, judgeSample, if_pos same]

theorem stepFilter_candidate (sampled : set.period ≤ c.steps + 1) (other : level ≠ c.filtered)
    (few : c.candidates + 1 < set.filter) : stepFilter set level stamp c =
      ({ c with steps := 0, candidates := c.candidates + 1, candStamp := some (firstStamp stamp c) }, none) := by
  rw [stepFilter, if_pos sampled, judgeSample, if_neg other]
  exact if_neg (Nat.not_le.mpr few)

theorem stepFilter_accepted (sampled : set.period ≤ c.steps + 1) (other : level ≠ c.filtered)
    (enough : set.filter ≤ c.candidates + 1) : stepFilter set level stamp c =
      ({ c with steps := 0, filtered := level, candidates := 0, candStamp := none }, some (firstStamp stamp c)) := by
  rw [stepFilter, if_pos sampled, judgeSample, if_neg other]
  exact if_pos enough

/-- At the filtered level no change is judged. -/
theorem stepFilter_quiet (same : level = c.filtered) : (stepFilter set level stamp c).2 = none ∧
    (stepFilter set level stamp c).1.filtered = c.filtered := by
  by_cases sampled : set.period ≤ c.steps + 1
  · rw [stepFilter_steady stamp sampled same]
    exact ⟨rfl, rfl⟩
  · rw [stepFilter_between stamp (Nat.not_le.mp sampled)]
    exact ⟨rfl, rfl⟩

end

/-! ### The step of a line -/

/-- What the step of line i makes of its filter, where no capture follows. -/
def lineFilter (stamp : Stamp) (s : State) (i : LineNo) : Capture × Option Stamp :=
  stepFilter (get s.settings.lines i) (get s.lines i) stamp (get s.capture i)

/-- Line i's filter record as its step leaves it, before a capture is counted. -/
def withFilter (stamp : Stamp) (s : State) (i : LineNo) : State :=
  { s with capture := put s.capture i (lineFilter stamp s i).1 }

/-- Whether a change accepted on line i is a capture: made in RUNNING, in the selected direction (R56). -/
def isCapture (s : State) (i : LineNo) : Bool := isRunning s && edgeSelects (get s.settings.lines i).edge (get s.lines i)

/-- The step of a line: its filter record, and the capture of a change accepted (R54 to R56). -/
theorem stepLine_eq (stamp : Stamp) (s : State) (i : LineNo) : stepLine stamp s i =
    (lineFilter stamp s i).2.elim (withFilter stamp s i)
      (fun first => if isCapture s i then takeCapture i first (withFilter stamp s i) else withFilter stamp s i) := by
  have put_change (f : Capture → Capture) (c : Capture) : put (change s.capture i f) i c = put s.capture i c :=
    table_ext fun x => by simp only [get_put, get_change]; split <;> rfl
  by_cases sampled : (get s.settings.lines i).period ≤ (get s.capture i).steps + 1
  · simp only [stepLine, if_pos sampled, sampleLine, put_change, get_change, if_true, withFilter, lineFilter, stepFilter]
    rcases judgeSample (get s.settings.lines i).filter (get s.lines i) stamp { get s.capture i with steps := 0 } with
      ⟨_, _ | first⟩ <;> rfl
  · simp only [stepLine, if_neg sampled, withFilter, lineFilter, stepFilter]
    rfl

section
variable {stamp : Stamp} {s : State} {i : LineNo}

theorem stepLine_captured {first : Stamp} (accepted : (lineFilter stamp s i).2 = some first) (taken : isCapture s i = true) :
    stepLine stamp s i = takeCapture i first (withFilter stamp s i) := by
  rw [stepLine_eq, accepted, Option.elim_some, if_pos taken]

theorem stepLine_uncaptured (idle : (lineFilter stamp s i).2 = none ∨ isCapture s i = false) :
    stepLine stamp s i = withFilter stamp s i := by
  rw [stepLine_eq]
  cases accepted : (lineFilter stamp s i).2 with
  | none => rfl
  | some first =>
    have missed : isCapture s i = false := idle.resolve_left (by rw [accepted]; simp)
    rw [Option.elim_some, missed, if_neg Bool.false_ne_true]

theorem stepLine_cases (stamp : Stamp) (s : State) (i : LineNo) : stepLine stamp s i = withFilter stamp s i ∨
    ∃ first, stepLine stamp s i = takeCapture i first (withFilter stamp s i) := by
  cases accepted : (lineFilter stamp s i).2 with
  | none => exact .inl (stepLine_uncaptured (.inl accepted))
  | some first =>
    cases taken : isCapture s i with
    | false => exact .inl (stepLine_uncaptured (.inr taken))
    | true => exact .inr ⟨first, stepLine_captured accepted taken⟩

/-- The filter record of a line after its step, with the capture counted (R56). -/
theorem get_stepLine_capture (stamp : Stamp) (s : State) (i : LineNo) : get (stepLine stamp s i).capture i =
    if (lineFilter stamp s i).2.isSome ∧ isCapture s i = true then
      { (lineFilter stamp s i).1 with captures := (lineFilter stamp s i).1.captures + 1 }
    else (lineFilter stamp s i).1 := by
  by_cases both : (lineFilter stamp s i).2.isSome ∧ isCapture s i = true
  · obtain ⟨first, accepted⟩ := Option.isSome_iff_exists.mp both.1
    rw [stepLine_captured accepted both.2, takeCapture_capture, captureCounted, get_change, if_pos rfl, withFilter,
      get_put_same, if_pos both]
  · have idle : (lineFilter stamp s i).2 = none ∨ isCapture s i = false := by
      rwa [not_and_or, Option.not_isSome_iff_eq_none, Bool.not_eq_true] at both
    rw [stepLine_uncaptured idle, withFilter, get_put_same, if_neg both]

end

theorem withFilter_frame (stamp : Stamp) (s : State) (i : LineNo) : LineFrame s (withFilter stamp s i) :=
  .update s _ s.onsets s.lastOnset s.work.silence

theorem stepLine_frame (stamp : Stamp) (s : State) (i : LineNo) : LineFrame s (stepLine stamp s i) := by
  rcases stepLine_cases stamp s i with e | ⟨first, e⟩ <;> rw [e]
  · exact withFilter_frame ..
  · exact (withFilter_frame ..).trans (takeCapture_frame ..)

/-! ### The steps of the other lines -/

/-- What the steps of other lines leave of line i: its filter record, its onsets and its wait list. -/
structure Apart (i : LineNo) (s t : State) : Prop extends LineFrame s t where
  capture : get t.capture i = get s.capture i
  onsets : ∀ v, voiceIndex i = some v → get t.onsets v = get s.onsets v ∧ get t.lastOnset v = get s.lastOnset v
  waits : ∀ j, cueIndex i = some j → get t.disp.waits j = get s.disp.waits j

namespace Apart

theorem refl (i : LineNo) (s : State) : Apart i s s := ⟨.refl s, rfl, fun _ _ => ⟨rfl, rfl⟩, fun _ _ => rfl⟩

theorem trans {i : LineNo} {s t u : State} (h : Apart i s t) (g : Apart i t u) : Apart i s u :=
  ⟨h.toLineFrame.trans g.toLineFrame, g.capture.trans h.capture,
    fun v own => ⟨(g.onsets v own).1.trans (h.onsets v own).1, (g.onsets v own).2.trans (h.onsets v own).2⟩,
    fun j own => (g.waits j own).trans (h.waits j own)⟩

end Apart

theorem withFilter_apart {x i : LineNo} (other : x ≠ i) (stamp : Stamp) (s : State) : Apart i s (withFilter stamp s x) :=
  ⟨withFilter_frame .., get_put_other _ _ other, fun _ _ => ⟨rfl, rfl⟩, fun _ _ => rfl⟩

theorem takeCapture_apart {x i : LineNo} (other : x ≠ i) (stamp : Stamp) (s : State) : Apart i s (takeCapture x stamp s) := by
  refine ⟨takeCapture_frame .., ?_, fun v own => ?_, fun j own => ?_⟩
  · rw [takeCapture_capture, captureCounted, get_change, if_neg other]
  · rcases voice_or_trigger x with ⟨u, voice⟩ | ⟨j, trigger⟩
    · have distinct : u ≠ v := fun same => other (voiceIndex_inj (same ▸ voice) own)
      obtain ⟨_, e⟩ := takeCapture_onset voice stamp s
      rw [e]
      exact ⟨get_put_other _ _ distinct, get_put_other _ _ distinct⟩
    · have kept := fireTrigger_local j stamp (captureCounted x s)
      rw [takeCapture_trigger trigger, kept.onsets, kept.lastOnset]
      exact ⟨rfl, rfl⟩
  · rcases voice_or_trigger x with ⟨v, voice⟩ | ⟨k, trigger⟩
    · obtain ⟨_, e⟩ := takeCapture_onset voice stamp s
      rw [e]
      rfl
    · have distinct : k ≠ j := fun same => other (cueIndex_inj (same ▸ trigger) own)
      rw [takeCapture_trigger trigger, fireTrigger_waits, get_put_other _ _ distinct]
      rfl

theorem stepLine_apart {x i : LineNo} (other : x ≠ i) (stamp : Stamp) (s : State) : Apart i s (stepLine stamp s x) := by
  rcases stepLine_cases stamp s x with e | ⟨first, e⟩ <;> rw [e]
  · exact withFilter_apart other ..
  · exact (withFilter_apart other ..).trans (takeCapture_apart other ..)

theorem stepLines_apart {l : List LineNo} {i : LineNo} (others : i ∉ l) (stamp : Stamp) (s : State) :
    Apart i s (l.foldl (stepLine stamp) s) := by
  induction l generalizing s with
  | nil => exact .refl i s
  | cons x rest ih =>
    rw [List.mem_cons, not_or] at others
    exact (stepLine_apart (Ne.symm others.1) stamp s).trans (ih others.2 _)

/-! ### Lines at their filtered levels -/

/-- t is s but for filter records, and no filtered level has changed. -/
structure Refiltered (s t : State) : Prop where
  same : t = { s with capture := t.capture }
  level : ∀ x, (get t.capture x).filtered = (get s.capture x).filtered

theorem Refiltered.trans {s t u : State} (h : Refiltered s t) (g : Refiltered t u) : Refiltered s u where
  same := by rw [g.same, h.same]
  level x := (g.level x).trans (h.level x)

/-- A line at its filtered level. -/
def QuietLine (s : State) (x : LineNo) : Prop := get s.lines x = (get s.capture x).filtered

theorem stepLine_refiltered {s : State} {x : LineNo} (quiet : QuietLine s x) (stamp : Stamp) :
    Refiltered s (stepLine stamp s x) := by
  obtain ⟨idle, level⟩ := stepFilter_quiet (set := get s.settings.lines x) stamp quiet
  rw [stepLine_uncaptured (.inl idle)]
  refine ⟨rfl, fun y => ?_⟩
  rw [withFilter, get_put]
  split
  · rename_i own
    subst own
    exact level
  · rfl

theorem stepLines_refiltered {l : List LineNo} {s : State} (quiet : ∀ x ∈ l, QuietLine s x) (stamp : Stamp) :
    Refiltered s (l.foldl (stepLine stamp) s) := by
  induction l generalizing s with
  | nil => exact ⟨rfl, fun _ => rfl⟩
  | cons x rest ih =>
    have first := stepLine_refiltered (quiet x List.mem_cons_self) stamp
    refine first.trans (ih fun y listed => ?_)
    rw [QuietLine, first.level, first.same]
    exact quiet y (List.mem_cons_of_mem _ listed)

/-! ### One line among the six -/

/-- The tick of a tick step is handed out (R4, R54). -/
def tickTaken (a : State) : State :=
  { a with tb := { a.tb with heldTick := subTick a, stepped := some (subTick a) } }

theorem allLines_split (i : LineNo) : ∃ front back, allLines = front ++ i :: back ∧ i ∉ front ∧ i ∉ back := by
  obtain ⟨front, back, split⟩ := List.append_of_mem (show i ∈ allLines by fin_cases i <;> decide)
  have once : (front ++ i :: back).Nodup := split ▸ by decide
  rw [List.nodup_middle, List.nodup_cons, List.mem_append, not_or] at once
  exact ⟨front, back, split, once.1⟩

/-- A tick step is the step of line i between those of other lines, which leave what is its own; where no change is judged on
them they leave all but filter records. -/
theorem tickStepNow_line (a : State) (i : LineNo) : ∃ u,
    Apart i (tickTaken a) u ∧ Apart i (stepLine (stampNow a) u i) (tickStepNow a) ∧
    ((∀ x, x ≠ i → QuietLine a x) →
      Refiltered (tickTaken a) u ∧ Refiltered (stepLine (stampNow a) u i) (tickStepNow a)) := by
  obtain ⟨front, back, split, before, after⟩ := allLines_split i
  let u := front.foldl (stepLine (stampNow a)) (tickTaken a)
  have steps : tickStepNow a = back.foldl (stepLine (stampNow a)) (stepLine (stampNow a) u i) := by
    show allLines.foldl (stepLine (stampNow a)) (tickTaken a) = _
    rw [split, List.foldl_append, List.foldl_cons]
  rw [steps]
  refine ⟨u, stepLines_apart before .., stepLines_apart after .., fun quiet => ?_⟩
  have others : Refiltered (tickTaken a) u :=
    stepLines_refiltered (s := tickTaken a) (fun x listed => quiet x (ne_of_mem_of_not_mem listed before)) _
  refine ⟨others, stepLines_refiltered (fun x listed => ?_) _⟩
  have other := ne_of_mem_of_not_mem listed after
  have kept := stepLine_apart (Ne.symm other) (stampNow a) u
  rw [QuietLine, kept.lines, kept.capture, others.level, others.same]
  exact quiet x other

/-! ### The command and the filter records it leaves -/

theorem exec_tickStep {m : Moment} {s a : State} (h : Finds m s a) (locked : a.tb.mode ≠ .unlocked)
    (rises : a.tb.stepped = none ∨ ∃ n, a.tb.stepped = some n ∧ n < subTick a) :
    exec (.tickStep m) s = .next (tickStepNow a) := by
  have due : tickDue a = true := by
    rcases rises with fresh | ⟨n, last, higher⟩
    · simp [tickDue, locked, fresh]
    · simp [tickDue, locked, last, higher]
  refine (congrArg Host.Outcome.next (event_of_finds h tickStepEvent)).trans ?_
  rw [tickStepEvent, if_pos due]

theorem tickStepNow_frame (a : State) : LineFrame (tickTaken a) (tickStepNow a) := by
  obtain ⟨u, before, after, _⟩ := tickStepNow_line a 0
  exact (before.toLineFrame.trans (stepLine_frame ..)).trans after.toLineFrame

/-- The steps of other lines change nothing that the step of line i reads. -/
theorem Apart.reads {i : LineNo} {s t : State} (h : Apart i s t) (stamp : Stamp) :
    lineFilter stamp t i = lineFilter stamp s i ∧ isCapture t i = isCapture s i := by
  rw [lineFilter, isCapture, h.settings, h.lines, h.capture, h.running]
  exact ⟨rfl, rfl⟩

/-- The filter record of a line after a tick step (R54 to R56). -/
theorem get_tickStepNow_capture (a : State) (i : LineNo) : get (tickStepNow a).capture i =
    if (lineFilter (stampNow a) a i).2.isSome ∧ isCapture a i = true then
      { (lineFilter (stampNow a) a i).1 with captures := (lineFilter (stampNow a) a i).1.captures + 1 }
    else (lineFilter (stampNow a) a i).1 := by
  obtain ⟨u, before, after, _⟩ := tickStepNow_line a i
  obtain ⟨filter, capture⟩ := before.reads (stampNow a)
  rw [after.capture, get_stepLine_capture, filter, capture]
  rfl

/-- Where the step accepts no change nothing is counted. -/
theorem get_tickStepNow_of_none {a : State} {i : LineNo} {c : Capture} (h : lineFilter (stampNow a) a i = (c, none)) :
    get (tickStepNow a).capture i = c := by
  rw [get_tickStepNow_capture, h, if_neg (by simp)]

/-- Settles O18: the frame of all six steps, and the filter's four cases for the line's own step. -/
theorem tickStepSamplesEveryLine : Obligations.TickStepSamplesEveryLine := by
  intro m s a finds locked rises
  have frame := tickStepNow_frame a
  refine ⟨_, exec_tickStep finds locked rises, frame.tb, ⟨frame.ports, frame.builders, frame.est, frame.la, frame.out,
    frame.mem, frame.settings, frame.pending⟩, fun w => ?_, fun i => ⟨fun early => ?_, fun sampled same => ?_,
    fun sampled other few fresh => ?_, fun sampled other few begun held => ?_, fun sampled other enough => ?_⟩⟩
  · rw [frame.counters w]
    rfl
  · exact get_tickStepNow_of_none (stepFilter_between _ early)
  · exact get_tickStepNow_of_none (stepFilter_steady _ sampled same)
  · refine get_tickStepNow_of_none ((stepFilter_candidate _ sampled other few).trans ?_)
    rw [firstStamp, if_pos fresh, fresh]
  · refine get_tickStepNow_of_none ((stepFilter_candidate _ sampled other few).trans ?_)
    obtain ⟨first, kept⟩ := Option.isSome_iff_exists.mp held
    rw [firstStamp, if_neg (Nat.ne_of_gt begun), kept, Option.getD_some, ← kept]
  · have accepted : lineFilter (stampNow a) a i = _ := stepFilter_accepted _ sampled other enough
    rw [get_tickStepNow_capture, accepted]
    simp only [Option.isSome_some, true_and, isCapture]
    split <;> rfl

end Sys2Proof.Machine
end

