-- ==== Sys2Proof/Proofs/Captures.lean ====
section
/-! What a capture becomes (R56, R58, R63, R91): an onset of its voice line with the silence test, or the cue at the head of
its wait list. -/

namespace Sys2Proof.Machine

/-! ### The capture among the steps of the other lines -/

/-- v is the state in which the tick step of a hands on the capture of line i with the stamp first. -/
structure CaptureFound (a v : State) (i : LineNo) (first : Stamp) : Prop where
  onsets : ∀ x, voiceIndex i = some x → get v.onsets x = get a.onsets x
  waits : ∀ j, cueIndex i = some j → get v.disp.waits j = get a.disp.waits j
  after : Apart i (takeCapture i first v) (tickStepNow a)
  same : (∀ x, x ≠ i → QuietLine a x) → v = { tickTaken a with capture := v.capture }
  refiltered : (∀ x, x ≠ i → QuietLine a x) → Refiltered (takeCapture i first v) (tickStepNow a)

/-- A change that the tick step accepts on line i in RUNNING, in the selected direction, is handed on as a capture (R56). -/
theorem captureFound_of_accepted {a : State} {i : LineNo} {first : Stamp}
    (accepted : (lineFilter (stampNow a) a i).2 = some first) (taken : isCapture a i = true) :
    ∃ v, CaptureFound a v i first := by
  obtain ⟨u, before, after, quietly⟩ := tickStepNow_line a i
  obtain ⟨filter, capture⟩ := before.reads (stampNow a)
  rw [stepLine_captured (first := first) (by rw [filter]; exact accepted) (by rw [capture]; exact taken)] at after quietly
  refine ⟨withFilter (stampNow a) u i, fun x own => (before.onsets x own).1, before.waits, after, fun quiet => ?_,
    fun quiet => (quietly quiet).2⟩
  rw [withFilter, (quietly quiet).1.same]

/-! ### Onsets (R58) -/

section
variable {a v : State} {i : LineNo} {first : Stamp} (found : CaptureFound a v i first)

include found

/-- The onset joins its list at the tail, and a full list loses its oldest first. -/
theorem CaptureFound.onset {x : Fin 2} (voice : voiceIndex i = some x) :
    get (tickStepNow a).lastOnset x = some first ∧
    get (tickStepNow a).onsets x = (if 16 ≤ (get a.onsets x).length then (get a.onsets x).drop 1 else get a.onsets x)
      ++ [{ stamp := first, marks := Vector.replicate 4 false }] := by
  obtain ⟨onsets, last⟩ := found.after.onsets x voice
  obtain ⟨_, e⟩ := takeCapture_onset voice first v
  rw [onsets, last, e, ← found.onsets x voice]
  exact ⟨get_put_same .., get_put_same ..⟩

/-- The cue at the head of the wait list leaves it (R63). -/
theorem CaptureFound.waits_drop {j : Fin 4} (trigger : cueIndex i = some j) :
    get (tickStepNow a).disp.waits j = (get a.disp.waits j).drop 1 := by
  rw [found.after.waits j trigger, takeCapture_trigger trigger, fireTrigger_waits, get_put_same, ← found.waits j trigger]
  rfl

end

/-! ### The silence test (R70, R91) -/

theorem leadMaps_iff (s : State) (x : Fin 2) :
    leadMaps s x = true ↔ ∃ w, s.la.lead = some w ∧ MapsLine (writerOf s w).voice x := by
  unfold leadMaps
  cases s.la.lead <;> simp [mem_mappedLines]

/-- Filter records whose levels have not changed leave a lead as silent as it was. -/
theorem Refiltered.silent {s t : State} (h : Refiltered s t) : Silent t ↔ Silent s := by
  rw [h.same]
  constructor
  · rintro ⟨w, lead, limit, reached, x, i, own, maps, speech⟩
    exact ⟨w, lead, limit, reached, x, i, own, maps, speech.imp_right (.imp_right (h.level i).symm.trans)⟩
  · rintro ⟨w, lead, limit, reached, x, i, own, maps, speech⟩
    exact ⟨w, lead, limit, reached, x, i, own, maps, speech.imp_right (.imp_right (h.level i).trans)⟩

/-- A capture on a voice line makes a silence test where the lead's voice map names the line. -/
theorem takeCapture_silence {i : LineNo} {x : Fin 2} (voice : voiceIndex i = some x) (first : Stamp) (s : State) :
    (takeCapture i first s).work.silence = true ↔ s.work.silence = true ∨
      (Silent (takeCapture i first s) ∧ ∃ w, s.la.lead = some w ∧ MapsLine (writerOf s w).voice x) := by
  have named : leadMaps (addOnset x first (captureCounted i s)) x = true ↔
      ∃ w, s.la.lead = some w ∧ MapsLine (writerOf s w).voice x := leadMaps_iff ..
  rw [takeCapture_voice voice, ← named]
  split
  · rename_i maps
    rw [and_iff_left maps]
    exact silenceTest_tests (addOnset x first (captureCounted i s))
  · rename_i other
    exact (or_iff_left fun both => other both.2).symm

section
variable {a v : State} {i : LineNo} {first : Stamp} (found : CaptureFound a v i first)
  (quiet : ∀ x, x ≠ i → QuietLine a x)

include found quiet

theorem CaptureFound.silence {x : Fin 2} (voice : voiceIndex i = some x) :
    let t := tickStepNow a
    t.work = { a.work with silence := t.work.silence } ∧
    (t.work.silence = true ↔ a.work.silence = true ∨
      (Silent t ∧ ∃ w, a.la.lead = some w ∧ MapsLine (writerOf a w).voice x)) := by
  have after := found.refiltered quiet
  have work : (tickStepNow a).work = (takeCapture i first v).work := by rw [after.same]
  have tested := takeCapture_silence voice first v
  obtain ⟨_, e⟩ := takeCapture_onset voice first v
  refine ⟨?_, ?_⟩
  · rw [work, e, found.same quiet]
    rfl
  · rw [work, tested, after.silent, found.same quiet]
    rfl

/-! ### Triggers (R63, R127, R128) -/

/-- With its wait list empty a trigger makes TRIGGER_UNUSED alone. -/
theorem CaptureFound.unused {j : Fin 4} (trigger : cueIndex i = some j) (list : get a.disp.waits j = []) :
    Journaled a (tickStepNow a) a.tb.frame (.triggerUnused j first (frameOf first)) ∧ (tickStepNow a).disp = a.disp := by
  have after := found.refiltered quiet
  have same := found.same quiet
  have empty : get (captureCounted i v).disp.waits j = [] := (found.waits j trigger).trans list
  rw [takeCapture_trigger trigger, fireTrigger_unused empty] at after
  have kept : RecordsKept (journal (.triggerUnused j first (frameOf first)) (captureCounted i v)) (tickStepNow a) :=
    .same (by rw [after.same]) (by rw [after.same])
  have record := (journaled_of_kept kept).of_buffer (u := a) (by rw [captureCounted, same]; rfl)
  rw [show (captureCounted i v).tb.frame = a.tb.frame by rw [captureCounted, same]; rfl] at record
  refine ⟨record, ?_⟩
  rw [after.same]
  dsimp only
  rw [journal_disp, captureCounted, same]
  rfl

end

/-- a with the tick and the filters of a tick step, and with wait lists of its own. -/
def ticking (tb : Timebase) (capture : Vector Capture 6) (waits : Vector (List SlotNo) 4) (a : State) : State :=
  { a with tb := { tb with frame := a.tb.frame }, capture := capture, disp := { a.disp with waits := waits } }

/-- An acceptance reads neither the tick, the filters nor the wait lists. -/
theorem Accepted.of_ticking {tb : Timebase} {capture : Vector Capture 6} {waits : Vector (List SlotNo) 4} {a t : State}
    {n : SlotNo} {rest : List SlotNo} {d : Cue} {k : CtxNo} (h : Accepted (ticking tb capture waits a) t n rest d k)
    (after : Vector Capture 6) : Accepted a { t with capture := after } n rest d k :=
  ⟨h.due, h.stack, h.running, h.record, h.context⟩

theorem DueTested.of_ticking {tb : Timebase} {capture : Vector Capture 6} {waits : Vector (List SlotNo) 4} {a t : State}
    {n : SlotNo} {rest : List SlotNo} {d : Cue} (h : DueTested (ticking tb capture waits a) t n rest d)
    (after : Vector Capture 6) : DueTested a { t with capture := after } n rest d := by
  refine ⟨h.stays, fun k free lower empty above => ?_, fun k free lower top above => ?_,
    fun k j x below free lower top ctx under running above => ?_⟩
  · exact (h.overNothing k free lower empty above).imp_left (·.of_ticking after)
  · exact (h.overLive k free lower top above).imp_left (·.of_ticking after)
  · exact (h.overCue k j x below free lower top ctx under running above).imp_left (·.of_ticking after)

/-- What becomes of a cue that is due reads neither the tick, the filters nor the wait lists. -/
theorem BecomesDue.of_ticking {tb : Timebase} {capture : Vector Capture 6} {waits : Vector (List SlotNo) 4} {a t : State}
    {n : SlotNo} {c : Cue} {start : Frame} (h : BecomesDue (ticking tb capture waits a) t n c start)
    (after : Vector Capture 6) : BecomesDue a { t with capture := after } n c start :=
  ⟨h.marked, h.record, h.tested.of_ticking after, h.records⟩

/-- The cue at the head of the wait list becomes DUE with the captured frame as its start frame. -/
theorem CaptureFound.fires {a v : State} {i : LineNo} {first : Stamp} (found : CaptureFound a v i first)
    (quiet : ∀ x, x ≠ i → QuietLine a x) {j : Fin 4} (trigger : cueIndex i = some j) {n : SlotNo} {rest : List SlotNo}
    {c : Cue} (list : get a.disp.waits j = n :: rest) (held : cueOf a n = some c) (due : a.disp.due = []) :
    BecomesDue a (tickStepNow a) n c (frameOf first) := by
  have after := found.refiltered quiet
  have same := found.same quiet
  have head : get (captureCounted i v).disp.waits j = n :: rest := (found.waits j trigger).trans list
  let u := ticking (tickTaken a).tb (captureCounted i v).capture (put a.disp.waits j rest) a
  have popped : { captureCounted i v with
      disp := { (captureCounted i v).disp with waits := put (captureCounted i v).disp.waits j rest } } = u := by
    rw [captureCounted, same]
    rfl
  rw [takeCapture_trigger trigger, fireTrigger_fires head, popped] at after
  rw [after.same]
  exact (dueTest_becomeDue (s := u) held due _).of_ticking _

/-- Settles O19: the capture is handed on between the steps of the other lines, and becomes what its line makes of it. -/
theorem capturesBecomeOnsetsAndTriggers : Obligations.CapturesBecomeOnsetsAndTriggers := by
  intro m s a i finds locked rises running c set level sampled other enough selected first stamped
  have accepted : (lineFilter (stampNow a) a i).2 = some first := by
    rw [lineFilter, stepFilter_accepted _ sampled other enough]
    exact congrArg some stamped
  have taken : isCapture a i = true := by rw [isCapture, running, selected, Bool.and_self]
  obtain ⟨v, found⟩ := captureFound_of_accepted accepted taken
  refine ⟨_, exec_tickStep finds locked rises, fun x voice => found.onset voice,
    fun x voice quiet => found.silence quiet voice, fun j _ trigger => found.waits_drop trigger,
    fun j trigger quiet => ⟨fun list => found.unused quiet trigger list, fun n rest cue list held due =>
      found.fires quiet trigger list held due⟩⟩

end Sys2Proof.Machine
end

