-- ==== Sys2Proof/Proofs/Resumptions.lean ====
section
/-! A resumption (R70 to R77): the candidate that is chosen and consumed, what its sample does to the writer's estimate, and
what the row builder and the lead arbiter leave of all this before it. -/

namespace Sys2Proof.Machine

/-! ### The candidate chosen (R70 to R72) -/

/-- R72's order of the candidates: o is nearer to the estimate than p, or as near and no earlier. -/
def NoFarther (stamp : Stamp) (estimate : Nat) (o p : Stamp) : Prop :=
  (tickDiff stamp o - estimate).natAbs < (tickDiff stamp p - estimate).natAbs ∨
  ((tickDiff stamp o - estimate).natAbs = (tickDiff stamp p - estimate).natAbs ∧ tickDiff stamp o ≤ tickDiff stamp p)

theorem NoFarther.refl (stamp : Stamp) (estimate : Nat) (o : Stamp) : NoFarther stamp estimate o o := .inr ⟨rfl, le_rfl⟩

theorem NoFarther.trans {stamp o p q : Stamp} {estimate : Nat} (h : NoFarther stamp estimate o p)
    (g : NoFarther stamp estimate p q) : NoFarther stamp estimate o q := by
  unfold NoFarther at *
  omega

theorem tickDiff_inj {stamp o p : Stamp} (h : tickDiff stamp o = tickDiff stamp p) : o = p :=
  sub_right_injective (BitVec.eq_of_toInt_eq h)

theorem NoFarther.antisymm {stamp o p : Stamp} {estimate : Nat} (h : NoFarther stamp estimate o p)
    (g : NoFarther stamp estimate p o) : o = p := by
  refine tickDiff_inj (stamp := stamp) ?_
  unfold NoFarther at *
  omega

theorem nearer_iff (stamp : Stamp) (estimate : Nat) (o p : Stamp) :
    nearer stamp estimate o p = true ↔ ¬NoFarther stamp estimate p o := by
  simp only [nearer, NoFarther, Bool.or_eq_true, Bool.and_eq_true, decide_eq_true_eq, beq_iff_eq]
  omega

theorem NoFarther.of_nearer {stamp o p : Stamp} {estimate : Nat} (h : nearer stamp estimate o p = true) :
    NoFarther stamp estimate o p := by
  rw [nearer_iff] at h
  unfold NoFarther at *
  omega

/-- The choice falls on a member of the list that is no farther than any. -/
theorem chooseOnset_least (stamp : Stamp) (estimate : Nat) (first : Stamp) (rest : List Stamp) :
    ∃ o ∈ first :: rest, chooseOnset stamp estimate (first :: rest) = some o ∧
      ∀ p ∈ first :: rest, NoFarther stamp estimate o p := by
  induction rest generalizing first with
  | nil => exact ⟨first, by simp, rfl, by simpa using NoFarther.refl stamp estimate first⟩
  | cons second more ih =>
    obtain ⟨o, listed, chosen, least⟩ := ih second
    rw [chooseOnset, chosen]
    by_cases near : nearer stamp estimate o first = true
    · refine ⟨o, List.mem_cons_of_mem _ listed, if_pos near, fun p member => ?_⟩
      rcases List.mem_cons.mp member with rfl | later
      · exact .of_nearer near
      · exact least p later
    · refine ⟨first, List.mem_cons_self, if_neg near, fun p member => ?_⟩
      rw [nearer_iff, not_not] at near
      rcases List.mem_cons.mp member with rfl | later
      · exact .refl ..
      · exact near.trans (least p later)

theorem chooseOnset_of_least {stamp o : Stamp} {estimate : Nat} {list : List Stamp} (listed : o ∈ list)
    (least : ∀ p ∈ list, NoFarther stamp estimate o p) : chooseOnset stamp estimate list = some o := by
  cases list with
  | nil => exact absurd listed List.not_mem_nil
  | cons first rest =>
    obtain ⟨p, member, chosen, near⟩ := chooseOnset_least stamp estimate first rest
    rw [chosen, (near o listed).antisymm (least p member)]

/-- The stamps that the model chooses among. -/
def candidates (w : Writer) (stamp : Stamp) (s : State) : List Stamp :=
  ((mappedOnsets w s).filter (isCandidate w stamp s)).map Onset.stamp

theorem mem_candidates (w : Writer) (stamp o : Stamp) (s : State) : o ∈ candidates w stamp s ↔ Candidate s w stamp o := by
  simp only [candidates, mappedOnsets, isCandidate, lmaxBound, Nat.cast_mul, Nat.cast_ofNat, List.mem_map, List.mem_filter,
    List.mem_flatMap, mem_mappedLines, Bool.and_eq_true, Bool.not_eq_true', decide_eq_true_eq]
  constructor
  · rintro ⟨x, ⟨⟨v, mapped, listed⟩, ⟨unmarked, above⟩, below⟩, rfl⟩
    exact ⟨⟨v, mapped, x, listed, rfl, unmarked⟩, above, below⟩
  · rintro ⟨⟨v, mapped, x, listed, rfl, unmarked⟩, above, below⟩
    exact ⟨x, ⟨⟨v, mapped, listed⟩, ⟨unmarked, above⟩, below⟩, rfl⟩

section
variable {s : State} {w : Writer} {stamp : Stamp} {estimate : Nat} (set : (get s.est w).estimate = some estimate)

/-- A resumption without a candidate is counted, and nothing more (R71). -/
theorem takeResumption_of_none (none : ∀ o, ¬Candidate s w stamp o) :
    takeResumption w stamp s = count w (fun c => { c with unmatched := c.unmatched + 1 }) s := by
  have empty : candidates w stamp s = [] :=
    List.eq_nil_iff_forall_not_mem.mpr fun o listed => none o ((mem_candidates ..).mp listed)
  unfold candidates at empty
  simp only [takeResumption, empty, chooseOnset]

include set in
/-- The chosen candidate is consumed, and its sample is gated (R72, R73, R75). -/
theorem takeResumption_of_chosen {o : Stamp} {x : Nat} (chosen : Chosen s w stamp estimate o) (sample : tickDiff stamp o = x) :
    takeResumption w stamp s = takeSample w estimate x o stamp (consumeOnset w o s) := by
  have least : chooseOnset stamp estimate (candidates w stamp s) = some o :=
    chooseOnset_of_least ((mem_candidates ..).mpr chosen.toCandidate)
      fun p listed => chosen.nearest p ((mem_candidates ..).mp listed)
  unfold candidates at least
  simp only [takeResumption, set, Option.getD_some, least, sample, Int.toNat_natCast]

end

/-- The candidates and the choice among them depend on the settings and the onsets alone. -/
theorem Candidate.of_same {s t : State} {w : Writer} {stamp o : Stamp} (h : Candidate s w stamp o)
    (settings : t.settings = s.settings) (onsets : t.onsets = s.onsets) : Candidate t w stamp o := by
  obtain ⟨listed, above, below⟩ := h
  rw [← onsets, writerOf, ← settings] at listed
  rw [← settings] at above below
  exact ⟨listed, above, below⟩

theorem Chosen.of_same {s t : State} {w : Writer} {stamp o : Stamp} {estimate : Nat} (h : Chosen s w stamp estimate o)
    (settings : t.settings = s.settings) (onsets : t.onsets = s.onsets) : Chosen t w stamp estimate o :=
  ⟨h.toCandidate.of_same settings onsets, fun p other => h.nearest p (other.of_same settings.symm onsets.symm)⟩

/-! ### The consumed marks (R60, R73) -/

/-- Writer w's mark is set on the onsets of the chosen stamp in the lists that the voice map reads, and on no other. -/
theorem get_consumeOnset (w : Writer) (o : Stamp) (s : State) (v : Fin 2) :
    (¬MapsLine (writerOf s w).voice v → get (consumeOnset w o s).onsets v = get s.onsets v) ∧
    (MapsLine (writerOf s w).voice v →
      get (consumeOnset w o s).onsets v = (get s.onsets v).map (markOnset w o)) := by
  unfold consumeOnset
  cases (writerOf s w).voice <;> fin_cases v <;> simp [MapsLine, mappedLines, get_change]

/-! ### The sample (R75 to R77) -/

theorem sampleDistance_eq (estimate x : Nat) : sampleDistance estimate x = (estimate - x) + (x - estimate) := by
  unfold sampleDistance
  split <;> omega

section
variable {s : State} {w : Writer} {estimate x : Nat} (o stamp : Stamp)

theorem takeSample_accepts (within : s.settings.gate = 0 ∨ (estimate - x) + (x - estimate) ≤ s.settings.gate) :
    takeSample w estimate x o stamp s = count w (fun c => { c with accepted := c.accepted + 1 })
      (onEst w (fun _ =>
        { estimate := some (clampEstimate s (movedEstimate estimate x s.settings.smooth)), rejects := 0 }) s) := by
  rw [takeSample, sampleDistance_eq, if_pos within]

variable (gated : s.settings.gate ≠ 0) (outside : s.settings.gate < (estimate - x) + (x - estimate))

include gated outside in
theorem takeSample_rejects (few : (get s.est w).rejects + 1 < 3) :
    takeSample w estimate x o stamp s = count w (fun c => { c with rejected := c.rejected + 1 })
      (onEst w (fun e => { e with rejects := e.rejects + 1 }) s) := by
  rw [takeSample, sampleDistance_eq, if_neg (not_or_intro gated (Nat.not_le.mpr outside)), if_pos few]

/-- The state after a sample that reseeds the estimate, before its record (R76). -/
def reseeded (w : Writer) (x : Nat) (s : State) : State :=
  count w (fun c => { c with accepted := c.accepted + 1 }) (onEst w (fun _ => { estimate := some x, rejects := 0 }) s)

include gated outside in
/-- A candidate's sample lies within the bounds of an estimate, so that the third reject takes it as it is. -/
theorem takeSample_reseeds (third : 3 ≤ (get s.est w).rejects + 1) (above : 16 * s.settings.lmin ≤ x)
    (below : x ≤ 16 * max s.settings.lmin s.settings.lmax) :
    takeSample w estimate x o stamp s = if roleOf s w = .standby then reseeded w x s
      else journal (.latencyReseed w estimate x o stamp) (reseeded w x s) := by
  have clamped : clampEstimate s x = x := by
    by_contra moved
    rw [clampEstimate, ← ne_eq, clampTo_ne_iff, lmaxBound] at moved
    omega
  rw [takeSample, sampleDistance_eq, if_neg (not_or_intro gated (Nat.not_le.mpr outside)), if_neg (Nat.not_lt.mpr third),
    clamped]
  rfl

end

/-! ### What a sample changes -/

/-- t is s but for writer w's estimate and counters, the onsets' marks, and the records with their flag. -/
structure SampleFrame (w : Writer) (s t : State) : Prop where
  same : t = { s with
    counters := put s.counters w (get t.counters w), est := t.est, onsets := t.onsets, pe := t.pe
    control := { s.control with attn := t.control.attn } }
  others : ∀ v, v ≠ w → get t.est v = get s.est v

theorem SampleFrame.trans {w : Writer} {s t u : State} (h : SampleFrame w s t) (g : SampleFrame w t u) :
    SampleFrame w s u where
  same := by
    have e := g.same
    rw [h.same] at e
    simpa only [put_put_same] using e
  others v other := (g.others v other).trans (h.others v other)

theorem count_sampleFrame (w : Writer) (f : Counters → Counters) (s : State) : SampleFrame w s (count w f s) :=
  ⟨by simp only [count, change, get_put_same], fun _ _ => rfl⟩

theorem onEst_sampleFrame (w : Writer) (f : Estimator → Estimator) (s : State) : SampleFrame w s (onEst w f s) :=
  ⟨by simp only [onEst, put_get_same], fun _ other => get_put_other _ _ (Ne.symm other)⟩

theorem journal_sampleFrame (w : Writer) (r : Record) (s : State) : SampleFrame w s (journal r s) := by
  rcases journal_cases r s with ⟨_, e⟩ | ⟨_, e⟩ <;> rw [e]
  · exact ⟨by simp only [put_get_same], fun _ _ => rfl⟩
  · exact ⟨by simp only [raise, put_get_same], fun _ _ => rfl⟩

theorem consumeOnset_sampleFrame (w : Writer) (o : Stamp) (s : State) : SampleFrame w s (consumeOnset w o s) :=
  ⟨by simp only [consumeOnset, put_get_same], fun _ _ => rfl⟩

theorem takeSample_sampleFrame (w : Writer) (estimate x : Nat) (o stamp : Stamp) (s : State) :
    SampleFrame w s (takeSample w estimate x o stamp s) := by
  unfold takeSample
  dsimp only
  split
  · exact (onEst_sampleFrame ..).trans (count_sampleFrame ..)
  · split
    · exact (onEst_sampleFrame ..).trans (count_sampleFrame ..)
    · split
      · exact (onEst_sampleFrame ..).trans (count_sampleFrame ..)
      · exact ((onEst_sampleFrame ..).trans (count_sampleFrame ..)).trans (journal_sampleFrame ..)

theorem takeResumption_sampleFrame (w : Writer) (stamp : Stamp) (s : State) :
    SampleFrame w s (takeResumption w stamp s) := by
  unfold takeResumption
  dsimp only
  split
  · exact (consumeOnset_sampleFrame ..).trans (takeSample_sampleFrame ..)
  · exact count_sampleFrame ..

/-! ### What the row builder and the lead arbiter leave of it -/

/-- The counts of samples are the same. -/
structure SamplesKept (s t : State) : Prop where
  accepted : ∀ w, (get t.counters w).accepted = (get s.counters w).accepted
  rejected : ∀ w, (get t.counters w).rejected = (get s.counters w).rejected
  unmatched : ∀ w, (get t.counters w).unmatched = (get s.counters w).unmatched

namespace SamplesKept

theorem of_eq {s t : State} (h : t.counters = s.counters) : SamplesKept s t := by
  refine ⟨fun w => ?_, fun w => ?_, fun w => ?_⟩ <;> rw [h]

theorem trans {s t u : State} (h : SamplesKept s t) (g : SamplesKept t u) : SamplesKept s u :=
  ⟨fun w => (g.accepted w).trans (h.accepted w), fun w => (g.rejected w).trans (h.rejected w),
    fun w => (g.unmatched w).trans (h.unmatched w)⟩

end SamplesKept

theorem DropsAlone.samples {s t : State} (h : DropsAlone s t) : SamplesKept s t := by
  refine ⟨fun w => ?_, fun w => ?_, fun w => ?_⟩ <;> rw [h.counters w]

/-- A change of other counts. -/
theorem count_samples {f : Counters → Counters}
    (h : ∀ c, (f c).accepted = c.accepted ∧ (f c).rejected = c.rejected ∧ (f c).unmatched = c.unmatched) (v : Writer)
    (s : State) : SamplesKept s (count v f s) := by
  have same (w : Writer) : get (count v f s).counters w = if v = w then f (get s.counters w) else get s.counters w := by
    rw [count, get_change]
    split
    · rename_i own
      rw [own]
    · rfl
  refine ⟨fun w => ?_, fun w => ?_, fun w => ?_⟩ <;> rw [same] <;> split
  · exact (h _).1
  · rfl
  · exact (h _).2.1
  · rfl
  · exact (h _).2.2
  · rfl

theorem closeRow_samples (w : Writer) (reason : CloseReason) (s : State) : SamplesKept s (closeRow w reason s).1 := by
  by_cases empty : (builderOf s w).chars = []
  · rw [closeRow_of_empty empty]
    exact .of_eq rfl
  · by_cases role : roleOf s w = .lead
    · have left : SamplesKept s (rowLeaves w s) :=
        (count_samples (f := fun c => { c with rowsClosed := c.rowsClosed + 1 }) (fun _ => ⟨rfl, rfl, rfl⟩) w s).trans
          (.of_eq rfl)
      rw [closeRow_of_lead empty role]
      exact left.trans ((joinTail_dropsAlone ..).trans (feedAttempt_dropsAlone _)).samples
    · rw [closeRow_of_other empty role]
      exact (count_samples (f := fun c => { c with rowsClosed := c.rowsClosed + 1, rowsDropped := c.rowsDropped + 1 })
        (fun _ => ⟨rfl, rfl, rfl⟩) w s).trans (.of_eq rfl)

theorem insertionTest_dropsAlone (s : State) : DropsAlone s (insertionTest s).1 := by
  unfold insertionTest
  repeat' split
  · exact ((disp_dropsAlone s _).trans (feedAttempt_dropsAlone _)).trans (dueTest_dropsAlone _)
  all_goals exact .of_eq rfl

theorem leadAppeared_dropsAlone (s : State) : DropsAlone s (leadAppeared s) :=
  (disp_dropsAlone s _).trans (insertionTest_dropsAlone _)

theorem silenceTest_dropsAlone (s : State) : DropsAlone s (silenceTest s) := by
  obtain ⟨b, e⟩ := silenceTest_eq s
  rw [e]
  exact .of_eq rfl

/-- The record and the flag of a change of lead. -/
theorem leadRecorded_dropsAlone (r : Record) (s : State) (la : Arbiter) :
    DropsAlone s (raise .lead (journal r { s with la := la })) :=
  .of_eq (journal_counters r { s with la := la })

theorem giveLead_dropsAlone (w : Writer) (reason : LeadReason) (s : State) : DropsAlone s (giveLead w reason s) := by
  unfold giveLead
  exact (((leadRecorded_dropsAlone ..).trans (leadAppeared_dropsAlone _)).trans (feedAttempt_dropsAlone _)).trans
    (silenceTest_dropsAlone _)

theorem switchLead_samples (w : Writer) (reason : LeadReason) (s : State) : SamplesKept s (switchLead w reason s) := by
  unfold switchLead
  split
  · exact (giveLead_dropsAlone ..).samples
  · exact (closeRow_samples ..).trans (((leadRecorded_dropsAlone ..).trans (feedAttempt_dropsAlone _)).trans
      (silenceTest_dropsAlone _)).samples

theorem completeHandoff_samples (reported : Bool) (s : State) : SamplesKept s (completeHandoff reported s) := by
  unfold completeHandoff
  repeat' split
  · exact switchLead_samples ..
  all_goals exact .of_eq rfl

/-- A text character, placed or with the wrap or hard break before it (R35 to R37). -/
theorem takeText_kept (w : Writer) (ch : Byte) (stamp : Stamp) (s : State) :
    SteadyFrame s (takeText w ch stamp s).1 ∧ SamplesKept s (takeText w ch stamp s).1 := by
  have built (f : Builder → Builder) (u : State) : SteadyFrame u (onBuilder w f u) ∧ SamplesKept u (onBuilder w f u) :=
    ⟨.update u u.la _ u.work u.counters u.nextRowId, .of_eq rfl⟩
  have closed (f : Builder → Builder) (u : State) : SteadyFrame u (onBuilder w f (closeRow w .wrap u).1) ∧
      SamplesKept u (onBuilder w f (closeRow w .wrap u).1) :=
    ⟨(closeRow_steady ..).trans (built f _).1, (closeRow_samples ..).trans (built f _).2⟩
  unfold takeText
  dsimp only
  split
  · exact built ..
  · split
    · split
      · exact closed ..
      · exact ⟨(built ..).1.trans (closed ..).1, (built ..).2.trans (closed ..).2⟩
    · exact closed ..

/-! ### The outcomes of a sample, after the row builder and the lead arbiter -/

/-- u has of a what a sample reads and counts. -/
structure ReadyForSample (a u : State) : Prop extends SamplesKept a u where
  settings : u.settings = a.settings
  est : u.est = a.est

@[simp] theorem get_count (w : Writer) (f : Counters → Counters) (s : State) :
    get (count w f s).counters w = f (get s.counters w) := get_put_same ..

@[simp] theorem get_onEst (w : Writer) (f : Estimator → Estimator) (s : State) :
    get (onEst w f s).est w = f (get s.est w) := get_put_same ..

theorem takeSample_leaves (w : Writer) (estimate x : Nat) (o stamp : Stamp) (s : State) :
    (takeSample w estimate x o stamp s).onsets = s.onsets ∧
    (get (takeSample w estimate x o stamp s).counters w).unmatched = (get s.counters w).unmatched := by
  unfold takeSample
  dsimp only
  repeat' split
  case isFalse.isFalse.isFalse => exact ⟨(journal_steady ..).onsets, by simp⟩
  all_goals simp

namespace ReadyForSample

variable {a u : State} (ready : ReadyForSample a u) {w : Writer} {estimate x : Nat} (o stamp : Stamp)
include ready

/-- Within the gate the estimate moves towards the sample (R77). -/
theorem accepts (within : a.settings.gate = 0 ∨ (estimate - x) + (x - estimate) ≤ a.settings.gate) :
    let t := takeSample w estimate x o stamp u
    get t.est w = { rejects := 0, estimate := some (clampTo (16 * a.settings.lmin)
      (16 * max a.settings.lmin a.settings.lmax) (movedEstimate estimate x a.settings.smooth)) } ∧
    (get t.counters w).accepted = (get a.counters w).accepted + 1 ∧ t.pe = u.pe := by
  rw [← ready.settings] at within
  rw [takeSample_accepts o stamp within]
  refine ⟨?_, ?_, rfl⟩
  · rw [count_est, get_onEst, clampEstimate, lmaxBound, ready.settings]
  · rw [get_count, onEst_counters, ready.accepted]

/-- Outside the gate the first two rejects leave the estimate (R75). -/
theorem rejects (set : (get a.est w).estimate = some estimate) (gated : a.settings.gate ≠ 0)
    (outside : a.settings.gate < (estimate - x) + (x - estimate)) (few : (get a.est w).rejects + 1 < 3) :
    let t := takeSample w estimate x o stamp u
    get t.est w = { estimate := some estimate, rejects := (get a.est w).rejects + 1 } ∧
    (get t.counters w).rejected = (get a.counters w).rejected + 1 ∧ t.pe = u.pe := by
  rw [← ready.settings] at gated outside
  rw [takeSample_rejects o stamp gated outside (by rw [ready.est]; exact few)]
  refine ⟨?_, ?_, rfl⟩
  · rw [count_est, get_onEst, ready.est, set]
  · rw [get_count, onEst_counters, ready.rejected]

/-- The third reject takes the sample as the estimate, on record for a writer who is LEAD or TAKING (R76). -/
theorem reseeds (gated : a.settings.gate ≠ 0) (outside : a.settings.gate < (estimate - x) + (x - estimate))
    (third : 3 ≤ (get a.est w).rejects + 1) (above : 16 * a.settings.lmin ≤ x)
    (below : x ≤ 16 * max a.settings.lmin a.settings.lmax) :
    let t := takeSample w estimate x o stamp u
    get t.est w = { estimate := some x, rejects := 0 } ∧
    (get t.counters w).accepted = (get a.counters w).accepted + 1 ∧
    (get t.counters w).rejected = (get a.counters w).rejected ∧
    (roleOf t w ≠ .standby → Recorded t (.latencyReseed w estimate x o stamp) ∧
      Journaled u t u.tb.frame (.latencyReseed w estimate x o stamp)) ∧
    (roleOf t w = .standby → t.pe = u.pe) := by
  intro t
  have frame : SampleFrame w u t := takeSample_sampleFrame ..
  have role : roleOf t w = roleOf u w := by rw [roleOf, frame.same, roleOf]
  have est : get (reseeded w x u).est w = { estimate := some x, rejects := 0 } := get_onEst ..
  have accepted : (get (reseeded w x u).counters w).accepted = (get a.counters w).accepted + 1 := by
    rw [reseeded, get_count, onEst_counters, ready.accepted]
  have rejected : (get (reseeded w x u).counters w).rejected = (get a.counters w).rejected := by
    rw [reseeded, get_count, onEst_counters, ready.rejected]
  rw [← ready.settings] at gated outside above below
  rw [role]
  have outcome : t = _ := takeSample_reseeds o stamp gated outside (by rw [ready.est]; exact third) above below
  by_cases standby : roleOf u w = .standby
  · rw [if_pos standby] at outcome
    rw [outcome]
    exact ⟨est, accepted, rejected, fun leads => absurd standby leads, fun _ => rfl⟩
  · rw [if_neg standby] at outcome
    rw [outcome, (journal_steady ..).est, journal_counters]
    exact ⟨est, accepted, rejected, fun _ => ⟨journal_recorded .., journaled_of_kept (s := reseeded w x u) (.refl _)⟩,
      fun other => absurd other standby⟩

end ReadyForSample

/-! ### The delivery before its resumption -/

/-- The state in which the estimator has the resumption: the character taken, and the port's counters back at 0 (R25, R30). -/
def textHeard (w : Writer) (ch : Byte) (noisy : Bool) (a : State) : State :=
  touchPort w (handOn w .text ch (stampNow a) (heard w noisy (looking w a)))

section
variable (w : Writer) (ch : Byte) (noisy : Bool) (a : State)

theorem textHeard_steady : SteadyFrame (delivered w noisy a) (textHeard w ch noisy a) := by
  rw [← touchPort_heard]
  exact ((takeText_kept ..).1.trans (completeHandoff_steady ..)).touched w

theorem textHeard_samples : SamplesKept a (textHeard w ch noisy a) := by
  have counted : SamplesKept a (heard w noisy (looking w a)) :=
    (count_samples (f := fun c => { c with
      characters := c.characters + 1, noise := if noisy then c.noise + 1 else c.noise }) (fun _ => ⟨rfl, rfl, rfl⟩) w a).trans
      (.of_eq rfl)
  have handed : SamplesKept a (handOn w .text ch (stampNow a) (heard w noisy (looking w a))) :=
    (counted.trans (takeText_kept ..).2).trans (completeHandoff_samples ..)
  exact handed.trans (.of_eq (by rw [textHeard, touchPort_eq]))

theorem textHeard_pauseFlag : (portOf (textHeard w ch noisy a) w).pauseFlag = (portOf a w).pauseFlag := by
  rw [portOf, (textHeard_steady w ch noisy a).ports]
  exact portOf_delivered_pauseFlag w noisy a

/-- A buffer with room takes the character, and nothing else moves (R35). -/
theorem textHeard_of_room (room : (builderOf a w).chars.length < a.settings.rowWidth) :
    textHeard w ch noisy a = { delivered w noisy a with
      builders := put a.builders w (placeChar ch (stampNow a) (builderOf a w)) } := by
  obtain ⟨ports, la, settled, settles⟩ := touchPort_settles a w noisy
  rw [textHeard, settled]
  simp only [handOn, takeText_of_room (s := heard w noisy (looking w a)) room, completeHandoff_unreported]
  exact settles _ rfl rfl

end

/-! ### The resumption in its delivery (R30) -/

/-- The estimator's state with the pause flag cleared. -/
def resuming (w : Writer) (ch : Byte) (noisy : Bool) (a : State) : State :=
  onPort w (fun p => { p with pauseFlag := false }) (textHeard w ch noisy a)

theorem exec_resumes {m : Moment} {w : Writer} {edges : List Nat} {s a : State} {d : Nat} {ch : Byte} (finds : Finds m s a)
    (receives : ReceivesByte a w edges d ch) (text : classify ch = .text) (solid : ch ≠ 0x20)
    (flag : (portOf a w).pauseFlag = true) :
    exec (.characterAccepted m w edges) s =
      .next (takeResumption w (stampNow a) (resuming w ch (charNoisy edges d (writerOf a w).parity) a)) := by
  have set : (portOf (textHeard w ch (charNoisy edges d (writerOf a w).parity) a) w).pauseFlag = true := by
    rw [textHeard_pauseFlag, flag]
  rw [exec_text finds receives text]
  exact congrArg Host.Outcome.next (if_pos ⟨solid, set⟩)

section
variable (w : Writer) (ch : Byte) (noisy : Bool) (a : State)

theorem resuming_ready : ReadyForSample a (resuming w ch noisy a) where
  toSamplesKept := (textHeard_samples w ch noisy a).trans (.of_eq rfl)
  settings := (textHeard_steady w ch noisy a).applied
  est := (textHeard_steady w ch noisy a).est

theorem resuming_onsets : (resuming w ch noisy a).onsets = a.onsets := (textHeard_steady w ch noisy a).onsets

theorem resuming_pauseFlag : (portOf (resuming w ch noisy a) w).pauseFlag = false := by
  simp only [portOf, resuming, onPort, change, get_put_same]

theorem resuming_of_room (room : (builderOf a w).chars.length < a.settings.rowWidth) :
    resuming w ch noisy a = onPort w (fun p => { p with pauseFlag := false }) { delivered w noisy a with
      builders := put a.builders w (placeChar ch (stampNow a) (builderOf a w)) } := by
  rw [resuming, textHeard_of_room _ _ _ _ room]

theorem resuming_pe (room : (builderOf a w).chars.length < a.settings.rowWidth) : (resuming w ch noisy a).pe = a.pe := by
  rw [resuming_of_room _ _ _ _ room]
  rfl

theorem resuming_frame : (resuming w ch noisy a).tb.frame = a.tb.frame :=
  (congrArg Timebase.frame (textHeard_steady w ch noisy a).tb).trans rfl

variable {w ch noisy a} in
/-- A sample leaves of the delivery what the statement about a resumption frames. -/
theorem SampleFrame.of_room {t : State} (h : SampleFrame w (resuming w ch noisy a) t)
    (room : (builderOf a w).chars.length < a.settings.rowWidth) :
    t = { delivered w noisy a with
      ports := t.ports, builders := put a.builders w (builderOf t w), counters := put a.counters w (get t.counters w)
      est := t.est, onsets := t.onsets, pe := t.pe, control := { a.control with attn := t.control.attn } } := by
  have same := h.same
  rw [resuming_of_room _ _ _ _ room] at same
  have built : builderOf t w = placeChar ch (stampNow a) (builderOf a w) := by
    rw [builderOf, same]
    exact get_put_same ..
  have counted : put (delivered w noisy a).counters w (get t.counters w) = put a.counters w (get t.counters w) :=
    put_put_same ..
  have ports : t.ports = put (delivered w noisy a).ports w { portOf (delivered w noisy a) w with pauseFlag := false } := by
    rw [same]
    rfl
  rw [built, ← counted, ports]
  exact same

end

/-- Settles O31: the candidate chosen, the marks it consumes, and the outcome of its sample by the gate and the rejects. -/
theorem resumptionGivesALatencySample : Obligations.ResumptionGivesALatencySample := by
  intro m w edges s a d ch estimate finds receives text solid flag set room
  rw [exec_resumes finds receives text solid flag]
  generalize charNoisy edges d (writerOf a w).parity = noisy
  have ready := resuming_ready w ch noisy a
  have onsets := resuming_onsets w ch noisy a
  have clear := resuming_pauseFlag w ch noisy a
  have frame := takeResumption_sampleFrame w (stampNow a) (resuming w ch noisy a)
  have pe := resuming_pe w ch noisy a
  have now := resuming_frame w ch noisy a
  have inRoom := frame.of_room
  generalize resuming w ch noisy a = p at *
  refine ⟨_, rfl, ?_, fun v other => ?_, inRoom, fun none => ?_, fun o x chosen sample => ?_⟩
  · rw [portOf, frame.same]
    exact clear
  · rw [frame.others v other, ready.est]
  · rw [takeResumption_of_none fun o h => none o (h.of_same ready.settings.symm onsets.symm)]
    refine ⟨ready.est, onsets, ?_, pe⟩
    rw [get_count, ready.unmatched]
  · rw [takeResumption_of_chosen (by rw [ready.est]; exact set) (chosen.of_same ready.settings onsets) sample]
    let c := consumeOnset w o p
    have ready' : ReadyForSample a c := ⟨ready.toSamplesKept.trans (.of_eq rfl), ready.settings, ready.est⟩
    obtain ⟨marks, unmatched⟩ := takeSample_leaves w estimate x o (stampNow a) c
    refine ⟨fun v => ?_, ?_, fun within => ?_, fun gated outside few => ?_, fun gated outside third => ?_⟩
    · obtain ⟨unmapped, mapped⟩ := get_consumeOnset w o p v
      rw [writerOf, ready.settings, onsets] at unmapped mapped
      rw [marks]
      exact ⟨unmapped, mapped⟩
    · rw [unmatched, ready'.unmatched]
    · obtain ⟨est, accepted, quiet⟩ := ready'.accepts o (stampNow a) within
      exact ⟨est, accepted, fun fits => quiet.trans (pe fits)⟩
    · obtain ⟨est, rejected, quiet⟩ := ready'.rejects o (stampNow a) set gated outside few
      exact ⟨est, rejected, fun fits => quiet.trans (pe fits)⟩
    · have above := chosen.above
      have below := chosen.below
      rw [sample] at above below
      obtain ⟨est, accepted, rejected, recorded, quiet⟩ := ready'.reseeds o (stampNow a) gated outside third
        (by exact_mod_cast above) (by exact_mod_cast below)
      refine ⟨est, accepted, rejected, fun leads => ?_, fun other fits => (quiet other).trans (pe fits)⟩
      obtain ⟨made, first⟩ := recorded leads
      refine ⟨made, fun fits => ?_⟩
      rw [← now]
      exact first.of_buffer (congrArg PageEngine.buffer (pe fits))

end Sys2Proof.Machine
end

