-- ==== Sys2Proof/Proofs/SilentLead.lean ====
section
/-! The two ends of a lead that need no code of its writer: a handoff that has waited too long (R88), and a silent lead that
fails over or is reported (R91, R92). -/

namespace Sys2Proof.Machine

/-! ### The commands in the state they find -/

theorem exec_handoffTimeout {m : Moment} {s a : State} (h : FindsPiece m s a) :
    exec (.handoffTimeout m) s = .next (timeoutWork a) :=
  congrArg Host.Outcome.next (piece_of_finds h timeoutWork)

theorem exec_silentLead {m : Moment} {s a : State} (h : FindsPiece m s a) :
    exec (.silentLead m) s = .next (silentLeadNow a) :=
  congrArg Host.Outcome.next (piece_of_finds h silentLeadNow)

/-! ### The handoff timeout (R88) -/

theorem handoffTimeoutNow_switches {s : State} {h : Handoff} (handoff : s.la.handoff = some h)
    (reached : handoffOver s = true) : handoffTimeoutNow s = switchLead h.taker .timeout s := by
  simp only [handoffTimeoutNow, handoff, reached, if_true]

/-- Settles O37: the marked timeout is a switch to the taker, with the frames the handoff has waited. -/
theorem handoffTimeoutSwitchesTheLead : Obligations.HandoffTimeoutSwitchesTheLead := by
  intro m s a lead h finds marked leads handoff limited waited
  let u : State := { a with work := { a.work with timeout := false } }
  have reached : handoffOver u = true := (handoffOver_iff u).mpr ⟨h, handoff, limited, waited⟩
  have switches : timeoutWork a = switchLead h.taker .timeout u := by
    rw [timeoutWork, if_pos marked]
    exact handoffTimeoutNow_switches handoff reached
  have switched := switchLead_leadSwitched (s := u) leads h.taker .timeout
  rw [framesWaited_of_handoff (s := u) handoff] at switched
  exact ⟨_, (exec_handoffTimeout finds).trans (congrArg _ switches), switched⟩

/-! ### A silent lead (R92) -/

/-- A record made after a flag is raised is noted with it. -/
theorem journal_raise (f : AttnFlag) (r : Record) (s : State) : journal r (raise f s) = noted r [f] s := by
  rcases journal_cases r (raise f s) with ⟨room, e⟩ | ⟨full, e⟩ <;> rw [e]
  · exact (if_pos (c := s.pe.buffer.length < Config.journalRecords) room).symm
  · exact (if_neg (c := s.pe.buffer.length < Config.journalRecords) (Nat.not_lt.mpr full)).symm

theorem failover_toTaker {s : State} {w : Writer} {h : Handoff} (lead : s.la.lead = some w)
    (handoff : s.la.handoff = some h) : failover s = switchLead h.taker .failover s := by
  simp only [failover, lead, handoff]

theorem failover_toPartner {s : State} {w p : Writer} (lead : s.la.lead = some w) (handoff : s.la.handoff = none)
    (ready : readyPartner w s = some p) : failover s = switchLead p .failover s := by
  simp only [failover, lead, handoff, ready]

/-- The first report of an episode. -/
theorem reportSilence_first {w : Writer} {s : State} (h : s.la.silenceReported = false) : reportSilence w s =
    noted (.writerState w (portOf s w).mode (portOf s w).mode .silent (portOf s w).divisor) [.writer]
      { s with la := { s.la with silenceReported := true } } := by
  rw [← journal_raise]
  exact if_neg (by rw [h]; decide)

/-- Settles O38: the marked test finds the lead silent, and the failover goes by the handoff and the relay partner. -/
theorem silentLeadFailsOverOrIsReported : Obligations.SilentLeadFailsOverOrIsReported := by
  refine ⟨leadSilent_iff, fun m s a w finds marked silent lead => ?_⟩
  let u : State := { a with work := { a.work with silence := false } }
  have fails : exec (.silentLead m) s = .next (failover u) := by
    rw [exec_silentLead finds, silentLeadNow_marked marked]
    exact congrArg _ (if_pos ((leadSilent_iff u).mpr silent))
  have switches {p : Writer} (goes : failover u = switchLead p .failover u) :
      ∃ t, exec (.silentLead m) s = .next t ∧ LeadSwitched u t w p .failover (framesWaited u) :=
    ⟨_, fails.trans (congrArg _ goes), switchLead_leadSwitched (s := u) lead p .failover⟩
  refine ⟨fun h handoff => ?_, fun p handoff partner run => ?_, fun handoff alone => ?_⟩
  · rw [← framesWaited_of_handoff (s := u) handoff]
    exact switches (failover_toTaker lead handoff)
  · have waited : framesWaited u = 0 := by
      show (a.la.handoff.map Handoff.waited).getD 0 = 0
      rw [handoff]
      rfl
    rw [← waited]
    exact switches (failover_toPartner lead handoff (readyPartner_of_ready (s := u) partner run))
  · have reports : failover u = reportSilence w u :=
      failover_alone lead handoff (readyPartner_of_none (s := u) alone)
    rw [fails, reports]
    refine ⟨fun again => ?_, fun first => ?_⟩
    · rw [reportSilence_again (s := u) again]
    · rw [reportSilence_first (s := u) first]
      rfl

end Sys2Proof.Machine
end

