-- ==== Sys2Proof/Proofs/TakeAndGive.lean ====
section
/-! The TAKE and GIVE codes where no switch from one writer to another follows (R85, R86): the lead given from none, with what
the display and the silence test make of it (R91, R123), and the codes that ask, are refused, or do nothing. -/

namespace Sys2Proof.Machine

/-! ### The lead given from none (R84, R85) -/

/-- The state with the lead given and the change on record, before DO is told (R89 steps 5 and 6). -/
def leadGiven (w : Writer) (reason : LeadReason) (s : State) : State :=
  raise .lead (journal (.leadChange none (some w) reason 0)
    { s with la := { s.la with lead := some w, roles := put s.la.roles w .lead } })

section
variable (w : Writer) (reason : LeadReason) (s : State)

theorem giveLead_eq : giveLead w reason s = silenceTest (feedAttempt (leadAppeared (leadGiven w reason s))) := rfl

/-- What DO makes of the change of lead. -/
theorem leadGiven_shown : Local { s with la := { s.la with lead := some w, roles := put s.la.roles w .lead } }
    (feedAttempt (leadAppeared (leadGiven w reason s))) :=
  (((journal_local ..).trans (raise_local ..)).trans (leadAppeared_local _)).trans (feedAttempt_local _)

theorem giveLead_builders : (giveLead w reason s).builders = s.builders := by
  obtain ⟨b, e⟩ := silenceTest_eq (feedAttempt (leadAppeared (leadGiven w reason s)))
  rw [giveLead_eq, e]
  exact (leadGiven_shown w reason s).builders

theorem giveLead_work :
    (giveLead w reason s).work = { s.work with silence := (giveLead w reason s).work.silence } := by
  obtain ⟨b, e⟩ := silenceTest_eq (feedAttempt (leadAppeared (leadGiven w reason s)))
  rw [giveLead_eq, e, (leadGiven_shown w reason s).work]

theorem giveLead_tests : SilenceTested s (giveLead w reason s) := by
  have work := (leadGiven_shown w reason s).work
  rw [giveLead_eq, SilenceTested, show s.work = _ from work.symm]
  exact silenceTest_tests _

theorem giveLead_record : Journaled s (giveLead w reason s) s.tb.frame (.leadChange none (some w) reason 0) := by
  let u : State := { s with la := { s.la with lead := some w, roles := put s.la.roles w .lead } }
  have kept : RecordsKept (journal (.leadChange none (some w) reason 0) u) (giveLead w reason s) :=
    (((raise_records ..).trans (leadAppeared_local _).records).trans (feedAttempt_local _).records).trans
      (silenceTest_steady _).records
  exact journaled_of_kept (s := u) kept

end

/-- On an empty stack the live entry goes in at once, with a feed attempt (R123). -/
theorem leadAppeared_of_empty {s : State} (stack : s.disp.stack = []) (due : s.disp.due = []) :
    leadAppeared s = feedAttempt { s with disp := { s.disp with stack := [.live], place := .inStack } } := by
  have fits : liveFits { s with disp := { s.disp with place := .waiting } } = true := by simp [liveFits, stack]
  have untested : (feedAttempt { s with disp := { s.disp with stack := [.live], place := .inStack } }).disp.due = [] := by
    rw [feedAttempt_disp]
    exact due
  rw [leadAppeared, insertionTest, if_pos ⟨rfl, fits⟩]
  dsimp only
  rw [stack, if_pos List.isEmpty_nil, dueTest_of_noneDue untested]

theorem giveLead_shows {s : State} (stack : s.disp.stack = []) (due : s.disp.due = []) (w : Writer) (reason : LeadReason) :
    (giveLead w reason s).disp = { s.disp with stack := [.live], place := .inStack } := by
  have told : (leadGiven w reason s).disp = s.disp := journal_disp ..
  obtain ⟨b, e⟩ := silenceTest_eq (feedAttempt (leadAppeared (leadGiven w reason s)))
  rw [giveLead_eq, e]
  show (feedAttempt (leadAppeared (leadGiven w reason s))).disp = _
  rw [leadAppeared_of_empty (by rw [told]; exact stack) (by rw [told]; exact due), feedAttempt_disp, feedAttempt_disp, told]

/-- A silence test reads of the ports the lead's silence counter alone, and of LA's record the lead (R91). -/
theorem leadSilent_onLine {s : State} {w : Writer} (lead : s.la.lead = some w) {ports : Vector Port 4} {la : Arbiter}
    (counted : (get ports w).silence = (portOf s w).silence) (leads : la.lead = some w) :
    leadSilent { s with ports := ports, la := la } = leadSilent s := by
  simp only [leadSilent, lead, leads]
  rw [portOf, counted]
  rfl

/-! ### What the codes make of the state (R85, R86) -/

theorem takeTake_gives {w : Writer} {s : State} (lead : s.la.lead = none) : takeTake w s = giveLead w .take s := by
  simp only [takeTake, lead]

theorem takeTake_asks {w lead : Writer} {s : State} (named : s.la.lead = some lead) (other : lead ≠ w)
    (handoff : s.la.handoff = none) : takeTake w s = { s with la := { s.la with
      roles := put s.la.roles w .taking, handoff := some { taker := w, waited := 0 } } } := by
  simp only [takeTake, named, other, handoff, if_false]

theorem takeTake_refused {w lead : Writer} {s : State} {h : Handoff} (named : s.la.lead = some lead) (other : lead ≠ w)
    (handoff : s.la.handoff = some h) (taken : h.taker ≠ w) :
    takeTake w s = journal (.handoffRefused w h.taker lead) s := by
  simp only [takeTake, named, other, handoff, taken, if_false]

/-- The lead and the taker have nothing to take. -/
theorem takeTake_again {w lead : Writer} {s : State} (named : s.la.lead = some lead)
    (own : lead = w ∨ ∃ h, s.la.handoff = some h ∧ h.taker = w) : takeTake w s = s := by
  unfold takeTake
  rw [named]
  dsimp only
  split
  · rfl
  · rename_i other
    obtain ⟨h, handoff, taken⟩ := own.resolve_left other
    rw [handoff]
    exact if_pos taken

theorem takeGive_ignored {w : Writer} {s : State} (lead : s.la.lead = some w) (handoff : s.la.handoff = none) :
    takeGive w s = journal (.giveIgnored w) s := by
  simp only [takeGive, lead, handoff, if_true]

theorem takeGive_of_other {w : Writer} {s : State} (h : s.la.lead ≠ some w) : takeGive w s = s := if_neg h

/-! ### What follows the codes in their delivery (R30, R31) -/

section
variable (w : Writer) (s : State)

theorem touchPort_builders : (touchPort w s).builders = s.builders := by rw [touchPort_eq]

theorem touchPort_work : (touchPort w s).work = s.work := by rw [touchPort_eq]

theorem touchPort_disp : (touchPort w s).disp = s.disp := by rw [touchPort_eq]

theorem touchPort_pe : (touchPort w s).pe = s.pe := by rw [touchPort_eq]

theorem touchPort_control : (touchPort w s).control = s.control := by rw [touchPort_eq]

/-- A record and what follows in the delivery do not read each other. -/
theorem touchPort_noted (r : Record) (flags : List AttnFlag) :
    touchPort w (noted r flags s) = noted r flags (touchPort w s) := by
  have ports : (noted r flags s).ports = s.ports := by
    unfold noted
    split <;> rfl
  rw [touchPort_alike ports (noted_la_same ..), noted_line, ← touchPort_alike rfl rfl]

end

/-- What follows in the delivery for the lead. -/
theorem touchPort_of_lead {w : Writer} {s : State} (h : s.la.lead = some w) : touchPort w s = { s with
    ports := (touchPort w s).ports, la := { s.la with silenceReported := false } } := by
  rw [touchPort_eq, if_pos h]

section
variable (w : Writer) (s : State)

theorem giveLead_touched_la : (touchPort w (giveLead w .take s)).la =
    { s.la with lead := some w, roles := put s.la.roles w .lead, silenceReported := false } := by
  obtain ⟨la, _⟩ := giveLead_gives w .take s
  rw [touchPort_of_lead (by rw [la]), la]

theorem giveLead_touched_frame : DisplayFrame { touchPort w s with
    la := (touchPort w (giveLead w .take s)).la
    work := { s.work with silence := (touchPort w (giveLead w .take s)).work.silence } } (touchPort w (giveLead w .take s)) := by
  have work := giveLead_work w .take s
  have built := giveLead_builders w .take s
  rw [← touchPort_work w (giveLead w .take s), ← touchPort_work w s] at work
  rw [← touchPort_builders w (giveLead w .take s), ← touchPort_builders w s] at built
  have frame := ((giveLead_steady w .take s).touched w).display work
  rw [built, touchPort_work w s] at frame
  exact frame

/-- The silence test of the delivery finds the lead with the counter that it had before (R31, R91). -/
theorem giveLead_touched_silent {ports : Vector Port 4} (counted : (get ports w).silence = (portOf s w).silence) :
    leadSilent { touchPort w (giveLead w .take s) with ports := ports } = leadSilent (giveLead w .take s) := by
  obtain ⟨la, _⟩ := giveLead_gives w .take s
  have lead : (giveLead w .take s).la.lead = some w := by rw [la]
  have kept : (giveLead w .take s).ports = s.ports := (giveLead_steady ..).ports
  rw [touchPort_of_lead lead]
  refine leadSilent_onLine lead ?_ lead
  rw [counted, portOf, portOf, kept]

end

/-- The code TAKE or GIVE, which LA takes by f. -/
theorem exec_leadCode {m : Moment} {w : Writer} {edges : List Nat} {s a : State} {d : Nat} {ch : Byte}
    {f : Writer → State → State} (finds : Finds m s a) (receives : ReceivesByte a w edges d ch)
    (code : ch = 0x11 ∧ f = takeTake ∨ ch = 0x12 ∧ f = takeGive) : exec (.characterAccepted m w edges) s =
      .next (touchPort w (f w (heard w (charNoisy edges d (writerOf a w).parity) (looking w a)))) := by
  obtain ⟨rfl, rfl⟩ | ⟨rfl, rfl⟩ := code
  · exact exec_code finds receives (by decide)
  · exact exec_code finds receives (by decide)

/-- The port of the writer heard has its silence counter still (R31). -/
theorem heard_silence (w : Writer) (noisy : Bool) (a : State) :
    (portOf (heard w noisy (looking w a)) w).silence = (portOf a w).silence := by
  simp only [heard, looking, holdTick, count, onPort, change, portOf, get_put_same]

/-- Settles O29: TAKE by the lead and the handoff it finds, and GIVE by whose it is. -/
theorem takeAndGiveWithoutASwitch : Obligations.TakeAndGiveWithoutASwitch := by
  intro m w edges s a d finds
  generalize noise : charNoisy edges d (writerOf a w).parity = noisy
  let v := heard w noisy (looking w a)
  have take (receives : ReceivesByte a w edges d 0x11) :
      exec (.characterAccepted m w edges) s = .next (touchPort w (takeTake w v)) := by
    rw [exec_leadCode finds receives (.inl ⟨rfl, rfl⟩), noise]
  have give (receives : ReceivesByte a w edges d 0x12) :
      exec (.characterAccepted m w edges) s = .next (touchPort w (takeGive w v)) := by
    rw [exec_leadCode finds receives (.inr ⟨rfl, rfl⟩), noise]
  have heardAlone : touchPort w v = delivered w noisy a := touchPort_heard ..
  refine ⟨fun receives none => ?_, fun lead named => ⟨fun receives other handoff => ?_,
    fun receives other h handoff taken => ?_, fun receives own => ?_, fun receives own handoff => ?_,
    fun receives other => ?_⟩⟩
  · have frame := giveLead_touched_frame w v
    rw [heardAlone] at frame
    refine ⟨_, (take receives).trans (by rw [takeTake_gives (s := v) none]), giveLead_touched_la w v, ?_, ?_, frame, ?_,
      fun stack due => ?_⟩
    · rw [flagSet, touchPort_control]
      exact (giveLead_gives w .take v).2
    · rw [Journaled, flagSet, touchPort_control, touchPort_pe]
      exact giveLead_record w .take v
    · rw [SilenceTested, ← leadSilent_iff, giveLead_touched_silent w v (heard_silence w noisy a).symm, leadSilent_iff]
      show (touchPort w (giveLead w .take v)).work.silence = true ↔ _
      rw [touchPort_work]
      exact giveLead_tests w .take v
    · rw [touchPort_disp]
      exact giveLead_shows (s := v) stack due w .take
  · have apart : (takeTake w v).la.lead ≠ some w := by
      rw [takeTake_asks (s := v) named other handoff]
      exact fun same => other (Option.some.inj (named.symm.trans same))
    rw [take receives, touchPort_of_notLead apart, takeTake_asks (s := v) named other handoff, ← heardAlone, touchPort_eq w v]
    rfl
  · rw [take receives, takeTake_refused (s := v) named other handoff taken, journal_noted, touchPort_noted, heardAlone]
  · rw [take receives, takeTake_again (s := v) named own, heardAlone]
  · rw [give receives, takeGive_ignored (s := v) (own ▸ named) handoff, journal_noted, touchPort_noted, heardAlone]
  · have apart : v.la.lead ≠ some w := fun same => other (Option.some.inj (named.symm.trans same))
    rw [give receives, takeGive_of_other apart, heardAlone]

end Sys2Proof.Machine
end

-- ==== Sys2Proof/Proofs/LeadBonds.lean ====

section
/-! The bonds of LA's record (R82): what a giving, a switch, a request, the end of a handoff and the loss of the lead make of
them. -/

namespace Sys2Proof.Machine

/-- The lead, the roles and the taker are the same in both records. -/
structure SameBonds (la lb : Arbiter) : Prop where
  lead : lb.lead = la.lead
  roles : lb.roles = la.roles
  taker : lb.handoff.map Handoff.taker = la.handoff.map Handoff.taker

theorem SameBonds.refl (la : Arbiter) : SameBonds la la := ⟨rfl, rfl, rfl⟩

theorem SameBonds.of_eq {la lb : Arbiter} (h : lb = la) : SameBonds la lb := h ▸ .refl la

theorem SameBonds.trans {la lb lc : Arbiter} (h : SameBonds la lb) (g : SameBonds lb lc) : SameBonds la lc :=
  ⟨g.lead.trans h.lead, g.roles.trans h.roles, g.taker.trans h.taker⟩

namespace LeadBonds

theorem taking_iff {la : Arbiter} (h : LeadBonds la) (w : Writer) :
    get la.roles w = .taking ↔ la.handoff.map Handoff.taker = some w := by
  rw [h.taker, Option.map_eq_some_iff]

theorem same {la lb : Arbiter} (h : LeadBonds la) (e : SameBonds la lb) : LeadBonds lb where
  lead w := by rw [e.roles, e.lead]; exact h.lead w
  taker w := by rw [e.roles, h.taking_iff, ← e.taker, Option.map_eq_some_iff]
  given waits := by
    rw [← Option.isSome_map (f := Handoff.taker), e.taker, Option.isSome_map] at waits
    rw [e.lead]
    exact h.given waits

/-- Without a lead no handoff waits. -/
theorem unasked {la : Arbiter} (h : LeadBonds la) (leadless : la.lead = none) : la.handoff = none := by
  by_contra waits
  have given := h.given (Option.isSome_iff_ne_none.mpr waits)
  rw [leadless] at given
  exact Bool.false_ne_true given

/-- The taker is not the lead. -/
theorem taker_ne {la : Arbiter} (h : LeadBonds la) {x : Handoff} (waits : la.handoff = some x) :
    la.lead ≠ some x.taker := by
  intro lead
  have role := (h.taker x.taker).mpr ⟨x, waits, rfl⟩
  rw [(h.lead x.taker).mpr lead] at role
  exact absurd role (by decide)

/-- With no handoff no writer is TAKING. -/
theorem not_taking {la : Arbiter} (h : LeadBonds la) (quiet : la.handoff = none) (w : Writer) : get la.roles w ≠ .taking := by
  rw [ne_eq, h.taking_iff, quiet]
  simp

/-- A record without a handoff is bound where its roles say who leads, and none is TAKING. -/
theorem alone {la : Arbiter} (lead : ∀ w, get la.roles w = .lead ↔ la.lead = some w) (quiet : la.handoff = none)
    (idle : ∀ w, get la.roles w ≠ .taking) : LeadBonds la where
  lead := lead
  taker w := by simp [quiet, idle w]
  given waits := by simp [quiet] at waits

theorem reset : LeadBonds Arbiter.reset := by
  refine alone (fun w => ?_) rfl (fun w => ?_) <;> simp [Arbiter.reset]

/-- The lead is given from none (R84, R85). -/
theorem gives {la : Arbiter} (h : LeadBonds la) (leadless : la.lead = none) (w : Writer) :
    LeadBonds { la with lead := some w, roles := put la.roles w .lead } := by
  refine alone (fun v => ?_) (h.unasked leadless) (fun v => ?_)
  · have others : get la.roles v ≠ .lead := by simp [h.lead, leadless]
    show get (put la.roles w .lead) v = .lead ↔ some w = some v
    rw [get_put, Option.some_inj]
    split
    · exact iff_of_true rfl ‹_›
    · exact iff_of_false others ‹_›
  · have others := h.not_taking (h.unasked leadless) v
    show get (put la.roles w .lead) v ≠ .taking
    rw [get_put]
    split
    · decide
    · exact others

/-- The lead passes to another writer, the taker where there is one (R89). -/
theorem switches {la : Arbiter} (h : LeadBonds la) {outgoing incoming : Writer} (lead : la.lead = some outgoing)
    (other : outgoing ≠ incoming) (only : ∀ x, la.handoff = some x → x.taker = incoming) :
    LeadBonds (switched la outgoing incoming) := by
  refine alone (fun v => ?_) rfl (fun v => ?_)
  · show get (put (put la.roles incoming .lead) outgoing .standby) v = .lead ↔ some incoming = some v
    rw [get_put, get_put, Option.some_inj]
    split
    · rename_i own
      exact iff_of_false (by decide) (fun e => other (own.trans e.symm))
    · rename_i apart
      split
      · exact iff_of_true rfl ‹_›
      · refine iff_of_false (fun leads => apart ?_) ‹_›
        exact Option.some.inj (lead.symm.trans ((h.lead v).mp leads))
  · show get (put (put la.roles incoming .lead) outgoing .standby) v ≠ .taking
    rw [get_put, get_put]
    split
    · decide
    · split
      · decide
      · rename_i apart
        intro taking
        obtain ⟨x, waits, taker⟩ := (h.taker v).mp taking
        exact apart ((only x waits).symm.trans taker)

/-- The lead is lost to none with no handoff waiting (R94). -/
theorem loses {la : Arbiter} (h : LeadBonds la) {outgoing : Writer} (lead : la.lead = some outgoing)
    (quiet : la.handoff = none) : LeadBonds
      { lead := none, roles := put la.roles outgoing .standby, handoff := none, silenceReported := false } := by
  refine alone (fun v => ?_) rfl (fun v => ?_)
  · refine iff_of_false (fun leads => ?_) (by simp)
    rw [get_put] at leads
    split at leads
    · exact absurd leads (by decide)
    · rename_i apart
      exact apart (Option.some.inj (lead.symm.trans ((h.lead v).mp leads)))
  · rw [get_put]
    split
    · decide
    · exact h.not_taking quiet v

/-- The handoff ends, and its taker is STANDBY (R90). -/
theorem cancels {la : Arbiter} (h : LeadBonds la) {x : Handoff} (waits : la.handoff = some x) :
    LeadBonds { la with roles := put la.roles x.taker .standby, handoff := none } := by
  refine alone (fun v => ?_) rfl (fun v => ?_)
  · show get (put la.roles x.taker .standby) v = .lead ↔ la.lead = some v
    rw [get_put]
    split
    · rename_i own
      exact iff_of_false (by decide) (own ▸ h.taker_ne waits)
    · exact h.lead v
  · show get (put la.roles x.taker .standby) v ≠ .taking
    rw [get_put]
    split
    · decide
    · rename_i apart
      rw [ne_eq, h.taking_iff, waits]
      exact fun own => apart (Option.some.inj own)

theorem withoutTaker {la : Arbiter} (h : LeadBonds la) (w : Writer) : LeadBonds (withoutTaker w la) := by
  unfold Machine.withoutTaker
  split
  · rename_i x waits
    split
    · rename_i own
      exact own ▸ h.cancels waits
    · exact h
  · exact h

/-- A TAKE from a writer who is not the lead makes it the taker (R85). -/
theorem asks {la : Arbiter} (h : LeadBonds la) {lead w : Writer} (named : la.lead = some lead) (other : lead ≠ w)
    (quiet : la.handoff = none) :
    LeadBonds { la with roles := put la.roles w .taking, handoff := some { taker := w, waited := 0 } } where
  lead v := by
    show get (put la.roles w .taking) v = .lead ↔ la.lead = some v
    rw [get_put]
    split
    · rename_i own
      rw [named, Option.some_inj]
      exact iff_of_false (by decide) (own ▸ other)
    · exact h.lead v
  taker v := by
    show get (put la.roles w .taking) v = .taking ↔ ∃ x : Handoff, some ⟨w, 0⟩ = some x ∧ x.taker = v
    rw [get_put]
    split
    · rename_i own
      exact iff_of_true rfl ⟨_, rfl, own⟩
    · rename_i apart
      refine iff_of_false (h.not_taking quiet v) ?_
      rintro ⟨x, same, own⟩
      cases same
      exact apart own
  given _ := by rw [named]; rfl

end LeadBonds

end Sys2Proof.Machine
end

-- ==== Sys2Proof/Proofs/LeadKept.lean ====

section
/-! What leaves the bonds of the lead as they are (R16, R82, R83), and the operations of the lead arbiter, which keep them
(R84 to R94). -/

namespace Sys2Proof.Machine

/-! ### What leaves the bonds -/

/-- No writer is its own relay partner (R83). -/
def NoOwnPartner (s : State) : Prop := ∀ w, (writerOf s w).partner ≠ some w

/-- Every port is OFF. -/
def AllOff (s : State) : Prop := ∀ w, (portOf s w).mode = .off

/-- From s to t no writer becomes its own partner, the run state stands, and no settings read begins. -/
structure BesideLead (s t : State) : Prop where
  partners : NoOwnPartner s → NoOwnPartner t
  runState : t.control.runState = s.control.runState
  reading : ∀ since, t.pe.op = some (.settingsRead since) → s.pe.op = some (.settingsRead since)

/-- LA's bonds stand too, and outside RUNNING no port leaves OFF. -/
structure LeadStill (s t : State) : Prop extends BesideLead s t where
  bonds : SameBonds s.la t.la
  ports : isRunning s = false → AllOff s → AllOff t

theorem undirty_settingsRead_iff (op : Option PageOp) (since : Nat) :
    undirty op = some (.settingsRead since) ↔ op = some (.settingsRead since) := by
  unfold undirty
  split <;> simp

namespace BesideLead

theorem of_eq {s t : State} (writers : t.settings.writers = s.settings.writers)
    (runState : t.control.runState = s.control.runState) (op : t.pe.op = s.pe.op) : BesideLead s t where
  partners h w := by rw [writerOf, writers]; exact h w
  runState := runState
  reading since h := op ▸ h

theorem trans {s t u : State} (h : BesideLead s t) (g : BesideLead t u) : BesideLead s u :=
  ⟨g.partners ∘ h.partners, g.runState.trans h.runState, fun since => h.reading since ∘ g.reading since⟩

theorem running {s t : State} (h : BesideLead s t) : isRunning t = isRunning s := by rw [isRunning, h.runState]; rfl

/-- LA's record is set. -/
theorem arbiter (s : State) (la : Arbiter) : BesideLead s { s with la := la } := .of_eq rfl rfl rfl

end BesideLead

namespace LeadStill

/-- An update that leaves the writers' settings, the ports, LA's record, the run state and the operation in flight. -/
theorem of_eq {s t : State} (writers : t.settings.writers = s.settings.writers := by rfl)
    (runState : t.control.runState = s.control.runState := by rfl) (op : t.pe.op = s.pe.op := by rfl)
    (la : t.la = s.la := by rfl) (ports : t.ports = s.ports := by rfl) : LeadStill s t :=
  ⟨.of_eq writers runState op, .of_eq la, fun _ off w => by rw [portOf, ports]; exact off w⟩

theorem refl (s : State) : LeadStill s s := .of_eq

theorem trans {s t u : State} (h : LeadStill s t) (g : LeadStill t u) : LeadStill s u :=
  ⟨h.toBesideLead.trans g.toBesideLead, h.bonds.trans g.bonds,
    fun stopped => g.ports (h.running.trans stopped) ∘ h.ports stopped⟩

theorem foldl {α : Type} {f : State → α → State} (h : ∀ s x, LeadStill s (f s x)) (l : List α) (s : State) :
    LeadStill s (l.foldl f s) := by
  induction l generalizing s with
  | nil => exact refl s
  | cons x rest ih => exact (h s x).trans (ih _)

theorem of_frame {s t : State} (h : SlotFrame s t) (op : undirty t.pe.op = undirty s.pe.op) : LeadStill s t where
  partners apart w := by rw [writerOf, h.settings]; exact apart w
  runState := by rw [h.control]
  reading since reads := by
    rwa [← undirty_settingsRead_iff, op, undirty_settingsRead_iff] at reads
  bonds := .of_eq h.la
  ports _ off w := by rw [portOf, h.ports]; exact off w

theorem of_local {s t : State} (h : Local s t) : LeadStill s t := .of_frame h.toSlotFrame h.op

theorem of_slot {s t : State} (h : SlotStill s t) : LeadStill s t := .of_frame h.toSlotFrame h.op

/-- In RUNNING the ports have no part in the bonds. -/
theorem of_running {s t : State} (running : isRunning s = true) (h : BesideLead s t) (bonds : SameBonds s.la t.la) :
    LeadStill s t :=
  ⟨h, bonds, fun stopped => by simp [running] at stopped⟩

/-- A port is set in RUNNING. -/
theorem onPort {s : State} (running : isRunning s = true) (w : Writer) (f : Port → Port) :
    LeadStill s (onPort w f s) := .of_running running (.of_eq rfl rfl rfl) (.refl _)

end LeadStill

/-! ### Soundness -/

/-- The bonds are kept by f. -/
def KeepsLead (f : State → State) : Prop := ∀ s, LeadSound s → LeadSound (f s)

namespace LeadSound

theorem still {s t : State} (h : LeadSound s) (same : LeadStill s t) : LeadSound t where
  bonds := h.bonds.same same.bonds
  partners := same.partners h.partners
  stopped idle := by
    have stopped : isRunning s = false := same.running ▸ idle
    obtain ⟨lead, off⟩ := h.stopped stopped
    exact ⟨same.bonds.lead.trans lead, same.ports stopped off⟩
  reading since reads := same.runState.trans (h.reading since (same.reading since reads))

/-- In RUNNING the bonds of LA's record are all that a change of lead must keep. -/
theorem moved {s t : State} (h : LeadSound s) (running : isRunning s = true) (beside : BesideLead s t)
    (bonds : LeadBonds t.la) : LeadSound t where
  bonds := bonds
  partners := beside.partners h.partners
  stopped idle := by
    rw [beside.running, running] at idle
    exact absurd idle (by decide)
  reading since reads := beside.runState.trans (h.reading since (beside.reading since reads))

/-- A lead is there in RUNNING alone. -/
theorem running_of_lead {s : State} {w : Writer} (h : LeadSound s) (lead : s.la.lead = some w) : isRunning s = true := by
  by_contra idle
  have none := (h.stopped (Bool.not_eq_true _ ▸ idle)).1
  rw [lead] at none
  exact Option.some_ne_none w none

/-- A port is on in RUNNING alone. -/
theorem running_of_on {s : State} {w : Writer} (h : LeadSound s) (on : (portOf s w).mode ≠ .off) : isRunning s = true := by
  by_contra idle
  exact on ((h.stopped (Bool.not_eq_true _ ▸ idle)).2 w)

/-- With a handoff a lead is there, and it is not the taker. -/
theorem lead_of_handoff {s : State} {x : Handoff} (h : LeadSound s) (waits : s.la.handoff = some x) :
    ∃ lead, s.la.lead = some lead ∧ lead ≠ x.taker := by
  obtain ⟨lead, named⟩ := Option.isSome_iff_exists.mp (h.bonds.given (by rw [waits]; rfl))
  exact ⟨lead, named, fun own => h.bonds.taker_ne waits (own ▸ named)⟩

end LeadSound

theorem KeepsLead.of_still {f : State → State} (h : ∀ s, LeadStill s (f s)) : KeepsLead f := fun s sound => sound.still (h s)

/-! ### Rows and silence tests leave the bonds (R38, R91) -/

theorem journal_leadStill (r : Record) (s : State) : LeadStill s (journal r s) := .of_local (journal_local r s)

theorem raise_leadStill (f : AttnFlag) (s : State) : LeadStill s (raise f s) := .of_eq

theorem closeRow_leadStill (w : Writer) (reason : CloseReason) (s : State) : LeadStill s (closeRow w reason s).1 := by
  by_cases empty : (builderOf s w).chars = []
  · rw [closeRow_of_empty empty]
    exact .refl s
  · by_cases role : roleOf s w = .lead
    · rw [closeRow_of_lead empty role]
      have left : LeadStill s (rowLeaves w s) := .of_eq
      exact left.trans (.of_local ((joinTail_local ..).trans (feedAttempt_local _)))
    · rw [closeRow_of_other empty role]
      exact .of_eq

theorem silenceTest_leadStill (s : State) : LeadStill s (silenceTest s) := by
  obtain ⟨b, e⟩ := silenceTest_eq s
  rw [e]
  exact .of_eq

/-! ### Changes of lead (R84 to R89, R94) -/

theorem giveLead_beside (w : Writer) (reason : LeadReason) (s : State) : BesideLead s (giveLead w reason s) := by
  rw [giveLead_eq]
  exact (BesideLead.arbiter s _).trans
    ((LeadStill.of_local (leadGiven_shown w reason s)).trans (silenceTest_leadStill _)).toBesideLead

theorem giveLead_sound {s : State} (h : LeadSound s) (running : isRunning s = true) (leadless : s.la.lead = none) (w : Writer)
    (reason : LeadReason) : LeadSound (giveLead w reason s) := by
  refine h.moved running (giveLead_beside ..) ?_
  rw [(giveLead_gives w reason s).1]
  exact h.bonds.gives leadless w

theorem switchLead_beside {s : State} {outgoing : Writer} (lead : s.la.lead = some outgoing) (w : Writer)
    (reason : LeadReason) : BesideLead s (switchLead w reason s) := by
  rw [switchLead_of_lead lead]
  exact ((closeRow_leadStill outgoing .handoff s).toBesideLead.trans (.arbiter ..)).trans
    ((LeadStill.of_local ((leadChanged_local w reason).trans (feedAttempt_local _))).trans
      (silenceTest_leadStill _)).toBesideLead

/-- The lead passes to another writer: the taker, where a handoff waits. -/
theorem switchLead_sound {s : State} {w : Writer} (h : LeadSound s) (running : isRunning s = true)
    (other : s.la.lead ≠ some w) (only : ∀ x, s.la.handoff = some x → x.taker = w) (reason : LeadReason) :
    LeadSound (switchLead w reason s) := by
  cases lead : s.la.lead with
  | none =>
    have gives : switchLead w reason s = giveLead w reason s := by simp only [switchLead, lead]
    rw [gives]
    exact giveLead_sound h running lead w reason
  | some outgoing =>
    refine h.moved running (switchLead_beside lead ..) ?_
    rw [(switchLead_switches lead w reason).1]
    exact h.bonds.switches lead (fun own => other (own ▸ lead)) only

/-- The handoff ends with the lead at its taker (R86 to R88, R92, R94). -/
theorem switchLead_toTaker {s : State} {x : Handoff} (h : LeadSound s) (waits : s.la.handoff = some x)
    (reason : LeadReason) : LeadSound (switchLead x.taker reason s) := by
  obtain ⟨lead, named, other⟩ := h.lead_of_handoff waits
  refine switchLead_sound h (h.running_of_lead named) (h.bonds.taker_ne waits) (fun y same => ?_) reason
  rw [waits] at same
  cases same
  rfl

theorem loseLead_sound {s : State} {w : Writer} (h : LeadSound s) (lead : s.la.lead = some w) (quiet : s.la.handoff = none)
    (reason : LeadReason) : LeadSound (loseLead w reason s) := by
  let c := (closeRow w .handoff s).1
  let la : Arbiter := { lead := none, roles := put c.la.roles w .standby, handoff := none, silenceReported := false }
  have told : Local { c with la := la } (loseLead w reason s) :=
    ((journal_local ..).trans (raise_local ..)).trans (leadGone_local _)
  refine h.moved (h.running_of_lead lead)
    (((closeRow_leadStill w .handoff s).toBesideLead.trans (.arbiter ..)).trans (LeadStill.of_local told).toBesideLead) ?_
  have same : c.la = s.la := (closeRow_leaves ..).1
  have bonds : LeadBonds c.la := same ▸ h.bonds
  rw [told.la]
  exact bonds.loses (same ▸ lead) (same ▸ quiet)

theorem setArbiter_sound {s : State} {la : Arbiter} (h : LeadSound s) (bonds : LeadBonds la) (lead : la.lead = s.la.lead) :
    LeadSound { s with la := la } where
  bonds := bonds
  partners := h.partners
  stopped idle := ⟨lead.trans (h.stopped idle).1, (h.stopped idle).2⟩
  reading := h.reading

theorem cancelHandoff_keepsLead : KeepsLead cancelHandoff := by
  intro s h
  unfold cancelHandoff
  split
  · rename_i x waits
    exact setArbiter_sound h (h.bonds.cancels waits) rfl
  · exact h

theorem takerLeftRun_keepsLead (w : Writer) : KeepsLead (takerLeftRun w) := by
  intro s h
  unfold takerLeftRun
  split
  · split
    · exact cancelHandoff_keepsLead s h
    · exact h
  · exact h

theorem completeHandoff_keepsLead (reported : Bool) : KeepsLead (completeHandoff reported) := by
  intro s h
  unfold completeHandoff
  split
  · rename_i x waits
    split
    · exact switchLead_toTaker h waits .take
    · exact h
  · exact h

/-! ### TAKE, GIVE and the timeout (R85, R86, R88) -/

theorem takeTake_sound {s : State} (h : LeadSound s) (running : isRunning s = true) (w : Writer) :
    LeadSound (takeTake w s) := by
  cases lead : s.la.lead with
  | none =>
    rw [takeTake_gives lead]
    exact giveLead_sound h running lead w .take
  | some l =>
    by_cases own : l = w
    · rw [takeTake_again lead (.inl own)]
      exact h
    · cases handoff : s.la.handoff with
      | none =>
        rw [takeTake_asks lead own handoff]
        exact setArbiter_sound h (h.bonds.asks lead own handoff) rfl
      | some x =>
        by_cases taken : x.taker = w
        · rw [takeTake_again lead (.inr ⟨x, handoff, taken⟩)]
          exact h
        · rw [takeTake_refused lead own handoff taken]
          exact h.still (journal_leadStill ..)

theorem takeGive_keepsLead (w : Writer) : KeepsLead (takeGive w) := by
  intro s h
  unfold takeGive
  split
  · split
    · rename_i x waits
      exact switchLead_toTaker h waits .give
    · exact h.still (journal_leadStill ..)
  · exact h

theorem handoffTimeoutNow_keepsLead : KeepsLead handoffTimeoutNow := by
  intro s h
  unfold handoffTimeoutNow
  split
  · rename_i x waits
    split
    · exact switchLead_toTaker h waits .timeout
    · exact h
  · exact h

/-! ### Silence, disable and force (R92 to R94) -/

/-- The relay partner in RUN is another writer (R83). -/
theorem readyPartner_ne {s : State} {w p : Writer} (h : LeadSound s) (ready : readyPartner w s = some p) : w ≠ p := by
  rintro rfl
  refine h.partners w ?_
  unfold readyPartner at ready
  split at ready
  · rename_i q named
    split at ready
    · rw [named, ready]
    · cases ready
  · cases ready

theorem switchLead_toPartner {s : State} {w p : Writer} (h : LeadSound s) (lead : s.la.lead = some w)
    (quiet : s.la.handoff = none) (ready : readyPartner w s = some p) (reason : LeadReason) :
    LeadSound (switchLead p reason s) := by
  refine switchLead_sound h (h.running_of_lead lead) (fun same => ?_) (fun x waits => ?_) reason
  · exact readyPartner_ne h ready (Option.some.inj (lead.symm.trans same))
  · rw [quiet] at waits
    cases waits

theorem reportSilence_leadStill (w : Writer) (s : State) : LeadStill s (reportSilence w s) := by
  unfold reportSilence
  split
  · exact .refl s
  · have marked : LeadStill s { s with la := { s.la with silenceReported := true } } :=
      ⟨.arbiter .., ⟨rfl, rfl, rfl⟩, fun _ off => off⟩
    exact (marked.trans (raise_leadStill ..)).trans (journal_leadStill ..)

theorem failover_keepsLead : KeepsLead failover := by
  intro s h
  unfold failover
  split
  · rename_i w lead
    split
    · rename_i x waits
      exact switchLead_toTaker h waits .failover
    · rename_i quiet
      split
      · rename_i p ready
        exact switchLead_toPartner h lead quiet ready .failover
      · exact h.still (reportSilence_leadStill ..)
  · exact h

theorem setWork_leadStill (s : State) (work : Work) : LeadStill s { s with work := work } := .of_eq

theorem silentLeadNow_keepsLead : KeepsLead silentLeadNow := by
  intro s h
  unfold silentLeadNow
  split
  · have unmarked := h.still (setWork_leadStill s { s.work with silence := false })
    dsimp only
    split
    · exact failover_keepsLead _ unmarked
    · exact unmarked
  · exact h

theorem silentLeads_keepsLead : KeepsLead silentLeads := fun s h =>
  silentLeadNow_keepsLead _ (silentLeadNow_keepsLead _ (silentLeadNow_keepsLead _ (silentLeadNow_keepsLead s h)))

theorem leadDisabled_keepsLead (w : Writer) : KeepsLead (leadDisabled w) := by
  intro s h
  unfold leadDisabled
  split
  · rename_i lead
    split
    · rename_i x waits
      exact switchLead_toTaker h waits .disabled
    · rename_i quiet
      split
      · rename_i p ready
        exact switchLead_toPartner h lead quiet ready .disabled
      · exact loseLead_sound h lead quiet .disabled
  · exact h

/-- With the handoff cancelled none waits, and the lead is as it was. -/
theorem cancelHandoff_ends (s : State) : (cancelHandoff s).la.handoff = none ∧ (cancelHandoff s).la.lead = s.la.lead := by
  unfold cancelHandoff
  split
  · exact ⟨rfl, rfl⟩
  · rename_i quiet
    exact ⟨quiet, rfl⟩

theorem forceLead_keepsLead (w : Writer) : KeepsLead (fun s => (forceLead w s).1) := by
  intro s h
  show LeadSound (forceLead w s).1
  unfold forceLead
  split
  · exact h
  · rename_i on
    split
    · exact cancelHandoff_keepsLead s h
    · rename_i other
      split
      · rename_i x waits
        split
        · rename_i own
          exact own ▸ switchLead_toTaker h waits .forced
        · obtain ⟨ended, lead⟩ := cancelHandoff_ends s
          have cancelled := cancelHandoff_keepsLead s h
          obtain ⟨l, named, _⟩ := h.lead_of_handoff waits
          refine switchLead_sound cancelled (cancelled.running_of_lead (lead.trans named)) (lead ▸ other)
            (fun y again => ?_) .forced
          rw [ended] at again
          cases again
      · rename_i quiet
        refine switchLead_sound h (h.running_of_on on) other (fun x waits => ?_) .forced
        rw [quiet] at waits
        cases waits

end Sys2Proof.Machine
end

-- ==== Sys2Proof/Proofs/LeadOnLines.lean ====

section
/-! The writer lines keep the bonds of the lead (R17 to R32, R35 to R46, R90): a port changes its state in RUNNING alone, and
what a port is else given leaves its state. -/

namespace Sys2Proof.Machine

/-! ### Updates -/

theorem onBuilder_leadStill (w : Writer) (f : Builder → Builder) (s : State) : LeadStill s (onBuilder w f s) :=
  .of_eq

theorem count_leadStill (w : Writer) (f : Counters → Counters) (s : State) : LeadStill s (count w f s) :=
  .of_eq

theorem onEst_leadStill (w : Writer) (f : Estimator → Estimator) (s : State) : LeadStill s (onEst w f s) :=
  .of_eq

theorem seedWriter_leadStill (s : State) (w : Writer) : LeadStill s (seedWriter s w) := onEst_leadStill ..

theorem holdTick_leadStill (s : State) : LeadStill s (holdTick s) := .of_eq

/-- A port is given what leaves its state. -/
theorem onPort_leadStill {f : Port → Port} (w : Writer) (s : State) (same : ∀ p, (f p).mode = p.mode := by intro; rfl) :
    LeadStill s (onPort w f s) := by
  refine ⟨.of_eq rfl rfl rfl, .refl _, fun _ off v => ?_⟩
  show (get (change s.ports w f) v).mode = .off
  rw [get_change]
  split
  · rw [same]
    exact off w
  · exact off v

/-! ### The row builders (R35 to R44) -/

theorem takeText_leadStill (w : Writer) (ch : Byte) (stamp : Stamp) (s : State) : LeadStill s (takeText w ch stamp s).1 := by
  unfold takeText
  dsimp only
  split
  · exact onBuilder_leadStill ..
  · split
    · split
      · exact (closeRow_leadStill ..).trans (onBuilder_leadStill ..)
      · exact ((onBuilder_leadStill ..).trans (closeRow_leadStill ..)).trans (onBuilder_leadStill ..)
    · exact (closeRow_leadStill ..).trans (onBuilder_leadStill ..)

theorem takeSpeaker_leadStill (w : Writer) (s : State) : LeadStill s (takeSpeaker w s).1 :=
  (closeRow_leadStill ..).trans (onBuilder_leadStill ..)

theorem takeBack_leadStill (s : State) : LeadStill s (takeBack s) := by
  unfold takeBack
  split
  · exact .of_local (keepEntries_local ..)
  · exact .of_local (queue_local ..)

theorem refuse_leadStill (w : Writer) (word : Bool) (s : State) : LeadStill s (refuse w word s) := by
  unfold refuse
  dsimp only
  split
  · exact (count_leadStill ..).trans (journal_leadStill ..)
  · exact count_leadStill ..

theorem takeCorrection_leadStill (w : Writer) (word : Bool) (s : State) : LeadStill s (takeCorrection w word s) := by
  unfold takeCorrection
  split
  · split
    · exact (takeBack_leadStill s).trans (onBuilder_leadStill ..)
    · exact refuse_leadStill ..
  · exact onBuilder_leadStill ..

/-! ### Changes of port state (R17, R18, R32, R90) -/

theorem reportPort_leadStill (w : Writer) (left : PortMode) (cause : PortCause) (s : State) :
    LeadStill s (reportPort w left cause s) := by
  unfold reportPort
  dsimp only
  split
  · exact (journal_leadStill ..).trans (raise_leadStill ..)
  · exact journal_leadStill ..

theorem portBecomes_sound {s : State} (h : LeadSound s) (running : isRunning s = true) (w : Writer) (p : Port)
    (cause : PortCause) : LeadSound (portBecomes w p cause s) := by
  have reported := h.still
    ((LeadStill.onPort running w (fun _ => p)).trans (reportPort_leadStill w (portOf s w).mode cause _))
  unfold portBecomes
  dsimp only
  split
  · exact takerLeftRun_keepsLead w _ reported
  · exact reported

theorem enablePort_sound {s : State} (h : LeadSound s) (running : isRunning s = true) (w : Writer) :
    LeadSound (enablePort w s) :=
  portBecomes_sound (h.still (seedWriter_leadStill s w)) running ..

theorem portDisabled_leadStill {s : State} (running : isRunning s = true) (w : Writer) :
    LeadStill s (portDisabled w s).1 :=
  (((LeadStill.onPort running w (fun _ => stoppedPort)).trans (closeRow_leadStill w .handoff _)).trans
    (onBuilder_leadStill ..)).trans (reportPort_leadStill ..)

theorem disablePort_sound {s : State} (h : LeadSound s) (running : isRunning s = true) (w : Writer) :
    LeadSound (disablePort w s) := by
  have completed := completeHandoff_keepsLead (portDisabled w s).2 _ (h.still (portDisabled_leadStill running w))
  rw [disablePort_eq]
  refine leadDisabled_keepsLead w _ ?_
  split
  · exact takerLeftRun_keepsLead w _ completed
  · exact completed

theorem retunePort_sound {s : State} (h : LeadSound s) (running : isRunning s = true) (w : Writer) (old new : WriterSettings) :
    LeadSound (retunePort w old new s) := by
  unfold retunePort
  dsimp only
  split
  · exact h.still (.onPort running ..)
  · exact portBecomes_sound h running ..

/-! ### Acquisition (R20 to R24, R28) -/

theorem alignmentError_leadStill (w : Writer) (s : State) : LeadStill s (alignmentError w s) :=
  (onPort_leadStill w s).trans (count_leadStill ..)

theorem breakSeenNow_keepsLead (w : Writer) (counts : Nat) : KeepsLead (breakSeenNow w counts) := by
  refine .of_still fun s => ?_
  unfold breakSeenNow
  split
  · exact onPort_leadStill w s
  · exact .refl s

theorem startEdgeNow_keepsLead (w : Writer) : KeepsLead (startEdgeNow w) := by
  refine .of_still fun s => ?_
  unfold startEdgeNow
  split
  · exact onPort_leadStill w s
  · exact .refl s

theorem spanTooLongNow_keepsLead (w : Writer) : KeepsLead (spanTooLongNow w) := by
  refine .of_still fun s => ?_
  unfold spanTooLongNow
  split
  · exact alignmentError_leadStill w s
  · exact .refl s

theorem spanMeasuredNow_keepsLead (w : Writer) (rise : Nat) : KeepsLead (spanMeasuredNow w rise) := by
  refine .of_still fun s => ?_
  unfold spanMeasuredNow
  dsimp only
  repeat' split
  · exact alignmentError_leadStill w s
  · exact onPort_leadStill w s
  · exact alignmentError_leadStill w s
  · exact .refl s

/-- A port in ACQUIRE is not OFF. -/
theorem on_of_phase {p : Port} {x : AcqPhase} (h : inPhase p x = true) : p.mode ≠ .off := by
  rw [((inPhase_iff p x).mp h).1]
  decide

theorem alignmentNow_keepsLead (w : Writer) (edges : List Nat) : KeepsLead (alignmentNow w edges) := by
  intro s h
  unfold alignmentNow
  dsimp only
  split
  · rename_i checks
    split
    · exact h.still (alignmentError_leadStill w s)
    · split
      · exact portBecomes_sound h (h.running_of_on (on_of_phase checks)) ..
      · exact h
  · exact h

theorem resyncBreakNow_keepsLead (w : Writer) (counts : Nat) : KeepsLead (resyncBreakNow w counts) := by
  intro s h
  unfold resyncBreakNow
  dsimp only
  split
  · rename_i resync
    have on : (portOf s w).mode ≠ .off := by
      simp only [Bool.and_eq_true, decide_eq_true_eq] at resync
      simp [resync.1.1]
    exact portBecomes_sound h (h.running_of_on on) ..
  · exact h

theorem resyncEndNow_keepsLead (w : Writer) (counts : Nat) : KeepsLead (resyncEndNow w counts) := by
  intro s h
  unfold resyncEndNow
  dsimp only
  split
  · rename_i resync
    have on : (portOf s w).mode ≠ .off := by
      simp only [Bool.and_eq_true, decide_eq_true_eq] at resync
      simp [resync.1]
    exact portBecomes_sound h (h.running_of_on on) ..
  · exact h

/-! ### Characters (R25 to R31) -/

theorem framingError_sound {s : State} (h : LeadSound s) (running : isRunning s = true) (w : Writer) :
    LeadSound (framingError w s) := by
  have counted := h.still (count_leadStill w (fun c => { c with framingErrors := c.framingErrors + 1 }) s)
  unfold framingError
  dsimp only
  split
  · exact portBecomes_sound counted running ..
  · exact portBecomes_sound counted running ..

theorem touchPort_leadStill (w : Writer) (s : State) : LeadStill s (touchPort w s) := by
  have touched : LeadStill s (onPort w (fun p => { p with pauseCount := 0, pauseArmed := true, silence := 0 }) s) :=
    onPort_leadStill w s
  unfold touchPort
  dsimp only
  split
  · exact touched.trans ⟨.arbiter .., ⟨rfl, rfl, rfl⟩, fun _ off => off⟩
  · exact touched

theorem takeSample_leadStill (w : Writer) (estimate sample : Nat) (onset resumption : Stamp) (s : State) :
    LeadStill s (takeSample w estimate sample onset resumption s) := by
  unfold takeSample
  dsimp only
  repeat' split
  · exact (onEst_leadStill ..).trans (count_leadStill ..)
  · exact (onEst_leadStill ..).trans (count_leadStill ..)
  · exact (onEst_leadStill ..).trans (count_leadStill ..)
  · exact ((onEst_leadStill ..).trans (count_leadStill ..)).trans (journal_leadStill ..)

theorem consumeOnset_leadStill (w : Writer) (chosen : Stamp) (s : State) : LeadStill s (consumeOnset w chosen s) :=
  .of_eq

theorem takeResumption_leadStill (w : Writer) (stamp : Stamp) (s : State) : LeadStill s (takeResumption w stamp s) := by
  unfold takeResumption
  dsimp only
  split
  · exact (consumeOnset_leadStill ..).trans (takeSample_leadStill ..)
  · exact count_leadStill ..

theorem resumeAt_leadStill (w : Writer) (ch : Byte) (stamp : Stamp) (s : State) : LeadStill s (resumeAt w ch stamp s) := by
  unfold resumeAt
  split
  · exact (onPort_leadStill (f := fun p => { p with pauseFlag := false }) w s).trans
      (takeResumption_leadStill ..)
  · exact .refl s

theorem handOn_sound {s : State} (h : LeadSound s) (running : isRunning s = true) (w : Writer) (cls : ByteClass) (ch : Byte)
    (stamp : Stamp) : LeadSound (handOn w cls ch stamp s) := by
  cases cls with
  | text => exact completeHandoff_keepsLead _ _ (h.still (takeText_leadStill ..))
  | row => exact completeHandoff_keepsLead _ _ (h.still (closeRow_leadStill ..))
  | speaker => exact completeHandoff_keepsLead _ _ (h.still (takeSpeaker_leadStill ..))
  | rub => exact h.still (takeCorrection_leadStill ..)
  | rubWord => exact h.still (takeCorrection_leadStill ..)
  | take => exact takeTake_sound h running w
  | give => exact takeGive_keepsLead w s h
  | ignored => exact h

theorem deliver_sound {s : State} (h : LeadSound s) (running : isRunning s = true) (w : Writer) (ch : Byte) (noisy : Bool) :
    LeadSound (deliver w ch noisy s) := by
  let s1 := count w (fun c => { c with
    characters := c.characters + 1
    noise := if noisy then c.noise + 1 else c.noise }) (onPort w (fun p => { p with framing := 0 }) s)
  have counted : LeadStill s s1 := (onPort_leadStill w s).trans (count_leadStill ..)
  have handed := handOn_sound ((h.still counted).still (holdTick_leadStill s1)) running w (classify ch) ch (stampNow s1)
  have touched := handed.still (touchPort_leadStill w _)
  unfold deliver
  dsimp only
  split
  · exact (h.still counted).still (count_leadStill ..)
  · split
    · exact touched.still (resumeAt_leadStill ..)
    · exact touched

theorem characterNow_keepsLead (w : Writer) (edges : List Nat) : KeepsLead (characterNow w edges) := by
  intro s h
  unfold characterNow
  dsimp only
  split
  · rename_i divisor run inUse
    have running := h.running_of_on (w := w) (by rw [run]; decide)
    have looked := h.still (onPort_leadStill (f := fun p => { p with lookFrom := s.clock }) w s)
    split
    · exact h
    · split
      · exact framingError_sound looked running w
      · split
        · exact looked.still (count_leadStill ..)
        · exact deliver_sound looked running ..
  · exact h

/-! ### Pauses (R30) -/

theorem pauseNow_keepsLead (w : Writer) : KeepsLead (pauseNow w) := by
  intro s h
  unfold pauseNow
  split
  · exact completeHandoff_keepsLead _ _
      (h.still ((onPort_leadStill w s).trans (closeRow_leadStill ..)))
  · exact h

end Sys2Proof.Machine
end

-- ==== Sys2Proof/Proofs/LeadInTime.lean ====

section
/-! Time keeps the bonds of the lead (R3 to R12, R54 to R63, R88, R141, R175): frame boundaries with their pieces of work, the
reference, and the tick steps; and so does an event or a piece whose own function does. -/

namespace Sys2Proof.Machine

/-! ### The operation in flight and the run state (R155, R175) -/

/-- The operation in flight becomes one that is no settings read. -/
theorem withOp_leadStill {op : Option PageOp} (h : ∀ since, op ≠ some (.settingsRead since)) (s : State) :
    LeadStill s (withOp op s) :=
  ⟨⟨id, rfl, fun since reads => absurd reads (h since)⟩, .refl _, fun _ off => off⟩

theorem issue_leadStill (flush : Bool) (step : PassStep) (generation cueChange : Word32) (s : State) :
    LeadStill s (issue flush step generation cueChange s) := withOp_leadStill (fun _ => by simp) s

/-- The part turns from one run state outside RUNNING to another. -/
theorem LeadSound.turns {s t : State} (h : LeadSound s) (stopped : isRunning s = false)
    (writers : t.settings.writers = s.settings.writers) (la : t.la = s.la) (ports : t.ports = s.ports)
    (reading : ∀ since, t.pe.op = some (.settingsRead since) → t.control.runState = .starting) : LeadSound t where
  bonds := la ▸ h.bonds
  partners w := by rw [writerOf, writers]; exact h.partners w
  stopped _ := ⟨la ▸ (h.stopped stopped).1, fun w => by rw [portOf, ports]; exact (h.stopped stopped).2 w⟩
  reading := reading

theorem haltCheck_keepsLead : KeepsLead haltCheck := by
  intro s h
  rcases haltCheck_cases s with e | ⟨halting, outcome⟩
  · rw [e]
    exact h
  · have stopped : isRunning s = false := by simp [isRunning, halting]
    have unread (since : Nat) : s.pe.op ≠ some (.settingsRead since) := fun reads => by
      have starting := h.reading since reads
      rw [halting] at starting
      cases starting
    rcases outcome with e | e | e <;> rw [e]
    · exact h.turns stopped rfl rfl rfl (fun since reads => absurd reads (unread since))
    · exact h.turns stopped rfl rfl rfl (fun since reads => absurd reads (unread since))
    · exact h.turns stopped rfl rfl rfl (fun _ _ => rfl)

/-! ### The work of a boundary (R3, R30, R31, R88, R141, R155) -/

theorem slotNow_keepsLead : KeepsLead slotNow := fun s h =>
  haltCheck_keepsLead _ (h.still (.of_slot (boundarySlot_slotStill s)))

theorem countPort_mode (p : Port) : (countPort p).mode = p.mode := by
  unfold countPort
  split <;> rfl

theorem frameCounts_leadStill (s : State) : LeadStill s (frameCounts s) := by
  refine ⟨.of_eq rfl rfl rfl, ⟨rfl, rfl, ?_⟩, fun _ off w => ?_⟩
  · show (s.la.handoff.map _).map Handoff.taker = _
    rw [Option.map_map]
    rfl
  · show (get (s.ports.map countPort) w).mode = .off
    rw [get_map, countPort_mode]
    exact off w

theorem scanBoundary_leadStill (s : State) : LeadStill s (scanBoundary s) := by
  unfold scanBoundary
  repeat' split
  · exact .refl s
  · exact .of_eq
  · have counted : LeadStill s { s with pe := { s.pe with scans := s.pe.scans + 1 } } := .of_eq
    exact counted.trans (issue_leadStill ..)

theorem frameSlot_keepsLead : KeepsLead frameSlot := by
  intro s h
  unfold frameSlot
  split
  · exact h
  · exact slotNow_keepsLead s h

theorem frameFeed_leadStill (s : State) : LeadStill s (frameFeed s) :=
  (scanBoundary_leadStill s).trans (.of_local (feedAttempt_local _))

theorem frameWork_keepsLead : KeepsLead frameWork := fun s h =>
  ((frameSlot_keepsLead _ (h.still (frameCounts_leadStill s))).still (frameFeed_leadStill _)).still
    ((LeadStill.of_slot (frameCues_slotStill _)).trans (setWork_leadStill ..))

/-! ### The pieces that are left to commands -/

theorem pauseWork_keepsLead (w : Writer) : KeepsLead (pauseWork w) := by
  intro s h
  unfold pauseWork
  split
  · exact pauseNow_keepsLead w _ (h.still (setWork_leadStill ..))
  · exact h

theorem timeoutWork_keepsLead : KeepsLead timeoutWork := by
  intro s h
  unfold timeoutWork
  split
  · exact handoffTimeoutNow_keepsLead _ (h.still (setWork_leadStill ..))
  · exact h

theorem onsetsWork_keepsLead : KeepsLead onsetsWork := by
  refine .of_still fun s => ?_
  unfold onsetsWork
  split
  · exact .of_eq
  · exact .refl s

theorem lastOnsetsWork_keepsLead : KeepsLead lastOnsetsWork := by
  refine .of_still fun s => ?_
  unfold lastOnsetsWork
  split
  · exact .of_eq
  · exact .refl s

theorem buffersWork_keepsLead : KeepsLead buffersWork := by
  refine .of_still fun s => ?_
  unfold buffersWork
  split
  · exact .of_eq
  · exact .refl s

theorem mirrorWork_keepsLead : KeepsLead mirrorWork := by
  refine .of_still fun s => ?_
  unfold mirrorWork
  split
  · exact .of_eq
  · exact .refl s

theorem atFrameWork_keepsLead : KeepsLead atFrameWork := by
  refine .of_still fun s => ?_
  unfold atFrameWork
  split
  · exact (setWork_leadStill ..).trans (.of_local (watchBoundary_local _))
  · exact .refl s

theorem expiryWork_keepsLead : KeepsLead expiryWork := by
  intro s h
  have watched := atFrameWork_keepsLead s h
  unfold expiryWork
  dsimp only
  split
  · exact watched.still ((setWork_leadStill ..).trans (.of_local (expireBoundary_local _)))
  · exact watched

theorem slotWork_keepsLead : KeepsLead slotWork := by
  intro s h
  unfold slotWork
  split
  · exact slotNow_keepsLead _ (h.still (setWork_leadStill ..))
  · exact h

theorem showWork_keepsLead : KeepsLead showWork := by
  intro s h
  unfold showWork
  split
  · exact slotWork_keepsLead s h
  · exact h

theorem clearWork_keepsLead : KeepsLead clearWork := by
  intro s h
  unfold clearWork
  split
  · exact slotWork_keepsLead s h
  · exact h

theorem settle_keepsLead : KeepsLead settle := by
  intro s h
  have lapsed := lastOnsetsWork_keepsLead _ (onsetsWork_keepsLead _ (mirrorWork_keepsLead _ (buffersWork_keepsLead s h)))
  have paused := pauseWork_keepsLead 1 _ (pauseWork_keepsLead 0 _ (slotWork_keepsLead _ lapsed))
  have timed := timeoutWork_keepsLead _ (pauseWork_keepsLead 3 _ (pauseWork_keepsLead 2 _ paused))
  exact expiryWork_keepsLead _ (silentLeads_keepsLead _ timed)

/-! ### How a command finds the part -/

theorem advance_keepsLead (m : Moment) : KeepsLead (advance m) := .of_still fun _ => .of_eq

theorem arrive_keepsLead (m : Moment) : KeepsLead (arrive m) := fun s h => advance_keepsLead m _ (settle_keepsLead s h)

theorem event_keepsLead {f : State → State} (h : KeepsLead f) (m : Moment) : KeepsLead (event m f) := by
  intro s sound
  have found := arrive_keepsLead m s sound
  unfold event
  split
  · exact found
  · exact h _ found

theorem piece_keepsLead {f : State → State} (h : KeepsLead f) (m : Moment) : KeepsLead (piece m f) := by
  intro s sound
  have found := advance_keepsLead m s sound
  unfold piece
  split
  · exact found
  · exact h _ found

/-! ### The timebase (R3, R5 to R12) -/

theorem newFrame_leadStill (origin : Nat) (s : State) : LeadStill s (newFrame origin s) := by
  have opened := newFrame_opened origin s
  exact .of_eq (by rw [opened.sameSettings]) opened.runState opened.op opened.la opened.ports

theorem setTb_leadStill (s : State) (tb : Timebase) : LeadStill s { s with tb := tb } := .of_eq

theorem tbTurns_leadStill (left entered : TbMode) (cause : RefCause) (s : State) :
    LeadStill s (tbTurns left entered cause s) :=
  (setTb_leadStill ..).trans (.of_slot (tbTurns_slotStill ..))

theorem acceptPulse_leadStill (phase : Bool) (s : State) : LeadStill s (acceptPulse phase s) := setTb_leadStill ..

/-- The boundary of a pulse that is accepted. -/
theorem pulseFrame_leadStill (origin : Nat) (phase : Bool) (s : State) :
    LeadStill s (newFrame origin (acceptPulse phase s)) := (acceptPulse_leadStill ..).trans (newFrame_leadStill ..)

theorem firstPulse_keepsLead : KeepsLead firstPulse := fun _ h =>
  frameWork_keepsLead _ (h.still ((pulseFrame_leadStill ..).trans (tbTurns_leadStill ..)))

theorem lockedPulse_keepsLead : KeepsLead lockedPulse := by
  intro s h
  unfold lockedPulse
  split
  · exact h.still (setTb_leadStill ..)
  · split
    · exact h.still (acceptPulse_leadStill ..)
    · exact frameWork_keepsLead _ (h.still (pulseFrame_leadStill ..))

theorem freewheelPulse_keepsLead : KeepsLead freewheelPulse := by
  intro s h
  unfold freewheelPulse
  dsimp only
  split
  · exact frameWork_keepsLead _ (h.still ((pulseFrame_leadStill ..).trans (tbTurns_leadStill ..)))
  · exact h.still (((acceptPulse_leadStill ..).trans (setTb_leadStill ..)).trans (tbTurns_leadStill ..))

theorem pulse_keepsLead : KeepsLead pulse := by
  intro s h
  unfold pulse
  split
  · exact firstPulse_keepsLead s h
  · exact lockedPulse_keepsLead s h
  · exact freewheelPulse_keepsLead s h

theorem lossNow_keepsLead : KeepsLead lossNow := by
  intro s h
  unfold lossNow
  split
  · split
    · exact frameWork_keepsLead _ (h.still ((newFrame_leadStill ..).trans (tbTurns_leadStill ..)))
    · exact h
  · exact h

theorem freewheelNow_keepsLead : KeepsLead freewheelNow := by
  intro s h
  unfold freewheelNow
  split
  · split
    · exact frameWork_keepsLead _ (h.still (newFrame_leadStill ..))
    · exact h
  · exact h

theorem tbEnters_keepsLead : KeepsLead tbEnters := by
  intro s h
  have begins := frameWork_keepsLead _ (h.still (newFrame_leadStill s.clock s))
  unfold tbEnters
  split
  · exact frameWork_keepsLead _ (h.still ((newFrame_leadStill ..).trans (tbTurns_leadStill ..)))
  all_goals
    split
    · exact begins
    · exact h

/-! ### The tick steps (R54 to R63) -/

theorem takeCapture_leadStill (i : LineNo) (stamp : Stamp) (s : State) : LeadStill s (takeCapture i stamp s) := by
  have counted : LeadStill s (captureCounted i s) := .of_eq
  rcases voice_or_trigger i with ⟨v, voice⟩ | ⟨j, trigger⟩
  · have added : LeadStill s (addOnset v stamp (captureCounted i s)) := counted.trans .of_eq
    rw [takeCapture_voice voice]
    split
    · exact added.trans (silenceTest_leadStill _)
    · exact added
  · rw [takeCapture_trigger trigger]
    exact counted.trans (.of_local (fireTrigger_local ..))

theorem stepLine_leadStill (stamp : Stamp) (s : State) (i : LineNo) : LeadStill s (stepLine stamp s i) := by
  have filtered : LeadStill s (withFilter stamp s i) := .of_eq
  rcases stepLine_cases stamp s i with e | ⟨first, e⟩ <;> rw [e]
  · exact filtered
  · exact filtered.trans (takeCapture_leadStill ..)

theorem tickStepEvent_keepsLead : KeepsLead tickStepEvent := by
  refine .of_still fun s => ?_
  unfold tickStepEvent
  split
  · exact (setTb_leadStill ..).trans (.foldl (stepLine_leadStill _) ..)
  · exact .refl s

end Sys2Proof.Machine
end

-- ==== Sys2Proof/Proofs/LeadApplied.lean ====

section
/-! Settings applications keep the bonds of the lead (R83, R93, R157 to R160), and so does the entry into RUNNING (R17, R84,
R175): in STARTING there is no lead, and the application moves none. -/

namespace Sys2Proof.Machine

/-! ### Work that needs what it leaves -/

/-- Steps that leave the bonds where P holds, one after another, where what leaves the bonds leaves P. -/
theorem LeadStill.foldl_of {α : Type} {P : State → Prop} {f : State → α → State}
    (kept : ∀ s t, LeadStill s t → P s → P t) (h : ∀ s x, P s → LeadStill s (f s x)) (l : List α) {s : State} (start : P s) :
    LeadStill s (l.foldl f s) := by
  induction l generalizing s with
  | nil => exact refl s
  | cons x rest ih => exact (h s x start).trans (ih (kept _ _ (h s x start) start))

theorem KeepsLead.foldl {α : Type} {f : State → α → State} (h : ∀ x, KeepsLead (fun s => f s x)) (l : List α) :
    KeepsLead (fun s => l.foldl f s) := by
  induction l with
  | nil => exact fun _ sound => sound
  | cons x rest ih => exact fun s sound => ih _ (h x s sound)

/-- The part is not RUNNING, and has no lead. -/
structure Leadless (s : State) : Prop where
  stopped : isRunning s = false
  lead : s.la.lead = none

theorem LeadStill.leadless {s t : State} (h : LeadStill s t) (idle : Leadless s) : Leadless t :=
  ⟨h.running.trans idle.stopped, h.bonds.lead.trans idle.lead⟩

/-! ### The values of a block (R83, R157, R158) -/

/-- The values name no writer as its own relay partner (R83). -/
def NamesNoOwnPartner (new : Settings) : Prop := ∀ w, (get new.writers w).partner ≠ some w

/-- A block that does has the field taken as none (R158). -/
theorem parseSettings_apart (block : List Byte) : NamesNoOwnPartner (parseSettings block) := by
  intro w own
  rw [((parseSettings_taken block).writers w).partner, Option.filter_eq_some_iff] at own
  simp at own

theorem applyTuning_leadStill (new : Settings) (s : State) : LeadStill s (applyTuning new s) :=
  .of_eq

theorem applyVoices_leadStill {new : Settings} (apart : NamesNoOwnPartner new) (s : State) :
    LeadStill s (applyVoices new s) := by
  rw [applyVoices_eq]
  refine ⟨⟨fun _ w => ?_, rfl, fun _ reads => reads⟩, .refl _, fun _ off => off⟩
  show (get (Vector.ofFn fun w => withVoices (get s.settings.writers w) (get new.writers w)) w).partner ≠ some w
  rw [get_ofFn]
  exact apart w

theorem portWritten_leadStill (new : Settings) (s : State) (w : Writer) : LeadStill s (portWritten new s w) := by
  refine ⟨⟨fun apart v => ?_, rfl, fun _ reads => reads⟩, .refl _, fun _ off => off⟩
  show (get (put s.settings.writers w (portSet new s w)) v).partner ≠ some v
  rw [get_put]
  split
  · rename_i own
    exact own ▸ apart w
  · exact apart v

/-! ### The ports and the live level (R17, R18, R157) -/

theorem applyPort_keepsLead (new : Settings) (w : Writer) : KeepsLead (fun s => applyPort new s w) := by
  intro s h
  have written := h.still (portWritten_leadStill new s w)
  show LeadSound (applyPort new s w)
  cases running : isRunning s with
  | false =>
    rw [applyPort_of_stopped running]
    exact written
  | true =>
    rw [applyPort_of_running running]
    dsimp only
    split
    · split
      · exact enablePort_sound written running w
      · exact written
    · split
      · exact disablePort_sound written running w
      · split
        · exact written
        · exact retunePort_sound written running ..

theorem applyOnAir_keepsLead {new : Settings} (apart : NamesNoOwnPartner new) : KeepsLead (applyOnAir new) := by
  intro s h
  have ported := KeepsLead.foldl (fun w s sound => silentLeads_keepsLead _ (applyPort_keepsLead new w s sound)) allWriters _
    (h.still (applyVoices_leadStill apart s))
  exact ported.still (.of_local (applyLiveLevel_local ..))

/-! ### The forced lead, the silence test and the report (R91, R93, R157 to R159) -/

theorem setForced_leadStill (f : Option Writer) (s : State) : LeadStill s (setForced f s) := .of_eq

theorem applyForced_keepsLead (f : Option Writer) : KeepsLead (fun s => (applyForced f s).1) := by
  intro s h
  show LeadSound (applyForced f s).1
  cases f with
  | none => exact h.still (setForced_leadStill ..)
  | some w =>
    by_cases off : (portOf s w).mode = .off
    · rw [applyForced_of_off off]
      exact h
    · rw [applyForced_of_on off]
      exact (silentLeads_keepsLead _ (forceLead_keepsLead w s h)).still (setForced_leadStill ..)

theorem silenceOfApplication_keepsLead : KeepsLead silenceOfApplication := by
  intro s h
  unfold silenceOfApplication
  split
  · exact silentLeads_keepsLead _ (h.still (silenceTest_leadStill s))
  · exact h

theorem reportSettings_leadStill (generation : Word32) (clamped ignored : List Nat) (s : State) :
    LeadStill s (reportSettings generation clamped ignored s) := by
  obtain ⟨attn, buffer, lost, e⟩ := reportSettings_leaves generation clamped ignored s
  rw [e]
  exact .of_eq

theorem applyRunning_keepsLead (generation : Word32) (block : List Byte) : KeepsLead (applyRunning generation block) := by
  intro s h
  have tuned := h.still (applyTuning_leadStill (parseSettings block) s)
  unfold applyRunning
  dsimp only
  refine (silenceOfApplication_keepsLead _ (applyForced_keepsLead _ _ ?_)).still (reportSettings_leadStill ..)
  split
  · exact tuned
  · exact applyOnAir_keepsLead (parseSettings_apart block) _ tuned

/-! ### The application of STARTING (R158, R160) -/

theorem silentLeadNow_leadStill {s : State} (leadless : s.la.lead = none) : LeadStill s (silentLeadNow s) := by
  have unmarked := setWork_leadStill s { s.work with silence := false }
  unfold silentLeadNow
  split
  · dsimp only
    split
    · rename_i silent
      simp [leadSilent, leadless] at silent
    · exact unmarked
  · exact .refl s

theorem silentLeads_leadStill {s : State} (leadless : s.la.lead = none) : LeadStill s (silentLeads s) := by
  have first := silentLeadNow_leadStill leadless
  have second := first.trans (silentLeadNow_leadStill (first.bonds.lead.trans leadless))
  have third := second.trans (silentLeadNow_leadStill (second.bonds.lead.trans leadless))
  exact third.trans (silentLeadNow_leadStill (third.bonds.lead.trans leadless))

theorem applyWriter_leadStill {s : State} (idle : Leadless s) (new : Settings) (w : Writer) :
    LeadStill s (applyWriter new s w) := by
  have written := portWritten_leadStill new s w
  rw [applyWriter, applyPort_of_stopped idle.stopped]
  exact written.trans (silentLeads_leadStill (written.leadless idle).lead)

theorem applyOnAir_leadStill {new : Settings} (apart : NamesNoOwnPartner new) {s : State} (idle : Leadless s) :
    LeadStill s (applyOnAir new s) := by
  have voiced := applyVoices_leadStill apart s
  have ported := LeadStill.foldl_of (fun _ _ h => h.leadless) (fun _ w idle => applyWriter_leadStill idle new w) allWriters
    (voiced.leadless idle)
  exact (voiced.trans ported).trans (.of_local (applyLiveLevel_local ..))

theorem tbRates_leadStill (rateCode divider : Nat) (s : State) : LeadStill s (tbRates rateCode divider s) := by
  have rated : LeadStill s { s with settings := { s.settings with rateCode := rateCode, divider := divider } } :=
    .of_eq
  unfold tbRates
  dsimp only
  split
  · exact rated
  · split
    · exact rated.trans (setTb_leadStill ..)
    · exact (rated.trans (setTb_leadStill ..)).trans (tbTurns_leadStill ..)

theorem tbLoad_leadStill (load : Option Frame) (s : State) : LeadStill s (tbLoad load s) := by
  unfold tbLoad
  split
  · exact setTb_leadStill ..
  · exact .refl s

theorem applyStructure_leadStill (new : Settings) (load : Option Frame) (s : State) :
    LeadStill s (applyStructure new load s) :=
  ((tbRates_leadStill ..).trans (tbLoad_leadStill load _)).trans .of_eq

theorem applyStarting_leadStill {s : State} (idle : Leadless s) (generation : Word32) (block : List Byte) :
    LeadStill s (applyStarting generation block s) := by
  let new := parseSettings block
  have tuned := (applyStructure_leadStill new (parseLoad block) s).trans (applyTuning_leadStill new _)
  have applied := tuned.trans (applyOnAir_leadStill (parseSettings_apart block) (tuned.leadless idle))
  have forced := applied.trans (setForced_leadStill new.forcedLead _)
  unfold applyStarting
  dsimp only
  rw [silenceOfApplication, if_neg (by rw [(forced.leadless idle).lead]; decide)]
  exact forced.trans (reportSettings_leadStill ..)

theorem lower_leadStill (f : AttnFlag) (s : State) : LeadStill s (lower f s) := .of_eq

theorem acceptMark_leadStill (mark : Word32) (s : State) : LeadStill s (acceptMark mark s) := by
  unfold acceptMark
  dsimp only
  have marked : LeadStill s { s with pe := { s.pe with readMark := mark } } := .of_eq
  repeat' split
  · exact marked.trans (lower_leadStill ..)
  · exact marked
  · exact lower_leadStill ..
  · exact .refl s

theorem pendRunStart_leadStill (s : State) : LeadStill s (pendRunStart s) := .of_eq

theorem startingApplied_leadStill {s : State} (idle : Leadless s) (words : HeaderWords) (block : List Byte) :
    LeadStill s (startingApplied words block s) :=
  ((applyStarting_leadStill idle words.generation block).trans (acceptMark_leadStill ..)).trans (pendRunStart_leadStill _)

/-! ### The entry into RUNNING (R17, R84, R175) -/

theorem startPort_leadStill {s : State} (running : isRunning s = true) (w : Writer) : LeadStill s (startPort s w) := by
  unfold startPort
  split
  · exact .onPort running ..
  · exact .refl s

theorem startLead_sound {s : State} (h : LeadSound s) (running : isRunning s = true) (leadless : s.la.lead = none) :
    LeadSound (startLead s) := by
  unfold startLead
  dsimp only
  split
  · exact giveLead_sound h running leadless ..
  · exact giveLead_sound h running leadless ..
  · exact h

theorem owe_leadStill (s : State) (owed : Owed) : LeadStill s { s with out := { s.out with owed := owed } } :=
  .of_eq

/-- The part enters RUNNING without a lead and with no settings read in flight. -/
theorem enterRunning_sound {s : State} (h : LeadSound s) (idle : Leadless s)
    (unread : ∀ since, s.pe.op ≠ some (.settingsRead since)) : LeadSound (enterRunning s) := by
  let s1 : State := { s with control := { s.control with runState := .running } }
  have entered : LeadSound s1 :=
    ⟨h.bonds, h.partners, fun stopped => by simp [s1, isRunning] at stopped, fun since reads => absurd reads (unread since)⟩
  have started : LeadStill s1 (allWriters.foldl startPort s1) :=
    .foldl_of (P := fun t => isRunning t = true) (fun _ _ same running => same.running.trans running)
      (fun _ w running => startPort_leadStill running w) allWriters rfl
  have seeded := started.trans (.foldl seedWriter_leadStill allWriters _)
  have owed := seeded.trans (owe_leadStill _ .startClear)
  have led := startLead_sound (entered.still owed) owed.running (owed.bonds.lead.trans idle.lead)
  exact tbEnters_keepsLead _ (led.still (.of_local (insertionTest_local _)))

theorem startingRead_keepsLead (words : HeaderWords) (block : List Byte) : KeepsLead (startingRead words block) := by
  intro s h
  unfold startingRead
  split
  · rename_i since reads
    have starting := h.reading since reads
    have stopped : isRunning s = false := by simp [isRunning, starting]
    have ended : LeadStill s (withOp none s) := withOp_leadStill (fun _ => by simp) s
    have idle : Leadless (withOp none s) := ended.leadless ⟨stopped, (h.stopped stopped).1⟩
    split
    · have applied := startingApplied_leadStill idle words block
      exact enterRunning_sound (h.still (ended.trans applied)) (applied.leadless idle)
        (fun x again => absurd (applied.reading x again) (by simp))
    · exact (h.still ended).turns idle.stopped rfl rfl rfl (fun x again => by simp [backToHalted] at again)
  · exact h

end Sys2Proof.Machine
end

-- ==== Sys2Proof/Proofs/LeadSoundness.lean ====

section
/-! Every step keeps the bonds of the lead (R16, R82, R83): the page engine, the register window and the resets beside what
comes before, and the commands one by one. -/

namespace Sys2Proof.Machine

/-! ### The steps of a pass (R155, R156, R162 to R167) -/

theorem allowRefetch_leadStill (s : State) : LeadStill s (allowRefetch s) := .of_eq

theorem endPass_keepsLead : KeepsLead endPass := fun s h =>
  haltCheck_keepsLead _ (h.still ((withOp_leadStill (fun _ => by simp) s).trans (allowRefetch_leadStill _)))

theorem startJournal_keepsLead (flush : Bool) (generation cueChange : Word32) :
    KeepsLead (startJournal flush generation cueChange) := by
  intro s h
  unfold startJournal
  split
  · split
    · exact h.still (issue_leadStill ..)
    · exact endPass_keepsLead s h
  · exact endPass_keepsLead s h

theorem startSlots_leadStill (first : Nat) (flush : Bool) (generation cueChange : Word32) (s : State) :
    LeadStill s (startSlots first flush generation cueChange s) := by
  unfold startSlots
  repeat' split
  all_goals exact issue_leadStill ..

theorem startCueTable_leadStill (generation cueChange : Word32) (s : State) :
    LeadStill s (startCueTable generation cueChange s) := by
  unfold startCueTable
  split
  · exact issue_leadStill ..
  · exact startSlots_leadStill ..

theorem startSettings_leadStill (generation cueChange : Word32) (s : State) :
    LeadStill s (startSettings generation cueChange s) := by
  unfold startSettings
  split
  · exact issue_leadStill ..
  · exact startCueTable_leadStill ..

theorem headerRead_keepsLead (words : HeaderWords) : KeepsLead (headerRead words) := by
  refine .of_still fun s => ?_
  unfold headerRead
  split
  · have marked := acceptMark_leadStill words.readMark s
    dsimp only
    split
    · exact marked.trans (startSlots_leadStill ..)
    · exact marked.trans (startSettings_leadStill ..)
  · exact .refl s

theorem settingsRead_keepsLead (block : List Byte) : KeepsLead (settingsRead block) := by
  intro s h
  unfold settingsRead
  split
  · exact (applyRunning_keepsLead _ block s h).still (startCueTable_leadStill ..)
  · exact h

/-! ### The cue table (R126, R136, R161) -/

theorem checkSlot_local (n : SlotNo) (read : CueState) (s : State) : Local s (checkSlot n read s) := by
  unfold checkSlot
  split
  · split
    · exact .refl s
    · exact markSlot_local n s
  · exact .refl s

theorem handSlot_local (runStart : Bool) (table : List Byte) (s : State) (n : SlotNo) :
    Local s (handSlot runStart table s n) := by
  unfold handSlot
  dsimp only
  split
  · split
    · exact (takePosted_local ..).trans (checkSlot_local ..)
    · split
      · exact (withdrawCue_local ..).trans (checkSlot_local ..)
      · exact checkSlot_local ..
  · split
    · exact takePosted_local ..
    · split
      · exact takePosted_local ..
      · exact .refl s
    all_goals first
      | exact .refl s
      | split
        · exact takeStray_local ..
        · exact .refl s

theorem handTable_local (table : List Byte) (s : State) : Local s (handTable table s) :=
  .foldl (handSlot_local _ table) allSlots s

theorem seeCueChange_leadStill (cueChange : Word32) (s : State) : LeadStill s (seeCueChange cueChange s) :=
  .of_eq

theorem clearScanMarks_leadStill (s : State) : LeadStill s (clearScanMarks s) := .of_eq

theorem cueTableRead_keepsLead (table : List Byte) : KeepsLead (cueTableRead table) := by
  refine .of_still fun s => ?_
  unfold cueTableRead
  split
  · rename_i generation cueChange since reads
    have handed := (seeCueChange_leadStill cueChange s).trans (.of_local (handTable_local table _))
    exact (handed.trans (clearScanMarks_leadStill _)).trans (startSlots_leadStill ..)
  · exact .refl s

/-! ### Completions of writes (R162, R164, R166) -/

theorem writePage_leadStill (data : List (Nat × List Byte)) (s : State) : LeadStill s (writePage data s) :=
  .of_eq

theorem setMarks_leadStill (s : State) (marks : Vector Bool 64) : LeadStill s { s with pe := { s.pe with marks := marks } } :=
  .of_eq

theorem slotWritten_keepsLead : KeepsLead slotWritten := by
  refine .of_still fun s => ?_
  unfold slotWritten
  split
  · rename_i flush n data terminal dirty generation cueChange since op
    have written := (writePage_leadStill data s).trans (setMarks_leadStill _ (put (writePage data s).pe.marks n dirty))
    refine LeadStill.trans ?_ (startSlots_leadStill ..)
    split
    · exact written.trans (.of_local (storeCue_local ..))
    · exact written
  · exact .refl s

theorem statusWritten_keepsLead : KeepsLead statusWritten := by
  intro s h
  unfold statusWritten
  split
  · exact startJournal_keepsLead _ _ _ _ (h.still (writePage_leadStill ..))
  · exact h

theorem journalWritten_keepsLead : KeepsLead journalWritten := by
  intro s h
  unfold journalWritten
  split
  · rename_i flush data generation cueChange since op
    have left : LeadStill (writePage data s) { writePage data s with pe := { (writePage data s).pe with
        buffer := (writePage data s).pe.buffer.drop 1, writeCount := (writePage data s).pe.writeCount + 1 } } :=
      .of_eq
    exact startJournal_keepsLead _ _ _ _
      (h.still (((writePage_leadStill data s).trans left).trans (raise_leadStill ..)))
  · exact h

/-! ### Page faults (R168, R169) -/

/-- A page access has failed, and every operation in flight is abandoned: what a settings read leaves is HALTED. -/
theorem takeFault_keepsLead (offset : Nat) (site : Site) : KeepsLead (takeFault offset site) := by
  intro s h
  let context : FaultContext := { offset := offset, write := site.write, op := site.op, frame := s.tb.frame }
  let s1 := raise .pageFault { s with pe := { s.pe with fault := some context, lastFault := some context, op := none } }
  have faulted : LeadStill s s1 :=
    ⟨⟨id, rfl, fun since reads => by simp [s1] at reads⟩, .refl _, fun _ off => off⟩
  have abandoned : LeadStill s1 (([0, 1] : List CtxNo).foldl abandonFetch s1) := .of_local (Local.foldl abandonFetch_local _ s1)
  have sound := h.still (faulted.trans abandoned)
  show LeadSound (afterAbandoned s.pe.op (([0, 1] : List CtxNo).foldl abandonFetch s1))
  cases op : s.pe.op with
  | none => exact sound
  | some o =>
    cases o with
    | settingsRead since =>
      have stopped : isRunning s = false := by simp [isRunning, h.reading since op]
      refine sound.turns ((faulted.trans abandoned).running.trans stopped) rfl rfl rfl (fun x reads => ?_)
      exact absurd (abandoned.reading x reads) (by simp [s1])
    | pass flush step generation cueChange since =>
      cases flush with
      | true => exact haltCheck_keepsLead _ sound
      | false => exact sound

theorem accessFailed_keepsLead (a : Access) (offset : Nat) : KeepsLead (accessFailed a offset) := by
  intro s h
  unfold accessFailed
  split
  · exact takeFault_keepsLead offset _ s h
  · exact h

theorem accessLate_keepsLead (a : Access) (offset : Nat) : KeepsLead (accessLate a offset) := by
  intro s h
  unfold accessLate
  split
  · split
    · exact takeFault_keepsLead offset _ s h
    · exact h
  · exact h

theorem endFault_leadStill (s : State) : LeadStill s (endFault s) := by
  unfold endFault
  split
  · rename_i context fault
    have ended : LeadStill s { s with pe := { s.pe with fault := none } } := .of_eq
    have recorded := ended.trans (journal_leadStill (.pageRecovered context) _)
    dsimp only
    split
    · exact recorded.trans .of_eq
    · exact recorded
  · exact .refl s

/-! ### Entering STARTING and leaving RUNNING (R174, R175) -/

theorem enterStarting_sound {s : State} (h : LeadSound s) (halted : s.control.runState = .halted) :
    LeadSound (enterStarting s) := by
  have stopped : isRunning s = false := by simp [isRunning, halted]
  unfold enterStarting
  split
  · refine h.turns stopped rfl rfl rfl (fun since reads => ?_)
    have starting := h.reading since reads
    rw [halted] at starting
    cases starting
  · exact h.turns stopped rfl rfl rfl (fun _ _ => rfl)

theorem setDisplay_leadStill (s : State) (d : Display) : LeadStill s { s with disp := d } := .of_eq

theorem haltDisplay_leadStill (s : State) : LeadStill s (haltDisplay s) :=
  (LeadStill.of_local (Local.foldl haltCue_local allSlots s)).trans (setDisplay_leadStill ..)

theorem haltSchedule_leadStill (s : State) : LeadStill s (haltSchedule s) := .of_local (air_local ..)

theorem startFlush_leadStill (s : State) : LeadStill s (startFlush s) := by
  unfold startFlush
  split
  · exact withOp_leadStill (fun _ => by simp) s
  · exact issue_leadStill ..

/-- A state outside RUNNING with LA's record reset and every port stopped. -/
theorem LeadSound.of_reset {s : State} (partners : NoOwnPartner s) (la : s.la = Arbiter.reset)
    (ports : s.ports = Vector.replicate 4 stoppedPort) (unread : ∀ since, s.pe.op ≠ some (.settingsRead since)) :
    LeadSound s where
  bonds := la ▸ .reset
  partners := partners
  stopped _ := ⟨by rw [la]; rfl, fun w => by rw [portOf, ports, get_replicate]; rfl⟩
  reading since reads := absurd reads (unread since)

/-- s with the blocks that leaving RUNNING resets at their reset values, the display and the schedule aside (R175). -/
def stoppedBlocks (s : State) : State :=
  { s with
    control := { s.control with runState := .halting }
    ports := Vector.replicate 4 stoppedPort
    builders := Vector.replicate 4 Builder.reset
    queue := []
    onsets := Vector.replicate 2 []
    la := Arbiter.reset
    out := { s.out with owed := .haltClear, cursor := none } }

theorem leaveRunning_eq (s : State) : leaveRunning s = startFlush (stoppedBlocks (haltSchedule (haltDisplay s))) := rfl

theorem stoppedBlocks_sound {s : State} (partners : NoOwnPartner s) (unread : ∀ since, s.pe.op ≠ some (.settingsRead since)) :
    LeadSound (stoppedBlocks s) := .of_reset partners rfl rfl unread

/-- Leaving RUNNING resets LA's record and stops every port. -/
theorem leaveRunning_sound {s : State} (h : LeadSound s) (running : s.control.runState = .running) :
    LeadSound (leaveRunning s) := by
  have halted := (haltDisplay_leadStill s).trans (haltSchedule_leadStill _)
  have unread (since : Nat) : (haltSchedule (haltDisplay s)).pe.op ≠ some (.settingsRead since) := fun reads => by
    have starting := h.reading since (halted.reading since reads)
    rw [running] at starting
    cases starting
  rw [leaveRunning_eq]
  exact (stoppedBlocks_sound (halted.partners h.partners) unread).still (startFlush_leadStill _)

theorem writeRun_keepsLead (run : Bool) : KeepsLead (writeRun run) := by
  intro s h
  let s1 : State := { s with control := { s.control with run := run } }
  have set : LeadStill s s1 := .of_eq
  unfold writeRun
  dsimp only
  split
  · rename_i halted
    exact enterStarting_sound (h.still set) halted
  · exact h.still set
  · rename_i running
    exact leaveRunning_sound (h.still set) running
  all_goals exact h.still set

/-! ### Resets (R176) -/

theorem resetBlocks_sound (s : State) : LeadSound (resetBlocks s) := by
  refine .of_reset (fun w => ?_) rfl rfl (fun since reads => ?_)
  · simp [resetBlocks, State.reset, writerOf, Settings.default, WriterSettings.default]
  · simp [resetBlocks, State.reset, PageEngine.reset] at reads

theorem hardwareResetNow_sound (s : State) : LeadSound (hardwareResetNow s) :=
  (resetBlocks_sound s).still .of_eq

theorem softResetNow_sound (s : State) : LeadSound (softResetNow s) :=
  (resetBlocks_sound s).still .of_eq

theorem resetRises_keepsLead : KeepsLead resetRises := by
  intro s h
  unfold resetRises
  split
  · exact (resetBlocks_sound s).still .of_eq
  · exact h

/-! ### Writes to the register window (R171 to R178) -/

theorem writeControl_keepsLead (word : Word32) : KeepsLead (writeControl word) := by
  intro s h
  unfold writeControl
  split
  · exact softResetNow_sound s
  · refine (writeRun_keepsLead (wordBit word 0) s h).still ?_
    unfold writeFreeze
    split
    · exact .of_eq
    · exact .refl _

theorem writeAttn_keepsLead (word : Word32) : KeepsLead (writeAttn word) := by
  refine .of_still fun s => ?_
  have cleared : LeadStill s { s with control := { s.control with attn := s.control.attn &&& word.setWidth 8 } } :=
    .of_eq
  unfold writeAttn
  dsimp only
  split
  · exact cleared
  · exact cleared.trans (endFault_leadStill _)

theorem writeEnable_keepsLead (word : Word32) : KeepsLead (writeEnable word) := .of_still fun _ => .of_eq

theorem writeBase_keepsLead (high : Bool) (word : Word32) : KeepsLead (writeBase high word) := by
  refine .of_still fun s => ?_
  unfold writeBase
  split
  · exact .of_eq
  · exact .refl s

theorem writeRegister_keepsLead (reg : Reg) (word : Word32) : KeepsLead (writeRegister reg word) := by
  cases reg with
  | ident => exact fun _ => id
  | control => exact writeControl_keepsLead word
  | status => exact fun _ => id
  | attn => exact writeAttn_keepsLead word
  | attnEnable => exact writeEnable_keepsLead word
  | pageBaseLo => exact writeBase_keepsLead false word
  | pageBaseHi => exact writeBase_keepsLead true word

/-! ### The commands -/

theorem completeFetch_keepsLead (k : CtxNo) (entry : List Byte) : KeepsLead (completeFetch k entry) :=
  .of_still fun _ => .of_local (completeFetch_local ..)

/-- Every command answers a state with the bonds of the lead, from one with them. -/
theorem exec_leadSound (c : Instr) (s : State) (h : LeadSound s) : ∃ t, exec c s = .next t ∧ LeadSound t := by
  have found {f : State → State} (keeps : KeepsLead f) (m : Moment) : LeadSound (event m f s) := event_keepsLead keeps m s h
  have taken {f : State → State} (keeps : KeepsLead f) (m : Moment) : LeadSound (piece m f s) := piece_keepsLead keeps m s h
  cases c with
  | hardwareReset m => exact ⟨_, rfl, hardwareResetNow_sound _⟩
  | softReset m word => exact ⟨_, rfl, found (writeControl_keepsLead word) m⟩
  | runSet m word => exact ⟨_, rfl, found (writeControl_keepsLead word) m⟩
  | runClear m word => exact ⟨_, rfl, found (writeControl_keepsLead word) m⟩
  | freeze m word => exact ⟨_, rfl, found (writeControl_keepsLead word) m⟩
  | attnClear m word => exact ⟨_, rfl, found (writeAttn_keepsLead word) m⟩
  | pageFaultClear m word => exact ⟨_, rfl, found (writeAttn_keepsLead word) m⟩
  | attnEnableWrite m word => exact ⟨_, rfl, found (writeEnable_keepsLead word) m⟩
  | pageBaseWrite m high word => exact ⟨_, rfl, found (writeBase_keepsLead high word) m⟩
  | registerWriteDiscarded m reg word => exact ⟨_, rfl, found (writeRegister_keepsLead reg word) m⟩
  | referencePulse m => exact ⟨_, rfl, found pulse_keepsLead m⟩
  | lossExpiry m => exact ⟨_, rfl, found lossNow_keepsLead m⟩
  | freewheelExpiry m => exact ⟨_, rfl, found freewheelNow_keepsLead m⟩
  | tickStep m => exact ⟨_, rfl, found tickStepEvent_keepsLead m⟩
  | characterAccepted m w edges => exact ⟨_, rfl, found (characterNow_keepsLead w edges) m⟩
  | breakSeen m w space => exact ⟨_, rfl, found (breakSeenNow_keepsLead w space) m⟩
  | resyncBreak m w space => exact ⟨_, rfl, found (resyncBreakNow_keepsLead w space) m⟩
  | spanTooLong m w => exact ⟨_, rfl, found (spanTooLongNow_keepsLead w) m⟩
  | alignmentCharacter m w edges => exact ⟨_, rfl, found (alignmentNow_keepsLead w edges) m⟩
  | resyncEnd m w mark => exact ⟨_, rfl, found (resyncEndNow_keepsLead w mark) m⟩
  | pauseEvent m w => exact ⟨_, rfl, taken (pauseWork_keepsLead w) m⟩
  | silentLead m => exact ⟨_, rfl, taken silentLeadNow_keepsLead m⟩
  | handoffTimeout m => exact ⟨_, rfl, taken timeoutWork_keepsLead m⟩
  | onsetAged m => exact ⟨_, rfl, taken onsetsWork_keepsLead m⟩
  | lastOnsetLapse m => exact ⟨_, rfl, taken lastOnsetsWork_keepsLead m⟩
  | bufferFreeLapse m => exact ⟨_, rfl, taken buffersWork_keepsLead m⟩
  | mirrorPast m => exact ⟨_, rfl, taken mirrorWork_keepsLead m⟩
  | atFrameDue m => exact ⟨_, rfl, taken atFrameWork_keepsLead m⟩
  | cueWaitExpired m => exact ⟨_, rfl, taken expiryWork_keepsLead m⟩
  | showRow m => exact ⟨_, rfl, taken showWork_keepsLead m⟩
  | pendingClear m => exact ⟨_, rfl, taken clearWork_keepsLead m⟩
  | headerReadComplete m header => exact ⟨_, rfl, found (headerRead_keepsLead _) m⟩
  | settingsApplication m block => exact ⟨_, rfl, found (settingsRead_keepsLead block) m⟩
  | settingsReadComplete m header block => exact ⟨_, rfl, found (startingRead_keepsLead _ block) m⟩
  | cueTableReadComplete m table => exact ⟨_, rfl, found (cueTableRead_keepsLead table) m⟩
  | slotWriteComplete m => exact ⟨_, rfl, found slotWritten_keepsLead m⟩
  | statusWriteComplete m => exact ⟨_, rfl, found statusWritten_keepsLead m⟩
  | journalWriteComplete m => exact ⟨_, rfl, found journalWritten_keepsLead m⟩
  | fetchComplete m ctx entry => exact ⟨_, rfl, found (completeFetch_keepsLead ctx entry) m⟩
  | pageFault m access offset => exact ⟨_, rfl, found (accessFailed_keepsLead access offset) m⟩
  | accessTimeout m access offset => exact ⟨_, rfl, found (accessLate_keepsLead access offset) m⟩
  | resetNRise m => exact ⟨_, rfl, resetRises_keepsLead _ (arrive_keepsLead m s h)⟩
  | alignmentStartEdge m w => exact ⟨_, rfl, found (startEdgeNow_keepsLead w) m⟩
  | spanMeasured m w rise => exact ⟨_, rfl, found (spanMeasuredNow_keepsLead w rise) m⟩

/-- Settles O59, by the command at the front of the queue. -/
theorem everyStepKeepsTheLeadBound : Obligations.EveryStepKeepsTheLeadBound := by
  intro s t sound stepped
  unfold step at stepped
  split at stepped
  · cases stepped
    exact sound
  · rename_i c rest waiting
    obtain ⟨u, next, kept⟩ := exec_leadSound c (s.withPending rest) (sound.still .of_eq)
    rw [next] at stepped
    cases stepped
    exact kept

end Sys2Proof.Machine
end

