-- ==== Sys2Proof/Proofs/PendingClear.lean ====
section
/-! The slot that carries the pending CLEAR (R116, R142, R147). -/

namespace Sys2Proof.Machine

/-- The state that the pending CLEAR leaves to staging (R116, R142, R147). -/
def pendingCleared (s : State) : State :=
  { s with air := { s.air with clear := none }, out := { s.out with mirror := [] } }

/-- With nothing owed and no row to show, a pending clear frame that is reached gives the command unit CLEAR (R142). -/
theorem commandUnit_clears {s : State} (owed : s.out.owed = .none) (shows : showDue s = false) (clears : clearDue s = true) :
    commandUnit s = ([0x18], pendingCleared s) := by
  unfold commandUnit
  rw [owed]
  simp only [reduceCtorEq, if_false]
  split
  · rename_i e rest entries
    have later : e.showAt ≠ s.tb.frame := fun now => by simp [showDue, entries, now] at shows
    rw [if_neg later, if_pos clears]
    rfl
  · rw [if_pos clears]
    rfl

/-- PENDING_CLEAR takes the slot that is left, where it shows nothing and the pending clear is reached (R116, R142). -/
theorem exec_pendingClear {m : Moment} {s a : State} (finds : FindsPiece m s a) (slot : a.work.slot = true)
    (running : a.control.runState = .running) (shows : showDue a = false) (clears : clearDue a = true) :
    exec (.pendingClear m) s = .next (runningSlot { a with work := { a.work with slot := false } }) := by
  have taken : clearWork a = slotNow { a with work := { a.work with slot := false } } := by
    simp only [clearWork, shows, clears, Bool.not_false, Bool.and_self, slotWork, slot, if_true]
  refine (congrArg Host.Outcome.next (piece_of_finds finds clearWork)).trans ?_
  rw [taken, slotNow_of_running (s := { a with work := { a.work with slot := false } }) running]

/-- Settles O43: the slot is CLEAR with the staging behind it, which leaves the mirror and the pending clear as CLEAR left
them. -/
theorem pendingClearEmptiesTheScreen : Obligations.PendingClearEmptiesTheScreen := by
  intro m s a f finds slot running owed shows clear reached
  let b : State := { a with work := { a.work with slot := false } }
  have clears : clearDue a = true := (clearDue_iff a).mpr ⟨f, clear, reached⟩
  obtain ⟨q, units, sends, sent⟩ := runningSlot_sends (commandUnit_clears (s := b) owed shows clears) rfl
  have air := congrArg State.air sends
  have out := congrArg State.out sends
  exact ⟨runningSlot b, exec_pendingClear finds slot running shows clears, (runningSlot_slotStill b).toSlotFrame,
    ⟨q, sent, congrArg AirSchedule.entries air⟩, congrArg Output.mirror out, congrArg AirSchedule.clear air,
    (congrArg State.counters sends :), (congrArg State.disp sends :), (congrArg State.queue sends :)⟩

end Sys2Proof.Machine
end

