-- ==== Sys2Proof/Proofs/AtFrameWatch.lean ====
section
/-! The AT_FRAME watch at a boundary (R127, R128): what a watched cue becomes whose start frame is reached, by induction over
the watch, and what the test of the due list that follows leaves of it. -/

namespace Sys2Proof.Machine

/-! ### A watched cue (R127) -/

theorem becomeDue_watch (n : SlotNo) (start : Frame) (s : State) : (becomeDue n start s).disp.watch = s.disp.watch := by
  unfold becomeDue
  split
  · dsimp only
    rw [cueTurns_disp]
  · rfl

theorem cueOf_becomeDue {n : SlotNo} {s : State} {c : Cue} (held : cueOf s n = some c) (start : Frame) (m : SlotNo) :
    cueOf (becomeDue n start s) m = if n = m then some (dueCue c s.tb.frame start) else cueOf s m := by
  simp only [becomeDue, held]
  exact cueOf_cueTurns ..

theorem watchDue_of_reached {s : State} {n : SlotNo} {c : Cue} (held : cueOf s n = some c)
    (reached : later c.startFrame s.tb.frame = false) :
    watchDue s n = becomeDue n c.startFrame { s with disp := { s.disp with watch := s.disp.watch.erase n } } := by
  simp only [watchDue, held, atOrBefore, reached, Bool.not_false, if_true]

theorem watchDue_of_waiting {s : State} {n : SlotNo} (waits : ∀ c, cueOf s n = some c → later c.startFrame s.tb.frame = true) :
    watchDue s n = s := by
  unfold watchDue
  split
  · rename_i c held
    simp [atOrBefore, waits c held]
  · rfl

/-- A watched cue leaves the others as they are. -/
theorem watchDue_other {n m : SlotNo} (other : m ≠ n) (s : State) :
    cueOf (watchDue s m) n = cueOf s n ∧ (watchDue s m).disp.watch.count n = s.disp.watch.count n := by
  by_cases waits : ∀ c, cueOf s m = some c → later c.startFrame s.tb.frame = true
  · rw [watchDue_of_waiting waits]
    exact ⟨rfl, rfl⟩
  · push Not at waits
    obtain ⟨c, held, reached⟩ := waits
    rw [watchDue_of_reached held (by simpa using reached), cueOf_becomeDue (by exact held), if_neg other, becomeDue_watch]
    exact ⟨rfl, List.count_erase_of_ne (Ne.symm other)⟩

/-! ### The watch, cue by cue -/

section
variable {n : SlotNo} {s : State} {c : Cue} (held : cueOf s n = some c)
include held

/-- A cue whose start frame is reached leaves the watch at each of its places in the list, and is DUE after the first. -/
theorem foldl_watchDue_reached (l : List SlotNo) (reached : later c.startFrame s.tb.frame = false) :
    cueOf (l.foldl watchDue s) n = some (if n ∈ l then dueCue c s.tb.frame c.startFrame else c) ∧
    (l.foldl watchDue s).disp.watch.count n = s.disp.watch.count n - l.count n := by
  induction l generalizing s c with
  | nil => simpa using held
  | cons m rest ih =>
    have frame : (watchDue s m).tb = s.tb := (watchDue_local s m).tb
    rw [List.foldl_cons]
    by_cases own : m = n
    · subst own
      have turned : cueOf (watchDue s m) m = some (dueCue c s.tb.frame c.startFrame) := by
        rw [watchDue_of_reached held reached, cueOf_becomeDue (by exact held), if_pos rfl]
      have left : (watchDue s m).disp.watch.count m = s.disp.watch.count m - 1 := by
        rw [watchDue_of_reached held reached, becomeDue_watch]
        exact List.count_erase_self
      obtain ⟨cue, count⟩ := ih turned (by rw [frame]; exact reached)
      refine ⟨cue.trans ?_, by rw [count, left, List.count_cons_self, Nat.sub_sub, Nat.add_comm]⟩
      rw [if_pos List.mem_cons_self, frame]
      split <;> rfl
    · obtain ⟨same, stays⟩ := watchDue_other own s
      obtain ⟨cue, count⟩ := ih (same.trans held) (by rw [frame]; exact reached)
      refine ⟨cue.trans ?_, by rw [count, stays, List.count_cons_of_ne own]⟩
      simp only [frame, List.mem_cons, Ne.symm own, false_or]

/-- A cue whose start frame is not reached stays in the watch. -/
theorem foldl_watchDue_waiting (l : List SlotNo) (waits : later c.startFrame s.tb.frame = true) :
    (l.foldl watchDue s).disp.watch.count n = s.disp.watch.count n := by
  induction l generalizing s with
  | nil => rfl
  | cons m rest ih =>
    have frame : (watchDue s m).tb = s.tb := (watchDue_local s m).tb
    rw [List.foldl_cons]
    by_cases own : m = n
    · rw [own, watchDue_of_waiting fun d same => by rwa [← Option.some.inj (held.symm.trans same)]]
      exact ih held waits
    · obtain ⟨same, stays⟩ := watchDue_other own s
      rw [ih (same.trans held) (by rw [frame]; exact waits), stays]

end

/-- With no start frame reached nothing happens. -/
theorem foldl_watchDue_still (l : List SlotNo) {s : State}
    (waits : ∀ i ∈ l, ∀ c, cueOf s i = some c → later c.startFrame s.tb.frame = true) : l.foldl watchDue s = s := by
  induction l with
  | nil => rfl
  | cons m rest ih =>
    obtain ⟨first, others⟩ := List.forall_mem_cons.mp waits
    rw [List.foldl_cons, watchDue_of_waiting first, ih others]

/-! ### The test that follows (R128) -/

/-- What may become of a test of the due list. -/
theorem dueTest_cases (s : State) : dueTest s = (s, false) ∨
    ∃ n rest c k, s.disp.due = n :: rest ∧ cueOf s n = some c ∧ dueTest s = (acceptCue n c k s, true) := by
  unfold dueTest
  split
  · exact .inl rfl
  · rename_i n rest due
    split
    · rename_i c k cue free
      split
      · exact .inr ⟨n, rest, c, k, due, cue, rfl⟩
      · exact .inl rfl
    · exact .inl rfl

theorem dueTest_watch (s : State) : (dueTest s).1.disp.watch = s.disp.watch := by
  rcases dueTest_cases s with stays | ⟨n, rest, c, k, due, cue, accepts⟩
  · rw [stays]
  · obtain ⟨cues, ctx, gave⟩ := gaveWay_disp s rest
    obtain ⟨_, fed⟩ := feedTest_eq (pushed n c k (gaveWay s rest))
    rw [accepts, acceptCue_eq due, fed]
    show (pushed n c k (gaveWay s rest)).disp.watch = _
    rw [pushed, cueTurns_disp, withStack, storeCtx, gave]

/-- Only a RUNNING cue is suspended (R130). -/
theorem cueOf_preemptTop {s : State} {n : SlotNo} {d : Cue} (held : cueOf s n = some d) (still : d.state ≠ .running) :
    cueOf (preemptTop s) n = some d := by
  unfold preemptTop suspendCue
  repeat' split
  · rw [cueOf, (withdrawLive_takes s).2.2]
    exact held
  · rename_i x _ _ c under running
    have apart : x.slot ≠ n := by
      intro own
      rw [own, held, Option.some.injEq] at under
      exact still (under ▸ running)
    rw [cueOf_cueTurns, if_neg apart, cueOf, storeCtx, removeWaiting_disp]
    exact held
  all_goals exact held

/-- A due cue stays due at the test of the due list, or is accepted by it (R128, R130). -/
theorem cueOf_dueTest_of_due {s : State} {n : SlotNo} {d : Cue} (held : cueOf s n = some d) (due : d.state = .due) :
    ∃ st, (st = .due ∨ st = .running) ∧ cueOf (dueTest s).1 n = some { d with state := st } := by
  have same : { d with state := .due } = d := by rw [← due]
  rcases dueTest_cases s with stays | ⟨m, rest, c, k, listed, cue, accepts⟩
  · exact ⟨.due, .inl rfl, by rw [stays, held, same]⟩
  · rw [accepts]
    by_cases own : n = m
    · subst own
      obtain rfl : d = c := Option.some.inj (held.symm.trans cue)
      exact ⟨.running, .inr rfl, (acceptCue_accepted listed d k).running⟩
    · obtain ⟨_, _, _, others, _⟩ := acceptCue_leaves listed c k
      have gave : cueOf (gaveWay s rest) n = some d :=
        cueOf_preemptTop (s := { s with disp := { s.disp with due := rest } }) held (by simp [due])
      exact ⟨.due, .inl rfl, by rw [others n own, gave, same]⟩

/-! ### The boundary -/

/-- a with a watch and outstanding work of its own. -/
def watching (work : Work) (watch : List SlotNo) (a : State) : State :=
  { a with work := work, disp := { a.disp with watch := watch } }

section
variable {work : Work} {watch : List SlotNo} {a t : State} {n : SlotNo}

/-- An acceptance reads neither the watch nor the outstanding work. -/
theorem Accepted.of_watching {rest : List SlotNo} {d : Cue} {k : CtxNo} (h : Accepted (watching work watch a) t n rest d k) :
    Accepted a t n rest d k :=
  ⟨h.due, h.stack, h.running, h.record, h.context⟩

theorem DueTested.of_watching {rest : List SlotNo} {d : Cue} (h : DueTested (watching work watch a) t n rest d) :
    DueTested a t n rest d where
  stays := h.stays
  overNothing k free lower empty above := (h.overNothing k free lower empty above).imp_left (·.of_watching)
  overLive k free lower top above := (h.overLive k free lower top above).imp_left (·.of_watching)
  overCue k j x below free lower top ctx under running above :=
    (h.overCue k j x below free lower top ctx under running above).imp_left (·.of_watching)

/-- What becomes of a cue that is due reads neither the watch nor the outstanding work. -/
theorem BecomesDue.of_watching {c : Cue} {start : Frame} (h : BecomesDue (watching work watch a) t n c start) :
    BecomesDue a t n c start :=
  ⟨h.marked, h.record, h.tested.of_watching, h.records⟩

end

/-- A watched cue that alone becomes DUE, with no other cue due (R127, R128). -/
theorem watchBoundary_becomesDue {s : State} {front back : List SlotNo} {n : SlotNo} {c : Cue}
    (watch : s.disp.watch = front ++ n :: back) (due : s.disp.due = []) (held : cueOf s n = some c)
    (reached : later c.startFrame s.tb.frame = false)
    (others : ∀ i, i ∈ front ∨ i ∈ back → i ≠ n ∧ ∀ x, cueOf s i = some x → later x.startFrame s.tb.frame = true) :
    BecomesDue s (watchBoundary s) n c c.startFrame := by
  let w := watching s.work (s.disp.watch.erase n) s
  have ahead : front.foldl watchDue s = s := foldl_watchDue_still front fun i listed => (others i (.inl listed)).2
  have behind : back.foldl watchDue (becomeDue n c.startFrame w) = becomeDue n c.startFrame w := by
    refine foldl_watchDue_still back fun i listed x cue => ?_
    obtain ⟨other, waits⟩ := others i (.inr listed)
    rw [cueOf_becomeDue (by exact held), if_neg (Ne.symm other)] at cue
    rw [(becomeDue_local ..).tb]
    exact waits x cue
  have turned : s.disp.watch.foldl watchDue s = becomeDue n c.startFrame w := by
    rw [watch, List.foldl_append, ahead, List.foldl_cons, watchDue_of_reached held reached]
    exact behind
  rw [watchBoundary, turned]
  exact (dueTest_becomeDue (s := w) held due c.startFrame).of_watching

/-- AT_FRAME_DUE takes the watch where it is marked (R127). -/
theorem exec_atFrameDue {m : Moment} {s a : State} (finds : FindsPiece m s a) (marked : a.work.atFrame = true) :
    exec (.atFrameDue m) s = .next (watchBoundary { a with work := { a.work with atFrame := false } }) := by
  refine (congrArg Host.Outcome.next (piece_of_finds finds atFrameWork)).trans ?_
  rw [atFrameWork, if_pos marked]

/-- Settles O40: the watch is taken cue by cue, and the test of the due list leaves the watch, and of a due cue all but its
state. -/
theorem atFrameCuesBecomeDue : Obligations.AtFrameCuesBecomeDue := by
  intro m s a finds marked
  let b : State := { a with work := { a.work with atFrame := false } }
  have watch : (watchBoundary b).disp.watch = (b.disp.watch.foldl watchDue b).disp.watch := dueTest_watch _
  refine ⟨watchBoundary b, exec_atFrameDue finds marked, (watchBoundary_local b).toDisplayFrame,
    fun n c listed held reached => ⟨?_, ?_⟩, fun n c listed held waits => ?_,
    fun front n back c split due held reached others => ?_⟩
  · obtain ⟨_, count⟩ := foldl_watchDue_reached (s := b) held b.disp.watch reached
    rw [watch, ← List.count_eq_zero, count, Nat.sub_self]
  · obtain ⟨cue, _⟩ := foldl_watchDue_reached (s := b) held b.disp.watch reached
    rw [if_pos listed] at cue
    exact cueOf_dueTest_of_due cue rfl
  · rw [watch, ← List.count_pos_iff, foldl_watchDue_waiting (s := b) held b.disp.watch waits]
    exact List.count_pos_iff.mpr listed
  · have alone := watchBoundary_becomesDue (s := b) split due held reached fun i listed =>
      ⟨(others i c listed).1, fun x cue => (others i x listed).2 cue⟩
    exact BecomesDue.of_watching (work := b.work) (watch := b.disp.watch) alone

end Sys2Proof.Machine
end

