-- ==== Sys2Proof/Proofs/FetchedRows.lean ====
section
/-! The row that a row-area entry gives (R134, R183, R185), as the relation RowTaken has it, and its offer to the schedule
(R102, R105, R109). -/

namespace Sys2Proof.Machine

/-! ### The text of an entry (R134, R183) -/

/-- The bytes of a read come back as they are. -/
theorem toNat_byteAt (block : List Byte) (off : Nat) : (BitVec.ofNat 8 (byteAt block off)).toNat = byteAt block off := by
  rw [BitVec.toNat_ofNat, Nat.mod_eq_of_lt (byteAt_lt block off)]

theorem entryText_getElem? {entry : List Byte} {width i : Nat} (h : i < min (byteAt entry 0x00) width) :
    (entryText entry width)[i]? = some (spaceIfLow (BitVec.ofNat 8 (byteAt entry (0x10 + i)))) := by
  rw [entryText, entryRawText, List.getElem?_map, List.getElem?_map, List.getElem?_range (by exact h)]
  rfl

theorem entryText_length (entry : List Byte) (width : Nat) :
    (entryText entry width).length = min (byteAt entry 0x00) width := by
  rw [entryText, entryRawText, List.length_map, List.length_map, List.length_range, entryLength]

/-- A text is clamped where it is truncated, or where one of its bytes is taken as a space (R134). -/
theorem entryTextClamped_iff (entry : List Byte) (width : Nat) : entryTextClamped entry width = true ↔
    width < byteAt entry 0x00 ∨ ∃ i, i < min (byteAt entry 0x00) width ∧ byteAt entry (0x10 + i) < 0x20 := by
  simp only [entryTextClamped, entryRawText, Bool.or_eq_true, decide_eq_true_eq, List.any_eq_true, List.mem_map,
    List.mem_range]
  refine or_congr_right ⟨?_, fun ⟨i, within, low⟩ => ⟨_, ⟨i, within, rfl⟩, by rwa [toNat_byteAt]⟩⟩
  rintro ⟨_, ⟨i, within, rfl⟩, low⟩
  exact ⟨i, within, by rwa [toNat_byteAt] at low⟩

/-! ### The hold override of an entry (R183, R185) -/

theorem entryHold_of_absent {entry : List Byte} (h : byteAt entry 0x01 = 0) : entryHold entry = none := by
  rw [entryHold, if_pos h]

theorem entryHold_of_present {entry : List Byte} (h : byteAt entry 0x01 ≠ 0) :
    entryHold entry = some (min 4095 (le16 entry 0x04)) := by
  rw [entryHold, if_neg h, clampTo_zero]

theorem entryHoldOver_iff (entry : List Byte) : entryHoldOver entry = true ↔ byteAt entry 0x01 ≠ 0 ∧ 4095 < le16 entry 0x04 := by
  simp [entryHoldOver]

/-! ### The row (R134) -/

/-- The row of a fetch is the one that R134 describes. -/
theorem fetchedRow_taken (x : Context) (c : Cue) (entry : List Byte) (s : State) :
    RowTaken entry s.settings.rowWidth x c s.nextRowId (fetchedRow x c entry s) where
  id := rfl
  length := entryText_length ..
  text i within := by
    rw [show (fetchedRow x c entry s).text = entryText entry s.settings.rowWidth from rfl, entryText_getElem? within]
    refine ⟨fun low => ?_, fun high => ?_⟩
    · rw [spaceIfLow, toNat_byteAt, if_pos low]
    · rw [spaceIfLow, toNat_byteAt, if_neg (Nat.not_lt.mpr high), Option.map_some, toNat_byteAt]
  source := by
    refine ⟨_, _, rfl, entryHold_of_absent, entryHold_of_present, ?_⟩
    simp only [Bool.or_eq_true, decide_eq_true_eq, entryTextClamped_iff, entryHoldOver_iff, or_assoc]
    rfl

/-! ### A cue row in the schedule (R105, R109, R110) -/

section
variable {r : Row} {n : SlotNo} {pos : Nat} {start : Frame} {offset : Nat} {hold : Option Nat} {fresh clamped : Bool}
  (cue : r.source = .cue n pos start offset hold fresh clamped)

include cue

/-- The hold of a cue row is its override, or is computed (R105). -/
theorem rowHold_cue (catchup : Bool) (s : State) :
    (∀ h, hold = some h → rowHold r catchup s = max 1 h) ∧
    (hold = none → rowHold r catchup s =
      max 1 (s.settings.holdBase + (r.text.length * s.settings.holdChar + 15) / 16)) := by
  constructor
  · rintro h rfl
    simp [rowHold, cue]
  · rintro rfl
    simp [rowHold, cue, computedHold, ceilDiv]

theorem isLiveRow_cue : isLiveRow r = false := by simp only [isLiveRow, cue]

theorem catchupWith_cue (lag : Nat) (s : State) : catchupWith r lag s = s.air.catchup := by
  simp [catchupWith, isLiveRow_cue cue]

/-- What the entry of a cue row carries besides its place: no latency, no catch-up, and its clamped mark and hold. -/
theorem entryOf_cue (s : State) :
    let e := entryOf r (placeRow r s) s
    e.latency = none ∧ e.flags.catchup = false ∧ e.flags.clamped = (clamped || hold == some 0) ∧
    (∀ h, hold = some h → e.hold = max 1 h) ∧
    (hold = none → e.hold = max 1 (s.settings.holdBase + (r.text.length * s.settings.holdChar + 15) / 16)) := by
  obtain ⟨override, computed⟩ := rowHold_cue cue (catchupWith r (placeRow r s).lag s) s
  refine ⟨?_, ?_, ?_, override, computed⟩
  · simp [entryOf, placeRow, idealFrame, cue]
  · simp [entryOf, isLiveRow_cue cue]
  · simp [entryOf, rowClamped, cue]

theorem countDropped_cue (s : State) : countDropped r s = s := by simp only [countDropped, cue]

end

end Sys2Proof.Machine
end

