-- ==== Sys2Proof/Proofs/LostRows.lean ====
section
/-! A fetched row that is lost (R100, R108, R134): its record, its count in the cue, and the cue that ends with it (R131,
R135). -/

namespace Sys2Proof.Machine

/-! ### What the cue that has ended leaves to the display (R131) -/

/-- Of the 64 slots at least one is held by neither context. -/
theorem exists_unheld_slot (s : State) : ∃ n : SlotNo, ∀ j y, ctxOf s j = some y → y.slot ≠ n := by
  by_contra all
  push Not at all
  have onto : Function.Surjective fun j : CtxNo => ((ctxOf s j).map Context.slot).getD 0 := by
    intro n
    obtain ⟨j, y, held, own⟩ := all n
    exact ⟨j, by simp [held, own]⟩
  have few := Fintype.card_le_of_surjective _ onto
  simp at few

/-- What takes up the display resumes a suspended cue alone. -/
theorem cueOf_takeUpDisplay {s : State} {n : SlotNo} {c : Cue} (held : cueOf s n = some c) (ended : c.state ≠ .suspended) :
    cueOf (takeUpDisplay s) n = some c := by
  unfold takeUpDisplay
  split
  · rw [cueOf, feedAttempt_disp]
    exact held
  · split
    · rename_i y _
      split
      · rename_i below under
        split
        · rename_i suspended
          have apart : y.slot ≠ n := by
            intro own
            rw [own, held, Option.some.injEq] at under
            exact ended (under ▸ suspended)
          rw [cueOf_feedTest, cueOf_cueTurns, if_neg apart, held]
        · rw [cueOf_feedTest, held]
      · exact held
    · exact held
  · exact held

section
variable {p : State} {k : CtxNo} {x : Context} (ctx : ctxOf p k = some x) (fetch : x.fetch = .none)
  (due : p.disp.due = []) (settled : p.disp.place ≠ .waiting)

include ctx fetch due settled

/-- A slot that no context holds meets what Leaves asks of the slot; what leaveStack makes of the display does not turn on it. -/
theorem leaves_unheld : ∃ n, Leaves p k n := by
  obtain ⟨n, unheld⟩ := exists_unheld_slot p
  exact ⟨n, ⟨x, ctx, fetch⟩, fun j y held own => absurd own (unheld j y held), due, settled⟩

/-- A cue that is not suspended stands while its context leaves the stack. -/
theorem cueOf_leaveStack {n : SlotNo} {c : Cue} (held : cueOf p n = some c) (ended : c.state ≠ .suspended) :
    cueOf (leaveStack k p) n = some c := by
  obtain ⟨level, pending, e⟩ := offStack_eq ctx fetch
  have left : cueOf (offStack k p) n = some c := by
    rw [e]
    exact held
  rw [leaveStack_quiet ctx fetch due settled]
  split
  · exact cueOf_takeUpDisplay left ended
  · exact left

end

/-! ### The cue is done (R135) -/

/-- What CueDone says of the state that the cue leaves turns on the stack, the queue, the schedule, the settings, and the other
contexts and cues alone. -/
theorem CueDone.of_reads {s u t : State} {k : CtxNo} {n : SlotNo} {c : Cue} (h : CueDone u t k n c)
    (stack : u.disp.stack = s.disp.stack) (queue : u.queue = s.queue) (air : u.air = s.air) (settings : u.settings = s.settings)
    (contexts : ∀ j, j ≠ k → ctxOf u j = ctxOf s j) (cues : ∀ m, m ≠ n → cueOf u m = cueOf s m) : CueDone s t k n c := by
  obtain ⟨done, flag, record, left, context, live, below⟩ := h
  rw [stack] at left live below
  rw [queue, air, settings] at live
  rw [air] at below
  refine ⟨done, flag, record, left, context, live, fun front j y resumed under fresh apart held distinct cue => ?_⟩
  exact below front j y resumed under fresh apart ((contexts j apart).trans held) distinct ((cues _ distinct).trans cue)

/-- The cue c of slot n, whose row was its last, turns DONE and leaves the stack; then the feed test of the display follows. -/
theorem cueDone_of_turned {u : State} {n : SlotNo} {k : CtxNo} {x : Context} (running : isRunning u = true)
    (ctx : ctxOf u k = some x) (fetch : x.fetch = .none) (due : u.disp.due = []) (settled : u.disp.place ≠ .waiting)
    (c : Cue) : CueDone u (feedTest (leaveStack k (cueTurns n c.state { c with state := .done } u))) k n c := by
  let p := cueTurns n c.state { c with state := .done } u
  have disp : p.disp = { u.disp with cues := put u.disp.cues n (some { c with state := .done }) } := cueTurns_disp ..
  have contexts (j : CtxNo) : ctxOf p j = ctxOf u j := by rw [ctxOf, disp, ctxOf]
  have air : p.air = u.air := cueTurns_air ..
  have ctx' : ctxOf p k = some x := (contexts k).trans ctx
  have due' : p.disp.due = [] := by rwa [disp]
  have settled' : p.disp.place ≠ .waiting := by rwa [disp]
  have stack' : p.disp.stack = u.disp.stack := by rw [disp]
  obtain ⟨other, leaves⟩ := leaves_unheld ctx' fetch due' settled'
  obtain ⟨stack, _, free⟩ := leaveStack_leaves leaves
  have tested := feedTest_local (leaveStack k p)
  have records : RecordsKept p (feedTest (leaveStack k p)) := (leaveStack_local k p).records.trans tested.records
  have done : cueOf p n = some { c with state := .done } := by rw [cueOf_cueTurns, if_pos rfl]
  refine ⟨?_, records.flags _ (cueTurns_terminal rfl ..), (cueTurns_recorded ..).mono records, ?_,
    fun _ => (feedTest_stackHeld other k _).context free, fun q bottom waits room drops => ?_,
    fun front j y resumed under fresh apart below distinct cue suspended => ?_⟩
  · rw [cueOf_feedTest]
    exact cueOf_leaveStack ctx' fetch due' settled' done (by simp)
  · rw [feedTest_stack, stack, stack']
  · have running' : isRunning p = true := by rwa [isRunning, (cueTurns_local n c.state { c with state := .done } u).control]
    obtain ⟨empty, e, entries, own⟩ := leaveStack_toLive leaves running' (stack'.trans bottom)
      ((cueTurns_queue n c.state { c with state := .done } u).trans waits) (by rwa [air])
      (by rwa [(cueTurns_calm n c.state { c with state := .done } u).settings])
    exact ⟨(feedTest_queue _).trans empty, e, by rw [feedTest_air, entries, air], own⟩
  · have cue' : cueOf p y.slot = some resumed := by rwa [cueOf_cueTurns, if_neg (Ne.symm distinct)]
    obtain ⟨_, sameAir, resumes, record⟩ :=
      leaveStack_toCue leaves (stack'.trans under) fresh apart ((contexts j).trans below) cue' suspended
    exact ⟨by rw [feedTest_air, sameAir, air], by rw [cueOf_feedTest, resumes], record.mono tested.records⟩

/-! ### The row is lost (R100, R134) -/

theorem completeCtx_marksKept (k : CtxNo) (n : SlotNo) (s : State) : MarksKept s (completeCtx k n s) := by
  unfold completeCtx
  split
  · split
    · exact (cueTurns_marksKept ..).trans (leaveStack_marksKept ..)
    · exact .refl s
  · exact .refl s

theorem completeCtx_of {k : CtxNo} {n : SlotNo} {s : State} {x : Context} {c : Cue} (ctx : ctxOf s k = some x)
    (cue : cueOf s n = some c) : completeCtx k n s =
      if x.next = c.rowCount ∧ x.fetch = .none ∧ ∀ e ∈ s.air.entries, isCueEntry n e = false then
        leaveStack k (cueTurns n c.state { c with state := .done } s)
      else s := by
  simp only [completeCtx, ctx, cue, cueComplete_iff, endCue]

/-- The record r of a row of slot n's cue that is lost has been made, and the cue, which stands as c, counts the row. -/
def lossCounted (n : SlotNo) (c : Cue) (r : Record) (s : State) : State :=
  updateCue n { c with dropped := c.dropped + 1 } (journal r s)

section
variable (n : SlotNo) (c : Cue) (r : Record) (s : State)

theorem lossCounted_local : Local s (lossCounted n c r s) := (journal_local ..).trans (updateCue_local ..)

@[simp] theorem lossCounted_air : (lossCounted n c r s).air = s.air := journal_air r s

@[simp] theorem lossCounted_queue : (lossCounted n c r s).queue = s.queue := journal_queue r s

@[simp] theorem lossCounted_settings : (lossCounted n c r s).settings = s.settings := (journal_calm r s).settings

@[simp] theorem lossCounted_disp : (lossCounted n c r s).disp =
    { s.disp with cues := put s.disp.cues n (some { c with dropped := c.dropped + 1 }) } := by
  rw [← journal_disp r s]
  rfl

theorem ctxOf_lossCounted (k : CtxNo) : ctxOf (lossCounted n c r s) k = ctxOf s k := by
  rw [ctxOf, lossCounted_disp, ctxOf]

theorem cueOf_lossCounted (m : SlotNo) : cueOf (lossCounted n c r s) m =
    if n = m then some { c with dropped := c.dropped + 1 } else cueOf s m := by
  rw [cueOf, lossCounted_disp]
  exact get_put ..

theorem lossCounted_marked : get (lossCounted n c r s).pe.marks n = true := get_put_same ..

end

/-- A row of slot n's cue is lost: recorded, counted in the cue, and the cue is tested for its completion (R134, R135). -/
def rowLost (k : CtxNo) (n : SlotNo) (r : Record) (s : State) : State :=
  completeCtx k n (cueRowsDropped n 1 (journal r s))

theorem cueRowsDropped_rowsKept (n : SlotNo) (m : Nat) (s : State) : RowsKept s (cueRowsDropped n m s) := by
  unfold cueRowsDropped
  split
  · split
    · exact .refl s
    · exact updateCue_rowsKept ..
  · exact .refl s

theorem rowLost_rowsKept (k : CtxNo) (n : SlotNo) (r : Record) (s : State) : RowsKept s (rowLost k n r s) :=
  ((journal_rowsKept ..).trans (cueRowsDropped_rowsKept ..)).trans (completeCtx_rowsKept ..)

section
variable {k : CtxNo} {n : SlotNo} {s : State} {c : Cue} (cue : cueOf s n = some c)

include cue

theorem rowLost_eq (k : CtxNo) (r : Record) : rowLost k n r s = completeCtx k n (lossCounted n c r s) := by
  have held : cueOf (journal r s) n = some c := by rwa [cueOf, journal_disp]
  have counts : cueRowsDropped n 1 (journal r s) = lossCounted n c r s := by
    simp only [cueRowsDropped, held, Nat.one_ne_zero, if_false]
    rfl
  rw [rowLost, counts]

theorem rowLost_of {x : Context} (ctx : ctxOf s k = some x) (r : Record) : rowLost k n r s =
    if x.next = c.rowCount ∧ x.fetch = .none ∧ ∀ e ∈ s.air.entries, isCueEntry n e = false then
      leaveStack k (cueTurns n c.state { c with dropped := c.dropped + 1, state := .done } (lossCounted n c r s))
    else lossCounted n c r s := by
  rw [rowLost_eq cue, completeCtx_of ((ctxOf_lossCounted ..).trans ctx) ((cueOf_lossCounted ..).trans (if_pos rfl)),
    lossCounted_air]

theorem rowLost_marked (k : CtxNo) (r : Record) : get (rowLost k n r s).pe.marks n = true := by
  rw [rowLost_eq cue]
  exact (completeCtx_marksKept ..).marks n (lossCounted_marked ..)

end

/-- The record of the lost row is the first made, whatever is made after it. -/
theorem feedTest_rowLost_journaled (k : CtxNo) (n : SlotNo) (r : Record) (s : State) :
    Journaled s (feedTest (rowLost k n r s)) s.tb.frame r :=
  journaled_of_kept (((cueRowsDropped_local ..).trans (completeCtx_local ..)).trans (feedTest_local _)).records

/-- A feed test leaves of a context its slot, its place and its offsets. -/
theorem feedTest_ctx {s : State} {k : CtxNo} {x : Context} (ctx : ctxOf s k = some x) :
    ∃ y, ctxOf (feedTest s) k = some y ∧ y.slot = x.slot ∧ y.next = x.next ∧ y.offsets = x.offsets := by
  have stands : ∃ y, ctxOf s k = some y ∧ y.slot = x.slot ∧ y.next = x.next ∧ y.offsets = x.offsets := ⟨x, ctx, rfl, rfl, rfl⟩
  unfold feedTest
  split
  · rename_i j _
    split
    · rename_i z other
      split
      · split
        · rw [ctxOf_storeCtx]
          split
          · rename_i own
            rw [own, ctx, Option.some.injEq] at other
            exact ⟨_, rfl, by rw [other], by rw [other], by rw [other]⟩
          · exact stands
        · exact stands
      · exact stands
    · exact stands
  · exact stands

end Sys2Proof.Machine
end

