-- ==== Sys2Proof/Proofs/FetchCompletions.lean ====
section
/-! The completion of a fetch (R133, R134): the row that is taken for the top context, with its entry or its loss, and the row
that is discarded. -/

namespace Sys2Proof.Machine

/-! ### The row that is taken (R100, R134) -/

/-- The context of a fetch that has given its row: the next row and one offset more (R132, R134). -/
def movedOn (x : Context) (entry : List Byte) : Context :=
  { x with
    next := x.next + 1, offsets := x.offsets ++ [max (x.offsets.getLast?.getD 0) (le16 entry 0x02)], fetch := .none }

/-- The state in which the row of a fetch of context k is taken: a row id is used, and the context has moved on. -/
def fetchTaken (k : CtxNo) (x : Context) (entry : List Byte) (s : State) : State :=
  storeCtx k (some (movedOn x entry)) { s with nextRowId := s.nextRowId + 1 }

/-- Context k stands as x, with the row of the fetch behind it (R132, R134). -/
def StandsBehind (t : State) (k : CtxNo) (x : Context) (entry : List Byte) : Prop :=
  ∃ y, ctxOf t k = some y ∧ y.slot = x.slot ∧ y.next = x.next + 1 ∧
    y.offsets = x.offsets ++ [max (x.offsets.getLast?.getD 0) (le16 entry 0x02)]

theorem feedTest_standsBehind {s : State} {k : CtxNo} {x : Context} {entry : List Byte}
    (ctx : ctxOf s k = some (movedOn x entry)) : StandsBehind (feedTest s) k x entry := feedTest_ctx ctx

theorem takeFetch_of_room {s : State} (room : s.air.entries.length < 24) (k : CtxNo) (x : Context) (c : Cue)
    (entry : List Byte) : takeFetch k x c entry s =
      takeRow k x.slot (fetchedRow x c entry s) entry (fetchTaken k x entry s) := by
  have free : s.air.entries.length < Config.scheduleEntries := room
  rw [takeFetch, if_pos free]
  rfl

theorem takeFetch_of_full {s : State} (full : 24 ≤ s.air.entries.length) (k : CtxNo) (x : Context) (c : Cue)
    (entry : List Byte) : takeFetch k x c entry s = storeCtx k (some { x with fetch := .none }) s := by
  have closed : ¬s.air.entries.length < Config.scheduleEntries := Nat.not_lt.mpr full
  rw [takeFetch, if_neg closed]

section
variable (k : CtxNo) (n : SlotNo) (r : Row) {entry : List Byte}

/-- A row of length 0 is skipped (R134). -/
theorem takeRow_skipped (empty : byteAt entry 0x00 = 0) (s : State) :
    takeRow k n r entry s = rowLost k n (.rowDropped r .skipped none none 0) s := if_pos empty

/-- A stale cue row is lost (R108, R134). -/
theorem takeRow_stale {s : State} (given : byteAt entry 0x00 ≠ 0) (stale : isStale (placeRow r s).lag s = true)
    (cue : countDropped r s = s) : takeRow k n r entry s =
      rowLost k n (.rowDropped r .stale (some (placeRow r s).ideal) (some (placeRow r s).showAt) (placeRow r s).lag) s := by
  have length : entryLength entry ≠ 0 := given
  have dropped : (offerRow r s).2 = true := by simp [offerRow, stale]
  rw [takeRow, if_neg length]
  dsimp only
  rw [dropped, if_pos rfl, offerRow_drops stale, cue, rowLost]

/-- A row in time enters (R109, R134). -/
theorem takeRow_enters {s : State} (given : byteAt entry 0x00 ≠ 0) (inTime : isStale (placeRow r s).lag s = false) :
    takeRow k n r entry s = enterRow r (placeRow r s) s := by
  have length : entryLength entry ≠ 0 := given
  have kept : (offerRow r s).2 = false := by simp [offerRow, inTime]
  rw [takeRow, if_neg length]
  dsimp only
  rw [kept, if_neg Bool.false_ne_true, offerRow_enters inTime]

theorem takeRow_rowsKept (s : State) : RowsKept s (takeRow k n r entry s) := by
  unfold takeRow
  dsimp only
  split
  · exact rowLost_rowsKept ..
  · split
    · exact ((offerRow_rowsKept ..).trans (cueRowsDropped_rowsKept ..)).trans (completeCtx_rowsKept ..)
    · exact offerRow_rowsKept ..

end

section
variable {k : CtxNo} {x : Context} {c : Cue} {a : State} (cue : cueOf a x.slot = some c) (entry : List Byte)

include cue

/-- The row of the fetch is lost: its record, its count in the cue, and the end of the cue where it was the last (R134, R135). -/
theorem feedTest_rowLost_counts (running : isRunning a = true) (r : Record) :
    let t := feedTest (rowLost k x.slot r (fetchTaken k x entry a))
    let counted : Cue := { c with dropped := c.dropped + 1 }
    let last := x.next + 1 = c.rowCount ∧ ∀ e ∈ a.air.entries, isCueEntry x.slot e = false
    Journaled a t a.tb.frame r ∧ get t.pe.marks x.slot = true ∧
    (¬last → t.air = a.air ∧ cueOf t x.slot = some counted) ∧
    (last → a.disp.due = [] → a.disp.place ≠ .waiting → CueDone a t k x.slot counted) := by
  intro t counted last
  let u := fetchTaken k x entry a
  have ctx : ctxOf u k = some (movedOn x entry) := get_put_same ..
  have held : cueOf u x.slot = some c := cue
  have lost := rowLost_of held ctx r
  refine ⟨(feedTest_rowLost_journaled k x.slot r u).of_buffer rfl, ?_, fun more => ?_, fun ends due settled => ?_⟩
  · exact (feedTest_marksKept _).marks _ (rowLost_marked held k r)
  · have goes : rowLost k x.slot r u = lossCounted x.slot c r u :=
      lost.trans (if_neg fun ⟨next, _, absent⟩ => more ⟨next, absent⟩)
    refine ⟨?_, ?_⟩
    · show (feedTest (rowLost k x.slot r u)).air = _
      rw [goes, feedTest_air, lossCounted_air]
      rfl
    · show cueOf (feedTest (rowLost k x.slot r u)) x.slot = _
      rw [goes, cueOf_feedTest, cueOf_lossCounted, if_pos rfl]
  · have leaves : rowLost k x.slot r u = leaveStack k (cueTurns x.slot counted.state { counted with state := .done }
        (lossCounted x.slot c r u)) := lost.trans (if_pos ⟨ends.1, rfl, ends.2⟩)
    let v := lossCounted x.slot c r u
    have running' : isRunning v = true := by
      rw [isRunning, (lossCounted_local x.slot c r u).control]
      exact running
    have disp : v.disp = _ := lossCounted_disp x.slot c r u
    have done := cueDone_of_turned running' ((ctxOf_lossCounted x.slot c r u k).trans ctx) rfl
      (by rw [disp]; exact due) (by rw [disp]; exact settled) counted (n := x.slot)
    rw [← leaves] at done
    refine done.of_reads ?_ (lossCounted_queue ..) (lossCounted_air ..) (lossCounted_settings ..) (fun j apart => ?_)
      fun m apart => ?_
    · rw [disp]
      rfl
    · rw [ctxOf_lossCounted]
      exact get_put_other _ _ (Ne.symm apart)
    · rw [cueOf_lossCounted, if_neg (Ne.symm apart)]
      rfl

/-- A row that is lost and not the cue's last leaves the context behind it (R132). -/
theorem feedTest_rowLost_standsBehind (more : x.next + 1 ≠ c.rowCount) (r : Record) :
    StandsBehind (feedTest (rowLost k x.slot r (fetchTaken k x entry a))) k x entry := by
  let u := fetchTaken k x entry a
  have ctx : ctxOf u k = some (movedOn x entry) := get_put_same ..
  have goes : rowLost k x.slot r u = lossCounted x.slot c r u :=
    (rowLost_of (s := u) cue ctx r).trans (if_neg fun ⟨next, _⟩ => more next)
  show StandsBehind (feedTest (rowLost k x.slot r u)) k x entry
  rw [goes]
  exact feedTest_standsBehind ((ctxOf_lossCounted ..).trans ctx)

end

/-- Of the state after it an entry tells the schedule alone. -/
theorem Entered.of_air {s t u : State} {r : Row} {ideal : Frame} {p : Place} {e : Entry} (h : Entered s t r ideal p e)
    (air : u.air = t.air) : Entered s u r ideal p e := by
  refine ⟨h.row, h.place, h.late, ?_⟩
  rw [air]
  exact h.schedule

/-- The row of the fetch enters the schedule, as its place and its source have it (R105, R107, R109). -/
theorem feedTest_enterRow_entered (k : CtxNo) (x : Context) (r : Row) (entry : List Byte) (a : State) :
    let t := feedTest (enterRow r (placeRow r a) (fetchTaken k x entry a))
    t.queue = a.queue ∧ StandsBehind t k x entry ∧ t.air.catchup = catchupWith r (placeRow r a).lag a ∧
    Entered a t r (idealFrame r a).2 (placeOf (placeRow r a)) (entryOf r (placeRow r a) a) := by
  intro t
  have air : t.air = (enterRow r (placeRow r a) a).air := feedTest_air _
  have ctx : ctxOf (enterRow r (placeRow r a) (fetchTaken k x entry a)) k = some (movedOn x entry) := get_put_same ..
  refine ⟨feedTest_queue _, feedTest_standsBehind ctx, ?_, (enterRow_entered r a a.queue).of_air air⟩
  rw [air]
  rfl

/-! ### What becomes of the row (R100, R108, R109, R134) -/

section
variable (k : CtxNo) (x : Context) (c : Cue) (entry : List Byte) (a : State)

/-- The row of the fetch is skipped, dropped as stale, or enters, by its length and its lag. -/
theorem takeRow_fetchedRow :
    let r := fetchedRow x c entry a
    let p := placeRow r a
    let u := fetchTaken k x entry a
    (byteAt entry 0x00 = 0 → takeRow k x.slot r entry u = rowLost k x.slot (.rowDropped r .skipped none none 0) u) ∧
    (byteAt entry 0x00 ≠ 0 → Stale a p.lag →
      takeRow k x.slot r entry u = rowLost k x.slot (.rowDropped r .stale (some p.ideal) (some p.showAt) p.lag) u) ∧
    (byteAt entry 0x00 ≠ 0 → InTime a p.lag → takeRow k x.slot r entry u = enterRow r p u) := by
  intro r p u
  have source : r.source = .cue x.slot x.next (c.start.getD 0) _ (entryHold entry) _ _ := rfl
  exact ⟨fun empty => takeRow_skipped k x.slot r empty u,
    fun given stale => takeRow_stale k x.slot r given (s := u) ((isStale_iff p.lag a).mpr stale) (countDropped_cue source u),
    fun given inTime => takeRow_enters k x.slot r given (s := u) ((not_stale_iff p.lag a).mpr inTime)⟩

variable {k x c a}

/-- Where more rows of the cue are left, the context stays, with the row behind it, whatever becomes of the row (R132). -/
theorem feedTest_takeRow_standsBehind (cue : cueOf a x.slot = some c) (more : x.next + 1 ≠ c.rowCount) :
    StandsBehind (feedTest (takeRow k x.slot (fetchedRow x c entry a) entry (fetchTaken k x entry a))) k x entry := by
  obtain ⟨skipped, stale, enters⟩ := takeRow_fetchedRow k x c entry a
  by_cases empty : byteAt entry 0x00 = 0
  · rw [skipped empty]
    exact feedTest_rowLost_standsBehind cue entry more _
  · cases late : isStale (placeRow (fetchedRow x c entry a) a).lag a with
    | true =>
      rw [stale empty ((isStale_iff ..).mp late)]
      exact feedTest_rowLost_standsBehind cue entry more _
    | false =>
      obtain ⟨_, stands, _⟩ := feedTest_enterRow_entered k x (fetchedRow x c entry a) entry a
      rw [enters empty ((not_stale_iff ..).mp late)]
      exact stands

end

/-! ### The row that is discarded (R131, R133) -/

theorem endVoidFetch_stacked {k : CtxNo} {s : State} (stacked : .ctx k ∈ s.disp.stack) (x : Context) :
    endVoidFetch k x s = storeCtx k (some { x with fetch := .none }) s := by
  rw [endVoidFetch, if_pos (List.contains_iff_mem.mpr stacked)]

theorem endVoidFetch_unstacked {k : CtxNo} {s : State} (left : .ctx k ∉ s.disp.stack) (x : Context) :
    endVoidFetch k x s = (dueTest (storeCtx k none s)).1 := by
  rw [endVoidFetch, if_neg (mt List.contains_iff_mem.mp left)]

theorem discardFetch_top {k : CtxNo} {s : State} (top : topOwner s = some (.ctx k)) (x : Context) :
    discardFetch k x s = feedTest (endVoidFetch k x s) := by
  rw [discardFetch, if_pos (by rw [top]; exact beq_self_eq_true _)]

theorem discardFetch_notTop {k : CtxNo} {s : State} (under : topOwner s ≠ some (.ctx k)) (x : Context) :
    discardFetch k x s = endVoidFetch k x s := by
  rw [discardFetch, if_neg (by simpa using under)]

/-- A context that has left the stack is not the top. -/
theorem topOwner_of_left {k : CtxNo} {s : State} (left : .ctx k ∉ s.disp.stack) : topOwner s ≠ some (.ctx k) :=
  fun top => left (List.mem_of_getLast? top)

/-- A void fetch of a context in the stack is discarded, and the feed test of the top follows (R132, R133). -/
theorem discardFetch_stacked {k : CtxNo} {s : State} {x : Context} (stacked : .ctx k ∈ s.disp.stack) :
    let t := discardFetch k x s
    t = { s with disp := { s.disp with ctx := t.disp.ctx } } ∧
    (topOwner s ≠ some (.ctx k) ∨ isRunning s = false → t = storeCtx k (some { x with fetch := .none }) s) ∧
    ∀ c, topOwner s = some (.ctx k) → isRunning s = true → cueOf s x.slot = some c →
      FetchTested s t k { x with fetch := .none } c := by
  intro t
  let y : Context := { x with fetch := .none }
  have ends := endVoidFetch_stacked stacked x
  by_cases top : topOwner s = some (.ctx k)
  · have tests : t = feedTest (storeCtx k (some y) s) := by rw [← ends]; exact discardFetch_top top x
    refine ⟨?_, fun still => ?_, fun c _ running cue => ?_⟩
    · obtain ⟨ctx, fed⟩ := feedTest_eq (storeCtx k (some y) s)
      rw [tests, fed]
      rfl
    · have stopped : isRunning (storeCtx k (some y) s) = false := still.resolve_left (not_not_intro top)
      rw [tests, feedTest_of_stopped stopped]
    · obtain ⟨asked, held, others⟩ :=
        feedTest_tested (s := storeCtx k (some y) s) (k := k) (x := y) (c := c) running top (get_put_same ..) cue
      rw [tests]
      exact ⟨asked, held, fun j other => (others j other).trans (get_put_other _ _ (Ne.symm other))⟩
  · have stays : t = storeCtx k (some y) s := (discardFetch_notTop top x).trans ends
    exact ⟨by rw [stays]; rfl, fun _ => stays, fun c now => absurd now top⟩

/-- A void fetch of a context whose cue has left the stack frees it, and the due list is tested (R128, R131, R133). -/
theorem discardFetch_left {k : CtxNo} {s : State} {x : Context} (left : .ctx k ∉ s.disp.stack) :
    (s.disp.due = [] → discardFetch k x s = storeCtx k none s) ∧
    ∀ n rest c, s.disp.due = n :: rest → cueOf s n = some c →
      DueTested (storeCtx k none s) (discardFetch k x s) n rest c := by
  rw [discardFetch_notTop (topOwner_of_left left), endVoidFetch_unstacked left]
  refine ⟨fun due => ?_, fun n rest c due cue => ?_⟩
  · rw [dueTest_of_noneDue (s := storeCtx k none s) due]
  · exact dueTested_of due cue (fun stop => by rw [stop]; exact ⟨rfl, rfl⟩) fun j accepts => by rw [accepts]

/-! ### The completion (R133) -/

section
variable {k : CtxNo} {x : Context} {s : State} (ctx : ctxOf s k = some x) (entry : List Byte)

include ctx

theorem completeFetch_void (void : x.fetch = .void) : completeFetch k entry s = discardFetch k x s := by
  simp only [completeFetch, ctx, void]

theorem completeFetch_top {c : Cue} (running : isRunning s = true) (top : topOwner s = some (.ctx k))
    (asked : x.fetch = .inFlight) (cue : cueOf s x.slot = some c) :
    completeFetch k entry s = feedTest (takeFetch k x c entry s) := by
  simp only [completeFetch, ctx, asked, cue, running, top, beq_self_eq_true, Bool.and_self, if_true]

end

/-- With a full schedule the position stays, and no fetch is asked for (R132, R133). -/
theorem feedTest_takeFetch_of_full {k : CtxNo} {x : Context} {c : Cue} {s : State} (running : isRunning s = true)
    (top : topOwner s = some (.ctx k)) (cue : cueOf s x.slot = some c) (full : 24 ≤ s.air.entries.length)
    (entry : List Byte) : feedTest (takeFetch k x c entry s) = storeCtx k (some { x with fetch := .none }) s := by
  let u := storeCtx k (some { x with fetch := .none }) s
  rw [takeFetch_of_full full,
    feedTest_of_top (s := u) (k := k) (x := { x with fetch := .none }) (c := c) top (get_put_same ..) cue, if_neg]
  rw [mayFetch_iff (s := u) running]
  rintro ⟨_, _, _, room, _⟩
  exact absurd room (Nat.not_lt.mpr full)

/-- FETCH_COMPLETE completes the fetch in the state it finds (R133). -/
theorem exec_fetchComplete {m : Moment} {s a : State} (finds : Finds m s a) (k : CtxNo) (entry : List Byte) :
    exec (.fetchComplete m k entry) s = .next (completeFetch k entry a) :=
  congrArg Host.Outcome.next (event_of_finds finds _)

/-- Settles O52: a fetch that is void or finds the schedule full leaves its context, and a row that is taken enters the
schedule, or is lost with its record and its count. -/
theorem fetchedRowEntersOrIsSkipped : Obligations.FetchedRowEntersOrIsSkipped := by
  intro m k entry s a x finds ctx left
  have next := exec_fetchComplete finds k entry
  have frame := (completeFetch_local k entry a).toDisplayFrame
  refine ⟨fun c running top asked cue full => ?_, fun void stacked => ⟨_, next, ?_⟩, fun void gone => ?_,
    fun c running top asked cue room => ⟨_, fetchedRow x c entry a, next, frame, ?_, fetchedRow_taken .., ?_⟩⟩
  · rw [next, completeFetch_top ctx entry running top asked cue, feedTest_takeFetch_of_full running top cue full]
    rfl
  · rw [completeFetch_void ctx entry void]
    exact discardFetch_stacked stacked
  · have discards := completeFetch_void ctx entry void
    obtain ⟨unheld, tested⟩ := discardFetch_left (x := x) gone
    refine ⟨fun due => ?_, fun n rest c due cue => ⟨_, next, frame, ?_⟩⟩
    · rw [next, discards, unheld due]
      rfl
    · rw [discards]
      exact tested n rest c due cue
  · rw [completeFetch_top ctx entry running top asked cue, takeFetch_of_room room]
    exact ((takeRow_rowsKept ..).trans (feedTest_rowsKept _)).nextRowId
  · let r := fetchedRow x c entry a
    let u := fetchTaken k x entry a
    have taken : completeFetch k entry a = feedTest (takeRow k x.slot r entry u) := by
      rw [completeFetch_top ctx entry running top asked cue, takeFetch_of_room room]
    have source : r.source = .cue x.slot x.next (c.start.getD 0) _ (entryHold entry) _ _ := rfl
    obtain ⟨skipped, dropped, enters⟩ := takeRow_fetchedRow k x c entry a
    rw [taken]
    refine ⟨feedTest_takeRow_standsBehind entry cue, fun empty => ?_,
      fun given => ⟨placeOf (placeRow r a), placeRow_placedAt r a, fun stale => ?_, fun inTime => ?_⟩⟩
    · rw [skipped empty]
      exact feedTest_rowLost_counts cue entry running _
    · rw [dropped given stale]
      exact feedTest_rowLost_counts cue entry running _
    · obtain ⟨queue, stands, catchup, entered⟩ := feedTest_enterRow_entered k x r entry a
      obtain ⟨latency, unmarked, _⟩ := entryOf_cue source a
      rw [enters given inTime]
      refine ⟨stands, queue, entryOf r (placeRow r a) a, entered, latency, unmarked,
        catchup.trans (catchupWith_cue source ..), fun slot pos start given hold fresh clamped own => ?_⟩
      obtain ⟨_, _, held⟩ := entryOf_cue own a
      exact held

end Sys2Proof.Machine
end

