-- ==== Sys2Proof/Proofs/FrontCommand.lean ====
section
/-! A step takes the front command of the queue. -/

namespace Sys2Proof.Machine

/-- Settles O1: a step is by definition a match on the queue. -/
theorem stepTakesTheFrontCommand : Obligations.StepTakesTheFrontCommand := by
  refine ⟨fun c rest s front => ?_, fun s empty => ?_⟩
  · simp only [step, front]
  · simp only [step, empty]

end Sys2Proof.Machine
end

