-- ==== Sys2Proof/Proofs/DueExpiries.lean ====
section
/-! The wait limits of the due cues at a boundary (R129): what a due cue becomes whose limit is reached, by induction over
the due list. -/

namespace Sys2Proof.Machine

/-! ### A due cue (R129) -/

/-- The record of a due cue whose wait limit is reached (R129). -/
def expiredCue (c : Cue) : Cue := { c with state := .expired, reason := .wait }

/-- The wait limit of a cue is reached: it has one, and frame now lies that far from its due frame (R129). -/
def WaitsOut (now : Frame) (c : Cue) : Prop :=
  c.waitLimit ≠ 0 ∧ atOrAfter now (c.dueFrame.getD 0 + BitVec.ofNat 28 c.waitLimit) = true

section
variable {s : State} {n : SlotNo} {c : Cue} (held : cueOf s n = some c)

include held

theorem waitOver_of_held : waitOver s n = true ↔ WaitsOut s.tb.frame c := by
  rw [waitOver_iff]
  simp [held, WaitsOut]

theorem expireCue_of_over (ended : WaitsOut s.tb.frame c) :
    expireCue s n = cueTurns n c.state (expiredCue c) { s with disp := { s.disp with due := s.disp.due.erase n } } := by
  simp only [expireCue, held, (waitOver_of_held held).mpr ended, if_true, expiredCue]

theorem expireCue_of_waiting (waits : ¬WaitsOut s.tb.frame c) : expireCue s n = s := by
  simp only [expireCue, held, if_neg (waits ∘ (waitOver_of_held held).mp)]

end

/-- An expiry leaves the other due cues as they are. -/
theorem expireCue_other {n m : SlotNo} (other : m ≠ n) (s : State) :
    cueOf (expireCue s m) n = cueOf s n ∧ (expireCue s m).disp.due.count n = s.disp.due.count n := by
  unfold expireCue
  split
  · split
    · rw [cueOf_cueTurns, if_neg other, cueTurns_disp]
      exact ⟨rfl, List.count_erase_of_ne (Ne.symm other)⟩
    · exact ⟨rfl, rfl⟩
  · exact ⟨rfl, rfl⟩

/-! ### The due list, cue by cue -/

section
variable {n : SlotNo} {s : State} {c : Cue} (held : cueOf s n = some c)

include held

/-- A cue whose wait limit is reached leaves the due list at each of its places, and is EXPIRED after the first. -/
theorem foldl_expireCue_over (l : List SlotNo) (ended : WaitsOut s.tb.frame c) :
    cueOf (l.foldl expireCue s) n = some (if n ∈ l then expiredCue c else c) ∧
    (l.foldl expireCue s).disp.due.count n = s.disp.due.count n - l.count n ∧
    (n ∈ l → flagSet .cue (l.foldl expireCue s) = true) := by
  induction l generalizing s c with
  | nil => simpa using held
  | cons m rest ih =>
    have frame : (expireCue s m).tb = s.tb := (expireCue_local s m).tb
    rw [List.foldl_cons]
    by_cases own : m = n
    · subst own
      have turned : cueOf (expireCue s m) m = some (expiredCue c) := by
        rw [expireCue_of_over held ended, cueOf_cueTurns, if_pos rfl]
      have left : (expireCue s m).disp.due.count m = s.disp.due.count m - 1 := by
        rw [expireCue_of_over held ended, cueTurns_disp]
        exact List.count_erase_self
      have flag : flagSet .cue (expireCue s m) = true := by
        rw [expireCue_of_over held ended]
        exact cueTurns_terminal rfl ..
      obtain ⟨cue, count, _⟩ := ih turned (by rw [frame]; exact ended)
      refine ⟨cue.trans ?_, by rw [count, left, List.count_cons_self, Nat.sub_sub, Nat.add_comm],
        fun _ => (Local.foldl expireCue_local rest _).records.flags _ flag⟩
      rw [if_pos List.mem_cons_self]
      split <;> rfl
    · obtain ⟨same, stays⟩ := expireCue_other own s
      obtain ⟨cue, count, flag⟩ := ih (same.trans held) (by rw [frame]; exact ended)
      refine ⟨cue.trans ?_, by rw [count, stays, List.count_cons_of_ne own],
        fun listed => flag (List.mem_of_ne_of_mem (Ne.symm own) listed)⟩
      simp only [List.mem_cons, Ne.symm own, false_or]

/-- A cue whose wait limit is not reached, or that has none, stays due. -/
theorem foldl_expireCue_waiting (l : List SlotNo) (waits : ¬WaitsOut s.tb.frame c) :
    cueOf (l.foldl expireCue s) n = some c ∧ (l.foldl expireCue s).disp.due.count n = s.disp.due.count n := by
  induction l generalizing s with
  | nil => exact ⟨held, rfl⟩
  | cons m rest ih =>
    have frame : (expireCue s m).tb = s.tb := (expireCue_local s m).tb
    rw [List.foldl_cons]
    by_cases own : m = n
    · rw [own, expireCue_of_waiting held waits]
      exact ih held waits
    · obtain ⟨same, stays⟩ := expireCue_other own s
      obtain ⟨cue, count⟩ := ih (same.trans held) (by rw [frame]; exact waits)
      exact ⟨cue, count.trans stays⟩

end

/-- CUE_WAIT_EXPIRED takes the expiries where they are marked, with the boundary's test of the due list behind it (R129). -/
theorem exec_cueWaitExpired {m : Moment} {s a : State} (finds : FindsPiece m s a) (marked : a.work.expiry = true)
    (tested : a.work.atFrame = false) :
    exec (.cueWaitExpired m) s = .next (expireBoundary { a with work := { a.work with expiry := false } }) := by
  have first : atFrameWork a = a := by simp [atFrameWork, tested]
  refine (congrArg Host.Outcome.next (piece_of_finds finds expiryWork)).trans ?_
  simp only [expiryWork, first, marked, if_true]

/-- Settles O41: the due list is taken cue by cue, and each cue is judged by its own limit and due frame. -/
theorem dueCuesExpire : Obligations.DueCuesExpire := by
  intro m s a finds marked tested
  let b : State := { a with work := { a.work with expiry := false } }
  have stays (n : SlotNo) (c : Cue) (due : n ∈ a.disp.due) (held : cueOf a n = some c) (waits : ¬WaitsOut a.tb.frame c) :
      n ∈ (expireBoundary b).disp.due ∧ cueOf (expireBoundary b) n = some c := by
    obtain ⟨cue, count⟩ := foldl_expireCue_waiting (s := b) held b.disp.due waits
    refine ⟨?_, cue⟩
    rw [expireBoundary, ← List.count_pos_iff, count]
    exact List.count_pos_iff.mpr due
  refine ⟨expireBoundary b, exec_cueWaitExpired finds marked tested, (expireBoundary_local b).toDisplayFrame,
    fun n c f due held limit frame reached => ?_,
    fun n c due held unlimited => stays n c due held fun ended => ended.1 unlimited,
    fun n c f due held frame early => stays n c due held fun ended => ?_⟩
  · have ended : WaitsOut b.tb.frame c := ⟨limit, by rwa [frame]⟩
    obtain ⟨cue, count, flag⟩ := foldl_expireCue_over (s := b) held b.disp.due ended
    refine ⟨?_, cue.trans ?_, flag due⟩
    · rw [expireBoundary, ← List.count_eq_zero, count, Nat.sub_self]
    · rw [if_pos (show n ∈ b.disp.due from due)]
      rfl
  · rw [WaitsOut, frame] at ended
    exact Bool.false_ne_true (early.symm.trans ended.2)

end Sys2Proof.Machine
end

