-- ==== Sys2Proof/Proofs/OtherSlots.lean ====
section
/-! What the cue player's operations leave of a slot that they are not about (R126 to R136): its place in the lists, its cue
but for a turn between DUE, RUNNING and SUSPENDED, and its write-back mark. Said once for each operation, in the order of the
model. -/

namespace Sys2Proof.Machine

/-! ### The write-back marks are the cue player's own (R162) -/

theorem countDropped_marks (r : Row) (s : State) : (countDropped r s).pe.marks = s.pe.marks := by
  unfold countDropped
  split <;> rfl

theorem trimQueue_marks (n : Nat) (s : State) : (trimQueue n s).pe.marks = s.pe.marks := by
  induction n generalizing s with
  | zero => rfl
  | succ n ih =>
    unfold trimQueue
    split
    · split
      · rw [ih, overflowDrop, journal_marks, countDropped_marks]
      · rfl
    · rfl

theorem feedRows_marks (n : Nat) (s : State) : (feedRows n s).pe.marks = s.pe.marks := by
  induction n generalizing s with
  | zero => rfl
  | succ n ih =>
    have offered (r : Row) (u : State) : (offerRow r u).1.pe.marks = u.pe.marks := by
      cases stale : isStale (placeRow r u).lag u with
      | false => rw [offerRow_enters stale]; rfl
      | true => rw [offerRow_drops stale, journal_marks, countDropped_marks]
    unfold feedRows
    split
    · split
      · rw [ih, offered]
      · rfl
    · rfl

theorem feedAttempt_marks (s : State) : (feedAttempt s).pe.marks = s.pe.marks := feedRows_marks ..

theorem removeWaiting_marks (p : Entry → Bool) (s : State) : (removeWaiting p s).pe.marks = s.pe.marks := by
  unfold removeWaiting
  split <;> rfl

theorem withdrawLive_marks (s : State) : (withdrawLive s).pe.marks = s.pe.marks := by
  rw [withdrawLive, removeWaiting_marks, joinHead, trimQueue_marks]

/-- The records of withdrawn rows are made, and nothing else of the display or the marks changes (R115). -/
theorem foldl_journalWithdrawn_leaves (rows : List Entry) (s : State) :
    (rows.foldl journalWithdrawn s).disp = s.disp ∧ (rows.foldl journalWithdrawn s).pe.marks = s.pe.marks ∧
    (rows.foldl journalWithdrawn s).queue = s.queue ∧ (rows.foldl journalWithdrawn s).air = s.air := by
  induction rows generalizing s with
  | nil => exact ⟨rfl, rfl, rfl, rfl⟩
  | cons e rest ih =>
    obtain ⟨disp, marks, queue, air⟩ := ih (journalWithdrawn s e)
    rw [List.foldl_cons, disp, marks, queue, air, journalWithdrawn]
    exact ⟨journal_disp .., journal_marks .., journal_queue .., journal_air ..⟩

theorem discardCue_leaves (n : SlotNo) (s : State) :
    (discardCue n s).disp = s.disp ∧ (discardCue n s).pe.marks = s.pe.marks ∧ (discardCue n s).queue = s.queue ∧
    (discardCue n s).air.entries = s.air.entries.filter (fun e => !waitsOfCue n e) := by
  obtain ⟨disp, marks, queue, air⟩ := foldl_journalWithdrawn_leaves (waitingOf (isCueEntry n) s) s
  rw [discardCue, removeWaiting_disp, removeWaiting_marks, removeWaiting_queue, removeWaiting_entries, air]
  exact ⟨disp, marks, queue, by simp only [fun e => congrFun (waitsOfCue_eq n) e]⟩

/-! ### Lists of slots -/

theorem mem_insertDue (s : State) (n m : SlotNo) (l : List SlotNo) : m ∈ insertDue s n l ↔ m = n ∨ m ∈ l := by
  induction l with
  | nil => simp [insertDue]
  | cons i rest ih =>
    unfold insertDue
    split
    · exact List.mem_cons
    · rw [List.mem_cons, ih, List.mem_cons, or_left_comm]

theorem mem_insertSlot (n m : SlotNo) (l : List SlotNo) : m ∈ insertSlot n l ↔ m = n ∨ m ∈ l := by
  induction l with
  | nil => simp [insertSlot]
  | cons i rest ih =>
    unfold insertSlot
    split
    · exact List.mem_cons
    · split
      · rename_i same
        rw [same, List.mem_cons, ← or_assoc, or_self]
      · rw [List.mem_cons, ih, List.mem_cons, or_left_comm]

/-! ### The slot that is left alone -/

/-- The display has no hold of slot n: it is not due, and its cue is neither RUNNING nor SUSPENDED. -/
structure Resting (n : SlotNo) (s : State) : Prop where
  due : n ∉ s.disp.due
  state : ∀ c, cueOf s n = some c → c.state ≠ .running ∧ c.state ≠ .suspended

/-- From s to t slot n has left none of the lists in which it waits and has not become due; it is held where it was held, its
cue the same or one that the display has accepted, suspended or resumed; and its write-back mark is not cleared. Where the
display has no hold of it, cue and mark are the same. -/
structure SlotAlone (n : SlotNo) (s t : State) : Prop where
  due : n ∉ s.disp.due → n ∉ t.disp.due
  watch : n ∈ s.disp.watch → n ∈ t.disp.watch
  waits : ∀ j, n ∈ get s.disp.waits j → n ∈ get t.disp.waits j
  absent : cueOf s n = none → cueOf t n = none
  turned : ∀ c, cueOf s n = some c →
    ∃ st, cueOf t n = some { c with state := st } ∧ (st = c.state ∨ st = .running ∨ st = .suspended)
  marked : get s.pe.marks n = true → get t.pe.marks n = true
  rests : Resting n s → cueOf t n = cueOf s n ∧ get t.pe.marks n = get s.pe.marks n

/-- A slot of which the display has no hold stays so. -/
theorem Resting.of_alone {n : SlotNo} {s t : State} (h : Resting n s) (alone : SlotAlone n s t) : Resting n t where
  due := alone.due h.due
  state := by rw [(alone.rests h).1]; exact h.state

/-- A slot that is due, or whose cue is on the stack, is in the display's hold. -/
theorem not_resting_of_due {n : SlotNo} {s : State} (due : n ∈ s.disp.due) : ¬Resting n s := fun rest => rest.due due

@[inherit_doc not_resting_of_due]
theorem not_resting_of_state {n : SlotNo} {s : State} {c : Cue} (held : cueOf s n = some c)
    (state : c.state = .running ∨ c.state = .suspended) : ¬Resting n s := fun rest =>
  state.elim (rest.state c held).1 (rest.state c held).2

namespace SlotAlone

variable {n : SlotNo} {s t u : State}

theorem trans (h : SlotAlone n s t) (g : SlotAlone n t u) : SlotAlone n s u where
  due out := g.due (h.due out)
  watch listed := g.watch (h.watch listed)
  waits j listed := g.waits j (h.waits j listed)
  absent unheld := g.absent (h.absent unheld)
  turned c held := by
    obtain ⟨st, turned, how⟩ := h.turned c held
    obtain ⟨st', turned', how'⟩ := g.turned _ turned
    exact ⟨st', turned', how'.elim (fun same => same ▸ how) .inr⟩
  marked set := g.marked (h.marked set)
  rests rest := by
    obtain ⟨cue, mark⟩ := g.rests (rest.of_alone h)
    obtain ⟨cue', mark'⟩ := h.rests rest
    exact ⟨cue.trans cue', mark.trans mark'⟩

/-- An operation that leaves the cue and the mark. -/
theorem of_same (cue : cueOf t n = cueOf s n) (mark : get t.pe.marks n = get s.pe.marks n)
    (due : n ∉ s.disp.due → n ∉ t.disp.due) (watch : n ∈ s.disp.watch → n ∈ t.disp.watch)
    (waits : ∀ j, n ∈ get s.disp.waits j → n ∈ get t.disp.waits j) : SlotAlone n s t where
  due := due
  watch := watch
  waits := waits
  absent unheld := cue.trans unheld
  turned c held := ⟨c.state, cue.trans held, .inl rfl⟩
  marked set := mark.trans set
  rests _ := ⟨cue, mark⟩

/-- An operation that leaves the cue table, the lists of slots and the marks. -/
theorem of_eq (cues : t.disp.cues = s.disp.cues) (marks : t.pe.marks = s.pe.marks) (due : t.disp.due = s.disp.due)
    (watch : t.disp.watch = s.disp.watch) (waits : t.disp.waits = s.disp.waits) : SlotAlone n s t :=
  of_same (by rw [cueOf, cues, cueOf]) (by rw [marks]) (by rw [due]; exact id) (by rw [watch]; exact id)
    (by rw [waits]; exact fun _ => id)

theorem of_disp (disp : t.disp = s.disp) (marks : t.pe.marks = s.pe.marks) : SlotAlone n s t :=
  of_eq (by rw [disp]) marks (by rw [disp]) (by rw [disp]) (by rw [disp])

theorem refl (n : SlotNo) (s : State) : SlotAlone n s s := of_disp rfl rfl

theorem foldl {α : Type} {f : State → α → State} (l : List α) (h : ∀ x ∈ l, ∀ s, SlotAlone n s (f s x)) (s : State) :
    SlotAlone n s (l.foldl f s) := by
  induction l generalizing s with
  | nil => exact refl n s
  | cons x rest ih =>
    obtain ⟨first, others⟩ := List.forall_mem_cons.mp h
    exact (first s).trans (ih others _)

end SlotAlone

/-! ### Changes of state -/

/-- Another slot's cue changes state (R138). -/
theorem cueTurns_alone {n m : SlotNo} (other : m ≠ n) (left : CueState) (c : Cue) (s : State) :
    SlotAlone n s (cueTurns m left c s) := by
  refine .of_same ?_ ?_ ?_ ?_ ?_
  · rw [cueOf_cueTurns, if_neg other]
  · rw [cueTurns_marks, get_put_other _ _ other]
  all_goals
    rw [cueTurns_disp]
    first | exact id | exact fun _ => id

/-- The display accepts, suspends or resumes the cue of a slot that it had a hold of, whichever slot that is. -/
theorem cueTurns_held_alone {n m : SlotNo} {s u : State} (alone : ∀ n, SlotAlone n s u) {c : Cue} (held : cueOf s m = some c)
    (hold : ¬Resting m s) {st : CueState} (turn : st = .running ∨ st = .suspended) (left : CueState) :
    SlotAlone n s (cueTurns m left { c with state := st } u) := by
  by_cases other : m = n
  · subst other
    have before := alone m
    refine ⟨?_, ?_, ?_, (fun unheld => nomatch unheld.symm.trans held), fun d same => ?_, fun _ => ?_,
      fun rest => absurd rest hold⟩
    · rw [cueTurns_disp]
      exact before.due
    · rw [cueTurns_disp]
      exact before.watch
    · rw [cueTurns_disp]
      exact before.waits
    · obtain rfl : c = d := Option.some.inj (held.symm.trans same)
      exact ⟨st, by rw [cueOf_cueTurns, if_pos rfl], .inr turn⟩
    · rw [cueTurns_marks, get_put_same]
  · exact (alone n).trans (cueTurns_alone other ..)

/-! ### The display (R113, R114, R128, R130, R131) -/

section
variable (n : SlotNo)

theorem storeCtx_alone (k : CtxNo) (x : Option Context) (s : State) : SlotAlone n s (storeCtx k x s) :=
  .of_eq rfl rfl rfl rfl rfl

theorem withStack_alone (stack : List Owner) (s : State) : SlotAlone n s (withStack stack s) := .of_eq rfl rfl rfl rfl rfl

theorem feedAttempt_alone (s : State) : SlotAlone n s (feedAttempt s) := .of_disp (feedAttempt_disp s) (feedAttempt_marks s)

theorem removeWaiting_alone (p : Entry → Bool) (s : State) : SlotAlone n s (removeWaiting p s) :=
  .of_disp (removeWaiting_disp p s) (removeWaiting_marks p s)

theorem withdrawLive_alone (s : State) : SlotAlone n s (withdrawLive s) :=
  .of_disp (withdrawLive_takes s).2.2 (withdrawLive_marks s)

theorem discardCue_alone (m : SlotNo) (s : State) : SlotAlone n s (discardCue m s) := by
  obtain ⟨disp, marks, _⟩ := discardCue_leaves m s
  exact .of_disp disp marks

theorem feedTest_alone (s : State) : SlotAlone n s (feedTest s) := by
  obtain ⟨ctx, e⟩ := feedTest_eq s
  rw [e]
  exact .of_eq rfl rfl rfl rfl rfl

theorem suspendCue_alone (k : CtxNo) (s : State) : SlotAlone n s (suspendCue k s) := by
  unfold suspendCue
  split
  · split
    · rename_i c held
      split
      · rename_i running
        exact cueTurns_held_alone (fun m => (removeWaiting_alone m ..).trans (storeCtx_alone m ..)) held
          (not_resting_of_state held (.inl running)) (.inr rfl) _
      · exact .refl n s
    · exact .refl n s
  · exact .refl n s

theorem preemptTop_alone (s : State) : SlotAlone n s (preemptTop s) := by
  unfold preemptTop
  split
  · exact withdrawLive_alone n s
  · exact suspendCue_alone n _ s
  · exact .refl n s

/-- A slot leaves the due list. -/
theorem dueErased_alone (m : SlotNo) (s : State) :
    SlotAlone n s { s with disp := { s.disp with due := s.disp.due.erase m } } :=
  .of_same rfl rfl (fun out listed => out (List.mem_of_mem_erase listed)) id (fun _ => id)

theorem acceptCue_alone {m : SlotNo} {s : State} {c : Cue} (due : m ∈ s.disp.due) (held : cueOf s m = some c) (k : CtxNo) :
    SlotAlone n s (acceptCue m c k s) := by
  refine (cueTurns_held_alone (fun i => ?_) held (not_resting_of_due due) (.inl rfl) _).trans (feedTest_alone n _)
  exact (((dueErased_alone i m s).trans (preemptTop_alone i _)).trans (storeCtx_alone i ..)).trans (withStack_alone i ..)

theorem dueTest_alone (s : State) : SlotAlone n s (dueTest s).1 := by
  rcases dueTest_cases s with stays | ⟨m, rest, c, k, due, held, accepts⟩
  · rw [stays]
    exact .refl n s
  · rw [accepts]
    exact acceptCue_alone n (due ▸ List.mem_cons_self) held k

theorem insertionTest_alone (s : State) : SlotAlone n s (insertionTest s).1 := by
  have inserted : SlotAlone n s { s with disp := { s.disp with stack := .live :: s.disp.stack, place := .inStack } } :=
    .of_eq rfl rfl rfl rfl rfl
  unfold insertionTest
  dsimp only
  split
  · split
    · exact (inserted.trans (feedAttempt_alone n _)).trans (dueTest_alone n _)
    · exact inserted
  · exact .refl n s

theorem applyPendingLevel_alone (s : State) : SlotAlone n s (applyPendingLevel s) := by
  obtain ⟨level, pending, e⟩ := applyPendingLevel_eq s
  rw [e]
  exact .of_eq rfl rfl rfl rfl rfl

theorem takeUpDisplay_alone (s : State) : SlotAlone n s (takeUpDisplay s) := by
  unfold takeUpDisplay
  split
  · exact feedAttempt_alone n s
  · split
    · split
      · rename_i c held
        split
        · rename_i suspended
          have hold := not_resting_of_state held (.inr suspended)
          exact (cueTurns_held_alone (fun m => .refl m s) held hold (.inl rfl) _).trans (feedTest_alone n _)
        · exact feedTest_alone n s
      · exact .refl n s
    · exact .refl n s
  · exact .refl n s

theorem releaseCtx_alone (k : CtxNo) (s : State) : SlotAlone n s (releaseCtx k s) := by
  unfold releaseCtx
  split
  · split <;> exact storeCtx_alone n ..
  · exact .refl n s

theorem leaveStack_alone (k : CtxNo) (s : State) : SlotAlone n s (leaveStack k s) := by
  have left : SlotAlone n s (withStack (s.disp.stack.erase (.ctx k)) (releaseCtx k s)) :=
    (releaseCtx_alone n k s).trans (withStack_alone n ..)
  have tested := ((left.trans (applyPendingLevel_alone n _)).trans (insertionTest_alone n _)).trans (dueTest_alone n _)
  unfold leaveStack
  dsimp only
  split
  · exact tested.trans (takeUpDisplay_alone n _)
  · exact tested

end

/-! ### What is about another slot (R115, R126, R127, R136, R161) -/

section
variable {n m : SlotNo} (other : m ≠ n)

include other

theorem storeCue_alone (c : Option Cue) (s : State) : SlotAlone n s (storeCue m c s) :=
  .of_same (get_put_other _ _ other) rfl id id (fun _ => id)

theorem markSlot_alone (s : State) : SlotAlone n s (markSlot m s) :=
  .of_same rfl (get_put_other _ _ other) id id (fun _ => id)

theorem updateCue_alone (c : Cue) (s : State) : SlotAlone n s (updateCue m c s) :=
  (storeCue_alone other ..).trans (markSlot_alone other _)

theorem becomeDue_alone (start : Frame) (s : State) : SlotAlone n s (becomeDue m start s) := by
  unfold becomeDue
  split
  · refine (cueTurns_alone other ..).trans (.of_same rfl rfl (fun out listed => ?_) id (fun _ => id))
    exact ((mem_insertDue ..).mp listed).elim (Ne.symm other) out
  · exact .refl n s

theorem placeArmed_alone (c : Cue) (s : State) : SlotAlone n s (placeArmed m c s) := by
  unfold placeArmed
  split
  · split
    · exact (becomeDue_alone other ..).trans (dueTest_alone n _)
    · exact .of_same rfl rfl id (fun listed => (mem_insertSlot ..).mpr (.inr listed)) (fun _ => id)
  · refine .of_same rfl rfl id id (fun j listed => ?_)
    show n ∈ get (change _ _ _) j
    rw [get_change]
    split
    · rename_i own
      exact List.mem_append_left _ (own ▸ listed)
    · exact listed
  · exact (becomeDue_alone other ..).trans (dueTest_alone n _)
  · exact .refl n s

theorem armCue_alone (left : CueState) (c : Cue) (s : State) : SlotAlone n s (armCue m left c s) := by
  unfold armCue
  split
  · split
    · exact (storeCue_alone other ..).trans (placeArmed_alone other ..)
    · exact (updateCue_alone other ..).trans (placeArmed_alone other ..)
  · exact (cueTurns_alone other ..).trans (placeArmed_alone other ..)

theorem takePosted_alone (slot : List Byte) (left : CueState) (s : State) : SlotAlone n s (takePosted m slot left s) := by
  unfold takePosted
  dsimp only
  split
  · exact cueTurns_alone other ..
  · split
    · exact cueTurns_alone other ..
    · exact armCue_alone other ..

theorem cueRowsDropped_alone (count : Nat) (s : State) : SlotAlone n s (cueRowsDropped m count s) := by
  unfold cueRowsDropped
  split
  · split
    · exact .refl n s
    · exact updateCue_alone other ..
  · exact .refl n s

/-- Another slot leaves the watch and the wait lists. -/
theorem unwatched_alone (s : State) : SlotAlone n s { s with disp := { s.disp with
    watch := s.disp.watch.erase m, waits := Vector.ofFn (fun i => (get s.disp.waits i).erase m) } } :=
  .of_same rfl rfl id (List.mem_erase_of_ne (Ne.symm other)).mpr
    (fun j listed => by rw [get_ofFn]; exact (List.mem_erase_of_ne (Ne.symm other)).mpr listed)

theorem endCue_alone (k : CtxNo) (c : Cue) (s : State) (entered : CueState) (reason : CueReason) :
    SlotAlone n s (endCue m k c s entered reason) :=
  (cueTurns_alone other ..).trans (leaveStack_alone n k _)

theorem withdrawCue_alone (c : Cue) (s : State) : SlotAlone n s (withdrawCue m c s) := by
  unfold withdrawCue
  split
  · exact (unwatched_alone other s).trans (cueTurns_alone other ..)
  · exact (dueErased_alone n m s).trans (cueTurns_alone other ..)
  · have discarded := (discardCue_alone n m s).trans (cueRowsDropped_alone other (waitingOf (isCueEntry m) s).length _)
    dsimp only
    split
    · exact discarded.trans (endCue_alone other ..)
    · exact discarded.trans (cueTurns_alone other ..)
  · split
    · exact endCue_alone other ..
    · exact cueTurns_alone other ..
  all_goals exact .refl n s

theorem checkSlot_alone (read : CueState) (s : State) : SlotAlone n s (checkSlot m read s) := by
  unfold checkSlot
  split
  · split
    · exact .refl n s
    · exact markSlot_alone other s
  · exact .refl n s

/-- A slot of the cue table is handed (R161). -/
theorem handSlot_alone (runStart : Bool) (table : List Byte) (s : State) : SlotAlone n s (handSlot runStart table s m) := by
  unfold handSlot
  dsimp only
  split
  · split
    · exact (takePosted_alone other ..).trans (checkSlot_alone other ..)
    · split
      · exact (withdrawCue_alone other ..).trans (checkSlot_alone other ..)
      · exact checkSlot_alone other ..
  · split
    · exact takePosted_alone other ..
    · split
      · exact takePosted_alone other ..
      · exact .refl n s
    iterate 3
      · split
        · exact cueTurns_alone other ..
        · exact .refl n s
    all_goals exact .refl n s

end

end Sys2Proof.Machine
end

