-- ==== Sys2Proof/Proofs/PostedSlots.lean ====
section
/-! A slot of the cue table that is handed as posted (R126, R127, R161): the cue that is taken from it, the first test that
refuses it, and the three ways in which it arms; and a slot of which nothing is taken. -/

namespace Sys2Proof.Machine

/-! ### The fields of a slot (R125, R184) -/

/-- A cue taken from a slot has its fields, whatever becomes of its state, its reason and its frames. -/
theorem parseCue_taken (slot : List Byte) (parsed st : CueState) (reason : CueReason) (due start : Option Frame) :
    CueTaken slot { parseCue slot parsed with state := st, reason := reason, dueFrame := due, start := start } where
  level := rfl
  kind := rfl
  startFrame := congrArg (BitVec.ofNat 28) (clampTo_zero ..)
  line := rfl
  clearOnStart := by
    show (byteAt slot 0x09 != 0) = _
    rw [bne, beq_eq_decide, decide_not]
  firstRow := rfl
  rowCount := rfl
  waitLimit := clampTo_zero ..
  counts := ⟨rfl, rfl⟩

/-- A byte above the codes of the states is read as FREE. -/
theorem code_cueStateOfCode (x : Nat) : (cueStateOfCode x).code = if x ≤ 9 then x else 0 := by
  by_cases coded : x ≤ 9
  · interval_cases x <;> rfl
  · have free : cueStateOfCode x = .free := by
      unfold cueStateOfCode
      split <;> first | omega | rfl
    rw [free, if_neg coded]
    rfl

theorem cueStateOfCode_armed_iff (x : Nat) : cueStateOfCode x = .armed ↔ x = 2 := by
  refine ⟨fun armed => ?_, fun two => by rw [two]; rfl⟩
  have code := code_cueStateOfCode x
  rw [armed] at code
  simp only [CueState.code] at code
  split at code <;> omega

theorem cueStateOfCode_code (st : CueState) : cueStateOfCode st.code = st := by cases st <;> rfl

theorem slotState_of_code {slot : List Byte} {st : CueState} (reads : byteAt slot 0x00 = st.code) : slotState slot = st := by
  rw [slotState, reads, cueStateOfCode_code]

theorem withdrawFlag_iff (slot : List Byte) : withdrawFlag slot = true ↔ byteAt slot 0x01 ≠ 0 := by
  simp [withdrawFlag]

theorem startKindOfCode_invalid {x : Nat} (above : 2 < x) : startKindOfCode x = .invalid := by
  unfold startKindOfCode
  split <;> first | omega | rfl

/-! ### Refusal (R126) -/

/-- The rows that a slot names are not there to be read: none, too many, or past the row area (R126). -/
def RowsRefused (slot : List Byte) : Prop :=
  byteAt slot 0x0C = 0 ∨ 32 < byteAt slot 0x0C ∨ 2047 < le16 slot 0x0A + byteAt slot 0x0C - 1

section
variable {slot : List Byte}

theorem refusal_level (h : byteAt slot 0x02 = 0 ∨ 7 < byteAt slot 0x02) : refusal (parseCue slot .armed) = some .level :=
  if_pos (h.imp_left Nat.lt_one_iff.mpr)

theorem refusal_rows (low : 1 ≤ byteAt slot 0x02) (high : byteAt slot 0x02 ≤ 7) (rows : RowsRefused slot) :
    refusal (parseCue slot .armed) = some .rows := by
  rw [refusal, if_neg, if_pos]
  · exact rows.imp_left Nat.lt_one_iff.mpr
  · show ¬(byteAt slot 0x02 < 1 ∨ 7 < byteAt slot 0x02)
    omega

section
variable (low : 1 ≤ byteAt slot 0x02) (high : byteAt slot 0x02 ≤ 7) (rows : ¬RowsRefused slot)

include low high rows

/-- With level and rows in order the start kind decides. -/
theorem refusal_kinds : refusal (parseCue slot .armed) =
    if startKindOfCode (byteAt slot 0x03) = .onTrigger ∧ 3 < byteAt slot 0x08 then some .line
    else if startKindOfCode (byteAt slot 0x03) = .invalid then some .kind else none := by
  rw [refusal, if_neg, if_neg]
  · rfl
  · rintro (none | long)
    · exact rows (.inl (Nat.lt_one_iff.mp none))
    · exact rows (.inr long)
  · show ¬(byteAt slot 0x02 < 1 ∨ 7 < byteAt slot 0x02)
    omega

theorem refusal_line (kind : byteAt slot 0x03 = 2) (line : 3 < byteAt slot 0x08) :
    refusal (parseCue slot .armed) = some .line := by
  rw [refusal_kinds low high rows, kind, if_pos ⟨rfl, line⟩]

theorem refusal_kind (kind : 2 < byteAt slot 0x03) : refusal (parseCue slot .armed) = some .kind := by
  rw [refusal_kinds low high rows, startKindOfCode_invalid kind]
  rfl

theorem refusal_none (kind : byteAt slot 0x03 = 0 ∨ byteAt slot 0x03 = 1 ∨ byteAt slot 0x03 = 2 ∧ byteAt slot 0x08 ≤ 3) :
    refusal (parseCue slot .armed) = none := by
  rw [refusal_kinds low high rows]
  rcases kind with kind | kind | ⟨kind, line⟩ <;> rw [kind]
  · rfl
  · rfl
  · rw [if_neg fun both => absurd both.2 (Nat.not_lt.mpr line)]
    rfl

end

end

/-! ### A cue that ends as it is taken (R126) -/

/-- The cue taken from the slot n has ended and is not due, with its CUE_STATE record, attention CUE and a write-back called
for. -/
structure SlotEnded (slot : List Byte) (n : SlotNo) (left entered : CueState) (reason : CueReason) (t : State) : Prop where
  cue : ∃ c, cueOf t n = some c ∧ c.state = entered ∧ c.reason = reason ∧ CueTaken slot c ∧ c.dueFrame = none ∧
    c.start = none
  marked : get t.pe.marks n = true
  flag : flagSet .cue t = true
  record : Recorded t (.cueState n left entered reason 0 0 none)
  due : n ∉ t.disp.due

/-- The cue taken from the slot n has armed and is not due yet, and where it was posted with its record and a write-back
called for. -/
structure SlotArmed (slot : List Byte) (n : SlotNo) (left : CueState) (t : State) : Prop where
  cue : ∃ c, cueOf t n = some c ∧ c.state = .armed ∧ CueTaken slot c
  posted : left = .posted → get t.pe.marks n = true ∧ Recorded t (.cueState n .posted .armed .none 0 0 none)
  due : n ∉ t.disp.due

/-- The cue taken from the slot n has armed and become DUE at frame now with start frame start; the display may have accepted
it, and suspended it again. -/
structure SlotDue (slot : List Byte) (n : SlotNo) (left : CueState) (now start : Frame) (t : State) : Prop where
  marked : get t.pe.marks n = true
  posted : left = .posted → Recorded t (.cueState n .posted .armed .none 0 0 none)
  record : Recorded t (.cueState n .armed .due .none 0 0 (some start))
  cue : ∃ c, cueOf t n = some c ∧ CueTaken slot c ∧ (c.state = .due ∨ c.state = .running ∨ c.state = .suspended) ∧
    c.dueFrame = some now ∧ c.start = some start

section
variable {slot : List Byte} {n : SlotNo} {left entered : CueState} {reason : CueReason} {now start : Frame} {s v t : State}

theorem SlotEnded.fields (h : SlotEnded slot n left entered reason t) :
    (∃ c, cueOf t n = some c ∧ c.state = entered ∧ c.reason = reason ∧ CueTaken slot c ∧ c.dueFrame = none ∧
      c.start = none) ∧
    get t.pe.marks n = true ∧ flagSet .cue t = true ∧ Recorded t (.cueState n left entered reason 0 0 none) :=
  ⟨h.cue, h.marked, h.flag, h.record⟩

theorem SlotDue.fields (h : SlotDue slot n left now start t) : get t.pe.marks n = true ∧
    (left = .posted → Recorded t (.cueState n .posted .armed .none 0 0 none)) ∧
    Recorded t (.cueState n .armed .due .none 0 0 (some start)) ∧
    ∃ c, cueOf t n = some c ∧ CueTaken slot c ∧ (c.state = .due ∨ c.state = .running ∨ c.state = .suspended) ∧
      c.dueFrame = some now ∧ c.start = some start :=
  ⟨h.marked, h.posted, h.record, h.cue⟩

theorem SlotEnded.mono (h : SlotEnded slot n left entered reason v) (cue : cueOf t n = cueOf v n)
    (marked : get v.pe.marks n = true → get t.pe.marks n = true) (records : RecordsKept v t)
    (due : n ∉ v.disp.due → n ∉ t.disp.due) : SlotEnded slot n left entered reason t :=
  ⟨by rw [cue]; exact h.cue, marked h.marked, records.flags _ h.flag, h.record.mono records, due h.due⟩

theorem SlotArmed.mono (h : SlotArmed slot n left v) (cue : cueOf t n = cueOf v n)
    (marked : get v.pe.marks n = true → get t.pe.marks n = true) (records : RecordsKept v t)
    (due : n ∉ v.disp.due → n ∉ t.disp.due) : SlotArmed slot n left t :=
  ⟨by rw [cue]; exact h.cue, fun was => (h.posted was).imp marked (·.mono records), due h.due⟩

theorem SlotEnded.resting (h : SlotEnded slot n left entered reason t) (ends : isTerminal entered = true) :
    Resting n t where
  due := h.due
  state c held := by
    obtain ⟨d, same, state, _⟩ := h.cue
    obtain rfl : d = c := Option.some.inj (same.symm.trans held)
    constructor <;> rintro running <;> rw [← state, running] at ends <;> exact nomatch ends

theorem SlotArmed.resting (h : SlotArmed slot n left t) : Resting n t where
  due := h.due
  state c held := by
    obtain ⟨d, same, state, _⟩ := h.cue
    obtain rfl : d = c := Option.some.inj (same.symm.trans held)
    simp [state]

theorem SlotDue.of_marked (h : SlotDue slot n left now start v) (cue : cueOf t n = cueOf v n)
    (marked : get v.pe.marks n = true → get t.pe.marks n = true) (records : RecordsKept v t) :
    SlotDue slot n left now start t :=
  ⟨marked h.marked, fun was => (h.posted was).mono records, h.record.mono records, by rw [cue]; exact h.cue⟩

/-- A cue that is due is still due, RUNNING or SUSPENDED after whatever is done for other slots. -/
theorem SlotDue.later (h : SlotDue slot n left now start v) (alone : SlotAlone n v t) (records : RecordsKept v t) :
    SlotDue slot n left now start t := by
  obtain ⟨c, held, ⟨level, kind, first, line, fresh, row, rows, wait, counts⟩, state, due, started⟩ := h.cue
  obtain ⟨st, turned, how⟩ := alone.turned c held
  refine ⟨alone.marked h.marked, fun was => (h.posted was).mono records, h.record.mono records, _, turned,
    ⟨level, kind, first, line, fresh, row, rows, wait, counts⟩, ?_, due, started⟩
  rcases how with same | other
  · exact same ▸ state
  · exact .inr other

/-- A cue that ends as it is taken turns from what its slot was left as (R126, R138). -/
theorem slotEnded_of_turn (out : n ∉ s.disp.due) (ends : isTerminal entered = true) (parsed : CueState) :
    SlotEnded slot n left entered reason
      (cueTurns n left { parseCue slot parsed with state := entered, reason := reason } s) where
  cue := ⟨{ parseCue slot parsed with state := entered, reason := reason }, by rw [cueOf_cueTurns, if_pos rfl], rfl, rfl,
    parseCue_taken slot parsed entered reason none none, rfl, rfl⟩
  marked := by rw [cueTurns_marks, get_put_same]
  flag := cueTurns_terminal ends ..
  record := cueTurns_recorded ..
  due := by rw [cueTurns_disp]; exact out

end

/-! ### A cue that arms (R126, R127) -/

/-- The state in which the cue c taken from slot n is ARMED, before it is placed by its start kind (R126, R162). -/
def armedIn (n : SlotNo) (left : CueState) (c : Cue) (s : State) : State :=
  if left = .armed then (if (cueOf s n).isSome then storeCue n (some c) s else updateCue n c s) else cueTurns n left c s

/-- A state with a watch and wait lists of its own. -/
def listed (watch : List SlotNo) (waits : Vector (List SlotNo) 4) (s : State) : State :=
  { s with disp := { s.disp with watch := watch, waits := waits } }

theorem armCue_eq (n : SlotNo) (left : CueState) (c : Cue) (s : State) :
    armCue n left c s = placeArmed n c (armedIn n left c s) := by
  unfold armCue armedIn
  split
  · rfl
  · rfl

section
variable (n : SlotNo) (left : CueState) (c : Cue) (s : State)

theorem armedIn_disp : (armedIn n left c s).disp = { s.disp with cues := put s.disp.cues n (some c) } := by
  unfold armedIn
  split
  · split <;> rfl
  · exact cueTurns_disp ..

theorem cueOf_armedIn : cueOf (armedIn n left c s) n = some c := by
  rw [cueOf, armedIn_disp]
  exact get_put_same ..

theorem armedIn_local : Local s (armedIn n left c s) := by
  unfold armedIn
  split
  · split
    · exact storeCue_local ..
    · exact updateCue_local ..
  · exact cueTurns_local ..

end

/-- A slot that was left ARMED calls for a write-back only where it was not held (R162; notes/assumptions/19). -/
theorem armedIn_armed_marks (n : SlotNo) (c : Cue) (s : State) :
    get (armedIn n .armed c s).pe.marks n = ((cueOf s n).isNone || get s.pe.marks n) := by
  rw [armedIn, if_pos rfl]
  cases cueOf s n with
  | none => exact get_put_same ..
  | some d => rfl

/-- t has of s the journal buffer, the flags, the due list and the stack. -/
structure NothingReported (s t : State) : Prop where
  buffer : t.pe.buffer = s.pe.buffer
  lost : t.pe.lost = s.pe.lost
  control : t.control = s.control
  due : t.disp.due = s.disp.due
  stack : t.disp.stack = s.disp.stack

theorem NothingReported.fields {s t : State} (h : NothingReported s t) : t.pe.buffer = s.pe.buffer ∧ t.pe.lost = s.pe.lost ∧
    t.control = s.control ∧ t.disp.due = s.disp.due ∧ t.disp.stack = s.disp.stack :=
  ⟨h.buffer, h.lost, h.control, h.due, h.stack⟩

theorem NothingReported.trans {s t u : State} (h : NothingReported s t) (g : NothingReported t u) : NothingReported s u :=
  ⟨g.buffer.trans h.buffer, g.lost.trans h.lost, g.control.trans h.control, g.due.trans h.due, g.stack.trans h.stack⟩

theorem armedIn_armed_nothingReported (n : SlotNo) (c : Cue) (s : State) : NothingReported s (armedIn n .armed c s) := by
  rw [armedIn, if_pos rfl]
  split <;> exact ⟨rfl, rfl, rfl, rfl, rfl⟩

section
variable {slot : List Byte} {n : SlotNo} {left : CueState} {s : State}

theorem armedIn_posted (was : left = .posted) : get (armedIn n left (parseCue slot .armed) s).pe.marks n = true ∧
    Recorded (armedIn n left (parseCue slot .armed) s) (.cueState n .posted .armed .none 0 0 none) := by
  rw [armedIn, if_neg (by simp [was]), was]
  exact ⟨by rw [cueTurns_marks, get_put_same], cueTurns_recorded ..⟩

/-- An armed cue that is put into the watch or a wait list (R62, R127). -/
theorem armedIn_slotArmed (out : n ∉ s.disp.due) (watch : List SlotNo) (waits : Vector (List SlotNo) 4) :
    SlotArmed slot n left (listed watch waits (armedIn n left (parseCue slot .armed) s)) where
  cue := ⟨_, cueOf_armedIn .., rfl, parseCue_taken slot .armed .armed .none none none⟩
  posted was := (armedIn_posted was).imp_right (·.mono (.same rfl rfl))
  due := by
    show n ∉ (armedIn ..).disp.due
    rw [armedIn_disp]
    exact out

/-- An armed cue becomes DUE, and the due list is tested (R127, R128). -/
theorem dueTest_becomeDue_slotDue (left : CueState) (start : Frame) : SlotDue slot n left s.tb.frame start
    (dueTest (becomeDue n start (armedIn n left (parseCue slot .armed) s))).1 := by
  let c := parseCue slot .armed
  let u := armedIn n left c s
  have held : cueOf u n = some c := cueOf_armedIn ..
  have now : u.tb = s.tb := (armedIn_local ..).tb
  have record : RecordsKept (cueTurns n .armed (dueCue c u.tb.frame start) u) (becomeDue n start u) := by
    simp only [becomeDue, held]
    exact .same rfl rfl
  refine SlotDue.later ⟨?_, fun was => ?_, (cueTurns_recorded ..).mono record, _, ?_,
    parseCue_taken slot .armed .due .none (some s.tb.frame) (some start), .inl rfl, rfl, rfl⟩
    (dueTest_alone n _) (dueTest_local _).records
  · simp only [becomeDue, held, cueTurns_marks, get_put_same]
  · exact (armedIn_posted was).2.mono (becomeDue_local ..).records
  · rw [cueOf_becomeDue held, if_pos rfl, now]
    rfl

/-! ### The slot is taken as posted (R126) -/

theorem takePosted_withdrawn (out : n ∉ s.disp.due) (flag : byteAt slot 0x01 ≠ 0) :
    SlotEnded slot n left .aborted .withdrawn (takePosted n slot left s) := by
  rw [takePosted, if_pos ((withdrawFlag_iff slot).mpr flag)]
  exact slotEnded_of_turn out rfl .armed

variable (flag : ¬byteAt slot 0x01 ≠ 0)

include flag

theorem takePosted_refused (out : n ∉ s.disp.due) {reason : CueReason} (why : refusal (parseCue slot .armed) = some reason) :
    SlotEnded slot n left .refused reason (takePosted n slot left s) := by
  simp only [takePosted, if_neg (flag ∘ (withdrawFlag_iff slot).mp), why]
  exact slotEnded_of_turn out rfl .armed

theorem takePosted_arms (passes : refusal (parseCue slot .armed) = none) : takePosted n slot left s =
    placeArmed n (parseCue slot .armed) (armedIn n left (parseCue slot .armed) s) := by
  simp only [takePosted, if_neg (flag ∘ (withdrawFlag_iff slot).mp), passes, armCue_eq]

end

/-! ### By its start kind (R62, R127) -/

section
variable {slot : List Byte} (n : SlotNo) (s : State)

theorem placeArmed_atOnce (kind : byteAt slot 0x03 = 0) : placeArmed n (parseCue slot .armed) s =
    (dueTest (becomeDue n s.tb.frame s)).1 := by
  have immediate : (parseCue slot .armed).kind = .immediate := congrArg startKindOfCode kind
  simp only [placeArmed, immediate]

/-- The start frame of a slot, as a cue takes it (R125; notes/assumptions/15). -/
def startOf (slot : List Byte) : Frame := BitVec.ofNat 28 (min 268435455 (le32 slot 0x04))

theorem placeArmed_atFrame (kind : byteAt slot 0x03 = 1) : placeArmed n (parseCue slot .armed) s =
    if later (startOf slot) s.tb.frame = true then
      listed (insertSlot n s.disp.watch) s.disp.waits s
    else (dueTest (becomeDue n (startOf slot) s)).1 := by
  have atFrame : (parseCue slot .armed).kind = .atFrame := congrArg startKindOfCode kind
  have start : (parseCue slot .armed).startFrame = startOf slot := congrArg (BitVec.ofNat 28) (clampTo_zero ..)
  simp only [placeArmed, atFrame, start, atOrBefore]
  cases later (startOf slot) s.tb.frame <;> rfl

theorem placeArmed_onTrigger (kind : byteAt slot 0x03 = 2) {j : Fin 4} (line : byteAt slot 0x08 = j.val) :
    placeArmed n (parseCue slot .armed) s = listed s.disp.watch (change s.disp.waits j (· ++ [n])) s := by
  have onTrigger : (parseCue slot .armed).kind = .onTrigger := congrArg startKindOfCode kind
  have own : triggerLine (parseCue slot .armed).line = j := by
    show triggerLine (byteAt slot 0x08) = j
    rw [line, triggerLine, dif_pos j.isLt]
  simp only [placeArmed, onTrigger, own]
  rfl

end

/-! ### A slot of which nothing is taken (R161, R162) -/

/-- t is s but for write-back marks that were set, and what the page engine keeps of its scans: the operation in flight, the
cue-change count seen, and the marks that call for step 3. -/
structure MarkedOnly (s t : State) : Prop where
  same : t = { s with pe := { s.pe with
    marks := t.pe.marks, op := t.pe.op, lastCueChange := t.pe.lastCueChange, runStart := t.pe.runStart
    recovery := t.pe.recovery } }
  kept : MarksKept s t

namespace MarkedOnly

variable {s t u : State}

theorem refl (s : State) : MarkedOnly s s := ⟨rfl, .refl s⟩

theorem trans (h : MarkedOnly s t) (g : MarkedOnly t u) : MarkedOnly s u :=
  ⟨by have e := g.same; rw [h.same] at e; exact e, h.kept.trans g.kept⟩

theorem disp (h : MarkedOnly s t) : t.disp = s.disp := by rw [h.same]

theorem air (h : MarkedOnly s t) : t.air = s.air := by rw [h.same]

theorem queue (h : MarkedOnly s t) : t.queue = s.queue := by rw [h.same]

theorem tb (h : MarkedOnly s t) : t.tb = s.tb := by rw [h.same]

theorem buffer (h : MarkedOnly s t) : t.pe.buffer = s.pe.buffer := by rw [h.same]

theorem control (h : MarkedOnly s t) : t.control = s.control := by rw [h.same]

theorem cueOf (h : MarkedOnly s t) (n : SlotNo) : cueOf t n = cueOf s n := by rw [Machine.cueOf, h.disp, Machine.cueOf]

theorem ctxOf (h : MarkedOnly s t) (k : CtxNo) : ctxOf t k = ctxOf s k := by rw [Machine.ctxOf, h.disp, Machine.ctxOf]

theorem records (h : MarkedOnly s t) : RecordsKept s t := .same h.buffer (by rw [h.control])

theorem nothingReported (h : MarkedOnly s t) : NothingReported s t :=
  ⟨h.buffer, by rw [h.same], h.control, by rw [h.disp], by rw [h.disp]⟩

end MarkedOnly

theorem checkSlot_markedOnly (n : SlotNo) (read : CueState) (s : State) : MarkedOnly s (checkSlot n read s) := by
  unfold checkSlot
  split
  · split
    · exact .refl s
    · refine ⟨rfl, ⟨fun i set => ?_⟩⟩
      show get (put _ _ _) i = true
      rw [get_put]
      split
      · rfl
      · exact set
  · exact .refl s

/-- A held slot calls for a write-back where the state read is not its cue's (R161). -/
theorem checkSlot_mark {n : SlotNo} {s : State} {c : Cue} (held : cueOf s n = some c) (read : CueState) :
    get (checkSlot n read s).pe.marks n = (get s.pe.marks n || decide (read ≠ c.state)) := by
  simp only [checkSlot, held]
  split
  · rename_i same
    rw [same, decide_eq_false (by simp), Bool.or_false]
  · rename_i differs
    rw [decide_eq_true (Ne.symm differs), Bool.or_true]
    exact get_put_same ..

/-! ### A slot of the table (R126, R136, R161) -/

section
variable {runStart : Bool} {table : List Byte} {s : State} {n : SlotNo}

/-- A slot that is held, and that is not taken anew as ARMED. -/
theorem handSlot_held {c : Cue} (held : cueOf s n = some c) (kept : c.state = .armed → runStart = false) :
    handSlot runStart table s n = checkSlot n (slotState (slotBytes table n))
      (if withdrawFlag (slotBytes table n) then withdrawCue n c s else s) := by
  simp only [handSlot, held]
  rw [if_neg]
  rintro ⟨first, armed⟩
  exact nomatch first.symm.trans (kept armed)

/-- A slot that is not held, not posted, and in the run-start scan neither ARMED nor on the stack. -/
theorem handSlot_unheld (unheld : cueOf s n = none) (unposted : byteAt (slotBytes table n) 0x00 ≠ 1)
    (settled : runStart = true → byteAt (slotBytes table n) 0x00 = 0 ∨ 6 ≤ byteAt (slotBytes table n) 0x00) :
    handSlot runStart table s n = s := by
  have code := code_cueStateOfCode (byteAt (slotBytes table n) 0x00)
  simp only [handSlot, unheld]
  cases runStart with
  | false =>
    split
    · rename_i posted
      rw [show cueStateOfCode (byteAt (slotBytes table n) 0x00) = .posted from posted] at code
      simp only [CueState.code] at code
      split at code <;> omega
    all_goals rfl
  | true =>
    have past := settled rfl
    split
    iterate 5
      rename_i state
      rw [slotState] at state
      rw [state] at code
      simp only [CueState.code] at code
      split at code <;> omega
    all_goals rfl

/-- A slot that calls for nothing is marked at most (R161). -/
theorem handSlot_markedOnly (nothing : CallsForNothing s table n) : MarkedOnly s (handSlot s.pe.runStart table s n) := by
  cases held : cueOf s n with
  | none =>
    rw [handSlot_unheld held nothing.unposted fun first => nothing.settled first held]
    exact .refl s
  | some c =>
    have clear : withdrawFlag (slotBytes table n) = false := by simp [withdrawFlag, nothing.flag]
    rw [handSlot_held held fun armed => ?_, clear]
    · exact checkSlot_markedOnly ..
    · rw [← Bool.not_eq_true]
      exact fun first => nothing.unarmed first c held armed

/-- A slot that is handed as posted is taken so, and a held one checked against what was read. -/
theorem handSlot_posted {left : CueState} (handed : HandedAsPosted s table n left) :
    handSlot s.pe.runStart table s n = (if (cueOf s n).isSome then
      checkSlot n (slotState (slotBytes table n)) (takePosted n (slotBytes table n) left s)
    else takePosted n (slotBytes table n) left s) := by
  rcases handed with ⟨rfl, unheld, reads⟩ | ⟨rfl, first, ⟨unheld, reads⟩ | ⟨c, held, armed⟩⟩
  · have posted : slotState (slotBytes table n) = .posted := slotState_of_code reads
    simp [handSlot, unheld, posted]
  · have armed : slotState (slotBytes table n) = .armed := slotState_of_code reads
    simp [handSlot, unheld, armed, first]
  · simp [handSlot, held, armed, first]

theorem handSlot_posted_markedOnly {left : CueState} (handed : HandedAsPosted s table n left) :
    MarkedOnly (takePosted n (slotBytes table n) left s) (handSlot s.pe.runStart table s n) := by
  rw [handSlot_posted handed]
  split
  · exact checkSlot_markedOnly ..
  · exact .refl _

/-- A slot on the stack by what the run-start scan reads, and not held, is aborted (R126; notes/assumptions/35). -/
theorem handSlot_stray {left : CueState} (unheld : cueOf s n = none) (reads : byteAt (slotBytes table n) 0x00 = left.code)
    (low : 3 ≤ byteAt (slotBytes table n) 0x00) (high : byteAt (slotBytes table n) 0x00 ≤ 5) :
    handSlot true table s n = takeStray n (slotBytes table n) left s := by
  have state : slotState (slotBytes table n) = left := slotState_of_code reads
  have stray : left = .due ∨ left = .running ∨ left = .suspended := by
    rw [reads] at low high
    cases left <;> simp_all [CueState.code]
  simp only [handSlot, unheld, state]
  rcases stray with rfl | rfl | rfl <;> rfl

end

end Sys2Proof.Machine
end

