-- ==== Sys2Proof/Proofs/Withdrawals.lean ====
section
/-! A withdraw flag that is taken for a held cue (R64, R115, R131, R136): the cue that is aborted from each state, its rows
that leave the schedule, and what its context and the display become. -/

namespace Sys2Proof.Machine

/-! ### A cue that is aborted (R138) -/

/-- The first record of a stretch of work stays the first, whatever is made after it. -/
theorem Journaled.later {s v t : State} {f : Frame} {r : Record} (h : Journaled s v f r) (kept : RecordsKept v t) :
    Journaled s t f r := by
  obtain ⟨rest, e⟩ := kept.buffer
  refine ⟨fun room => ?_, fun full => ?_⟩
  · obtain ⟨others, made⟩ := h.1 room
    exact ⟨others ++ rest, by rw [e, made, List.append_assoc, List.cons_append]⟩
  · obtain ⟨same, lost⟩ := h.2 full
    exact ⟨(kept.full (same ▸ full)).trans same, kept.flags _ lost⟩

/-- The CUE_STATE record of a change of state is the first that it makes (R138). -/
theorem cueTurns_journaled (n : SlotNo) (left : CueState) (c : Cue) (s : State) : Journaled s (cueTurns n left c s)
    s.tb.frame (.cueState n left c.state c.reason c.shown c.dropped c.start) := by
  have made : RecordsKept (journal (.cueState n left c.state c.reason c.shown c.dropped c.start) (updateCue n c s))
      (cueTurns n left c s) := by
    unfold cueTurns
    dsimp only
    split
    · exact raise_records ..
    · exact .refl _
  exact (journaled_of_kept made).of_buffer rfl

/-- The cue c as its withdraw flag leaves it, with the given rows counted as dropped (R115, R136). -/
def withdrawnCue (c : Cue) (dropped : Nat) : Cue :=
  { c with state := .aborted, reason := .withdrawn, dropped := c.dropped + dropped }

/-- The cue c of slot n has been aborted by its withdraw flag, with the given rows counted as dropped. -/
structure CueWithdrawn (n : SlotNo) (c : Cue) (dropped : Nat) (t : State) : Prop where
  cue : cueOf t n = some (withdrawnCue c dropped)
  marked : get t.pe.marks n = true
  flag : flagSet .cue t = true

theorem CueWithdrawn.fields {n : SlotNo} {c : Cue} {dropped : Nat} {t : State} (h : CueWithdrawn n c dropped t) :
    cueOf t n = some (withdrawnCue c dropped) ∧ get t.pe.marks n = true ∧ flagSet .cue t = true :=
  ⟨h.cue, h.marked, h.flag⟩

theorem CueWithdrawn.of_markedOnly {n : SlotNo} {c : Cue} {dropped : Nat} {v t : State} (h : CueWithdrawn n c dropped v)
    (marked : MarkedOnly v t) : CueWithdrawn n c dropped t :=
  ⟨(marked.cueOf n).trans h.cue, marked.kept.marks n h.marked, marked.records.flags _ h.flag⟩


theorem cueTurns_withdrawn (n : SlotNo) (left : CueState) (c : Cue) (dropped : Nat) (s : State) :
    CueWithdrawn n c dropped (cueTurns n left (withdrawnCue c dropped) s) where
  cue := by rw [cueOf_cueTurns, if_pos rfl]
  marked := by rw [cueTurns_marks, get_put_same]
  flag := cueTurns_terminal rfl ..

/-- The record of a withdrawal does not turn on the lists that the cue has left before. -/
theorem cueTurns_withdrawn_journaled (n : SlotNo) (left : CueState) (c : Cue) (d : Display) (s : State) :
    Journaled s (cueTurns n left (withdrawnCue c 0) { s with disp := d }) s.tb.frame
      (.cueState n left .aborted .withdrawn c.shown c.dropped c.start) :=
  cueTurns_journaled n left (withdrawnCue c 0) { s with disp := d }

/-! ### A cue that is not on the stack (R136) -/

section
variable {c : Cue} (n : SlotNo) (s : State)

theorem withdrawCue_armed (armed : c.state = .armed) : withdrawCue n c s = cueTurns n .armed (withdrawnCue c 0)
    { s with disp := { s.disp with
      watch := s.disp.watch.erase n, waits := Vector.ofFn (fun i => (get s.disp.waits i).erase n) } } := by
  simp only [withdrawCue, armed, abortCue]
  rfl

theorem withdrawCue_due (due : c.state = .due) : withdrawCue n c s =
    cueTurns n .due (withdrawnCue c 0) { s with disp := { s.disp with due := s.disp.due.erase n } } := by
  simp only [withdrawCue, due, abortCue]
  rfl

/-- A cue that has ended takes no withdraw flag. -/
theorem withdrawCue_ended (ended : isTerminal c.state = true) : withdrawCue n c s = s := by
  unfold withdrawCue
  split <;> first | rfl | simp_all [isTerminal]

end

/-! ### A context leaves the stack, whatever its fetch (R131, R133) -/

theorem releaseCtx_eq (k : CtxNo) (s : State) : ∃ ctx, releaseCtx k s = { s with disp := { s.disp with ctx := ctx } } := by
  unfold releaseCtx
  split
  · split <;> exact ⟨_, rfl⟩
  · exact ⟨_, rfl⟩

theorem offStack_disp (k : CtxNo) (s : State) : ∃ level pending ctx, offStack k s = { s with
    settings := { s.settings with liveLevel := level }
    disp := { s.disp with stack := s.disp.stack.erase (.ctx k), ctx := ctx, pendingLevel := pending } } := by
  obtain ⟨ctx, released⟩ := releaseCtx_eq k s
  obtain ⟨level, pending, e⟩ := applyPendingLevel_eq (withStack (s.disp.stack.erase (.ctx k)) (releaseCtx k s))
  refine ⟨level, pending, ctx, ?_⟩
  rw [offStack, e, released]
  rfl

/-- A context that leaves the stack is free, or waits for its void fetch to end (R131, R133). -/
theorem ctxOf_offStack_own {k : CtxNo} {s : State} {x : Context} (ctx : ctxOf s k = some x) :
    ctxOf (offStack k s) k = if x.fetch = .none then none else some { x with fetch := .void } := by
  obtain ⟨level, pending, e⟩ := applyPendingLevel_eq (withStack (s.disp.stack.erase (.ctx k)) (releaseCtx k s))
  rw [offStack, e]
  show ctxOf (releaseCtx k s) k = _
  simp only [releaseCtx, ctx]
  split <;> rw [ctxOf_storeCtx, if_pos rfl]

/-- With no cue due and no live stream waiting, only what is then on top acts (R131). -/
theorem leaveStack_of_noneWaits {s : State} (k : CtxNo) (due : s.disp.due = []) (settled : s.disp.place ≠ .waiting) :
    leaveStack k s = if topOwner s = some (.ctx k) then takeUpDisplay (offStack k s) else offStack k s := by
  obtain ⟨level, pending, ctx, e⟩ := offStack_disp k s
  have inserted : insertionTest (offStack k s) = (offStack k s, false) := insertionTest_of_settled (by rw [e]; exact settled)
  have tested : dueTest (offStack k s) = (offStack k s, false) := dueTest_of_noneDue (by rw [e]; exact due)
  have off : applyPendingLevel (withStack (s.disp.stack.erase (.ctx k)) (releaseCtx k s)) = offStack k s := rfl
  rw [leaveStack, off, inserted]
  simp [tested]

/-- A context with a fetch in flight or void makes no feed test. -/
theorem ctxOf_feedTest_fetching {s : State} {k : CtxNo} {x : Context} (ctx : ctxOf s k = some x) (fetch : x.fetch ≠ .none) :
    ctxOf (feedTest s) k = some x := by
  by_cases top : topOwner s = some (.ctx k)
  · cases cue : cueOf s x.slot with
    | none => simp only [feedTest, top, ctx, cue]
    | some c => rw [feedTest_of_top top ctx cue, if_neg (by simp [mayFetch, fetch]), ctx]
  · unfold feedTest
    split
    · rename_i j owner
      have other : j ≠ k := fun same => top (same ▸ owner)
      repeat' split
      · rw [ctxOf_storeCtx, if_neg other, ctx]
      all_goals exact ctx
    · exact ctx

theorem ctxOf_takeUpDisplay_fetching {s : State} {k : CtxNo} {x : Context} (ctx : ctxOf s k = some x)
    (fetch : x.fetch ≠ .none) : ctxOf (takeUpDisplay s) k = some x := by
  unfold takeUpDisplay
  split
  · rw [ctxOf, feedAttempt_disp]
    exact ctx
  · split
    · split
      · split
        · refine ctxOf_feedTest_fetching ?_ fetch
          rw [ctxOf, cueTurns_disp]
          exact ctx
        · exact ctxOf_feedTest_fetching ctx fetch
      · exact ctx
    · exact ctx
  · exact ctx

/-- What takes up the display moves rows of the live queue alone. -/
theorem takeUpDisplay_air {s : State} (queue : s.queue = []) : (takeUpDisplay s).air = s.air := by
  unfold takeUpDisplay
  split
  · rw [feedAttempt_of_nothing (.inl queue)]
  · split
    · split
      · split
        · rw [feedTest_air, cueTurns_air]
        · exact feedTest_air s
      · rfl
    · rfl
  · rfl

/-- What takes up the display leaves the stack, and a context that is free (R131). -/
theorem takeUpDisplay_leaves (k : CtxNo) (s : State) : (takeUpDisplay s).disp.stack = s.disp.stack ∧
    (ctxOf s k = none → ctxOf (takeUpDisplay s) k = none) := by
  obtain ⟨n, unheld⟩ := exists_unheld_slot s
  have held := takeUpDisplay_stackHeld k unheld
  exact ⟨held.stack, held.context⟩

/-- t is s after context k, which stood as x, has left the stack, with the cue c of slot n as s has it (R131, R133). -/
structure LeftStack (n : SlotNo) (k : CtxNo) (x : Context) (c : Cue) (s t : State) : Prop where
  stack : t.disp.stack = s.disp.stack.erase (.ctx k)
  freed : x.fetch = .none → ctxOf t k = none
  voided : x.fetch ≠ .none → ctxOf t k = some { x with fetch := .void }
  cue : cueOf t n = some c
  air : s.queue = [] → t.air.entries = s.air.entries

theorem leaveStack_leftStack {s : State} {n : SlotNo} {k : CtxNo} {x : Context} {c : Cue} (ctx : ctxOf s k = some x)
    (due : s.disp.due = []) (settled : s.disp.place ≠ .waiting) (held : cueOf s n = some c)
    (ended : c.state ≠ .suspended) : LeftStack n k x c s (leaveStack k s) := by
  have own := ctxOf_offStack_own ctx
  obtain ⟨level, pending, contexts, e⟩ := offStack_disp k s
  have cue : cueOf (offStack k s) n = some c := by rw [e]; exact held
  have left : LeftStack n k x c s (offStack k s) :=
    ⟨by rw [e], fun idle => by rw [own, if_pos idle], fun fetching => by rw [own, if_neg fetching], cue, fun _ => by rw [e]⟩
  rw [leaveStack_of_noneWaits k due settled]
  split
  · obtain ⟨stack, free⟩ := takeUpDisplay_leaves k (offStack k s)
    exact ⟨stack.trans left.stack, fun idle => free (left.freed idle),
      fun fetching => ctxOf_takeUpDisplay_fetching (left.voided fetching) (by simp), cueOf_takeUpDisplay cue ended,
      fun queue => (congrArg AirSchedule.entries (takeUpDisplay_air (by rw [e]; exact queue))).trans (left.air queue)⟩
  · exact left

/-! ### A cue on the stack (R115, R131, R136) -/

/-- The rows of slot n's cue that wait in the schedule have left it and are counted (R115). -/
def rowsWithdrawn (n : SlotNo) (s : State) : State :=
  cueRowsDropped n (s.air.entries.filter (waitsOfCue n)).length (discardCue n s)

section
variable {c : Cue} {n : SlotNo} {s : State}

theorem waitingOf_cue (n : SlotNo) (s : State) : waitingOf (isCueEntry n) s = s.air.entries.filter (waitsOfCue n) := by
  rw [waitingOf, waitsOfCue_eq]

/-- The rows that leave change of the display the cue table alone. -/
theorem rowsWithdrawn_leaves (n : SlotNo) (s : State) :
    (∃ cues, (rowsWithdrawn n s).disp = { s.disp with cues := cues }) ∧ (rowsWithdrawn n s).queue = s.queue ∧
    (rowsWithdrawn n s).air.entries = s.air.entries.filter (fun e => !waitsOfCue n e) := by
  obtain ⟨disp, _, queue, entries⟩ := discardCue_leaves n s
  unfold rowsWithdrawn cueRowsDropped
  split
  · split
    · exact ⟨⟨_, disp⟩, queue, entries⟩
    · exact ⟨⟨_, by rw [← disp]; rfl⟩, queue, entries⟩
  · exact ⟨⟨_, disp⟩, queue, entries⟩

theorem rowsWithdrawn_of_noneWaits (nothing : s.air.entries.filter (waitsOfCue n) = []) : rowsWithdrawn n s = s := by
  have discards : discardCue n s = s := by
    simp [discardCue, removeWaiting, waitingOf_cue, nothing]
  rw [rowsWithdrawn, discards, nothing]
  unfold cueRowsDropped
  split <;> rfl

/-- The first of the rows that leave is the first journaled (R115). -/
theorem rowsWithdrawn_journaled {e : Entry} {more : List Entry} (waiting : s.air.entries.filter (waitsOfCue n) = e :: more) :
    Journaled s (rowsWithdrawn n s) s.tb.frame
      (.rowDropped e.row .withdrawn (some e.ideal) (some e.showAt) (e.showAt - e.ideal).toNat) := by
  refine journaled_of_kept ?_
  have others : Local (journalWithdrawn s e) (more.foldl journalWithdrawn (journalWithdrawn s e)) :=
    .foldl (fun s e => journal_local _ s) more _
  rw [rowsWithdrawn, discardCue, waitingOf_cue, waiting]
  exact ((others.trans (removeWaiting_local ..)).trans (cueRowsDropped_local ..)).records

/-- The cue of slot n in context k is aborted by its withdraw flag and leaves the stack. -/
theorem endCue_withdrawn {k : CtxNo} {x : Context} (ctx : ctxOf s k = some x) (due : s.disp.due = [])
    (settled : s.disp.place ≠ .waiting) (dropped : Nat) :
    let t := endCue n k { c with dropped := c.dropped + dropped } s .aborted .withdrawn
    CueWithdrawn n c dropped t ∧
    LeftStack n k x (withdrawnCue c dropped) s t ∧
    Journaled s t s.tb.frame (.cueState n c.state .aborted .withdrawn c.shown (c.dropped + dropped) c.start) := by
  let p := cueTurns n c.state (withdrawnCue c dropped) s
  have turned : CueWithdrawn n c dropped p := cueTurns_withdrawn ..
  have disp : p.disp = { s.disp with cues := put s.disp.cues n (some (withdrawnCue c dropped)) } :=
    cueTurns_disp ..
  have left : LeftStack n k x (withdrawnCue c dropped) p (leaveStack k p) :=
    leaveStack_leftStack (by rw [ctxOf, disp]; exact ctx) (by rw [disp]; exact due) (by rw [disp]; exact settled)
      turned.cue (by simp [withdrawnCue])
  have records : RecordsKept p (leaveStack k p) := (leaveStack_local k p).records
  refine ⟨⟨left.cue, (leaveStack_marksKept k p).marks n turned.marked, records.flags _ turned.flag⟩,
    ⟨left.stack.trans (by rw [disp]), left.freed, left.voided, left.cue, fun queue => ?_⟩,
    (cueTurns_journaled ..).later records⟩
  exact (left.air ((cueTurns_queue ..).trans queue)).trans (congrArg AirSchedule.entries (cueTurns_air ..))

/-- A cue that alone holds context k, in the stack. -/
structure Stacked (n : SlotNo) (k : CtxNo) (x : Context) (s : State) : Prop where
  context : ctxOf s k = some x
  own : x.slot = n
  stacked : .ctx k ∈ s.disp.stack
  alone : ∀ j y, ctxOf s j = some y → y.slot = n → j = k

theorem withdrawCue_suspended {k : CtxNo} {x : Context} (suspended : c.state = .suspended) (stacked : Stacked n k x s) :
    withdrawCue n c s = endCue n k c s .aborted .withdrawn := by
  simp only [withdrawCue, suspended, stackedCtx_some stacked.stacked stacked.context stacked.own stacked.alone]

theorem withdrawCue_running {k : CtxNo} {x : Context} (running : c.state = .running) (stacked : Stacked n k x s) :
    withdrawCue n c s = endCue n k { c with dropped := c.dropped + (s.air.entries.filter (waitsOfCue n)).length }
      (rowsWithdrawn n s) .aborted .withdrawn := by
  obtain ⟨⟨cues, disp⟩, _⟩ := rowsWithdrawn_leaves n s
  obtain ⟨context, own, listed, alone⟩ := stacked
  have same (j : CtxNo) : ctxOf (rowsWithdrawn n s) j = ctxOf s j := by rw [ctxOf, disp, ctxOf]
  have found : stackedCtx n (rowsWithdrawn n s) = some k :=
    stackedCtx_some (by rw [disp]; exact listed) ((same k).trans context) own
      fun j y held => alone j y ((same j).symm.trans held)
  rw [rowsWithdrawn] at found
  simp only [withdrawCue, running, waitingOf_cue, found, rowsWithdrawn]

/-- t is s after the withdraw flag of the cue c of slot n, in context k of the stack, which stood as x: the cue is aborted
and off the stack, its rows that wait in the schedule are counted and journaled, and what is below takes up the display. -/
structure OffStage (n : SlotNo) (k : CtxNo) (x : Context) (c : Cue) (s t : State) : Prop where
  stack : t.disp.stack = s.disp.stack.erase (.ctx k)
  freed : x.fetch = .none → ctxOf t k = none
  voided : x.fetch ≠ .none → ctxOf t k = some { x with fetch := .void }
  cue : CueWithdrawn n c (if c.state = .running then (s.air.entries.filter (waitsOfCue n)).length else 0) t
  entries : s.queue = [] → t.air.entries =
    if c.state = .running then s.air.entries.filter (fun e => !waitsOfCue n e) else s.air.entries
  record : c.state = .suspended ∨ s.air.entries.filter (waitsOfCue n) = [] →
    Journaled s t s.tb.frame (.cueState n c.state .aborted .withdrawn c.shown c.dropped c.start)
  rows : c.state = .running → ∀ e more, s.air.entries.filter (waitsOfCue n) = e :: more → Journaled s t s.tb.frame
    (.rowDropped e.row .withdrawn (some e.ideal) (some e.showAt) (e.showAt - e.ideal).toNat)

theorem withdrawCue_offStage {k : CtxNo} {x : Context} (onStack : c.state = .running ∨ c.state = .suspended)
    (stacked : Stacked n k x s) (due : s.disp.due = []) (settled : s.disp.place ≠ .waiting) :
    OffStage n k x c s (withdrawCue n c s) := by
  rcases onStack with running | suspended
  · obtain ⟨⟨cues, disp⟩, queue, entries⟩ := rowsWithdrawn_leaves n s
    let rows := (s.air.entries.filter (waitsOfCue n)).length
    obtain ⟨cue, left, record⟩ := endCue_withdrawn (s := rowsWithdrawn n s) (n := n) (c := c) (k := k) (x := x)
      (by rw [ctxOf, disp]; exact stacked.context) (by rw [disp]; exact due) (by rw [disp]; exact settled) rows
    rw [withdrawCue_running running stacked]
    refine ⟨left.stack.trans (by rw [disp]), left.freed, left.voided, by rw [if_pos running]; exact cue, fun empty => ?_,
      fun bare => ?_, fun _ e more waiting => ?_⟩
    · rw [if_pos running, left.air (queue.trans empty), entries]
    · have nothing := bare.resolve_left (by simp [running])
      have still := rowsWithdrawn_of_noneWaits nothing
      simp only [rows, still, nothing] at record
      simp only [still, nothing]
      exact record
    · exact (rowsWithdrawn_journaled waiting).later ((endCue_local ..).records)
  · obtain ⟨cue, left, record⟩ := endCue_withdrawn (n := n) (c := c) stacked.context due settled 0
    have still : ¬c.state = .running := by simp [suspended]
    rw [withdrawCue_suspended suspended stacked]
    exact ⟨left.stack, left.freed, left.voided, by rw [if_neg still]; exact cue,
      fun empty => by rw [if_neg still]; exact left.air empty, fun _ => record, fun running => absurd running still⟩

end

end Sys2Proof.Machine
end

