-- ==== Sys2Proof/Proofs/CueTables.lean ====
section
/-! Step 3 of a scan (R126, R127, R136, R161): every slot of the cue table is handed in turn, and what becomes of one of them
with the slots before it and behind it taken as what they leave of it. -/

namespace Sys2Proof.Machine

/-! ### The table, slot by slot (R161) -/

/-- Step 3 is complete: every slot has been handed, the marks that called for the step are clear, and the first write is
issued (R155, R161). -/
def tableTaken (g c : Word32) (table : List Byte) (a : State) : State :=
  startSlots 0 false g c (clearScanMarks (handTable table (seeCueChange c a)))

theorem tableTaken_op (g c : Word32) (table : List Byte) (a : State) :
    ∃ op, tableTaken g c table a = withOp op (clearScanMarks (handTable table (seeCueChange c a))) := startSlots_op ..

/-- CUE_TABLE_READ_COMPLETE takes the table in the state that it finds (R161). -/
theorem exec_cueTableReadComplete {m : Moment} {s a : State} {g c : Word32} {since : Nat} (finds : Finds m s a)
    (reading : a.pe.op = some (.pass false .cueTable g c since)) (table : List Byte) :
    exec (.cueTableReadComplete m table) s = .next (tableTaken g c table a) := by
  refine (congrArg Host.Outcome.next (event_of_finds finds (cueTableRead table))).trans ?_
  simp only [cueTableRead, reading, tableTaken]

/-- What step 3 leaves of host memory, TB, LA and OE, and of the count and the marks that call for it (R155, R161). -/
theorem tableTaken_leaves (g c : Word32) (table : List Byte) (a : State) :
    let t := tableTaken g c table a
    t.pe.lastCueChange = c ∧ t.pe.runStart = false ∧ t.pe.recovery = false ∧ WriteIssued 0 false g c t ∧ t.mem = a.mem ∧
    t.tb = a.tb ∧ t.la = a.la ∧ t.out = a.out := by
  have issued : WriteIssued 0 false g c (tableTaken g c table a) := startSlots_issues ..
  have handed := handTable_local table (seeCueChange c a)
  obtain ⟨op, e⟩ := tableTaken_op g c table a
  generalize handTable table (seeCueChange c a) = z at handed e
  refine ⟨?_, ?_, ?_, issued, ?_⟩ <;> rw [e]
  · exact (congrArg PageEngine.lastCueChange handed.engine :)
  · rfl
  · rfl
  · exact ⟨handed.mem, handed.tb, handed.la, handed.out⟩

/-! ### Slots that call for nothing -/

/-- A slot that calls for nothing goes on doing so, whatever is done for the others. -/
theorem CallsForNothing.of_alone {s t : State} {table : List Byte} {i : SlotNo} (h : CallsForNothing s table i)
    (alone : SlotAlone i s t) (runStart : t.pe.runStart = s.pe.runStart) : CallsForNothing t table i where
  flag := h.flag
  unposted := h.unposted
  unarmed first c held armed := by
    rw [runStart] at first
    cases was : cueOf s i with
    | none => exact nomatch (alone.absent was).symm.trans held
    | some d =>
      obtain ⟨st, turned, how⟩ := alone.turned d was
      obtain rfl : { d with state := st } = c := Option.some.inj (turned.symm.trans held)
      rcases how with same | running | suspended
      · exact h.unarmed first d was (same ▸ armed)
      · exact nomatch running.symm.trans armed
      · exact nomatch suspended.symm.trans armed
  settled first unheld := by
    rw [runStart] at first
    cases was : cueOf s i with
    | none => exact h.settled first was
    | some d =>
      obtain ⟨st, turned, _⟩ := alone.turned d was
      exact nomatch turned.symm.trans unheld

theorem CallsForNothing.of_same {s t : State} {table : List Byte} {i : SlotNo} (h : CallsForNothing s table i)
    (cue : cueOf t i = cueOf s i) (runStart : t.pe.runStart = s.pe.runStart) : CallsForNothing t table i :=
  ⟨h.flag, h.unposted, by rw [cue, runStart]; exact h.unarmed, by rw [cue, runStart]; exact h.settled⟩

theorem handSlot_runStart (b : Bool) (table : List Byte) (s : State) (n : SlotNo) :
    (handSlot b table s n).pe.runStart = s.pe.runStart :=
  (congrArg PageEngine.runStart (handSlot_local b table s n).engine :)

/-- Slots that all call for nothing are marked at most. -/
theorem foldl_handSlot_markedOnly {table : List Byte} {l : List SlotNo} {s : State} (nodup : l.Nodup)
    (nothing : ∀ i ∈ l, CallsForNothing s table i) : MarkedOnly s (l.foldl (handSlot s.pe.runStart table) s) := by
  induction l generalizing s with
  | nil => exact .refl s
  | cons i rest ih =>
    obtain ⟨first, others⟩ := List.forall_mem_cons.mp nothing
    obtain ⟨apart, nodup⟩ := List.nodup_cons.mp nodup
    have same := handSlot_runStart s.pe.runStart table s i
    have behind := ih nodup (s := handSlot s.pe.runStart table s i) fun j listed =>
      (others j listed).of_alone (handSlot_alone (by rintro rfl; exact apart listed) ..) same
    rw [same] at behind
    exact (handSlot_markedOnly first).trans behind

/-! ### One slot among the others -/

/-- On the way from a to t, through step 3, slot n is handed in the state u: what comes before and after leaves the slot
alone, and marks slots at most where the others call for nothing. -/
structure SlotHanded (table : List Byte) (n : SlotNo) (a u t : State) : Prop where
  runStart : u.pe.runStart = a.pe.runStart
  tb : u.tb = a.tb
  before : SlotAlone n a u
  after : SlotAlone n (handSlot a.pe.runStart table u n) t
  records : RecordsKept (handSlot a.pe.runStart table u n) t
  others : (∀ i, i ≠ n → CallsForNothing a table i) →
    MarkedOnly a u ∧ MarkedOnly (handSlot a.pe.runStart table u n) t

theorem tableTaken_handed (g c : Word32) (table : List Byte) (a : State) (n : SlotNo) :
    ∃ u, SlotHanded table n a u (tableTaken g c table a) := by
  obtain ⟨front, back, split⟩ := List.append_of_mem (List.mem_finRange n)
  have nodup : (front ++ n :: back).Nodup := split ▸ List.nodup_finRange 64
  obtain ⟨frontNodup, backNodup, apart⟩ := List.nodup_append.mp nodup
  obtain ⟨outBack, backNodup⟩ := List.nodup_cons.mp backNodup
  have notFront (i : SlotNo) (listed : i ∈ front) : i ≠ n := apart i listed n List.mem_cons_self
  have notBack (i : SlotNo) (listed : i ∈ back) : i ≠ n := fun same => outBack (same ▸ listed)
  let b := seeCueChange c a
  let hand := handSlot a.pe.runStart table
  let u := front.foldl hand b
  let w := hand u n
  have handed : handTable table b = back.foldl hand w := by
    show allSlots.foldl hand b = _
    rw [allSlots, split, List.foldl_append, List.foldl_cons]
  have seen : SlotAlone n a b := .of_eq rfl rfl rfl rfl rfl
  have ahead : Local b u := .foldl (handSlot_local _ table) front b
  have runStart : u.pe.runStart = a.pe.runStart := (congrArg PageEngine.runStart ahead.engine :)
  obtain ⟨op, e⟩ := tableTaken_op g c table a
  have done : SlotAlone n (back.foldl hand w) (tableTaken g c table a) := by
    rw [e, handed]
    exact .of_eq rfl rfl rfl rfl rfl
  have kept : RecordsKept (back.foldl hand w) (tableTaken g c table a) := by
    rw [e, handed]
    exact .same rfl rfl
  refine ⟨u, runStart, ahead.tb, ?_, ?_, ?_, fun nothing => ?_⟩
  · exact seen.trans (.foldl front (fun i listed s => handSlot_alone (notFront i listed) _ table s) b)
  · exact (SlotAlone.foldl back (fun i listed s => handSlot_alone (notBack i listed) _ table s) w).trans done
  · exact (Local.foldl (handSlot_local _ table) back w).records.trans kept
  · have first : MarkedOnly b u := foldl_handSlot_markedOnly frontNodup fun i listed =>
      (nothing i (notFront i listed)).of_same rfl rfl
    have second : MarkedOnly w (back.foldl hand w) := by
      have same : w.pe.runStart = a.pe.runStart := (handSlot_runStart ..).trans runStart
      have behind := foldl_handSlot_markedOnly (s := w) (table := table) backNodup fun i listed =>
        ((nothing i (notBack i listed)).of_same (first.cueOf i) runStart).of_alone
          (handSlot_alone (Ne.symm (notBack i listed)) ..) (same.trans runStart.symm)
      rwa [same] at behind
    have seen : MarkedOnly a b := ⟨rfl, .of_eq rfl⟩
    refine ⟨seen.trans first, second.trans ?_⟩
    rw [e, handed]
    exact ⟨rfl, .of_eq rfl⟩

end Sys2Proof.Machine
end

