-- ==== Sys2Proof/Proofs/CueTableOutcomes.lean ====
section
/-! What step 3 makes of one slot of the cue table (R126, R127, R136, R161): one that is handed as posted or found on the
stack, and one whose held cue is withdrawn while the other slots call for nothing. -/

namespace Sys2Proof.Machine

/-! ### A slot that is handed as posted (R126, R127) -/

theorem resting_of_unheld {n : SlotNo} {a : State} (out : n ∉ a.disp.due) (unheld : cueOf a n = none) : Resting n a where
  due := out
  state _ held := nomatch unheld.symm.trans held

theorem resting_of_posted {table : List Byte} {n : SlotNo} {a : State} {left : CueState}
    (out : n ∉ a.disp.due) (posted : HandedAsPosted a table n left) :
    Resting n a where
  due := out
  state c held := by
    rcases posted with ⟨_, unheld, _⟩ | ⟨_, _, ⟨unheld, _⟩ | ⟨d, same, armed⟩⟩
    · exact nomatch unheld.symm.trans held
    · exact nomatch unheld.symm.trans held
    · obtain rfl : d = c := Option.some.inj (same.symm.trans held)
      simp [armed]

/-- The cue taken from slot n waits for its start frame or its trigger; where its slot was left ARMED that makes no record,
and calls for a write-back only where the slot was not held or the state read differs (R162; notes/assumptions/19). -/
structure SlotWaits (a : State) (table : List Byte) (n : SlotNo) (left : CueState) (t : State) : Prop extends
    SlotArmed (slotBytes table n) n left t where
  marks : left = .armed → get t.pe.marks n =
    ((cueOf a n).isNone || get a.pe.marks n || decide (byteAt (slotBytes table n) 0x00 ≠ 2))
  still : left = .armed → (∀ i, i ≠ n → CallsForNothing a table i) → NothingReported a t

theorem SlotWaits.fields {a : State} {table : List Byte} {n : SlotNo} {left : CueState} {t : State}
    (h : SlotWaits a table n left t) :
    (∃ c, cueOf t n = some c ∧ c.state = .armed ∧ CueTaken (slotBytes table n) c) ∧
    (left = .posted → get t.pe.marks n = true ∧ Recorded t (.cueState n .posted .armed .none 0 0 none)) ∧
    (left = .armed → get t.pe.marks n =
      ((cueOf a n).isNone || get a.pe.marks n || decide (byteAt (slotBytes table n) 0x00 ≠ 2))) ∧
    (left = .armed → (∀ i, i ≠ n → CallsForNothing a table i) → t.pe.buffer = a.pe.buffer ∧ t.pe.lost = a.pe.lost ∧
      t.control = a.control ∧ t.disp.due = a.disp.due ∧ t.disp.stack = a.disp.stack) :=
  ⟨h.cue, h.posted, h.marks, fun was nothing => (h.still was nothing).fields⟩

section
variable {table : List Byte} {n : SlotNo} {a u t : State} (h : SlotHanded table n a u t) (out : n ∉ a.disp.due)

include h

/-- A cue that has ended as its slot was handed is so at the end of the step. -/
theorem SlotHanded.ended {slot : List Byte} {left entered : CueState} {reason : CueReason}
    (now : SlotEnded slot n left entered reason (handSlot a.pe.runStart table u n)) (ends : isTerminal entered = true) :
    SlotEnded slot n left entered reason t :=
  now.mono (h.after.rests (now.resting ends)).1 h.after.marked h.records h.after.due

include out

/-- The slots before it leave a slot handed as posted. -/
theorem SlotHanded.posted {left : CueState} (posted : HandedAsPosted a table n left) :
    HandedAsPosted u table n left ∧ cueOf u n = cueOf a n ∧ get u.pe.marks n = get a.pe.marks n ∧ n ∉ u.disp.due := by
  obtain ⟨cue, mark⟩ := h.before.rests (resting_of_posted out posted)
  refine ⟨?_, cue, mark, h.before.due out⟩
  rw [HandedAsPosted, cue, h.runStart]
  exact posted

section
variable {left : CueState} (posted : HandedAsPosted a table n left)

include posted

/-- The slot is taken as posted, and then marked at most. -/
theorem SlotHanded.taken :
    MarkedOnly (takePosted n (slotBytes table n) left u) (handSlot a.pe.runStart table u n) := by
  rw [← h.runStart]
  exact handSlot_posted_markedOnly (h.posted out posted).1

theorem SlotHanded.posted_ended {entered : CueState} {reason : CueReason} (ends : isTerminal entered = true)
    (taken : SlotEnded (slotBytes table n) n left entered reason (takePosted n (slotBytes table n) left u)) :
    SlotEnded (slotBytes table n) n left entered reason t := by
  have marked := h.taken out posted
  exact h.ended (taken.mono (marked.cueOf n) (marked.kept.marks n) marked.records (by rw [marked.disp]; exact id)) ends

theorem SlotHanded.posted_due {start : Frame}
    (taken : SlotDue (slotBytes table n) n left a.tb.frame start (takePosted n (slotBytes table n) left u)) :
    SlotDue (slotBytes table n) n left a.tb.frame start t := by
  have marked := h.taken out posted
  exact (taken.of_marked (marked.cueOf n) (marked.kept.marks n) marked.records).later h.after h.records

/-- A cue that arms and is put into the watch or a wait list is there at the end of the step. -/
theorem SlotHanded.posted_armed {watch : List SlotNo} {waits : Vector (List SlotNo) 4}
    (taken : takePosted n (slotBytes table n) left u =
      listed watch waits (armedIn n left (parseCue (slotBytes table n) .armed) u)) :
    SlotWaits a table n left t ∧
    (n ∈ watch → n ∈ t.disp.watch) ∧ ∀ j, n ∈ get waits j → n ∈ get t.disp.waits j := by
  obtain ⟨handed, cue, mark, away⟩ := h.posted out posted
  have marked := h.taken out posted
  have exactly := handSlot_posted handed
  rw [h.runStart] at exactly
  have armed : SlotArmed (slotBytes table n) n left (takePosted n (slotBytes table n) left u) :=
    taken ▸ armedIn_slotArmed away watch waits
  have now : SlotArmed (slotBytes table n) n left (handSlot a.pe.runStart table u n) :=
    armed.mono (marked.cueOf n) (marked.kept.marks n) marked.records (by rw [marked.disp]; exact id)
  obtain ⟨same, still⟩ := h.after.rests now.resting
  refine ⟨⟨now.mono same h.after.marked h.records h.after.due, fun was => ?_, fun was nothing => ?_⟩, fun here => ?_,
    fun j here => ?_⟩
  · have before : get (takePosted n (slotBytes table n) left u).pe.marks n =
        ((cueOf a n).isNone || get a.pe.marks n) := by
      rw [taken, ← cue, ← mark, was]
      exact armedIn_armed_marks ..
    rw [still, exactly, cue]
    cases held : cueOf a n with
    | none =>
      rw [held] at before
      simpa using before
    | some d =>
      obtain ⟨c, own, state, _⟩ := armed.cue
      rw [held] at before
      rw [if_pos (show (some d).isSome = true from rfl), checkSlot_mark own, before, state]
      simp [slotState, cueStateOfCode_armed_iff]
  · obtain ⟨first, last⟩ := h.others nothing
    have placed : NothingReported u (takePosted n (slotBytes table n) left u) := by
      rw [taken, was]
      exact (armedIn_armed_nothingReported ..).trans ⟨rfl, rfl, rfl, rfl, rfl⟩
    exact ((first.nothingReported.trans placed).trans marked.nothingReported).trans last.nothingReported
  · exact h.after.watch (by rw [marked.disp, taken]; exact here)
  · exact h.after.waits j (by rw [marked.disp, taken]; exact here)

/-! ### By its start kind (R62, R127) -/

variable (clear : ¬byteAt (slotBytes table n) 0x01 ≠ 0) (passes : refusal (parseCue (slotBytes table n) .armed) = none)

include clear passes

theorem SlotHanded.watched (kind : byteAt (slotBytes table n) 0x03 = 1)
    (waits : later (startOf (slotBytes table n)) a.tb.frame = true) :
    SlotWaits a table n left t ∧ n ∈ t.disp.watch := by
  have taken := (takePosted_arms clear passes (n := n) (left := left) (s := u)).trans (placeArmed_atFrame n _ kind)
  rw [(armedIn_local ..).tb, h.tb, if_pos waits] at taken
  obtain ⟨armed, listed, _⟩ := h.posted_armed out posted taken
  exact ⟨armed, listed ((mem_insertSlot ..).mpr (.inl rfl))⟩

theorem SlotHanded.waited (kind : byteAt (slotBytes table n) 0x03 = 2) {j : Fin 4}
    (line : byteAt (slotBytes table n) 0x08 = j.val) : SlotWaits a table n left t ∧ n ∈ get t.disp.waits j := by
  have taken := (takePosted_arms clear passes (n := n) (left := left) (s := u)).trans (placeArmed_onTrigger n _ kind line)
  obtain ⟨armed, _, listed⟩ := h.posted_armed out posted taken
  refine ⟨armed, listed j ?_⟩
  rw [get_change, if_pos rfl]
  exact List.mem_append_right _ (List.mem_singleton_self n)

theorem SlotHanded.due_atFrame (kind : byteAt (slotBytes table n) 0x03 = 1)
    (reached : later (startOf (slotBytes table n)) a.tb.frame = false) :
    SlotDue (slotBytes table n) n left a.tb.frame (startOf (slotBytes table n)) t := by
  have taken := (takePosted_arms clear passes (n := n) (left := left) (s := u)).trans (placeArmed_atFrame n _ kind)
  rw [(armedIn_local ..).tb, h.tb, if_neg (Bool.eq_false_iff.mp reached)] at taken
  refine h.posted_due out posted ?_
  rw [taken, ← h.tb]
  exact dueTest_becomeDue_slotDue ..

theorem SlotHanded.due_atOnce (kind : byteAt (slotBytes table n) 0x03 = 0) :
    SlotDue (slotBytes table n) n left a.tb.frame a.tb.frame t := by
  have taken := (takePosted_arms clear passes (n := n) (left := left) (s := u)).trans (placeArmed_atOnce n _ kind)
  refine h.posted_due out posted ?_
  rw [taken, (armedIn_local ..).tb, ← h.tb]
  exact dueTest_becomeDue_slotDue ..

end

/-! ### A slot that is not held, and not posted (R126) -/

variable (unheld : cueOf a n = none)

include unheld

theorem SlotHanded.stray {left : CueState} (first : a.pe.runStart = true)
    (reads : byteAt (slotBytes table n) 0x00 = left.code) (low : 3 ≤ byteAt (slotBytes table n) 0x00)
    (high : byteAt (slotBytes table n) 0x00 ≤ 5) : SlotEnded (slotBytes table n) n left .aborted .reset t := by
  refine h.ended ?_ rfl
  rw [first, handSlot_stray (h.before.absent unheld) reads low high]
  exact slotEnded_of_turn (h.before.due out) rfl .aborted

theorem SlotHanded.settled (reads : byteAt (slotBytes table n) 0x00 = 0 ∨ 6 ≤ byteAt (slotBytes table n) 0x00) :
    cueOf t n = none ∧ get t.pe.marks n = get a.pe.marks n := by
  have rest := resting_of_unheld out unheld
  have same : handSlot a.pe.runStart table u n = u := handSlot_unheld (h.before.absent unheld) (by omega) fun _ => reads
  have after := h.after
  rw [same] at after
  obtain ⟨cue, mark⟩ := (h.before.trans after).rests rest
  exact ⟨cue.trans unheld, mark⟩

end

/-! ### A held cue that is withdrawn (R136) -/

section
variable {table : List Byte} {n : SlotNo} {a u t : State} {c : Cue} (h : SlotHanded table n a u t)
  (held : cueOf a n = some c) (kept : c.state = .armed → a.pe.runStart = false)
  (flag : byteAt (slotBytes table n) 0x01 ≠ 0) (nothing : ∀ i, i ≠ n → CallsForNothing a table i)

include h held kept flag nothing

/-- The withdraw flag is all that step 3 takes, in a state that differs from the one before by marks alone. -/
theorem SlotHanded.withdrawn : MarkedOnly a u ∧ MarkedOnly (withdrawCue n c u) t := by
  obtain ⟨first, last⟩ := h.others nothing
  refine ⟨first, MarkedOnly.trans ?_ last⟩
  rw [handSlot_held ((first.cueOf n).trans held) kept, if_pos ((withdrawFlag_iff _).mpr flag)]
  exact checkSlot_markedOnly ..

end

/-- What has been journaled since u has been since a, and is at t. -/
theorem Journaled.between {a u v t : State} {r : Record} (made : Journaled u v u.tb.frame r) (before : MarkedOnly a u)
    (after : MarkedOnly v t) : Journaled a t a.tb.frame r := by
  rw [← before.tb]
  exact (made.of_buffer before.buffer).later after.records

theorem Stacked.of_disp {n : SlotNo} {k : CtxNo} {x : Context} {s t : State} (h : Stacked n k x s) (disp : t.disp = s.disp) :
    Stacked n k x t :=
  ⟨by rw [ctxOf, disp]; exact h.context, h.own, by rw [disp]; exact h.stacked,
    fun j y held => h.alone j y (by rwa [ctxOf, disp] at held)⟩

/-- What OffStage says reads of the states neither marks nor what the page engine keeps of its scans. -/
theorem OffStage.between {n : SlotNo} {k : CtxNo} {x : Context} {c : Cue} {a u v t : State} (h : OffStage n k x c u v)
    (before : MarkedOnly a u) (after : MarkedOnly v t) : OffStage n k x c a t := by
  obtain ⟨stack, freed, voided, cue, entries, record, rows⟩ := h
  rw [before.disp] at stack
  rw [before.air] at cue entries record rows
  rw [before.queue] at entries
  refine ⟨by rw [after.disp]; exact stack, fun idle => (after.ctxOf k).trans (freed idle),
    fun fetching => (after.ctxOf k).trans (voided fetching), cue.of_markedOnly after, fun empty => ?_,
    fun bare => (record bare).between before after,
    fun running e more waiting => (rows running e more waiting).between before after⟩
  rw [after.air]
  exact entries empty

/-! ### The step -/

/-- Settles O48: a slot is taken as the slots before and after it leave it, and a withdrawal as marks alone leave it. -/
theorem cueTableRefusesOrArmsPostedSlots : Obligations.CueTableRefusesOrArmsPostedSlots := by
  refine ⟨fun m table s a g c since n finds reading out _ => ?_,
    fun m table s a g c since n cue finds reading held kept flag nothing => ?_⟩
  · obtain ⟨seen, runStart, recovery, issued, mem, tb, la, _⟩ := tableTaken_leaves g c table a
    obtain ⟨u, h⟩ := tableTaken_handed g c table a n
    refine ⟨_, exec_cueTableReadComplete finds reading table, seen, runStart, recovery, issued, mem, tb, la,
      fun left posted => ?_, fun left unheld first reads low high => ?_, fun unheld reads => h.settled out unheld reads⟩
    · obtain ⟨_, _, _, away⟩ := h.posted out posted
      refine ⟨fun flag => (h.posted_ended out posted rfl (takePosted_withdrawn away flag)).fields, fun clear => ?_⟩
      have refused {reason : CueReason} (why : refusal (parseCue (slotBytes table n) .armed) = some reason) :=
        (h.posted_ended out posted rfl (takePosted_refused clear away why)).fields
      refine ⟨fun level => refused (refusal_level level), fun low high rows => refused (refusal_rows low high rows),
        fun ⟨low, high, rows⟩ kind line => refused (refusal_line low high rows kind line),
        fun ⟨low, high, rows⟩ kind => refused (refusal_kind low high rows kind),
        fun ⟨low, high, rows⟩ kind waits => ?_, fun ⟨low, high, rows⟩ kind reached => ?_,
        fun ⟨low, high, rows⟩ kind => ?_, fun j ⟨low, high, rows⟩ kind line => ?_⟩
      · have passes := refusal_none low high rows (.inr (.inl kind))
        exact (h.watched out posted clear passes kind waits).imp_left (·.fields)
      · have passes := refusal_none low high rows (.inr (.inl kind))
        exact (h.due_atFrame out posted clear passes kind reached).fields
      · have passes := refusal_none low high rows (.inl kind)
        exact (h.due_atOnce out posted clear passes kind).fields
      · have passes := refusal_none low high rows (.inr (.inr ⟨kind, by omega⟩))
        exact (h.waited out posted clear passes kind line).imp_left (·.fields)
    · exact (h.stray out unheld first reads low high).fields
  · obtain ⟨_, _, _, issued, mem, tb, la, sent⟩ := tableTaken_leaves g c table a
    obtain ⟨u, h⟩ := tableTaken_handed g c table a n
    obtain ⟨before, after⟩ := h.withdrawn held kept flag nothing
    refine ⟨_, exec_cueTableReadComplete finds reading table, issued, mem, tb, la, sent, fun armed => ?_, fun due => ?_,
      fun onStack k x ctx own stacked alone due settled => ?_, fun ended => ?_⟩
    · rw [withdrawCue_armed n u armed] at after
      have disp := after.disp.trans (cueTurns_disp ..)
      rw [armed]
      refine ⟨((cueTurns_withdrawn ..).of_markedOnly after).fields, ?_, fun j => ?_, ?_, ?_,
        (cueTurns_withdrawn_journaled ..).between before after⟩ <;>
        rw [disp, ← before.disp]
      exact get_ofFn ..
    · rw [withdrawCue_due n u due] at after
      have disp := after.disp.trans (cueTurns_disp ..)
      rw [due]
      refine ⟨((cueTurns_withdrawn ..).of_markedOnly after).fields, ?_, ?_,
        (cueTurns_withdrawn_journaled ..).between before after⟩ <;>
        rw [disp, ← before.disp]
    · obtain ⟨stack, freed, voided, counted, entries, record, rows⟩ :=
        (withdrawCue_offStage onStack (Stacked.of_disp ⟨ctx, own, stacked, alone⟩ before.disp)
          (by rw [before.disp]; exact due) (by rw [before.disp]; exact settled)).between before after
      refine ⟨stack, freed, voided, fun suspended => ?_, fun running => ?_⟩
      · rw [if_neg (by simp [suspended])] at counted
        exact ⟨counted.fields, record (.inl suspended), fun empty => by rw [entries empty, if_neg (by simp [suspended])]⟩
      · rw [if_pos running] at counted
        exact ⟨counted.fields, fun empty => by rw [entries empty, if_pos running], fun bare => record (.inr bare),
          rows running⟩
    · rw [withdrawCue_ended n u (by rcases ended with e | e | e | e <;> rw [e] <;> rfl)] at after
      exact (after.cueOf n).trans ((before.cueOf n).trans held)

end Sys2Proof.Machine
end

