-- ==== Sys2Proof/Proofs/SlotUnits.lean ====
section
/-! The units of a slot and its levels on the caption output line (R141 to R145, R151, R187): how many units staging has and
which they are, read off the relation Stages, and the command unit before them. -/

namespace Sys2Proof.Machine

/-! ### The units of staging (R143, R144) -/

/-- Two splits of a list, each before its first item of a kind, are the same. -/
theorem first_unique {α : Type} {p : α → Prop} {front front' back back' : List α} {a b : α}
    (same : front ++ a :: back = front' ++ b :: back') (others : ∀ x ∈ front, ¬p x) (others' : ∀ x ∈ front', ¬p x)
    (own : p a) (own' : p b) : front = front' ∧ a = b := by
  induction front generalizing front' with
  | nil =>
    cases front' with
    | nil => exact ⟨rfl, (List.cons.inj same).1⟩
    | cons y ys => exact absurd ((List.cons.inj same).1 ▸ own) (others' y (by simp))
  | cons x xs ih =>
    cases front' with
    | nil => exact absurd ((List.cons.inj same).1 ▸ own') (others x (by simp))
    | cons y ys =>
      obtain ⟨rfl, tails⟩ := List.cons.inj same
      obtain ⟨rfl, rfl⟩ := ih tails (fun z m => others z (by simp [m])) (fun z m => others' z (by simp [m]))
      exact ⟨rfl, rfl⟩

section
variable {frame : Frame} {mirror : List MirrorRow} {budget : Nat} {p q : Staging} {units : List Byte}

/-- Staging keeps within its budget (R143, R145). -/
theorem Stages.length_le (h : Stages frame mirror budget p units q) : units.length ≤ budget := by
  induction h with
  | spent | unnamed | noneWaits | heldBack => simp
  | goesOn budget p q id front e back n units _ _ _ _ taken _ ih =>
    simp only [List.length_append, List.length_take]
    omega
  | begins budget p q front e back units _ _ _ _ _ room _ ih =>
    simp only [List.length_cons]
    omega

/-- With no row in staging and none WAITING nothing is staged (R143). -/
theorem Stages.nil_of_noneWaits (h : Stages frame mirror budget p units q) (cursor : p.cursor = none)
    (sent : ∀ e ∈ p.entries, e.sent ≠ 0) : units = [] := by
  cases h with
  | spent | unnamed | noneWaits | heldBack => rfl
  | goesOn _ _ _ _ _ _ _ _ _ named => simp [cursor] at named
  | begins _ _ _ front e back _ _ split _ waits => exact absurd waits (sent e (by simp [split]))

variable {front back : List Entry} {e : Entry}

/-- The row in staging goes on with its text, as far as the budget goes; what else is staged follows its last unit (R143). -/
theorem Stages.text_of_cursor (h : Stages frame mirror budget p units q) (cursor : p.cursor = some e.row.id)
    (split : p.entries = front ++ e :: back) (others : ∀ x ∈ front, x.row.id ≠ e.row.id) (two : 2 ≤ e.sent) :
    ∃ more, units = (e.row.text.drop (e.sent - 2)).take budget ++ more ∧
      (budget ≤ e.row.text.length + 2 - e.sent → more = []) := by
  cases h with
  | spent => exact ⟨[], by simp, fun _ => rfl⟩
  | unnamed _ _ id named absent =>
    obtain rfl : e.row.id = id := Option.some.inj (cursor.symm.trans named)
    exact absurd rfl (absent e (by simp [split]))
  | noneWaits _ _ idle | heldBack _ _ _ _ _ idle | begins _ _ _ _ _ _ _ idle => simp [cursor] at idle
  | goesOn _ _ _ id _ x _ n rest named cut first own taken follows =>
    obtain rfl : e.row.id = id := Option.some.inj (cursor.symm.trans named)
    obtain ⟨_, rfl⟩ := first_unique (p := fun y : Entry => y.row.id = e.row.id) (split.symm.trans cut) others first rfl own
    have text : (e.row.text.drop (e.sent - 2)).take n = (e.row.text.drop (e.sent - 2)).take budget := by
      rw [List.take_eq_take_iff, List.length_drop]
      omega
    refine ⟨rest, by rw [text], fun few => ?_⟩
    have bound := follows.length_le
    exact List.eq_nil_of_length_eq_zero (by omega)

/-- With no row in staging nothing is staged where the buffer of the first WAITING row is not free (R144). -/
theorem Stages.nil_of_not_free (h : Stages frame mirror budget p units q) (cursor : p.cursor = none)
    (split : p.entries = front ++ e :: back) (waits : e.sent = 0) (sent : ∀ x ∈ front, x.sent ≠ 0)
    (held : ¬BufferFree frame mirror front e) : units = [] := by
  cases h with
  | spent | unnamed | noneWaits | heldBack => rfl
  | goesOn _ _ _ _ _ _ _ _ _ named => simp [cursor] at named
  | begins _ _ _ _ x _ _ _ cut begun first free =>
    obtain ⟨rfl, rfl⟩ := first_unique (p := fun y : Entry => y.sent = 0) (split.symm.trans cut) sent begun waits first
    exact absurd free held

/-- The first WAITING row begins where its buffer is free: the STAGE unit, its length, and its text as far as the budget goes;
what else is staged follows its last unit (R143, R144, R187). -/
theorem Stages.begins_of_free (h : Stages frame mirror budget p units q) (cursor : p.cursor = none)
    (split : p.entries = front ++ e :: back) (waits : e.sent = 0)
    (others : ∀ x ∈ front, x.sent ≠ 0 ∧ x.row.id ≠ e.row.id) (free : BufferFree frame mirror front e) (room : 2 ≤ budget) :
    ∃ more, units = BitVec.ofNat 8 (0x1C + e.buffer.val) :: BitVec.ofNat 8 e.row.text.length ::
        (e.row.text.take (budget - 2) ++ more) ∧
      (budget - 2 ≤ e.row.text.length → more = []) := by
  have sent : ∀ x ∈ front, x.sent ≠ 0 := fun x m => (others x m).1
  cases h with
  | spent => omega
  | unnamed _ _ _ named => simp [cursor] at named
  | noneWaits _ _ _ none => exact absurd waits (none e (by simp [split]))
  | heldBack _ _ _ x _ _ cut begun first stop =>
    obtain ⟨rfl, rfl⟩ := first_unique (p := fun y : Entry => y.sent = 0) (split.symm.trans cut) sent begun waits first
    exact absurd room (by have := stop.resolve_left (not_not_intro free); omega)
  | goesOn _ _ _ _ _ _ _ _ _ named => simp [cursor] at named
  | begins _ _ _ _ x _ rest _ cut begun first _ _ follows =>
    obtain ⟨rfl, rfl⟩ := first_unique (p := fun y : Entry => y.sent = 0) (split.symm.trans cut) sent begun waits first
    have raise : raised e.row.id 2 p.entries =
        raised e.row.id 2 front ++ { e with sent := 2 } :: raised e.row.id 2 back := by
      simp [raised, split, waits]
    have apart : ∀ x ∈ raised e.row.id 2 front, x.row.id ≠ e.row.id := by
      intro x m
      obtain ⟨y, mem, rfl⟩ := List.mem_map.mp m
      rw [if_neg (others y mem).2]
      exact (others y mem).2
    obtain ⟨more, text, last⟩ := follows.text_of_cursor (e := { e with sent := 2 }) rfl raise apart le_rfl
    exact ⟨more, by rw [text]; rfl, fun few => last (by simpa using few)⟩

end

/-- A buffer whose newest mirror row is shown at the frame or later and not past is not free (R144). -/
theorem not_bufferFree_of_shown {frame : Frame} {mirror older newer : List MirrorRow} {r : MirrorRow} {front : List Entry}
    {e : Entry} (split : mirror = older ++ r :: newer) (own : r.buffer = e.buffer) (others : ∀ x ∈ newer, x.buffer ≠ e.buffer)
    (past : r.past = false) (shown : before r.showAt frame = false) : ¬BufferFree frame mirror front e := fun free => by
  have gone := free.shown older r newer split own others
  simp [past, shown] at gone

/-! ### The command unit (R142, R187) -/

/-- The values of a command unit: CLEAR, or SHOW or SHOW_FRESH of a buffer (R187). -/
def IsCommand (u : Byte) : Prop :=
  u = 0x18 ∨ ∃ b : BufferNo, u = BitVec.ofNat 8 (0x10 + b.val) ∨ u = BitVec.ofNat 8 (0x14 + b.val)

/-- A slot in RUNNING has no command unit, or one (R142). -/
theorem commandUnit_units (s : State) : (commandUnit s).1 = [] ∨ ∃ u, (commandUnit s).1 = [u] ∧ IsCommand u := by
  have clear : IsCommand unitClear := .inl rfl
  have shows (e : Entry) : IsCommand (if isFresh e.row then unitShowFresh e.buffer else unitShow e.buffer) := by
    split
    · exact .inr ⟨e.buffer, .inr rfl⟩
    · exact .inr ⟨e.buffer, .inl rfl⟩
  unfold commandUnit
  split
  · exact .inr ⟨_, rfl, clear⟩
  · split
    · split
      · exact .inr ⟨_, rfl, shows _⟩
      · split
        · exact .inr ⟨_, rfl, clear⟩
        · exact .inl rfl
    · split
      · exact .inr ⟨_, rfl, clear⟩
      · exact .inl rfl

/-! ### The slot by the run state (R141) -/

/-- The bytes and the unit count of the slot with the given command units and staging units, each within its bounds (R141,
R145, R187). -/
structure SlotHolds (size : Nat) (command staging : List Byte) (out : Output) : Prop where
  slot : out.slot = 0xC5 :: BitVec.ofNat 8 (command.length + staging.length) :: (command ++ staging)
  atMostOne : command.length ≤ 1
  inBudget : staging.length ≤ size - 1
  lastUnits : out.lastUnits = command.length + staging.length
  isCommand : ∀ u ∈ command, IsCommand u

theorem sendSlot_filler (size : Nat) (s : State) : SlotHolds size [] [] (sendSlot [] s).out :=
  ⟨rfl, by simp, by simp, rfl, by simp⟩

/-- The slot in HALTING is CLEAR where it is owed, and filler otherwise (R141). -/
theorem haltingSlot_holds (size : Nat) (s : State) :
    ∃ command, SlotHolds size command [] (haltingSlot s).out ∧ (command = [0x18] ↔ s.out.owed = .haltClear) := by
  unfold haltingSlot
  split
  · rename_i owed
    exact ⟨[0x18], ⟨rfl, by simp, by simp, rfl, by simp [IsCommand]⟩, by simp [owed]⟩
  · rename_i unowed
    exact ⟨[], sendSlot_filler size s, by simp [unowed]⟩

/-- The slot in RUNNING is the command unit with staging behind it (R141 to R143). -/
theorem runningSlot_holds (s : State) :
    ∃ q staging, SlotHolds s.settings.slotUnits (commandUnit s).1 staging (runningSlot s).out ∧
      runningSlot s = sendSlot ((commandUnit s).1 ++ staging) (staged q (commandUnit s).2) ∧
      Stages (commandUnit s).2.tb.frame (runningSlot s).out.mirror (s.settings.slotUnits - 1) (stagingOf (commandUnit s).2)
        staging q ∧
      SlotSent (commandUnit s).2.tb.frame s.settings.slotUnits (commandUnit s).1 (stagingOf (commandUnit s).2) q
        (runningSlot s).out := by
  obtain ⟨q, units, sends, sent⟩ :=
    runningSlot_sends (u := (commandUnit s).2) rfl (by rw [(commandUnit_slotStill s).settings])
  obtain ⟨staging, stages, slot, count, _⟩ := id sent
  have same : staging = units := by
    have bytes := slot.symm.trans (congrArg (fun t => t.out.slot) sends)
    simp only [sendSlot, List.cons.injEq, List.append_cancel_left_eq] at bytes
    exact bytes.2.2
  subst same
  refine ⟨q, staging, ⟨slot, ?_, stages.length_le, count, ?_⟩, sends, stages, sent⟩ <;>
    rcases commandUnit_units s with none | ⟨u, one, command⟩
  · simp [none]
  · simp [one]
  · simp [none]
  · simpa [one] using command

/-! ### The levels of the output line (R151) -/

/-- CAP_DATA carries the bytes of the slot in order, each least significant bit first (R151). -/
theorem capData_bit (s : State) (i : Nat) {j : Nat} (h : j < 8) : capData s (8 * i + j) = (s.out.slot.getD i 0).getLsbD j := by
  rw [capData, show (8 * i + j) / 8 = i by omega, show (8 * i + j) % 8 = j by omega]

/-- CAP_SYNC is high for the slot mark (R151). -/
theorem capSync_of_slot {s : State} {b : Byte} {rest : List Byte} (slot : s.out.slot = b :: rest) (i : Nat) :
    capSync s i = decide (i < 8) := by
  simp [capSync, slot]

theorem SlotHolds.levels {size : Nat} {command staging : List Byte} {s : State} (h : SlotHolds size command staging s.out) :
    (∀ i j, j < 8 → capData s (8 * i + j) = (s.out.slot.getD i 0).getLsbD j) ∧ ∀ i, capSync s i = decide (i < 8) :=
  ⟨fun i _ bit => capData_bit s i bit, capSync_of_slot h.slot⟩

/-- Settles O44: a slot outside RUNNING is filler or the halting CLEAR; in RUNNING the staging behind the command unit has the
bounds and the units that the relation Stages gives it. -/
theorem slotCarriesAtMostCUnits : Obligations.SlotCarriesAtMostCUnits := by
  intro s _ _
  cases run : s.control.runState with
  | halted | starting =>
    rw [show boundarySlot s = sendSlot [] s by simp only [boundarySlot, run]]
    have holds := sendSlot_filler s.settings.slotUnits s
    exact ⟨[], [], holds.slot, holds.atMostOne, holds.inBudget, holds.lastUnits, by simp, by simp, holds.isCommand, by simp,
      holds.levels⟩
  | halting =>
    rw [show boundarySlot s = haltingSlot s by simp only [boundarySlot, run]]
    obtain ⟨command, holds, owed⟩ := haltingSlot_holds s.settings.slotUnits s
    exact ⟨command, [], holds.slot, holds.atMostOne, holds.inBudget, holds.lastUnits, by simp, fun _ => ⟨rfl, owed⟩,
      holds.isCommand, by simp, holds.levels⟩
  | running =>
    rw [show boundarySlot s = runningSlot s by simp only [boundarySlot, run]]
    obtain ⟨q, staging, holds, sends, stages, sent⟩ := runningSlot_holds s
    refine ⟨(commandUnit s).1, staging, holds.slot, holds.atMostOne, holds.inBudget, holds.lastUnits, by simp, by simp,
      holds.isCommand, fun _ owed shows clears => ?_, holds.levels⟩
    have noShow : showDue s = false := by
      rw [← Bool.not_eq_true, showDue_iff]
      rintro ⟨e, rest, entries, now⟩
      exact shows e (by simp [entries]) now
    have noClear : clearDue s = false := by
      rw [← Bool.not_eq_true, clearDue_iff]
      rintro ⟨f, clear, reached⟩
      exact Bool.false_ne_true ((clears f clear).symm.trans reached)
    rw [commandUnit_nothing owed noShow noClear] at sends stages sent ⊢
    rw [show (runningSlot s).out.mirror = s.out.mirror from congrArg (fun t => t.out.mirror) sends] at stages
    refine ⟨rfl, ⟨q, sent, congrArg (fun t => t.air.entries) sends⟩, ?_, stages.nil_of_noneWaits,
      fun front e back cursor split waits others => ?_⟩
    · rintro _ front e back cursor split rfl two others
      exact stages.text_of_cursor cursor split others two
    · have held := stages.nil_of_not_free cursor split waits (fun x m => (others x m).1)
      refine ⟨fun size ahead shown => ?_, fun ⟨x, m, same⟩ => held fun free => free.ahead x m same,
        fun older r newer mirror own past newest seen => held (not_bufferFree_of_shown mirror own newest past seen)⟩
      have free : BufferFree s.tb.frame s.out.mirror front e :=
        ⟨ahead, fun older r newer mirror own _ => shown r (by simp [mirror]) own⟩
      exact stages.begins_of_free cursor split waits others free (by omega)

end Sys2Proof.Machine
end

