-- ==== Sys2Proof/Proofs/Undisturbed.lean ====
section
/-! What loses no record, clears no attention flag, and keeps the page engine quiet under a fault (R154, R163, R165, R168, R177),
said once for each operation: the lead arbiter, the row builders, the writer lines, and the capture lines. -/

namespace Sys2Proof.Machine

/-! ### The relation -/

/-- From s to t the records and the flags are kept, and the page engine stays quiet where it was quiet under a fault. -/
structure Undisturbed (s t : State) : Prop where
  records : RecordsKept s t
  quiet : QuietUnderFault s → QuietUnderFault t

/-- What decides the two: the journal buffer, the flags, the fault state, the operation in flight and the cue contexts. -/
def guarded (s : State) := (s.pe.buffer, s.control.attn, s.pe.fault, s.pe.op, s.disp.ctx)

/-- The quiet is kept by f. -/
def KeepsQuiet (f : State → State) : Prop := ∀ s, QuietUnderFault s → QuietUnderFault (f s)

theorem quiet_of_noFault {s : State} (h : s.pe.fault = none) : QuietUnderFault s := fun fault => by simp [h] at fault

/-- With an operation in flight a quiet state has no fault. -/
theorem QuietUnderFault.noFault {s : State} {op : PageOp} (h : QuietUnderFault s) (busy : s.pe.op = some op) :
    s.pe.fault = none := by
  by_contra fault
  have idle := (h (Option.isSome_iff_ne_none.mpr fault)).1
  rw [busy] at idle
  exact Option.some_ne_none op idle

/-- No operation begins, and no fetch. -/
theorem QuietUnderFault.same {s t : State} (h : QuietUnderFault s) (fault : t.pe.fault = s.pe.fault) (op : t.pe.op = s.pe.op)
    (ctx : t.disp.ctx = s.disp.ctx) : QuietUnderFault t := by
  intro set
  obtain ⟨idle, unfetched⟩ := h (fault ▸ set)
  refine ⟨op.trans idle, fun k x held => unfetched k x ?_⟩
  rwa [ctxOf, ← ctx]

theorem undirty_eq_none_iff (op : Option PageOp) : undirty op = none ↔ op = none := by
  unfold undirty
  split <;> simp

namespace Undisturbed

theorem refl (s : State) : Undisturbed s s := ⟨.refl s, id⟩

theorem trans {s t u : State} (h : Undisturbed s t) (g : Undisturbed t u) : Undisturbed s u :=
  ⟨h.records.trans g.records, g.quiet ∘ h.quiet⟩

theorem foldl {α : Type} {f : State → α → State} (h : ∀ s x, Undisturbed s (f s x)) (l : List α) (s : State) :
    Undisturbed s (l.foldl f s) := by
  induction l generalizing s with
  | nil => exact refl s
  | cons x rest ih => exact (h s x).trans (ih _)

/-- An update that leaves what is guarded. -/
theorem of_eq {s t : State} (same : guarded t = guarded s) : Undisturbed s t := by
  simp only [guarded, Prod.mk.injEq] at same
  obtain ⟨buffer, attn, fault, op, ctx⟩ := same
  exact ⟨.same buffer attn, fun quiet => quiet.same fault op ctx⟩

theorem of_local {s t : State} (h : Local s t) : Undisturbed s t := by
  refine ⟨h.records, fun quiet fault => ?_⟩
  have set : s.pe.fault.isSome = true := by rwa [h.engine] at fault
  obtain ⟨idle, unfetched⟩ := quiet set
  refine ⟨(undirty_eq_none_iff _).mp ?_, h.quiet set unfetched⟩
  rw [h.op, idle]
  rfl

end Undisturbed

theorem KeepsQuiet.of_undisturbed {f : State → State} (h : ∀ s, Undisturbed s (f s)) : KeepsQuiet f := fun s => (h s).quiet

/-! ### Records, rows and silence tests (R38, R91, R165) -/

theorem journal_undisturbed (r : Record) (s : State) : Undisturbed s (journal r s) := .of_local (journal_local r s)

theorem raise_undisturbed (f : AttnFlag) (s : State) : Undisturbed s (raise f s) := .of_local (raise_local f s)

theorem feedAttempt_undisturbed (s : State) : Undisturbed s (feedAttempt s) := .of_local (feedAttempt_local s)

theorem silenceTest_undisturbed (s : State) : Undisturbed s (silenceTest s) := by
  obtain ⟨b, e⟩ := silenceTest_eq s
  rw [e]
  exact .of_eq rfl

theorem closeRow_undisturbed (w : Writer) (reason : CloseReason) (s : State) : Undisturbed s (closeRow w reason s).1 := by
  by_cases empty : (builderOf s w).chars = []
  · rw [closeRow_of_empty empty]
    exact .refl s
  · by_cases role : roleOf s w = .lead
    · rw [closeRow_of_lead empty role]
      have left : Undisturbed s (rowLeaves w s) := .of_eq rfl
      exact left.trans (.of_local ((joinTail_local ..).trans (feedAttempt_local _)))
    · rw [closeRow_of_other empty role]
      exact .of_eq rfl

/-! ### The lead arbiter (R84 to R94) -/

theorem setArbiter_undisturbed (s : State) (la : Arbiter) : Undisturbed s { s with la := la } := .of_eq rfl

theorem giveLead_undisturbed (w : Writer) (reason : LeadReason) (s : State) : Undisturbed s (giveLead w reason s) := by
  rw [giveLead_eq]
  exact ((setArbiter_undisturbed ..).trans (.of_local (leadGiven_shown w reason s))).trans (silenceTest_undisturbed _)

theorem switchLead_undisturbed (w : Writer) (reason : LeadReason) (s : State) : Undisturbed s (switchLead w reason s) := by
  unfold switchLead
  split
  · exact giveLead_undisturbed ..
  · exact ((((closeRow_undisturbed ..).trans (setArbiter_undisturbed ..)).trans
      (.of_local ((journal_local ..).trans (raise_local ..)))).trans (feedAttempt_undisturbed _)).trans
        (silenceTest_undisturbed _)

theorem loseLead_undisturbed (w : Writer) (reason : LeadReason) (s : State) : Undisturbed s (loseLead w reason s) :=
  ((closeRow_undisturbed ..).trans (setArbiter_undisturbed ..)).trans
    (.of_local (((journal_local ..).trans (raise_local ..)).trans (leadGone_local _)))

theorem cancelHandoff_undisturbed (s : State) : Undisturbed s (cancelHandoff s) := by
  unfold cancelHandoff
  split
  · exact .of_eq rfl
  · exact .refl s

theorem completeHandoff_undisturbed (reported : Bool) (s : State) : Undisturbed s (completeHandoff reported s) := by
  unfold completeHandoff
  split
  · split
    · exact switchLead_undisturbed ..
    · exact .refl s
  · exact .refl s

theorem takeTake_undisturbed (w : Writer) (s : State) : Undisturbed s (takeTake w s) := by
  unfold takeTake
  split
  · exact giveLead_undisturbed ..
  · split
    · exact .refl s
    · split
      · split
        · exact .refl s
        · exact journal_undisturbed ..
      · exact .of_eq rfl

theorem takeGive_undisturbed (w : Writer) (s : State) : Undisturbed s (takeGive w s) := by
  unfold takeGive
  split
  · split
    · exact switchLead_undisturbed ..
    · exact journal_undisturbed ..
  · exact .refl s

theorem handoffTimeoutNow_undisturbed (s : State) : Undisturbed s (handoffTimeoutNow s) := by
  unfold handoffTimeoutNow
  split
  · split
    · exact switchLead_undisturbed ..
    · exact .refl s
  · exact .refl s

theorem reportSilence_undisturbed (w : Writer) (s : State) : Undisturbed s (reportSilence w s) := by
  unfold reportSilence
  split
  · exact .refl s
  · exact (setArbiter_undisturbed ..).trans (.of_local ((raise_local ..).trans (journal_local ..)))

theorem failover_undisturbed (s : State) : Undisturbed s (failover s) := by
  unfold failover
  split
  · split
    · exact switchLead_undisturbed ..
    · split
      · exact switchLead_undisturbed ..
      · exact reportSilence_undisturbed ..
  · exact .refl s

theorem setWork_undisturbed (s : State) (work : Work) : Undisturbed s { s with work := work } := .of_eq rfl

theorem silentLeadNow_undisturbed (s : State) : Undisturbed s (silentLeadNow s) := by
  unfold silentLeadNow
  split
  · dsimp only
    split
    · exact (setWork_undisturbed ..).trans (failover_undisturbed _)
    · exact setWork_undisturbed ..
  · exact .refl s

theorem silentLeads_undisturbed (s : State) : Undisturbed s (silentLeads s) :=
  (((silentLeadNow_undisturbed s).trans (silentLeadNow_undisturbed _)).trans (silentLeadNow_undisturbed _)).trans
    (silentLeadNow_undisturbed _)

theorem forceLead_undisturbed (w : Writer) (s : State) : Undisturbed s (forceLead w s).1 := by
  unfold forceLead
  split
  · exact .refl s
  · split
    · exact cancelHandoff_undisturbed s
    · split
      · split
        · exact switchLead_undisturbed ..
        · exact (cancelHandoff_undisturbed s).trans (switchLead_undisturbed ..)
      · exact switchLead_undisturbed ..

theorem takerLeftRun_undisturbed (w : Writer) (s : State) : Undisturbed s (takerLeftRun w s) := by
  rw [takerLeftRun_eq]
  exact .of_eq rfl

theorem leadDisabled_undisturbed (w : Writer) (s : State) : Undisturbed s (leadDisabled w s) := by
  unfold leadDisabled
  split
  · split
    · exact switchLead_undisturbed ..
    · split
      · exact switchLead_undisturbed ..
      · exact loseLead_undisturbed ..
  · exact .refl s

theorem startLead_undisturbed (s : State) : Undisturbed s (startLead s) := by
  unfold startLead
  dsimp only
  split
  · exact giveLead_undisturbed ..
  · exact giveLead_undisturbed ..
  · exact .refl s

/-! ### The row builders (R35 to R44) -/

theorem onBuilder_undisturbed (w : Writer) (f : Builder → Builder) (s : State) : Undisturbed s (onBuilder w f s) := .of_eq rfl

theorem count_undisturbed (w : Writer) (f : Counters → Counters) (s : State) : Undisturbed s (count w f s) := .of_eq rfl

theorem takeText_undisturbed (w : Writer) (ch : Byte) (stamp : Stamp) (s : State) :
    Undisturbed s (takeText w ch stamp s).1 := by
  unfold takeText
  dsimp only
  split
  · exact onBuilder_undisturbed ..
  · split
    · split
      · exact (closeRow_undisturbed ..).trans (onBuilder_undisturbed ..)
      · exact ((onBuilder_undisturbed ..).trans (closeRow_undisturbed ..)).trans (onBuilder_undisturbed ..)
    · exact (closeRow_undisturbed ..).trans (onBuilder_undisturbed ..)

theorem takeSpeaker_undisturbed (w : Writer) (s : State) : Undisturbed s (takeSpeaker w s).1 :=
  (closeRow_undisturbed ..).trans (onBuilder_undisturbed ..)

theorem takeBack_undisturbed (s : State) : Undisturbed s (takeBack s) := by
  unfold takeBack
  split
  · exact .of_local (keepEntries_local ..)
  · exact .of_eq rfl

theorem refuse_undisturbed (w : Writer) (word : Bool) (s : State) : Undisturbed s (refuse w word s) := by
  unfold refuse
  dsimp only
  split
  · exact (count_undisturbed ..).trans (journal_undisturbed ..)
  · exact count_undisturbed ..

theorem takeCorrection_undisturbed (w : Writer) (word : Bool) (s : State) : Undisturbed s (takeCorrection w word s) := by
  unfold takeCorrection
  split
  · split
    · exact (takeBack_undisturbed s).trans (onBuilder_undisturbed ..)
    · exact refuse_undisturbed ..
  · exact onBuilder_undisturbed ..

/-! ### Ports (R17, R18, R20 to R24, R28, R32) -/

theorem onPort_undisturbed (w : Writer) (f : Port → Port) (s : State) : Undisturbed s (onPort w f s) := .of_eq rfl

theorem onEst_undisturbed (w : Writer) (f : Estimator → Estimator) (s : State) : Undisturbed s (onEst w f s) := .of_eq rfl

theorem seedWriter_undisturbed (s : State) (w : Writer) : Undisturbed s (seedWriter s w) := onEst_undisturbed ..

theorem reportPort_undisturbed (w : Writer) (left : PortMode) (cause : PortCause) (s : State) :
    Undisturbed s (reportPort w left cause s) := by
  unfold reportPort
  dsimp only
  split
  · exact .of_local ((journal_local ..).trans (raise_local ..))
  · exact journal_undisturbed ..

theorem portBecomes_undisturbed (w : Writer) (p : Port) (cause : PortCause) (s : State) :
    Undisturbed s (portBecomes w p cause s) := by
  have reported := (onPort_undisturbed w (fun _ => p) s).trans (reportPort_undisturbed w (portOf s w).mode cause _)
  unfold portBecomes
  dsimp only
  split
  · exact reported.trans (takerLeftRun_undisturbed ..)
  · exact reported

theorem enablePort_undisturbed (w : Writer) (s : State) : Undisturbed s (enablePort w s) :=
  (seedWriter_undisturbed s w).trans (portBecomes_undisturbed ..)

theorem disablePort_undisturbed (w : Writer) (s : State) : Undisturbed s (disablePort w s) := by
  have closed : Undisturbed s (portDisabled w s).1 :=
    (((onPort_undisturbed ..).trans (closeRow_undisturbed w .handoff _)).trans (onBuilder_undisturbed ..)).trans
      (reportPort_undisturbed ..)
  have completed := closed.trans (completeHandoff_undisturbed (portDisabled w s).2 _)
  rw [disablePort_eq]
  refine Undisturbed.trans ?_ (leadDisabled_undisturbed ..)
  split
  · exact completed.trans (takerLeftRun_undisturbed ..)
  · exact completed

theorem retunePort_undisturbed (w : Writer) (old new : WriterSettings) (s : State) :
    Undisturbed s (retunePort w old new s) := by
  unfold retunePort
  dsimp only
  split
  · exact onPort_undisturbed ..
  · exact portBecomes_undisturbed ..

theorem applyPort_undisturbed (new : Settings) (s : State) (w : Writer) : Undisturbed s (applyPort new s w) := by
  have written : Undisturbed s (portWritten new s w) := .of_eq rfl
  cases running : isRunning s with
  | false =>
    rw [applyPort_of_stopped running]
    exact written
  | true =>
    rw [applyPort_of_running running]
    dsimp only
    split
    · split
      · exact written.trans (enablePort_undisturbed ..)
      · exact written
    · split
      · exact written.trans (disablePort_undisturbed ..)
      · split
        · exact written
        · exact written.trans (retunePort_undisturbed ..)

theorem startPort_undisturbed (s : State) (w : Writer) : Undisturbed s (startPort s w) := by
  unfold startPort
  split
  · exact onPort_undisturbed ..
  · exact .refl s

theorem alignmentError_undisturbed (w : Writer) (s : State) : Undisturbed s (alignmentError w s) := .of_eq rfl

theorem breakSeenNow_undisturbed (w : Writer) (counts : Nat) (s : State) : Undisturbed s (breakSeenNow w counts s) := by
  unfold breakSeenNow
  split
  · exact onPort_undisturbed ..
  · exact .refl s

theorem startEdgeNow_undisturbed (w : Writer) (s : State) : Undisturbed s (startEdgeNow w s) := by
  unfold startEdgeNow
  split
  · exact onPort_undisturbed ..
  · exact .refl s

theorem spanTooLongNow_undisturbed (w : Writer) (s : State) : Undisturbed s (spanTooLongNow w s) := by
  unfold spanTooLongNow
  split
  · exact alignmentError_undisturbed w s
  · exact .refl s

theorem spanMeasuredNow_undisturbed (w : Writer) (rise : Nat) (s : State) : Undisturbed s (spanMeasuredNow w rise s) := by
  unfold spanMeasuredNow
  dsimp only
  split
  · split
    · exact alignmentError_undisturbed w s
    · split
      · exact onPort_undisturbed ..
      · exact alignmentError_undisturbed w s
  · exact .refl s

theorem alignmentNow_undisturbed (w : Writer) (edges : List Nat) (s : State) : Undisturbed s (alignmentNow w edges s) := by
  unfold alignmentNow
  dsimp only
  split
  · split
    · exact alignmentError_undisturbed w s
    · split
      · exact portBecomes_undisturbed ..
      · exact .refl s
  · exact .refl s

theorem resyncBreakNow_undisturbed (w : Writer) (counts : Nat) (s : State) :
    Undisturbed s (resyncBreakNow w counts s) := by
  unfold resyncBreakNow
  dsimp only
  split
  · exact portBecomes_undisturbed ..
  · exact .refl s

theorem resyncEndNow_undisturbed (w : Writer) (counts : Nat) (s : State) : Undisturbed s (resyncEndNow w counts s) := by
  unfold resyncEndNow
  dsimp only
  split
  · exact portBecomes_undisturbed ..
  · exact .refl s

/-! ### Characters and pauses (R25 to R31, R70 to R77) -/

theorem framingError_undisturbed (w : Writer) (s : State) : Undisturbed s (framingError w s) := by
  unfold framingError
  dsimp only
  split
  · exact (count_undisturbed ..).trans (portBecomes_undisturbed ..)
  · exact (count_undisturbed ..).trans (portBecomes_undisturbed ..)

theorem touchPort_undisturbed (w : Writer) (s : State) : Undisturbed s (touchPort w s) := by
  rw [touchPort_eq]
  exact .of_eq rfl

theorem takeSample_undisturbed (w : Writer) (estimate sample : Nat) (onset resumption : Stamp) (s : State) :
    Undisturbed s (takeSample w estimate sample onset resumption s) := by
  unfold takeSample
  dsimp only
  split
  · exact .of_eq rfl
  · split
    · exact .of_eq rfl
    · split
      · exact .of_eq rfl
      · exact ((onEst_undisturbed ..).trans (count_undisturbed ..)).trans (journal_undisturbed ..)

theorem takeResumption_undisturbed (w : Writer) (stamp : Stamp) (s : State) :
    Undisturbed s (takeResumption w stamp s) := by
  unfold takeResumption
  dsimp only
  split
  · rename_i chosen _
    have consumed : Undisturbed s (consumeOnset w chosen s) := .of_eq rfl
    exact consumed.trans (takeSample_undisturbed ..)
  · exact count_undisturbed ..

theorem resumeAt_undisturbed (w : Writer) (ch : Byte) (stamp : Stamp) (s : State) :
    Undisturbed s (resumeAt w ch stamp s) := by
  unfold resumeAt
  split
  · exact (onPort_undisturbed ..).trans (takeResumption_undisturbed ..)
  · exact .refl s

theorem handOn_undisturbed (w : Writer) (cls : ByteClass) (ch : Byte) (stamp : Stamp) (s : State) :
    Undisturbed s (handOn w cls ch stamp s) := by
  cases cls with
  | text => exact (takeText_undisturbed ..).trans (completeHandoff_undisturbed ..)
  | row => exact (closeRow_undisturbed ..).trans (completeHandoff_undisturbed ..)
  | speaker => exact (takeSpeaker_undisturbed ..).trans (completeHandoff_undisturbed ..)
  | rub => exact takeCorrection_undisturbed ..
  | rubWord => exact takeCorrection_undisturbed ..
  | take => exact takeTake_undisturbed w s
  | give => exact takeGive_undisturbed w s
  | ignored => exact .refl s

theorem deliver_undisturbed (w : Writer) (ch : Byte) (noisy : Bool) (s : State) : Undisturbed s (deliver w ch noisy s) := by
  let s1 := count w (fun c => { c with
    characters := c.characters + 1
    noise := if noisy then c.noise + 1 else c.noise }) (onPort w (fun p => { p with framing := 0 }) s)
  have counted : Undisturbed s s1 := .of_eq rfl
  have held : Undisturbed s (holdTick s1) := .of_eq rfl
  have touched := (held.trans (handOn_undisturbed w (classify ch) ch (stampNow s1) _)).trans (touchPort_undisturbed w _)
  unfold deliver
  dsimp only
  split
  · exact counted.trans (count_undisturbed ..)
  · split
    · exact touched.trans (resumeAt_undisturbed ..)
    · exact touched

theorem characterNow_undisturbed (w : Writer) (edges : List Nat) (s : State) : Undisturbed s (characterNow w edges s) := by
  have looked := onPort_undisturbed w (fun p => { p with lookFrom := s.clock }) s
  unfold characterNow
  dsimp only
  split
  · split
    · exact .refl s
    · split
      · exact looked.trans (framingError_undisturbed ..)
      · split
        · exact looked.trans (count_undisturbed ..)
        · exact looked.trans (deliver_undisturbed ..)
  · exact .refl s

theorem pauseNow_undisturbed (w : Writer) (s : State) : Undisturbed s (pauseNow w s) := by
  unfold pauseNow
  split
  · exact ((onPort_undisturbed ..).trans (closeRow_undisturbed ..)).trans (completeHandoff_undisturbed ..)
  · exact .refl s

/-! ### The tick steps (R54 to R63) -/

theorem takeCapture_undisturbed (i : LineNo) (stamp : Stamp) (s : State) : Undisturbed s (takeCapture i stamp s) := by
  have counted : Undisturbed s (captureCounted i s) := .of_eq rfl
  rcases voice_or_trigger i with ⟨v, voice⟩ | ⟨j, trigger⟩
  · have added : Undisturbed s (addOnset v stamp (captureCounted i s)) := counted.trans (.of_eq rfl)
    rw [takeCapture_voice voice]
    split
    · exact added.trans (silenceTest_undisturbed _)
    · exact added
  · rw [takeCapture_trigger trigger]
    exact counted.trans (.of_local (fireTrigger_local ..))

theorem stepLine_undisturbed (stamp : Stamp) (s : State) (i : LineNo) : Undisturbed s (stepLine stamp s i) := by
  have filtered : Undisturbed s (withFilter stamp s i) := .of_eq rfl
  rcases stepLine_cases stamp s i with e | ⟨first, e⟩ <;> rw [e]
  · exact filtered
  · exact filtered.trans (takeCapture_undisturbed ..)

theorem tickStepEvent_undisturbed (s : State) : Undisturbed s (tickStepEvent s) := by
  unfold tickStepEvent
  split
  · have stepped : Undisturbed s { s with tb := { s.tb with heldTick := subTick s, stepped := some (subTick s) } } := .of_eq rfl
    exact stepped.trans (.foldl (stepLine_undisturbed _) ..)
  · exact .refl s

end Sys2Proof.Machine
end

