-- ==== Sys2Proof/Proofs/UndisturbedInTime.lean ====
section
/-! Frame boundaries with their pieces of work, the reference and the applications of settings lose no record, clear no
attention flag, and keep the page engine quiet under a fault (R3 to R12, R88, R141, R154 to R160, R163). -/

namespace Sys2Proof.Machine

/-! ### The run state (R174, R175) -/

theorem withOp_undisturbed {s : State} {op : Option PageOp} (allowed : s.pe.fault.isSome = true → op = none) :
    Undisturbed s (withOp op s) :=
  ⟨.same rfl rfl, fun quiet fault => ⟨allowed fault, (quiet fault).2⟩⟩

theorem setRunState_undisturbed (s : State) (r : RunState) (run : Bool) :
    Undisturbed s { s with control := { s.control with runState := r, run := run } } := .of_eq rfl

/-- STARTING's read is requested without a fault alone. -/
theorem enterStarting_undisturbed (s : State) : Undisturbed s (enterStarting s) := by
  unfold enterStarting
  split
  · exact setRunState_undisturbed ..
  · rename_i noFault
    exact (setRunState_undisturbed s .starting s.control.run).trans (withOp_undisturbed fun fault => absurd fault noFault)

theorem haltCheck_undisturbed (s : State) : Undisturbed s (haltCheck s) := by
  have halted := setRunState_undisturbed s .halted s.control.run
  unfold haltCheck enterHalted
  dsimp only
  split
  · split
    · exact halted.trans (enterStarting_undisturbed _)
    · exact halted
  · exact .refl s

/-! ### The slot of a boundary (R141 to R148) -/

theorem setAirOut_undisturbed (s : State) (air : AirSchedule) (out : Output) :
    Undisturbed s { s with air := air, out := out } := .of_eq rfl

theorem handOnShown_undisturbed (e : Entry) (s : State) : Undisturbed s (handOnShown e s) := by
  unfold handOnShown
  dsimp only
  split
  · exact .of_local ((count_local ..).trans (journal_local ..))
  · exact .of_local ((cueRowShown_local ..).trans (journal_local ..))

theorem showHead_undisturbed (e : Entry) (rest : List Entry) (s : State) : Undisturbed s (showHead e rest s) := by
  have left : Undisturbed s (headLeaves e rest s) := setAirOut_undisturbed ..
  exact (left.trans (handOnShown_undisturbed ..)).trans (.of_local ((feedAttempt_local _).trans (feedTest_local _)))

theorem commandUnit_undisturbed (s : State) : Undisturbed s (commandUnit s).2 := by
  have cleared : Undisturbed s (emptyMirror { s with air := { s.air with clear := none } }) := setAirOut_undisturbed ..
  unfold commandUnit
  split
  · exact setAirOut_undisturbed s s.air _
  · split
    · split
      · exact showHead_undisturbed ..
      · split
        · exact cleared
        · exact .refl s
    · split
      · exact cleared
      · exact .refl s

theorem sendUnits_undisturbed (id : Word32) (n : Nat) (s : State) : Undisturbed s (sendUnits id n s) := .of_eq rfl

theorem setCursor_undisturbed (id : Option Word32) (s : State) : Undisturbed s (setCursor id s) := .of_eq rfl

theorem stagingDone_undisturbed (b : BufferNo) (s : State) : Undisturbed s (stagingDone b s) := .of_eq rfl

theorem stageUnits_undisturbed (fuel n : Nat) (s : State) : Undisturbed s (stageUnits fuel n s).2 := by
  induction fuel generalizing n s with
  | zero => exact .refl s
  | succ fuel ih =>
    unfold stageUnits
    dsimp only
    repeat' split
    · exact ((sendUnits_undisturbed ..).trans (stagingDone_undisturbed ..)).trans (ih ..)
    · exact (sendUnits_undisturbed ..).trans (ih ..)
    · exact .refl s
    · exact ((sendUnits_undisturbed ..).trans (setCursor_undisturbed ..)).trans (ih ..)
    · exact .refl s
    · exact .refl s

theorem sendSlot_undisturbed (units : List Byte) (s : State) : Undisturbed s (sendSlot units s) := .of_eq rfl

theorem runningSlot_undisturbed (s : State) : Undisturbed s (runningSlot s) :=
  ((commandUnit_undisturbed s).trans (stageUnits_undisturbed ..)).trans (sendSlot_undisturbed ..)

theorem haltingSlot_undisturbed (s : State) : Undisturbed s (haltingSlot s) := by
  unfold haltingSlot
  split
  · exact (setAirOut_undisturbed s s.air _).trans (sendSlot_undisturbed ..)
  · exact sendSlot_undisturbed ..

theorem boundarySlot_undisturbed (s : State) : Undisturbed s (boundarySlot s) := by
  unfold boundarySlot
  split
  · exact runningSlot_undisturbed s
  · exact haltingSlot_undisturbed s
  · exact sendSlot_undisturbed ..
  · exact sendSlot_undisturbed ..

theorem slotNow_undisturbed (s : State) : Undisturbed s (slotNow s) :=
  (boundarySlot_undisturbed s).trans (haltCheck_undisturbed _)

/-! ### The work of a boundary (R3, R30, R31, R88, R141, R155) -/

theorem setScans_undisturbed (s : State) (scans skipped : Word32) :
    Undisturbed s { s with pe := { s.pe with scans := scans, skipped := skipped } } := .of_eq rfl

/-- A scan begins without a fault alone. -/
theorem scanBoundary_undisturbed (s : State) : Undisturbed s (scanBoundary s) := by
  unfold scanBoundary
  split
  · exact .refl s
  · rename_i mayScan
    have noFault : ¬s.pe.fault.isSome = true := fun fault => mayScan (by simp [fault])
    split
    · exact setScans_undisturbed s s.pe.scans _
    · exact (setScans_undisturbed s _ s.pe.skipped).trans (withOp_undisturbed fun fault => absurd fault noFault)

theorem frameSlot_undisturbed (s : State) : Undisturbed s (frameSlot s) := by
  unfold frameSlot
  split
  · exact .refl s
  · exact slotNow_undisturbed s

theorem frameWork_undisturbed (s : State) : Undisturbed s (frameWork s) := by
  have counted : Undisturbed s (frameCounts s) := .of_eq rfl
  exact ((((counted.trans (frameSlot_undisturbed _)).trans (scanBoundary_undisturbed _)).trans
    (feedAttempt_undisturbed _)).trans (.of_local (frameCues_local _))).trans (setWork_undisturbed ..)

/-! ### The pieces that are left to commands -/

theorem pauseWork_undisturbed (w : Writer) (s : State) : Undisturbed s (pauseWork w s) := by
  unfold pauseWork
  split
  · exact (setWork_undisturbed ..).trans (pauseNow_undisturbed ..)
  · exact .refl s

theorem timeoutWork_undisturbed (s : State) : Undisturbed s (timeoutWork s) := by
  unfold timeoutWork
  split
  · exact (setWork_undisturbed ..).trans (handoffTimeoutNow_undisturbed _)
  · exact .refl s

theorem onsetsWork_undisturbed (s : State) : Undisturbed s (onsetsWork s) := by
  unfold onsetsWork
  split
  · exact .of_eq rfl
  · exact .refl s

theorem lastOnsetsWork_undisturbed (s : State) : Undisturbed s (lastOnsetsWork s) := by
  unfold lastOnsetsWork
  split
  · exact .of_eq rfl
  · exact .refl s

theorem buffersWork_undisturbed (s : State) : Undisturbed s (buffersWork s) := by
  unfold buffersWork
  split
  · exact .of_eq rfl
  · exact .refl s

theorem mirrorWork_undisturbed (s : State) : Undisturbed s (mirrorWork s) := by
  unfold mirrorWork
  split
  · exact .of_eq rfl
  · exact .refl s

theorem atFrameWork_undisturbed (s : State) : Undisturbed s (atFrameWork s) := by
  unfold atFrameWork
  split
  · exact (setWork_undisturbed ..).trans (.of_local (watchBoundary_local _))
  · exact .refl s

theorem expiryWork_undisturbed (s : State) : Undisturbed s (expiryWork s) := by
  have watched := atFrameWork_undisturbed s
  unfold expiryWork
  dsimp only
  split
  · exact (watched.trans (setWork_undisturbed ..)).trans (.of_local (expireBoundary_local _))
  · exact watched

theorem slotWork_undisturbed (s : State) : Undisturbed s (slotWork s) := by
  unfold slotWork
  split
  · exact (setWork_undisturbed ..).trans (slotNow_undisturbed _)
  · exact .refl s

theorem showWork_undisturbed (s : State) : Undisturbed s (showWork s) := by
  unfold showWork
  split
  · exact slotWork_undisturbed s
  · exact .refl s

theorem clearWork_undisturbed (s : State) : Undisturbed s (clearWork s) := by
  unfold clearWork
  split
  · exact slotWork_undisturbed s
  · exact .refl s

theorem settle_undisturbed (s : State) : Undisturbed s (settle s) := by
  have lapsed := (((buffersWork_undisturbed s).trans (mirrorWork_undisturbed _)).trans (onsetsWork_undisturbed _)).trans
    (lastOnsetsWork_undisturbed _)
  have paused := ((lapsed.trans (slotWork_undisturbed _)).trans (pauseWork_undisturbed 0 _)).trans (pauseWork_undisturbed 1 _)
  have timed := ((paused.trans (pauseWork_undisturbed 2 _)).trans (pauseWork_undisturbed 3 _)).trans
    (timeoutWork_undisturbed _)
  exact (timed.trans (silentLeads_undisturbed _)).trans (expiryWork_undisturbed _)

/-! ### The timebase (R3, R5 to R12) -/

theorem setTb_undisturbed (s : State) (tb : Timebase) : Undisturbed s { s with tb := tb } := .of_eq rfl

theorem newFrame_undisturbed (origin : Nat) (s : State) : Undisturbed s (newFrame origin s) := by
  cases load : s.tb.load with
  | none =>
    rw [newFrame_of_noLoad load]
    exact setTb_undisturbed ..
  | some f =>
    rw [newFrame_of_load (by simp [load]), loadTaken_eq]
    exact .of_eq rfl

theorem tbTurns_undisturbed (left entered : TbMode) (cause : RefCause) (s : State) :
    Undisturbed s (tbTurns left entered cause s) :=
  (setTb_undisturbed ..).trans (.of_local ((journal_local ..).trans (raise_local ..)))

theorem acceptPulse_undisturbed (phase : Bool) (s : State) : Undisturbed s (acceptPulse phase s) := setTb_undisturbed ..

theorem pulseFrame_undisturbed (origin : Nat) (phase : Bool) (s : State) :
    Undisturbed s (newFrame origin (acceptPulse phase s)) :=
  (acceptPulse_undisturbed ..).trans (newFrame_undisturbed ..)

theorem lockedPulse_undisturbed (s : State) : Undisturbed s (lockedPulse s) := by
  unfold lockedPulse
  split
  · exact setTb_undisturbed ..
  · split
    · exact acceptPulse_undisturbed ..
    · exact (pulseFrame_undisturbed ..).trans (frameWork_undisturbed _)

theorem freewheelPulse_undisturbed (s : State) : Undisturbed s (freewheelPulse s) := by
  unfold freewheelPulse
  dsimp only
  split
  · exact ((pulseFrame_undisturbed ..).trans (tbTurns_undisturbed ..)).trans (frameWork_undisturbed _)
  · exact ((acceptPulse_undisturbed ..).trans (setTb_undisturbed ..)).trans (tbTurns_undisturbed ..)

theorem pulse_undisturbed (s : State) : Undisturbed s (pulse s) := by
  unfold pulse
  split
  · exact ((pulseFrame_undisturbed ..).trans (tbTurns_undisturbed ..)).trans (frameWork_undisturbed _)
  · exact lockedPulse_undisturbed s
  · exact freewheelPulse_undisturbed s

theorem lossNow_undisturbed (s : State) : Undisturbed s (lossNow s) := by
  unfold lossNow
  split
  · split
    · exact ((newFrame_undisturbed ..).trans (tbTurns_undisturbed ..)).trans (frameWork_undisturbed _)
    · exact .refl s
  · exact .refl s

theorem freewheelNow_undisturbed (s : State) : Undisturbed s (freewheelNow s) := by
  unfold freewheelNow
  split
  · split
    · exact (newFrame_undisturbed ..).trans (frameWork_undisturbed _)
    · exact .refl s
  · exact .refl s

theorem tbEnters_undisturbed (s : State) : Undisturbed s (tbEnters s) := by
  have begins := (newFrame_undisturbed s.clock s).trans (frameWork_undisturbed _)
  unfold tbEnters
  split
  · exact ((newFrame_undisturbed ..).trans (tbTurns_undisturbed ..)).trans (frameWork_undisturbed _)
  all_goals
    split
    · exact begins
    · exact .refl s

/-! ### The applications of settings (R157 to R160) -/

theorem applyOnAir_undisturbed (new : Settings) (s : State) : Undisturbed s (applyOnAir new s) := by
  have voiced : Undisturbed s (applyVoices new s) := by
    rw [applyVoices_eq]
    exact .of_eq rfl
  have ported (t : State) (w : Writer) : Undisturbed t (applyWriter new t w) :=
    (applyPort_undisturbed new t w).trans (silentLeads_undisturbed _)
  exact (voiced.trans (.foldl ported ..)).trans (.of_local (applyLiveLevel_local ..))

theorem setForced_undisturbed (f : Option Writer) (s : State) : Undisturbed s (setForced f s) := .of_eq rfl

theorem applyForced_undisturbed (f : Option Writer) (s : State) : Undisturbed s (applyForced f s).1 := by
  cases f with
  | none => exact setForced_undisturbed ..
  | some w =>
    by_cases off : (portOf s w).mode = .off
    · rw [applyForced_of_off off]
      exact .refl s
    · rw [applyForced_of_on off]
      exact ((forceLead_undisturbed w s).trans (silentLeads_undisturbed _)).trans (setForced_undisturbed ..)

theorem silenceOfApplication_undisturbed (s : State) : Undisturbed s (silenceOfApplication s) := by
  unfold silenceOfApplication
  split
  · exact (silenceTest_undisturbed s).trans (silentLeads_undisturbed _)
  · exact .refl s

theorem reportSettings_undisturbed (generation : Word32) (clamped ignored : List Nat) (s : State) :
    Undisturbed s (reportSettings generation clamped ignored s) := by
  have counted (n m : Word32) : Undisturbed s { s with pe := { s.pe with
      lastGeneration := generation, clampCount := n, ignoreCount := m } } := .of_eq rfl
  unfold reportSettings
  dsimp only
  split <;> split
  · exact counted ..
  · exact (counted ..).trans (raise_undisturbed ..)
  · exact (counted ..).trans (journal_undisturbed ..)
  · exact ((counted ..).trans (raise_undisturbed ..)).trans (journal_undisturbed ..)

theorem applyTuning_undisturbed (new : Settings) (s : State) : Undisturbed s (applyTuning new s) := .of_eq rfl

theorem applyRunning_undisturbed (generation : Word32) (block : List Byte) (s : State) :
    Undisturbed s (applyRunning generation block s) := by
  have tuned := applyTuning_undisturbed (parseSettings block) s
  unfold applyRunning
  dsimp only
  refine ((Undisturbed.trans ?_ (applyForced_undisturbed ..)).trans (silenceOfApplication_undisturbed _)).trans
    (reportSettings_undisturbed ..)
  split
  · exact tuned
  · exact tuned.trans (applyOnAir_undisturbed ..)

theorem tbRates_undisturbed (rateCode divider : Nat) (s : State) : Undisturbed s (tbRates rateCode divider s) := by
  have rated : Undisturbed s { s with settings := { s.settings with rateCode := rateCode, divider := divider } } := .of_eq rfl
  unfold tbRates
  dsimp only
  split
  · exact rated
  · split
    · exact rated.trans (setTb_undisturbed ..)
    · exact (rated.trans (setTb_undisturbed ..)).trans (tbTurns_undisturbed ..)

theorem applyStructure_undisturbed (new : Settings) (load : Option Frame) (s : State) :
    Undisturbed s (applyStructure new load s) := by
  have loaded (t : State) : Undisturbed t (tbLoad load t) := by
    unfold tbLoad
    split
    · exact setTb_undisturbed ..
    · exact .refl t
  exact ((tbRates_undisturbed ..).trans (loaded _)).trans (.of_eq rfl)

theorem applyStarting_undisturbed (generation : Word32) (block : List Byte) (s : State) :
    Undisturbed s (applyStarting generation block s) :=
  (((((applyStructure_undisturbed ..).trans (applyTuning_undisturbed ..)).trans (applyOnAir_undisturbed ..)).trans
    (setForced_undisturbed ..)).trans (silenceOfApplication_undisturbed _)).trans (reportSettings_undisturbed ..)

theorem owe_undisturbed (s : State) (owed : Owed) : Undisturbed s { s with out := { s.out with owed := owed } } := .of_eq rfl

theorem enterRunning_undisturbed (s : State) : Undisturbed s (enterRunning s) := by
  have entered := setRunState_undisturbed s .running s.control.run
  have started := (entered.trans (.foldl startPort_undisturbed allWriters _)).trans (.foldl seedWriter_undisturbed allWriters _)
  exact (((started.trans (owe_undisturbed _ .startClear)).trans (startLead_undisturbed _)).trans
    (.of_local (insertionTest_local _))).trans (tbEnters_undisturbed _)

end Sys2Proof.Machine
end

