-- ==== Sys2Proof/Proofs/PageFaults.lean ====
section
/-! A page fault (R153, R168, R174): every fetch is abandoned, one context after another, and so is the operation in flight. -/

namespace Sys2Proof.Machine

/-! ### Fetches under a fault (R132, R133, R163) -/

/-- Cue context k has no fetch in flight or void. -/
def Unfetched (k : CtxNo) (s : State) : Prop := ∀ x, ctxOf s k = some x → x.fetch = .none

theorem unfetched_of_ctx {k : CtxNo} {s t : State} (ctx : ctxOf t k = ctxOf s k) (h : Unfetched k s) : Unfetched k t :=
  fun x held => h x (ctx ▸ held)

theorem storeCtx_unfetched {j k : CtxNo} {x : Option Context} {s : State} (h : Unfetched j s)
    (stored : ∀ y, x = some y → y.fetch = .none) : Unfetched j (storeCtx k x s) := by
  intro y held
  rw [ctxOf_storeCtx] at held
  split at held
  · exact stored y held
  · exact h y held

/-- With the fault state set no fetch is requested. -/
theorem feedTest_of_fault {s : State} (fault : s.pe.fault.isSome = true) : feedTest s = s := by
  have held (x : Context) (c : Cue) : mayFetch x c s = false := by simp [mayFetch, Option.isNone_eq_false_iff.mpr fault]
  unfold feedTest
  split
  · split
    · split
      · rw [if_neg (by rw [held]; decide)]
      · rfl
    · rfl
  · rfl

/-- A context without a fetch has none when what is on top gives way. -/
theorem preemptTop_unfetched {j : CtxNo} {s : State} (h : Unfetched j s) : Unfetched j (preemptTop s) := by
  unfold preemptTop
  split
  · exact unfetched_of_ctx (by rw [ctxOf, (withdrawLive_takes s).2.2, ctxOf]) h
  · rename_i k top
    unfold suspendCue
    split
    · rename_i x held
      split
      · split
        · refine unfetched_of_ctx (s := storeCtx k _ _) (by rw [ctxOf, cueTurns_disp, ctxOf]) fun y stored => ?_
          rw [ctxOf_storeCtx] at stored
          split at stored
          · rename_i same
            subst same
            cases stored
            exact congrArg voidFetch (h x held)
          · exact h y (by rwa [ctxOf, removeWaiting_disp] at stored)
        · exact h
      · exact h
    · exact h
  · exact h

/-- The test of the due list requests no fetch under a fault, for the cue that it may accept neither. -/
theorem dueTest_unfetched {j : CtxNo} {s : State} (fault : s.pe.fault.isSome = true) (h : Unfetched j s) :
    Unfetched j (dueTest s).1 := by
  unfold dueTest
  split
  · exact h
  · rename_i n rest due
    split
    · rename_i c k _ _
      split
      · have still : (pushed n c k (gaveWay s rest)).pe.fault.isSome = true := by
          rw [(pushed_local n c k s rest).engine]
          exact fault
        rw [acceptCue_eq due, feedTest_of_fault still]
        intro x held
        rw [ctxOf_pushed] at held
        split at held
        · cases held
          rfl
        · exact preemptTop_unfetched (s := { s with disp := { s.disp with due := rest } }) h x held
      · exact h
    · exact h

/-! ### The fetches are abandoned (R163, R168) -/

theorem endVoidFetch_unfetched {j k : CtxNo} {x : Context} {s : State} (fault : s.pe.fault.isSome = true)
    (h : k = j ∨ Unfetched j s) : Unfetched j (endVoidFetch k x s) := by
  have stored {y : Option Context} (idle : ∀ z, y = some z → z.fetch = .none) : Unfetched j (storeCtx k y s) := by
    rcases h with rfl | h
    · intro z held
      rw [ctxOf_storeCtx, if_pos rfl] at held
      exact idle z held
    · exact storeCtx_unfetched h idle
  unfold endVoidFetch
  split
  · exact stored (by simp)
  · exact dueTest_unfetched (s := storeCtx k none s) fault (stored (by simp))

/-- The fetch of one context is abandoned, and that of the other does not begin. -/
theorem abandonFetch_unfetched {j k : CtxNo} {s : State} (fault : s.pe.fault.isSome = true) (h : k = j ∨ Unfetched j s) :
    Unfetched j (abandonFetch s k) := by
  unfold abandonFetch
  split
  · rename_i x held
    split
    · rename_i idle
      rcases h with rfl | h
      · intro y same
        rw [held] at same
        cases same
        exact idle
      · exact h
    · rcases h with rfl | h
      · intro y same
        rw [ctxOf_storeCtx, if_pos rfl] at same
        cases same
        rfl
      · exact storeCtx_unfetched h (by simp)
    · exact endVoidFetch_unfetched fault h
  · rename_i free
    rcases h with rfl | h
    · intro y same
      rw [free] at same
      cases same
    · exact h

/-- The state with every fetch abandoned, that of context 0 first. -/
def fetchesAbandoned (s : State) : State := ([0, 1] : List CtxNo).foldl abandonFetch s

theorem fetchesAbandoned_local (s : State) : Local s (fetchesAbandoned s) := .foldl abandonFetch_local _ s

theorem fetchesAbandoned_noFetch {s : State} (fault : s.pe.fault.isSome = true) : NoFetch (fetchesAbandoned s) := by
  have still : (abandonFetch s 0).pe.fault.isSome = true := by rwa [(abandonFetch_local s 0).engine]
  have first : Unfetched 0 (abandonFetch s 0) := abandonFetch_unfetched fault (.inl rfl)
  intro k
  show Unfetched k (abandonFetch (abandonFetch s 0) 1)
  match k with
  | 0 => exact abandonFetch_unfetched still (.inr first)
  | 1 => exact abandonFetch_unfetched still (.inl rfl)

/-! ### The fault is taken (R168, R174) -/

/-- The context of a fault of an access at an offset. -/
def faultContext (offset : Nat) (site : Site) (s : State) : FaultContext :=
  { offset := offset, write := site.write, op := site.op, frame := s.tb.frame }

/-- The state with the fault set, its attention raised, and no operation in flight. -/
def faulted (offset : Nat) (site : Site) (s : State) : State :=
  raise .pageFault { s with pe := { s.pe with
    fault := some (faultContext offset site s), lastFault := some (faultContext offset site s), op := none } }

theorem takeFault_eq (offset : Nat) (site : Site) (s : State) :
    takeFault offset site s = afterAbandoned s.pe.op (fetchesAbandoned (faulted offset site s)) := rfl

/-- With the fault set the end of an operation moves the run state and RUN alone. -/
theorem afterAbandoned_of_fault {s : State} (fault : s.pe.fault.isSome = true) (op : Option PageOp) :
    ∃ r run, afterAbandoned op s = { s with control := { s.control with runState := r, run := run } } := by
  unfold afterAbandoned
  split
  · exact ⟨_, _, rfl⟩
  · unfold haltCheck enterHalted enterStarting
    dsimp only
    rw [if_pos fault]
    split
    · split
      · exact ⟨_, _, rfl⟩
      · exact ⟨_, _, rfl⟩
    · exact ⟨_, _, rfl⟩
  · exact ⟨_, _, rfl⟩
  · exact ⟨_, _, rfl⟩

/-- The end of an operation that is no settings read leaves RUNNING as it is. -/
theorem afterAbandoned_of_running {s : State} (running : s.control.runState = .running) {op : Option PageOp}
    (unread : ∀ since, op ≠ some (.settingsRead since)) : afterAbandoned op s = s := by
  unfold afterAbandoned
  split
  · exact absurd rfl (unread _)
  · exact haltCheck_of_running running
  · rfl
  · rfl

theorem takeFault_leaves (offset : Nat) (site : Site) (s : State) :
    ∃ r run, takeFault offset site s = { fetchesAbandoned (faulted offset site s) with
      control := { (fetchesAbandoned (faulted offset site s)).control with runState := r, run := run } } := by
  have fault : (fetchesAbandoned (faulted offset site s)).pe.fault.isSome = true := by
    rw [(fetchesAbandoned_local _).engine]
    rfl
  exact afterAbandoned_of_fault fault s.pe.op

theorem fetchesAbandoned_op (offset : Nat) (site : Site) (s : State) :
    (fetchesAbandoned (faulted offset site s)).pe.op = none :=
  (undirty_eq_none_iff _).mp (fetchesAbandoned_local (faulted offset site s)).op

theorem takeFault_quiet (offset : Nat) (site : Site) (s : State) : QuietUnderFault (takeFault offset site s) := by
  obtain ⟨r, run, e⟩ := takeFault_leaves offset site s
  rw [e]
  exact fun _ => ⟨fetchesAbandoned_op .., fetchesAbandoned_noFetch rfl⟩

theorem takeFault_records (offset : Nat) (site : Site) (s : State) : RecordsKept s (takeFault offset site s) := by
  obtain ⟨r, run, e⟩ := takeFault_leaves offset site s
  have set : RecordsKept s (faulted offset site s) := ⟨⟨[], by simp [faulted]⟩, fun _ => rfl, fun f held => raise_flags _ f _ held⟩
  rw [e]
  exact (set.trans (fetchesAbandoned_local _).records).trans (.same rfl rfl)

theorem accessFailed_undisturbed (a : Access) (offset : Nat) (s : State) : Undisturbed s (accessFailed a offset s) := by
  unfold accessFailed
  split
  · exact ⟨takeFault_records .., fun _ => takeFault_quiet _ _ _⟩
  · exact .refl s

theorem accessLate_undisturbed (a : Access) (offset : Nat) (s : State) : Undisturbed s (accessLate a offset s) := by
  unfold accessLate
  split
  · split
    · exact ⟨takeFault_records .., fun _ => takeFault_quiet _ _ _⟩
    · exact .refl s
  · exact .refl s

/-- Both sides with another control record. -/
theorem DisplayFrame.withControl {s t : State} (h : DisplayFrame s t) (c : Control) :
    DisplayFrame { s with control := c } { t with control := c } :=
  { h with control := rfl, records := ⟨h.records.buffer, h.records.full, fun _ set => set⟩ }

/-! ### The commands in the state they find -/

theorem exec_pageFault {m : Moment} {s a : State} (h : Finds m s a) (access : Access) (offset : Nat) :
    exec (.pageFault m access offset) s = .next (accessFailed access offset a) :=
  congrArg Host.Outcome.next (event_of_finds h _)

theorem exec_accessTimeout {m : Moment} {s a : State} (h : Finds m s a) (access : Access) (offset : Nat) :
    exec (.accessTimeout m access offset) s = .next (accessLate access offset a) :=
  congrArg Host.Outcome.next (event_of_finds h _)

/-- Settles O53, by what the abandoned fetches leave: both commands take the fault of the access in flight. -/
theorem failedAccessIsAPageFault : Obligations.FailedAccessIsAPageFault := by
  intro m access offset s a site finds at_site
  refine ⟨fun early => ?_, fun c command => ⟨takeFault offset site a, ?_, ?_⟩⟩
  · rw [exec_accessTimeout finds, accessLate, at_site]
    exact congrArg _ (if_neg (Nat.not_le.mpr early))
  · rcases command with rfl | ⟨rfl, late⟩
    · rw [exec_pageFault finds, accessFailed, at_site]
    · rw [exec_accessTimeout finds, accessLate, at_site]
      exact congrArg _ (if_pos late)
  · have shown := (fetchesAbandoned_local (faulted offset site a)).toDisplayFrame
    obtain ⟨r, run, e⟩ := takeFault_leaves offset site a
    have engine : (takeFault offset site a).pe = (fetchesAbandoned (faulted offset site a)).pe := by rw [e]
    have disp : (takeFault offset site a).disp = (fetchesAbandoned (faulted offset site a)).disp := by rw [e]
    have fault : (takeFault offset site a).pe.fault = some (faultContext offset site a) := by rw [engine, shown.engine]; rfl
    have last : (takeFault offset site a).pe.lastFault = some (faultContext offset site a) := by
      rw [engine, shown.engine]; rfl
    refine ⟨fault, last.trans fault.symm, ?_, ?_, fun k x held => ?_, fun since reads => ?_, fun running unread => ?_, ?_,
      takeFault_records ..⟩
    · have set := shown.records.flags .pageFault (raise_set ..)
      rw [e]
      exact set
    · rw [engine]
      exact fetchesAbandoned_op ..
    · refine fetchesAbandoned_noFetch (s := faulted offset site a) rfl k x ?_
      rwa [ctxOf, ← disp]
    · rw [takeFault_eq, reads]
      exact ⟨rfl, rfl⟩
    · have still : (fetchesAbandoned (faulted offset site a)).control.runState = .running := by
        rw [shown.control]
        exact running
      rw [takeFault_eq, afterAbandoned_of_running still unread, still]
    · have frame := shown.withControl (takeFault offset site a).control
      rw [show { fetchesAbandoned (faulted offset site a) with control := (takeFault offset site a).control } =
        takeFault offset site a by rw [e]] at frame
      rw [last, fault]
      exact frame

end Sys2Proof.Machine
end

