-- ==== Sys2Proof/Proofs/QuietSteps.lean ====
section
/-! What each command leaves alone: the records and the flags (R154, R156, R165, R166, R177), the quiet of the page engine under
a fault (R163, R168), and the host's side, which is host memory, the page base and the commands that wait (R152, R153, R172).
An operation in flight shows that no fault is set, which is why the next step of a pass may begin. -/

namespace Sys2Proof.Machine

/-! ### The steps of a pass (R155, R156, R162 to R167) -/

theorem startSettings_op (g c : Word32) (s : State) : ∃ op, startSettings g c s = withOp op s := by
  unfold startSettings
  split
  · exact ⟨_, rfl⟩
  · exact startCueTable_op ..

/-- Where the fetch that a context may not repeat is forgotten, no fetch begins (R169). -/
theorem allowRefetch_undisturbed (s : State) : Undisturbed s (allowRefetch s) := by
  refine ⟨.same rfl rfl, fun quiet fault => ⟨(quiet fault).1, fun k x held => ?_⟩⟩
  rw [ctxOf_allowRefetch, Option.map_eq_some_iff] at held
  obtain ⟨y, before, rfl⟩ := held
  exact (quiet fault).2 k y before

theorem endPass_undisturbed (s : State) : Undisturbed s (endPass s) :=
  ((withOp_undisturbed fun _ => rfl).trans (allowRefetch_undisturbed _)).trans (haltCheck_undisturbed _)

theorem withOp_quiet {s : State} (noFault : s.pe.fault = none) (op : Option PageOp) : QuietUnderFault (withOp op s) :=
  quiet_of_noFault noFault

theorem withOp_records (op : Option PageOp) (s : State) : RecordsKept s (withOp op s) := .same rfl rfl

theorem startJournal_records (flush : Bool) (g c : Word32) (s : State) : RecordsKept s (startJournal flush g c s) := by
  unfold startJournal
  split
  · split
    · exact withOp_records ..
    · exact (endPass_undisturbed s).records
  · exact (endPass_undisturbed s).records

theorem startJournal_quiet {s : State} (noFault : s.pe.fault = none) (flush : Bool) (g c : Word32) :
    QuietUnderFault (startJournal flush g c s) := by
  have ended := (endPass_undisturbed s).quiet (quiet_of_noFault noFault)
  unfold startJournal
  split
  · split
    · exact quiet_of_noFault noFault
    · exact ended
  · exact ended

/-- What a completion answers is undisturbed where its first part is, and leaves a part without a fault without one. -/
theorem Undisturbed.of_busy {s t : State} {op : PageOp} (busy : s.pe.op = some op) (records : RecordsKept s t)
    (quiet : s.pe.fault = none → QuietUnderFault t) : Undisturbed s t :=
  ⟨records, fun before => quiet (before.noFault busy)⟩

theorem acceptMark_fault (mark : Word32) (s : State) : (acceptMark mark s).pe.fault = s.pe.fault := by
  unfold acceptMark
  dsimp only
  split <;> split <;> rfl

theorem headerRead_keepsQuiet (words : HeaderWords) : KeepsQuiet (headerRead words) := by
  intro s quiet
  unfold headerRead
  split
  · rename_i busy
    have noFault : (acceptMark words.readMark s).pe.fault = none := by rw [acceptMark_fault, quiet.noFault busy]
    dsimp only
    split
    · obtain ⟨op, e⟩ := startSlots_op 0 true words.generation words.cueChange (acceptMark words.readMark s)
      rw [e]
      exact withOp_quiet noFault op
    · obtain ⟨op, e⟩ := startSettings_op words.generation words.cueChange (acceptMark words.readMark s)
      rw [e]
      exact withOp_quiet noFault op
  · exact quiet

theorem applyRunning_fault (generation : Word32) (block : List Byte) (s : State) :
    (applyRunning generation block s).pe.fault = s.pe.fault := by
  rw [applyRunning_eq]
  obtain ⟨attn, buffer, lost, e⟩ := reportSettings_leaves generation (clampedFields block) (ignoredOf block s)
    (leadTaken (parseSettings block) s)
  rw [e]
  show (leadTaken (parseSettings block) s).pe.fault = s.pe.fault
  rw [(leadTaken_onAir ..).engine]

theorem settingsRead_undisturbed (block : List Byte) (s : State) : Undisturbed s (settingsRead block s) := by
  unfold settingsRead
  split
  · rename_i g c since busy
    have applied := applyRunning_undisturbed g block s
    obtain ⟨op, e⟩ := startCueTable_op g c (applyRunning g block s)
    rw [e]
    exact .of_busy busy (applied.records.trans (withOp_records ..)) fun noFault =>
      withOp_quiet ((applyRunning_fault ..).trans noFault) op
  · exact .refl s

theorem handedOver_undisturbed (cueChange : Word32) (table : List Byte) (s : State) :
    Undisturbed s (clearScanMarks (handTable table (seeCueChange cueChange s))) := by
  have seen : Undisturbed s (seeCueChange cueChange s) := .of_eq rfl
  have cleared (t : State) : Undisturbed t (clearScanMarks t) := .of_eq rfl
  exact (seen.trans (.of_local (handTable_local table _))).trans (cleared _)

theorem handedOver_fault (cueChange : Word32) (table : List Byte) (s : State) :
    (clearScanMarks (handTable table (seeCueChange cueChange s))).pe.fault = s.pe.fault := by
  have cleared (t : State) : (clearScanMarks t).pe.fault = t.pe.fault := rfl
  have seen : (seeCueChange cueChange s).pe.fault = s.pe.fault := rfl
  rw [cleared, (handTable_local ..).engine, ← seen]

theorem cueTableRead_undisturbed (table : List Byte) (s : State) : Undisturbed s (cueTableRead table s) := by
  unfold cueTableRead
  split
  · rename_i g c since busy
    obtain ⟨op, e⟩ := startSlots_op 0 false g c (clearScanMarks (handTable table (seeCueChange c s)))
    rw [e]
    exact .of_busy busy ((handedOver_undisturbed ..).records.trans (withOp_records ..)) fun noFault =>
      withOp_quiet ((handedOver_fault ..).trans noFault) op
  · exact .refl s

/-! ### The writes of a pass (R162, R164, R166) -/

/-- The page written and a slot's mark put, and a slot whose terminal state is written released (R162). -/
def slotStored (n : SlotNo) (data : List (Nat × List Byte)) (terminal dirty : Bool) (s : State) : State :=
  let u := { writePage data s with pe := { (writePage data s).pe with marks := put (writePage data s).pe.marks n dirty } }
  if terminal then releaseSlot n u else u

theorem slotStored_undisturbed (n : SlotNo) (data : List (Nat × List Byte)) (terminal dirty : Bool) (s : State) :
    Undisturbed s (slotStored n data terminal dirty s) := by
  have marked : Undisturbed s { writePage data s with
      pe := { (writePage data s).pe with marks := put (writePage data s).pe.marks n dirty } } := .of_eq rfl
  unfold slotStored
  dsimp only
  split
  · exact marked.trans (.of_local (storeCue_local ..))
  · exact marked

theorem slotStored_fault (n : SlotNo) (data : List (Nat × List Byte)) (terminal dirty : Bool) (s : State) :
    (slotStored n data terminal dirty s).pe.fault = s.pe.fault := by
  unfold slotStored
  dsimp only
  split <;> rfl

theorem slotWritten_undisturbed (s : State) : Undisturbed s (slotWritten s) := by
  unfold slotWritten
  split
  · rename_i flush n data terminal dirty g c since busy
    obtain ⟨next, e⟩ := startSlots_op (n.val + 1) flush g c (slotStored n data terminal dirty s)
    show Undisturbed s (startSlots (n.val + 1) flush g c (slotStored n data terminal dirty s))
    rw [e]
    exact .of_busy busy ((slotStored_undisturbed ..).records.trans (withOp_records ..)) fun noFault =>
      withOp_quiet ((slotStored_fault ..).trans noFault) next
  · exact .refl s

theorem writePage_undisturbed (data : List (Nat × List Byte)) (s : State) : Undisturbed s (writePage data s) := .of_eq rfl

theorem statusWritten_undisturbed (s : State) : Undisturbed s (statusWritten s) := by
  unfold statusWritten
  split
  · rename_i flush data g c since busy
    exact .of_busy busy ((writePage_undisturbed data s).records.trans (startJournal_records ..)) fun noFault =>
      startJournal_quiet (s := writePage data s) noFault flush g c
  · exact .refl s

/-- The page written, and the head record out of the buffer (R166). -/
def recordStored (data : List (Nat × List Byte)) (s : State) : State :=
  raise .journal { writePage data s with pe := { (writePage data s).pe with
    buffer := (writePage data s).pe.buffer.drop 1, writeCount := (writePage data s).pe.writeCount + 1 } }

theorem recordStored_fault (data : List (Nat × List Byte)) (s : State) : (recordStored data s).pe.fault = s.pe.fault := rfl

theorem journalWritten_keepsQuiet : KeepsQuiet journalWritten := by
  intro s quiet
  unfold journalWritten
  split
  · rename_i flush data g c since busy
    exact startJournal_quiet ((recordStored_fault data s).trans (quiet.noFault busy)) flush g c
  · exact quiet

/-! ### The settings read of STARTING (R160, R174, R175) -/

theorem acceptMark_keepsQuiet (mark : Word32) : KeepsQuiet (acceptMark mark) := by
  intro s quiet
  unfold acceptMark
  dsimp only
  split <;> split <;> exact quiet.same rfl rfl rfl

theorem pendRunStart_undisturbed (s : State) : Undisturbed s (pendRunStart s) := .of_eq rfl

theorem startingRead_keepsQuiet (words : HeaderWords) (block : List Byte) : KeepsQuiet (startingRead words block) := by
  intro s quiet
  unfold startingRead
  split
  · have ended : QuietUnderFault (withOp none s) := (withOp_undisturbed fun _ => rfl).quiet quiet
    split
    · have applied := (applyStarting_undisturbed words.generation block _).quiet ended
      have marked : QuietUnderFault (startingApplied words block (withOp none s)) :=
        (pendRunStart_undisturbed _).quiet (acceptMark_keepsQuiet words.readMark _ applied)
      exact (enterRunning_undisturbed _).quiet marked
    · exact ended.same rfl rfl rfl
  · exact quiet

/-! ### Entering STARTING and leaving RUNNING (R174, R175) -/

/-- A context whose fetch is none is ended at once, so that none is fetching where none was. -/
theorem haltDisplay_undisturbed (s : State) : Undisturbed s (haltDisplay s) := by
  have halted := Undisturbed.of_local (.foldl haltCue_local allSlots s)
  unfold haltDisplay
  dsimp only
  generalize allSlots.foldl haltCue s = u at halted
  refine halted.trans ⟨.same rfl rfl, fun quiet fault => ⟨(quiet fault).1, fun k x held => ?_⟩⟩
  rw [ctxOf, get_map] at held
  cases before : get u.disp.ctx k with
  | none => simp [before, haltCtx] at held
  | some y => simp [before, haltCtx, (quiet fault).2 k y before] at held

theorem startFlush_undisturbed (s : State) : Undisturbed s (startFlush s) := by
  unfold startFlush
  split
  · exact withOp_undisturbed fun _ => rfl
  · rename_i noFault
    exact withOp_undisturbed fun fault => absurd fault noFault

theorem leaveRunning_undisturbed (s : State) : Undisturbed s (leaveRunning s) := by
  have stopped (t : State) : Undisturbed t (stoppedBlocks t) := .of_eq rfl
  have scheduled (t : State) : Undisturbed t (haltSchedule t) := .of_eq rfl
  rw [leaveRunning_eq]
  exact (((haltDisplay_undisturbed s).trans (scheduled _)).trans (stopped _)).trans (startFlush_undisturbed _)

theorem writeRun_undisturbed (run : Bool) (s : State) : Undisturbed s (writeRun run s) := by
  have set := setRunState_undisturbed s s.control.runState run
  unfold writeRun
  dsimp only
  split
  · exact set.trans (enterStarting_undisturbed _)
  · exact set
  · exact set.trans (leaveRunning_undisturbed _)
  all_goals exact set

theorem writeFreeze_undisturbed (freeze : Bool) (s : State) : Undisturbed s (writeFreeze freeze s) := by
  unfold writeFreeze
  split
  · exact .of_eq rfl
  · exact .refl s

/-! ### Resets and the register window (R171 to R178) -/

theorem resetBlocks_quiet (s : State) : QuietUnderFault (resetBlocks s) := quiet_of_noFault rfl

theorem hardwareResetNow_quiet (s : State) : QuietUnderFault (hardwareResetNow s) := (resetBlocks_quiet s).same rfl rfl rfl

theorem softResetNow_quiet (s : State) : QuietUnderFault (softResetNow s) := (resetBlocks_quiet s).same rfl rfl rfl

theorem resetRises_keepsQuiet : KeepsQuiet resetRises := by
  intro s quiet
  unfold resetRises
  split
  · exact (resetBlocks_quiet s).same rfl rfl rfl
  · exact quiet

theorem writeControl_of_noReset {word : Word32} (noReset : softResetBit word = false) (s : State) :
    writeControl word s = writeFreeze (wordBit word 1) (writeRun (wordBit word 0) s) :=
  if_neg (by rw [wordBit, ← softResetBit, noReset]; decide)

theorem writeControl_undisturbed {word : Word32} (noReset : softResetBit word = false) (s : State) :
    Undisturbed s (writeControl word s) := by
  rw [writeControl_of_noReset noReset]
  exact (writeRun_undisturbed ..).trans (writeFreeze_undisturbed ..)

theorem writeControl_keepsQuiet (word : Word32) : KeepsQuiet (writeControl word) := by
  intro s quiet
  cases reset : softResetBit word with
  | true =>
    rw [show writeControl word s = softResetNow s from if_pos reset]
    exact softResetNow_quiet s
  | false => exact (writeControl_undisturbed reset s).quiet quiet

/-- The fault's end leaves no fault (R169). -/
theorem endFault_keepsQuiet : KeepsQuiet endFault := by
  intro s quiet
  unfold endFault
  split
  · rename_i context fault
    let u : State := { s with pe := { s.pe with fault := none } }
    have recorded : QuietUnderFault (journal (.pageRecovered context) u) :=
      (journal_undisturbed ..).quiet (quiet_of_noFault rfl)
    dsimp only
    split
    · exact recorded.same rfl rfl rfl
    · exact recorded
  · exact quiet

theorem writeAttn_keepsQuiet (word : Word32) : KeepsQuiet (writeAttn word) := by
  intro s quiet
  have cleared : QuietUnderFault { s with control := { s.control with attn := s.control.attn &&& word.setWidth 8 } } :=
    quiet.same rfl rfl rfl
  unfold writeAttn
  dsimp only
  split
  · exact cleared
  · exact endFault_keepsQuiet _ cleared

theorem writeEnable_undisturbed (word : Word32) (s : State) : Undisturbed s (writeEnable word s) := .of_eq rfl

theorem writeBase_undisturbed (high : Bool) (word : Word32) (s : State) : Undisturbed s (writeBase high word s) := by
  unfold writeBase
  split
  · exact .of_eq rfl
  · exact .refl s

theorem writeRegister_keepsQuiet (reg : Reg) (word : Word32) : KeepsQuiet (writeRegister reg word) := by
  cases reg with
  | ident => exact fun _ => id
  | control => exact writeControl_keepsQuiet word
  | status => exact fun _ => id
  | attn => exact writeAttn_keepsQuiet word
  | attnEnable => exact .of_undisturbed (writeEnable_undisturbed word)
  | pageBaseLo => exact .of_undisturbed (writeBase_undisturbed false word)
  | pageBaseHi => exact .of_undisturbed (writeBase_undisturbed true word)

end Sys2Proof.Machine
end

