-- ==== Sys2Proof/Proofs/WhatCommandsKeep.lean ====
section
/-! What every command keeps: the quiet of the page engine under a fault, the records and the flags, and the host's side. -/

namespace Sys2Proof.Machine

/-! ### The commands the spec gives an effect of their own -/

/-- The completions of page writes (R162, R164, R166). -/
def writesPage : Instr → Bool
  | .slotWriteComplete _ | .statusWriteComplete _ | .journalWriteComplete _ => true
  | _ => false

/-- The commands that set the page base: writes to the window, and the two edges of RESET_N (R172, R176). -/
def writesBase : Instr → Bool
  | .pageBaseWrite .. | .registerWriteDiscarded .. | .hardwareReset _ | .resetNRise _ => true
  | _ => false

/-- The commands that remove a record or clear a flag (R156, R160, R166, R176, R177). -/
def clears : Instr → Bool
  | .journalWriteComplete _ | .attnClear .. | .pageFaultClear .. | .registerWriteDiscarded .. | .headerReadComplete ..
  | .settingsReadComplete .. | .hardwareReset _ | .resetNRise _ | .softReset .. => true
  | _ => false

/-! ### The host's side -/

/-- The commands that wait stay, and host memory and the page base but where they may be written. -/
structure HostSide (page base : Bool) (s t : State) : Prop where
  pending : t.pending = s.pending
  mem : page = false → t.mem = s.mem
  base : base = false → t.pe.base = s.pe.base

theorem HostSide.trans {p b : Bool} {s t u : State} (h : HostSide p b s t) (g : HostSide p b t u) : HostSide p b s u :=
  ⟨g.pending.trans h.pending, fun page => (g.mem page).trans (h.mem page), fun base => (g.base base).trans (h.base base)⟩

theorem HostSide.of_keeps {p b : Bool} {s t : State} (h : Keeps s t) : HostSide p b s t :=
  ⟨h.pending, fun _ => h.mem, fun _ => h.base⟩

theorem arrive_hostSide {p b : Bool} (m : Moment) (s : State) : HostSide p b s (arrive m s) :=
  ⟨arrive_pending m s, fun _ => arrive_mem m s, fun _ => arrive_base m s⟩

theorem event_hostSide {p b : Bool} {f : State → State} (h : ∀ s, HostSide p b s (f s)) (m : Moment) (s : State) :
    HostSide p b s (event m f s) := by
  unfold event
  split
  · exact arrive_hostSide m s
  · exact (arrive_hostSide m s).trans (h _)

theorem piece_hostSide {p b : Bool} {f : State → State} (h : ∀ s, HostSide p b s (f s)) (m : Moment) (s : State) :
    HostSide p b s (piece m f s) := by
  have later : HostSide p b s (advance m s) := ⟨rfl, fun _ => rfl, fun _ => rfl⟩
  unfold piece
  split
  · exact later
  · exact later.trans (h _)

theorem writePage_hostSide {b : Bool} (data : List (Nat × List Byte)) (s : State) : HostSide true b s (writePage data s) :=
  ⟨rfl, nofun, fun _ => rfl⟩

theorem slotWritten_hostSide {b : Bool} (s : State) : HostSide true b s (slotWritten s) := by
  unfold slotWritten
  split
  · rename_i flush n data terminal dirty g c since op
    have stored : HostSide true b s (slotStored n data terminal dirty s) := by
      unfold slotStored
      dsimp only
      split
      all_goals exact ⟨rfl, nofun, fun _ => rfl⟩
    exact stored.trans (.of_keeps (startSlots_keeps ..))
  · exact .of_keeps (.refl s)

theorem statusWritten_hostSide {b : Bool} (s : State) : HostSide true b s (statusWritten s) := by
  unfold statusWritten
  split
  · exact (writePage_hostSide ..).trans (.of_keeps (startJournal_keeps ..))
  · exact .of_keeps (.refl s)

theorem journalWritten_hostSide {b : Bool} (s : State) : HostSide true b s (journalWritten s) := by
  unfold journalWritten
  split
  · rename_i flush data g c since op
    have stored : HostSide true b s (recordStored data s) := ⟨rfl, nofun, fun _ => rfl⟩
    exact stored.trans (.of_keeps (startJournal_keeps ..))
  · exact .of_keeps (.refl s)

theorem hardwareResetNow_hostSide {p : Bool} (s : State) : HostSide p true s (hardwareResetNow s) := ⟨rfl, fun _ => rfl, nofun⟩

theorem resetRises_hostSide {p : Bool} (s : State) : HostSide p true s (resetRises s) := by
  unfold resetRises
  split
  · exact ⟨rfl, fun _ => rfl, nofun⟩
  · exact .of_keeps (.refl s)

theorem writeControl_hostSide {p b : Bool} (word : Word32) (s : State) : HostSide p b s (writeControl word s) := by
  unfold writeControl
  split
  · exact ⟨rfl, fun _ => rfl, fun _ => rfl⟩
  · exact .of_keeps ((writeRun_keeps ..).trans (writeFreeze_keeps ..))

theorem writeBase_hostSide {p : Bool} (high : Bool) (word : Word32) (s : State) : HostSide p true s (writeBase high word s) := by
  unfold writeBase
  split
  · exact ⟨rfl, fun _ => rfl, nofun⟩
  · exact .of_keeps (.refl s)

theorem writeRegister_hostSide {p : Bool} (reg : Reg) (word : Word32) (s : State) :
    HostSide p true s (writeRegister reg word s) := by
  cases reg with
  | ident => exact .of_keeps (.refl s)
  | control => exact writeControl_hostSide word s
  | status => exact .of_keeps (.refl s)
  | attn => exact .of_keeps (writeAttn_keeps word s)
  | attnEnable => exact .of_keeps (writeEnable_keeps word s)
  | pageBaseLo => exact writeBase_hostSide false word s
  | pageBaseHi => exact writeBase_hostSide true word s

/-! ### How a command finds the part -/

theorem advance_undisturbed (m : Moment) (s : State) : Undisturbed s (advance m s) := .of_eq rfl

theorem arrive_undisturbed (m : Moment) (s : State) : Undisturbed s (arrive m s) :=
  (settle_undisturbed s).trans (advance_undisturbed ..)

theorem event_undisturbed {f : State → State} (h : ∀ s, Undisturbed s (f s)) (m : Moment) (s : State) :
    Undisturbed s (event m f s) := by
  unfold event
  split
  · exact arrive_undisturbed m s
  · exact (arrive_undisturbed m s).trans (h _)

theorem piece_undisturbed {f : State → State} (h : ∀ s, Undisturbed s (f s)) (m : Moment) (s : State) :
    Undisturbed s (piece m f s) := by
  unfold piece
  split
  · exact advance_undisturbed m s
  · exact (advance_undisturbed m s).trans (h _)

theorem event_keepsQuiet {f : State → State} (h : KeepsQuiet f) (m : Moment) : KeepsQuiet (event m f) := by
  intro s quiet
  have found := (arrive_undisturbed m s).quiet quiet
  unfold event
  split
  · exact found
  · exact h _ found

/-! ### The commands -/

/-- Command c from s to t: the host's side, the records and the flags stay but where the spec lets c change them, and the page
engine stays quiet. -/
structure Sparing (c : Instr) (s t : State) : Prop where
  host : HostSide (writesPage c) (writesBase c) s t
  records : c.wellFormed = true → clears c = false → RecordsKept s t
  quiet : QuietUnderFault s → QuietUnderFault t

/-- Every command answers a state, sparingly. -/
theorem exec_sparing (c : Instr) (s : State) : ∃ t, exec c s = .next t ∧ Sparing c s t := by
  have found {f : State → State} (k : ∀ s, Keeps s (f s)) (u : ∀ s, Undisturbed s (f s)) (m : Moment) :
      Sparing c s (event m f s) :=
    ⟨event_hostSide (fun s => .of_keeps (k s)) m s, fun _ _ => (event_undisturbed u m s).records, (event_undisturbed u m s).quiet⟩
  have taken {f : State → State} (k : ∀ s, Keeps s (f s)) (u : ∀ s, Undisturbed s (f s)) (m : Moment) :
      Sparing c s (piece m f s) :=
    ⟨piece_hostSide (fun s => .of_keeps (k s)) m s, fun _ _ => (piece_undisturbed u m s).records, (piece_undisturbed u m s).quiet⟩
  have written {f : State → State} (k : ∀ s, HostSide (writesPage c) (writesBase c) s (f s)) (u : ∀ s, Undisturbed s (f s))
      (m : Moment) : Sparing c s (event m f s) :=
    ⟨event_hostSide k m s, fun _ _ => (event_undisturbed u m s).records, (event_undisturbed u m s).quiet⟩
  have cleared {f : State → State} (k : ∀ s, HostSide (writesPage c) (writesBase c) s (f s)) (q : KeepsQuiet f) (m : Moment)
      (clearing : clears c = true) : Sparing c s (event m f s) :=
    ⟨event_hostSide k m s, fun _ not => by simp [clearing] at not, event_keepsQuiet q m s⟩
  have run (word : Word32) (m : Moment) (noReset : c.wellFormed = true → softResetBit word = false) :
      Sparing c s (event m (writeControl word) s) :=
    ⟨event_hostSide (writeControl_hostSide word) m s,
      fun formed _ => (event_undisturbed (writeControl_undisturbed (noReset formed)) m s).records,
      event_keepsQuiet (writeControl_keepsQuiet word) m s⟩
  cases c with
  | hardwareReset m =>
    exact ⟨_, rfl, (arrive_hostSide m s).trans (hardwareResetNow_hostSide _), nofun,
      fun _ => hardwareResetNow_quiet _⟩
  | softReset m word =>
    exact ⟨_, rfl, cleared (writeControl_hostSide word) (writeControl_keepsQuiet word) m rfl⟩
  | runSet m word => exact ⟨_, rfl, run word m fun formed => by simp_all [Instr.wellFormed]⟩
  | runClear m word => exact ⟨_, rfl, run word m fun formed => by simp_all [Instr.wellFormed]⟩
  | freeze m word => exact ⟨_, rfl, run word m fun formed => by simp_all [Instr.wellFormed]⟩
  | attnClear m word => exact ⟨_, rfl, cleared (fun s => .of_keeps (writeAttn_keeps word s)) (writeAttn_keepsQuiet word) m rfl⟩
  | pageFaultClear m word =>
    exact ⟨_, rfl, cleared (fun s => .of_keeps (writeAttn_keeps word s)) (writeAttn_keepsQuiet word) m rfl⟩
  | attnEnableWrite m word => exact ⟨_, rfl, found (writeEnable_keeps word) (writeEnable_undisturbed word) m⟩
  | pageBaseWrite m high word => exact ⟨_, rfl, written (writeBase_hostSide high word) (writeBase_undisturbed high word) m⟩
  | registerWriteDiscarded m reg word =>
    exact ⟨_, rfl, cleared (writeRegister_hostSide reg word) (writeRegister_keepsQuiet reg word) m rfl⟩
  | referencePulse m => exact ⟨_, rfl, found pulse_keeps pulse_undisturbed m⟩
  | lossExpiry m => exact ⟨_, rfl, found lossNow_keeps lossNow_undisturbed m⟩
  | freewheelExpiry m => exact ⟨_, rfl, found freewheelNow_keeps freewheelNow_undisturbed m⟩
  | tickStep m => exact ⟨_, rfl, found tickStepEvent_keeps tickStepEvent_undisturbed m⟩
  | characterAccepted m w edges => exact ⟨_, rfl, found (characterNow_keeps w edges) (characterNow_undisturbed w edges) m⟩
  | breakSeen m w space => exact ⟨_, rfl, found (breakSeenNow_keeps w space) (breakSeenNow_undisturbed w space) m⟩
  | resyncBreak m w space => exact ⟨_, rfl, found (resyncBreakNow_keeps w space) (resyncBreakNow_undisturbed w space) m⟩
  | spanTooLong m w => exact ⟨_, rfl, found (spanTooLongNow_keeps w) (spanTooLongNow_undisturbed w) m⟩
  | alignmentCharacter m w edges => exact ⟨_, rfl, found (alignmentNow_keeps w edges) (alignmentNow_undisturbed w edges) m⟩
  | resyncEnd m w mark => exact ⟨_, rfl, found (resyncEndNow_keeps w mark) (resyncEndNow_undisturbed w mark) m⟩
  | pauseEvent m w => exact ⟨_, rfl, taken (pauseWork_keeps w) (pauseWork_undisturbed w) m⟩
  | silentLead m => exact ⟨_, rfl, taken silentLeadNow_keeps silentLeadNow_undisturbed m⟩
  | handoffTimeout m => exact ⟨_, rfl, taken timeoutWork_keeps timeoutWork_undisturbed m⟩
  | onsetAged m => exact ⟨_, rfl, taken onsetsWork_keeps onsetsWork_undisturbed m⟩
  | lastOnsetLapse m => exact ⟨_, rfl, taken lastOnsetsWork_keeps lastOnsetsWork_undisturbed m⟩
  | bufferFreeLapse m => exact ⟨_, rfl, taken buffersWork_keeps buffersWork_undisturbed m⟩
  | mirrorPast m => exact ⟨_, rfl, taken mirrorWork_keeps mirrorWork_undisturbed m⟩
  | atFrameDue m => exact ⟨_, rfl, taken atFrameWork_keeps atFrameWork_undisturbed m⟩
  | cueWaitExpired m => exact ⟨_, rfl, taken expiryWork_keeps expiryWork_undisturbed m⟩
  | showRow m => exact ⟨_, rfl, taken showWork_keeps showWork_undisturbed m⟩
  | pendingClear m => exact ⟨_, rfl, taken clearWork_keeps clearWork_undisturbed m⟩
  | headerReadComplete m header =>
    exact ⟨_, rfl, cleared (fun s => .of_keeps (headerRead_keeps _ s)) (headerRead_keepsQuiet _) m rfl⟩
  | settingsApplication m block => exact ⟨_, rfl, found (settingsRead_keeps block) (settingsRead_undisturbed block) m⟩
  | settingsReadComplete m header block =>
    exact ⟨_, rfl, cleared (fun s => .of_keeps (startingRead_keeps _ block s)) (startingRead_keepsQuiet _ block) m rfl⟩
  | cueTableReadComplete m table => exact ⟨_, rfl, found (cueTableRead_keeps table) (cueTableRead_undisturbed table) m⟩
  | slotWriteComplete m => exact ⟨_, rfl, written slotWritten_hostSide slotWritten_undisturbed m⟩
  | statusWriteComplete m => exact ⟨_, rfl, written statusWritten_hostSide statusWritten_undisturbed m⟩
  | journalWriteComplete m => exact ⟨_, rfl, cleared journalWritten_hostSide journalWritten_keepsQuiet m rfl⟩
  | fetchComplete m ctx entry =>
    exact ⟨_, rfl, found (completeFetch_keeps ctx entry) (fun _ => .of_local (completeFetch_local ..)) m⟩
  | pageFault m access offset => exact ⟨_, rfl, found (accessFailed_keeps access offset) (accessFailed_undisturbed access offset) m⟩
  | accessTimeout m access offset => exact ⟨_, rfl, found (accessLate_keeps access offset) (accessLate_undisturbed access offset) m⟩
  | resetNRise m =>
    exact ⟨_, rfl, (arrive_hostSide m s).trans (resetRises_hostSide _), nofun,
      fun quiet => resetRises_keepsQuiet _ ((arrive_undisturbed m s).quiet quiet)⟩
  | alignmentStartEdge m w => exact ⟨_, rfl, found (startEdgeNow_keeps w) (startEdgeNow_undisturbed w) m⟩
  | spanMeasured m w rise => exact ⟨_, rfl, found (spanMeasuredNow_keeps w rise) (spanMeasuredNow_undisturbed w rise) m⟩

/-- What a command answers is sparing. -/
theorem sparing_of_exec {c : Instr} {s t : State} (next : exec c s = .next t) : Sparing c s t := by
  obtain ⟨u, answer, sparing⟩ := exec_sparing c s
  rw [next] at answer
  cases answer
  exact sparing

/-- Settles O58, by the command at the front of the queue. -/
theorem everyStepKeepsThePageQuietUnderAFault : Obligations.EveryStepKeepsThePageQuietUnderAFault := by
  intro s t quiet stepped
  unfold step at stepped
  split at stepped
  · cases stepped
    exact quiet
  · exact (sparing_of_exec stepped).quiet (quiet.same rfl rfl rfl)

/-- Settles O55, by what each command leaves of the host's side. -/
theorem onlyWriteCompletionsChangeHostMemory : Obligations.OnlyWriteCompletionsChangeHostMemory := by
  intro c s t next
  have host := (sparing_of_exec next).host
  refine ⟨host.pending, fun slot status record => host.mem ?_, fun base discarded falls rises => host.base ?_⟩
  · unfold writesPage
    split
    · exact absurd rfl (slot _)
    · exact absurd rfl (status _)
    · exact absurd rfl (record _)
    · rfl
  · unfold writesBase
    split
    · exact absurd rfl (base _ _ _)
    · exact absurd rfl (discarded _ _ _)
    · exact absurd rfl (falls _)
    · exact absurd rfl (rises _)
    · rfl

/-- Settles O56, by what each command leaves of the records and the flags. -/
theorem recordsAndFlagsStay : Obligations.RecordsAndFlagsStay := by
  intro c s t formed next record attn fault discarded header settings falls rises soft
  refine (sparing_of_exec next).records formed ?_
  unfold clears
  split
  · exact absurd rfl (record _)
  · exact absurd rfl (attn _ _)
  · exact absurd rfl (fault _ _)
  · exact absurd rfl (discarded _ _ _)
  · exact absurd rfl (header _ _)
  · exact absurd rfl (settings _ _ _)
  · exact absurd rfl (falls _)
  · exact absurd rfl (rises _)
  · exact absurd rfl (soft _ _)
  · rfl

/-- Settles O60: every queue and list is empty, no fault is set, and LA's record is the reset one. -/
theorem resetIsSafe : Obligations.ResetIsSafe where
  bounds := {
    memory := rfl
    base := rfl
    buffer := Nat.zero_le _
    queue := Nat.zero_le _
    entries := Nat.zero_le _
    onsets := fun v => by simp [State.reset] }
  quiet := quiet_of_noFault rfl
  lead := {
    bonds := .reset
    partners := fun w => by simp [State.reset, writerOf, Settings.default, WriterSettings.default]
    stopped := fun _ => ⟨rfl, fun w => by simp [State.reset, portOf, Port.reset]⟩
    reading := fun since reads => by simp [State.reset, PageEngine.reset] at reads }

end Sys2Proof.Machine
end

