-- ==== Sys2Proof/Proofs/HeaderRead.lean ====
section
/-! Step 1 of a scan or flush (R155, R156, R167): the read mark that the header names is tested, and the next step begins. -/

namespace Sys2Proof.Machine

/-! ### The read mark (R156, R167) -/

/-- The read mark after a header that names mark: that one where at most 256 records lie past it. -/
def markTaken (mark : Word32) (s : State) : Word32 :=
  if (s.pe.writeCount - mark).toNat ≤ 256 then mark else s.pe.readMark

theorem markTaken_of_near {mark : Word32} {s : State} (near : (s.pe.writeCount - mark).toNat ≤ 256) :
    markTaken mark s = mark := if_pos near

theorem markTaken_of_far {mark : Word32} {s : State} (far : 256 < (s.pe.writeCount - mark).toNat) :
    markTaken mark s = s.pe.readMark := if_neg (Nat.not_le.mpr far)

/-- The flags after it: JOURNAL is cleared where no record is left unread. -/
def attnTaken (mark : Word32) (s : State) : BitVec 8 :=
  if markTaken mark s = s.pe.writeCount then s.control.attn &&& ~~~AttnFlag.journal.mask else s.control.attn

theorem acceptMark_eq (mark : Word32) (s : State) : acceptMark mark s = { s with
    control := { s.control with attn := attnTaken mark s }, pe := { s.pe with readMark := markTaken mark s } } := by
  by_cases near : (s.pe.writeCount - mark).toNat ≤ 256
  · simp only [acceptMark, attnTaken, markTaken, Config.ringRecords, near, if_true]
    split <;> rfl
  · simp only [acceptMark, attnTaken, markTaken, Config.ringRecords, near, if_false]
    split <;> rfl

/-- A flag that is lowered is clear, and every other one is as it was (R156). -/
theorem flagSet_lower (f g : AttnFlag) (s : State) : flagSet f (lower g s) = (flagSet f s && decide (f ≠ g)) := by
  rw [flagSet, lower_attn, BitVec.getLsbD_and, BitVec.getLsbD_not, AttnFlag.mask, BitVec.getLsbD_twoPow]
  cases f <;> cases g <;> simp [flagSet, AttnFlag.bit]

theorem attnTaken_of_read {mark : Word32} {s t : State} (read : markTaken mark s = s.pe.writeCount)
    (attn : t.control.attn = attnTaken mark s) :
    flagSet .journal t = false ∧ ∀ f, f ≠ .journal → flagSet f t = flagSet f s := by
  have lowered (f : AttnFlag) : flagSet f t = flagSet f (lower .journal s) := by
    rw [flagSet, attn, attnTaken, if_pos read]
    rfl
  refine ⟨by rw [lowered, flagSet_lower]; simp, fun f other => ?_⟩
  rw [lowered, flagSet_lower]
  simp [other]

/-! ### The step that follows (R155) -/

theorem startSettings_reads {g c : Word32} {s : State} (h : g ≠ s.pe.lastGeneration ∨ s.pe.recovery = true) :
    startSettings g c s = issue false .settings g c s := if_pos h

theorem startSettings_skips {g c : Word32} {s : State} (same : g = s.pe.lastGeneration) (recovery : s.pe.recovery = false) :
    startSettings g c s = startCueTable g c s := if_neg (by simp [same, recovery])

/-- Where no table is called for the first write follows. -/
theorem startSettings_writes {g c : Word32} {s : State} (generation : g = s.pe.lastGeneration)
    (recovery : s.pe.recovery = false) (cue : c = s.pe.lastCueChange) (runStart : s.pe.runStart = false) :
    startSettings g c s = startSlots 0 false g c s := by
  rw [startSettings_skips generation recovery, startCueTable_writes (by simp [cue, runStart, recovery])]

/-- The step that follows the header, with the mark taken. -/
def headerFollowed (flush : Bool) (words : HeaderWords) (s : State) : State :=
  if flush then startSlots 0 true words.generation words.cueChange (acceptMark words.readMark s)
  else startSettings words.generation words.cueChange (acceptMark words.readMark s)

theorem headerFollowed_op (flush : Bool) (words : HeaderWords) (s : State) :
    ∃ op, headerFollowed flush words s = withOp op (acceptMark words.readMark s) := by
  unfold headerFollowed
  split
  · exact startSlots_op ..
  · exact startSettings_op ..

theorem exec_headerReadComplete {m : Moment} {header : List Byte} {s a : State} {flush : Bool} {g c : Word32} {since : Nat}
    (finds : Finds m s a) (op : a.pe.op = some (.pass flush .header g c since)) :
    exec (.headerReadComplete m header) s = .next (headerFollowed flush (parseHeader header) a) := by
  have read : headerRead (parseHeader header) a = headerFollowed flush (parseHeader header) a := by
    simp only [headerRead, op]
    rfl
  exact congrArg Host.Outcome.next ((event_of_finds finds _).trans read)

/-- Settles O45, by the mark that is taken and the step that follows it. -/
theorem headerReadTestsTheReadMark : Obligations.HeaderReadTestsTheReadMark := by
  intro m header s a flush g c since finds op cueChange generation readMark
  let u := acceptMark readMark a
  let t := headerFollowed flush (parseHeader header) a
  have marked : u = { a with
      control := { a.control with attn := attnTaken readMark a }, pe := { a.pe with readMark := markTaken readMark a } } :=
    acceptMark_eq ..
  obtain ⟨next, e⟩ : ∃ next, t = withOp next u := headerFollowed_op ..
  have mark : t.pe.readMark = markTaken readMark a := by rw [e, marked]; rfl
  have attn : t.control.attn = attnTaken readMark a := by rw [e, marked]; rfl
  have last : u.pe.lastGeneration = a.pe.lastGeneration ∧ u.pe.recovery = a.pe.recovery ∧
      u.pe.lastCueChange = a.pe.lastCueChange ∧ u.pe.runStart = a.pe.runStart ∧ u.clock = a.clock := by
    rw [marked]
    exact ⟨rfl, rfl, rfl, rfl, rfl⟩
  obtain ⟨lastGeneration, recovery, lastCueChange, runStart, clock⟩ := last
  refine ⟨t, exec_headerReadComplete finds op, ?_, fun near => ?_, fun far => ?_, fun read => ?_, fun unread => ?_,
    fun scan reads => ?_, fun scan same noRecovery reads => ?_, fun writes => ?_⟩
  · rw [e, marked]
    rfl
  · rw [mark, markTaken_of_near near]
  · rw [mark, markTaken_of_far far]
  · exact attnTaken_of_read (mark ▸ read) attn
  · rw [attn, attnTaken, if_neg (mark ▸ unread)]
  · subst scan
    have reading := startSettings_reads (s := u) (g := generation) (c := cueChange) (by rwa [lastGeneration, recovery])
    rw [← clock]
    exact congrArg (fun x : State => x.pe.op) reading
  · subst scan
    have skipping := startSettings_skips (c := cueChange) (same.trans lastGeneration.symm) (recovery.trans noRecovery)
    have reading := startCueTable_reads (s := u) (g := generation) (c := cueChange)
      (by rw [lastCueChange, runStart]; exact reads.imp_right .inl)
    rw [← clock]
    exact congrArg (fun x : State => x.pe.op) (skipping.trans reading)
  · rcases writes with flushes | ⟨same, noRecovery, sameCue, noStart⟩
    · subst flushes
      exact startSlots_issues 0 true generation cueChange u
    · cases flush with
      | true => exact startSlots_issues 0 true generation cueChange u
      | false =>
        have writing := startSettings_writes (same.trans lastGeneration.symm) (recovery.trans noRecovery)
          (sameCue.trans lastCueChange.symm) (runStart.trans noStart)
        show WriteIssued 0 false generation cueChange (startSettings generation cueChange u)
        rw [writing]
        exact startSlots_issues 0 false generation cueChange u

end Sys2Proof.Machine
end

