-- ==== Sys2Proof/Proofs/PageLayout.lean ====
section
/-! How the bytes of a block lie (R179): what a piece of a block says of the block at the piece's offset, for pieces joined,
padded and listed, and what a field says of the number read back there. -/

namespace Sys2Proof.Machine

/-! ### A piece at an offset -/

/-- The bytes of x lie in b from an offset on. -/
def At (b : List Byte) (off : Nat) (x : List Byte) : Prop := ∀ i, i < x.length → b[off + i]? = x[i]?

theorem At.self (b : List Byte) : At b 0 b := fun i _ => by rw [Nat.zero_add]

theorem at_append {b : List Byte} {off : Nat} {x y : List Byte} :
    At b off (x ++ y) ↔ At b off x ∧ At b (off + x.length) y := by
  simp only [At, List.length_append]
  refine ⟨fun h => ⟨fun i low => ?_, fun i low => ?_⟩, fun ⟨first, second⟩ i low => ?_⟩
  · rw [h i (by omega), List.getElem?_append_left low]
  · rw [Nat.add_assoc, h _ (by omega), List.getElem?_append_right (by omega), Nat.add_sub_cancel_left]
  · rcases Nat.lt_or_ge i x.length with inFirst | inSecond
    · rw [first i inFirst, List.getElem?_append_left inFirst]
    · have there := second (i - x.length) (by omega)
      rw [List.getElem?_append_right inSecond, ← there]
      congr 1
      omega

theorem At.zeros {b : List Byte} {off n : Nat} (h : At b off (List.replicate n 0)) : ZeroBytes b off (off + n) := by
  intro i low high
  have there := h (i - off) (by rw [List.length_replicate]; omega)
  rwa [Nat.add_sub_cancel' low, List.getElem?_replicate, if_pos (by omega)] at there

/-! ### Padded fields (R179) -/

theorem padTo_of_le {n : Nat} {x : List Byte} (fits : x.length ≤ n) : padTo n x = x ++ List.replicate (n - x.length) 0 :=
  List.take_of_length_le (by simp; omega)

@[simp] theorem length_padTo (n : Nat) (x : List Byte) : (padTo n x).length = n := by
  simp only [padTo, List.length_take, List.length_append, List.length_replicate]
  omega

/-- A byte of a padded field is the field's, or 0. -/
theorem padTo_getElem? {n i : Nat} (low : i < n) (x : List Byte) : (padTo n x)[i]? = some (x.getD i 0) := by
  rw [padTo, List.getElem?_take_of_lt low]
  rcases Nat.lt_or_ge i x.length with inside | beyond
  · rw [List.getElem?_append_left inside, List.getElem?_eq_getElem inside, List.getD_eq_getElem _ _ inside]
  · rw [List.getElem?_append_right beyond, List.getElem?_replicate, if_pos (by omega), List.getD_eq_default _ _ beyond]

theorem At.padded {b : List Byte} {off n : Nat} {x : List Byte} (h : At b off (padTo n x)) (fits : x.length ≤ n) :
    At b off x ∧ ZeroBytes b (off + x.length) (off + n) := by
  rw [padTo_of_le fits, at_append] at h
  refine ⟨h.1, ?_⟩
  have zeros := h.2.zeros
  rwa [Nat.add_assoc, Nat.add_sub_cancel' fits] at zeros

/-! ### Lists of blocks of one length -/

theorem length_flatMap_blocks {α : Type} {f : α → List Byte} {k : Nat} (block : ∀ y, (f y).length = k) (l : List α) :
    (l.flatMap f).length = k * l.length := by
  induction l with
  | nil => rfl
  | cons y rest ih => rw [List.flatMap_cons, List.length_append, block, ih, List.length_cons, Nat.mul_add_one, Nat.add_comm]

theorem flatMap_getElem? {α : Type} {f : α → List Byte} {k : Nat} (block : ∀ y, (f y).length = k) (l : List α) (j : Nat)
    {i : Nat} (low : i < k) : (l.flatMap f)[k * j + i]? = l[j]?.bind fun y => (f y)[i]? := by
  induction l generalizing j with
  | nil => simp
  | cons y rest ih =>
    rw [List.flatMap_cons]
    cases j with
    | zero => rw [List.getElem?_append_left (by rw [block]; omega)]; simp
    | succ j =>
      rw [List.getElem?_append_right (by rw [block, Nat.mul_add_one]; omega), block,
        show k * (j + 1) + i - k = k * j + i by rw [Nat.mul_add_one]; omega, ih]
      rfl

/-- One block of a list. -/
theorem At.block {α : Type} {f : α → List Byte} {k : Nat} (block : ∀ y, (f y).length = k) {l : List α} {b : List Byte}
    {off j : Nat} {y : α} (h : At b off (l.flatMap f)) (listed : l[j]? = some y) : At b (off + k * j) (f y) := by
  intro i low
  rw [block] at low
  have inside : j < l.length := (List.getElem?_eq_some_iff.mp listed).1
  have whole : k * (j + 1) ≤ k * l.length := Nat.mul_le_mul_left k inside
  rw [Nat.add_assoc, h _ (by rw [length_flatMap_blocks block]; rw [Nat.mul_add_one] at whole; omega),
    flatMap_getElem? block l j low, listed]
  rfl

/-- One block of a padded list that may be longer than its field, or the zeros that stand in its place. -/
theorem At.paddedBlock {α : Type} {f : α → List Byte} {k n : Nat} (block : ∀ y, (f y).length = k) {l : List α}
    {b : List Byte} {off j : Nat} (h : At b off (padTo n (l.flatMap f))) (fits : k * (j + 1) ≤ n) :
    (l[j]? = none → ZeroBytes b (off + k * j) (off + k * j + k)) ∧ ∀ y, l[j]? = some y → At b (off + k * j) (f y) := by
  rw [Nat.mul_add_one] at fits
  have byte {i : Nat} (low : i < k) : b[off + k * j + i]? = some ((l[j]?.bind fun y => (f y)[i]?).getD 0) := by
    rw [Nat.add_assoc, h _ (by rw [length_padTo]; omega), padTo_getElem? (by omega), List.getD_eq_getElem?_getD,
      flatMap_getElem? block l j low]
  refine ⟨fun beyond i low high => ?_, fun y listed i low => ?_⟩
  · have there := byte (i := i - (off + k * j)) (by omega)
    rwa [Nat.add_sub_cancel' low, beyond] at there
  · rw [block] at low
    rw [byte low, listed]
    show some ((f y)[i]?.getD 0) = _
    rw [List.getElem?_eq_getElem (by rwa [block])]
    rfl

/-! ### The fields and their numbers (R179) -/

@[simp] theorem length_b1 (n : Nat) : (b1 n).length = 1 := rfl

@[simp] theorem length_b2 (n : Nat) : (b2 n).length = 2 := rfl

@[simp] theorem length_b4 (n : Nat) : (b4 n).length = 4 := rfl

@[simp] theorem length_bFlag (x : Bool) : (bFlag x).length = 1 := rfl

@[simp] theorem length_bFrame (f : Option Frame) : (bFrame f).length = 4 := by cases f <;> rfl

@[simp] theorem length_bWriter (w : Option Writer) : (bWriter w).length = 1 := by cases w <;> rfl

@[simp] theorem length_bHead (l : List SlotNo) : (bHead l).length = 1 := by cases l <;> rfl

@[simp] theorem length_bOffset (off : Option Nat) : (bOffset off).length = 1 := rfl

variable {b : List Byte} {off : Nat}

theorem At.byte {n : Nat} (h : At b off (b1 n)) : byteAt b off = n % 256 := by
  have there : b[off]? = some (BitVec.ofNat 8 n) := h 0 Nat.one_pos
  rw [byteAt, List.getD_eq_getElem?_getD, there]
  exact BitVec.toNat_ofNat ..

/-- A code that fits in a byte is read back. -/
theorem At.code {n : Nat} (h : At b off (b1 n)) (fits : n < 256) : byteAt b off = n := by
  rw [h.byte, Nat.mod_eq_of_lt fits]

/-- The low byte of a number, and the rest behind it. -/
theorem at_leBytes_succ {k n : Nat} : At b off (leBytes (k + 1) n) ↔ At b off (b1 n) ∧ At b (off + 1) (leBytes k (n / 256)) :=
  at_append (x := b1 n)

theorem At.half {n : Nat} (h : At b off (b2 n)) : le16 b off = n % 65536 := by
  obtain ⟨low, high⟩ := at_leBytes_succ.mp h
  rw [le16, low.byte, At.byte (n := n / 256) high]
  omega

theorem At.word {n : Nat} (h : At b off (b4 n)) : le32 b off = n % 2 ^ 32 := by
  obtain ⟨first, h⟩ := at_leBytes_succ.mp h
  obtain ⟨second, h⟩ := at_leBytes_succ.mp h
  obtain ⟨third, fourth⟩ := at_leBytes_succ.mp h
  rw [le32, le16, le16, first.byte, second.byte, At.byte (n := n / 256 / 256) third, At.byte (n := n / 256 / 256 / 256) fourth]
  omega

theorem At.word_of_lt {n : Nat} (h : At b off (b4 n)) (fits : n < 2 ^ 32) : le32 b off = n := by
  rw [h.word, Nat.mod_eq_of_lt fits]

theorem At.word32 {x : Word32} (h : At b off (b4 x.toNat)) : le32 b off = x.toNat := h.word_of_lt x.isLt

theorem At.frameNumber {x : Frame} (h : At b off (b4 x.toNat)) : le32 b off = x.toNat :=
  h.word_of_lt (x.isLt.trans (by decide))

theorem At.flag {x : Bool} (h : At b off (bFlag x)) : byteAt b off = flagCode x := by
  cases x <;> exact At.code h (by decide)

theorem At.frame {f : Option Frame} (h : At b off (bFrame f)) : le32 b off = frameCode f := by
  cases f with
  | none => exact At.word_of_lt h (by decide)
  | some x => exact At.frameNumber h

theorem At.writer {w : Option Writer} (h : At b off (bWriter w)) : byteAt b off = writerCode w := by
  cases w with
  | none => exact At.code h (by decide)
  | some x => exact At.code h (x.isLt.trans (by decide))

theorem At.head {l : List SlotNo} (h : At b off (bHead l)) : byteAt b off = headCode l := by
  cases l with
  | nil => exact At.code h (by decide)
  | cons n rest => exact At.code h (n.isLt.trans (by decide))

theorem At.zeroHalf (h : At b off (b2 0)) : ZeroBytes b off (off + 2) := At.zeros (n := 2) h

theorem At.zeroWord (h : At b off (b4 0)) : ZeroBytes b off (off + 4) := At.zeros (n := 4) h

/-- Zeros up to a place and on from it. -/
theorem ZeroBytes.trans {first mid last : Nat} (h : ZeroBytes b first mid) (g : ZeroBytes b mid last) :
    ZeroBytes b first last := fun i low high =>
  if before : i < mid then h i low before else g i (Nat.le_of_not_lt before) high

/-! ### The lists of writers, lines and buffers -/

theorem allWriters_getElem? (w : Writer) : allWriters[w.val]? = some w := by revert w; decide

theorem allLines_getElem? (i : LineNo) : allLines[i.val]? = some i := by revert i; decide

theorem allBuffers_getElem? (i : BufferNo) : allBuffers[i.val]? = some i := by revert i; decide

end Sys2Proof.Machine
end

