-- ==== Sys2Proof/Proofs/StatusLayout.lean ====
section
/-! The bytes of the header's part words, of the status block and of a cue slot lie as R180, R182 and R184 have them: each
section of the block by the fields it joins, and the block by its sections. -/

namespace Sys2Proof.Machine

variable {b : List Byte} {off : Nat}

/-! ### Codes (R171, R182 to R184, R186) -/

theorem pageCodes : PageCodes := by constructor <;> rfl

theorem PortMode.code_lt (x : PortMode) : x.code < 256 := by cases x <;> decide

theorem Role.code_lt (x : Role) : x.code < 256 := by cases x <;> decide

theorem RunState.code_lt (x : RunState) : x.code < 256 := by cases x <;> decide

theorem TbMode.code_lt (x : TbMode) : x.code < 256 := by cases x <;> decide

theorem LivePlace.code_lt (x : LivePlace) : x.code < 256 := by cases x <;> decide

theorem FetchState.code_lt (x : FetchState) : x.code < 256 := by cases x <;> decide

theorem Owed.code_lt (x : Owed) : x.code < 256 := by cases x <;> decide

theorem CueState.code_lt (x : CueState) : x.code < 256 := by cases x <;> decide

theorem CueReason.code_lt (x : CueReason) : x.code < 256 := by cases x <;> decide

theorem FaultOp.code_lt (x : FaultOp) : x.code < 256 := by cases x <;> simp [FaultOp.code]

/-- A number below 256 that stands in a wider type. -/
theorem At.index {n : Nat} {i : Fin n} (h : At b off (b1 i.val)) (small : n ≤ 256) : byteAt b off = i.val :=
  h.code (i.isLt.trans_le small)

/-! ### Cue slots (R184) -/

theorem length_cuePartBytes (c : Cue) : (cuePartBytes c).length = 16 := by simp [cuePartBytes]

theorem slotLaid_of_at {c : Cue} (length : b.length = 16) (laid : At b 0 (cuePartBytes c)) : SlotLaid c b := by
  rw [cuePartBytes, at_append] at laid
  obtain ⟨first, second⟩ := laid
  obtain ⟨counts, unused⟩ := first.padded (by simp)
  obtain ⟨frames, rest⟩ := second.padded (by simp)
  simp only [at_append, List.length_append, length_padTo, length_b1, length_bFrame] at counts unused frames rest
  obtain ⟨⟨reason, shown⟩, dropped⟩ := counts
  obtain ⟨due, start⟩ := frames
  exact {
    length := length
    reason := reason.code (CueReason.code_lt _)
    rows := ⟨shown.byte, dropped.byte⟩
    due := due.frame
    start := start.frame
    unused := ⟨unused, rest⟩ }

theorem cuePartBytes_laid (c : Cue) : SlotLaid c (cuePartBytes c) := slotLaid_of_at (length_cuePartBytes c) (.self _)

/-! ### The header (R180) -/

theorem length_headerBytes (s : State) : (headerBytes s).length = 28 := rfl

theorem headerLaid_of_at {s : State} (length : b.length = 28) (laid : At b 0 (headerBytes s)) : HeaderLaid s b := by
  rw [headerBytes] at laid
  simp only [at_append, List.length_append, length_b4] at laid
  obtain ⟨⟨⟨⟨⟨⟨frame, scans⟩, written⟩, lost⟩, skipped⟩, generation⟩, cueChange⟩ := laid
  exact {
    length := length
    frame := frame.frameNumber
    scans := scans.word32
    written := written.word32
    lost := lost.word32
    skipped := skipped.word32
    generation := generation.word32
    cueChange := cueChange.word32 }

theorem headerBytes_laid (s : State) : HeaderLaid s (headerBytes s) := headerLaid_of_at (length_headerBytes s) (.self _)

/-! ### The engine, the fault context and the writers (R32, R33, R164, R182) -/

@[simp] theorem length_contextBytes (c : Option FaultContext) : (contextBytes c).length = 12 := by cases c <;> rfl

theorem contextLaid_of_at {c : Option FaultContext} (h : At b off (contextBytes c)) : ContextLaid c b off := by
  cases c with
  | none => exact ⟨fun _ => (h.padded (Nat.zero_le _)).2, nofun⟩
  | some x =>
    rw [contextBytes] at h
    simp only [at_append, List.length_append, length_b1, length_b4, length_bFlag] at h
    obtain ⟨⟨⟨⟨⟨here, write⟩, op⟩, step⟩, offset⟩, frame⟩ := h
    have code := op.code (FaultOp.code_lt _)
    refine ⟨nofun, fun y same => ?_⟩
    cases same
    refine ⟨here.code (by decide), write.flag, offset.word, frame.frameNumber, fun n scan => ?_, fun reads => ?_,
      fun flushes => ?_, fun fetches => ?_⟩
    · rw [scan] at step code
      exact ⟨code, step.byte⟩
    · rw [reads] at code
      exact code
    · rw [flushes] at code
      exact code
    · rw [fetches] at code
      exact code

@[simp] theorem length_engineStatus (s : State) : (engineStatus s).length = 20 := by simp [engineStatus]

@[simp] theorem length_counterBytes (c : Counters) : (counterBytes c).length = 52 := by simp [counterBytes]

theorem length_writerStatus (s : State) (w : Writer) : (writerStatus s w).length = 72 := length_padTo ..

/-- The thirteen counters of a writer, read back (R33). -/
theorem counters_read {c : Counters} (h : At b off (counterBytes c)) :
    [0, 4, 8, 12, 16, 20, 24, 28, 32, 36, 40, 44, 48].map (fun i => le32 b (off + i)) =
      [c.characters, c.noise, c.parityErrors, c.framingErrors, c.alignmentErrors, c.ignoredCodes, c.rowsClosed, c.refused,
       c.rowsShown, c.rowsDropped, c.accepted, c.rejected, c.unmatched].map BitVec.toNat := by
  rw [counterBytes] at h
  simp only [at_append, List.length_append, length_b4] at h
  obtain ⟨⟨⟨⟨⟨⟨⟨⟨⟨⟨⟨⟨characters, noise⟩, parity⟩, framing⟩, alignment⟩, ignored⟩, closed⟩, refused⟩, shown⟩, dropped⟩,
    accepted⟩, rejected⟩, unmatched⟩ := h
  simp only [List.map_cons, List.map_nil, Nat.add_zero, characters.word32, noise.word32, parity.word32, framing.word32,
    alignment.word32, ignored.word32, closed.word32, refused.word32, shown.word32, dropped.word32, accepted.word32,
    rejected.word32, unmatched.word32]

theorem writerLaid_of_at {s : State} {w : Writer} (h : At b off (writerStatus s w)) : WriterLaid s w b off := by
  obtain ⟨fields, tail⟩ := At.padded h (by simp)
  obtain ⟨padded, counters⟩ := at_append.mp fields
  obtain ⟨head, gap⟩ := padded.padded (by simp)
  simp only [at_append, List.length_append, length_padTo, length_b1, length_b2, length_b4, length_bFlag, length_bWriter,
    length_counterBytes] at head gap tail counters
  obtain ⟨⟨⟨⟨⟨⟨⟨⟨port, role⟩, partner⟩, set⟩, divisor⟩, count⟩, pending⟩, estimate⟩, rejects⟩ := head
  exact {
    port := port.code (PortMode.code_lt _)
    role := role.code (Role.code_lt _)
    partner := partner.writer
    set := set.flag
    divisor := divisor.half
    count := count.byte
    pending := pending.flag
    estimate := estimate.word
    rejects := rejects.byte
    counters := by simpa [Nat.add_assoc] using counters_read counters
    unused := ⟨gap, tail⟩ }

/-! ### The capture lines (R61, R66, R182) -/

theorem length_lineListStatus (s : State) (i : LineNo) : (lineListStatus s i).length = 2 := by
  unfold lineListStatus
  split <;> simp

theorem length_lineStatus (s : State) (i : LineNo) : (lineStatus s i).length = 8 := by
  simp [lineStatus, length_lineListStatus]

theorem lineLaid_of_at {s : State} {i : LineNo} (h : At b off (lineStatus s i)) : LineLaid s i b off := by
  rw [lineStatus] at h
  simp only [at_append, List.length_append, length_bFlag, length_lineListStatus] at h
  obtain ⟨⟨⟨level, active⟩, list⟩, captures⟩ := h
  refine ⟨level.flag, captures.word32, fun v voice => ?_, fun j notVoice trigger => ?_⟩
  · rw [lineListStatus, voice, at_append] at list
    have marked := active.flag
    rw [voice] at marked
    exact ⟨marked, list.1.byte, list.2.code (by decide)⟩
  · rw [lineListStatus, notVoice, trigger, at_append] at list
    have unmarked := active.flag
    rw [notVoice] at unmarked
    exact ⟨unmarked, list.1.byte, list.2.head⟩

/-! ### The schedule (R98, R120, R182) -/

theorem length_bFrames (f : BufferNo → Option Frame) : (allBuffers.flatMap fun i => bFrame (f i)).length = 16 :=
  length_flatMap_blocks (fun _ => length_bFrame _) _

/-- The frame of one buffer in a list of four. -/
theorem At.bufferFrame {f : BufferNo → Option Frame} (h : At b off (allBuffers.flatMap fun i => bFrame (f i)))
    (i : BufferNo) : le32 b (off + 4 * i.val) = frameCode (f i) :=
  At.frame (At.block (f := fun i => bFrame (f i)) (fun _ => length_bFrame _) h (allBuffers_getElem? i))

theorem length_scheduleStatus (s : State) : (scheduleStatus s).length = 40 := by
  simp only [scheduleStatus, List.length_append, length_padTo, length_b2, length_b4, length_bFrame, length_bFrames]

theorem isStaging_eq (e : Entry) : isStaging e = (decide (0 < e.sent) && decide (e.sent < e.row.text.length + 2)) := by
  simp only [isStaging, isWaiting, isStaged]
  rw [Bool.eq_iff_iff]
  simp [Nat.pos_iff_ne_zero]

theorem scheduleLaid_of_at {s : State} (h : At b off (scheduleStatus s)) : ScheduleLaid s.air b off := by
  rw [scheduleStatus] at h
  simp only [at_append, List.length_append, length_padTo, length_b2, length_b4, length_bFrame, length_bFrames] at h
  obtain ⟨⟨⟨⟨⟨⟨counts, lag⟩, head⟩, shows⟩, horizon⟩, free⟩, clear⟩ := h
  obtain ⟨counts, unused⟩ := counts.padded (by simp)
  simp only [at_append, List.length_append, length_b1, length_bFlag] at counts unused
  obtain ⟨⟨⟨⟨count, waiting⟩, staging⟩, staged⟩, catchup⟩ := counts
  have idFits : (s.air.entries.head?.map fun e => e.row.id.toNat).getD 0 < 2 ^ 32 := by
    cases s.air.entries.head? with
    | none => decide
    | some e => exact e.row.id.isLt
  exact {
    count := count.byte
    waiting := waiting.byte
    staging := by
      rw [show (fun e : Entry => decide (0 < e.sent) && decide (e.sent < e.row.text.length + 2)) = isStaging from
        funext fun e => (isStaging_eq e).symm]
      exact staging.byte
    staged := staged.byte
    catchup := ⟨catchup.flag, by rw [byteAt, List.getD_eq_getElem?_getD, unused (off + 5) (by omega) (by omega)]; rfl⟩
    lag := lag.half
    head := head.word_of_lt idFits
    shows := shows.frame
    horizon := horizon.frame
    free := fun i => free.bufferFrame i
    clear := clear.frame }

/-! ### The display (R121, R139, R182) -/

theorem length_ownerStatus (s : State) (o : Owner) : (ownerStatus s o).length = 4 := by cases o <;> rfl

@[simp] theorem length_ctxStatus (x : Option Context) : (ctxStatus x).length = 4 := by cases x <;> rfl

theorem length_displayStatus (s : State) : (displayStatus s).length = 28 := by simp [displayStatus]

theorem levelOf_of_held {s : State} {k : CtxNo} {x : Context} {c : Cue} (ctx : ctxOf s k = some x)
    (held : cueOf s x.slot = some c) : levelOf s (.ctx k) = c.level := by
  simp [levelOf, cueOfCtx, ctx, held]

/-- An entry of the owner stack, read back (R139). -/
theorem ownerLaid_of_at {s : State} {o : Owner} (h : At b off (ownerStatus s o)) :
    (o = .live → byteAt b off = 0 ∧ byteAt b (off + 1) = 0 ∧ byteAt b (off + 2) = s.settings.liveLevel % 256 ∧
      byteAt b (off + 3) = 0) ∧
    ∀ k x c, o = .ctx k → ctxOf s k = some x → cueOf s x.slot = some c → byteAt b off = 1 + k.val ∧
      byteAt b (off + 1) = x.slot.val ∧ byteAt b (off + 2) = c.level % 256 ∧ byteAt b (off + 3) = 0 := by
  cases o with
  | live =>
    rw [ownerStatus] at h
    simp only [at_append, List.length_append, length_b1] at h
    obtain ⟨⟨⟨kind, slot⟩, level⟩, unused⟩ := h
    exact ⟨fun _ => ⟨kind.code (by decide), slot.code (by decide), level.byte, unused.code (by decide)⟩, fun _ _ _ other => nomatch other⟩
  | ctx k =>
    rw [ownerStatus] at h
    simp only [at_append, List.length_append, length_b1] at h
    obtain ⟨⟨⟨kind, slot⟩, level⟩, unused⟩ := h
    refine ⟨nofun, fun j x c same ctx held => ?_⟩
    cases same
    rw [ctx] at slot
    have small := k.isLt
    exact ⟨kind.code (by omega), At.index (i := x.slot) slot (by decide), by rw [level.byte, levelOf_of_held ctx held],
      unused.code (by decide)⟩

/-- A cue context, read back (R139). -/
theorem ctxLaid_of_at {x : Option Context} (h : At b off (ctxStatus x)) :
    (x = none → ZeroBytes b off (off + 4)) ∧ ∀ y, x = some y → byteAt b off = 1 ∧ byteAt b (off + 1) = y.slot.val ∧
      byteAt b (off + 2) = y.next % 256 ∧ byteAt b (off + 3) = y.fetch.code := by
  cases x with
  | none => exact ⟨fun _ => At.zeros (n := 4) h, nofun⟩
  | some y =>
    rw [ctxStatus] at h
    simp only [at_append, List.length_append, length_b1] at h
    obtain ⟨⟨⟨held, slot⟩, next⟩, fetch⟩ := h
    refine ⟨nofun, fun z same => ?_⟩
    cases same
    exact ⟨held.code (by decide), slot.index (by decide), next.byte, fetch.code (FetchState.code_lt _)⟩

theorem displayLaid_of_at {s : State} (h : At b off (displayStatus s)) : DisplayLaid s b off := by
  rw [displayStatus] at h
  simp only [at_append, List.length_append, length_padTo, length_b1, length_bHead, length_ctxStatus] at h
  obtain ⟨⟨⟨⟨⟨⟨⟨⟨⟨⟨depth, level⟩, place⟩, live⟩, pending⟩, due⟩, dueHead⟩, watch⟩, stack⟩, first⟩, second⟩ := h
  have entry (i : Nat) (low : i < 3) := stack.paddedBlock (length_ownerStatus s) (j := i) (by omega)
  have context (k : CtxNo) : At b (off + 20 + 4 * k.val) (ctxStatus (ctxOf s k)) := by
    match k with
    | 0 => exact first
    | 1 => exact second
  refine ⟨depth.byte, ⟨fun empty => ?_, fun top => ?_, fun k x c top ctx held => ?_⟩, place.code (LivePlace.code_lt _),
    live.byte, pending.byte, ⟨due.byte, dueHead.head⟩, watch.byte, fun i low => ?_, fun k => ?_⟩
  · rw [level.byte, ownerLevel, topOwner, empty]
    rfl
  · rw [level.byte, ownerLevel_of_live top]
  · rw [level.byte, ownerLevel, top]
    exact congrArg (· % 256) (levelOf_of_held ctx held)
  · obtain ⟨absent, given⟩ := entry i low
    have places : off + 9 + 4 * i = off + 8 + 4 * i + 1 ∧ off + 10 + 4 * i = off + 8 + 4 * i + 2 ∧
        off + 11 + 4 * i = off + 8 + 4 * i + 3 ∧ off + 12 + 4 * i = off + 8 + 4 * i + 4 := by omega
    obtain ⟨slot, level, unused, last⟩ := places
    rw [slot, level, unused, last]
    exact ⟨absent, fun listed => (ownerLaid_of_at (given _ listed)).1 rfl,
      fun k x c listed ctx held => (ownerLaid_of_at (given _ listed)).2 k x c rfl ctx held⟩
  · have places : off + 21 + 4 * k.val = off + 20 + 4 * k.val + 1 ∧ off + 22 + 4 * k.val = off + 20 + 4 * k.val + 2 ∧
        off + 23 + 4 * k.val = off + 20 + 4 * k.val + 3 ∧ off + 24 + 4 * k.val = off + 20 + 4 * k.val + 4 := by omega
    obtain ⟨slot, next, fetch, last⟩ := places
    rw [slot, next, fetch, last]
    exact ctxLaid_of_at (context k)

/-! ### The output encoder (R147, R150, R182) -/

theorem length_mirrorStatus (r : MirrorRow) : (mirrorStatus r).length = 12 := rfl

theorem length_outputStatus (s : State) : (outputStatus s).length = 76 := by
  simp only [outputStatus, List.length_append, length_padTo, length_b4, length_bFrames]

/-- The units sent of the entry that the staging cursor names (R150). -/
theorem cursorSent_of_entry {s : State} {id : Word32} {front back : List Entry} {e : Entry} (cursor : s.out.cursor = some id)
    (entries : s.air.entries = front ++ e :: back) (same : e.row.id = id) (others : ∀ x ∈ front, x.row.id ≠ id) :
    cursorSent s = e.sent := by
  have found : s.air.entries.find? (fun e => e.row.id == id) = some e := by
    rw [entries, List.find?_append, List.find?_eq_none.mpr (by simpa using others)]
    simp [same]
  simp [cursorSent, cursor, found]

theorem outputLaid_of_at {s : State} (h : At b off (outputStatus s)) : OutputLaid s b off := by
  rw [outputStatus] at h
  simp only [at_append, List.length_append, length_padTo, length_b4, length_bFrames] at h
  obtain ⟨⟨⟨head, cursor⟩, completion⟩, mirror⟩ := h
  obtain ⟨head, unused⟩ := head.padded (by simp)
  simp only [at_append, List.length_append, length_b1, length_bFlag] at head unused
  obtain ⟨⟨⟨⟨owed, units⟩, rows⟩, cursorFlag⟩, sent⟩ := head
  have idFits : (s.out.cursor.map BitVec.toNat).getD 0 < 2 ^ 32 := by
    cases s.out.cursor with
    | none => decide
    | some id => exact id.isLt
  refine ⟨owed.code (Owed.code_lt _), units.byte, rows.byte, ⟨cursorFlag.flag, cursor.word_of_lt idFits⟩,
    ⟨fun none => ?_, fun id front e back named entries same others => ?_⟩, unused, fun i => completion.bufferFrame i,
    fun i low => ?_⟩
  · rw [sent.byte, cursorSent, none]
    rfl
  · rw [sent.byte, cursorSent_of_entry named entries same others]
  · obtain ⟨absent, given⟩ := mirror.paddedBlock length_mirrorStatus (j := i) (by omega)
    have places : off + 32 + 12 * i = off + 28 + 12 * i + 4 ∧ off + 36 + 12 * i = off + 28 + 12 * i + 8 ∧
        off + 38 + 12 * i = off + 28 + 12 * i + 10 ∧ off + 39 + 12 * i = off + 28 + 12 * i + 11 ∧
        off + 40 + 12 * i = off + 28 + 12 * i + 12 := by omega
    obtain ⟨showAt, hold, buffer, unused, last⟩ := places
    rw [showAt, hold, buffer, unused, last]
    refine ⟨absent, fun r listed => ?_⟩
    have row := given r listed
    rw [mirrorStatus] at row
    simp only [at_append, List.length_append, length_b1, length_b2, length_b4] at row
    obtain ⟨⟨⟨⟨id, showAt⟩, hold⟩, buffer⟩, unused⟩ := row
    exact ⟨id.word32, showAt.frameNumber, hold.half, buffer.index (by decide), unused.code (by decide)⟩

/-! ### The status block (R182) -/

@[simp] theorem length_leadStatus (s : State) : (leadStatus s).length = 8 := length_padTo ..

@[simp] theorem length_queueStatus (s : State) : (queueStatus s).length = 8 := by simp [queueStatus]

@[simp] theorem length_lastOnsetStatus (s : State) : (lastOnsetStatus s).length = 8 := rfl

theorem length_writers (s : State) : (allWriters.flatMap (writerStatus s)).length = 288 :=
  length_flatMap_blocks (length_writerStatus s) _

theorem length_lines (s : State) : (allLines.flatMap (lineStatus s)).length = 48 :=
  length_flatMap_blocks (length_lineStatus s) _

theorem length_statusBytes (s : State) : (statusBytes s).length = 1024 := length_padTo ..

/-- The last onset of a voice line, read back (R66). -/
theorem At.lastOnset {s : State} (h : At b off (lastOnsetStatus s)) (v : Fin 2) :
    le32 b (off + 4 * v.val) = ((get s.lastOnset v).map BitVec.toNat).getD 0 := by
  have fits : ((get s.lastOnset v).map BitVec.toNat).getD 0 < 2 ^ 32 := by
    cases get s.lastOnset v with
    | none => decide
    | some x => exact x.isLt
  have listed : ([0, 1] : List (Fin 2))[v.val]? = some v := by
    match v with
    | 0 => rfl
    | 1 => rfl
  exact At.word_of_lt (At.block (f := fun v => b4 (((get s.lastOnset v).map BitVec.toNat).getD 0)) (fun _ => rfl) h listed) fits

theorem ZeroBytes.half (h : ZeroBytes b off (off + 2)) : le16 b off = 0 := by
  rw [le16, byteAt, byteAt, List.getD_eq_getElem?_getD, List.getD_eq_getElem?_getD, h off (by omega) (by omega),
    h (off + 1) (by omega) (by omega)]
  rfl

theorem statusLaid_of_at {s : State} (length : b.length = 1024) (laid : At b 0 (statusBytes s)) : StatusLaid s b := by
  obtain ⟨sections, tail⟩ := At.padded laid (by
    simp only [List.length_append, length_padTo, length_writers, length_leadStatus, length_queueStatus, length_lines,
      length_lastOnsetStatus, length_outputStatus, Nat.reduceAdd, Nat.reduceLeDiff])
  simp only [at_append, List.length_append, length_padTo, length_writers, length_leadStatus, length_queueStatus, length_lines,
    length_lastOnsetStatus, length_outputStatus] at sections tail
  obtain ⟨⟨⟨⟨⟨⟨⟨⟨engine, writers⟩, lead⟩, queue⟩, lines⟩, onsets⟩, schedule⟩, display⟩, output⟩ := sections
  obtain ⟨engine, _⟩ := engine.padded (by simp)
  obtain ⟨schedule, _⟩ := schedule.padded (by rw [length_scheduleStatus])
  obtain ⟨display, gap⟩ := display.padded (by rw [length_displayStatus]; decide)
  rw [length_displayStatus] at gap
  simp only [Nat.zero_add, Nat.reduceAdd] at writers lead queue lines onsets schedule display output gap tail
  rw [engineStatus] at engine
  simp only [at_append, List.length_append, length_b1, length_b4, length_bFlag, Nat.zero_add, Nat.reduceAdd] at engine
  obtain ⟨⟨⟨⟨⟨⟨⟨⟨runState, mode⟩, freeze⟩, buffered⟩, clamps⟩, ignores⟩, readMark⟩, glitches⟩, context⟩ := engine
  obtain ⟨lead, leadUnused⟩ := lead.padded (by simp)
  simp only [at_append, List.length_append, length_b2, length_bFlag, length_bWriter, Nat.reduceAdd] at lead leadUnused
  obtain ⟨⟨⟨⟨leader, pending⟩, taker⟩, reported⟩, waited⟩ := lead
  rw [queueStatus, at_append] at queue
  obtain ⟨count, queueHead⟩ := queue
  obtain ⟨count, queueUnused⟩ := count.padded (by simp)
  have idFits : (s.queue.head?.map fun r => r.id.toNat).getD 0 < 2 ^ 32 := by
    cases s.queue.head? with
    | none => decide
    | some r => exact r.id.isLt
  exact {
    length := length
    states := ⟨runState.code (RunState.code_lt _), mode.code (TbMode.code_lt _), freeze.flag, buffered.byte⟩
    counts := ⟨clamps.word32, ignores.word32, readMark.word32, glitches.word32⟩
    fault := contextLaid_of_at context
    writers := fun w => writerLaid_of_at (writers.block (length_writerStatus s) (allWriters_getElem? w))
    lead := ⟨leader.writer, pending.flag, taker.writer, reported.flag, waited.half, leadUnused.half⟩
    queue := ⟨count.byte, queueUnused, queueHead.word_of_lt idFits⟩
    lines := fun i => lineLaid_of_at (lines.block (length_lineStatus s) (allLines_getElem? i))
    onsets := fun v => onsets.lastOnset v
    schedule := scheduleLaid_of_at schedule
    display := displayLaid_of_at display
    output := outputLaid_of_at output
    unused := ⟨gap, tail⟩ }

theorem statusBytes_laid (s : State) : StatusLaid s (statusBytes s) := statusLaid_of_at (length_statusBytes s) (.self _)

end Sys2Proof.Machine
end

