-- ==== Sys2Proof/Proofs/RecordLayout.lean ====
section
/-! The bytes of a journal record lie as R183 and R186 have them: the head of the record, the fields of its kind, and its text. -/

namespace Sys2Proof.Machine

variable {b : List Byte} {off : Nat}

/-! ### Codes (R186) -/

theorem CloseReason.code_lt (x : CloseReason) : x.code < 256 := by cases x <;> decide

theorem DropReason.code_lt (x : DropReason) : x.code < 256 := by cases x <;> decide

theorem RefuseReason.code_lt (x : RefuseReason) : x.code < 256 := by cases x <;> decide

theorem LeadReason.code_lt (x : LeadReason) : x.code < 256 := by cases x <;> decide

theorem PortCause.code_lt (x : PortCause) : x.code < 256 := by cases x <;> decide

theorem RefCause.code_lt (x : RefCause) : x.code < 256 := by cases x <;> decide

/-! ### The row block (R148, R186) -/

/-- What a row block carries of the row's source. -/
structure SourceFields where
  kind : Nat
  number : Nat
  position : Nat
  flags : Nat
  reason : Nat
  arrival : Nat
  latency : Nat
  start : Nat
  offset : Nat
  override : Nat

/-- The source fields of a live row. -/
def liveFields (w : Writer) (arrival : Stamp) (reason : CloseReason) (full : Bool) (k : RowBlock) : SourceFields :=
  { kind := 0, number := w.val, position := 0, flags := flagsByte k.flags false
    reason := if k.arrival then reason.code else 0
    arrival := if full then arrival.toNat else 0, latency := k.latency, start := 0, offset := 0, override := 0 }

/-- The source fields of a cue row. -/
def cueFields (n : SlotNo) (pos : Nat) (start : Frame) (offset : Nat) (hold : Option Nat) (full : Bool) (k : RowBlock) :
    SourceFields :=
  { kind := 1, number := n.val, position := pos, flags := flagsByte k.flags (full && hold.isSome), reason := 0
    arrival := 0, latency := 0, start := if full then start.toNat else 0, offset := if full then offset else 0
    override := if full then hold.getD 0 else 0 }

/-- A row block by its fields. -/
def blockBytes (r : Row) (k : RowBlock) (v : SourceFields) : List Byte :=
  b4 r.id.toNat ++ b1 v.kind ++ b1 v.number ++ b1 v.position ++ b1 v.flags ++ bFrame k.ideal ++ bFrame k.showAt
    ++ b2 k.lag ++ b2 k.hold ++ b1 k.buffer ++ b1 k.command ++ b1 v.reason ++ b1 0
    ++ b4 v.arrival ++ b4 v.latency ++ bFrame k.staged ++ b4 v.start ++ b2 v.offset ++ b2 v.override

theorem rowBlock_of_live {r : Row} {w : Writer} {arrival : Stamp} {reason : CloseReason} {mark : Bool}
    (live : r.source = .live w arrival reason mark) (full : Bool) (k : RowBlock) :
    rowBlock r full k = blockBytes r k (liveFields w arrival reason full k) := by
  simp only [rowBlock, live, blockBytes, liveFields]

theorem rowBlock_of_cue {r : Row} {n : SlotNo} {pos : Nat} {start : Frame} {offset : Nat} {hold : Option Nat}
    {fresh clamped : Bool} (cue : r.source = .cue n pos start offset hold fresh clamped) (full : Bool) (k : RowBlock) :
    rowBlock r full k = blockBytes r k (cueFields n pos start offset hold full k) := by
  simp only [rowBlock, cue, blockBytes, cueFields]

/-- A row block is that of a live row or that of a cue row. -/
theorem rowBlock_eq (r : Row) (full : Bool) (k : RowBlock) : ∃ v override, rowBlock r full k = blockBytes r k v ∧
    v.flags = flagsByte k.flags override := by
  cases source : r.source with
  | live w arrival reason mark => exact ⟨_, false, rowBlock_of_live source full k, rfl⟩
  | cue n pos start offset hold fresh clamped =>
    exact ⟨_, full && hold.isSome, rowBlock_of_cue source full k, rfl⟩

theorem length_rowBlock (r : Row) (full : Bool) (k : RowBlock) : (rowBlock r full k).length = 44 := by
  obtain ⟨v, _, e, _⟩ := rowBlock_eq r full k
  simp [e, blockBytes]

/-- The fields of a row block in a record. -/
structure BlockLaid (r : Row) (k : RowBlock) (v : SourceFields) (b : List Byte) : Prop where
  id : le32 b 0x10 = r.id.toNat
  kind : byteAt b 0x14 = v.kind % 256
  number : byteAt b 0x15 = v.number % 256
  position : byteAt b 0x16 = v.position % 256
  flags : byteAt b 0x17 = v.flags % 256
  ideal : le32 b 0x18 = frameCode k.ideal
  showAt : le32 b 0x1C = frameCode k.showAt
  lag : le16 b 0x20 = k.lag % 65536
  hold : le16 b 0x22 = k.hold % 65536
  buffer : byteAt b 0x24 = k.buffer % 256
  command : byteAt b 0x25 = k.command % 256
  reason : byteAt b 0x26 = v.reason % 256
  unused : byteAt b 0x27 = 0
  arrival : At b 0x28 (b4 v.arrival)
  latency : At b 0x2C (b4 v.latency)
  staged : le32 b 0x30 = frameCode k.staged
  start : At b 0x34 (b4 v.start)
  offset : At b 0x38 (b2 v.offset)
  override : At b 0x3A (b2 v.override)

theorem blockLaid_of_at {r : Row} {k : RowBlock} {v : SourceFields} (h : At b 0x10 (blockBytes r k v)) :
    BlockLaid r k v b := by
  rw [blockBytes] at h
  simp only [at_append, List.length_append, length_b1, length_b2, length_b4, length_bFrame, Nat.reduceAdd] at h
  obtain ⟨⟨⟨⟨⟨⟨⟨⟨⟨⟨⟨⟨⟨⟨⟨⟨⟨⟨id, kind⟩, number⟩, position⟩, flags⟩, ideal⟩, showAt⟩, lag⟩, hold⟩, buffer⟩, command⟩, reason⟩,
    unused⟩, arrival⟩, latency⟩, staged⟩, start⟩, offset⟩, override⟩ := h
  exact ⟨id.word32, kind.byte, number.byte, position.byte, flags.byte, ideal.frame, showAt.frame, lag.half, hold.half,
    buffer.byte, command.byte, reason.byte, unused.byte, arrival, latency, staged.frame, start, offset, override⟩

/-- The flags byte of a row block: the flags of the row, and the hold override above them. -/
theorem flagsByte_eq (f : RowFlags) (override : Bool) : flagsByte f override =
    flagCode f.late + 2 * flagCode f.catchup + 4 * flagCode f.clamped + 8 * flagCode override := by
  obtain ⟨late, catchup, clamped⟩ := f
  cases late <;> cases catchup <;> cases clamped <;> cases override <;> rfl

theorem flagCode_le (x : Bool) : flagCode x ≤ 1 := by cases x <;> decide

theorem shownLag_mod (n : Nat) : shownLag n % 65536 = min 65535 n := by
  rw [shownLag]
  omega

/-- The override of a hold stands above three flags (R183). -/
theorem flagsByte_read (f : RowFlags) (override : Bool) :
    flagsByte f override % 256 % 8 = flagCode f.late + 2 * flagCode f.catchup + 4 * flagCode f.clamped ∧
    flagsByte f override % 256 / 8 = flagCode override := by
  have late := flagCode_le f.late
  have catchup := flagCode_le f.catchup
  have clamped := flagCode_le f.clamped
  have above := flagCode_le override
  rw [flagsByte_eq]
  omega

theorem shownLaid_of_at {e : Entry} {fresh : Bool} {staged : Option Frame} (h : At b 0x10 (shownBlock e fresh staged)) :
    ShownLaid e fresh staged b := by
  rw [shownBlock] at h
  obtain ⟨v, override, bytes, flags⟩ := rowBlock_eq e.row true _
  have block := blockLaid_of_at (bytes ▸ h)
  refine ⟨block.id, ?_, ⟨block.ideal, block.showAt, block.staged⟩, ?_, block.hold, ⟨?_, ?_, block.unused⟩,
    fun w arrival reason mark live => ?_, fun n pos start offset hold first clamped cue => ?_⟩
  · rw [block.flags, flags]
    exact (flagsByte_read ..).1
  · rw [block.lag]
    exact shownLag_mod _
  · rw [block.buffer]
    exact Nat.mod_eq_of_lt (e.buffer.isLt.trans (by decide))
  · rw [block.command]
    cases fresh <;> rfl
  · have row := blockLaid_of_at (rowBlock_of_live live true _ ▸ h)
    have override := (flagsByte_read e.flags false).2
    refine ⟨row.kind, ?_, row.position, ?_, ?_, ?_, row.latency.word, ?_⟩
    · rw [row.number]
      exact Nat.mod_eq_of_lt (w.isLt.trans (by decide))
    · rw [row.flags]
      exact (Nat.div_eq_zero_iff_lt (by decide)).mp override
    · rw [row.reason]
      exact Nat.mod_eq_of_lt (CloseReason.code_lt _)
    · exact At.word32 row.arrival
    · exact (At.zeroWord row.start).trans ((At.zeroHalf row.offset).trans (At.zeroHalf row.override))
  · have row := blockLaid_of_at (rowBlock_of_cue cue true _ ▸ h)
    refine ⟨row.kind, ?_, row.position, ?_, row.reason, ?_, At.frameNumber row.start, row.offset.half, row.override.half⟩
    · rw [row.number]
      exact Nat.mod_eq_of_lt (n.isLt.trans (by decide))
    · rw [row.flags]
      exact (flagsByte_read e.flags hold.isSome).2
    · exact (At.zeroWord row.arrival).trans (At.zeroWord row.latency)

theorem droppedLaid_of_at {r : Row} {reason : DropReason} {ideal showAt : Option Frame} {lag : Nat}
    (h : At b 0x10 (droppedBlock r reason ideal showAt lag)) : DroppedLaid r reason ideal showAt lag b := by
  rw [droppedBlock] at h
  obtain ⟨v, override, bytes, flags⟩ := rowBlock_eq r false _
  have block := blockLaid_of_at (bytes ▸ h)
  refine ⟨block.id, ⟨block.ideal, block.showAt, block.staged⟩, ?_, ?_, fun w arrival cause mark live => ?_,
    fun n pos start offset hold first clamped cue => ?_⟩
  · rw [block.lag]
    exact shownLag_mod _
  · rw [block.command]
    exact Nat.mod_eq_of_lt (DropReason.code_lt _)
  · have row := blockLaid_of_at (rowBlock_of_live live false _ ▸ h)
    refine ⟨row.kind, ?_, fun stale => ?_⟩
    · rw [row.number]
      exact Nat.mod_eq_of_lt (w.isLt.trans (by decide))
    · rw [row.reason, stale]
      exact Nat.mod_eq_of_lt (CloseReason.code_lt _)
  · have row := blockLaid_of_at (rowBlock_of_cue cue false _ ▸ h)
    refine ⟨row.kind, ?_, row.position⟩
    rw [row.number]
    exact Nat.mod_eq_of_lt (n.isLt.trans (by decide))

/-! ### The fields of each kind (R186) -/

theorem length_fields_le (r : Record) : r.fields.length ≤ 64 := by
  cases r <;> simp [Record.fields, shownBlock, droppedBlock, length_rowBlock]

/-- The two marks of a SETTINGS record (R159). -/
theorem someClamped_read {clamped ignored : Bool} (h : At b off (b1 (bitIf clamped 0 + bitIf ignored 1))) :
    byteAt b off = flagCode clamped + 2 * flagCode ignored := by
  rw [h.byte]
  cases clamped <;> cases ignored <;> rfl

theorem fieldsLaid_of_at {r : Record} (kind : byteAt b 0x04 = r.kind % 256) (h : At b 0x10 (padTo 0x40 r.fields)) :
    FieldsLaid r b := by
  obtain ⟨fields, unused⟩ := h.padded (length_fields_le r)
  cases r with
  | rowShown e fresh staged =>
    simp only [Record.fields, shownBlock, length_rowBlock] at unused
    exact ⟨kind, shownLaid_of_at fields, unused⟩
  | rowDropped row reason ideal showAt lag =>
    simp only [Record.fields, droppedBlock, length_rowBlock] at unused
    exact ⟨kind, droppedLaid_of_at fields, unused⟩
  | correctionRefused w word reason =>
    simp only [Record.fields, at_append, List.length_append, length_b1, length_bFlag] at fields unused
    obtain ⟨⟨writer, word⟩, why⟩ := fields
    exact ⟨kind, writer.index (by decide), word.flag, why.code (RefuseReason.code_lt _), unused⟩
  | leadChange outgoing incoming reason waited =>
    simp only [Record.fields, at_append, List.length_append, length_b1, length_b2, length_bWriter] at fields unused
    obtain ⟨⟨⟨⟨out, into⟩, why⟩, zero⟩, waited⟩ := fields
    exact ⟨kind, out.writer, into.writer, why.code (LeadReason.code_lt _), zero.byte, waited.half, unused⟩
  | handoffRefused refused taker lead =>
    simp only [Record.fields, at_append, List.length_append, length_b1] at fields unused
    obtain ⟨⟨refused, taker⟩, lead⟩ := fields
    exact ⟨kind, refused.index (by decide), taker.index (by decide), lead.index (by decide), unused⟩
  | giveIgnored w =>
    simp only [Record.fields, length_b1] at fields unused
    exact ⟨kind, fields.index (by decide), unused⟩
  | writerState w left entered cause divisor =>
    simp only [Record.fields, at_append, List.length_append, length_b1, length_b2] at fields unused
    obtain ⟨⟨⟨⟨writer, left⟩, entered⟩, cause⟩, divisor⟩ := fields
    exact ⟨kind, writer.index (by decide), left.code (PortMode.code_lt _), entered.code (PortMode.code_lt _),
      cause.code (PortCause.code_lt _), divisor.half, unused⟩
  | latencyReseed w before after onset resumption =>
    simp only [Record.fields, at_append, List.length_append, length_padTo, length_b4] at fields unused
    obtain ⟨⟨⟨⟨writer, before⟩, after⟩, onset⟩, resumption⟩ := fields
    obtain ⟨writer, gap⟩ := writer.padded (by simp)
    exact ⟨kind, writer.index (by decide), gap, before.word, after.word, onset.word32, resumption.word32, unused⟩
  | cueState n left entered reason shown dropped start =>
    simp only [Record.fields, at_append, List.length_append, length_padTo, length_bFrame] at fields unused
    obtain ⟨counts, start⟩ := fields
    obtain ⟨counts, gap⟩ := counts.padded (by simp)
    simp only [at_append, List.length_append, length_b1] at counts gap
    obtain ⟨⟨⟨⟨⟨slot, left⟩, entered⟩, reason⟩, shown⟩, dropped⟩ := counts
    exact ⟨kind, slot.index (by decide), left.code (CueState.code_lt _), entered.code (CueState.code_lt _),
      reason.code (CueReason.code_lt _), shown.byte, dropped.byte, gap.half, start.frame, unused⟩
  | triggerUnused line stamp captured =>
    simp only [Record.fields, at_append, List.length_append, length_padTo, length_b4] at fields unused
    obtain ⟨⟨line, stamp⟩, captured⟩ := fields
    obtain ⟨line, gap⟩ := line.padded (by simp)
    exact ⟨kind, line.index (by decide), gap, stamp.word32, captured.frameNumber, unused⟩
  | referenceState left entered cause =>
    simp only [Record.fields, at_append, List.length_append, length_b1] at fields unused
    obtain ⟨⟨left, entered⟩, cause⟩ := fields
    exact ⟨kind, left.code (TbMode.code_lt _), entered.code (TbMode.code_lt _), cause.code (RefCause.code_lt _), unused⟩
  | settings generation clamped ignored firstClamped firstIgnored =>
    simp only [Record.fields, at_append, List.length_append, length_b1, length_b4, length_bOffset] at fields unused
    obtain ⟨⟨⟨⟨⟨generation, some⟩, clamped⟩, ignored⟩, firstClamped⟩, firstIgnored⟩ := fields
    exact ⟨kind, generation.word32, someClamped_read some, clamped.byte, ignored.byte, firstClamped.byte, firstIgnored.byte,
      unused⟩
  | pageRecovered context =>
    simp only [Record.fields, length_contextBytes] at fields unused
    exact ⟨kind, contextLaid_of_at fields, unused⟩

/-! ### The whole record (R183, R186) -/

theorem text_eq (r : Record) : textCarried r = r.text := by cases r <;> rfl

theorem length_recordBytes (sequence : Word32) (j : JournalEntry) : (recordBytes sequence j).length = 128 := by
  simp [recordBytes]

theorem recordLaid_of_at {sequence : Word32} {j : JournalEntry} (length : b.length = 128)
    (laid : At b 0 (recordBytes sequence j)) : RecordLaid sequence j b := by
  rw [recordBytes] at laid
  simp only [at_append, List.length_append, length_padTo, Nat.zero_add, Nat.reduceAdd] at laid
  obtain ⟨⟨head, fields⟩, text⟩ := laid
  obtain ⟨head, unused⟩ := head.padded (by simp)
  simp only [at_append, List.length_append, length_padTo, length_b1, length_b4, Nat.zero_add, Nat.reduceAdd] at head unused
  obtain ⟨⟨first, frame⟩, textLength⟩ := head
  obtain ⟨first, gap⟩ := first.padded (by simp)
  simp only [at_append, List.length_append, length_b1, length_b4, Nat.zero_add, Nat.reduceAdd] at first gap
  obtain ⟨number, kind⟩ := first
  exact {
    length := length
    sequence := number.word32
    frame := frame.frameNumber
    textLength := by rw [textLength.byte, text_eq]
    unused := ⟨gap, unused⟩
    fields := fieldsLaid_of_at kind.byte fields
    text := fun i low => by rw [text i (by rwa [length_padTo]), padTo_getElem? low, text_eq] }

theorem recordBytes_laid (sequence : Word32) (j : JournalEntry) : RecordLaid sequence j (recordBytes sequence j) :=
  recordLaid_of_at (length_recordBytes sequence j) (.self _)

end Sys2Proof.Machine
end

