-- ==== Sys2Proof/Proofs/PageWrites.lean ====
section
/-! The completions of page writes (R162, R164, R166): what is in host memory then, and the step that follows, which is the next
write or the end of the pass (R167, R175). -/

namespace Sys2Proof.Machine

/-! ### Host memory after a page write (R153) -/

/-- A byte of a piece reads as it was written, where no later piece lies over it. -/
theorem readMem_writePage_inside (front back : List (Nat × List Byte)) (off : Nat) (bytes : List Byte) (s : State) {i : Nat}
    (inside : i < bytes.length) (apart : ∀ d ∈ back, off + i < d.1 ∨ d.1 + d.2.length ≤ off + i) :
    readMem (writePage (front ++ (off, bytes) :: back) s).mem (s.pe.base.toNat + off + i) = bytes[i]? := by
  let u := writePage (front ++ [(off, bytes)]) s
  have later : (writePage (front ++ (off, bytes) :: back) s).mem = (writePage back u).mem := by
    simp only [u, writePage, List.foldl_append, List.foldl_cons, List.foldl_nil]
  rw [later, readMem_writePage_outside back u fun d piece => ?_]
  · simp only [u, writePage, List.foldl_append, List.foldl_cons, List.foldl_nil]
    rw [readMem_writeBytes_inside _ _ _ _ inside, List.getElem?_eq_getElem inside]
  · have clear := apart d piece
    show s.pe.base.toNat + off + i < s.pe.base.toNat + d.1 ∨ s.pe.base.toNat + d.1 + d.2.length ≤ s.pe.base.toNat + off + i
    omega

/-- Both pieces of a write of two that lie apart, the first below the second. -/
theorem readMem_writePage_pair {first second : Nat} {x y : List Byte} (s : State) (apart : first + x.length ≤ second) :
    let t := writePage [(first, x), (second, y)] s
    let base := s.pe.base.toNat
    (∀ i, i < x.length → readMem t.mem (base + first + i) = x[i]?) ∧
    (∀ i, i < y.length → readMem t.mem (base + second + i) = y[i]?) ∧
    ∀ p, (p < base + first ∨ base + first + x.length ≤ p) → (p < base + second ∨ base + second + y.length ≤ p) →
      readMem t.mem p = readMem s.mem p := by
  refine ⟨fun i low => ?_, fun i low => ?_, fun p outFirst outSecond => ?_⟩
  · exact readMem_writePage_inside [] [(second, y)] first x s low (by simp; omega)
  · exact readMem_writePage_inside [(first, x)] [] second y s low (by simp)
  · exact readMem_writePage_outside _ s (by simp [outFirst, outSecond])

/-! ### The end of a pass (R167, R169, R175) -/

/-- What the end of a scan or flush in u leaves in t. -/
structure PassEnds (u t : State) : Prop where
  frame : t = { u with
    mem := t.mem
    control := { u.control with runState := t.control.runState, run := t.control.run }
    disp := { u.disp with ctx := t.disp.ctx }
    pe := { u.pe with op := t.pe.op } }
  contexts : ∀ k, ctxOf t k = (ctxOf u k).map (fun x => { x with refetch := none })
  stays : u.control.runState ≠ .halting ∨ u.out.owed = .haltClear →
    t.pe.op = none ∧ t.control.runState = u.control.runState ∧ t.control.run = u.control.run
  halts : u.control.runState = .halting → u.out.owed ≠ .haltClear →
    (u.control.run = false → t.pe.op = none ∧ t.control.runState = .halted ∧ t.control.run = false) ∧
    (u.control.run = true → u.pe.fault = none →
      t.pe.op = some (.settingsRead u.clock) ∧ t.control.runState = .starting ∧ t.control.run = true) ∧
    (u.control.run = true → u.pe.fault.isSome = true →
      t.pe.op = none ∧ t.control.runState = .halted ∧ t.control.run = false)

theorem endPass_ends (u : State) : PassEnds u (endPass u) := by
  let v := allowRefetch (withOp none u)
  refine ⟨?_, fun k => ?_, fun stays => ?_, fun halting sent => ?_⟩
  · show haltCheck v = _
    rcases haltCheck_cases v with e | ⟨_, e | e | e⟩ <;> rw [endPass, e] <;> rfl
  · obtain ⟨_, _, disp, _⟩ := haltCheck_leaves v
    have cleared := ctxOf_allowRefetch (withOp none u) k
    rwa [ctxOf, ← disp] at cleared
  · have still : haltCheck v = v := if_neg fun reached => stays.elim (· reached.1) reached.2.1
    rw [endPass, still]
    exact ⟨rfl, rfl, rfl⟩
  · have ended : endPass u = enterHalted v := (haltCheck_of_halting (s := v) halting sent).trans (if_neg nofun)
    obtain ⟨halted, starting, faulty⟩ := enterHalted_of_run v
    rw [ended]
    refine ⟨fun run => ?_, fun run sound => ?_, fun run fault => ?_⟩
    · obtain ⟨state, stopped, op⟩ := halted run
      exact ⟨op, state, stopped⟩
    · obtain ⟨state, running, op⟩ := starting run sound
      exact ⟨op, state, running⟩
    · obtain ⟨state, stopped, op⟩ := faulty run fault
      exact ⟨op, state, stopped⟩

/-! ### The journal step (R166) -/

theorem startJournal_writes {s : State} {j : JournalEntry} {rest : List JournalEntry} (buffer : s.pe.buffer = j :: rest)
    (room : (s.pe.writeCount - s.pe.readMark).toNat < 256) (flush : Bool) (g c : Word32) :
    startJournal flush g c s =
      issue flush (.journal [(ringOffset s.pe.writeCount, recordBytes s.pe.writeCount j)]) g c s := by
  simp only [startJournal, buffer]
  exact if_pos room

theorem startJournal_ends {s : State} (complete : s.pe.buffer = [] ∨ 256 ≤ (s.pe.writeCount - s.pe.readMark).toNat)
    (flush : Bool) (g c : Word32) : startJournal flush g c s = endPass s := by
  cases buffer : s.pe.buffer with
  | nil => simp only [startJournal, buffer]
  | cons j rest =>
    have full := complete.resolve_left (by simp [buffer])
    simp only [startJournal, buffer]
    exact if_neg (Nat.not_lt.mpr full)

/-! ### The slots (R162) -/

theorem exec_slotWriteComplete {m : Moment} {s a : State} {flush : Bool} {n : SlotNo} {data : List (Nat × List Byte)}
    {terminal dirty : Bool} {g c : Word32} {since : Nat} (finds : Finds m s a)
    (op : a.pe.op = some (.pass flush (.slot n data terminal dirty) g c since)) :
    exec (.slotWriteComplete m) s = .next (startSlots (n.val + 1) flush g c (slotStored n data terminal dirty a)) := by
  have written : slotWritten a = startSlots (n.val + 1) flush g c (slotStored n data terminal dirty a) := by
    simp only [slotWritten, op]
    rfl
  exact congrArg Host.Outcome.next ((event_of_finds finds _).trans written)

theorem slotStored_eq (n : SlotNo) (data : List (Nat × List Byte)) (terminal dirty : Bool) (s : State) :
    slotStored n data terminal dirty s = { s with
      mem := (writePage data s).mem
      disp := { s.disp with cues := if terminal then put s.disp.cues n none else s.disp.cues }
      pe := { s.pe with marks := put s.pe.marks n dirty } } := by
  cases terminal <;> rfl

/-- Settles O49, by the two pieces of the write and the write that is issued next. -/
theorem slotWriteStoresTheSlot : Obligations.SlotWriteStoresTheSlot := by
  refine ⟨pageCodes, cuePartBytes_laid, fun m s a flush n cue terminal dirty g c since finds op => ?_⟩
  let data := slotWrite n cue
  obtain ⟨next, e⟩ := startSlots_op (n.val + 1) flush g c (slotStored n data terminal dirty a)
  have mem : (startSlots (n.val + 1) flush g c (slotStored n data terminal dirty a)).mem = (writePage data a).mem := by
    rw [e, slotStored_eq]
    rfl
  obtain ⟨state, fields, others⟩ := readMem_writePage_pair (first := slotOffset n) (second := slotOffset n + 0x10)
    (x := b1 cue.state.code) (y := cuePartBytes cue) a (by simp)
  have place (i : Nat) : a.pe.base.toNat + 0x800 + 32 * n.val + i = a.pe.base.toNat + slotOffset n + i := by
    simp only [slotOffset]
    omega
  refine ⟨_, exec_slotWriteComplete finds op, ⟨?_, fun i low => ?_, fun x other outside => ?_⟩, ?_, startSlots_issues ..⟩
  · rw [mem]
    exact (congrArg (readMem _) (place 0)).trans (state 0 Nat.one_pos)
  · have here := fields i (by rwa [length_cuePartBytes])
    rw [mem, ← here]
    congr 1
    simp only [slotOffset]
    omega
  · rw [mem]
    refine others x ?_ ?_
    all_goals
      simp only [slotOffset, length_b1, length_cuePartBytes]
      omega
  · rw [e, slotStored_eq]
    rfl

/-! ### The header and the status block (R164) -/

theorem exec_statusWriteComplete {m : Moment} {s a : State} {flush : Bool} {data : List (Nat × List Byte)} {g c : Word32}
    {since : Nat} (finds : Finds m s a) (op : a.pe.op = some (.pass flush (.status data) g c since)) :
    exec (.statusWriteComplete m) s = .next (startJournal flush g c (writePage data a)) := by
  have written : statusWritten a = startJournal flush g c (writePage data a) := by simp only [statusWritten, op]
  exact congrArg Host.Outcome.next ((event_of_finds finds _).trans written)

/-- The step behind a write leaves host memory as the write left it. -/
theorem startJournal_mem (flush : Bool) (g c : Word32) (s : State) : (startJournal flush g c s).mem = s.mem :=
  (startJournal_keeps ..).mem

/-- Behind a page write the head record is written, with the rest as it was. -/
theorem startJournal_written {s : State} {j : JournalEntry} {rest : List JournalEntry} (buffer : s.pe.buffer = j :: rest)
    (room : (s.pe.writeCount - s.pe.readMark).toNat < 256) (data : List (Nat × List Byte)) (flush : Bool) (g c : Word32) :
    startJournal flush g c (writePage data s) = { s with
      mem := (startJournal flush g c (writePage data s)).mem
      pe := { s.pe with op := some (.pass flush (.journal
        [(0x1000 + 128 * (s.pe.writeCount.toNat % 256), recordBytes s.pe.writeCount j)]) g c s.clock) } } := by
  rw [startJournal_writes (s := writePage data s) buffer room]
  rfl

/-- Behind a page write with no record to write the pass ends. -/
theorem startJournal_passEnds {s : State} (complete : s.pe.buffer = [] ∨ 256 ≤ (s.pe.writeCount - s.pe.readMark).toNat)
    (data : List (Nat × List Byte)) (flush : Bool) (g c : Word32) :
    PassEnds s (startJournal flush g c (writePage data s)) := by
  rw [startJournal_ends (s := writePage data s) complete]
  obtain ⟨frame, contexts, stays, halts⟩ := endPass_ends (writePage data s)
  exact ⟨frame, contexts, stays, halts⟩

/-- Settles O50, by the two pieces of the write and the journal step behind it. -/
theorem statusWriteStoresHeaderAndStatus : Obligations.StatusWriteStoresHeaderAndStatus := by
  refine ⟨pageCodes, fun s => ⟨headerBytes_laid s, statusBytes_laid s⟩, fun m s a u flush g c since finds op => ?_⟩
  obtain ⟨header, status, others⟩ := readMem_writePage_pair (first := 0x10) (second := 0x200) (x := headerBytes u)
    (y := statusBytes u) a (by rw [length_headerBytes]; decide)
  rw [length_headerBytes, length_statusBytes] at others
  rw [length_headerBytes] at header
  rw [length_statusBytes] at status
  have ends (complete : a.pe.buffer = [] ∨ 256 ≤ (a.pe.writeCount - a.pe.readMark).toNat) :=
    startJournal_passEnds complete [(0x10, headerBytes u), (0x200, statusBytes u)] flush g c
  refine ⟨_, exec_statusWriteComplete finds op, ⟨fun i low => ⟨?_, ?_⟩, fun i low => ⟨?_, ?_⟩, ?_⟩,
    fun j rest buffer room => ?_, fun complete => ?_, fun complete stays => ?_, fun complete halting sent => ?_⟩
  · rw [startJournal_mem]
    exact header i low
  · rw [List.getElem?_eq_getElem (by rwa [length_headerBytes])]
    rfl
  · rw [startJournal_mem]
    exact status i low
  · rw [List.getElem?_eq_getElem (by rwa [length_statusBytes])]
    rfl
  · rw [startJournal_mem]
    exact others
  · exact startJournal_written buffer room _ flush g c
  · exact ⟨(ends complete).frame, (ends complete).contexts⟩
  · exact (ends complete).stays stays
  · exact (ends complete).halts halting sent

/-! ### The journal records (R166) -/

theorem exec_journalWriteComplete {m : Moment} {s a : State} {flush : Bool} {data : List (Nat × List Byte)} {g c : Word32}
    {since : Nat} (finds : Finds m s a) (op : a.pe.op = some (.pass flush (.journal data) g c since)) :
    exec (.journalWriteComplete m) s = .next (startJournal flush g c (recordStored data a)) := by
  have written : journalWritten a = startJournal flush g c (recordStored data a) := by
    simp only [journalWritten, op]
    rfl
  exact congrArg Host.Outcome.next ((event_of_finds finds _).trans written)

/-- The journal step leaves the flags. -/
theorem startJournal_attn (flush : Bool) (g c : Word32) (s : State) :
    (startJournal flush g c s).control.attn = s.control.attn := by
  have ended : (endPass s).control.attn = s.control.attn := by rw [(endPass_ends s).frame]
  unfold startJournal
  split
  · split
    · rfl
    · exact ended
  · exact ended

/-- Settles O51, by the piece of the write and the journal step behind it. -/
theorem journalWriteStoresTheRecord : Obligations.JournalWriteStoresTheRecord := by
  refine ⟨pageCodes, recordBytes_laid, fun m s a flush off data g c since finds op => ?_⟩
  let v := recordStored [(off, data)] a
  have mem : (startJournal flush g c v).mem = (writePage [(off, data)] a).mem := startJournal_mem flush g c v
  have set : flagSet .journal (startJournal flush g c v) = flagSet .journal v := by
    rw [flagSet, startJournal_attn, flagSet]
  refine ⟨startJournal flush g c v, exec_journalWriteComplete finds op, fun i low => ?_, fun x outside => ?_, ?_, ?_,
    fun j rest buffer room => ?_, fun complete k => ?_, fun complete stays => ?_, fun complete halting sent => ?_⟩
  · rw [mem]
    exact readMem_writePage_inside [] [] off data a low (by simp)
  · rw [mem]
    exact readMem_writePage_outside _ a (by simpa using outside)
  · rw [set]
    exact raise_set ..
  · by_cases room : (v.pe.writeCount - v.pe.readMark).toNat < 256
    · cases buffer : v.pe.buffer with
      | nil =>
        rw [startJournal_ends (.inl buffer)]
        exact (endPass_ends v).frame
      | cons j rest =>
        rw [startJournal_writes buffer room]
        rfl
    · rw [startJournal_ends (.inr (Nat.not_lt.mp room))]
      exact (endPass_ends v).frame
  · rw [startJournal_writes (s := v) buffer room]
    exact ⟨rfl, rfl, rfl, rfl⟩
  · rw [startJournal_ends (s := v) (complete.imp_right Nat.not_lt.mp)]
    exact (endPass_ends v).contexts k
  · rw [startJournal_ends (s := v) (complete.imp_right Nat.not_lt.mp)]
    exact (endPass_ends v).stays stays
  · rw [startJournal_ends (s := v) (complete.imp_right Nat.not_lt.mp)]
    exact (endPass_ends v).halts halting sent

end Sys2Proof.Machine
end

