-- ==== Sys2Proof/Proofs/EntryIntoRunning.lean ====
section
/-! The entry into RUNNING (R10, R11, R17, R68, R84, R175): what each of its parts leaves of the settings, the ports, the
estimates and the counters. -/

namespace Sys2Proof.Machine

/-! ### No row, no count (R47, R108, R115) -/

/-- No live row waits in the queue, and no entry in the schedule. -/
def Rowless (s : State) : Prop := s.queue = [] ∧ s.air.entries = []

/-- Where no row waits none is counted, and none comes to wait. -/
structure Countless (s t : State) : Prop where
  rowless : Rowless s → Rowless t
  counters : Rowless s → t.counters = s.counters

namespace Countless

theorem refl (s : State) : Countless s s := ⟨id, fun _ => rfl⟩

theorem trans {s t u : State} (h : Countless s t) (g : Countless t u) : Countless s u :=
  ⟨g.rowless ∘ h.rowless, fun rows => (g.counters (h.rowless rows)).trans (h.counters rows)⟩

theorem of_eq {s t : State} (queue : t.queue = s.queue) (entries : t.air.entries = s.air.entries)
    (counters : t.counters = s.counters) : Countless s t :=
  ⟨fun rows => ⟨queue.trans rows.1, entries.trans rows.2⟩, fun _ => counters⟩

/-- Where no row waits nothing changes at all. -/
theorem of_still {s t : State} (still : Rowless s → t = s) : Countless s t :=
  ⟨fun rows => (still rows).symm ▸ rows, fun rows => by rw [still rows]⟩

end Countless

theorem journal_countless (r : Record) (s : State) : Countless s (journal r s) := by
  rcases journal_cases r s with ⟨_, e⟩ | ⟨_, e⟩ <;> rw [e] <;> exact .of_eq rfl rfl rfl

theorem raise_countless (f : AttnFlag) (s : State) : Countless s (raise f s) := .of_eq rfl rfl rfl

theorem feedAttempt_countless (s : State) : Countless s (feedAttempt s) :=
  .of_still fun rows => by rw [feedAttempt, rows.1]; rfl

theorem waitingOf_of_rowless {s : State} (rows : Rowless s) (p : Entry → Bool) : waitingOf p s = [] := by
  rw [waitingOf, rows.2]
  rfl

theorem removeWaiting_of_rowless {s : State} (rows : Rowless s) (p : Entry → Bool) : removeWaiting p s = s := by
  rw [removeWaiting, waitingOf_of_rowless rows]
  rfl

theorem withdrawLive_of_rowless {s : State} (rows : Rowless s) : withdrawLive s = s := by
  have joined : joinHead ((waitingOf isLiveEntry s).map Entry.row) s = s := by
    rw [waitingOf_of_rowless rows, joinHead, rows.1]
    show { s with queue := [] } = s
    rw [← rows.1]
  rw [withdrawLive, joined, removeWaiting_of_rowless rows]

theorem cueTurns_countless (n : SlotNo) (left : CueState) (c : Cue) (s : State) : Countless s (cueTurns n left c s) := by
  have updated : Countless s (updateCue n c s) := .of_eq rfl rfl rfl
  have made := updated.trans (journal_countless (.cueState n left c.state c.reason c.shown c.dropped c.start) _)
  unfold cueTurns
  dsimp only
  split
  · exact made.trans (raise_countless ..)
  · exact made

theorem storeCtx_countless (k : CtxNo) (x : Option Context) (s : State) : Countless s (storeCtx k x s) := .of_eq rfl rfl rfl

theorem suspendCue_countless (k : CtxNo) (s : State) : Countless s (suspendCue k s) := by
  unfold suspendCue
  split
  · split
    · split
      · rename_i x _ _ _ _ _
        have removed : Countless s (removeWaiting (isCueEntry x.slot) s) :=
          .of_still fun rows => removeWaiting_of_rowless rows _
        exact (removed.trans (storeCtx_countless ..)).trans (cueTurns_countless ..)
      · exact .refl s
    · exact .refl s
  · exact .refl s

theorem preemptTop_countless (s : State) : Countless s (preemptTop s) := by
  unfold preemptTop
  split
  · exact .of_still withdrawLive_of_rowless
  · exact suspendCue_countless ..
  · exact .refl s

theorem feedTest_countless (s : State) : Countless s (feedTest s) := by
  unfold feedTest
  repeat' split
  · exact storeCtx_countless ..
  all_goals exact .refl s

theorem setDisplay_countless (s : State) (d : Display) : Countless s { s with disp := d } := .of_eq rfl rfl rfl

theorem withStack_countless (l : List Owner) (s : State) : Countless s (withStack l s) := .of_eq rfl rfl rfl

theorem acceptCue_countless (n : SlotNo) (c : Cue) (k : CtxNo) (s : State) : Countless s (acceptCue n c k s) :=
  (((((setDisplay_countless s _).trans (preemptTop_countless _)).trans (storeCtx_countless ..)).trans
    (withStack_countless ..)).trans (cueTurns_countless ..)).trans (feedTest_countless _)

theorem dueTest_countless (s : State) : Countless s (dueTest s).1 := by
  unfold dueTest
  split
  · exact .refl s
  · split
    · split
      · exact acceptCue_countless ..
      · exact .refl s
    · exact .refl s

theorem insertionTest_countless (s : State) : Countless s (insertionTest s).1 := by
  unfold insertionTest
  split
  · dsimp only
    split
    · exact ((setDisplay_countless s _).trans (feedAttempt_countless _)).trans (dueTest_countless _)
    · exact setDisplay_countless s _
  · exact .refl s

theorem silenceTest_countless (s : State) : Countless s (silenceTest s) := by
  obtain ⟨b, e⟩ := silenceTest_eq s
  rw [e]
  exact .of_eq rfl rfl rfl

theorem giveLead_countless (w : Writer) (reason : LeadReason) (s : State) : Countless s (giveLead w reason s) := by
  have led : Countless s { s with la := { s.la with lead := some w, roles := put s.la.roles w .lead } } := .of_eq rfl rfl rfl
  have appeared (t : State) : Countless t (leadAppeared t) := (setDisplay_countless t _).trans (insertionTest_countless _)
  exact (((((led.trans (journal_countless ..)).trans (raise_countless ..)).trans (appeared _)).trans
    (feedAttempt_countless _)).trans (silenceTest_countless _))

theorem applyLiveLevel_countless (v : Nat) (s : State) : Countless s (applyLiveLevel v s) := by
  have levelled : Countless s (levelled v s) := .of_eq rfl rfl rfl
  unfold applyLiveLevel
  split
  · exact .refl s
  · split
    · exact (levelled.trans (insertionTest_countless _)).trans (dueTest_countless _)
    · exact setDisplay_countless s _

/-! ### What the entry leaves once the ports are started and the estimates seeded -/

/-- What the lead, the timebase and the entry boundary leave. -/
structure EntryStill (s t : State) : Prop where
  settings : t.settings = s.settings
  level : t.disp.pendingLevel = s.disp.pendingLevel
  modes : ∀ w, (portOf t w).mode = (portOf s w).mode
  est : t.est = s.est
  readMark : t.pe.readMark = s.pe.readMark
  generation : t.pe.lastGeneration = s.pe.lastGeneration
  runStart : t.pe.runStart = s.pe.runStart
  runState : t.control.runState = s.control.runState
  countless : Countless s t

namespace EntryStill

theorem refl (s : State) : EntryStill s s := ⟨rfl, rfl, fun _ => rfl, rfl, rfl, rfl, rfl, rfl, .refl s⟩

theorem trans {s t u : State} (h : EntryStill s t) (g : EntryStill t u) : EntryStill s u :=
  ⟨g.settings.trans h.settings, g.level.trans h.level, fun w => (g.modes w).trans (h.modes w), g.est.trans h.est,
    g.readMark.trans h.readMark, g.generation.trans h.generation, g.runStart.trans h.runStart,
    g.runState.trans h.runState, h.countless.trans g.countless⟩

theorem of_steady {s t : State} (h : SteadyFrame s t) (countless : Countless s t) : EntryStill s t :=
  ⟨h.applied, h.level, fun w => by rw [portOf, h.ports, portOf], h.est, by rw [h.engine], by rw [h.engine],
    by rw [h.engine], by rw [h.control], countless⟩

/-- TB, the schedule, the output and the work outstanding change, with the entries that were there. -/
theorem update (s : State) (tb : Timebase) (out : Output) (work : Work) :
    EntryStill s { s with tb := tb, out := out, work := work } :=
  ⟨rfl, rfl, fun _ => rfl, rfl, rfl, rfl, rfl, rfl, .of_eq rfl rfl rfl⟩

end EntryStill

theorem insertionTest_entry (s : State) : EntryStill s (insertionTest s).1 :=
  .of_steady ((insertionTest_local s).steady (insertionTest_calm s)) (insertionTest_countless s)

theorem startLead_steady (s : State) : SteadyFrame s (startLead s) := by
  unfold startLead
  dsimp only
  split
  · exact giveLead_steady ..
  · exact giveLead_steady ..
  · exact .refl s

theorem startLead_countless (s : State) : Countless s (startLead s) := by
  unfold startLead
  dsimp only
  split
  · exact giveLead_countless ..
  · exact giveLead_countless ..
  · exact .refl s

theorem startLead_entry (s : State) : EntryStill s (startLead s) :=
  .of_steady (startLead_steady s) (startLead_countless s)

/-! ### The entry boundary (R3, R10, R11, R141, R155) -/

/-- A slot that a live RUNNING sends with the start CLEAR owed changes the schedule and the output alone. -/
theorem stageUnits_leaves (fuel n : Nat) (s : State) : ∃ air out,
    (stageUnits fuel n s).2 = { s with air := air, out := out } ∧
    (s.air.entries = [] → air.entries = []) := by
  induction fuel generalizing n s with
  | zero => exact ⟨s.air, s.out, rfl, id⟩
  | succ fuel ih =>
    have staged (n : Nat) (u : State) (air : AirSchedule) (out : Output) (left : u = { s with air := air, out := out })
        (empty : s.air.entries = [] → air.entries = []) : ∃ air out,
          (stageUnits fuel n u).2 = { s with air := air, out := out } ∧
          (s.air.entries = [] → air.entries = []) := by
      obtain ⟨air', out', e, still⟩ := ih n u
      rw [left] at e still
      exact ⟨air', out', left ▸ e, fun none => still (empty none)⟩
    have sent (id : Word32) (k : Nat) (none : s.air.entries = []) : (sendUnits id k s).air.entries = [] := by
      simp [sendUnits, none]
    unfold stageUnits
    dsimp only
    repeat' split
    · exact staged _ _ _ _ rfl (sent _ _)
    · exact staged _ _ _ s.out rfl (sent _ _)
    · exact ⟨s.air, s.out, rfl, id⟩
    · exact staged _ _ _ _ rfl (sent _ _)
    · exact ⟨s.air, s.out, rfl, id⟩
    · exact ⟨s.air, s.out, rfl, id⟩

theorem airOut_entry (s : State) (air : AirSchedule) (out : Output) (empty : s.air.entries = [] → air.entries = []) :
    EntryStill s { s with air := air, out := out } :=
  ⟨rfl, rfl, fun _ => rfl, rfl, rfl, rfl, rfl, rfl, ⟨fun rows => ⟨rows.1, empty rows.2⟩, fun _ => rfl⟩⟩

/-- With the start CLEAR owed a slot shows no row (R141, R143). -/
theorem runningSlot_entry {s : State} (owed : s.out.owed = .startClear) : EntryStill s (runningSlot s) := by
  have cleared : EntryStill s (commandUnit s).2 := by
    rw [commandUnit_startClear owed]
    exact airOut_entry s s.air _ id
  obtain ⟨air, out, staged, empty⟩ := stageUnits_leaves s.settings.slotUnits (s.settings.slotUnits - 1) (commandUnit s).2
  unfold runningSlot
  dsimp only
  rw [staged]
  exact (cleared.trans (airOut_entry _ air out empty)).trans (airOut_entry _ air _ id)

theorem frameCounts_entry (s : State) : EntryStill s (frameCounts s) := by
  refine ⟨rfl, rfl, fun w => ?_, rfl, rfl, rfl, rfl, rfl, .of_eq rfl rfl rfl⟩
  show (get (s.ports.map countPort) w).mode = _
  rw [get_map, countPort_mode]
  rfl

theorem scanBoundary_entry (s : State) : EntryStill s (scanBoundary s) := by
  unfold scanBoundary
  repeat' split
  · exact .refl s
  all_goals exact ⟨rfl, rfl, fun _ => rfl, rfl, rfl, rfl, rfl, rfl, .of_eq rfl rfl rfl⟩

theorem frameCues_entry (s : State) : EntryStill s (frameCues s) := by
  have fed (t : State) : EntryStill t (feedTest t) :=
    .of_steady ((feedTest_local t).steady (feedTest_calm t)) (feedTest_countless t)
  have tested : EntryStill s (dueTest s).1 :=
    .of_steady ((dueTest_local s).steady (dueTest_calm s)) (dueTest_countless s)
  unfold frameCues
  split
  · exact tested.trans (fed _)
  · exact fed s

theorem frameWork_entry {s : State} (running : s.control.runState = .running) (owed : s.out.owed = .startClear) :
    EntryStill s (frameWork s) := by
  have own : slotDeferred (frameCounts s) = false := by
    show (isRunning s && decide (s.out.owed = .none) && _) = false
    rw [owed]
    simp
  have slot : frameSlot (frameCounts s) = runningSlot (frameCounts s) := by
    rw [frameSlot, own]
    exact slotNow_of_running running
  have fed (t : State) : EntryStill t (feedAttempt t) :=
    .of_steady (feedAttempt_steady t) (feedAttempt_countless t)
  rw [frameWork, slot]
  exact (((((frameCounts_entry s).trans (runningSlot_entry (s := frameCounts s) owed)).trans (scanBoundary_entry _)).trans
    (fed _)).trans (frameCues_entry _)).trans (.update _ _ _ _)

theorem newFrame_entry (origin : Nat) (s : State) : EntryStill s (newFrame origin s) := by
  have opened := newFrame_opened origin s
  exact ⟨opened.sameSettings, by rw [opened.disp], fun w => by rw [portOf, opened.ports, portOf], opened.est,
    by rw [opened.engine], by rw [opened.engine], by rw [opened.engine], opened.runState,
    .of_eq opened.queue (by rw [opened.air]) opened.counters⟩

theorem tbTurns_entry (left entered : TbMode) (cause : RefCause) (s : State) : EntryStill s (tbTurns left entered cause s) :=
  ((EntryStill.update s _ s.out s.work).trans (.of_steady (journal_steady ..) (journal_countless ..))).trans
    (.of_steady (raise_steady (by decide) _) (raise_countless ..))

/-- The frame of the entry into RUNNING (R10, R11). -/
theorem tbEnters_entry {s : State} (running : s.control.runState = .running) (owed : s.out.owed = .startClear) :
    EntryStill s (tbEnters s) := by
  have opened := newFrame_opened s.clock s
  have begins : EntryStill s (frameWork (newFrame s.clock s)) :=
    (newFrame_entry ..).trans (frameWork_entry (opened.runState.trans running) (by rw [opened.out, owed]))
  have turned := opened.tbTurns .unlocked .freewheel .runStart
  unfold tbEnters
  split
  · exact ((newFrame_entry ..).trans (tbTurns_entry ..)).trans
      (frameWork_entry (turned.runState.trans running) (by rw [turned.out, owed]))
  all_goals
    split
    · exact begins
    · exact .refl s

theorem tbEnters_lead (s : State) : (tbEnters s).la.lead = s.la.lead := by
  have opened := newFrame_opened s.clock s
  have begins : (frameWork (newFrame s.clock s)).la.lead = s.la.lead := by
    rw [(frameWork_frame _).lead, opened.la]
  unfold tbEnters
  split
  · rw [(frameWork_frame _).lead, (opened.tbTurns ..).la]
  all_goals
    split
    · exact begins
    · rfl

theorem newFrame_mode (origin : Nat) (s : State) : (newFrame origin s).tb.mode = s.tb.mode := by
  cases load : s.tb.load with
  | none =>
    rw [newFrame_of_noLoad load]
    rfl
  | some f =>
    rw [newFrame_of_load (by simp [load]), loadTaken_eq]
    rfl

theorem tbTurns_mode (left entered : TbMode) (cause : RefCause) (s : State) :
    (tbTurns left entered cause s).tb.mode = entered := by
  rw [(tbTurns_slotStill left entered cause s).tb]

/-- TB without a reference begins to freewheel, and keeps its state else (R10, R11). -/
theorem tbEnters_mode (s : State) : (tbEnters s).tb.mode = if s.tb.mode = .unlocked then .freewheel else s.tb.mode := by
  have begins : (frameWork (newFrame s.clock s)).tb.mode = s.tb.mode := by rw [frameWork_tb, newFrame_mode]
  unfold tbEnters
  split
  · rename_i unlocked
    rw [frameWork_tb, tbTurns_mode, unlocked]
    rfl
  · rename_i locked
    rw [if_neg (c := s.tb.mode = .unlocked) (by rw [locked]; decide)]
    split
    · exact begins
    · rfl
  · rename_i freewheel
    rw [if_neg (c := s.tb.mode = .unlocked) (by rw [freewheel]; decide)]
    split
    · exact begins
    · rfl

end Sys2Proof.Machine
end

