-- ==== Sys2Proof/Proofs/SettingsReadOfStarting.lean ====
section
/-! The settings read of STARTING (R160, R174, R175): the application that takes every group (R158), and the entry into
RUNNING that follows it. -/

namespace Sys2Proof.Machine

/-! ### The rates and the load (R11) -/

theorem tbTurns_leaves (left entered : TbMode) (cause : RefCause) (s : State) : ∃ attn buffer lost,
    tbTurns left entered cause s = { s with
      tb := { s.tb with mode := entered }, control := { s.control with attn := attn }
      pe := { s.pe with buffer := buffer, lost := lost } } := by
  unfold tbTurns
  rcases journal_cases (.referenceState left entered cause) { s with tb := { s.tb with mode := entered } } with
    ⟨_, e⟩ | ⟨_, e⟩ <;> rw [e] <;> exact ⟨_, _, _, rfl⟩

/-- The applied settings with the group A values of new ones. -/
def structuredTo (new x : Settings) : Settings :=
  { x with
    rateCode := new.rateCode, divider := new.divider, slotUnits := new.slotUnits, rowWidth := new.rowWidth
    displayRows := new.displayRows, leadAtStart := new.leadAtStart }

/-- TB's state after rates that may differ from those of s. -/
def modeTaken (new : Settings) (s : State) : TbMode :=
  if new.rateCode = s.settings.rateCode ∧ new.divider = s.settings.divider then s.tb.mode else .unlocked

theorem tbRates_leaves (new : Settings) (s : State) : ∃ tb attn buffer lost,
    tbRates new.rateCode new.divider s = { s with
      settings := { s.settings with rateCode := new.rateCode, divider := new.divider }
      tb := tb, control := { s.control with attn := attn }, pe := { s.pe with buffer := buffer, lost := lost } } ∧
    tb.mode = modeTaken new s := by
  unfold tbRates modeTaken
  rw [← Bool.decide_and]
  simp only [decide_eq_true_eq]
  split
  · exact ⟨_, _, _, _, rfl, rfl⟩
  · split
    · exact ⟨_, _, _, _, rfl, rfl⟩
    · obtain ⟨attn, buffer, lost, e⟩ := tbTurns_leaves s.tb.mode .unlocked .rateChange { s with
        settings := { s.settings with rateCode := new.rateCode, divider := new.divider }
        tb := { s.tb with
          mode := .unlocked, origin := none, lastPulse := none, phase := false, heldTick := 0, stepped := none } }
      exact ⟨_, attn, buffer, lost, e, rfl⟩

theorem applyStructure_leaves (new : Settings) (load : Option Frame) (s : State) : ∃ tb attn buffer lost,
    applyStructure new load s = { s with
      settings := structuredTo new s.settings
      tb := tb, control := { s.control with attn := attn }, pe := { s.pe with buffer := buffer, lost := lost } } ∧
    tb.mode = modeTaken new s := by
  obtain ⟨tb, attn, buffer, lost, rated, mode⟩ := tbRates_leaves new s
  unfold applyStructure
  rw [rated]
  cases load with
  | none => exact ⟨tb, attn, buffer, lost, rfl, mode⟩
  | some f => exact ⟨{ tb with load := some f, phase := false }, attn, buffer, lost, rfl, mode⟩

/-! ### The ports while the part is stopped (R17, R91) -/

theorem silentLeadNow_of_noLead {s : State} (leadless : s.la.lead = none) :
    silentLeadNow s = { s with work := { s.work with silence := false } } := by
  cases marked : s.work.silence with
  | false =>
    rw [silentLeadNow_unmarked marked, ← marked]
  | true =>
    rw [silentLeadNow_marked marked]
    exact if_neg (by simp [leadSilent, leadless])

theorem silentLeads_of_noLead {s : State} (leadless : s.la.lead = none) :
    silentLeads s = { s with work := { s.work with silence := false } } := by
  rw [silentLeads, silentLeadNow_of_noLead leadless]
  repeat rw [silentLeadNow_of_noLead (by exact leadless)]

/-- Out of RUNNING, with no lead, an application of the ports takes their settings and nothing else. -/
theorem foldl_applyWriter_of_leadless (new : Settings) (l : List Writer) {s : State} (idle : Leadless s) : ∃ writers work,
    l.foldl (applyWriter new) s = { s with settings := { s.settings with writers := writers }, work := work } := by
  induction l generalizing s with
  | nil => exact ⟨s.settings.writers, s.work, rfl⟩
  | cons w rest ih =>
    have first : applyWriter new s w = { portWritten new s w with work := { s.work with silence := false } } := by
      rw [applyWriter, applyPort_of_stopped idle.stopped, silentLeads_of_noLead (by exact idle.lead)]
      rfl
    rw [List.foldl_cons, first]
    obtain ⟨writers, work, e⟩ :=
      ih (s := { portWritten new s w with work := { s.work with silence := false } }) ⟨idle.stopped, idle.lead⟩
    exact ⟨writers, work, e⟩

theorem portsTaken_of_leadless (new : Settings) {s : State} (idle : Leadless s) : ∃ work,
    portsTaken new (voicesTaken new s) = { s with
      settings := { tunedTo new s.settings with delay := new.delay, lines := new.lines, writers := new.writers }
      est := (applyTuning new s).est, capture := Vector.ofFn (lineAfter new s), work := work } := by
  obtain ⟨writers, work, e⟩ := foldl_applyWriter_of_leadless new allWriters (s := voicesTaken new s) (by
    rw [voicesTaken_eq]
    exact ⟨idle.stopped, idle.lead⟩)
  have taken : writers = new.writers := by rw [← portsTaken_writers new s, portsTaken, e]
  refine ⟨work, ?_⟩
  rw [portsTaken, e, voicesTaken_eq, taken]
  rfl

/-! ### The application (R158, R160) -/

/-- The state of an application of STARTING before the live level: the values are taken, the live level and the forced lead
aside, and no port has moved. -/
structure Structured (new : Settings) (s u : State) : Prop where
  settings : u.settings = { new with liveLevel := s.settings.liveLevel, forcedLead := s.settings.forcedLead }
  mode : u.tb.mode = modeTaken new s
  disp : u.disp = s.disp
  ports : u.ports = s.ports
  la : u.la = s.la
  readMark : u.pe.readMark = s.pe.readMark
  writeCount : u.pe.writeCount = s.pe.writeCount
  countless : Countless s u

theorem structured (new : Settings) (load : Option Frame) {s : State} (idle : Leadless s) :
    Structured new s (portsTaken new (voicesTaken new (applyStructure new load s))) := by
  obtain ⟨tb, attn, buffer, lost, e, mode⟩ := applyStructure_leaves new load s
  obtain ⟨work, taken⟩ := portsTaken_of_leadless new (s := applyStructure new load s) (by
    rw [e]
    exact ⟨idle.stopped, idle.lead⟩)
  rw [taken, e]
  exact ⟨rfl, mode, rfl, rfl, rfl, rfl, rfl, .of_eq rfl rfl rfl⟩

/-- With the stack empty the live level is taken at once, and a pending one dropped (R122, R124). -/
theorem applyLiveLevel_onEmpty (v : Nat) {s : State} (empty : s.disp.stack = []) :
    (applyLiveLevel v s).settings.liveLevel = v ∧
    (applyLiveLevel v s).disp.pendingLevel = if v = s.settings.liveLevel then s.disp.pendingLevel else none := by
  split
  · rename_i same
    rw [applyLiveLevel_same same]
    exact ⟨same.symm, rfl⟩
  · rename_i other
    exact applyLiveLevel_taken other (by simp [empty])

/-- The state of an application of STARTING before its report: every group is taken, and no port has moved. -/
structure Applied (new : Settings) (s q : State) : Prop where
  settings : q.settings = new
  level : q.disp.pendingLevel = if new.liveLevel = s.settings.liveLevel then s.disp.pendingLevel else none
  mode : q.tb.mode = modeTaken new s
  ports : q.ports = s.ports
  la : q.la = s.la
  readMark : q.pe.readMark = s.pe.readMark
  writeCount : q.pe.writeCount = s.pe.writeCount
  countless : Countless s q

theorem Structured.applied {new : Settings} {s u : State} (h : Structured new s u) (empty : s.disp.stack = []) :
    Applied new s (setForced new.forcedLead (applyLiveLevel new.liveLevel u)) := by
  have frame : LeadFrame u (applyLiveLevel new.liveLevel u) := levelTaken_frame new u
  obtain ⟨level, pending⟩ := applyLiveLevel_onEmpty new.liveLevel (s := u) (by rw [h.disp, empty])
  constructor
  case settings =>
    show { (applyLiveLevel new.liveLevel u).settings with forcedLead := new.forcedLead } = new
    rw [frame.settings, level, h.settings]
  case level =>
    show (applyLiveLevel new.liveLevel u).disp.pendingLevel = _
    rw [pending, h.settings, h.disp]
  case mode => exact (congrArg Timebase.mode frame.tb).trans h.mode
  case ports => exact frame.ports.trans h.ports
  case la => exact (applyLiveLevel_local ..).la.trans h.la
  case readMark => exact (congrArg PageEngine.readMark frame.engine).trans h.readMark
  case writeCount => exact (congrArg PageEngine.writeCount frame.engine).trans h.writeCount
  case countless => exact (h.countless.trans (applyLiveLevel_countless ..)).trans (.of_eq rfl rfl rfl)

/-- The state in which the part enters RUNNING: every group is taken, the mark tested, and the run-start scan pending. -/
structure Readied (new : Settings) (generation mark : Word32) (s p : State) : Prop where
  settings : p.settings = new
  level : p.disp.pendingLevel = if new.liveLevel = s.settings.liveLevel then s.disp.pendingLevel else none
  mode : p.tb.mode = modeTaken new s
  ports : p.ports = s.ports
  la : p.la = s.la
  readMark : p.pe.readMark = markTaken mark s
  generation : p.pe.lastGeneration = generation
  runStart : p.pe.runStart = true
  countless : Countless s p

theorem Applied.readied {new : Settings} {s q : State} (h : Applied new s q) (generation mark : Word32)
    (clamped : List Nat) :
    Readied new generation mark s (pendRunStart (acceptMark mark (reportSettings generation clamped [] q))) := by
  obtain ⟨attn, buffer, lost, reported⟩ := reportSettings_leaves generation clamped [] q
  rw [acceptMark_eq, reported]
  refine ⟨h.settings, h.level, h.mode, h.ports, h.la, ?_, rfl, rfl, h.countless.trans (.of_eq rfl rfl rfl)⟩
  show (if (q.pe.writeCount - mark).toNat ≤ 256 then mark else q.pe.readMark) = markTaken mark s
  rw [h.readMark, h.writeCount, markTaken]

theorem startingApplied_readied (words : HeaderWords) (block : List Byte) {s : State} (idle : Leadless s)
    (empty : s.disp.stack = []) :
    Readied (parseSettings block) words.generation words.readMark s (startingApplied words block s) := by
  have applied := (structured (parseSettings block) (parseLoad block) idle).applied empty
  have untested : silenceOfApplication (setForced (parseSettings block).forcedLead
      (applyLiveLevel (parseSettings block).liveLevel (portsTaken (parseSettings block) (voicesTaken (parseSettings block)
        (applyStructure (parseSettings block) (parseLoad block) s))))) = _ :=
    if_neg (by rw [applied.la, idle.lead]; decide)
  have readied := applied.readied words.generation words.readMark (clampedFields block)
  rw [← untested] at readied
  exact readied

/-! ### The ports, the estimates and the lead at the entry (R17, R68, R84) -/

/-- The state that a port whose writer has these settings is in after the entry. -/
def entryMode (x : WriterSettings) (left : PortMode) : PortMode :=
  if x.enable then (if x.auto then .acquire else .run) else left

@[simp] theorem entryMode_twice (x : WriterSettings) (left : PortMode) :
    entryMode x (entryMode x left) = entryMode x left := by
  unfold entryMode
  repeat' split
  all_goals rfl

theorem startedPort_mode (x : WriterSettings) (clock : Nat) :
    (startedPort x clock).mode = if x.auto then .acquire else .run := by
  unfold startedPort
  split <;> rfl

theorem startPort_leaves (s : State) (v : Writer) : ∃ ports, startPort s v = { s with ports := ports } ∧
    ∀ w, (get ports w).mode = if v = w then entryMode (writerOf s w) (portOf s w).mode else (portOf s w).mode := by
  unfold startPort
  split
  · rename_i enabled
    refine ⟨_, rfl, fun w => ?_⟩
    rw [get_change]
    split
    · rename_i same
      rw [startedPort_mode, entryMode, ← same, if_pos enabled]
    · rfl
  · rename_i disabled
    refine ⟨s.ports, rfl, fun w => ?_⟩
    split
    · rename_i same
      rw [entryMode, ← same, if_neg disabled, portOf]
    · rfl

/-- A pass over the writers of l starts the ports of those that are enabled. -/
theorem foldl_startPort (l : List Writer) (s : State) : ∃ ports, l.foldl startPort s = { s with ports := ports } ∧
    ∀ w, (get ports w).mode = if w ∈ l then entryMode (writerOf s w) (portOf s w).mode else (portOf s w).mode := by
  induction l generalizing s with
  | nil => exact ⟨s.ports, rfl, fun _ => by rw [if_neg List.not_mem_nil, portOf]⟩
  | cons v rest ih =>
    obtain ⟨first, started, now⟩ := startPort_leaves s v
    obtain ⟨ports, e, modes⟩ := ih (startPort s v)
    rw [started] at e modes
    refine ⟨ports, by rw [List.foldl_cons, started, e], fun w => (modes w).trans ?_⟩
    show (if w ∈ rest then entryMode (writerOf s w) (get first w).mode else (get first w).mode) = _
    rw [now]
    by_cases same : v = w
    · simp [same]
    · simp [same, Ne.symm same]

/-- A pass over the writers of l seeds their estimates. -/
theorem foldl_seedWriter (l : List Writer) (s : State) : ∃ est, l.foldl seedWriter s = { s with est := est } ∧
    ∀ w, get est w = if w ∈ l then seeded s else get s.est w := by
  induction l generalizing s with
  | nil => exact ⟨s.est, rfl, fun _ => by rw [if_neg List.not_mem_nil]⟩
  | cons v rest ih =>
    obtain ⟨est, e, values⟩ := ih (seedWriter s v)
    have first (w : Writer) : get (seedWriter s v).est w = if v = w then seeded s else get s.est w := get_change ..
    refine ⟨est, e, fun w => (values w).trans ?_⟩
    show (if w ∈ rest then seeded s else _) = _
    rw [first]
    by_cases same : v = w
    · simp [same]
    · simp [same, Ne.symm same]

theorem startLead_forced {s : State} {f : Writer} (forced : s.settings.forcedLead = some f)
    (enabled : (writerOf s f).enable = true) : (startLead s).la.lead = some f := by
  have given : startLead s = giveLead f .forced s := by simp [startLead, forced, enabled, Option.filter]
  rw [given, (giveLead_gives ..).1]

theorem startLead_atStart {s : State} {w : Writer} (leadless : s.la.lead = none)
    (unforced : ∀ f, s.settings.forcedLead = some f → (writerOf s f).enable = false)
    (atStart : s.settings.leadAtStart = some w) :
    (startLead s).la.lead = if (writerOf s w).enable then some w else none := by
  have noForced : s.settings.forcedLead.filter (fun f => (writerOf s f).enable) = none := by
    rw [Option.filter_eq_none_iff]
    intro f forced
    rw [unforced f forced]
    decide
  unfold startLead
  dsimp only
  rw [noForced, atStart]
  cases enabled : (writerOf s w).enable with
  | true => simp [Option.filter, enabled, (giveLead_gives ..).1]
  | false => simp [Option.filter, enabled, leadless]

/-! ### The entry (R10, R17, R68, R84) -/

/-- s with the part in RUNNING, the ports started, the estimates seeded and the start CLEAR owed. -/
def startedUp (s : State) : State :=
  let u := allWriters.foldl seedWriter
    (allWriters.foldl startPort { s with control := { s.control with runState := .running } })
  { u with out := { u.out with owed := .startClear } }

theorem mem_allWriters (w : Writer) : w ∈ allWriters := by revert w; decide

theorem startedUp_leaves (s : State) : ∃ ports est, startedUp s = { s with
      control := { s.control with runState := .running }, out := { s.out with owed := .startClear }
      ports := ports, est := est } ∧
    (∀ w, (get ports w).mode = entryMode (writerOf s w) (portOf s w).mode) ∧ ∀ w, get est w = seeded s := by
  obtain ⟨ports, started, modes⟩ :=
    foldl_startPort allWriters { s with control := { s.control with runState := .running } }
  obtain ⟨est, seeds, values⟩ :=
    foldl_seedWriter allWriters { s with control := { s.control with runState := .running }, ports := ports }
  refine ⟨ports, est, ?_, fun w => ?_, fun w => ?_⟩
  · rw [startedUp, started, seeds]
  · exact (modes w).trans (if_pos (mem_allWriters w))
  · exact (values w).trans (if_pos (mem_allWriters w))

/-- s with the lead given and what follows of it. -/
def ledIn (s : State) : State := (insertionTest (startLead (startedUp s))).1

theorem enterRunning_eq (s : State) : enterRunning s = tbEnters (ledIn s) := rfl

theorem ledIn_steady (s : State) : SteadyFrame (startedUp s) (ledIn s) :=
  (startLead_steady _).trans ((insertionTest_local _).steady (insertionTest_calm _))

theorem enterRunning_entry (s : State) : EntryStill (startedUp s) (enterRunning s) := by
  obtain ⟨ports, est, e, _⟩ := startedUp_leaves s
  have led : EntryStill (startedUp s) (ledIn s) := (startLead_entry _).trans (insertionTest_entry _)
  refine led.trans (tbEnters_entry (led.runState.trans ?_) ((congrArg Output.owed (ledIn_steady s).out).trans ?_))
  all_goals rw [e]

theorem enterRunning_lead (s : State) : (enterRunning s).la.lead = (startLead (startedUp s)).la.lead := by
  rw [enterRunning_eq, tbEnters_lead, ledIn, (insertionTest_local _).la]

theorem enterRunning_mode (s : State) :
    (enterRunning s).tb.mode = if s.tb.mode = .unlocked then .freewheel else s.tb.mode := by
  obtain ⟨ports, est, e, _⟩ := startedUp_leaves s
  rw [enterRunning_eq, tbEnters_mode, (ledIn_steady s).tb, e]

/-- What the entry makes of a state in which no port runs and no writer leads. -/
structure EnteredRunning (s t : State) : Prop where
  runState : t.control.runState = .running
  settings : t.settings = s.settings
  level : t.disp.pendingLevel = s.disp.pendingLevel
  readMark : t.pe.readMark = s.pe.readMark
  generation : t.pe.lastGeneration = s.pe.lastGeneration
  runStart : t.pe.runStart = s.pe.runStart
  modes : ∀ w, (portOf t w).mode = entryMode (writerOf s w) .off
  est : ∀ w, get t.est w = seeded s
  forced : ∀ f, s.settings.forcedLead = some f → (writerOf s f).enable = true → t.la.lead = some f
  atStart : ∀ w, (∀ f, s.settings.forcedLead = some f → (writerOf s f).enable = false) →
    s.settings.leadAtStart = some w → t.la.lead = if (writerOf s w).enable then some w else none
  mode : t.tb.mode = if s.tb.mode = .unlocked then .freewheel else s.tb.mode
  countless : Countless s t

theorem startedUp_countless (s : State) : Countless s (startedUp s) := by
  obtain ⟨ports, est, e, _⟩ := startedUp_leaves s
  rw [e]
  exact .of_eq rfl rfl rfl

theorem enterRunning_enters {s : State} (leadless : s.la.lead = none) (off : ∀ w, (portOf s w).mode = .off) :
    EnteredRunning s (enterRunning s) := by
  obtain ⟨ports, est, e, modes, seeds⟩ := startedUp_leaves s
  have still := enterRunning_entry s
  have countless := (startedUp_countless s).trans still.countless
  have lead := enterRunning_lead s
  rw [e] at still lead
  exact {
    runState := still.runState
    settings := still.settings
    level := still.level
    readMark := still.readMark
    generation := still.generation
    runStart := still.runStart
    modes := fun w => by
      rw [still.modes w, ← off w]
      exact modes w
    est := fun w => by
      rw [still.est]
      exact seeds w
    forced := fun f named enabled => lead.trans (startLead_forced named enabled)
    atStart := fun w unforced named => lead.trans (startLead_atStart leadless unforced named)
    mode := enterRunning_mode s
    countless := countless }

theorem startingRead_of_run {words : HeaderWords} {block : List Byte} {s : State} {since : Nat}
    (reads : s.pe.op = some (.settingsRead since)) (run : s.control.run = true) :
    startingRead words block s = enterRunning (startingApplied words block (withOp none s)) := by
  rw [startingRead, reads]
  exact if_pos run

theorem startingRead_of_noRun {words : HeaderWords} {block : List Byte} {s : State} {since : Nat}
    (reads : s.pe.op = some (.settingsRead since)) (noRun : s.control.run = false) :
    startingRead words block s = backToHalted (withOp none s) := by
  rw [startingRead, reads]
  exact if_neg (by rw [noRun]; decide)

/-- What the read leaves of PE's operation is nothing that the application or the entry looks at. -/
theorem Readied.of_ended {new : Settings} {generation mark : Word32} {a p : State}
    (h : Readied new generation mark (withOp none a) p) : Readied new generation mark a p :=
  ⟨h.settings, h.level, h.mode, h.ports, h.la, h.readMark, h.generation, h.runStart,
    ⟨h.countless.rowless, h.countless.counters⟩⟩

theorem startingApplied_ended (words : HeaderWords) (block : List Byte) {a : State}
    (starting : a.control.runState = .starting) (leadless : a.la.lead = none) (empty : a.disp.stack = []) :
    Readied (parseSettings block) words.generation words.readMark a (startingApplied words block (withOp none a)) := by
  have stopped : isRunning a = false := by simp [isRunning, starting]
  exact (startingApplied_readied words block (s := withOp none a) ⟨stopped, leadless⟩ empty).of_ended

theorem Readied.writer {new : Settings} {generation mark : Word32} {a p : State} (h : Readied new generation mark a p)
    (w : Writer) : writerOf p w = get new.writers w := by rw [writerOf, h.settings]

/-- TB keeps its state where the rates stand and it has a reference (R10, R11). -/
theorem EnteredRunning.mode_of_kept {new : Settings} {generation mark : Word32} {a p t : State}
    (entered : EnteredRunning p t) (ready : Readied new generation mark a p) (rate : new.rateCode = a.settings.rateCode)
    (divider : new.divider = a.settings.divider) (referenced : a.tb.mode ≠ .unlocked) : t.tb.mode = a.tb.mode := by
  have mode : p.tb.mode = a.tb.mode := ready.mode.trans (if_pos ⟨rate, divider⟩)
  rw [entered.mode, mode, if_neg referenced]

/-- TB begins to freewheel where a rate changes or no reference was there (R10, R11). -/
theorem EnteredRunning.mode_of_left {new : Settings} {generation mark : Word32} {a p t : State}
    (entered : EnteredRunning p t) (ready : Readied new generation mark a p)
    (left : new.rateCode ≠ a.settings.rateCode ∨ new.divider ≠ a.settings.divider ∨ a.tb.mode = .unlocked) :
    t.tb.mode = .freewheel := by
  have mode : p.tb.mode = .unlocked := by
    rw [ready.mode, modeTaken]
    split
    · rename_i same
      exact (left.resolve_left (not_not_intro same.1)).resolve_left (not_not_intro same.2)
    · rfl
  rw [entered.mode, if_pos mode]

/-- Settles O47: with RUN 0 nothing is applied; with RUN 1 the application takes every group, and the entry starts the ports,
seeds the estimates, gives the lead and sets TB going. -/
theorem settingsReadEntersRunningOrReturns : Obligations.SettingsReadEntersRunningOrReturns := by
  intro m header block s a since finds starting reads
  have completes : exec (.settingsReadComplete m header block) s = .next (startingRead (parseHeader header) block a) :=
    congrArg Host.Outcome.next (event_of_finds finds _)
  refine ⟨fun noRun => ?_, fun run reset off empty => ⟨_, completes, ?_⟩⟩
  · rw [completes, startingRead_of_noRun reads noRun]
    rfl
  have leadless : a.la.lead = none := by rw [reset, Arbiter.reset]
  have ready := startingApplied_ended (parseHeader header) block starting leadless empty
  have kept := startingRead_keeps (parseHeader header) block a
  rw [startingRead_of_run reads run] at kept ⊢
  generalize startingApplied (parseHeader header) block (withOp none a) = p at ready kept ⊢
  have entered : EnteredRunning p (enterRunning p) :=
    enterRunning_enters (ready.la ▸ leadless) fun w => by rw [portOf, ready.ports]; exact off w
  generalize enterRunning p = t at entered kept ⊢
  refine ⟨entered.runState, entered.settings.trans ready.settings, entered.generation.trans ready.generation,
    entered.runStart.trans ready.runStart, entered.readMark.trans ready.readMark,
    ⟨parseSettings_taken block, entered.level.trans ready.level, fun w => ?_, fun w => ?_, fun f named enabled => ?_,
      fun w unforced named => ?_, fun ⟨rate, divider, referenced⟩ => entered.mode_of_kept ready rate divider referenced,
      entered.mode_of_left ready⟩, ⟨kept.mem, kept.base, kept.pending⟩, fun queue entries => ?_⟩
  · rw [entered.modes, ready.writer, entryMode]
  · rw [entered.est, seeded, clampEstimate, lmaxBound, ready.settings]
  · exact entered.forced f (by rw [ready.settings, named]) (by rw [ready.writer, enabled])
  · rw [entered.atStart w (fun f forced => by rw [ready.writer, unforced f (by rw [← ready.settings, forced])])
      (by rw [ready.settings, named]), ready.writer]
  · exact (entered.countless.counters (ready.countless.rowless ⟨queue, entries⟩)).trans
      (ready.countless.counters ⟨queue, entries⟩)

end Sys2Proof.Machine
end
